-- ==== Sys2Proof/Word.lean ====
section
/-! DEFINITION. The words of the Hengaro 4260's lines and counts, the names of its outlets and
modules, and the tables of four outlets and twelve modules that State is built of. -/

namespace Sys2Proof

/-- One byte of a frame (R172, R186). -/
abbrev Byte := BitVec 8

/-- The run count: microseconds of the running source since supply-on, 64 bits wide (R5). -/
abbrev RunCount := BitVec 64

/-- The time between two run counts. R5 measures every duration "as a difference of run counts". -/
def elapsed (now since : RunCount) : Nat := (now - since).toNat

/-- The outlets O1 to O4 (paragraph 0.7). -/
inductive Outlet where
  | o1 | o2 | o3 | o4
deriving DecidableEq, Repr

/-- The modules M1 to M12 (paragraph 0.7). -/
inductive ModuleNo where
  | m1 | m2 | m3 | m4 | m5 | m6 | m7 | m8 | m9 | m10 | m11 | m12
deriving DecidableEq, Repr

/-- The outlets in order of number. -/
def Outlet.all : List Outlet := [.o1, .o2, .o3, .o4]

/-- An outlet's number, 1 to 4. -/
def Outlet.number : Outlet → Nat
  | .o1 => 1 | .o2 => 2 | .o3 => 3 | .o4 => 4

/-- The outlet of a number; none outside O1 to O4. -/
def Outlet.ofNumber (n : Nat) : Option Outlet :=
  match n with
  | 1 => some .o1 | 2 => some .o2 | 3 => some .o3 | 4 => some .o4
  | _ => none

/-- The modules in order of number. -/
def ModuleNo.all : List ModuleNo :=
  [.m1, .m2, .m3, .m4, .m5, .m6, .m7, .m8, .m9, .m10, .m11, .m12]

/-- A module's number, 1 to 12. -/
def ModuleNo.number : ModuleNo → Nat
  | .m1 => 1 | .m2 => 2 | .m3 => 3 | .m4 => 4 | .m5 => 5 | .m6 => 6
  | .m7 => 7 | .m8 => 8 | .m9 => 9 | .m10 => 10 | .m11 => 11 | .m12 => 12

/-- The module of a number; none outside M1 to M12. -/
def ModuleNo.ofNumber (n : Nat) : Option ModuleNo :=
  match n with
  | 1 => some .m1 | 2 => some .m2 | 3 => some .m3 | 4 => some .m4 | 5 => some .m5 | 6 => some .m6
  | 7 => some .m7 | 8 => some .m8 | 9 => some .m9 | 10 => some .m10 | 11 => some .m11
  | 12 => some .m12
  | _ => none

/-- One value for each outlet. -/
structure Quad (α : Type) where
  o1 : α
  o2 : α
  o3 : α
  o4 : α
deriving DecidableEq, Repr

/-- The value of an outlet. -/
def Quad.get {α : Type} (q : Quad α) : Outlet → α
  | .o1 => q.o1 | .o2 => q.o2 | .o3 => q.o3 | .o4 => q.o4

/-- The table with one outlet's value replaced. -/
def Quad.set {α : Type} (q : Quad α) (o : Outlet) (a : α) : Quad α :=
  match o with
  | .o1 => { q with o1 := a }
  | .o2 => { q with o2 := a }
  | .o3 => { q with o3 := a }
  | .o4 => { q with o4 := a }

/-- The table that holds one value for every outlet. -/
def Quad.fill {α : Type} (a : α) : Quad α := { o1 := a, o2 := a, o3 := a, o4 := a }

/-- The four values in order of outlet number. -/
def Quad.toList {α : Type} (q : Quad α) : List α := [q.o1, q.o2, q.o3, q.o4]

/-- One value for each module. -/
structure Dozen (α : Type) where
  m1 : α
  m2 : α
  m3 : α
  m4 : α
  m5 : α
  m6 : α
  m7 : α
  m8 : α
  m9 : α
  m10 : α
  m11 : α
  m12 : α
deriving DecidableEq, Repr

/-- The value of a module. -/
def Dozen.get {α : Type} (d : Dozen α) : ModuleNo → α
  | .m1 => d.m1 | .m2 => d.m2 | .m3 => d.m3 | .m4 => d.m4 | .m5 => d.m5 | .m6 => d.m6
  | .m7 => d.m7 | .m8 => d.m8 | .m9 => d.m9 | .m10 => d.m10 | .m11 => d.m11 | .m12 => d.m12

/-- The table with one module's value replaced. -/
def Dozen.set {α : Type} (d : Dozen α) (m : ModuleNo) (a : α) : Dozen α :=
  match m with
  | .m1 => { d with m1 := a }
  | .m2 => { d with m2 := a }
  | .m3 => { d with m3 := a }
  | .m4 => { d with m4 := a }
  | .m5 => { d with m5 := a }
  | .m6 => { d with m6 := a }
  | .m7 => { d with m7 := a }
  | .m8 => { d with m8 := a }
  | .m9 => { d with m9 := a }
  | .m10 => { d with m10 := a }
  | .m11 => { d with m11 := a }
  | .m12 => { d with m12 := a }

/-- The table that holds one value for every module. -/
def Dozen.fill {α : Type} (a : α) : Dozen α :=
  { m1 := a, m2 := a, m3 := a, m4 := a, m5 := a, m6 := a
    m7 := a, m8 := a, m9 := a, m10 := a, m11 := a, m12 := a }

/-- The twelve values in order of module number. -/
def Dozen.toList {α : Type} (d : Dozen α) : List α :=
  [d.m1, d.m2, d.m3, d.m4, d.m5, d.m6, d.m7, d.m8, d.m9, d.m10, d.m11, d.m12]

end Sys2Proof
end

