-- ==== Sys2Proof/Syntax.lean ====
section
/-! DEFINITION. The commands of the Hengaro 4260: one constructor of `Instr` for each row of
spec/opcode_table.json, with the operands that the row's rule names. -/

namespace Sys2Proof

/-- The measuring points: the grid connection G, the shore bus Sn and the ship side Pn of each outlet
(paragraph 1.5). -/
inductive MeasPoint where
  | grid
  | shore (o : Outlet)
  | ship (o : Outlet)
deriving DecidableEq, Repr

/-- What the voltage inputs of a point gave over a measured span (R14, R17): the three line-to-line
RMS values in volts, and whether a sample was clipped. -/
structure LineVoltages where
  v12 : Nat
  v23 : Nat
  v31 : Nat
  clipped : Bool
deriving DecidableEq, Repr

/-- A value for each of the phases L1, L2 and L3. -/
structure Phases (α : Type) where
  l1 : α
  l2 : α
  l3 : α
deriving DecidableEq, Repr

/-- One phase at one instant of a cycle (R16): its voltage in millivolts, and its current in
milliamperes, positive from shore to ship. -/
structure PhaseSample where
  volts : Int
  amps : Int
deriving DecidableEq, Repr

/-- The RMS values of one phase over a cycle (R16), in millivolts and milliamperes. -/
structure PhaseRms where
  volts : Nat
  amps : Nat
deriving DecidableEq, Repr

/-- The fundamental of one phase over a cycle (R16): the RMS parts of its voltage and its current along
the cosine and the sine of one reference, in millivolts and milliamperes. -/
structure Fundamental where
  vCos : Int
  vSin : Int
  iCos : Int
  iSin : Int
deriving DecidableEq, Repr

/-- The phase voltages and phase currents of a cycle at the point and current input of an outlet (R16,
R17): at equally spaced instants of the cycle, as RMS values over it and as fundamentals, and whether a
current sample was clipped. -/
structure CyclePower where
  samples : List (Phases PhaseSample)
  rms : Phases PhaseRms
  fundamental : Phases Fundamental
  clipped : Bool
deriving DecidableEq, Repr

/-- The report states of the module line (R21). -/
inductive ReportState where
  | stopped | precharging | precharged | running | fault
deriving DecidableEq, Repr

/-- The temperature bands of a module (Table 2-1). -/
inductive TempBand where
  | normal | warm | hot
deriving DecidableEq, Repr

/-- A module's report record (R21): output current in amperes, output power in kilowatts. -/
structure ModuleReport where
  state : ReportState
  current : Nat
  power : Int
  band : TempBand
  code : Option Nat
deriving DecidableEq, Repr

/-- A whole frame with a good check on a ship link, less its kind, which the command names (R121,
R122, R186). -/
structure ShipFrame where
  dst : Nat
  src : Nat
  payload : List Byte
deriving DecidableEq, Repr

/-- Why SVL discards a partial frame other than for an idle gap (R172): the length byte it received,
or a framing error. -/
inductive DiscardCause where
  | lengthByte (length : Byte)
  | framingError
deriving DecidableEq, Repr

/-- What a ship link's line cuts short when it sticks (R133): nothing, or a frame in progress, with its
source address where that byte was received. -/
inductive LineCut where
  | nothing
  | frame (src : Option Nat)
deriving DecidableEq, Repr

/-- The outlet whose ship link's line has been dominant for 10 ms, and what that cut short (R133). -/
structure StuckLine where
  outlet : Outlet
  cut : LineCut
deriving DecidableEq, Repr

/-- The payload of a READ_STATIONS (R184), with the level of the outlet's attention pair as the request
is taken (R139). -/
structure StationsPayload where
  held : Bool
  bytes : List Byte
deriving DecidableEq, Repr

/-- The commands: one constructor for each row of spec/opcode_table.json. A request of the
supervisory link carries its frame's tag and payload bytes as R184 lays them out. A command of a ship
link that may lead the leader to judge the attention pair carries `held`, the level of the pair at
that moment (R131), and so does READ_STATIONS, which reports it (R139). -/
inductive Instr where
  /-- SUPPLY_ON (R102): power is applied. It carries the speed select input (high is 460,800 bit/s,
  R171) and each outlet's breaker feedback (closed is true, R71) as read at supply-on. -/
  | supplyOn (highSpeed : Bool) (closed : Quad Bool)
  /-- RESET_INPUT (R181): the reset input has been low for 10 µs. -/
  | resetInput
  /-- QUALIFICATION_WINDOW_END (R2): a 10 ms window ends with a count of XO cycles. -/
  | qualificationWindowEnd (count : Nat)
  /-- XO_CHECK (R3): the once-per-second window's count of XO cycles. -/
  | xoCheck (count : Nat)
  /-- RETRY_TIME_EXPIRY (R4). -/
  | retryTimeExpiry
  /-- ONE_SECOND_TICK (R6). -/
  | oneSecondTick
  /-- PPS_PULSE (R10). -/
  | ppsPulse
  /-- PPS_TIME_EXPIRY (R11). -/
  | ppsTimeExpiry
  /-- ZERO_CROSSING (R13): a crossing at a point, with what the cycle it may end gave. -/
  | zeroCrossing (point : MeasPoint) (volts : LineVoltages) (power : CyclePower)
  /-- VOLTAGE_ONLY_CADENCE (R13): the last 20 ms of a point. -/
  | voltageOnlyCadence (point : MeasPoint) (volts : LineVoltages)
  /-- CYCLE_LAPSE (R13): 25,000 µs without a crossing, with the last 20 ms of the point. -/
  | cycleLapse (point : MeasPoint) (volts : LineVoltages)
  /-- MODULE_REPORT (R21). -/
  | moduleReport (m : ModuleNo) (report : ModuleReport)
  /-- MODULE_LINE_LOSS (R22). -/
  | moduleLineLoss (m : ModuleNo)
  /-- COMMAND_RECORD (R20). -/
  | commandRecord
  /-- START_TIME_EXPIRY (R26). -/
  | startTimeExpiry
  /-- STOP_CURRENT_TIMEOUT (R28). -/
  | stopCurrentTimeout (m : ModuleNo)
  /-- STOP_TIME_EXPIRY (R28). -/
  | stopTimeExpiry (m : ModuleNo)
  /-- HOLD_TIME_EXPIRY (R39). -/
  | holdTimeExpiry (o : Outlet)
  /-- GROW_WATCH_COMPLETE (R36). -/
  | growWatchComplete (o : Outlet)
  /-- SHRINK_WATCH_COMPLETE (R37). -/
  | shrinkWatchComplete (o : Outlet)
  /-- RG_UPDATE (R57). -/
  | rgUpdate (o : Outlet)
  /-- HOLDING_TIMEOUT (R52). -/
  | holdingTimeout (o : Outlet)
  /-- DUE_INSTANT (R66). -/
  | dueInstant (o : Outlet)
  /-- CONFIRMATION_TIME_EXPIRY (R69). -/
  | confirmationTimeExpiry (o : Outlet)
  /-- BREAKER_FEEDBACK_CLOSED (R67). -/
  | breakerFeedbackClosed (o : Outlet)
  /-- BREAKER_FEEDBACK_OPEN (R116). -/
  | breakerFeedbackOpen (o : Outlet)
  /-- OPEN_DRIVE_FAIL_TIME (R71). -/
  | openDriveFailTime (o : Outlet)
  /-- DEAD_TIME_COMPLETE (R73). -/
  | deadTimeComplete (o : Outlet)
  /-- PILOT_LOOP_CLOSED (R79): the loop has shown closed for 500 ms. -/
  | pilotLoopClosed (o : Outlet)
  /-- PILOT_LOOP_OPEN (R79): the loop has shown open for 20 ms. -/
  | pilotLoopOpen (o : Outlet)
  /-- IMPORT_WATCH_COMPLETE (R87). -/
  | importWatchComplete
  /-- CAP_WATCH_COMPLETE (R87). -/
  | capWatchComplete (o : Outlet)
  /-- ENERGISE_TIME_EXPIRY (R90). -/
  | energiseTimeExpiry (o : Outlet)
  /-- SYNC_TIME_EXPIRY (R91). -/
  | syncTimeExpiry (o : Outlet)
  /-- RAMP_IN_TICK (R93). -/
  | rampInTick (o : Outlet)
  /-- CAPACITY_SHORT_EXPIRY (R94). -/
  | capacityShortExpiry (o : Outlet)
  /-- RAMP_IN_LIMIT_EXPIRY (R94). -/
  | rampInLimitExpiry (o : Outlet)
  /-- RETURN_WAIT_EXPIRY (R95). -/
  | returnWaitExpiry (o : Outlet)
  /-- RAMP_OUT_TICK (R96). -/
  | rampOutTick (o : Outlet)
  /-- UNLOADED_COMPLETE (R96). -/
  | unloadedComplete (o : Outlet)
  /-- RAMP_OUT_TIMEOUT (R96). -/
  | rampOutTimeout (o : Outlet)
  /-- OPEN_TIME_EXPIRY (R97). -/
  | openTimeExpiry (o : Outlet)
  /-- POST_TRIP_TIME_EXPIRY (R107). -/
  | postTripTimeExpiry (o : Outlet)
  /-- VOLTAGE_WATCH_COMPLETE (R112). -/
  | voltageWatchComplete (o : Outlet)
  /-- CAPACITY_WATCH_COMPLETE (R113). -/
  | capacityWatchComplete (o : Outlet)
  /-- REVERSE_WATCH_COMPLETE (R114). -/
  | reverseWatchComplete (o : Outlet)
  /-- GRID_WATCH_COMPLETE (R115). -/
  | gridWatchComplete
  /-- WAKE_TIME_EXPIRY (R120). -/
  | wakeTimeExpiry (o : Outlet)
  /-- REPLY_WINDOW_CLOSE (R123): a reply window closes with no reply begun. -/
  | replyWindowClose (o : Outlet) (held : Bool)
  /-- PRESENT (R126): a PRESENT frame with a good check. -/
  | present (o : Outlet) (held : Bool) (frame : ShipFrame)
  /-- STATUS (R130): a STATUS frame with a good check. -/
  | status (o : Outlet) (held : Bool) (frame : ShipFrame)
  /-- BAD_FRAME (R122): a frame with a bad check, with its source address as received. -/
  | badFrame (o : Outlet) (held : Bool) (src : Nat)
  /-- INCOMPLETE_FRAME (R121): with its source address, where the byte was received. -/
  | incompleteFrame (o : Outlet) (held : Bool) (src : Option Nat)
  /-- LINK_CYCLE (R129). -/
  | linkCycle (o : Outlet) (held : Bool)
  /-- SLOT_END (R132): a SLOT_END frame with a good check. -/
  | slotEnd (o : Outlet) (held : Bool) (frame : ShipFrame)
  /-- SHIP_SLOT_EXPIRY (R132). -/
  | shipSlotExpiry (o : Outlet)
  /-- GEN_STATUS (R134): a GEN_STATUS frame with a good check. -/
  | genStatus (o : Outlet) (held : Bool) (frame : ShipFrame)
  /-- GENERATOR_STALE (R135): 2 s since the update of a generator's entry. -/
  | generatorStale (o : Outlet) (number : Nat)
  /-- LINE_DOMINANT (R133): the line has been dominant for 10 ms, with the frame it cut short. -/
  | lineDominant (o : StuckLine)
  /-- STUCK_MISS_TICK (R133). -/
  | stuckMissTick (o : Outlet)
  /-- STUCK_LOOK (R133): the one-second look at the line, with what it shows. -/
  | stuckLook (o : Outlet) (dominant : Bool) (held : Bool)
  /-- GAP_OPENS (R142). -/
  | gapOpens (o : Outlet)
  /-- IDLE_GAP (R172): 3 byte-times between two bytes of a frame, with the byte that ends the gap. -/
  | idleGap (next : Byte)
  /-- RECEIVE_DISCARD (R172). -/
  | receiveDiscard (cause : DiscardCause)
  /-- CRC_ERROR (R172). -/
  | crcError
  /-- BUSY (R173): a good frame arrives while a request is in progress. -/
  | busy (kind tag : Byte)
  /-- REPLY_SENT (R173): the last byte of the reply being sent has been sent. -/
  | replySent
  /-- UNKNOWN_REQUEST (R174): a good frame of a kind that is no request. -/
  | unknownRequest (kind tag : Byte)
  /-- CONFIGURE_STATION (R175). -/
  | configureStation (tag : Byte) (payload : List Byte)
  /-- READ_STATION (R176). -/
  | readStation (tag : Byte) (payload : List Byte)
  /-- READ_TIME (R176). -/
  | readTime (tag : Byte) (payload : List Byte)
  /-- SET_TIME (R7). -/
  | setTime (tag : Byte) (payload : List Byte)
  /-- SET_IMPORT_LIMIT (R85). -/
  | setImportLimit (tag : Byte) (payload : List Byte)
  /-- SET_BANDS (R144). -/
  | setBands (tag : Byte) (payload : List Byte)
  /-- RESTART (R181). -/
  | restart (tag : Byte) (payload : List Byte)
  /-- DECLARE_MODULE (R31). -/
  | declareModule (tag : Byte) (payload : List Byte)
  /-- UNLOCK_MODULE (R31). -/
  | unlockModule (tag : Byte) (payload : List Byte)
  /-- WITHDRAW_MODULE (R31). -/
  | withdrawModule (tag : Byte) (payload : List Byte)
  /-- READ_MODULES (R177). -/
  | readModules (tag : Byte) (payload : List Byte)
  /-- CONFIGURE_OUTLET (R178). -/
  | configureOutlet (tag : Byte) (payload : List Byte)
  /-- READ_OUTLET (R77). -/
  | readOutlet (tag : Byte) (payload : List Byte)
  /-- AUTHORISE (R82). -/
  | authorise (tag : Byte) (payload : List Byte)
  /-- REVOKE (R83). -/
  | revoke (tag : Byte) (payload : List Byte)
  /-- READ_AUTHORISATIONS (R83). -/
  | readAuthorisations (tag : Byte) (payload : List Byte)
  /-- END_SESSION (R100). -/
  | endSession (tag : Byte) (payload : List Byte)
  /-- RESET_OUTLET (R99). -/
  | resetOutlet (tag : Byte) (payload : List Byte)
  /-- SET_CAP (R86). -/
  | setCap (tag : Byte) (payload : List Byte)
  /-- SET_ISLAND_TRIM (R56). -/
  | setIslandTrim (tag : Byte) (payload : List Byte)
  /-- READ_STATIONS (R139), with the level of the attention pair of the outlet it names. -/
  | readStations (tag : Byte) (payload : StationsPayload)
  /-- READ_GENERATORS (R139). -/
  | readGenerators (tag : Byte) (payload : List Byte)
  /-- READ_METERS (R157). -/
  | readMeters (tag : Byte) (payload : List Byte)
  /-- READ_BILLING (R155). -/
  | readBilling (tag : Byte) (payload : List Byte)
  /-- RELEASE_BILLING (R156). -/
  | releaseBilling (tag : Byte) (payload : List Byte)
  /-- FLUSH_INTERVAL (R151). -/
  | flushInterval (tag : Byte) (payload : List Byte)
  /-- READ_EVENTS (R166). -/
  | readEvents (tag : Byte) (payload : List Byte)
  /-- READ_FAULTS (R167). -/
  | readFaults (tag : Byte) (payload : List Byte)
  /-- CLEAR_FAULTS (R160). -/
  | clearFaults (tag : Byte) (payload : List Byte)
  /-- SET_REPORTING (R161). -/
  | setReporting (tag : Byte) (payload : List Byte)
  /-- SYNC_BYTE (R172): a byte of A5 hex. -/
  | syncByte
  /-- LEADER_FRAME_SENT (R123): the frame the leader was sending has ended. -/
  | leaderFrameSent (o : Outlet) (held : Bool)
deriving DecidableEq, Repr

end Sys2Proof
end

