-- ==== Sys2Proof/Decode.lean ====
section
/-! DEFINITION. From bytes to commands: the frames of the supervisory link (R172, R184) and of the
ship link (R121, R122, R186), with their two check computations, and the encoders of the same
layouts. spec/opcode_table.json gives no row any bits, so `decodeTableWord` spells no command. -/

namespace Sys2Proof

/-- No row of the table gives bits, so no word spells a command (log entry 28). -/
def decodeTableWord (_nbits _w : Nat) : Option Instr := none

/-- A function applied eight times. -/
def eightTimes {α : Type} (f : α → α) (a : α) : α := f (f (f (f (f (f (f (f a)))))))

/-- One shift of the CRC-16 register (R184). -/
def crc16Shift (r : BitVec 16) : BitVec 16 :=
  if r.msb then (r <<< 1) ^^^ 0x1021 else r <<< 1

/-- The CRC-16 register after a byte (R184). -/
def crc16Byte (r : BitVec 16) (b : Byte) : BitVec 16 :=
  eightTimes crc16Shift (r ^^^ ((b.setWidth 16) <<< 8))

/-- The CRC-16 of a list of bytes (R184). -/
def crc16 (bytes : List Byte) : BitVec 16 := bytes.foldl crc16Byte 0xFFFF

/-- One shift of the CRC-8 register (R186). -/
def crc8Shift (r : Byte) : Byte := if r.msb then (r <<< 1) ^^^ 0x07 else r <<< 1

/-- The CRC-8 register after a byte (R186). -/
def crc8Byte (r b : Byte) : Byte := eightTimes crc8Shift (r ^^^ b)

/-- The CRC-8 of a list of bytes (R186). -/
def crc8 (bytes : List Byte) : Byte := bytes.foldl crc8Byte 0

/-! ### The supervisory link -/

/-- The two bytes of a CRC-16, high byte first (R184). -/
def crc16Bytes (r : BitVec 16) : List Byte := [r.extractLsb' 8 8, r.extractLsb' 0 8]

/-- A supervisory frame (R184). -/
def supervisoryFrame (kind tag : Byte) (payload : List Byte) : List Byte :=
  let body := BitVec.ofNat 8 (payload.length + 2) :: kind :: tag :: payload
  0xA5 :: body ++ crc16Bytes (crc16 body)

/-- The command of a good frame by its kind (R184); `held` is the level of the attention pair of the
outlet that a READ_STATIONS names (R139). -/
def requestCommand (held : Bool) (kind tag : Byte) (payload : List Byte) : Instr :=
  match kind.toNat with
  | 0x01 => .configureStation tag payload
  | 0x02 => .readStation tag payload
  | 0x03 => .setImportLimit tag payload
  | 0x04 => .setBands tag payload
  | 0x05 => .setTime tag payload
  | 0x06 => .readTime tag payload
  | 0x07 => .restart tag payload
  | 0x10 => .declareModule tag payload
  | 0x11 => .withdrawModule tag payload
  | 0x12 => .unlockModule tag payload
  | 0x13 => .readModules tag payload
  | 0x20 => .configureOutlet tag payload
  | 0x21 => .readOutlet tag payload
  | 0x22 => .authorise tag payload
  | 0x23 => .revoke tag payload
  | 0x24 => .readAuthorisations tag payload
  | 0x25 => .endSession tag payload
  | 0x26 => .resetOutlet tag payload
  | 0x27 => .setCap tag payload
  | 0x28 => .setIslandTrim tag payload
  | 0x30 => .readStations tag ⟨held, payload⟩
  | 0x31 => .readGenerators tag payload
  | 0x40 => .readMeters tag payload
  | 0x41 => .readBilling tag payload
  | 0x42 => .releaseBilling tag payload
  | 0x43 => .flushInterval tag payload
  | 0x50 => .readEvents tag payload
  | 0x51 => .readFaults tag payload
  | 0x52 => .clearFaults tag payload
  | 0x53 => .setReporting tag payload
  | _ => .unknownRequest kind tag

/-- The command that the bytes of one whole frame come to, from the sync byte to the second CRC byte
(R172), with the attention pair that a READ_STATIONS reports at the level `held`; none where they do not
begin with the sync byte or are not one whole frame. -/
def commandOfFrame (held : Bool) (bytes : List Byte) : Option Instr :=
  match bytes with
  | sync :: len :: rest =>
    if sync ≠ 0xA5 then none
    else if len.toNat < 2 ∨ 242 < len.toNat then some (.receiveDiscard (.lengthByte len))
    else if rest.length ≠ len.toNat + 2 then none
    else if crc16Bytes (crc16 (len :: rest.take len.toNat)) ≠ rest.drop len.toNat then
      some .crcError
    else
      match rest.take len.toNat with
      | kind :: tag :: payload => some (requestCommand held kind tag payload)
      | _ => none
  | _ => none

/-! ### The ship link -/

/-- A ship link frame (R186). -/
def shipLinkFrame (dst src kind : Byte) (payload : List Byte) : List Byte :=
  let body := dst :: src :: kind :: BitVec.ofNat 8 payload.length :: payload
  body ++ [crc8 body]

/-- The command that the bytes a leader received as one frame come to (R121, R122, R186). A good
frame of a kind that no station sends has the effect of a malformed PRESENT in every place (R123,
R124, R134), and it comes to one (log entry 22). -/
def shipCommand (o : Outlet) (held : Bool) (bytes : List Byte) : Instr :=
  match bytes with
  | dst :: src :: kind :: len :: rest =>
    if 24 < len.toNat ∨ rest.length < len.toNat + 1 then
      .incompleteFrame o held (some src.toNat)
    else if [crc8 (dst :: src :: kind :: len :: rest.take len.toNat)]
        ≠ (rest.drop len.toNat).take 1 then
      .badFrame o held src.toNat
    else
      let frame : ShipFrame :=
        { dst := dst.toNat, src := src.toNat, payload := rest.take len.toNat }
      match kind.toNat with
      | 4 => .present o held frame
      | 6 => .status o held frame
      | 8 => .slotEnd o held frame
      | 9 => .genStatus o held frame
      | _ => .present o held { frame with payload := [] }
  | _ :: src :: _ => .incompleteFrame o held (some src.toNat)
  | _ => .incompleteFrame o held none

/-! ### Encoders of the same layouts -/

/-- Kind, tag and payload of a request of the supervisory link (R184); none of a command that is none.
An unknown request is the frame of its kind without a payload. -/
def Instr.request (i : Instr) : Option (Byte × Byte × List Byte) :=
  match i with
  | .configureStation tag payload => some (0x01, tag, payload)
  | .readStation tag payload => some (0x02, tag, payload)
  | .setImportLimit tag payload => some (0x03, tag, payload)
  | .setBands tag payload => some (0x04, tag, payload)
  | .setTime tag payload => some (0x05, tag, payload)
  | .readTime tag payload => some (0x06, tag, payload)
  | .restart tag payload => some (0x07, tag, payload)
  | .declareModule tag payload => some (0x10, tag, payload)
  | .withdrawModule tag payload => some (0x11, tag, payload)
  | .unlockModule tag payload => some (0x12, tag, payload)
  | .readModules tag payload => some (0x13, tag, payload)
  | .configureOutlet tag payload => some (0x20, tag, payload)
  | .readOutlet tag payload => some (0x21, tag, payload)
  | .authorise tag payload => some (0x22, tag, payload)
  | .revoke tag payload => some (0x23, tag, payload)
  | .readAuthorisations tag payload => some (0x24, tag, payload)
  | .endSession tag payload => some (0x25, tag, payload)
  | .resetOutlet tag payload => some (0x26, tag, payload)
  | .setCap tag payload => some (0x27, tag, payload)
  | .setIslandTrim tag payload => some (0x28, tag, payload)
  | .readStations tag payload => some (0x30, tag, payload.bytes)
  | .readGenerators tag payload => some (0x31, tag, payload)
  | .readMeters tag payload => some (0x40, tag, payload)
  | .readBilling tag payload => some (0x41, tag, payload)
  | .releaseBilling tag payload => some (0x42, tag, payload)
  | .flushInterval tag payload => some (0x43, tag, payload)
  | .readEvents tag payload => some (0x50, tag, payload)
  | .readFaults tag payload => some (0x51, tag, payload)
  | .clearFaults tag payload => some (0x52, tag, payload)
  | .setReporting tag payload => some (0x53, tag, payload)
  | .unknownRequest kind tag => some (kind, tag, [])
  | .supplyOn _ _ | .resetInput | .qualificationWindowEnd _ | .xoCheck _
  | .retryTimeExpiry | .oneSecondTick | .ppsPulse | .ppsTimeExpiry | .zeroCrossing _ _ _
  | .voltageOnlyCadence _ _ | .cycleLapse _ _ | .moduleReport _ _ | .moduleLineLoss _
  | .commandRecord | .startTimeExpiry | .stopCurrentTimeout _ | .stopTimeExpiry _
  | .holdTimeExpiry _ | .growWatchComplete _ | .shrinkWatchComplete _ | .rgUpdate _
  | .holdingTimeout _ | .dueInstant _ | .confirmationTimeExpiry _
  | .breakerFeedbackClosed _ | .breakerFeedbackOpen _ | .openDriveFailTime _
  | .deadTimeComplete _ | .pilotLoopClosed _ | .pilotLoopOpen _ | .importWatchComplete
  | .capWatchComplete _ | .energiseTimeExpiry _ | .syncTimeExpiry _ | .rampInTick _
  | .capacityShortExpiry _ | .rampInLimitExpiry _ | .returnWaitExpiry _ | .rampOutTick _
  | .unloadedComplete _ | .rampOutTimeout _ | .openTimeExpiry _ | .postTripTimeExpiry _
  | .voltageWatchComplete _ | .capacityWatchComplete _ | .reverseWatchComplete _
  | .gridWatchComplete | .wakeTimeExpiry _ | .replyWindowClose _ _ | .present _ _ _
  | .status _ _ _ | .badFrame _ _ _ | .incompleteFrame _ _ _ | .linkCycle _ _
  | .slotEnd _ _ _ | .shipSlotExpiry _ | .genStatus _ _ _ | .generatorStale _ _
  | .lineDominant _ | .stuckMissTick _ | .stuckLook _ _ _ | .gapOpens _ | .idleGap _
  | .receiveDiscard _ | .crcError | .busy _ _ | .replySent | .syncByte
  | .leaderFrameSent _ _ => none

/-- A level of the attention pair is the one a command reports: that of a READ_STATIONS is its own
(R139), and any other command reports none. -/
def Instr.pairShows (i : Instr) (held : Bool) : Prop :=
  ∀ tag payload, i = .readStations tag payload → payload.held = held

/-- The bytes of a request's frame (R184). -/
def Instr.requestFrame (i : Instr) : Option (List Byte) :=
  i.request.map fun r => supervisoryFrame r.1 r.2.1 r.2.2

/-- The bytes of a ship's frame of a kind (R186). -/
def ShipFrame.bytes (f : ShipFrame) (kind : Byte) : List Byte :=
  shipLinkFrame (BitVec.ofNat 8 f.dst) (BitVec.ofNat 8 f.src) kind f.payload

/-- Outlet, judged level of the attention pair, and bytes of a command that is a ship's good frame
(R186); none of any other. -/
def Instr.shipFrame (i : Instr) : Option (Outlet × Bool × List Byte) :=
  match i with
  | .present o held f => some (o, held, f.bytes 4)
  | .status o held f => some (o, held, f.bytes 6)
  | .slotEnd o held f => some (o, held, f.bytes 8)
  | .genStatus o held f => some (o, held, f.bytes 9)
  | .supplyOn _ _ | .resetInput | .qualificationWindowEnd _ | .xoCheck _
  | .retryTimeExpiry | .oneSecondTick | .ppsPulse | .ppsTimeExpiry | .zeroCrossing _ _ _
  | .voltageOnlyCadence _ _ | .cycleLapse _ _ | .moduleReport _ _ | .moduleLineLoss _
  | .commandRecord | .startTimeExpiry | .stopCurrentTimeout _ | .stopTimeExpiry _
  | .holdTimeExpiry _ | .growWatchComplete _ | .shrinkWatchComplete _ | .rgUpdate _
  | .holdingTimeout _ | .dueInstant _ | .confirmationTimeExpiry _
  | .breakerFeedbackClosed _ | .breakerFeedbackOpen _ | .openDriveFailTime _
  | .deadTimeComplete _ | .pilotLoopClosed _ | .pilotLoopOpen _ | .importWatchComplete
  | .capWatchComplete _ | .energiseTimeExpiry _ | .syncTimeExpiry _ | .rampInTick _
  | .capacityShortExpiry _ | .rampInLimitExpiry _ | .returnWaitExpiry _ | .rampOutTick _
  | .unloadedComplete _ | .rampOutTimeout _ | .openTimeExpiry _ | .postTripTimeExpiry _
  | .voltageWatchComplete _ | .capacityWatchComplete _ | .reverseWatchComplete _
  | .gridWatchComplete | .wakeTimeExpiry _ | .replyWindowClose _ _ | .badFrame _ _ _
  | .incompleteFrame _ _ _ | .linkCycle _ _ | .shipSlotExpiry _ | .generatorStale _ _
  | .lineDominant _ | .stuckMissTick _ | .stuckLook _ _ _ | .gapOpens _ | .idleGap _
  | .receiveDiscard _ | .crcError | .busy _ _ | .replySent | .unknownRequest _ _
  | .configureStation _ _ | .readStation _ _ | .readTime _ _ | .setTime _ _
  | .setImportLimit _ _ | .setBands _ _ | .restart _ _ | .declareModule _ _
  | .unlockModule _ _ | .withdrawModule _ _ | .readModules _ _ | .configureOutlet _ _
  | .readOutlet _ _ | .authorise _ _ | .revoke _ _ | .readAuthorisations _ _
  | .endSession _ _ | .resetOutlet _ _ | .setCap _ _ | .setIslandTrim _ _
  | .readStations _ _ | .readGenerators _ _ | .readMeters _ _ | .readBilling _ _
  | .releaseBilling _ _ | .flushInterval _ _ | .readEvents _ _ | .readFaults _ _
  | .clearFaults _ _ | .setReporting _ _ | .syncByte | .leaderFrameSent _ _ => none

end Sys2Proof
end

