-- ==== Sys2Proof/Config.lean ====
section
/-! DEFINITION. The free values of the model: what the manual leaves open. Nothing in Lean can
evaluate them, so a claim that holds, holds whatever they are. -/

namespace Sys2Proof

/-- FREE VALUE (log entry 8, DESIGN CHOICE). The bytes by which a reply carries a number that its
field, `width` bytes wide, cannot hold: R185 gives a field's width and form, and states nothing for
a number beyond it (a time since a poll of more than 4,294,967,295 ms, say). -/
opaque Config.unencodable (width : Nat) (value : Int) : Vector Byte width

end Sys2Proof
end

