-- ==== Sys2Proof/Machine/State.lean ====
section
/-! DEFINITION. The state of the Hengaro 4260: every register, table, queue, count, time and driven
output that the manual gives its eleven blocks, as plain data, and that state right after supply-on.
The queue of commands that wait is the model's own (`pending`), and so is `passDue`. -/

namespace Sys2Proof.Machine

open Sys2Proof

/-! ### Time (Section 1) -/

/-- A time stamp (R5): time of day in seconds, sub-second count in microseconds, run count. -/
structure TimeStamp where
  seconds : BitVec 32
  micros : Nat
  run : RunCount
deriving DecidableEq, Repr

/-- Table 1-1. -/
inductive TbState where
  | irc | qualifying | xo | xoFailed
deriving DecidableEq, Repr

/-- The PPS states (R9). -/
inductive PpsState where
  | off | waiting | locked | lost
deriving DecidableEq, Repr

/-- Clock quality, best to worst (R12). -/
inductive ClockQuality where
  | xoPps | xo | irc | unset
deriving DecidableEq, Repr

/-- The timebase (TB): clock source, time and PPS state (R1 to R12). -/
structure Timebase where
  state : TbState
  xoUse : Bool
  /-- The attempt in progress is a first attempt (R2). -/
  firstAttempt : Bool
  /-- Windows of the attempt that have ended (R2). -/
  windows : Nat
  /-- Consecutive passing windows (R2). -/
  passes : Nat
  /-- Start of the window in progress (R2). -/
  windowFrom : RunCount
  /-- Consecutive failing checks in XO (R3). -/
  fails : Nat
  /-- Start of the second that the next check ends (R3). -/
  checkFrom : RunCount
  /-- Start of the retry time (R4). -/
  retryFrom : Option RunCount
  run : RunCount
  seconds : BitVec 32
  subSecond : Nat
  timeUnset : Bool
  /-- Local offset, minutes (R8). -/
  offset : Int
  ppsUse : Bool
  pps : PpsState
  /-- Start of the 3 s time (R9). -/
  ppsFrom : Option RunCount
  /-- Run count of the last pulse accepted since supply-on (R10). -/
  lastPulse : Option RunCount
deriving DecidableEq, Repr

/-! ### Measurement (Section 1) -/

/-- The fields of a cycle record that a voltage-only record has not (R14). -/
structure CycleFields where
  period : Nat
  freq : Nat
deriving DecidableEq, Repr

/-- A phasor record (R14); a cycle record when `cycle` is present. -/
structure Phasor where
  stamp : TimeStamp
  cycle : Option CycleFields
  voltage : Nat
  clipped : Bool
deriving DecidableEq, Repr

/-- What the MU holds for a measuring point (R13). -/
structure PointState where
  record : Option Phasor
  live : Bool
  /-- Time stamp of the last accepted crossing, while a cycle is in progress. -/
  cycle : Option TimeStamp
  /-- The moment the 20 ms cadence counts from. -/
  cadenceFrom : RunCount
deriving DecidableEq, Repr

/-- A pair record (R15). -/
structure PairRecord where
  fS : Nat
  vS : Nat
  fP : Nat
  vP : Nat
  period : Nat
  stamp : TimeStamp
  theta : Int
deriving DecidableEq, Repr

/-- An outlet power record (R16). -/
structure PowerRecord where
  p : Int
  q : Int
  s : Nat
  period : Nat
  clipped : Bool
  stamp : TimeStamp
deriving DecidableEq, Repr

/-- What the MU holds for an outlet (R13, R15, R16, R17). -/
structure Measures where
  shore : PointState
  ship : PointState
  pair : Option PairRecord
  power : Option PowerRecord
  clipReported : Bool
deriving DecidableEq, Repr

/-- What the MU holds for the grid connection (R13). -/
structure GridPoint where
  point : PointState
  nominal : Nat
deriving DecidableEq, Repr

/-! ### The module pool (Section 2) -/

/-- Table 2-2. -/
inductive ModuleState where
  | offline | idle | starting | running | held | stopping | faulted | lockedOut
deriving DecidableEq, Repr

/-- The request classes, highest first (R32). -/
inductive RequestClass where
  | replace | energise | grow
deriving DecidableEq, Repr

/-- The reference fields of a command record (paragraph 2.2, R57). -/
structure References where
  phase : Nat
  freq : Nat
  volts : Nat
  shareTarget : Int
  shareTrim : Int
deriving DecidableEq, Repr

/-- The commands of the module line (paragraph 2.2). -/
inductive ModuleCommand where
  | stopNormal
  | stopForced
  | prechargeTo (o : Outlet) (busForming : Bool)
  | run
deriving DecidableEq, Repr

/-- A command record (R20). -/
structure CommandRecord where
  command : ModuleCommand
  refs : Option References
deriving DecidableEq, Repr

/-- How far the stop of a STOPPING module has come (R27, R28). -/
structure StopProgress where
  /-- The stop of a start ended under R27. -/
  endedStart : Bool
  /-- Entry to STOPPING. -/
  since : RunCount
  /-- Start of the 1 s stop time; absent before STOP, NORMAL is commanded. -/
  normalFrom : Option RunCount
deriving DecidableEq, Repr

/-- A module record (Table 2-1), with what MP keeps of the module's line and of a start or stop. -/
structure Module where
  rating : Option Nat
  state : ModuleState
  outlet : Option Outlet
  band : TempBand
  faultCount : Nat
  faultCode : Option Nat
  trim : Int
  power : Option Int
  /-- Share target, kW (R40). -/
  shareTarget : Int
  /-- The latest report, or the declaration (R22). -/
  reportAt : RunCount
  /-- The line has carried no report since a line loss (R22). -/
  lineLost : Bool
  /-- The bus-forming mark of the start (Table 2-3, note a). -/
  busForming : Bool
  /-- PRECHARGED has been reported, so RUN is commanded (R25). -/
  precharged : Bool
  stop : Option StopProgress
  /-- The command record last sent on the module's line (R20). -/
  sent : Option CommandRecord
deriving DecidableEq, Repr

/-- The pre-charge unit while serving a start (R24). -/
structure Serving where
  module : ModuleNo
  outlet : Outlet
  since : RunCount
  cls : RequestClass
  arrival : TimeStamp
  /-- The start was ended under R27 and its module is stopping. -/
  ended : Bool
deriving DecidableEq, Repr

/-- The station part of the module pool (MP). -/
structure Pool where
  modules : Dozen Module
  unit : Option Serving
  /-- Trip hold time, s (R38). -/
  tripHold : Nat
  /-- The millisecond that the next command records end (R20). -/
  commandFrom : RunCount
deriving DecidableEq, Repr

/-- A pending entry (paragraph 2.7). -/
structure PendingEntry where
  cls : RequestClass
  arrival : TimeStamp
deriving DecidableEq, Repr

/-- A hold time (R38). -/
structure HoldTime where
  since : RunCount
  length : Nat
deriving DecidableEq, Repr

/-- A voluntary stop that SHRINK has selected (R37): deferred, or begun. -/
structure VoluntaryStop where
  module : ModuleNo
  begun : Bool
deriving DecidableEq, Repr

/-- What MP holds for an outlet. -/
structure OutletPool where
  /-- The outlet's entry of the pending list (R32). -/
  entry : Option PendingEntry
  /-- A REPLACE condition has arisen and holds (R32). -/
  replaceArisen : Bool
  growFrom : Option RunCount
  shrinkFrom : Option RunCount
  voluntary : Option VoluntaryStop
  hold : Option HoldTime
deriving DecidableEq, Repr

/-! ### The reference generator (Section 3) -/

/-- Table 3-2. -/
inductive RgMode where
  | off | free | track | power | island
deriving DecidableEq, Repr

/-- Table 3-1: frequency now in microhertz, voltage now in millivolts, targets in millihertz and
volts. -/
structure RefGen where
  mode : RgMode
  phase : Nat
  /-- Remainder of the phase advance, of 1,000,000,000 (R49). -/
  phaseFrac : Nat
  freqNow : Nat
  freqTarget : Nat
  voltNow : Nat
  voltTarget : Nat
  pSet : Nat
  delta : Int
  islandTrim : Int
  gain : Nat
  holding : Bool
  clamped : Bool
  recordTime : Option RunCount
  /-- The millisecond that the next update ends (R57). -/
  updateFrom : RunCount
  /-- An update has been made since the RG left OFF, so that command records carry its reference fields
  (R57). -/
  updated : Bool
deriving DecidableEq, Repr

/-! ### The synchroniser (Section 4) -/

/-- The schedule of a close (R64). -/
structure Schedule where
  due : RunCount
  theta : Int
  slip : Nat
  toGo : Nat
  delay : Nat
deriving DecidableEq, Repr

/-- The close state (Table 4-1). -/
inductive CloseState where
  | watching
  | scheduled (plan : Schedule)
  | inFlight
deriving DecidableEq, Repr

/-- How a close was made (Table 4-3). -/
inductive CloseKind where
  | synchronised | deadBus
deriving DecidableEq, Repr

/-- What became of a close (Table 4-3). -/
inductive CloseOutcome where
  | inFlight | confirmed | failed | late | ended
deriving DecidableEq, Repr

/-- Table 4-3. -/
structure CloseRecord where
  kind : CloseKind
  command : TimeStamp
  theta : Option Int
  slip : Option Nat
  toGo : Option Nat
  tc : Nat
  outcome : CloseOutcome
  measured : Option Nat
  angleError : Option Int
  attempt : Nat
deriving DecidableEq, Repr

/-- Table 4-2. -/
structure SyncSettings where
  smin : Nat
  smax : Nat
  dVpct : Nat
  adapt : Bool
  syncTimeout : Nat
deriving DecidableEq, Repr

/-- Table 4-1. -/
structure Synchroniser where
  settings : SyncSettings
  close : CloseState
  tc : Nat
  attempts : Nat
  /-- Start of the dead time (R73). -/
  deadFrom : Option RunCount
  /-- The dead time has run 2 s without a discard (R73). -/
  deadComplete : Bool
  openDrive : Bool
  /-- Start of the 200 ms after which BREAKER_FAIL is raised, once (R71). -/
  driveFrom : Option RunCount
  record : Option CloseRecord
  /-- The outlet's close output is driven (R66). -/
  closeOutput : Bool
deriving DecidableEq, Repr

/-! ### The session controller (Section 5) -/

/-- Table 5-3. -/
inductive OutletState where
  | dormant | cableProven | awaitAuth | energising | synchronising | closing
  | parallelIn | shoreSupply | parallelOut | opening | windDown | tripped
deriving DecidableEq, Repr

/-- The waiting reasons (Table 5-1). -/
inductive WaitingReason where
  | authorisation | budget | billingSpace
deriving DecidableEq, Repr

/-- The denial reasons (Table 5-1). -/
inductive DenialReason where
  | declarationRange | nominalMismatch | cableLimit | capacityImpossible
deriving DecidableEq, Repr

/-- The trip causes (Table 6-2). -/
inductive Cause where
  | pilotOpen | shipStop | scpLost | overload | busFrequency | busVoltage
  | capacityLoss | reversePower | gridLoss | unexpectedOpen | restart
deriving DecidableEq, Repr

/-- A declaration (Table 5-4), its fields as the frame carried them (R186): frequency in hertz, mode 0
PARALLEL and 1 DEAD_BUS. -/
structure Declaration where
  hull : Nat
  hertz : Nat
  volts : Nat
  kw : Nat
  kva : Nat
  generators : Nat
  mode : Nat
  cables : Nat
deriving DecidableEq, Repr

/-- Table 5-2. -/
structure Session where
  number : Nat
  hull : Nat
  plan : Nat
  claim : Nat
  opened : TimeStamp
deriving DecidableEq, Repr

/-- The link wake settings (R78). -/
inductive LinkWake where
  | normal | fast
deriving DecidableEq, Repr

/-- The outlet settings of R78. -/
structure OutletSettings where
  nominalVolts : Nat
  cableRating : Nat
  linkWake : LinkWake
  energiseTimeout : Nat
  rampRate : Nat
  rampInLimit : Nat
deriving DecidableEq, Repr

/-- What SC keeps of the SCP's STATUS in order to take a flag held set once (R80). -/
structure RequestMemory where
  connect : Bool
  cancel : Bool
  ret : Bool
deriving DecidableEq, Repr

/-- The outlet record (Table 5-1), with the times, watches and notices SC keeps for the outlet. -/
structure OutletRecord where
  state : OutletState
  waiting : Option WaitingReason
  denial : Option DenialReason
  declaration : Option Declaration
  session : Option Session
  target : Nat
  firstCause : Option Cause
  endRequested : Bool
  returnAwaited : Bool
  openDrive : Bool
  waitingSince : Option TimeStamp
  entered : TimeStamp
  settings : OutletSettings
  /-- The notices of the shore state record (R101). -/
  prepareReturn : Bool
  deny : Bool
  /-- The SCP's flags as last seen (R80). -/
  flagsSeen : Option RequestMemory
  /-- The declaration of the last connect request taken, itself possibly absent (R80); none before the
  first (log entries 71 and 72). -/
  lastDeclared : Option (Option Declaration)
  energiseFrom : Option RunCount
  syncFrom : Option RunCount
  /-- The sync time expired in CLOSING (R91). -/
  syncExpired : Bool
  /-- The last 10 ms step of P_set, or the entry to the state (R93, R96). -/
  rampFrom : Option RunCount
  rampInFrom : Option RunCount
  capacityShortFrom : Option RunCount
  returnFrom : Option RunCount
  rampOutFrom : Option RunCount
  unloadedFrom : Option RunCount
  openFrom : Option RunCount
  capFrom : Option RunCount
  /-- OVER_CAP has been raised and no record since has shown P within the claim (R87). -/
  capReported : Bool
deriving DecidableEq, Repr

/-- The outlet's lines that SC, SY and PR share: the treated pilot loop (R79), the breaker feedback,
and the link power enable output. -/
structure Lines where
  pilotClosed : Bool
  breakerClosed : Bool
  /-- The latest change of the feedback to closed (R142). -/
  closedAt : Option RunCount
  linkPower : Bool
deriving DecidableEq, Repr

/-- The outlet an authorisation names (R82). -/
inductive AuthOutlet where
  | any
  | outlet (o : Outlet)
deriving DecidableEq, Repr

/-- An authorisation entry (R82). -/
structure AuthEntry where
  hull : Nat
  outlet : AuthOutlet
  plan : Nat
  expiry : Option Nat
deriving DecidableEq, Repr

/-- The station part of the session controller (SC): authorisation table (8 places), import account,
session counter, headroom and import watch. -/
structure Account where
  places : List (Option AuthEntry)
  /-- Station import limit L, kW (R85). -/
  limit : Nat
  sessionCounter : Nat
  /-- Headroom, percent (R78). -/
  headroom : Nat
  importFrom : Option RunCount
  /-- IMPORT_OVER_LIMIT has been raised and the sum has not fallen to L since (R87). -/
  importReported : Bool
deriving DecidableEq, Repr

/-! ### Protection (Section 6) -/

/-- Table 6-1, the items of an outlet. -/
structure Protection where
  tripPct : Nat
  overload : Nat
  frequency : Nat
  voltageFrom : Option RunCount
  capacityFrom : Option RunCount
  reverseFrom : Option RunCount
  openDrive : Bool
  postTripFrom : Option RunCount
  breakerFail : Bool
  laterCauses : List Cause
deriving DecidableEq, Repr

/-- Table 6-1, the items of the station. -/
structure GridWatch where
  since : Option RunCount
  standing : Bool
deriving DecidableEq, Repr

/-! ### The ship link (Section 7) -/

/-- Table 7-1. -/
inductive LinkState where
  | unpowered | waking | discovering | cycling | stuck
deriving DecidableEq, Repr

/-- The station kinds (Table 7-2). -/
inductive StationKind where
  | scp | pms | aux
deriving DecidableEq, Repr

/-- The states of a station entry (Table 7-3). -/
inductive StationState where
  | present | lost | duplicate
deriving DecidableEq, Repr

/-- A STATUS as the table keeps it: the stop flag, and for the SCP its request flags and declaration
(Table 7-3). -/
structure ShipStatus where
  stop : Bool
  connect : Bool
  cancel : Bool
  ret : Bool
  declaration : Option Declaration
deriving DecidableEq, Repr

/-- Table 7-3. -/
structure Station where
  address : Nat
  kind : Option StationKind
  identity : Option (BitVec 32)
  state : StationState
  misses : Nat
  checkErrors : Nat
  status : Option ShipStatus
  lastPoll : Option RunCount
deriving DecidableEq, Repr

/-- The breaker states of a generator entry, and its readings (Table 7-4). -/
inductive GenReading where
  | opened | closed | unknown
deriving DecidableEq, Repr

/-- Table 7-4. An entry is `stale` from the moment 2 s have passed since its update (R135). -/
structure Generator where
  number : Nat
  breaker : GenReading
  kw : Nat
  updated : RunCount
  stale : Bool
deriving DecidableEq, Repr

/-- The outcomes an ENLISTED carries (Table 7-2). -/
inductive Enlistment where
  | accepted | refused | duplicate
deriving DecidableEq, Repr

/-- The shore state record as a POLL carries it (R101, R136). -/
structure ShoreState where
  state : OutletState
  reason : Option (WaitingReason ⊕ DenialReason)
  breakerClosed : Bool
  pSet : Nat
  prepareReturn : Bool
  deny : Bool
deriving DecidableEq, Repr

/-- The frames the leader sends (Table 7-2). -/
inductive LeaderFrame where
  | rollCall (restartMark : Bool)
  | enlisted (address : Nat) (outcome : Enlistment)
  | attentionQuery
  | poll (address : Nat) (shore : Option ShoreState)
  | slotGrant (address : Nat)
deriving DecidableEq, Repr

/-- What the leader does on the line at this moment (R123, R132). -/
inductive LineActivity where
  | quiet
  | sending (frame : LeaderFrame)
  | window (frame : LeaderFrame) (since : RunCount)
  | slot (since : RunCount)
deriving DecidableEq, Repr

/-- Where the leader stands in a discovery (R128) or in a link cycle (R129). -/
inductive LinkStep where
  | rest
  /-- `sent` ROLL_CALLs have been sent; `ends` when the table was found full. -/
  | rollCall (sent : Nat) (ends : Bool)
  /-- The entries up to address `upTo` have had their turn. -/
  | polls (upTo : Nat)
  /-- `queries` ATTENTION_QUERYs have been sent in the cycle. -/
  | attention (queries : Nat)
  | shipSlot
deriving DecidableEq, Repr

/-- What an outlet's SL holds. -/
structure ShipLink where
  state : LinkState
  stations : List Station
  generators : List Generator
  collisions : Nat
  collisionAddress : Option Nat
  wakeFrom : Option RunCount
  /-- The wake time handed over, µs (R120). -/
  wakeLength : Nat
  activity : LineActivity
  step : LinkStep
  /-- The start of the last cycle begun (R129). -/
  cycleFrom : RunCount
  /-- STUCK was entered from DISCOVERING (R133). -/
  stuckInDiscovery : Bool
  /-- The moment the next miss tick of STUCK counts from (R133). -/
  missFrom : RunCount
  /-- The moment the next look of STUCK counts from (R133). -/
  lookFrom : RunCount
  /-- The attention pair is held (R131). -/
  attention : Bool
deriving DecidableEq, Repr

/-! ### The meter (Section 8) -/

/-- The flags of an interval (Table 8-2). -/
structure IntervalFlags where
  isPartial : Bool
  extended : Bool
  bandMixed : Bool
  timeStepped : Bool
  timeUnset : Bool
  saturated : Bool
  measurementGap : Bool
deriving DecidableEq, Repr

/-- Table 8-2. -/
structure Interval where
  start : TimeStamp
  band : Nat
  worst : ClockQuality
  gapMillis : Nat
  flags : IntervalFlags
deriving DecidableEq, Repr

/-- The energy of one direction (Table 8-1): accumulator, residual and total in microjoules, billed
watt-hours. -/
structure Energy where
  accumulator : Nat
  residual : Int
  total : Nat
  billed : Nat
deriving DecidableEq, Repr

/-- The session meter (Table 8-1) with the outlet's open interval. -/
structure Meter where
  session : Nat
  hull : Nat
  plan : Nat
  opened : RunCount
  imported : Energy
  exported : Energy
  closes : Nat
  trips : Nat
  lastRecord : Option RunCount
  /-- The run count an open gap is counted from; absent while the gap watch is closed. -/
  gapFrom : Option RunCount
  interval : Interval
deriving DecidableEq, Repr

/-- The rounding modes (R143). -/
inductive Rounding where
  | truncate | round
deriving DecidableEq, Repr

/-- The closing reasons (paragraph 8.4). -/
inductive ClosingReason where
  | boundary | flush | timeSet | sessionEnd
deriving DecidableEq, Repr

/-- The session part of a billing record (R152). -/
structure SessionPart where
  importWh : Nat
  exportWh : Nat
  duration : Nat
  closes : Nat
  trips : Nat
  unbilledImport : Int
  unbilledExport : Int
deriving DecidableEq, Repr

/-- An interval record (R148, R187). -/
structure BillingRecord where
  sequence : Nat
  session : Nat
  outlet : Outlet
  plan : Nat
  hull : Nat
  start : TimeStamp
  duration : Nat
  band : Nat
  quality : ClockQuality
  flags : IntervalFlags
  reason : ClosingReason
  importWh : Nat
  exportWh : Nat
  gapSeconds : Nat
  part : Option SessionPart
deriving DecidableEq, Repr

/-- An entry of the band table (R144). -/
structure BandEntry where
  minute : Nat
  band : Nat
deriving DecidableEq, Repr

/-- Table 8-3. The open session count is the number of session meters. -/
structure Metering where
  length : Nat
  rounding : Rounding
  bands : List BandEntry
  queue : List BillingRecord
  sequence : Nat
  lowArmed : Bool
deriving DecidableEq, Repr

/-! ### Faults and events (Section 9) -/

/-- Table 9-1, in its order. -/
inductive FaultKind where
  | pilotOpen | shipStop | scpLost | overload | busFrequency | busVoltage | capacityLoss
  | reversePower | gridLoss | unexpectedOpen | restart | closeFail | breakerLate | breakerFail
  | moduleFault | moduleStartFail | moduleLockout | moduleLinkLost | linkStuck | stationDuplicate
  | timebaseFallback | ppsLost | measurementClip | overBudget | energiseTimeout | syncTimeout
  | handoverAbort | rampOutTimeout | supplyOn
deriving DecidableEq, Repr

/-- Event kinds: a fault's kind, or a kind of Table 9-2. -/
inductive EventKind where
  | fault (k : FaultKind)
  | outletState | sessionOpen | sessionClose | billingLow | importOverLimit | overCap | ppsJump
  | closeTimeOdd | unplannedParallel | returnWaitLong | tooManyStations
deriving DecidableEq, Repr

/-- Sources (paragraph 9.1). -/
inductive Source where
  | station
  | outlet (o : Outlet)
  | module (m : ModuleNo)
deriving DecidableEq, Repr

/-- The fault capture (R162). -/
structure Capture where
  kind : FaultKind
  source : Source
  seconds : BitVec 32
  millis : Nat
deriving DecidableEq, Repr

/-- An event record (R163). -/
structure EventRecord where
  kind : EventKind
  source : Source
  seconds : BitVec 32
  millis : Nat
  detail : Option Nat
  lost : Bool
deriving DecidableEq, Repr

/-- The fault and event unit (FE): sticky flags and report enables as fault masks (R183). -/
structure FaultUnit where
  flags : BitVec 32
  sinceClear : Bool
  capture : Option Capture
  enables : BitVec 32
  outletEvents : Bool
  reportOff : Bool
  queue : List EventRecord
deriving DecidableEq, Repr

/-! ### The supervisory link (Section 10) -/

/-- The receive states (R172). -/
inductive ReceiveState where
  | hunting | receiving
deriving DecidableEq, Repr

/-- A reply owed on the transmit list (R173): its frame's kind is the request's with the top bit set.
`answers` marks the reply of the request in progress; the others are BUSY replies. -/
structure Reply where
  kind : Byte
  tag : Byte
  payload : List Byte
  answers : Bool
deriving DecidableEq, Repr

/-- The request in progress (R173). -/
structure RequestInProgress where
  kind : Byte
  tag : Byte
deriving DecidableEq, Repr

/-- The supervisory link (SVL). -/
structure SupervisoryLink where
  receive : ReceiveState
  buffer : List Byte
  inProgress : Option RequestInProgress
  transmit : List Reply
  crcErrors : Nat
  discards : Nat
  overruns : Nat
  highSpeed : Bool
  /-- THE MODEL'S OWN (log entry 74): the bytes of the frame that SVL has sent last, whole (R173, R184). -/
  lastFrame : List Byte
deriving DecidableEq, Repr

/-! ### The machine -/

/-- Everything the blocks hold for one outlet. -/
structure Berth where
  sc : OutletRecord
  lines : Lines
  mu : Measures
  mp : OutletPool
  rg : RefGen
  sy : Synchroniser
  pr : Protection
  sl : ShipLink
  mt : Option Meter
deriving DecidableEq, Repr

/-- The state of the part, and the queue of commands that wait, first in, first out. -/
structure State where
  tb : Timebase
  grid : GridPoint
  pool : Pool
  account : Account
  metering : Metering
  gridWatch : GridWatch
  fe : FaultUnit
  svl : SupervisoryLink
  berths : Quad Berth
  /-- THE MODEL'S OWN: within a step, an event that calls for an evaluation pass has come (R88). -/
  passDue : Bool
  /-- THE MODEL'S OWN: the commands that wait. -/
  pending : List Instr
deriving DecidableEq, Repr

/-- The faults of the model. The manual gives the part no condition in which it stops, so the type has
no constructor: no command ends in a fault. -/
inductive Fault where
deriving DecidableEq, Repr

/-- The refusals of the model. -/
inductive Refusal where
  /-- Raised by an arm of exec whose command has no meaning yet: safe. No arm is left that raises
  it. -/
  | notModelled (mnemonic : String)
deriving DecidableEq, Repr

/-- The time stamp of supply-on (R5, R6). -/
def TimeStamp.zero : TimeStamp := { seconds := 0, micros := 0, run := 0 }

/-- TB at supply-on (R1, R2, R5, R6, R8, R9). -/
def Timebase.reset : Timebase :=
  { state := .qualifying, xoUse := true, firstAttempt := true, windows := 0, passes := 0
    windowFrom := 0, fails := 0, checkFrom := 0, retryFrom := none, run := 0, seconds := 0
    subSecond := 0, timeUnset := true, offset := 0, ppsUse := false, pps := .off, ppsFrom := none
    lastPulse := none }

/-- A measuring point after a reset at run count `now` (R18). -/
def PointState.reset (now : RunCount) : PointState :=
  { record := none, live := false, cycle := none, cadenceFrom := now }

/-- A module record at supply-on (R19). -/
def Module.reset : Module :=
  { rating := none, state := .offline, outlet := none, band := .normal, faultCount := 0
    faultCode := none, trim := 0, power := none, shareTarget := 0, reportAt := 0, lineLost := false
    busForming := false, precharged := false, stop := none, sent := none }

/-- RG at supply-on (R42, R59). -/
def RefGen.reset : RefGen :=
  { mode := .off, phase := 0, phaseFrac := 0, freqNow := 50000000, freqTarget := 50000
    voltNow := 11000000, voltTarget := 11000, pSet := 0, delta := 0, islandTrim := 0, gain := 40
    holding := false, clamped := false, recordTime := none, updateFrom := 0, updated := false }

/-- SY at supply-on (Table 4-2, R75). -/
def Synchroniser.reset : Synchroniser :=
  { settings := { smin := 20, smax := 150, dVpct := 5, adapt := false, syncTimeout := 180 }
    close := .watching, tc := 120, attempts := 0, deadFrom := none, deadComplete := false
    openDrive := false, driveFrom := none, record := none, closeOutput := false }

/-- SC's outlet record at supply-on (R78, R102). DESIGN CHOICE (log entry 60), unsafe: the waiting-since time
is absent. -/
def OutletRecord.reset : OutletRecord :=
  { state := .dormant, waiting := none, denial := none, declaration := none, session := none
    target := 0, firstCause := none, endRequested := false, returnAwaited := false
    openDrive := false, waitingSince := none, entered := .zero
    settings := { nominalVolts := 11000, cableRating := 3000, linkWake := .normal
                  energiseTimeout := 600, rampRate := 400, rampInLimit := 300 }
    prepareReturn := false, deny := false, flagsSeen := none, lastDeclared := none
    energiseFrom := none, syncFrom := none, syncExpired := false, rampFrom := none
    rampInFrom := none, capacityShortFrom := none, returnFrom := none, rampOutFrom := none
    unloadedFrom := none, openFrom := none, capFrom := none, capReported := false }

/-- PR at supply-on (R104, R119). -/
def Protection.reset : Protection :=
  { tripPct := 130, overload := 0, frequency := 0, voltageFrom := none, capacityFrom := none
    reverseFrom := none, openDrive := false, postTripFrom := none, breakerFail := false
    laterCauses := [] }

/-- SL at supply-on (R120, R138). -/
def ShipLink.reset : ShipLink :=
  { state := .unpowered, stations := [], generators := [], collisions := 0
    collisionAddress := none, wakeFrom := none, wakeLength := 0, activity := .quiet, step := .rest
    cycleFrom := 0, stuckInDiscovery := false, missFrom := 0, lookFrom := 0, attention := false }

/-- An outlet at supply-on. -/
def Berth.reset : Berth :=
  { sc := .reset
    lines := { pilotClosed := false, breakerClosed := false, closedAt := none, linkPower := false }
    mu := { shore := .reset 0, ship := .reset 0, pair := none, power := none, clipReported := false }
    mp := { entry := none, replaceArisen := false, growFrom := none, shrinkFrom := none
            voluntary := none, hold := none }
    rg := .reset, sy := .reset, pr := .reset, sl := .reset, mt := none }

/-- FE at supply-on (R169): the SUPPLY_ON flag is bit 28 and the enables are those of the other
class, bits 11 to 28 (Table 11-2). -/
def FaultUnit.reset : FaultUnit :=
  { flags := 0x10000000, sinceClear := true, capture := none, enables := 0x1FFFF800
    outletEvents := true, reportOff := false
    queue := [{ kind := .fault .supplyOn, source := .station, seconds := 0, millis := 0
                detail := none, lost := false }] }

/-- The state right after supply-on, every block at the value its section gives (R1, R5, R6, R8, R9,
R13, R18, R19, R41, R42, R59, R75, R78, R102, R119, R138, R158, R169, R182). The speed select input
is read low and every breaker feedback open (log entry 4). -/
def State.reset : State :=
  { tb := .reset
    grid := { point := .reset 0, nominal := 11000 }
    pool := { modules := .fill .reset, unit := none, tripHold := 30, commandFrom := 0 }
    account := { places := [none, none, none, none, none, none, none, none], limit := 0
                 sessionCounter := 1, headroom := 20, importFrom := none, importReported := false }
    metering := { length := 15, rounding := .round, bands := [], queue := [], sequence := 1
                  lowArmed := true }
    gridWatch := { since := some 0, standing := false }
    fe := .reset
    svl := { receive := .hunting, buffer := [], inProgress := none, transmit := [], crcErrors := 0
             discards := 0, overruns := 0, highSpeed := false, lastFrame := [] }
    berths := .fill .reset
    passDue := false
    pending := [] }

end Sys2Proof.Machine
end

