-- ==== Sys2Proof/Machine/Flags.lean ====
section
/-! DEFINITION. The flags of the part: fault codes and masks, the report enables, fault-since-clear,
the attention output, interval flags and the codes of Table 11-2. -/

namespace Sys2Proof.Machine

open Sys2Proof

/-- The code of a fault kind: 1 to 29 in the order of Table 9-1 (Table 11-2). -/
def FaultKind.code : FaultKind → Nat
  | .pilotOpen => 1 | .shipStop => 2 | .scpLost => 3 | .overload => 4 | .busFrequency => 5
  | .busVoltage => 6 | .capacityLoss => 7 | .reversePower => 8 | .gridLoss => 9
  | .unexpectedOpen => 10 | .restart => 11 | .closeFail => 12 | .breakerLate => 13
  | .breakerFail => 14 | .moduleFault => 15 | .moduleStartFail => 16 | .moduleLockout => 17
  | .moduleLinkLost => 18 | .linkStuck => 19 | .stationDuplicate => 20 | .timebaseFallback => 21
  | .ppsLost => 22 | .measurementClip => 23 | .overBudget => 24 | .energiseTimeout => 25
  | .syncTimeout => 26 | .handoverAbort => 27 | .rampOutTimeout => 28 | .supplyOn => 29

/-- The trip class is the causes of outlet trips and RESTART, the first eleven kinds (Table 9-1). -/
def FaultKind.isTrip (k : FaultKind) : Bool := decide (k.code ≤ 11)

/-- The bit of a kind in a fault mask: bit k − 1 for code k (R183). -/
def FaultKind.bit (k : FaultKind) : BitVec 32 := 1#32 <<< (k.code - 1)

/-- The bits of a fault mask that stand for a kind; bits 29 to 31 name none (R183). -/
def allKinds : BitVec 32 := 0x1FFFFFFF

/-- The bits of the trip class. -/
def tripKinds : BitVec 32 := 0x7FF

/-- The bits of the other class: the kinds that have a report enable (R161). -/
def otherKinds : BitVec 32 := 0x1FFFF800

/-- The code of an event kind (Table 11-2). -/
def EventKind.code : EventKind → Nat
  | .fault k => k.code
  | .outletState => 64 | .sessionOpen => 65 | .sessionClose => 66 | .billingLow => 67
  | .importOverLimit => 68 | .overCap => 69 | .ppsJump => 70 | .closeTimeOdd => 71
  | .unplannedParallel => 72 | .returnWaitLong => 73 | .tooManyStations => 74

/-- The code of a source (Table 11-2). -/
def Source.code : Source → Nat
  | .station => 0
  | .outlet o => 0x10 + o.number
  | .module m => 0x20 + m.number

/-- The trip-class fault of a trip cause's name (R106). -/
def Cause.fault : Cause → FaultKind
  | .pilotOpen => .pilotOpen | .shipStop => .shipStop | .scpLost => .scpLost
  | .overload => .overload | .busFrequency => .busFrequency | .busVoltage => .busVoltage
  | .capacityLoss => .capacityLoss | .reversePower => .reversePower | .gridLoss => .gridLoss
  | .unexpectedOpen => .unexpectedOpen | .restart => .restart

/-- The code of an outlet state (Table 11-2). -/
def OutletState.code : OutletState → Nat
  | .dormant => 0 | .cableProven => 1 | .awaitAuth => 2 | .energising => 3 | .synchronising => 4
  | .closing => 5 | .parallelIn => 6 | .shoreSupply => 7 | .parallelOut => 8 | .opening => 9
  | .windDown => 10 | .tripped => 11

/-- The code of a waiting reason (Table 11-2). -/
def WaitingReason.code : WaitingReason → Nat
  | .authorisation => 1 | .budget => 2 | .billingSpace => 3

/-- The code of a denial reason (Table 11-2). -/
def DenialReason.code : DenialReason → Nat
  | .declarationRange => 4 | .nominalMismatch => 5 | .cableLimit => 6 | .capacityImpossible => 7

/-- The code of a clock quality (Table 11-2), which ranks them from best to worst (R12). -/
def ClockQuality.code : ClockQuality → Nat
  | .xoPps => 0 | .xo => 1 | .irc => 2 | .unset => 3

/-- The worse of two clock qualities (R145). -/
def ClockQuality.worse (a b : ClockQuality) : ClockQuality := if a.code < b.code then b else a

/-- The code of a closing reason (Table 11-2). -/
def ClosingReason.code : ClosingReason → Nat
  | .boundary => 1 | .flush => 2 | .timeSet => 3 | .sessionEnd => 4

/-- The flag word of an interval record, bits 0 to 6 (R187). -/
def IntervalFlags.word (f : IntervalFlags) : Nat :=
  f.isPartial.toNat + 2 * f.extended.toNat + 4 * f.bandMixed.toNat + 8 * f.timeStepped.toNat
    + 16 * f.timeUnset.toNat + 32 * f.saturated.toNat + 64 * f.measurementGap.toNat

/-- The kinds FE reports: the trip class, and the kinds of the other class whose enable is on
(R161). -/
def FaultUnit.reported (u : FaultUnit) : BitVec 32 := tripKinds ||| (u.enables &&& otherKinds)

/-- A kind is a reported kind (R161). -/
def FaultUnit.reports (u : FaultUnit) (k : FaultKind) : Bool := u.reported &&& k.bit != 0

/-- The attention output (R168). -/
def FaultUnit.attention (u : FaultUnit) : Bool :=
  !u.reportOff && (!u.queue.isEmpty || (u.flags &&& u.reported != 0))

/-- The breaker-closed states (Table 5-3). -/
def OutletState.breakerClosed : OutletState → Bool
  | .parallelIn | .shoreSupply | .parallelOut => true
  | .dormant | .cableProven | .awaitAuth | .energising | .synchronising | .closing | .opening
  | .windDown | .tripped => false

/-- The request states (R32). -/
def OutletState.requests : OutletState → Bool
  | .energising | .synchronising | .closing | .parallelIn | .shoreSupply | .parallelOut => true
  | .dormant | .cableProven | .awaitAuth | .opening | .windDown | .tripped => false

end Sys2Proof.Machine
end

