-- ==== Sys2Proof/Machine/Ops.lean ====
section
/-! DEFINITION. The named operations every block works with: reading and writing an outlet's and a
module's part of State, the present time stamp, raising faults and events (R159 to R165), and the
figures that several blocks derive from the same state. -/

namespace Sys2Proof.Machine

open Sys2Proof

/-- The present time stamp (R5). -/
def State.now (s : State) : TimeStamp :=
  { seconds := s.tb.seconds, micros := s.tb.subSecond, run := s.tb.run }

/-- A count over which the present run count stands `µs` or more (R5). -/
def State.ran (s : State) (since : RunCount) (micros : Nat) : Bool :=
  decide (micros ≤ elapsed s.tb.run since)

/-- What the part holds for an outlet. -/
def State.berth (s : State) (o : Outlet) : Berth := s.berths.get o

/-- State with what it holds for an outlet changed. -/
def State.onBerth (s : State) (o : Outlet) (f : Berth → Berth) : State :=
  { s with berths := s.berths.set o (f (s.berths.get o)) }

/-- The record of a module. -/
def State.module (s : State) (m : ModuleNo) : Module := s.pool.modules.get m

/-- State with a module's record changed. -/
def State.onModule (s : State) (m : ModuleNo) (f : Module → Module) : State :=
  { s with pool := { s.pool with modules := s.pool.modules.set m (f (s.pool.modules.get m)) } }

/-- A change of a module's state: SC makes an evaluation pass on it (R19, R88). -/
def State.changeModule (s : State) (m : ModuleNo) (f : Module → Module) : State :=
  { s.onModule m f with passDue := true }

/-- An outlet's session controller record changed. -/
def State.onSc (s : State) (o : Outlet) (f : OutletRecord → OutletRecord) : State :=
  s.onBerth o fun b => { b with sc := f b.sc }

/-- An outlet's reference generator changed. -/
def State.onRg (s : State) (o : Outlet) (f : RefGen → RefGen) : State :=
  s.onBerth o fun b => { b with rg := f b.rg }

/-- An outlet's synchroniser changed. -/
def State.onSy (s : State) (o : Outlet) (f : Synchroniser → Synchroniser) : State :=
  s.onBerth o fun b => { b with sy := f b.sy }

/-- An outlet's protection changed. -/
def State.onPr (s : State) (o : Outlet) (f : Protection → Protection) : State :=
  s.onBerth o fun b => { b with pr := f b.pr }

/-- An outlet's ship link changed. -/
def State.onSl (s : State) (o : Outlet) (f : ShipLink → ShipLink) : State :=
  s.onBerth o fun b => { b with sl := f b.sl }

/-- An outlet's part of the module pool changed. -/
def State.onMp (s : State) (o : Outlet) (f : OutletPool → OutletPool) : State :=
  s.onBerth o fun b => { b with mp := f b.mp }

/-- An outlet's measures changed. -/
def State.onMu (s : State) (o : Outlet) (f : Measures → Measures) : State :=
  s.onBerth o fun b => { b with mu := f b.mu }

/-- An outlet's session meter changed, where it has one. -/
def State.onMt (s : State) (o : Outlet) (f : Meter → Meter) : State :=
  s.onBerth o fun b => { b with mt := b.mt.map f }

/-- An outlet's lines changed. -/
def State.onLines (s : State) (o : Outlet) (f : Lines → Lines) : State :=
  s.onBerth o fun b => { b with lines := f b.lines }

/-! ### Reporting (Section 9) -/

/-- FE with an event offered: stored as the newest record while fewer than 32 are held (R164), and
otherwise marked on the newest record held (R165). -/
def FaultUnit.offer (u : FaultUnit) (e : EventRecord) : FaultUnit :=
  if u.queue.length < 32 then { u with queue := u.queue ++ [e] }
  else { u with queue := u.queue.dropLast ++
                  (u.queue.getLast?.map fun last => { last with lost := true }).toList }

/-- The event record that a block's report makes at the present moment (R163). -/
def State.eventNow (s : State) (kind : EventKind) (source : Source) (detail : Option Nat) :
    EventRecord :=
  { kind, source, seconds := s.tb.seconds, millis := s.tb.subSecond / 1000, detail, lost := false }

/-- FE takes a raised fault (R159): flag and fault-since-clear always, capture and event for a
reported kind. -/
def FaultUnit.take (u : FaultUnit) (k : FaultKind) (e : EventRecord) : FaultUnit :=
  let flagged := { u with flags := u.flags ||| k.bit, sinceClear := true }
  if u.reports k then
    { flagged with
      capture := some { kind := k, source := e.source, seconds := e.seconds, millis := e.millis }
    }.offer e
  else flagged

/-- A block raises a fault (paragraph 9.1). -/
def State.raise (s : State) (k : FaultKind) (source : Source) (detail : Option Nat := none) : State :=
  { s with fe := s.fe.take k (s.eventNow (.fault k) source detail) }

/-- A block raises an event of Table 9-2 (R163). -/
def State.report (s : State) (kind : EventKind) (source : Source) (detail : Option Nat := none) :
    State :=
  { s with fe := s.fe.offer (s.eventNow kind source detail) }

/-- SC hands FE a change of outlet state, offered while outlet events are enabled (R163). -/
def State.reportState (s : State) (o : Outlet) (new : OutletState) : State :=
  if s.fe.outletEvents then s.report .outletState (.outlet o) (some new.code) else s

/-! ### Figures that several blocks derive -/

/-- The outlet's nominal frequency in millihertz, from the declaration held (R81). Without one the spec
gives none: it is 0 (DESIGN CHOICE, log entry 53), so that in TRIPPED without a session every cycle
record of Pn lies outside the band of R111. -/
def Berth.nominalFreq (b : Berth) : Nat :=
  match b.sc.declaration with
  | some d => d.hertz * 1000
  | none => 0

/-- The outlet's nominal voltage (R78). -/
def Berth.nominalVolts (b : Berth) : Nat := b.sc.settings.nominalVolts

/-- The declaration held is of mode DEAD_BUS (Table 5-4). -/
def Berth.declaresDeadBus (b : Berth) : Bool :=
  match b.sc.declaration with
  | some d => d.mode == 1
  | none => false

/-- The declaration held is of mode PARALLEL (Table 5-4). -/
def Berth.declaresParallel (b : Berth) : Bool :=
  match b.sc.declaration with
  | some d => d.mode == 0
  | none => false

/-- The clock quality in force (R12). -/
def Timebase.quality (t : Timebase) : ClockQuality :=
  if t.timeUnset then .unset
  else if t.state = .xo ∧ t.pps = .locked then .xoPps
  else if t.state = .xo then .xo
  else .irc

/-- The local minute of day of a seconds count (R8), worked out without 32-bit wrap. -/
def localMinute (seconds : BitVec 32) (offset : Int) : Nat :=
  ((((seconds.toNat : Int) + offset * 60) % 86400) / 60).toNat

/-- The effective rating of a module (R21). DESIGN CHOICE (log entry 59), unsafe: 0 without a rating. -/
def Module.effective (m : Module) : Nat :=
  match m.rating with
  | none => 0
  | some r => if m.band = .hot then r * 75 / 100 / 10 * 10 else r

/-- The module is assigned to the outlet (R23). -/
def Module.assignedTo (m : Module) (o : Outlet) : Bool := m.outlet == some o

/-- The module is in a state at the outlet. -/
def Module.inStateAt (m : Module) (st : ModuleState) (o : Outlet) : Bool :=
  m.state == st && m.outlet == some o

/-- The sum of a figure over the modules. -/
def Pool.sum (p : Pool) (f : Module → Nat) : Nat := (p.modules.toList.map f).foldl (· + ·) 0

/-- The modules that meet a condition, in order of number. -/
def Pool.which (p : Pool) (f : Module → Bool) : List ModuleNo :=
  ModuleNo.all.filter fun m => f (p.modules.get m)

/-- An outlet's capacity: the effective ratings of its RUNNING modules (R23). -/
def State.capacity (s : State) (o : Outlet) : Nat :=
  s.pool.sum fun m => if m.inStateAt .running o then m.effective else 0

/-- An outlet's prospective capacity: with its STARTING module (R23). -/
def State.prospective (s : State) (o : Outlet) : Nat :=
  s.capacity o + s.pool.sum fun m => if m.inStateAt .starting o then m.effective else 0

/-- The number of an outlet's assigned modules (R23). -/
def State.assigned (s : State) (o : Outlet) : Nat :=
  (s.pool.which fun m => m.assignedTo o).length

/-- The number of an outlet's modules in a state. -/
def State.countAt (s : State) (st : ModuleState) (o : Outlet) : Nat :=
  (s.pool.which fun m => m.inStateAt st o).length

/-- The open session count: the number of session meters (R140). -/
def State.openSessions (s : State) : Nat :=
  (s.berths.toList.filter fun b => b.mt.isSome).length

/-- The free entries of the billing queue (R153). -/
def State.freeEntries (s : State) : Nat := 96 - s.metering.queue.length

/-- The spare of the billing queue (R153). -/
def State.spare (s : State) : Int := (s.freeEntries : Int) - s.openSessions

/-- An outlet's claim; 0 without a session. -/
def Berth.claim (b : Berth) : Nat :=
  match b.sc.session with
  | some x => x.claim
  | none => 0

/-- The sum of the claims (R85). -/
def State.claims (s : State) : Nat := (s.berths.toList.map Berth.claim).foldl (· + ·) 0

/-- The remaining budget, which may be negative (R85). -/
def State.remaining (s : State) : Int := (s.account.limit : Int) - s.claims

/-- The outlet's SCP entry is in PRESENT (R125). -/
def ShipLink.scpPresent (l : ShipLink) : Bool :=
  l.stations.any fun e => e.kind == some .scp && e.state == .present

/-- The table holds a DUPLICATE entry (R125). -/
def ShipLink.anyDuplicate (l : ShipLink) : Bool := l.stations.any fun e => e.state == .duplicate

/-- SHIP_STOP holds: some station's latest status shows its stop flag set (R109). -/
def ShipLink.stopShown (l : ShipLink) : Bool :=
  l.stations.any fun e =>
    match e.status with
    | some st => st.stop
    | none => false

/-- The reading of a generator entry (R135). -/
def Generator.reading (g : Generator) : GenReading := if g.stale then .unknown else g.breaker

/-- The outlet's open output is driven by SY, SC or PR (R71, R107). -/
def Berth.openOutput (b : Berth) : Bool := b.sy.openDrive || b.sc.openDrive || b.pr.openDrive

/-- Of two run counts, the later as the present run count sees them. -/
def laterRun (now a b : RunCount) : RunCount := if elapsed now a ≤ elapsed now b then a else b

/-- Put a value in a list before every value that is not older, so that the oldest comes first and
equals keep their order; `age` tells how old a value is. -/
def insertByAge {α : Type} (age : α → Nat) (a : α) : List α → List α
  | [] => [a]
  | b :: rest => if age b ≤ age a then a :: b :: rest else b :: insertByAge age a rest

/-- A list with the oldest first, equals in the order they stood. -/
def sortByAge {α : Type} (age : α → Nat) : List α → List α
  | [] => []
  | a :: rest => insertByAge age a (sortByAge age rest)

end Sys2Proof.Machine
end

