-- ==== Sys2Proof/Machine/Metering.lean ====
section
/-! DEFINITION. The operations of the meter (MT, Section 8): integrating energy, measurement gaps,
intervals and bands, the rounding step and the billing queue. -/

namespace Sys2Proof.Machine

open Sys2Proof

/-- One watt-hour in microjoules. -/
def microjoulesPerWh : Nat := 3600000000

/-! ### Intervals and bands -/

/-- The last entry that starts at or before a minute, of a table in ascending order. -/
def lastStarted (minute : Nat) (bands : List BandEntry) : Option BandEntry :=
  (bands.filter fun e => decide (e.minute ≤ minute)).getLast?

/-- The band in force at a local minute (R144). -/
def bandAt (bands : List BandEntry) (minute : Nat) : Nat :=
  match lastStarted minute bands, bands.getLast? with
  | some e, _ => e.band
  | none, some e => e.band
  | none, none => 0

/-- The band in force at the present local minute (R144). -/
def State.bandNow (s : State) : Nat :=
  bandAt s.metering.bands (localMinute s.tb.seconds s.tb.offset)

/-- An interval opened now (R146). -/
def State.newInterval (s : State) (first : Bool) : Interval :=
  { start := s.now, band := s.bandNow, worst := s.tb.quality, gapMillis := 0
    flags := { isPartial := first, extended := false, bandMixed := false, timeStepped := false
               timeUnset := s.tb.timeUnset, saturated := false, measurementGap := false } }

/-- No energy (R140). -/
def Energy.zero : Energy := { accumulator := 0, residual := 0, total := 0, billed := 0 }

/-- The session meter of a session that opens now (R140). -/
def State.newMeter (s : State) (x : Session) : Meter :=
  { session := x.number, hull := x.hull, plan := x.plan, opened := s.tb.run
    imported := .zero, exported := .zero, closes := 0, trips := 0, lastRecord := none
    gapFrom := none, interval := s.newInterval true }

/-- The interval sees a clock quality (R145). -/
def Interval.see (i : Interval) (q : ClockQuality) : Interval := { i with worst := i.worst.worse q }

/-- TB hands MT the clock quality in force after it may have changed (R12, R145). The worst value
seen takes no note of a value seen before. -/
def State.noteQuality (s : State) : State :=
  Outlet.all.foldl (fun t o => t.onMt o fun m => { m with interval := m.interval.see s.tb.quality }) s

/-- BAND_MIXED is set in an interval left open when the band in force is not its band at start
(R145). -/
def Interval.judgeBand (i : Interval) (band : Nat) : Interval :=
  if band ≠ i.band then { i with flags := { i.flags with bandMixed := true } } else i

/-! ### Energy and gaps -/

/-- The energy of a record is added to an accumulator and its total (R141). -/
def Energy.add (e : Energy) (microjoules : Nat) : Energy :=
  { e with accumulator := e.accumulator + microjoules, total := e.total + microjoules }

/-- A span of a gap is added to the open interval (R142). -/
def Interval.addGap (i : Interval) (span : Nat) : Interval :=
  { i with gapMillis := i.gapMillis + span / 1000
           flags := { i.flags with measurementGap := true } }

/-- An open gap ends now, its span going to the open interval (R142). -/
def Meter.endGap (m : Meter) (now : RunCount) : Meter :=
  match m.gapFrom with
  | some since => { m with interval := m.interval.addGap (elapsed now since), gapFrom := none }
  | none => m

/-- The open interval closes now: an open gap's span goes to it, and the gap is counted on from the
close (R142). -/
def Meter.splitGap (m : Meter) (now : RunCount) : Meter :=
  match m.gapFrom with
  | some since => { m with interval := m.interval.addGap (elapsed now since), gapFrom := some now }
  | none => m

/-- The moment from which a gap is counted: the later of the last record, or before the first the
opening, and the latest change of the feedback to closed (R142). -/
def Meter.gapBase (m : Meter) (now : RunCount) (closedAt : Option RunCount) : RunCount :=
  let base := m.lastRecord.getD m.opened
  match closedAt with
  | some c => laterRun now base c
  | none => base

/-- MT takes an outlet power record (R141, R142). -/
def Meter.takePower (m : Meter) (r : PowerRecord) : Meter :=
  let m := m.endGap r.stamp.run
  let energy := r.p.natAbs * r.period
  { m with
    imported := if 0 < r.p then m.imported.add energy else m.imported
    exported := if r.p < 0 then m.exported.add energy else m.exported
    lastRecord := some r.stamp.run
    interval :=
      if r.clipped then { m.interval with flags := { m.interval.flags with saturated := true } }
      else m.interval }

/-- A confirmed close is counted (R140). -/
def Meter.countClose (m : Meter) : Meter := { m with closes := min 65535 (m.closes + 1) }

/-- A trip is counted (R140). -/
def Meter.countTrip (m : Meter) : Meter := { m with trips := min 65535 (m.trips + 1) }

/-! ### Closing an interval -/

/-- The watt-hours of the rounding step (R147, step 2). -/
def Energy.wattHours (e : Energy) (mode : Rounding) : Nat :=
  let total : Int := e.accumulator + e.residual
  match mode with
  | .truncate => (total / microjoulesPerWh).toNat
  | .round => ((total + 1800000000) / microjoulesPerWh).toNat

/-- The energy after the rounding step, its watt-hours added to the billed total (R147). -/
def Energy.close (e : Energy) (mode : Rounding) : Energy :=
  let wh := e.wattHours mode
  { accumulator := 0
    residual := e.accumulator + e.residual - wh * microjoulesPerWh
    total := e.total, billed := e.billed + wh }

/-- A span in seconds, rounded to the nearest, halves up (R148). -/
def roundedSeconds (micros : Nat) : Nat := (micros + 500000) / 1000000

/-- A residual in milliwatt-hours, truncated toward zero (R152). -/
def unbilled (residual : Int) : Int := residual.tdiv 3600000

/-- The interval record of a close (R148, R152), from a meter whose gap has been split. -/
def State.intervalRecord (s : State) (o : Outlet) (m : Meter) (reason : ClosingReason) :
    BillingRecord :=
  let mode := s.metering.rounding
  let imp := m.imported.close mode
  let exp := m.exported.close mode
  let duration := roundedSeconds (elapsed s.tb.run m.interval.start.run)
  { sequence := s.metering.sequence, session := m.session, outlet := o, plan := m.plan
    hull := m.hull, start := m.interval.start, duration, band := m.interval.band
    quality := m.interval.worst
    flags := { m.interval.flags with
      isPartial := m.interval.flags.isPartial || decide (duration < s.metering.length * 60) }
    reason, importWh := m.imported.wattHours mode, exportWh := m.exported.wattHours mode
    gapSeconds := m.interval.gapMillis / 1000
    part :=
      if reason = .sessionEnd then
        some { importWh := imp.billed, exportWh := exp.billed
               duration := roundedSeconds (elapsed s.tb.run m.opened)
               closes := m.closes, trips := m.trips
               unbilledImport := unbilled imp.residual, unbilledExport := unbilled exp.residual }
      else none }

/-- MT stores a record as the newest, taking the sequence counter (R153), and raises BILLING_LOW
when the store brings the free entries below 16 while armed (R154). -/
def State.store (s : State) (r : BillingRecord) : State :=
  let stored :=
    { s with metering := { s.metering with queue := s.metering.queue ++ [r]
                                           sequence := s.metering.sequence + 1 } }
  if stored.metering.lowArmed ∧ stored.freeEntries < 16 then
    { stored.report .billingLow .station (some stored.freeEntries) with
      metering := { stored.metering with lowArmed := false } }
  else stored

/-- MT closes an outlet's open interval and stores its record. A SESSION_END discards the meter
(R152), and any other close opens the next interval at once (R146). -/
def State.closeInterval (s : State) (o : Outlet) (reason : ClosingReason) : State :=
  match (s.berth o).mt with
  | none => s
  | some held =>
    let m := held.splitGap s.tb.run
    let next : Meter :=
      { m with imported := m.imported.close s.metering.rounding
               exported := m.exported.close s.metering.rounding
               interval := s.newInterval false }
    (s.store (s.intervalRecord o m reason)).onBerth o fun b =>
      { b with mt := if reason = .sessionEnd then none else some next }

/-- The outlets with an open interval in order of its start, earliest first, equal starts in order
of number (R149). -/
def State.servingOrder (s : State) : List Outlet :=
  sortByAge
    (fun o =>
      match (s.berth o).mt with
      | some m => elapsed s.tb.run m.interval.start.run
      | none => 0)
    (Outlet.all.filter fun o => (s.berth o).mt.isSome)

/-- An interval that a boundary tick leaves open (R149). -/
def Interval.extend (i : Interval) (band : Nat) : Interval :=
  ({ i with flags := { i.flags with extended := true } } : Interval).judgeBand band

/-- An interval that a time step leaves open (R150). -/
def Interval.timeStep (i : Interval) (band : Nat) : Interval :=
  ({ i with flags := { i.flags with timeStepped := true } } : Interval).judgeBand band

/-- One interval at a boundary tick (R149). -/
def State.serveBoundary (s : State) (o : Outlet) : State :=
  if 1 ≤ s.spare then s.closeInterval o .boundary
  else s.onMt o fun m => { m with interval := m.interval.extend s.bandNow }

/-- The present seconds count is that of a boundary tick (R143). -/
def State.atBoundary (s : State) : Bool :=
  localMinute s.tb.seconds s.tb.offset % s.metering.length == 0
    && ((s.tb.seconds.toNat : Int) + s.tb.offset * 60) % 60 == 0

/-- MT takes a one-second tick (R143, R149). -/
def State.meterTick (s : State) : State :=
  if s.atBoundary then s.servingOrder.foldl State.serveBoundary s else s

/-- One interval at a time-step notice (R150). -/
def State.serveTimeStep (s : State) (o : Outlet) : State :=
  if 1 ≤ s.spare then s.closeInterval o .timeSet
  else s.onMt o fun m => { m with interval := m.interval.timeStep s.bandNow }

/-- MT takes a time-step notice (R150). -/
def State.meterTimeStep (s : State) : State := s.servingOrder.foldl State.serveTimeStep s

/-- MT opens the meter of a session (R140). -/
def State.openMeter (s : State) (o : Outlet) (x : Session) : State :=
  s.onBerth o fun b => { b with mt := some (s.newMeter x) }

end Sys2Proof.Machine
end

