-- ==== Sys2Proof/Machine/Protect.lean ====
section
/-! DEFINITION. The operations of protection (PR, Section 6) on its own state: where each cause
applies, the counts and watches, and the conditions that persist. -/

namespace Sys2Proof.Machine

open Sys2Proof

/-- Table 6-2: the states in which a cause trips. A warm restart trips by R117 alone. -/
def Cause.tripsIn (c : Cause) (st : OutletState) : Bool :=
  match c, st with
  | .pilotOpen, .closing | .shipStop, .closing | .scpLost, .closing => true
  | .reversePower, .shoreSupply => true
  | .reversePower, _ | .restart, _ => false
  | _, .parallelIn | _, .shoreSupply | _, .parallelOut => true
  | _, _ => false

/-- Table 6-2, note a: the causes watched in TRIPPED while the feedback shows closed (R108). -/
def Cause.watchedTripped : Cause → Bool
  | .pilotOpen | .shipStop | .scpLost | .busFrequency | .busVoltage | .gridLoss => true
  | .overload | .capacityLoss | .reversePower | .unexpectedOpen | .restart => false

/-- The outlet is in TRIPPED with its feedback closed (R108). -/
def Berth.trippedClosed (b : Berth) : Bool := b.sc.state == .tripped && b.lines.breakerClosed

/-- The states in which BUS_FREQUENCY and BUS_VOLTAGE are watched (Table 6-2). -/
def Berth.watchesBus (b : Berth) : Bool := b.sc.state.breakerClosed || b.trippedClosed

/-! ### Conditions (R110 to R114) -/

/-- A power record exceeds the overload threshold (R110). -/
def overloaded (tripPct capacity apparent : Nat) : Bool :=
  decide (tripPct * (capacity * 1000) < apparent * 100)

/-- A record of Pn is outside the frequency band, a voltage-only record included (R111). -/
def outsideFrequency (nominal : Nat) (r : Phasor) : Bool :=
  match r.cycle with
  | none => true
  | some c => !(decide (nominal * 95 ≤ c.freq * 100) && decide (c.freq * 100 ≤ nominal * 105))

/-- The voltage at which BUS_VOLTAGE judges a record: that of the record, and the range end of 15,000 V
where its clipped flag is set, by a sample or by the computed voltage (R17, R112). -/
def Phasor.judgedVolts (r : Phasor) : Nat := if r.clipped then 15000 else r.voltage

/-- A record of Pn is outside the voltage band of ±10 %, the bounds inside (R112). -/
def outsideVoltage (nominal : Nat) (r : Phasor) : Bool :=
  !(decide (nominal * 90 ≤ r.judgedVolts * 100) && decide (r.judgedVolts * 100 ≤ nominal * 110))

/-- CAPACITY_LOSS's condition: the capacity is below the latest S (R113). -/
def capacityLost (capacity : Nat) (r : Option PowerRecord) : Bool :=
  match r with
  | some p => decide (capacity * 1000 < p.s)
  | none => false

/-- REVERSE_POWER's condition: the latest P is below −10 % of capacity (R114). -/
def reversed (capacity : Nat) (r : Option PowerRecord) : Bool :=
  match r with
  | some p => decide (p.p < -((capacity : Int) * 100))
  | none => false

/-- A watch judged at the present moment: started if its condition holds and it is not running, and
discarded if its condition does not hold. -/
def watch (running : Option RunCount) (holds : Bool) (now : RunCount) : Option RunCount :=
  if holds then some (running.getD now) else none

/-- A count of consecutive records that meet a condition, up to 10 (R110, R111). DESIGN CHOICE (log entry 77),
unsafe: a frequency count that has completed BUS_FREQUENCY as a later cause in TRIPPED stays at 10 until a
record inside the band. -/
def countRecord (count : Nat) (holds : Bool) : Nat := if holds then min 10 (count + 1) else 0

/-! ### Changes of state (R105, R106, R107, R108) -/

/-- Every count 0 and every watch discarded (R105, R106). -/
def Protection.clearWatches (p : Protection) : Protection :=
  { p with overload := 0, frequency := 0, voltageFrom := none, capacityFrom := none
           reverseFrom := none }

/-- PR releases its drive, discards the post-trip time and clears breaker-fail raised (R107). -/
def Protection.release (p : Protection) : Protection :=
  { p with openDrive := false, postTripFrom := none, breakerFail := false }

/-- PR's counts and watches when its outlet changes state (R105): those of the causes that the
breaker-closed states share run on between two of them, and the reverse watch, of SHORE_SUPPLY alone,
does not. -/
def Protection.watchesTakeState (p : Protection) (old new : OutletState) : Protection :=
  if old.breakerClosed && new.breakerClosed then { p with reverseFrom := none } else p.clearWatches

/-- PR takes a change of its outlet's state out of TRIPPED (R107, R108, R117), its feedback showing closed
or not: into WIND_DOWN its drive and post-trip time run on until the feedback shows open. DEDUCED (log entry
55), unsafe: with the feedback open already they end at the change. -/
def Protection.leaveTripped (p : Protection) (new : OutletState) (closed : Bool) : Protection :=
  let kept := { p with laterCauses := [] }
  if new = .windDown ∧ closed = true then kept else kept.release

/-- PR takes a change of its outlet's state, its feedback showing closed or not. -/
def Protection.takeState (p : Protection) (old new : OutletState) (closed : Bool) : Protection :=
  let q := p.watchesTakeState old new
  if old = .tripped then q.leaveTripped new closed else q

/-- PR's own part of a trip (R106). -/
def Protection.trip (p : Protection) (now : RunCount) : Protection :=
  { p.clearWatches with openDrive := true, postTripFrom := some now, breakerFail := false
                        laterCauses := [] }

/-- PR takes a change of the feedback to closed in TRIPPED (R107, R108). -/
def Protection.closedInTripped (p : Protection) (now : RunCount) : Protection :=
  { p.clearWatches with openDrive := true, postTripFrom := some now, breakerFail := false }

/-- PR at a warm restart; an outlet that the restart trips starts a post-trip time (R117, R119). -/
def Protection.restart (p : Protection) (tripped : Bool) (now : RunCount) : Protection :=
  { p.clearWatches.release with
    postTripFrom := if tripped then some now else none, laterCauses := [] }

/-! ### Judgements at records and changes of capacity -/

/-- The capacity and reverse watches judged at a power record or a change of capacity (R113, R114). -/
def Berth.judgeCapacityWatches (b : Berth) (capacity : Nat) (now : RunCount) : Berth :=
  { b with pr := { b.pr with
      capacityFrom :=
        if b.sc.state.breakerClosed then watch b.pr.capacityFrom (capacityLost capacity b.mu.power) now
        else b.pr.capacityFrom
      reverseFrom :=
        if b.sc.state = .shoreSupply then watch b.pr.reverseFrom (reversed capacity b.mu.power) now
        else b.pr.reverseFrom } }

/-- The overload count at a power record (R110). -/
def Berth.countOverload (b : Berth) (capacity : Nat) (r : PowerRecord) : Berth :=
  if b.sc.state.breakerClosed then
    { b with pr := { b.pr with
        overload := countRecord b.pr.overload (overloaded b.pr.tripPct capacity r.s) } }
  else b

/-- The frequency count and the voltage watch at a phasor record of Pn (R111, R112). -/
def Berth.prShipRecord (b : Berth) (r : Phasor) : Berth :=
  if b.watchesBus then
    { b with pr := { b.pr with
        frequency := countRecord b.pr.frequency (outsideFrequency b.nominalFreq r)
        voltageFrom := watch b.pr.voltageFrom (outsideVoltage b.nominalVolts r) r.stamp.run } }
  else b

/-- The grid watch at a phasor record of G (R115). -/
def GridWatch.take (w : GridWatch) (live : Bool) (now : RunCount) : GridWatch :=
  if live then { since := none, standing := false } else { w with since := some (w.since.getD now) }

/-! ### Levels and persisting conditions (R109, R118) -/

/-- The first of the level conditions that holds at an outlet (R109). -/
def Berth.levelCause (b : Berth) : Option Cause :=
  if !b.lines.pilotClosed then some .pilotOpen
  else if b.sl.stopShown then some .shipStop
  else if !b.sl.scpPresent then some .scpLost
  else none

/-- The cause that trips an outlet at its entry to a state (R105, R109, R115). -/
def Berth.entryCause (b : Berth) (gridStanding : Bool) : Option Cause :=
  if b.sc.state = .closing ∨ b.sc.state.breakerClosed = true then
    match b.levelCause with
    | some c => some c
    | none => if b.sc.state.breakerClosed && gridStanding then some .gridLoss else none
  else none

/-- A trip condition persists at an outlet (R118). -/
def State.persists (s : State) (o : Outlet) : Bool :=
  let b := s.berth o
  !b.lines.pilotClosed || b.sl.stopShown || !b.sl.scpPresent || !s.grid.point.live

end Sys2Proof.Machine
end

