-- ==== Sys2Proof/Machine/Operands.lean ====
section
/-! DEFINITION. The operand forms of the commands: the fields of a request's payload (R183, R184)
with the range each must lie in (check 3 of R174), and the payloads of the ship's stations (R122,
R186). -/

namespace Sys2Proof.Machine

open Sys2Proof

/-! ### Fields of a payload (R183) -/

/-- The number that bytes spell, high byte first. -/
def beValue (bytes : List Byte) : Nat := bytes.foldl (fun acc b => acc * 256 + b.toNat) 0

/-- The unsigned field of `width` bytes at `offset`. -/
def field (payload : List Byte) (offset width : Nat) : Nat :=
  beValue ((payload.drop offset).take width)

/-- The signed field of `width` bytes at `offset`, in two's complement. -/
def signedField (payload : List Byte) (offset width : Nat) : Int :=
  let n := field payload offset width
  if n < 256 ^ width / 2 then n else (n : Int) - (256 ^ width : Nat)

/-- Bit `i` of a field. -/
def bitOf (n i : Nat) : Bool := n / 2 ^ i % 2 == 1

/-- A field that a presence bit governs. -/
def optional {α : Type} (mask i : Nat) (a : α) : Option α := if bitOf mask i then some a else none

/-- A condition on a field where it is present. -/
def ifPresent {α : Type} (a : Option α) (f : α → Bool) : Bool :=
  match a with
  | some x => f x
  | none => true

/-- A value within bounds, both included. -/
def within (n lo hi : Nat) : Bool := decide (lo ≤ n ∧ n ≤ hi)

/-- A setting of two values holds 0 or 1 (R184). -/
def twoValued (n : Nat) : Bool := decide (n ≤ 1)

/-! ### CONFIGURE_STATION (R175, R184) -/

/-- The settings a CONFIGURE_STATION carries. -/
structure StationChange where
  xoUse : Option Nat
  ppsUse : Option Nat
  offset : Option Int
  gridNominal : Option Nat
  tripHold : Option Nat
  headroom : Option Nat
  length : Option Nat
  rounding : Option Nat
deriving DecidableEq, Repr

/-- The settings in the 12 bytes of the payload. -/
def StationChange.read (p : List Byte) : StationChange :=
  let mask := field p 0 1
  { xoUse := optional mask 0 (field p 1 1)
    ppsUse := optional mask 1 (field p 2 1)
    offset := optional mask 2 (signedField p 3 2)
    gridNominal := optional mask 3 (field p 5 2)
    tripHold := optional mask 4 (field p 7 2)
    headroom := optional mask 5 (field p 9 1)
    length := optional mask 6 (field p 10 1)
    rounding := optional mask 7 (field p 11 1) }

/-- The interval lengths (R143). -/
def isIntervalLength (n : Nat) : Bool := [5, 10, 15, 30, 60].contains n

/-- Check 3 of R174 on every present setting (R175): the length must divide every start minute of
the band table. -/
def StationChange.inRange (c : StationChange) (bands : List BandEntry) : Bool :=
  ifPresent c.xoUse twoValued && ifPresent c.ppsUse twoValued
    && ifPresent c.offset (fun x => decide (-720 ≤ x ∧ x ≤ 840))
    && ifPresent c.gridNominal (fun n => within n 1000 15000)
    && ifPresent c.tripHold (fun n => within n 0 300)
    && ifPresent c.headroom (fun n => within n 10 40)
    && ifPresent c.length (fun n => isIntervalLength n && bands.all fun e => e.minute % n == 0)
    && ifPresent c.rounding twoValued

/-- The rounding mode of a setting's byte (R184). -/
def roundingOf (n : Nat) : Rounding := if n = 0 then .truncate else .round

/-! ### CONFIGURE_OUTLET (R178, R184) -/

/-- The settings a CONFIGURE_OUTLET carries. -/
structure OutletChange where
  nominalVolts : Option Nat
  cableRating : Option Nat
  linkWake : Option Nat
  energiseTimeout : Option Nat
  rampRate : Option Nat
  rampInLimit : Option Nat
  gain : Option Nat
  smin : Option Nat
  smax : Option Nat
  dVpct : Option Nat
  tc : Option Nat
  adapt : Option Nat
  syncTimeout : Option Nat
  tripPct : Option Nat
deriving DecidableEq, Repr

/-- The settings in the 25 bytes of the payload, after the outlet and the presence word. -/
def OutletChange.read (p : List Byte) : OutletChange :=
  let mask := field p 1 2
  { nominalVolts := optional mask 0 (field p 3 2)
    cableRating := optional mask 1 (field p 5 2)
    linkWake := optional mask 2 (field p 7 1)
    energiseTimeout := optional mask 3 (field p 8 2)
    rampRate := optional mask 4 (field p 10 2)
    rampInLimit := optional mask 5 (field p 12 2)
    gain := optional mask 6 (field p 14 1)
    smin := optional mask 7 (field p 15 1)
    smax := optional mask 8 (field p 16 2)
    dVpct := optional mask 9 (field p 18 1)
    tc := optional mask 10 (field p 19 2)
    adapt := optional mask 11 (field p 21 1)
    syncTimeout := optional mask 12 (field p 22 2)
    tripPct := optional mask 13 (field p 24 1) }

/-- Check 3 of R174 on every present setting and on the pair of slip limits that would stand after
the write (R60, R178). -/
def OutletChange.inRange (c : OutletChange) (held : SyncSettings) : Bool :=
  ifPresent c.nominalVolts (fun n => n == 6600 || n == 11000)
    && ifPresent c.cableRating (fun n => within n 1000 8000 && n % 10 == 0)
    && ifPresent c.linkWake twoValued
    && ifPresent c.energiseTimeout (fun n => within n 60 1800)
    && ifPresent c.rampRate (fun n => within n 100 2000 && n % 100 == 0)
    && ifPresent c.rampInLimit (fun n => within n 30 900)
    && ifPresent c.gain (fun n => within n 1 200)
    && ifPresent c.smin (fun n => within n 0 100)
    && ifPresent c.smax (fun n => within n 40 400)
    && decide (c.smin.getD held.smin + 20 ≤ c.smax.getD held.smax)
    && ifPresent c.dVpct (fun n => within n 1 10)
    && ifPresent c.tc (fun n => within n 40 300)
    && ifPresent c.adapt twoValued
    && ifPresent c.syncTimeout (fun n => within n 30 900)
    && ifPresent c.tripPct (fun n => within n 110 200)

/-! ### SET_BANDS (R144, R184) -/

/-- The entries of a band table, three bytes each. -/
def readBands (count : Nat) (p : List Byte) : List BandEntry :=
  (List.range count).map fun i => { minute := field p (1 + 3 * i) 2, band := field p (3 + 3 * i) 1 }

/-- Put an entry in its place by start minute. -/
def insertBand (e : BandEntry) : List BandEntry → List BandEntry
  | [] => [e]
  | f :: rest => if e.minute ≤ f.minute then e :: f :: rest else f :: insertBand e rest

/-- A band table in ascending order of start minute (R144). -/
def sortBands (l : List BandEntry) : List BandEntry := l.foldr insertBand []

/-- No two entries of a sorted table have equal start minutes (R144). -/
def distinctMinutes : List BandEntry → Bool
  | a :: b :: rest => a.minute != b.minute && distinctMinutes (b :: rest)
  | _ => true

/-- Check 3 on a band table (R144). -/
def bandsInRange (length count : Nat) (l : List BandEntry) : Bool :=
  decide (count ≤ 8)
    && l.all (fun e => decide (e.minute ≤ 1439) && e.minute % length == 0 && decide (e.band ≤ 7))
    && distinctMinutes (sortBands l)

/-! ### Outlets, modules and authorisations -/

/-- The outlet that a byte of the payload names. -/
def outletField (p : List Byte) : Option Outlet := Outlet.ofNumber (field p 0 1)

/-- The outlet of AUTHORISE and REVOKE, with ANY as 0 (R183). -/
def authOutletField (p : List Byte) : Option AuthOutlet :=
  if field p 0 1 = 0 then some .any else (Outlet.ofNumber (field p 0 1)).map .outlet

/-- The module that the payload names. -/
def moduleField (p : List Byte) : Option ModuleNo := ModuleNo.ofNumber (field p 0 1)

/-- A hull number (Table 5-2). -/
def isHull (n : Nat) : Bool := within n 1000000 9999999

/-- A module rating (R31). -/
def isRating (n : Nat) : Bool := within n 500 4000 && n % 10 == 0

/-- The entry an AUTHORISE carries (R82). -/
def readAuthEntry (p : List Byte) (outlet : AuthOutlet) : AuthEntry :=
  { hull := field p 1 4, outlet, plan := field p 5 1
    expiry := if field p 6 1 = 1 then some (field p 7 4) else none }

/-! ### Payloads of the ship's stations (R122, R186) -/

/-- The kind and identity of a PRESENT; none when the frame is malformed. -/
def readPresent (p : List Byte) : Option (StationKind × BitVec 32) :=
  if p.length ≠ 5 then none
  else
    match field p 0 1 with
    | 1 => some (.scp, BitVec.ofNat 32 (field p 1 4))
    | 2 => some (.pms, BitVec.ofNat 32 (field p 1 4))
    | 3 => some (.aux, BitVec.ofNat 32 (field p 1 4))
    | _ => none

/-- The declaration in the 14 bytes that follow a STATUS's flag byte. -/
def readDeclaration (p : List Byte) : Declaration :=
  { hull := field p 1 4, hertz := field p 5 1, volts := field p 6 2, kw := field p 8 2
    kva := field p 10 2, generators := field p 12 1, mode := field p 13 1, cables := field p 14 1 }

/-- A STATUS; none when it is malformed: a length other than 1 or 15, or bit 4 and the length
disagree. -/
def readStatus (p : List Byte) : Option ShipStatus :=
  let flags := field p 0 1
  let st : ShipStatus :=
    { stop := bitOf flags 0, connect := bitOf flags 1, cancel := bitOf flags 2
      ret := bitOf flags 3, declaration := none }
  if p.length = 1 ∧ bitOf flags 4 = false then some st
  else if p.length = 15 ∧ bitOf flags 4 = true then
    some { st with declaration := some (readDeclaration p) }
  else none

/-- A generator item of a GEN_STATUS. -/
structure GenItem where
  number : Nat
  closed : Bool
  kw : Nat
deriving DecidableEq, Repr

/-- The items of a GEN_STATUS; none when it is malformed (R134): a length not of 1 to 4 items, a
generator number outside 1 to 4, a breaker code other than 0 and 1, or a kW above 20,000. -/
def readGenItems (p : List Byte) : Option (List GenItem) :=
  let count := p.length / 4
  let items := (List.range count).map fun i =>
    (field p (4 * i) 1, field p (4 * i + 1) 1, field p (4 * i + 2) 2)
  if p.length % 4 = 0 ∧ 1 ≤ count ∧ count ≤ 4
      ∧ items.all (fun x => within x.1 1 4 && twoValued x.2.1 && decide (x.2.2 ≤ 20000)) then
    some (items.map fun x => { number := x.1, closed := x.2.1 == 1, kw := x.2.2 })
  else none

/-- Check 1 of R81: every field of a declaration lies within Table 5-4. -/
def Declaration.inRange (d : Declaration) : Bool :=
  isHull d.hull && (d.hertz == 50 || d.hertz == 60) && (d.volts == 6600 || d.volts == 11000)
    && within d.kw 100 20000 && d.kw % 10 == 0 && within d.kva d.kw 25000
    && within d.generators 1 4 && decide (d.mode ≤ 1) && within d.cables 1 5

end Sys2Proof.Machine
end

