-- ==== Sys2Proof/Machine/Pool.lean ====
section
/-! DEFINITION. The operations of the module pool (MP, Section 2): need and pending entries,
arbitration and starts, stops, holds, the GROW and SHRINK watches and load share. -/

namespace Sys2Proof.Machine

open Sys2Proof

/-! ### Watches and voluntary stops (R36, R37) -/

/-- The conditions of the GROW watch other than that on S (R36). -/
def State.growAllowed (s : State) (o : Outlet) : Bool :=
  let b := s.berth o
  b.sc.state.breakerClosed && decide (s.assigned o < 8) && decide (s.countAt .starting o = 0)
    && b.mp.entry.isNone

/-- The conditions of the SHRINK watch other than those on capacity (R37). -/
def State.shrinkAllowed (s : State) (o : Outlet) : Bool :=
  let b := s.berth o
  b.sc.state == .shoreSupply && decide (0 < s.countAt .running o)
    && decide (s.countAt .starting o = 0) && decide (s.countAt .stopping o = 0)
    && decide (s.countAt .held o = 0) && b.mp.entry.isNone && b.mp.voluntary.isNone

/-- A voluntary stop still stands: a deferred one while the outlet is in SHORE_SUPPLY and the module
RUNNING there, a begun one while the module is STOPPING (R37). -/
def State.voluntaryStands (s : State) (o : Outlet) (v : VoluntaryStop) : Bool :=
  if v.begun then (s.module v.module).inStateAt .stopping o
  else (s.berth o).sc.state == .shoreSupply && (s.module v.module).inStateAt .running o

/-- Watches whose conditions have lapsed return to zero, and a voluntary stop that stands no longer
is dropped (R36, R37). -/
def State.tidyWatches (s : State) (o : Outlet) : State :=
  let s := s.onMp o fun p => { p with voluntary := p.voluntary.filter (s.voluntaryStands o) }
  let grow := s.growAllowed o
  let shrink := s.shrinkAllowed o
  s.onMp o fun p =>
    { p with growFrom := if grow then p.growFrom else none
             shrinkFrom := if shrink then p.shrinkFrom else none }

/-! ### The pending list (R32, R33) -/

/-- The rank of a class, the highest first (R32). -/
def RequestClass.rank : RequestClass → Nat
  | .replace => 2 | .energise => 1 | .grow => 0

/-- The higher of two classes (R26, R33). -/
def RequestClass.higher (a b : RequestClass) : RequestClass := if a.rank < b.rank then b else a

/-- An outlet raises a class: a new entry, or its entry's class raised in place (R32, R33). -/
def OutletPool.request (p : OutletPool) (cls : RequestClass) (now : TimeStamp) : OutletPool :=
  match p.entry with
  | none => { p with entry := some { cls, arrival := now } }
  | some e => { p with entry := some { e with cls := e.cls.higher cls } }

/-- An outlet's entry is withdrawn and no REPLACE condition holds. -/
def OutletPool.withdraw (p : OutletPool) : OutletPool :=
  { p with entry := none, replaceArisen := false }

/-- The class, other than GROW, whose condition holds at an outlet of request state `st` whose
prospective capacity is below its target (R32). -/
def OutletPool.needClass (p : OutletPool) (st : OutletState) : Option RequestClass :=
  if p.replaceArisen then some .replace
  else if st = .energising ∨ st = .synchronising then some .energise
  else none

/-- An entry that the prospective capacity's reaching the target leaves: GROW (R33). -/
def PendingEntry.outlastsNeed (e : PendingEntry) : Bool := e.cls == .grow

/-- MP judges an outlet's need (R32, R33). -/
def State.judgeNeed (s : State) (o : Outlet) : State :=
  let b := s.berth o
  let judged :=
    if !b.sc.state.requests then s.onMp o OutletPool.withdraw
    else if s.prospective o < b.sc.target then
      if 8 ≤ s.assigned o then s.onMp o fun p => { p with entry := none }
      else
        match b.mp.needClass b.sc.state with
        | some cls => s.onMp o fun p => p.request cls s.now
        | none => s
    else s.onMp o fun p =>
      { p with replaceArisen := false
               entry := if 8 ≤ s.assigned o then none
                        else p.entry.filter PendingEntry.outlastsNeed }
  judged.tidyWatches o

/-! ### Arbitration and starts (R24, R34, R35) -/

/-- The outlet of one entry goes before that of another: higher class, then earlier arrival; the
entries are compared in order of outlet number, so equals keep the lower number (R34). -/
def PendingEntry.before (now : RunCount) (a b : PendingEntry) : Bool :=
  decide (b.cls.rank < a.cls.rank)
    || (decide (a.cls.rank = b.cls.rank)
        && decide (elapsed now b.arrival.run < elapsed now a.arrival.run))

/-- The winner among the entries of a list of outlets, and its entry (R34). -/
def State.winner (s : State) : List Outlet → Option (Outlet × PendingEntry)
  | [] => none
  | o :: rest =>
    match (s.berth o).mp.entry, s.winner rest with
    | some e, some (o', e') => if e'.before s.tb.run e then some (o', e') else some (o, e)
    | some e, none => some (o, e)
    | none, w => w

/-- The IDLE modules, in order of number. -/
def State.idleModules (s : State) : List ModuleNo := s.pool.which fun m => m.state == .idle

/-- Of the modules of a list, in order of number, the first whose effective rating no other betters;
`better a b` is that a rating `a` is preferred to `b`. -/
def State.pickModule (s : State) (better : Nat → Nat → Bool) : List ModuleNo → Option ModuleNo
  | [] => none
  | m :: rest =>
    match s.pickModule better rest with
    | none => some m
    | some m' =>
      if better (s.module m').effective (s.module m).effective then some m' else some m

/-- The module chosen for a deficit (R35): the smallest IDLE rating not below it, or the largest. -/
def State.chooseModule (s : State) (deficit : Nat) : Option ModuleNo :=
  let enough := s.idleModules.filter fun m => decide (deficit ≤ (s.module m).effective)
  if enough.isEmpty then s.pickModule (fun a b => decide (b < a)) s.idleModules
  else s.pickModule (fun a b => decide (a < b)) enough

/-- The deficit of an outlet for a class (R35). -/
def State.deficit (s : State) (o : Outlet) (cls : RequestClass) : Nat :=
  match cls with
  | .grow => 1
  | .replace | .energise => (s.berth o).sc.target - s.capacity o

/-- The bus-forming mark that a start at the outlet carries (Table 2-3, note a). -/
def State.formsBus (s : State) (o : Outlet) : Bool :=
  !(s.berth o).mu.shore.live && decide (s.countAt .running o = 0)

/-- A module enters STARTING for an outlet (R24). Its share target, 0, is the model's choice until the
first power record (DESIGN CHOICE, log entry 49). -/
def Module.begin (m : Module) (o : Outlet) (forms : Bool) : Module :=
  { m with state := .starting, outlet := some o, trim := 0, shareTarget := 0
           busForming := forms, precharged := false, stop := none }

/-- A start begins (R24). -/
def State.startModule (s : State) (m : ModuleNo) (o : Outlet) (e : PendingEntry) : State :=
  let t := s.changeModule m fun r => r.begin o (s.formsBus o)
  { t with pool := { t.pool with
      unit := some { module := m, outlet := o, since := s.tb.run, cls := e.cls
                     arrival := e.arrival, ended := false } } }

/-- Arbitration (R34): while the unit is free and an IDLE module exists, the winner's entry is
removed and its start begins; its need is then judged again. -/
def State.arbitrate (s : State) : State :=
  match s.pool.unit, s.winner Outlet.all with
  | none, some (o, e) =>
    match s.chooseModule (s.deficit o e.cls) with
    | none => s
    | some m => ((s.onMp o fun p => { p with entry := none }).startModule m o e).judgeNeed o
  | _, _ => s

/-- The need of an outlet is judged and arbitration runs. -/
def State.servePool (s : State) (o : Outlet) : State := (s.judgeNeed o).arbitrate

/-- The pre-charge unit becomes free (R25, R26, R27); arbitration is the caller's. -/
def State.freeUnit (s : State) : State := { s with pool := { s.pool with unit := none } }

/-- The unit serves the module. -/
def State.unitServes (s : State) (m : ModuleNo) : Bool :=
  match s.pool.unit with
  | some u => u.module == m
  | none => false

/-! ### Stops and holds (R27, R28, R38, R39) -/

/-- A RUNNING or HELD module enters STOPPING (R28). -/
def Module.beginStop (m : Module) (now : RunCount) : Module :=
  { m with state := .stopping, shareTarget := 0
           stop := some { endedStart := false, since := now, normalFrom := none } }

/-- A STARTING module enters STOPPING, commanded STOP, NORMAL at once (R27). -/
def Module.endStart (m : Module) (now : RunCount) : Module :=
  { m with state := .stopping, shareTarget := 0
           stop := some { endedStart := true, since := now, normalFrom := some now } }

/-- A module that enters IDLE from a stop (R28). -/
def Module.toIdle (m : Module) : Module :=
  { m with state := .idle, outlet := none, trim := 0, shareTarget := 0, stop := none
           precharged := false, busForming := false }

/-- Every module of an outlet in one of the states of a list is changed. -/
def State.changeModulesAt (s : State) (o : Outlet) (states : List ModuleState)
    (f : Module → Module) : State :=
  (s.pool.which fun m => m.assignedTo o && states.contains m.state).foldl
    (fun t m => t.changeModule m f) s

/-- The start in progress at an outlet ends (R27): the unit stays serving until the module has
stopped. -/
def State.endStarts (s : State) (o : Outlet) : State :=
  let t := s.changeModulesAt o [.starting] fun m => m.endStart s.tb.run
  { t with pool := { t.pool with
      unit := t.pool.unit.map fun u => if u.outlet = o then { u with ended := true } else u } }

/-- The RUNNING and HELD modules of an outlet enter STOPPING (R28, R39). -/
def State.stopModules (s : State) (o : Outlet) (states : List ModuleState) : State :=
  s.changeModulesAt o states fun m => m.beginStop s.tb.run

/-- MP takes a trip: RUNNING modules enter HELD and the hold time begins; a hold time of 0 expires at
once (R38, R39). -/
def State.holdModules (s : State) (o : Outlet) : State :=
  let held := s.changeModulesAt o [.running] fun m => { m with state := .held }
  if s.pool.tripHold = 0 then
    (held.stopModules o [.held]).onMp o fun p => { p with hold := none }
  else held.onMp o fun p => { p with hold := some { since := s.tb.run, length := s.pool.tripHold } }

/-- The HELD modules of an outlet reset while its hold time runs enter RUNNING (R39), with the share
target they had before the trip (DESIGN CHOICE, log entry 49). -/
def State.rejoinModules (s : State) (o : Outlet) : State :=
  if (s.berth o).mp.hold.isSome then
    s.changeModulesAt o [.held] fun m => { m with state := .running }
  else s

/-- MP takes a change of an outlet's state (R27, R32, R38, R39, R98), the new state already set. -/
def State.poolTakesState (s : State) (o : Outlet) (old new : OutletState) : State :=
  let s := if new.requests then s else s.endStarts o
  let s :=
    match new with
    | .tripped => s.holdModules o
    | .windDown => s.stopModules o [.running, .held]
    | .energising => if old = OutletState.tripped then s.rejoinModules o else s
    | .dormant | .cableProven | .awaitAuth | .synchronising | .closing | .parallelIn
    | .shoreSupply | .parallelOut | .opening => s
  let s := if old = OutletState.tripped then s.onMp o fun p => { p with hold := none } else s
  s.servePool o

/-- A module enters FAULTED (R26, R28, R29): outlet cleared, count raised and held at 3, a code
copied where one is given. -/
def Module.toFaulted (m : Module) (code : Option Nat) : Module :=
  { m with state := .faulted, outlet := none, faultCount := min 3 (m.faultCount + 1)
           faultCode := match code with
                        | some c => some c
                        | none => m.faultCode
           shareTarget := 0, stop := none, precharged := false, busForming := false }

/-! ### Load share (R40) -/

/-- The share target of a RUNNING module (R40). -/
def shareTargetOf (p : Int) (effective capacity : Nat) : Int :=
  (p * effective).tdiv ((capacity : Int) * 1000)

/-- The share trim after a record: one tenth of a degree toward reducing a difference of more than
5 % of the effective rating (R40). -/
def Module.trimmed (m : Module) (target : Int) : Int :=
  match m.power with
  | none => m.trim
  | some out =>
    if ((out - target).natAbs) * 20 ≤ m.effective then m.trim
    else if target < out then max (-20) (m.trim - 1)
    else min 20 (m.trim + 1)

/-- A RUNNING module of an outlet takes its share of a record's P. -/
def Module.share (m : Module) (p : Int) (capacity : Nat) : Module :=
  let target := shareTargetOf p m.effective capacity
  { m with shareTarget := target, trim := m.trimmed target }

/-- MP shares an outlet's load at a power record (R40). -/
def State.shareLoad (s : State) (o : Outlet) (r : PowerRecord) : State :=
  let capacity := s.capacity o
  (s.pool.which fun m => m.inStateAt .running o).foldl
    (fun t m => t.onModule m fun x => x.share r.p capacity) s

/-! ### Growing and shrinking at a power record (R36, R37) -/

/-- The S condition of the GROW watch: S above 90 % of capacity (R36). -/
def growsAt (apparent capacity : Nat) : Bool := decide (capacity * 9000 < apparent * 10)

/-- The largest effective rating among an outlet's RUNNING modules (R37). -/
def State.largestRunning (s : State) (o : Outlet) : Nat :=
  ((s.pool.which fun m => m.inStateAt .running o).map fun m => (s.module m).effective).foldl max 0

/-- The capacity conditions of the SHRINK watch (R37). -/
def State.shrinksAt (s : State) (o : Outlet) (apparent : Nat) : Bool :=
  let left := s.capacity o - s.largestRunning o
  decide ((s.berth o).sc.target ≤ left) && decide (125 * apparent ≤ left * 100000)

/-- The module SHRINK selects: of the RUNNING modules with the largest effective rating, the one of
highest number (R37). -/
def State.shrinkChoice (s : State) (o : Outlet) : Option ModuleNo :=
  ((s.pool.which fun m => m.inStateAt .running o).filter fun m =>
    decide ((s.module m).effective = s.largestRunning o)).getLast?

/-- A record allows a voluntary stop of a module to begin (R37). -/
def State.allowsStop (s : State) (o : Outlet) (m : ModuleNo) (apparent : Nat) : Bool :=
  decide (105 * apparent ≤ (s.capacity o - (s.module m).effective) * 100000)

/-- The module whose deferred stop begins at a record of apparent power `apparent` (R37). -/
def State.stopDue (s : State) (o : Outlet) (apparent : Nat) : Option ModuleNo :=
  match (s.berth o).mp.voluntary with
  | some v =>
    if v.begun = false ∧ s.voluntaryStands o v ∧ s.allowsStop o v.module apparent then
      some v.module
    else none
  | none => none

/-- A deferred voluntary stop begins (R28, R37). -/
def State.beginVoluntary (s : State) (o : Outlet) (m : ModuleNo) : State :=
  (s.changeModule m fun x => x.beginStop s.tb.run).onMp o fun p =>
    { p with voluntary := some { module := m, begun := true } }

/-- The GROW and SHRINK watches are judged at a power record (R36, R37). -/
def State.judgeWatches (s : State) (o : Outlet) (apparent : Nat) : State :=
  let grow := s.growAllowed o && growsAt apparent (s.capacity o)
  let shrink := s.shrinkAllowed o && s.shrinksAt o apparent
  s.onMp o fun p =>
    { p with growFrom := if grow then some (p.growFrom.getD s.tb.run) else none
             shrinkFrom := if shrink then some (p.shrinkFrom.getD s.tb.run) else none }

end Sys2Proof.Machine
end

