-- ==== Sys2Proof/Machine/Reference.lean ====
section
/-! DEFINITION. The operations of the reference generator (RG, Section 3): modes and their entry,
targets and clamps, slew and phase, the power loop; and the
commands RG_UPDATE and HOLDING_TIMEOUT. -/

namespace Sys2Proof.Machine

open Sys2Proof

/-- The mode of an outlet state (Table 3-2). -/
def OutletState.mode : OutletState → RgMode
  | .energising => .free
  | .synchronising | .closing => .track
  | .parallelIn | .parallelOut => .power
  | .shoreSupply => .island
  | .dormant | .cableProven | .awaitAuth | .opening | .windDown | .tripped => .off

/-- A value brought within bounds (R46). -/
def clampInt (lo hi x : Int) : Int := if x < lo then lo else if hi < x then hi else x

/-- The frequency band about a nominal, ±5 % (Table 3-3). -/
def freqBand (nominal : Nat) : Nat × Nat := (nominal * 95 / 100, nominal * 105 / 100)

/-- The voltage band about a nominal, ±10 % (Table 3-3). -/
def voltBand (nominal : Nat) : Nat × Nat := (nominal * 90 / 100, nominal * 110 / 100)

/-- A target lies outside its band (R46). -/
def outsideBand (band : Nat × Nat) (x : Int) : Bool :=
  decide (x < (band.1 : Int) ∨ (band.2 : Int) < x)

/-- A target clamped into its band (R46). -/
def intoBand (band : Nat × Nat) (x : Int) : Nat := (clampInt band.1 band.2 x).toNat

/-- The RG of an outlet with both targets worked out and clamped, and its target clamped indication
judged afresh (R46). -/
def Berth.withTargets (b : Berth) (freq volts : Int) : Berth :=
  let fb := freqBand b.nominalFreq
  let vb := voltBand b.nominalVolts
  { b with rg := { b.rg with
      freqTarget := intoBand fb freq
      voltTarget := intoBand vb volts
      clamped := outsideBand fb freq || outsideBand vb volts } }

/-- The slip target (R51). -/
def SyncSettings.slipTarget (y : SyncSettings) : Nat := (y.smin + y.smax) / 2

/-- The targets of TRACK from a pair record (R51). -/
def Berth.trackTargets (b : Berth) (r : PairRecord) : Berth :=
  b.withTargets (r.fP + b.sy.settings.slipTarget : Nat) r.vP

/-- The targets of POWER from a pair record and Δ (R53). -/
def Berth.powerTargets (b : Berth) (r : PairRecord) : Berth :=
  b.withTargets (r.fP + b.rg.delta) r.vP

/-- The targets of FREE (R50). -/
def Berth.freeTargets (b : Berth) : Berth := b.withTargets b.nominalFreq b.nominalVolts

/-- The targets of ISLAND (R56). -/
def Berth.islandTargets (b : Berth) : Berth :=
  b.withTargets b.nominalFreq
    ((b.nominalVolts : Int) * (1000 + b.rg.islandTrim) / 1000)

/-- Δ on entry to POWER: the slip of the latest pair record, clamped, or 0 without one (R44,
note b). -/
def Berth.entryDelta (b : Berth) : Int :=
  match b.mu.pair with
  | some r => clampInt (-500) 500 ((r.fS : Int) - r.fP)
  | none => 0

/-- The targets that an entry to a mode works out (R44): those of TRACK and POWER rest on the latest
pair record, and are kept without one. TRACK keeps FREE's targets for a DEAD_BUS ship (R51). -/
def Berth.entryTargets (b : Berth) : RgMode → Berth
  | .off => b
  | .free => b.freeTargets
  | .track =>
    match b.mu.pair with
    | some r => if b.declaresDeadBus then b else b.trackTargets r
    | none => b
  | .power =>
    match b.mu.pair with
    | some r => b.powerTargets r
    | none => b
  | .island => b.islandTargets

/-- The entry to OFF (R44, R45), with the record time it leaves: the entry's run count, or at a warm
restart none (R59). -/
def RefGen.enterOff (g : RefGen) (recordTime : Option RunCount) : RefGen :=
  { g with mode := .off, delta := 0, pSet := 0, holding := false, clamped := false, recordTime
           updated := false }

/-- On leaving OFF, frequency now and voltage now are set to nominal exactly (R44, note a). -/
def RefGen.fromOff (g : RefGen) (freq volts : Nat) : RefGen :=
  if g.mode = .off then { g with freqNow := freq * 1000, voltNow := volts * 1000 } else g

/-- The RG takes the mode of a new outlet state (R43, R44); `pSet` is the P_set that SC writes at the
same change. -/
def Berth.enterMode (b : Berth) (now : RunCount) (mode : RgMode) (pSet : Nat) : Berth :=
  if b.rg.mode = mode then b
  else if mode = .off then { b with rg := b.rg.enterOff (some now) }
  else
    let rg := b.rg.fromOff b.nominalFreq b.nominalVolts
    let power := mode == .power
    ({ b with rg := { rg with
        mode, delta := if power then b.entryDelta else 0, pSet := if power then min pSet 25000 else 0
        holding := false, recordTime := some now } }).entryTargets mode

/-- The RG takes a pair record of its outlet in TRACK or POWER (R51, R53). -/
def Berth.rgPair (b : Berth) (r : PairRecord) : Berth :=
  let taken := { b with rg := { b.rg with recordTime := some r.stamp.run, holding := false } }
  match b.rg.mode with
  | .track => taken.trackTargets r
  | .power => taken.powerTargets r
  | .off | .free | .island => b

/-- The change of Δ that the power loop makes (R54): error in percent of capacity, times the gain,
over 1000, each truncated toward zero. -/
def loopChange (pSet p capacity gain : Int) : Int :=
  (((pSet * 1000 - p) * 100).tdiv (capacity * 1000) * gain).tdiv 1000

/-- The power loop at an outlet power record in POWER, skipped at capacity 0 (R54). -/
def Berth.powerLoop (b : Berth) (capacity : Nat) (r : PowerRecord) : Berth :=
  if b.rg.mode = .power ∧ capacity ≠ 0 then
    let delta := clampInt (-500) 500 (b.rg.delta + loopChange b.rg.pSet r.p capacity b.rg.gain)
    if delta = b.rg.delta then b
    else
      let moved := { b with rg := { b.rg with delta } }
      match b.mu.pair with
      | some pair => moved.powerTargets pair
      | none => moved
  else b

/-- A move toward a target of at most one step (R47, R48). -/
def slew (now target step : Nat) : Nat :=
  if now ≤ target then (if target - now ≤ step then target else now + step)
  else (if now - target ≤ step then target else now - step)

/-- The phase advance (R49): frequency in microhertz times 65,536 over 1,000,000,000, the remainder
carried. -/
def RefGen.advance (g : RefGen) : RefGen :=
  let total := g.freqNow * 65536 + g.phaseFrac
  { g with phase := (g.phase + total / 1000000000) % 65536, phaseFrac := total % 1000000000 }

/-- The update of each millisecond (R57): both slews and the phase advance, or in OFF the phase
advance alone. An update outside OFF gives the command records of its millisecond their reference fields. -/
def RefGen.update (g : RefGen) (nominalVolts : Nat) : RefGen :=
  if g.mode = .off then g.advance
  else
    ({ g with freqNow := slew g.freqNow (g.freqTarget * 1000) 500
              voltNow := slew g.voltNow (g.voltTarget * 1000) (nominalVolts / 20)
              updated := true }).advance

/-- SC writes P_set, which has a value in POWER only (R55). -/
def RefGen.writePSet (g : RefGen) (pSet : Nat) : RefGen :=
  { g with pSet := if g.mode = .power then min pSet 25000 else 0 }

/-- The reference fields sent to a module: absent in OFF, and after OFF until the next update (R45,
R57). -/
def RefGen.references (g : RefGen) (shareTarget shareTrim : Int) : Option References :=
  if g.mode = .off ∨ g.updated = false then none
  else some { phase := g.phase, freq := g.freqNow / 1000, volts := g.voltNow / 1000
              shareTarget, shareTrim }

/-! ### The commands -/

/-- RG_UPDATE (R57). -/
def execRgUpdate (o : Outlet) (s : State) : Host.Outcome State Fault Refusal :=
  .next (s.onBerth o fun b =>
    { b with rg := { b.rg.update b.nominalVolts with updateFrom := s.tb.run } })

/-- The holding time of R52 runs: TRACK or POWER, with a record time. -/
def RefGen.awaitsPair (g : RefGen) : Bool :=
  (g.mode == .track || g.mode == .power) && g.recordTime.isSome

/-- HOLDING_TIMEOUT (R52). -/
def execHoldingTimeout (o : Outlet) (s : State) : Host.Outcome State Fault Refusal :=
  .next (if (s.berth o).rg.awaitsPair then s.onRg o fun g => { g with holding := true } else s)

end Sys2Proof.Machine
end

