-- ==== Sys2Proof/Machine/Synchro.lean ====
section
/-! DEFINITION. The operations of the synchroniser (SY, Section 4) on its own state: judging a pair
record, the close record, adaptation, the dead time and unwanted closures. -/

namespace Sys2Proof.Machine

open Sys2Proof

/-! ### Judging a pair record (R61 to R64) -/

/-- The outlet meets the conditions under which SY evaluates a pair record (R61). -/
def Berth.evaluates (b : Berth) (capacity : Nat) : Bool :=
  b.sc.state == .synchronising && b.declaresParallel && decide (b.sc.target ≤ capacity)
    && b.sy.close == .watching && !b.lines.breakerClosed && !b.sy.openDrive

/-- Step 1: the ship bus lies within nominal frequency ±2 % and nominal voltage ±10 % (R62). -/
def Berth.shipBusFit (b : Berth) (r : PairRecord) : Bool :=
  decide (b.nominalFreq * 98 ≤ r.fP * 100) && decide (r.fP * 100 ≤ b.nominalFreq * 102)
    && decide (b.nominalVolts * 90 ≤ r.vP * 100) && decide (r.vP * 100 ≤ b.nominalVolts * 110)

/-- Step 2: the slip is at least 1 mHz and within the slip limits (R62). -/
def SyncSettings.slipFit (y : SyncSettings) (r : PairRecord) : Bool :=
  decide (r.fP + 1 ≤ r.fS) && decide (r.fP + y.smin ≤ r.fS) && decide (r.fS ≤ r.fP + y.smax)

/-- Step 3: VS and VP differ by no more than the voltage window (R62). -/
def Berth.voltageFit (b : Berth) (r : PairRecord) : Bool :=
  decide (((r.vS : Int) - r.vP).natAbs ≤ b.nominalVolts * b.sy.settings.dVpct / 100)

/-- Step 4: the angle to go (R63). -/
def angleToGo (theta : Int) : Nat := ((3600 - theta) % 3600).toNat

/-- Step 5: the time to coincidence, in microseconds (R63). -/
def timeToCoincidence (toGo slip : Nat) : Nat := toGo * 2500000 / (9 * slip)

/-- Step 6: the schedule of a record that has passed R62, if its delay falls in the window of one
cycle of the ship's bus (R64). -/
def scheduleOf (tc : Nat) (r : PairRecord) : Option Schedule :=
  let slip := r.fS - r.fP
  let toGo := angleToGo r.theta
  let t0 := timeToCoincidence toGo slip
  if tc * 1000 ≤ t0 ∧ t0 - tc * 1000 < 1000000000 / r.fP then
    let delay := t0 - tc * 1000
    some { due := r.stamp.run + BitVec.ofNat 64 delay, theta := r.theta, slip, toGo, delay }
  else none

/-- SY takes a pair record (R61 to R64). -/
def Berth.syPair (b : Berth) (capacity : Nat) (r : PairRecord) : Berth :=
  if b.evaluates capacity && b.shipBusFit r && b.sy.settings.slipFit r && b.voltageFit r then
    match scheduleOf b.sy.tc r with
    | some plan => { b with sy := { b.sy with close := .scheduled plan } }
    | none => b
  else b

/-! ### Closes (R66, R67, R68, R69) -/

/-- The close record that an issue starts (R66, R72); a plan is that of a SYNCHRONISED close. -/
def Synchroniser.newRecord (y : Synchroniser) (now : TimeStamp) (plan : Option Schedule) :
    CloseRecord :=
  { kind := if plan.isSome then .synchronised else .deadBus
    command := now
    theta := plan.map Schedule.theta, slip := plan.map Schedule.slip, toGo := plan.map Schedule.toGo
    tc := y.tc, outcome := .inFlight, measured := none, angleError := none
    attempt := y.attempts + 1 }

/-- SY issues a close (R66, R74). -/
def Synchroniser.issue (y : Synchroniser) (now : TimeStamp) (plan : Option Schedule) :
    Synchroniser :=
  { y with closeOutput := true, close := .inFlight, record := some (y.newRecord now plan) }

/-- A quotient rounded to the nearest whole, halves away from zero. -/
def roundedQuotient (n : Int) (d : Nat) : Int :=
  if 0 ≤ n then (2 * n + d) / (2 * d) else -((2 * (-n) + d) / (2 * d))

/-- The estimated contact angle error (R67). -/
def contactError (slip : Nat) (measured tc : Nat) : Int :=
  roundedQuotient ((slip : Int) * ((measured : Int) - tc) * 9) 2500

/-- The time from the command to a feedback change, in ms (R67, R72). -/
def CloseRecord.measure (c : CloseRecord) (now : RunCount) : Nat := elapsed now c.command.run / 1000

/-- The close record of a confirmed close (R67). -/
def CloseRecord.confirm (c : CloseRecord) (now : RunCount) : CloseRecord :=
  let m := c.measure now
  { c with outcome := .confirmed, measured := some m
           angleError := c.slip.map fun s => contactError s m c.tc }

/-- A measured closing time lies within the range of tc (R68). -/
def isClosingTime (m : Nat) : Bool := decide (40 ≤ m ∧ m ≤ 300)

/-- SY confirms its close in flight (R67), adapting the closing time (R68). -/
def Synchroniser.confirm (y : Synchroniser) (now : RunCount) : Synchroniser :=
  match y.record with
  | none => { y with closeOutput := false, close := .watching }
  | some c =>
    let m := c.measure now
    { y with closeOutput := false, close := .watching, record := some (c.confirm now)
             tc := if y.settings.adapt && isClosingTime m then (3 * c.tc + m + 2) / 4 else y.tc }

/-- The detail of the CLOSE_TIME_ODD that a confirmation raises (R68). -/
def Synchroniser.oddTime (y : Synchroniser) (now : RunCount) : Option Nat :=
  match y.record with
  | none => none
  | some c =>
    if y.settings.adapt && !isClosingTime (c.measure now) then some (c.measure now) else none

/-- The outcome of the record of a close that has ended without contact (R69, R70). -/
def Synchroniser.endClose (y : Synchroniser) (outcome : CloseOutcome) : Synchroniser :=
  { y with closeOutput := false, close := .watching
           record := y.record.map fun c => { c with outcome } }

/-- SY takes the failure of its close (R69). -/
def Synchroniser.fail (y : Synchroniser) : Synchroniser :=
  { y.endClose .failed with attempts := y.attempts + 1 }

/-! ### Changes of state (R65, R69, R70, R73) -/

/-- SY's close state when its outlet enters a new state: a schedule is cancelled by every change
(R65), and a close in flight is ended by a trip (R70, note d). -/
def Synchroniser.closeTakesState (y : Synchroniser) (new : OutletState) : Synchroniser :=
  match y.close with
  | .watching => y
  | .scheduled _ => { y with close := .watching }
  | .inFlight => if new = .tripped then y.endClose .ended else y

/-- The states in which SY may keep a dead time (R73). -/
def OutletState.keepsDeadTime : OutletState → Bool
  | .energising | .synchronising => true
  | .dormant | .cableProven | .awaitAuth | .closing | .parallelIn | .shoreSupply | .parallelOut
  | .opening | .windDown | .tripped => false

/-- SY takes a change of its outlet's state; `shipDead` is that Pn is dead and the declaration's mode
DEAD_BUS (R65, R69, R70, R73). -/
def Synchroniser.takeState (y : Synchroniser) (new : OutletState) (shipDead : Bool)
    (now : RunCount) : Synchroniser :=
  let c := y.closeTakesState new
  { c with attempts := if new = .energising then 0 else c.attempts
           deadFrom := if new.keepsDeadTime && shipDead then some now else none
           deadComplete := false }

/-- The dead time at a phasor record of Pn (R73). It may start again while SY's open drive is still set;
the close then waits for the drive's release (DESIGN CHOICE, log entry 51). -/
def Berth.syShipRecord (b : Berth) (now : RunCount) : Berth :=
  if b.sc.state.keepsDeadTime && b.declaresDeadBus then
    if b.mu.ship.live then
      { b with sy := { b.sy with deadFrom := none, deadComplete := false } }
    else { b with sy := { b.sy with deadFrom := some (b.sy.deadFrom.getD now) } }
  else b

/-- The conditions of a dead-bus close (R74). -/
def Berth.deadBusReady (b : Berth) (capacity : Nat) : Bool :=
  b.sc.state.keepsDeadTime && b.declaresDeadBus && b.sy.deadComplete
    && decide (b.sc.target ≤ capacity) && b.mu.shore.live && !b.lines.breakerClosed
    && !b.sy.openDrive && b.sy.close == .watching

/-! ### Unwanted closures (R71) -/

/-- The states in which a closure that SY has not in flight is unwanted (R71). -/
def OutletState.closureUnwanted : OutletState → Bool
  | .dormant | .cableProven | .awaitAuth | .energising | .synchronising | .windDown => true
  | .closing | .parallelIn | .shoreSupply | .parallelOut | .opening | .tripped => false

/-- A FAILED close record that a late closure has reached (R71, R72). -/
def CloseRecord.late (c : CloseRecord) (now : RunCount) : CloseRecord :=
  if c.outcome = .failed then
    { c with outcome := .late, measured := some (min 65535 (c.measure now)) }
  else c

/-- SY's open drive is set at an unwanted closure: the schedule is cancelled, the dead time is
discarded and a FAILED record becomes LATE (R71, R73). -/
def Synchroniser.takeUnwanted (y : Synchroniser) (now : RunCount) : Synchroniser :=
  { y with
    openDrive := true, driveFrom := some now, deadFrom := none, deadComplete := false
    close := match y.close with
             | .scheduled _ => .watching
             | c => c
    record := y.record.map fun c => c.late now }

/-- SY releases its open drive (R71). -/
def Synchroniser.releaseDrive (y : Synchroniser) : Synchroniser :=
  { y with openDrive := false, driveFrom := none }

/-- SY at a warm restart (R75). -/
def Synchroniser.restart (y : Synchroniser) : Synchroniser :=
  let ended :=
    match y.close with
    | .inFlight => y.endClose .ended
    | .watching | .scheduled _ => y
  { ended with close := .watching, closeOutput := false, deadFrom := none, deadComplete := false
               openDrive := false, driveFrom := none }

end Sys2Proof.Machine
end

