-- ==== Sys2Proof/Machine/Session.lean ====
section
/-! DEFINITION. The operations of the session controller (SC, Section 5) and what hangs together with
them: a change of outlet state and its hand-overs (R77), trips (R106, R108), wind-down and the close
of a session (R98), declarations (R81), evaluation passes (R88, R89), and the judgements that a change
of capacity or of the generator table calls for. -/

namespace Sys2Proof.Machine

open Sys2Proof

/-! ### A change of outlet state (R77) -/

/-- A time of a state: started on entry to it, discarded on leaving it. -/
def timeOf (inState : Bool) (now : RunCount) : Option RunCount := if inState then some now else none

/-- SC's own part of a change of state (Table 5-1, R77, R90, R91, R93 to R97, R99, R101). `short` is
that the capacity is below the target. DESIGN CHOICE (log entry 60), unsafe: the waiting-since time is kept
after AWAIT_AUTH. -/
def OutletRecord.takeState (r : OutletRecord) (new : OutletState) (now : TimeStamp) (short : Bool) :
    OutletRecord :=
  let old := r.state
  let cleared := new == .dormant || new == .cableProven
  { r with
    state := new, entered := now
    waiting := if new = .awaitAuth then r.waiting else none
    denial := if new = .cableProven then r.denial else none
    deny := if new = .cableProven then r.deny else false
    declaration := if cleared then none else r.declaration
    target := if cleared then 0 else r.target
    firstCause := if new = .tripped then r.firstCause else none
    endRequested := if old = .closing then false else r.endRequested
    returnAwaited := if old = .shoreSupply then false else r.returnAwaited
    prepareReturn := if old = .shoreSupply then false else r.prepareReturn
    returnFrom := if old = .shoreSupply then none else r.returnFrom
    openDrive := if new = .opening then true else r.openDrive
    waitingSince := if new = .awaitAuth then some now else r.waitingSince
    energiseFrom := timeOf (new == .energising) now.run
    syncFrom :=
      if new = .synchronising then
        (if r.syncExpired then none else some (r.syncFrom.getD now.run))
      else if new = .closing then r.syncFrom else none
    syncExpired := if new = .synchronising ∨ new = .closing then r.syncExpired else false
    rampFrom := timeOf (new == .parallelIn || new == .parallelOut) now.run
    rampInFrom := timeOf (new == .parallelIn) now.run
    capacityShortFrom := timeOf (new == .parallelIn && short) now.run
    rampOutFrom := timeOf (new == .parallelOut) now.run
    unloadedFrom := none
    openFrom := timeOf (new == .opening) now.run
    capFrom := if new.breakerClosed then r.capFrom else none }

/-- The wake time of a link wake setting, in µs (R78, R120). -/
def LinkWake.micros : LinkWake → Nat
  | .normal => 3000000 | .fast => 300000

/-- SL is powered and begins its wake time (R120). -/
def ShipLink.powerUp (l : ShipLink) (wake : LinkWake) (now : RunCount) : ShipLink :=
  { l with state := .waking, wakeFrom := some now, wakeLength := wake.micros }

/-- SL abandons what it was doing, the judgement of the attention pair with it, and clears its tables
(R137, R138). -/
def ShipLink.clear (l : ShipLink) : ShipLink :=
  { l with stations := [], generators := [], collisions := 0, wakeFrom := none
           activity := .quiet, step := .rest, attention := false }

/-- SL takes a cable withdrawal (R137). -/
def ShipLink.withdraw (l : ShipLink) : ShipLink := { l.clear with state := .unpowered }

/-- The link power and SL at a change of state (R79, R120, R137). -/
def Berth.linkTakesState (b : Berth) (old new : OutletState) (now : RunCount) : Berth :=
  if new = .dormant then
    { b with lines := { b.lines with linkPower := false }, sl := b.sl.withdraw }
  else if old = .dormant then
    { b with lines := { b.lines with linkPower := true }
             sl := b.sl.powerUp b.sc.settings.linkWake now }
  else b

/-- The outlet's own blocks take a change of state: SC, RG, SY, PR and SL. -/
def Berth.takeState (b : Berth) (new : OutletState) (pSet : Nat) (now : TimeStamp) (short : Bool) :
    Berth :=
  let old := b.sc.state
  let shipDead := !b.mu.ship.live && b.declaresDeadBus
  let moded := b.enterMode now.run new.mode pSet
  ({ moded with
      sc := b.sc.takeState new now short
      sy := b.sy.takeState new shipDead now.run
      pr := b.pr.takeState old new b.lines.breakerClosed }).linkTakesState old new now.run

/-- SC makes a change of an outlet's state and hands it on (R77). `pSet` is the P_set it writes at the
change, where the new state's mode is POWER. -/
def State.moveTo (s : State) (o : Outlet) (new : OutletState) (pSet : Nat := 0) : State :=
  let b := s.berth o
  let short := decide (s.capacity o < b.sc.target)
  ((s.onBerth o fun b => b.takeState new pSet s.now short).poolTakesState o b.sc.state new).reportState
    o new

/-! ### Trips (R106, R108) -/

/-- A trip is taken at an outlet (R106). -/
def State.trip (s : State) (o : Outlet) (c : Cause) : State :=
  let moved := (s.moveTo o .tripped).onSc o fun r => { r with firstCause := some c }
  let opened := moved.onPr o fun p => p.trip s.tb.run
  (opened.raise c.fault (.outlet o)).onMt o Meter.countTrip

/-- A cause completes in TRIPPED with the feedback closed (R108). -/
def State.laterCause (s : State) (o : Outlet) (c : Cause) : State :=
  if (s.berth o).pr.laterCauses.contains c then s
  else (s.raise c.fault (.outlet o)).onPr o fun p => { p with laterCauses := p.laterCauses ++ [c] }

/-- A cause completes at an outlet (Table 6-2). -/
def State.complete (s : State) (o : Outlet) (c : Cause) : State :=
  let b := s.berth o
  if c.tripsIn b.sc.state then s.trip o c
  else if b.trippedClosed && c.watchedTripped then s.laterCause o c
  else s

/-- A change of state with protection's judgement of the entry (R105, R109, R115). -/
def State.enter (s : State) (o : Outlet) (new : OutletState) (pSet : Nat := 0) : State :=
  let moved := s.moveTo o new pSet
  match (moved.berth o).entryCause moved.gridWatch.standing with
  | some c => moved.trip o c
  | none => moved

/-! ### Wind-down and the close of a session (R98) -/

/-- The moment a session in WIND_DOWN may close: no module assigned, feedback open (R98). -/
def State.mayClose (s : State) (o : Outlet) : Bool :=
  let b := s.berth o
  b.sc.state == .windDown && decide (s.assigned o = 0) && !b.lines.breakerClosed

/-- SC closes the session of an outlet in WIND_DOWN once it may (R98). -/
def State.tryClose (s : State) (o : Outlet) : State :=
  match (s.berth o).sc.session with
  | none => s
  | some x =>
    if s.mayClose o then
      let billed := s.closeInterval o .sessionEnd
      let ended := (billed.onSc o fun r => { r with session := none }).report .sessionClose
        (.outlet o) (some x.number)
      let next : OutletState := if (s.berth o).lines.pilotClosed then .cableProven else .dormant
      { ended.moveTo o next with passDue := true }
    else s

/-- An outlet enters WIND_DOWN, where its session closes at the first moment it may (R98). -/
def State.windDown (s : State) (o : Outlet) : State := (s.moveTo o .windDown).tryClose o

/-! ### Setpoints (R92, R95) -/

/-- P in kW, truncated toward zero, and held at 0 or more. -/
def kilowatts (p : Int) : Nat := (p.tdiv 1000).toNat

/-- The P_set written at the confirmation of a SYNCHRONISED close (R92, note a). -/
def Berth.confirmedPSet (b : Berth) : Nat :=
  match b.mu.power with
  | some r => min (kilowatts r.p) b.claim
  | none => 0

/-- The P_set written at the entry to PARALLEL_OUT from SHORE_SUPPLY (R95); without a power record SC
has nothing to write, and P_set stays 0 (log entry 10). -/
def Berth.returnPSet (b : Berth) : Nat :=
  match b.mu.power with
  | some r => min (kilowatts r.p) 25000
  | none => 0

/-- The step of a ramp in 10 ms (R93, R96). -/
def Berth.rampStep (b : Berth) : Nat := b.sc.settings.rampRate / 100

/-! ### The generator table as SC reads it (R93, R95) -/

/-- The ramp-in is complete (R93). -/
def Berth.rampedIn (b : Berth) : Bool :=
  match b.sc.declaration with
  | some d =>
    decide (d.generators ≤ b.sl.generators.length)
      && b.sl.generators.all fun g => g.reading == .opened
  | none => false

/-- Some entry shows CLOSED (R95). -/
def Berth.anyClosed (b : Berth) : Bool := b.sl.generators.any fun g => g.reading == .closed

/-- SC judges the generator table (R93, R95). -/
def State.judgeGenerators (s : State) (o : Outlet) : State :=
  let b := s.berth o
  if b.sc.state = .parallelIn ∧ b.rampedIn then s.enter o .shoreSupply
  else if b.sc.state = .shoreSupply ∧ b.anyClosed then
    let reported := if b.sc.returnAwaited then s else s.report .unplannedParallel (.outlet o)
    reported.enter o .parallelOut b.returnPSet
  else s

/-- An outlet enters PARALLEL_IN or SHORE_SUPPLY, and SC judges the generator table (R93, R95). -/
def State.enterJudged (s : State) (o : Outlet) (new : OutletState) (pSet : Nat := 0) : State :=
  (s.enter o new pSet).judgeGenerators o

/-- A return request in SHORE_SUPPLY (R95). -/
def State.requestReturn (s : State) (o : Outlet) : State :=
  if (s.berth o).sc.returnAwaited then s
  else (s.onSc o fun r =>
    { r with returnAwaited := true, prepareReturn := true, returnFrom := some s.tb.run
    }).judgeGenerators o

/-- An outlet leaves PARALLEL_OUT for OPENING, SC's open drive set (R96). -/
def State.openBreaker (s : State) (o : Outlet) : State := s.moveTo o .opening

/-! ### Energising (R74, R90) -/

/-- SY issues a close, and the outlet enters CLOSING (R66, R74). -/
def State.issueClose (s : State) (o : Outlet) (plan : Option Schedule) : State :=
  (s.onSy o fun y => y.issue s.now plan).enter o .closing

/-- SY makes a dead-bus close at the first moment all its conditions hold (R74). -/
def State.tryDeadBus (s : State) (o : Outlet) : State :=
  if (s.berth o).deadBusReady (s.capacity o) then s.issueClose o none else s

/-- SC judges an outlet in ENERGISING (R90). -/
def State.judgeEnergising (s : State) (o : Outlet) : State :=
  let b := s.berth o
  if b.sc.state = .energising ∧ b.declaresParallel ∧ b.sc.target ≤ s.capacity o
      ∧ b.mu.shore.live ∧ b.mu.ship.live then
    s.enter o .synchronising
  else s

/-! ### A change of capacity (R23) -/

/-- The capacity-short time of PARALLEL_IN (R94). -/
def OutletRecord.judgeShort (r : OutletRecord) (capacity : Nat) (now : RunCount) : OutletRecord :=
  { r with capacityShortFrom :=
      if r.state = .parallelIn then watch r.capacityShortFrom (decide (capacity < r.target)) now
      else r.capacityShortFrom }

/-- A schedule is cancelled by a capacity below the target (R65). -/
def Berth.syCapacity (b : Berth) (capacity : Nat) : Berth :=
  match b.sy.close with
  | .scheduled _ =>
    if capacity < b.sc.target then { b with sy := { b.sy with close := .watching } } else b
  | .watching | .inFlight => b

/-- A change of an outlet's capacity reaches SY, SC and PR, and MP judges the need (R23, R32, R65,
R74, R90, R94, R113, R114). -/
def State.capacityChanged (s : State) (o : Outlet) : State :=
  let c := s.capacity o
  let handed := s.onBerth o fun b =>
    ({ (b.syCapacity c) with sc := b.sc.judgeShort c s.tb.run }).judgeCapacityWatches c s.tb.run
  ((handed.servePool o).tryDeadBus o).judgeEnergising o

/-! ### Connect requests (R81) -/

/-- The capacity target of a declaration (R81). -/
def capacityTarget (kva headroom : Nat) : Nat := (kva * (100 + headroom) + 999) / 1000 * 10

/-- Put a rating in its place, largest first. -/
def insertRating (n : Nat) : List Nat → List Nat
  | [] => [n]
  | m :: rest => if m ≤ n then n :: m :: rest else m :: insertRating n rest

/-- The sum of the largest 8 of a list of ratings (R81). -/
def sumOfLargest8 (l : List Nat) : Nat := ((l.foldr insertRating []).take 8).foldl (· + ·) 0

/-- The ratings that check 4 of R81 counts: of modules not OFFLINE or LOCKED_OUT. -/
def State.countedRatings (s : State) : List Nat :=
  s.pool.modules.toList.filterMap fun m =>
    if m.state = .offline ∨ m.state = .lockedOut then none else m.rating

/-- Check 4 of R81. -/
def State.feasible (s : State) (target : Nat) : Bool :=
  decide (target ≤ sumOfLargest8 s.countedRatings)

/-- The checks of R81 in order: the denial reason of the first that fails. -/
def State.denialOf (s : State) (o : Outlet) (d : Option Declaration) : Option DenialReason :=
  let settings := (s.berth o).sc.settings
  match d with
  | none => some .declarationRange
  | some d =>
    let target := capacityTarget d.kva s.account.headroom
    if !d.inRange then some .declarationRange
    else if d.volts ≠ settings.nominalVolts then some .nominalMismatch
    else if d.cables * settings.cableRating < target then some .cableLimit
    else if !s.feasible target then some .capacityImpossible
    else none

/-- A connect request is taken in CABLE_PROVEN (R81). -/
def State.takeConnect (s : State) (o : Outlet) (d : Option Declaration) : State :=
  match s.denialOf o d, d with
  | none, some d =>
    let held := s.onSc o fun r =>
      { r with declaration := some d, target := capacityTarget d.kva s.account.headroom
               denial := none, deny := false }
    { held.moveTo o .awaitAuth with passDue := true }
  | reason, _ => s.onSc o fun r => { r with denial := reason, deny := true }

/-! ### Evaluation passes (R84, R88, R89) -/

/-- An entry matches a hull at an outlet (R84). -/
def AuthEntry.matchesAt (e : AuthEntry) (hull : Nat) (outlet : AuthOutlet) : Bool :=
  e.hull == hull && e.outlet == outlet

/-- The lowest place, counted from 0, that holds an entry for a hull and an outlet. -/
def findPlace (places : List (Option AuthEntry)) (hull : Nat) (outlet : AuthOutlet) : Option Nat :=
  places.findIdx? fun p =>
    match p with
    | some e => e.matchesAt hull outlet
    | none => false

/-- The place that a waiting outlet matches, one that names the outlet before any ANY (R84). -/
def Account.matchPlace (a : Account) (o : Outlet) (hull : Nat) : Option Nat :=
  (findPlace a.places hull (.outlet o)).orElse fun _ => findPlace a.places hull .any

/-- The tariff plan of the entry at a place. -/
def Account.planAt (a : Account) (place : Nat) : Nat :=
  match a.places[place]? with
  | some (some e) => e.plan
  | _ => 0

/-- The session counter after a session has taken a number (R89). -/
def nextSession (n : Nat) : Nat := if n = 4294967295 then 1 else n + 1

/-- A session opens at an outlet in AWAIT_AUTH (R89). -/
def State.openSession (s : State) (o : Outlet) (d : Declaration) (place : Nat) : State :=
  let x : Session :=
    { number := s.account.sessionCounter, hull := d.hull, plan := s.account.planAt place
      claim := d.kw, opened := s.now }
  let taken : State :=
    { s with account := { s.account with
        places := s.account.places.set place none
        sessionCounter := nextSession s.account.sessionCounter } }
  let filled := taken.onSc o fun r => { r with session := some x }
  let metered := (filled.openMeter o x).onMu o fun m => { m with clipReported := false }
  (metered.moveTo o .energising).report .sessionOpen (.outlet o) (some x.number)

/-- The waiting reason becomes that of the first condition that failed (R88). -/
def State.keepWaiting (s : State) (o : Outlet) (w : WaitingReason) : State :=
  s.onSc o fun r => { r with waiting := some w }

/-- A waiting outlet that is no longer feasible returns to CABLE_PROVEN (R88). -/
def State.refuseWaiting (s : State) (o : Outlet) : State :=
  (s.moveTo o .cableProven).onSc o fun r =>
    { r with denial := some .capacityImpossible, deny := true }

/-- One waiting outlet of a pass (R88). -/
def State.evaluate (s : State) (o : Outlet) : State :=
  let r := (s.berth o).sc
  match decide (r.state = .awaitAuth), r.declaration with
  | true, some d =>
    if !s.feasible r.target then s.refuseWaiting o
    else
      match s.account.matchPlace o d.hull with
      | none => s.keepWaiting o .authorisation
      | some place =>
        if s.remaining < d.kw then s.keepWaiting o .budget
        else if s.spare < 1 then s.keepWaiting o .billingSpace
        else s.openSession o d place
  | _, _ => s

/-- The waiting outlets in order of waiting-since time, equal times in order of number (R88). -/
def State.waitingOutlets (s : State) : List Outlet :=
  sortByAge
    (fun o =>
      match (s.berth o).sc.waitingSince with
      | some t => elapsed s.tb.run t.run
      | none => 0)
    (Outlet.all.filter fun o => (s.berth o).sc.state == .awaitAuth)

/-- One evaluation pass (R88). -/
def State.pass (s : State) : State :=
  s.waitingOutlets.foldl State.evaluate { s with passDue := false }

/-- The passes that a step's events call for: while one is due, one pass. A pass calls for a further
one only by opening a session, so five suffice for four outlets. -/
def State.passes : Nat → State → State
  | 0, s => { s with passDue := false }
  | n + 1, s => if s.passDue then State.passes n s.pass else s

/-- The end of a step: the passes its events called for are made (log entry 6). -/
def State.settle (s : State) : State := s.passes 5

end Sys2Proof.Machine
end

