-- ==== Sys2Proof/Machine/Breakers.lean ====
section
/-! DEFINITION. The breaker lines and the pilot loop: the commands DUE_INSTANT,
CONFIRMATION_TIME_EXPIRY, BREAKER_FEEDBACK_CLOSED, BREAKER_FEEDBACK_OPEN, OPEN_DRIVE_FAIL_TIME,
DEAD_TIME_COMPLETE, PILOT_LOOP_CLOSED and PILOT_LOOP_OPEN. -/

namespace Sys2Proof.Machine

open Sys2Proof

/-! ### The feedback changes to closed (R67, R71, R107) -/

/-- SC takes a confirmed close (Table 5-6). -/
def State.closeConfirmed (s : State) (o : Outlet) (kind : CloseKind) : State :=
  let b := s.berth o
  match kind, b.sc.endRequested with
  | .synchronised, false => s.enterJudged o .parallelIn b.confirmedPSet
  | .synchronised, true => s.enter o .parallelOut b.confirmedPSet
  | .deadBus, false => s.enterJudged o .shoreSupply
  | .deadBus, true =>
    let entered := s.enter o .shoreSupply
    if (entered.berth o).sc.state = .shoreSupply then entered.requestReturn o else entered

/-- The kind of the close in flight. -/
def Synchroniser.kindInFlight (y : Synchroniser) : CloseKind :=
  match y.record with
  | some c => c.kind
  | none => .synchronised

/-- SY confirms its close in flight and hands it to MT and SC (R67, R68, R92). -/
def State.confirmClose (s : State) (o : Outlet) : State :=
  let y := (s.berth o).sy
  let confirmed := s.onSy o fun y => y.confirm s.tb.run
  let told :=
    match y.oddTime s.tb.run with
    | some m => confirmed.report .closeTimeOdd (.outlet o) (some m)
    | none => confirmed
  (told.onMt o Meter.countClose).closeConfirmed o y.kindInFlight

/-- An unwanted closure (R71). -/
def State.unwantedClosure (s : State) (o : Outlet) : State :=
  (s.onSy o fun y => y.takeUnwanted s.tb.run).raise .breakerLate (.outlet o)

/-- A closure in TRIPPED (R107, R115). -/
def State.closureInTripped (s : State) (o : Outlet) : State :=
  let driven := s.onPr o fun p => p.closedInTripped s.tb.run
  if s.gridWatch.standing then driven.complete o .gridLoss else driven

/-- The feedback of an outlet has changed to closed (Table 4-4, R71, R107). -/
def State.takeClosed (s : State) (o : Outlet) : State :=
  let b := s.berth o
  if b.sy.close = .inFlight then s.confirmClose o
  else if b.sc.state.closureUnwanted then s.unwantedClosure o
  else if b.sc.state = .tripped then s.closureInTripped o
  else s

/-! ### The feedback changes to open (R71, R97, R98, R107, R116) -/

/-- PR takes a change of the feedback to open in an outlet state (R107, R108): a drive kept beyond the
post-trip time is released; in TRIPPED a drive within it is kept to the expiry, and PR stops watching; in
WIND_DOWN the drive and the post-trip time that ran on from TRIPPED end. -/
def Protection.takeOpen (p : Protection) (st : OutletState) : Protection :=
  if st = .windDown then p.release
  else
    let q := if p.breakerFail then { p with openDrive := false, breakerFail := false } else p
    if st = .tripped then q.clearWatches else q

/-- SY, SC and PR release the drives that the change of the feedback to open ends (R71, R98, R103,
R107). -/
def Berth.releaseDrives (b : Berth) : Berth :=
  { b with sy := if b.sy.openDrive then b.sy.releaseDrive else b.sy
           sc := { b.sc with openDrive := false }
           pr := b.pr.takeOpen b.sc.state }

/-- What a change of the feedback to open leads to in an outlet's state (R97, R98, R99); in ENERGISING
and SYNCHRONISING it may be the first moment at which all conditions of a dead-bus close hold (R74). -/
def State.afterOpen (s : State) (o : Outlet) : State :=
  let b := s.berth o
  match b.sc.state with
  | .opening => s.windDown o
  | .windDown => s.tryClose o
  | .tripped =>
    if b.sc.session.isSome then s
    else s.moveTo o (if b.lines.pilotClosed then .cableProven else .dormant)
  | .energising | .synchronising => s.tryDeadBus o
  | .dormant | .cableProven | .awaitAuth | .closing | .parallelIn | .shoreSupply | .parallelOut => s

/-- The feedback of an outlet has changed to open. -/
def State.takeOpen (s : State) (o : Outlet) : State :=
  let b := s.berth o
  if b.sc.state.breakerClosed && !b.openOutput then s.complete o .unexpectedOpen
  else (s.onBerth o Berth.releaseDrives).afterOpen o

/-! ### The commands -/

/-- DUE_INSTANT (R66). -/
def execDueInstant (o : Outlet) (s : State) : Host.Outcome State Fault Refusal :=
  .next (match (s.berth o).sy.close with
    | .scheduled plan => (s.issueClose o (some plan)).settle
    | .watching | .inFlight => s)

/-- SC takes a failed close (Table 5-6, R91, R92). -/
def State.closeFailed (s : State) (o : Outlet) : State :=
  let b := s.berth o
  if b.sc.endRequested then s.windDown o
  else
    let back := s.moveTo o .synchronising
    if 3 ≤ b.sy.attempts then (back.raise .handoverAbort (.outlet o)).windDown o
    else if b.sc.syncExpired then (back.raise .syncTimeout (.outlet o)).windDown o
    else back

/-- CONFIRMATION_TIME_EXPIRY (R69). -/
def execConfirmationTimeExpiry (o : Outlet) (s : State) : Host.Outcome State Fault Refusal :=
  .next (if (s.berth o).sy.close = .inFlight then
      (((s.onSy o Synchroniser.fail).raise .closeFail (.outlet o)).closeFailed o).settle
    else s)

/-- BREAKER_FEEDBACK_CLOSED (R67, R71, R107): a change of the feedback. -/
def execBreakerFeedbackClosed (o : Outlet) (s : State) : Host.Outcome State Fault Refusal :=
  .next (if (s.berth o).lines.breakerClosed then s
    else
      ((s.onLines o fun l =>
        { l with breakerClosed := true, closedAt := some s.tb.run }).takeClosed o).settle)

/-- BREAKER_FEEDBACK_OPEN (R116): a change of the feedback. -/
def execBreakerFeedbackOpen (o : Outlet) (s : State) : Host.Outcome State Fault Refusal :=
  .next (if (s.berth o).lines.breakerClosed then
      let opened := s.onLines o fun l => { l with breakerClosed := false }
      ((opened.onMt o fun m => m.endGap s.tb.run).takeOpen o).settle
    else s)

/-- OPEN_DRIVE_FAIL_TIME (R71). -/
def execOpenDriveFailTime (o : Outlet) (s : State) : Host.Outcome State Fault Refusal :=
  let b := s.berth o
  .next (if b.sy.driveFrom.isSome then
      let timed := s.onSy o fun y => { y with driveFrom := none }
      if b.lines.breakerClosed then timed.raise .breakerFail (.outlet o) else timed
    else s)

/-- DEAD_TIME_COMPLETE (R73, R74). -/
def execDeadTimeComplete (o : Outlet) (s : State) : Host.Outcome State Fault Refusal :=
  .next (if (s.berth o).sy.deadFrom.isSome then
      ((s.onSy o fun y => { y with deadComplete := true }).tryDeadBus o).settle
    else s)

/-- PILOT_LOOP_CLOSED (R79). -/
def execPilotLoopClosed (o : Outlet) (s : State) : Host.Outcome State Fault Refusal :=
  let b := s.berth o
  .next (if b.lines.pilotClosed then s
    else
      let closed := s.onLines o fun l => { l with pilotClosed := true }
      if b.sc.state = .dormant then (closed.moveTo o .cableProven).settle else closed)

/-- The pilot loop of an outlet has become open (R79, Table 5-5, R108). -/
def State.pilotOpened (s : State) (o : Outlet) : State :=
  let b := s.berth o
  match b.sc.state with
  | .dormant | .opening | .windDown => s
  | .cableProven | .awaitAuth => s.moveTo o .dormant
  | .energising | .synchronising => s.windDown o
  | .closing | .parallelIn | .shoreSupply | .parallelOut => s.complete o .pilotOpen
  | .tripped =>
    let told := s.complete o .pilotOpen
    if b.sc.session.isSome then told.windDown o else told

/-- PILOT_LOOP_OPEN (R79). -/
def execPilotLoopOpen (o : Outlet) (s : State) : Host.Outcome State Fault Refusal :=
  .next (if (s.berth o).lines.pilotClosed then
      ((s.onLines o fun l => { l with pilotClosed := false }).pilotOpened o).settle
    else s)

end Sys2Proof.Machine
end

