-- ==== Sys2Proof/Machine/Link.lean ====
section
/-! DEFINITION. The ship link controller (SL, Section 7): the leader's frames and what follows them,
the station and generator tables, the SCP's requests (R80), and the commands of the ship link. -/

namespace Sys2Proof.Machine

open Sys2Proof

/-! ### The station table (R125) -/

/-- The entry of an address. -/
def ShipLink.entry (l : ShipLink) (a : Nat) : Option Station :=
  l.stations.find? fun e => e.address == a

/-- The entry of an address changed. -/
def ShipLink.onEntry (l : ShipLink) (a : Nat) (f : Station → Station) : ShipLink :=
  { l with stations := l.stations.map fun e => if e.address = a then f e else e }

/-- An entry put in its place by address (R125). -/
def insertStation (e : Station) : List Station → List Station
  | [] => [e]
  | f :: rest => if e.address < f.address then e :: f :: rest else f :: insertStation e rest

/-- An entry in PRESENT or LOST: one that counts toward a kind (R125). -/
def Station.counts (e : Station) : Bool := e.state != .duplicate

/-- The limit of a station kind (R125). -/
def StationKind.limit : StationKind → Nat
  | .scp => 1 | .pms => 1 | .aux => 4

/-- The entry of a kind in PRESENT or LOST: the SCP entry or the PMS entry (R125). -/
def ShipLink.entryOf (l : ShipLink) (k : StationKind) : Option Station :=
  l.stations.find? fun e => e.kind == some k && e.counts

/-- A further station of a kind is within the kind limit (R125). -/
def ShipLink.admits (l : ShipLink) (k : StationKind) : Bool :=
  decide ((l.stations.filter fun e => e.kind == some k && e.counts).length < k.limit)

/-- The address is that of the SCP entry (R125, R130, R136). -/
def ShipLink.isScp (l : ShipLink) (a : Nat) : Bool :=
  match l.entryOf .scp with
  | some e => e.address == a
  | none => false

/-- The address is that of the PMS entry (R132, R134). -/
def ShipLink.isPms (l : ShipLink) (a : Nat) : Bool :=
  match l.entryOf .pms with
  | some e => e.address == a
  | none => false

/-- The table is full (R125). -/
def ShipLink.full (l : ShipLink) : Bool := decide (6 ≤ l.stations.length)

/-! ### The shore state record (R101, R136) -/

/-- The reason of the shore state record. -/
def OutletRecord.reason (r : OutletRecord) : Option (WaitingReason ⊕ DenialReason) :=
  match r.state with
  | .awaitAuth => r.waiting.map Sum.inl
  | .cableProven => r.denial.map Sum.inr
  | .dormant | .energising | .synchronising | .closing | .parallelIn | .shoreSupply | .parallelOut
  | .opening | .windDown | .tripped => none

/-- The shore state record as a POLL made now carries it. -/
def Berth.shoreState (b : Berth) : ShoreState :=
  { state := b.sc.state, reason := b.sc.reason, breakerClosed := b.lines.breakerClosed
    pSet := b.rg.pSet, prepareReturn := b.sc.prepareReturn, deny := b.sc.deny }

/-! ### Sending (R123) -/

/-- The address whose last poll time a frame sets (R129, Table 7-3). -/
def LeaderFrame.polled : LeaderFrame → Option Nat
  | .poll a _ => some a
  | .enlisted a .accepted => some a
  | .enlisted _ .refused | .enlisted _ .duplicate | .rollCall _ | .attentionQuery | .slotGrant _ =>
    none

/-- The leader begins to send a frame. DESIGN CHOICE (log entry 61), unsafe: the last poll time of R129 is
the run count at which it begins. -/
def ShipLink.send (l : ShipLink) (f : LeaderFrame) (now : RunCount) : ShipLink :=
  let sent := { l with activity := .sending f }
  match f.polled with
  | some a => sent.onEntry a fun e => { e with lastPoll := some now }
  | none => sent

/-- The leader sends ENLISTED with an outcome. -/
def ShipLink.enlist (l : ShipLink) (a : Nat) (outcome : Enlistment) (now : RunCount) : ShipLink :=
  l.send (.enlisted a outcome) now

/-- The leader sends POLL, with the shore state record to the SCP entry (R136). -/
def Berth.sendPoll (b : Berth) (a : Nat) (now : RunCount) : Berth :=
  { b with sl := b.sl.send (.poll a (if b.sl.isScp a then some b.shoreState else none)) now }

/-! ### The link cycle (R129 to R132) -/

/-- The cycle ends; the next begins by LINK_CYCLE (R129). -/
def ShipLink.endCycle (l : ShipLink) : ShipLink := { l with activity := .quiet, step := .rest }

/-- The slot step (R129, R132). -/
def ShipLink.slotStep (l : ShipLink) (now : RunCount) : ShipLink :=
  match l.entryOf .pms with
  | some e =>
    if e.state = .present then { l.send (.slotGrant e.address) now with step := .shipSlot }
    else l.endCycle
  | none => l.endCycle

/-- The attention step after `queries` queries: a further query while the pair is held and fewer than
six have been sent (R131). -/
def ShipLink.attentionStep (l : ShipLink) (queries : Nat) (now : RunCount) : ShipLink :=
  if l.attention ∧ queries < 6 then
    { l.send .attentionQuery now with step := .attention (queries + 1) }
  else l.slotStep now

/-- An entry that the polls step polls: PRESENT, or LOST with its repoll due (R129). -/
def Station.pollDue (e : Station) (now : RunCount) : Bool :=
  match e.state, e.lastPoll with
  | .present, _ => true
  | .lost, some last => decide (1000000 ≤ elapsed now last)
  | .lost, none => true
  | .duplicate, _ => false

/-- The polls step goes on to the next address above `upTo` (R129). -/
def Berth.nextPoll (b : Berth) (upTo : Nat) (now : RunCount) : Berth :=
  match b.sl.stations.find? fun e => decide (upTo < e.address) && e.pollDue now with
  | some e =>
    { b with sl := { (b.sendPoll e.address now).sl with step := .polls e.address } }
  | none => { b with sl := b.sl.attentionStep 0 now }

/-- A link cycle begins (R129). -/
def Berth.beginCycle (b : Berth) (now : RunCount) : Berth :=
  ({ b with sl := { b.sl with state := .cycling, cycleFrom := now, activity := .quiet
                              step := .polls 0 } }).nextPoll 0 now

/-! ### Discovery (R128) -/

/-- A discovery begins (R128). -/
def ShipLink.beginDiscovery (l : ShipLink) (now : RunCount) : ShipLink :=
  { ({ l with state := .discovering, collisions := 0, wakeFrom := none }).send (.rollCall true) now
    with step := .rollCall 1 false }

/-- The leader goes on after an outcome that asked for no further frame (R128, R129, R131). -/
def Berth.resume (b : Berth) (now : RunCount) : Berth :=
  match b.sl.step with
  | .rollCall sent ends =>
    if ends ∨ 24 ≤ sent then b.beginCycle now
    else { b with sl := { b.sl.send (.rollCall false) now with step := .rollCall (sent + 1) false } }
  | .polls upTo => b.nextPoll upTo now
  | .attention queries => { b with sl := b.sl.attentionStep queries now }
  | .shipSlot => { b with sl := b.sl.endCycle }
  | .rest => { b with sl := { b.sl with activity := .quiet } }

/-- The leader of an outlet goes on. -/
def State.resume (s : State) (o : Outlet) : State := s.onBerth o fun b => b.resume s.tb.run

/-- The table was found full at a ROLL_CALL: the discovery ends after this outcome (R126, R127). -/
def ShipLink.endsRoll (l : ShipLink) : ShipLink :=
  match l.step with
  | .rollCall sent _ => { l with step := .rollCall sent true }
  | .polls _ | .attention _ | .shipSlot | .rest => l

/-! ### Losses (R126, R130, R135) -/

/-- A PMS loss: every generator entry's breaker state becomes UNKNOWN (R135). -/
def ShipLink.losePms (l : ShipLink) : ShipLink :=
  { l with generators := l.generators.map fun g => { g with breaker := .unknown } }

/-- The hand-overs of an entry's change to LOST or DUPLICATE (R126, R130, R135). -/
def State.handLoss (s : State) (o : Outlet) (k : Option StationKind) : State :=
  match k with
  | some .scp => s.complete o .scpLost
  | some .pms => (s.onSl o ShipLink.losePms).judgeGenerators o
  | some .aux | none => s

/-- A miss of an entry; `checked` is that a bad or incomplete frame was the miss (R123, R130). -/
def Station.miss (e : Station) (checked : Bool) : Station :=
  let e := { e with checkErrors := if checked then min 255 (e.checkErrors + 1) else e.checkErrors }
  if e.state = .present then
    (if 2 ≤ e.misses then { e with misses := 3, state := .lost } else { e with misses := e.misses + 1 })
  else e

/-- A miss of the station at an address, with the hand-overs of a change to LOST (R130). -/
def State.miss (s : State) (o : Outlet) (a : Nat) (checked : Bool) : State :=
  match (s.berth o).sl.entry a with
  | none => s
  | some e =>
    let missed := s.onSl o fun l => l.onEntry a fun x => x.miss checked
    if e.state = .present ∧ (e.miss checked).state = .lost then missed.handLoss o e.kind else missed

/-- An entry enters DUPLICATE (R126, note e). -/
def State.makeDuplicate (s : State) (o : Outlet) (e : Station) : State :=
  let marked := s.onSl o fun l => l.onEntry e.address fun x => { x with state := .duplicate }
  (marked.raise .stationDuplicate (.outlet o) (some e.address)).handLoss o e.kind

/-! ### Collisions (R124, R127) -/

/-- The leader sends ENLISTED. -/
def State.sendEnlisted (s : State) (o : Outlet) (a : Nat) (outcome : Enlistment) : State :=
  s.onSl o fun l => l.enlist a outcome s.tb.run

/-- TOO_MANY_STATIONS and a refusal; with the table full the discovery ends (R126, R127). -/
def State.refuseStation (s : State) (o : Outlet) (a : Nat) : State :=
  let told := s.report .tooManyStations (.outlet o) (some a)
  (told.onSl o fun l => if l.full then l.endsRoll else l).sendEnlisted o a .refused

/-- A DUPLICATE entry made from collisions (R127). DESIGN CHOICE (log entry 78), unsafe: it has no last poll
time. -/
def Station.shared (a : Nat) : Station :=
  { address := a, kind := none, identity := none, state := .duplicate, misses := 0, checkErrors := 0
    status := none, lastPoll := none }

/-- An address is found shared (R127). An address outside 1 to 30 is taken as any other (DESIGN CHOICE,
log entry 56). -/
def State.foundShared (s : State) (o : Outlet) (a : Nat) : State :=
  let l := (s.berth o).sl
  match l.entry a with
  | some e =>
    if e.state = .duplicate then s.sendEnlisted o a .duplicate
    else (s.makeDuplicate o e).sendEnlisted o a .duplicate
  | none =>
    if l.full then s.refuseStation o a
    else
      let made := s.onSl o fun l => { l with stations := insertStation (.shared a) l.stations }
      (made.raise .stationDuplicate (.outlet o) (some a)).sendEnlisted o a .duplicate

/-- The collision count after a collision (R127). -/
def ShipLink.collide (l : ShipLink) (a : Nat) : ShipLink :=
  if l.collisionAddress = some a then { l with collisions := l.collisions + 1 }
  else { l with collisions := 1, collisionAddress := some a }

/-- A collision of this source address is the third of the address, which finds it shared (R127). -/
def ShipLink.findsShared (l : ShipLink) (src : Option Nat) : Bool :=
  match src with
  | some a => (l.collide a).collisions == 3
  | none => false

/-- A collision is counted, with its source address where one was received, and the third of an address
finds it shared (R124, R127, log entry 22). -/
def State.countCollision (s : State) (o : Outlet) (src : Option Nat) : State :=
  match src with
  | none => s
  | some a =>
    let counted := s.onSl o fun l => l.collide a
    if (s.berth o).sl.findsShared src then
      (counted.onSl o fun l => { l with collisions := 0 }).foundShared o a
    else counted

/-- A collision: an address found shared is sent ENLISTED, and otherwise the leader goes on (R127); one
of a source outside 1 to 30 is counted as any other (DESIGN CHOICE, log entry 56). -/
def State.collision (s : State) (o : Outlet) (src : Option Nat) : State :=
  let counted := s.countCollision o src
  if (s.berth o).sl.findsShared src then counted else counted.resume o

/-- The collision count is 0 after an answer or no answer (R127). -/
def ShipLink.settleCount (l : ShipLink) : ShipLink := { l with collisions := 0 }

/-- No answer to a ROLL_CALL or an ATTENTION_QUERY: the discovery or the step ends (R127, R128,
R131). -/
def State.noAnswer (s : State) (o : Outlet) : State :=
  s.onBerth o fun b =>
    let c := { b with sl := b.sl.settleCount }
    match b.sl.step with
    | .rollCall _ _ => c.beginCycle s.tb.run
    | .attention _ => { c with sl := c.sl.slotStep s.tb.run }
    | .polls _ | .shipSlot | .rest => c

/-! ### Answers (R126, R131) -/

/-- An entry enlisted in PRESENT (R126, note a). -/
def Station.enlisted (a : Nat) (k : StationKind) (id : BitVec 32) : Station :=
  { address := a, kind := some k, identity := some id, state := .present, misses := 0
    checkErrors := 0, status := none, lastPoll := none }

/-- A station is enlisted; SC has seen no STATUS of a newly enlisted SCP (R80, R126). DESIGN CHOICE (log entry
71), unsafe: the last declaration taken is kept. -/
def State.enlistStation (s : State) (o : Outlet) (a : Nat) (k : StationKind) (id : BitVec 32) :
    State :=
  let made := s.onSl o fun l => { l with stations := insertStation (.enlisted a k id) l.stations }
  let fresh := if k = .scp then made.onSc o fun r => { r with flagsSeen := none } else made
  fresh.sendEnlisted o a .accepted

/-- The leader is in its attention step. -/
def LinkStep.isAttention : LinkStep → Bool
  | .attention _ => true
  | .rollCall _ _ | .polls _ | .shipSlot | .rest => false

/-- An answer is taken (the table of R126, R131). DESIGN CHOICE (log entry 67), unsafe: the flags that SC has
seen of the SCP are forgotten where a new entry is made, and kept at a re-enlistment (R80, note d of
R126). -/
def State.answer (s : State) (o : Outlet) (a : Nat) (k : StationKind) (id : BitVec 32) : State :=
  let s := s.onSl o ShipLink.settleCount
  let l := (s.berth o).sl
  match l.entry a with
  | none =>
    if !l.full && l.admits k then s.enlistStation o a k id else s.refuseStation o a
  | some e =>
    if e.state = .duplicate then s.sendEnlisted o a .duplicate
    else if e.kind = some k ∧ e.identity = some id then
      (if l.step.isAttention then s.onBerth o fun b => b.sendPoll a s.tb.run
       else s.sendEnlisted o a .accepted)
    else (s.makeDuplicate o e).sendEnlisted o a .duplicate

/-! ### The SCP's requests (R80, Table 5-5) -/

/-- A connect request is blocked (R80). -/
def ShipLink.blocksConnect (l : ShipLink) : Bool := l.anyDuplicate || !l.scpPresent

/-- A flag is set that was clear at the last STATUS, or that no STATUS since the enlistment showed
(R80). -/
def newlySet (seen : Option RequestMemory) (flag : Bool) (was : RequestMemory → Bool) : Bool :=
  flag && match seen with
          | some m => !was m
          | none => true

/-- A STATUS carries a connect request (R80). DESIGN CHOICE (log entry 72), unsafe: while no connect request
has been taken, an absent declaration differs from the last one taken too. -/
def OutletRecord.asksConnect (r : OutletRecord) (st : ShipStatus) : Bool :=
  newlySet r.flagsSeen st.connect RequestMemory.connect
    || (st.connect && r.lastDeclared != some st.declaration)

/-- CONNECT is taken: it acts in CABLE_PROVEN alone (R81, Table 5-5). -/
def State.shipConnect (s : State) (o : Outlet) (d : Option Declaration) : State :=
  if (s.berth o).sc.state = .cableProven then
    (s.onSc o fun r => { r with lastDeclared := some d }).takeConnect o d
  else s

/-- CANCEL is taken (Table 5-5). -/
def State.shipCancel (s : State) (o : Outlet) : State :=
  match (s.berth o).sc.state with
  | .awaitAuth => s.moveTo o .cableProven
  | .energising | .synchronising => s.windDown o
  | .closing => s.onSc o fun r => { r with endRequested := true }
  | .parallelIn => s.enter o .parallelOut
  | .shoreSupply => s.requestReturn o
  | .dormant | .cableProven | .parallelOut | .opening | .windDown | .tripped => s

/-- RETURN is taken (Table 5-5). -/
def State.shipReturn (s : State) (o : Outlet) : State :=
  match (s.berth o).sc.state with
  | .parallelIn => s.enter o .parallelOut
  | .shoreSupply => s.requestReturn o
  | .dormant | .cableProven | .awaitAuth | .energising | .synchronising | .closing | .parallelOut
  | .opening | .windDown | .tripped => s

/-- The SCP's flags as last seen after a STATUS (R80). One that carried a blocked connect request does not
count: CANCEL and RETURN stay as they were seen before it, and CONNECT stands as clear, so that the next
STATUS that shows it set is taken as a connect request. -/
def OutletRecord.flagsAfter (r : OutletRecord) (st : ShipStatus) (blocked : Bool) :
    Option RequestMemory :=
  if blocked then r.flagsSeen.map fun m => { m with connect := false }
  else some { connect := st.connect, cancel := st.cancel, ret := st.ret }

/-- SC takes a STATUS of the SCP entry (R80, R100). The order in which its new flags are taken, CONNECT,
CANCEL, RETURN, and that CANCEL and RETURN are taken of a STATUS with a blocked CONNECT too, are the
model's (DESIGN CHOICE, log entry 52). -/
def State.takeScpStatus (s : State) (o : Outlet) (st : ShipStatus) : State :=
  let b := s.berth o
  let asks := b.sc.asksConnect st
  let blocked := asks && b.sl.blocksConnect
  let seen := s.onSc o fun r => { r with flagsSeen := r.flagsAfter st blocked }
  let connected := if asks && !blocked then seen.shipConnect o st.declaration else seen
  let cancelled :=
    if newlySet b.sc.flagsSeen st.cancel RequestMemory.cancel then connected.shipCancel o
    else connected
  if newlySet b.sc.flagsSeen st.ret RequestMemory.ret then cancelled.shipReturn o else cancelled

/-- A STATUS as the table keeps it: of a station other than the SCP, its stop flag alone
(Table 7-3). -/
def ShipStatus.kept (st : ShipStatus) (scp : Bool) : ShipStatus :=
  if scp then st
  else { stop := st.stop, connect := false, cancel := false, ret := false, declaration := none }

/-- An entry after a good reply (R130). -/
def Station.good (e : Station) (st : ShipStatus) (scp : Bool) : Station :=
  { e with misses := 0, status := some (st.kept scp)
           state := if e.state = .lost then .present else e.state }

/-- A good reply is taken: the table, then protection, then SC from the SCP entry (R130). -/
def State.goodReply (s : State) (o : Outlet) (a : Nat) (st : ShipStatus) : State :=
  let scp := (s.berth o).sl.isScp a
  let held := s.onSl o fun l => l.onEntry a fun e => e.good st scp
  let guarded := if st.stop then held.complete o .shipStop else held
  if scp then guarded.takeScpStatus o st else guarded

/-! ### Frames received (R121, R123, R134) -/

/-- What a received frame comes to for the leader. -/
inductive Heard where
  | present (src : Nat) (kind : StationKind) (id : BitVec 32)
  | status (src : Nat) (st : ShipStatus)
  /-- A good frame that is neither, malformed, or not addressed to the leader. -/
  | other
  | bad (src : Option Nat)
deriving DecidableEq, Repr

/-- The outcome of a reply window (R123, R124). DESIGN CHOICE (log entry 68), unsafe: in the window of a
ROLL_CALL or an ATTENTION_QUERY a bad or incomplete frame of any kind is a collision. -/
def State.reply (s : State) (o : Outlet) (f : LeaderFrame) (h : Heard) : State :=
  match f, h with
  | .rollCall _, .present src k id | .attentionQuery, .present src k id =>
    if 1 ≤ src ∧ src ≤ 30 then s.answer o src k id else s.noAnswer o
  | .rollCall _, .bad src | .attentionQuery, .bad src => s.collision o src
  | .rollCall _, _ | .attentionQuery, _ => s.noAnswer o
  | .poll a _, .status src st | .enlisted a .accepted, .status src st =>
    if src = a then (s.goodReply o a st).resume o else (s.miss o a false).resume o
  | .poll a _, .bad _ | .enlisted a .accepted, .bad _ => (s.miss o a true).resume o
  | .poll a _, _ | .enlisted a .accepted, _ => (s.miss o a false).resume o
  | .enlisted _ .refused, _ | .enlisted _ .duplicate, _ | .slotGrant _, _ => s

/-- A bad or incomplete frame in the slot (R134). -/
def ShipLink.slotError (l : ShipLink) (src : Option Nat) : ShipLink :=
  match src with
  | some a => l.onEntry a fun e =>
      if e.counts then { e with checkErrors := min 255 (e.checkErrors + 1) } else e
  | none => l

/-- The level of the attention pair as the leader judges it (R131). -/
def State.noteHeld (s : State) (o : Outlet) (held : Bool) : State :=
  s.onSl o fun l => { l with attention := held }

/-- A frame is received: as the reply in a reply window, or, if it is bad, in the slot; elsewhere the
leader discards it (R121). Good frames of the slot are taken by their own commands. -/
def State.hear (s : State) (o : Outlet) (held : Bool) (h : Heard) : State :=
  match (s.berth o).sl.activity, h with
  | .window f _, _ => ((s.noteHeld o held).reply o f h).settle
  | .slot _, .bad src => s.onSl o fun l => l.slotError src
  | .slot _, _ | .quiet, _ | .sending _, _ => s

/-! ### Generators (R134, R135) -/

/-- The reading of a generator number. -/
def ShipLink.readingOf (l : ShipLink) (n : Nat) : Option GenReading :=
  (l.generators.find? fun g => g.number == n).map Generator.reading

/-- An item put into the table, in ascending order of number (R134). -/
def insertGenerator (g : Generator) : List Generator → List Generator
  | [] => [g]
  | h :: rest =>
    if g.number < h.number then g :: h :: rest
    else if g.number = h.number then g :: rest
    else h :: insertGenerator g rest

/-- A generator item is taken (R134). -/
def ShipLink.takeItem (now : RunCount) (l : ShipLink) (i : GenItem) : ShipLink :=
  let g : Generator :=
    { number := i.number, breaker := if i.closed then .closed else .opened, kw := i.kw
      updated := now, stale := false }
  { l with generators := insertGenerator g l.generators }

/-- A generator report is taken, and SC handed the table where a reading changed or an entry was
created (R134, R135). DESIGN CHOICE (log entry 75), unsafe: SC judges once, after the last item of the
report, the readings then being held against those before it. -/
def State.takeGenerators (s : State) (o : Outlet) (items : List GenItem) : State :=
  let l := (s.berth o).sl
  let taken := s.onSl o fun l => items.foldl (ShipLink.takeItem s.tb.run) l
  let l' := (taken.berth o).sl
  if [1, 2, 3, 4].all fun n => l.readingOf n == l'.readingOf n then taken
  else taken.judgeGenerators o

/-! ### The commands -/

/-- WAKE_TIME_EXPIRY (R120). -/
def execWakeTimeExpiry (o : Outlet) (s : State) : Host.Outcome State Fault Refusal :=
  .next (if (s.berth o).sl.state = .waking then
      s.onSl o fun l => l.beginDiscovery s.tb.run
    else s)

/-- LEADER_FRAME_SENT (R123): the window or the slot opens, or the leader goes on. -/
def execLeaderFrameSent (o : Outlet) (held : Bool) (s : State) : Host.Outcome State Fault Refusal :=
  .next (match (s.berth o).sl.activity with
    | .sending f =>
      match f with
      | .rollCall _ | .attentionQuery | .poll _ _ | .enlisted _ .accepted =>
        s.onSl o fun l => { l with activity := .window f s.tb.run }
      | .slotGrant _ => s.onSl o fun l => { l with activity := .slot s.tb.run }
      | .enlisted _ .refused | .enlisted _ .duplicate => (s.noteHeld o held).resume o
    | .quiet | .window _ _ | .slot _ => s)

/-- REPLY_WINDOW_CLOSE (R123): no reply has begun. -/
def execReplyWindowClose (o : Outlet) (held : Bool) (s : State) :
    Host.Outcome State Fault Refusal :=
  .next (match (s.berth o).sl.activity with
    | .window f _ => ((s.noteHeld o held).reply o f .other).settle
    | .quiet | .sending _ | .slot _ => s)

/-- PRESENT (R126). -/
def execPresent (o : Outlet) (held : Bool) (frame : ShipFrame) (s : State) :
    Host.Outcome State Fault Refusal :=
  .next (s.hear o held
    (match readPresent frame.payload with
      | some (k, id) => if frame.dst = 31 then .present frame.src k id else .other
      | none => .other))

/-- STATUS (R130). -/
def execStatus (o : Outlet) (held : Bool) (frame : ShipFrame) (s : State) :
    Host.Outcome State Fault Refusal :=
  .next (s.hear o held
    (match readStatus frame.payload with
      | some st => if frame.dst = 31 then .status frame.src st else .other
      | none => .other))

/-- BAD_FRAME (R122). -/
def execBadFrame (o : Outlet) (held : Bool) (src : Nat) (s : State) :
    Host.Outcome State Fault Refusal :=
  .next (s.hear o held (.bad (some src)))

/-- INCOMPLETE_FRAME (R121). -/
def execIncompleteFrame (o : Outlet) (held : Bool) (src : Option Nat) (s : State) :
    Host.Outcome State Fault Refusal :=
  .next (s.hear o held (.bad src))

/-- LINK_CYCLE (R129). -/
def execLinkCycle (o : Outlet) (held : Bool) (s : State) : Host.Outcome State Fault Refusal :=
  let l := (s.berth o).sl
  .next (if l.state = .cycling ∧ l.step = .rest ∧ l.activity = .quiet then
      (s.noteHeld o held).onBerth o fun b => b.beginCycle s.tb.run
    else s)

/-- SLOT_END (R132): only its check and its source are judged. -/
def execSlotEnd (o : Outlet) (held : Bool) (frame : ShipFrame) (s : State) :
    Host.Outcome State Fault Refusal :=
  let l := (s.berth o).sl
  .next (match l.activity with
    | .slot _ =>
      if l.isPms frame.src then s.onSl o ShipLink.endCycle else s
    | .window _ _ | .quiet | .sending _ => s.hear o held .other)

/-- SHIP_SLOT_EXPIRY (R132). -/
def execShipSlotExpiry (o : Outlet) (s : State) : Host.Outcome State Fault Refusal :=
  .next (match (s.berth o).sl.activity with
    | .slot _ => s.onSl o ShipLink.endCycle
    | .window _ _ | .quiet | .sending _ => s)

/-- GEN_STATUS (R134). -/
def execGenStatus (o : Outlet) (held : Bool) (frame : ShipFrame) (s : State) :
    Host.Outcome State Fault Refusal :=
  let l := (s.berth o).sl
  .next (match l.activity, readGenItems frame.payload with
    | .slot _, some items =>
      if l.isPms frame.src then (s.takeGenerators o items).settle else s
    | _, _ => s.hear o held .other)

/-- GENERATOR_STALE (R135). -/
def execGeneratorStale (o : Outlet) (number : Nat) (s : State) : Host.Outcome State Fault Refusal :=
  let l := (s.berth o).sl
  let aged := s.onSl o fun l =>
    { l with generators := l.generators.map fun g =>
        if g.number = number then { g with stale := true } else g }
  .next (if (aged.berth o).sl.readingOf number = l.readingOf number then aged
    else (aged.judgeGenerators o).settle)

/-- SL enters STUCK (R133). -/
def ShipLink.stick (l : ShipLink) (now : RunCount) : ShipLink :=
  let discovering := l.state == .discovering
  { l with state := .stuck, stuckInDiscovery := discovering, activity := .quiet, step := .rest
           missFrom := if discovering then now
                       else now - BitVec.ofNat 64 (elapsed now l.cycleFrom % 100000)
           lookFrom := now }

/-- A reply in progress to a frame of the leader ends as incomplete when the line sticks, and is taken
under R123: a miss with a check error, or a collision. The leader sends nothing after it (R133). -/
def State.cutReply (s : State) (o : Outlet) (f : LeaderFrame) (src : Option Nat) : State :=
  match f with
  | .poll a _ | .enlisted a .accepted => s.miss o a true
  | .rollCall _ | .attentionQuery => s.countCollision o src
  | .enlisted _ .refused | .enlisted _ .duplicate | .slotGrant _ => s

/-- The frame that a sticking line cuts short, taken under R123 in a reply window and under R134 in the
slot (R133). -/
def State.cutFrame (s : State) (o : Outlet) (cut : LineCut) : State :=
  match cut, (s.berth o).sl.activity with
  | .frame src, .window f _ => s.cutReply o f src
  | .frame src, .slot _ => s.onSl o fun l => l.slotError src
  | .frame _, .quiet | .frame _, .sending _ | .nothing, _ => s

/-- LINE_DOMINANT (R133): dominant continuously for 10 ms. -/
def execLineDominant (line : StuckLine) (s : State) : Host.Outcome State Fault Refusal :=
  let o := line.outlet
  let l := (s.berth o).sl
  .next (if l.state = .discovering ∨ l.state = .cycling then
      (((s.cutFrame o line.cut).onSl o fun l => l.stick s.tb.run).raise .linkStuck
        (.outlet o)).settle
    else s)

/-- STUCK_MISS_TICK (R133): a miss of each entry in PRESENT. -/
def execStuckMissTick (o : Outlet) (s : State) : Host.Outcome State Fault Refusal :=
  let l := (s.berth o).sl
  .next (if l.state = .stuck then
      let ticked := s.onSl o fun l => { l with missFrom := s.tb.run }
      (((l.stations.filter fun e => e.state == .present).map Station.address).foldl
        (fun t a => t.miss o a false) ticked).settle
    else s)

/-- STUCK_LOOK (R133): the look that comes each second. -/
def execStuckLook (o : Outlet) (dominant held : Bool) (s : State) :
    Host.Outcome State Fault Refusal :=
  let l := (s.berth o).sl
  .next (if l.state = .stuck then
      let looked := (s.onSl o fun l => { l with lookFrom := s.tb.run }).noteHeld o held
      if dominant then looked
      else if l.stuckInDiscovery then looked.onSl o fun l => l.beginDiscovery s.tb.run
      else looked.onBerth o fun b => b.beginCycle s.tb.run
    else s)

end Sys2Proof.Machine
end

