-- ==== Sys2Proof/Machine/Measurement.lean ====
section
/-! DEFINITION. The measurement unit (MU): the records of the measuring points (R13 to R17), what each
block does with a record, and the commands ZERO_CROSSING, VOLTAGE_ONLY_CADENCE and CYCLE_LAPSE. -/

namespace Sys2Proof

/-! ### P, Q and S of a cycle (R16) -/

/-- The sum over the three phases. -/
def Phases.total {α : Type} (x : Phases α) (f : α → Int) : Int := f x.l1 + f x.l2 + f x.l3

/-- P in watts (R16): the mean over the cycle of the sum of the phases' instantaneous products, truncated
toward zero. DESIGN CHOICE (log entry 24), safe: the mean is that of the instants the command carries, 0
of none. -/
def CyclePower.p (c : CyclePower) : Int :=
  ((c.samples.map fun (x : Phases PhaseSample) => x.total fun y => y.volts * y.amps).sum).tdiv
    (c.samples.length * 1000000)

/-- Q in var (R16): the reactive power of the fundamental, truncated toward zero, positive when the
current lags. -/
def CyclePower.q (c : CyclePower) : Int :=
  (c.fundamental.total fun x => x.vCos * x.iSin - x.vSin * x.iCos).tdiv 1000000

/-- S in volt-amperes (R16): the sum over the phases of RMS voltage times RMS current, truncated; the
record gives it as the magnitude of P where that is greater. -/
def CyclePower.s (c : CyclePower) : Nat :=
  (c.rms.total fun x => (x.volts * x.amps : Nat)).toNat / 1000000

end Sys2Proof

namespace Sys2Proof.Machine

open Sys2Proof

/-! ### Records (R13 to R17) -/

/-- The live threshold of a nominal voltage (R13). -/
def liveThreshold (nominal : Nat) : Nat := nominal / 10

/-- The mean of the three line-to-line values, truncated, before saturation (R14). -/
def meanVolts (v : LineVoltages) : Nat := (v.v12 + v.v23 + v.v31) / 3

/-- The voltage of a phasor record, saturated at 15,000 V (R14, R17). -/
def recordVolts (v : LineVoltages) : Nat := min 15000 (meanVolts v)

/-- A phasor record (R14, R17). -/
def phasor (now : TimeStamp) (cycle : Option CycleFields) (v : LineVoltages) : Phasor :=
  { stamp := now, cycle, voltage := recordVolts v, clipped := v.clipped || decide (15000 < meanVolts v) }

/-- The fields of a cycle of a given period (R14). -/
def cycleFields (period : Nat) : CycleFields := { period, freq := 1000000000 / period }

/-- The latest record of a point is replaced, and the point is live or dead by it (R13, R14). -/
def PointState.hold (p : PointState) (nominal : Nat) (r : Phasor) : PointState :=
  { p with record := some r, live := decide (liveThreshold nominal ≤ r.voltage) }

/-- A voltage-only record: no cycle is in progress and the 20 ms cadence restarts from it (R13). -/
def PointState.voltageOnly (p : PointState) (nominal : Nat) (now : TimeStamp) (v : LineVoltages) :
    PointState :=
  { p.hold nominal (phasor now none v) with cycle := none, cadenceFrom := now.run }

/-- The point after a zero crossing (R13), and whether a record was made. A crossing more than
25,000 µs after the last finds a cycle that has lapsed (log entry 25). -/
def PointState.cross (p : PointState) (nominal : Nat) (now : TimeStamp) (v : LineVoltages) :
    PointState × Bool :=
  let begun : PointState := { p with cycle := if p.live then some now else none }
  match p.cycle with
  | none => (begun, false)
  | some last =>
    let period := elapsed now.run last.run
    if period < 14286 then (p, false)
    else if 25000 < period then (begun, false)
    else if liveThreshold nominal ≤ recordVolts v then
      ({ p.hold nominal (phasor now (some (cycleFields period)) v) with cycle := some now }, true)
    else (p.voltageOnly nominal now v, true)

/-- The angle of a pair record from Δt and TS (R15). -/
def pairAngle (deltaT period : Nat) : Int :=
  let a := deltaT * 3600 / period % 3600
  if a ≤ 1799 then a else (a : Int) - 3600

/-- The pair record of an outlet at the cycle record of Pn just held, if Sn has a cycle in progress
and a cycle record (R15). -/
def Measures.pairRecord (m : Measures) : Option PairRecord :=
  match m.ship.record, m.shore.record, m.shore.cycle with
  | some rp, some rs, some last =>
    match rp.cycle, rs.cycle with
    | some cp, some cs =>
      some { fS := cs.freq, vS := rs.voltage, fP := cp.freq, vP := rp.voltage, period := cp.period
             stamp := rp.stamp, theta := pairAngle (elapsed rp.stamp.run last.run) cs.period }
    | _, _ => none
  | _, _, _ => none

/-- A value brought within ± a bound (R17). -/
def saturate (bound : Nat) (x : Int) : Int := if x < -(bound : Int) then -bound
  else if (bound : Int) < x then bound else x

/-- The outlet power record of a cycle of the reference point (R16, R17). -/
def powerRecord (c : CyclePower) (v : LineVoltages) (period : Nat) (now : TimeStamp) :
    PowerRecord :=
  let p := saturate 25000000 c.p
  { p, q := saturate 30000000 c.q, s := min 30000000 (max c.s p.natAbs), period
    clipped := c.clipped || v.clipped || decide (p ≠ c.p) || decide (saturate 30000000 c.q ≠ c.q)
                 || decide (30000000 < c.s)
    stamp := now }

/-! ### Points of State -/

/-- The state of a measuring point. -/
def State.point (s : State) : MeasPoint → PointState
  | .grid => s.grid.point
  | .shore o => (s.berth o).mu.shore
  | .ship o => (s.berth o).mu.ship

/-- The nominal voltage a point is judged against (R13). -/
def State.nominalAt (s : State) : MeasPoint → Nat
  | .grid => s.grid.nominal
  | .shore o | .ship o => (s.berth o).nominalVolts

/-- State with a measuring point replaced. -/
def State.setPoint (s : State) (pt : MeasPoint) (p : PointState) : State :=
  match pt with
  | .grid => { s with grid := { s.grid with point := p } }
  | .shore o => s.onMu o fun m => { m with shore := p }
  | .ship o => s.onMu o fun m => { m with ship := p }

/-- MEASUREMENT_CLIP for a clipped record of an outlet, once in a session (R17). -/
def State.noteClip (s : State) (o : Outlet) (clipped : Bool) : State :=
  let b := s.berth o
  if clipped && b.sc.session.isSome && !b.mu.clipReported then
    (s.raise .measurementClip (.outlet o)).onMu o fun m => { m with clipReported := true }
  else s

/-! ### What the blocks do with an outlet power record -/

/-- The sum of the P of the outlets' latest power records (R87). -/
def State.importSum (s : State) : Int :=
  (s.berths.toList.map fun b =>
    match b.mu.power with
    | some r => r.p
    | none => 0).foldl (· + ·) 0

/-- The import watch at a power record (R87). -/
def Account.judgeImport (a : Account) (sum : Int) (now : RunCount) : Account :=
  if (a.limit : Int) * 1000 < sum then
    { a with importFrom := if a.importReported then none else some (a.importFrom.getD now) }
  else { a with importFrom := none, importReported := false }

/-- The cap watch and the unloaded condition of an outlet at its power record (R87, R96). DESIGN CHOICE (log
entry 66), unsafe: the record that lets the cap watch run again after an OVER_CAP is one taken in the
breaker-closed states. -/
def Berth.judgeLoad (b : Berth) (capacity : Nat) (r : PowerRecord) (now : RunCount) : Berth :=
  let overCap := decide ((b.claim : Int) * 1000 < r.p)
  let closed := b.sc.state.breakerClosed
  let unloaded := decide (r.p.natAbs ≤ max 50000 (capacity * 20))
  { b with sc := { b.sc with
      capFrom :=
        if closed && overCap && !b.sc.capReported then some (b.sc.capFrom.getD now) else none
      capReported := if closed && !overCap then false else b.sc.capReported
      unloadedFrom :=
        if b.sc.state = .parallelOut then watch b.sc.unloadedFrom unloaded now else none } }

/-- SC takes a power record (R87, R96). -/
def State.scPower (s : State) (o : Outlet) (r : PowerRecord) : State :=
  let summed : State := { s with account := s.account.judgeImport s.importSum s.tb.run }
  summed.onBerth o fun b => b.judgeLoad (s.capacity o) r s.tb.run

/-- MP takes a power record: the watches, a deferred stop, the shares (R36, R37, R40). DESIGN CHOICE (log
entry 58), unsafe: a deferred stop that the record allows begins before the shares are worked out. -/
def State.mpPower (s : State) (o : Outlet) (r : PowerRecord) : State :=
  let judged := s.judgeWatches o r.s
  match judged.stopDue o r.s with
  | some m => (((judged.beginVoluntary o m).shareLoad o r).tidyWatches o).capacityChanged o
  | none => judged.shareLoad o r

/-- PR takes a power record (R110, R113, R114). -/
def State.prPower (s : State) (o : Outlet) (r : PowerRecord) : State :=
  let c := s.capacity o
  let judged := s.onBerth o fun b => (b.countOverload c r).judgeCapacityWatches c s.tb.run
  if (judged.berth o).pr.overload = 10 then judged.complete o .overload else judged

/-- An outlet power record is made (R16): it is kept, and handed to MT, RG, MP, PR and SC. -/
def State.takePower (s : State) (o : Outlet) (r : PowerRecord) : State :=
  let kept := (s.onMu o fun m => { m with power := some r }).noteClip o r.clipped
  let metered := kept.onMt o fun m => m.takePower r
  let looped := metered.onBerth o fun b => b.powerLoop (s.capacity o) r
  ((looped.mpPower o r).prPower o r).scPower o r

/-! ### What the blocks do with a phasor record -/

/-- A pair record is made at a cycle record of Pn, and RG and SY take it (R15, R51, R53, R61). -/
def State.takePair (s : State) (o : Outlet) : State :=
  match (s.berth o).mu.pairRecord with
  | none => s
  | some r =>
    s.onBerth o fun b =>
      let kept := { b with mu := { b.mu with pair := some r } }
      (kept.rgPair r).syPair (s.capacity o) r

/-- A phasor record of G (R115). -/
def State.takeGridRecord (s : State) : State :=
  { s with gridWatch := s.gridWatch.take s.grid.point.live s.tb.run }

/-- SC and SY judge the outlet at a phasor record of Sn or Pn (R74, R90). -/
def State.judgeBuses (s : State) (o : Outlet) : State := (s.tryDeadBus o).judgeEnergising o

/-- A phasor record of Sn just held (R16, R17, R74, R90). -/
def State.takeShoreRecord (s : State) (o : Outlet) (v : LineVoltages) (c : Option CyclePower) :
    State :=
  match (s.berth o).mu.shore.record with
  | none => s
  | some r =>
    let judged := (s.noteClip o r.clipped).judgeBuses o
    match r.cycle, c with
    | some f, some power =>
      if (s.berth o).mu.ship.live then judged
      else judged.takePower o (powerRecord power v f.period s.now)
    | _, _ => judged

/-- PR takes a phasor record of Pn (R111, R112). -/
def State.prShip (s : State) (o : Outlet) (r : Phasor) : State :=
  let judged := s.onBerth o fun b => b.prShipRecord r
  if (judged.berth o).pr.frequency = 10 then judged.complete o .busFrequency else judged

/-- A phasor record of Pn just held (R15 to R17, R73, R74, R90, R111, R112). -/
def State.takeShipRecord (s : State) (o : Outlet) (v : LineVoltages) (c : Option CyclePower) :
    State :=
  match (s.berth o).mu.ship.record with
  | none => s
  | some r =>
    let guarded := (s.noteClip o r.clipped).prShip o r
    let judged := (guarded.onBerth o fun b => b.syShipRecord s.tb.run).judgeBuses o
    match r.cycle, c with
    | some f, some power => (judged.takePair o).takePower o (powerRecord power v f.period s.now)
    | _, _ => judged

/-- The record just held at a point is taken by the blocks. -/
def State.takeRecord (s : State) (pt : MeasPoint) (v : LineVoltages) (c : Option CyclePower) :
    State :=
  match pt with
  | .grid => s.takeGridRecord
  | .shore o => s.takeShoreRecord o v c
  | .ship o => s.takeShipRecord o v c

/-! ### The commands -/

/-- ZERO_CROSSING (R13). -/
def execZeroCrossing (pt : MeasPoint) (v : LineVoltages) (c : CyclePower) (s : State) :
    Host.Outcome State Fault Refusal :=
  let crossed := (s.point pt).cross (s.nominalAt pt) s.now v
  let held := s.setPoint pt crossed.1
  .next (if crossed.2 then (held.takeRecord pt v (some c)).settle else held)

/-- VOLTAGE_ONLY_CADENCE (R13): 20 ms with no cycle in progress. -/
def execVoltageOnlyCadence (pt : MeasPoint) (v : LineVoltages) (s : State) :
    Host.Outcome State Fault Refusal :=
  let p := s.point pt
  .next (if p.cycle.isNone then
      ((s.setPoint pt (p.voltageOnly (s.nominalAt pt) s.now v)).takeRecord pt v none).settle
    else s)

/-- CYCLE_LAPSE (R13): 25,000 µs without a crossing. -/
def execCycleLapse (pt : MeasPoint) (v : LineVoltages) (s : State) :
    Host.Outcome State Fault Refusal :=
  let p := s.point pt
  .next (if p.cycle.isSome then
      ((s.setPoint pt (p.voltageOnly (s.nominalAt pt) s.now v)).takeRecord pt v none).settle
    else s)

end Sys2Proof.Machine
end

