-- ==== Sys2Proof/Machine/Modules.lean ====
section
/-! DEFINITION. The module lines and the timed commands of the module pool (MP, Section 2):
MODULE_REPORT, MODULE_LINE_LOSS, COMMAND_RECORD, START_TIME_EXPIRY, STOP_CURRENT_TIMEOUT,
STOP_TIME_EXPIRY, HOLD_TIME_EXPIRY, GROW_WATCH_COMPLETE and SHRINK_WATCH_COMPLETE. -/

namespace Sys2Proof.Machine

open Sys2Proof

/-! ### Leaving a state (R25, R26, R28, R29, R30) -/

/-- A module that served or was served by the pre-charge unit leaves it: the unit becomes free
(R25, R26, R27). -/
def State.leaveUnit (s : State) (m : ModuleNo) : State :=
  if s.unitServes m then s.freeUnit else s

/-- The outlet of a module that has left it: the change of capacity if it was RUNNING, the need
judged again, the session closed if this was what WIND_DOWN waited for, then arbitration. -/
def State.moduleLeft (s : State) (outlet : Option Outlet) (wasRunning : Bool) : State :=
  match outlet with
  | none => s.arbitrate
  | some o =>
    let judged := if wasRunning then s.capacityChanged o else s.servePool o
    (judged.tryClose o).arbitrate

/-- A REPLACE condition arises at an outlet one of whose modules has left RUNNING for FAULTED (R32),
judged at the fault alone: where a STARTING module keeps the prospective capacity at the target, none
arises, also if that start then fails (DESIGN CHOICE, log entry 50). -/
def State.ariseReplace (s : State) (o : Outlet) : State :=
  if (s.berth o).sc.state.requests ∧ s.prospective o < (s.berth o).sc.target then
    s.onMp o fun p => { p with replaceArisen := true }
  else s

/-- A module in IDLE, RUNNING, HELD or STOPPING enters FAULTED, or a stop times out (R28, R29). -/
def State.moduleFaulted (s : State) (m : ModuleNo) (code : Option Nat) : State :=
  let r := s.module m
  let running := r.state == .running
  let faulted := ((s.changeModule m fun x => x.toFaulted code).raise .moduleFault (.module m)
    code).leaveUnit m
  let arisen :=
    match running, r.outlet with
    | true, some o => faulted.ariseReplace o
    | _, _ => faulted
  arisen.moduleLeft r.outlet running

/-- DEDUCED (log entry 32), unsafe. An outlet still needs the module that a failed start was to give it
(R26). -/
def State.stillNeeds (s : State) (o : Outlet) (cls : RequestClass) : Bool :=
  let b := s.berth o
  let short := decide (s.prospective o < b.sc.target)
  b.sc.state.requests && decide (s.assigned o < 8)
    && match cls with
       | .grow => true
       | .replace => short
       | .energise => short && (b.mp.needClass b.sc.state).isSome

/-- The earlier of two arrival times (R26). -/
def TimeStamp.earlier (now : RunCount) (a b : TimeStamp) : TimeStamp :=
  if elapsed now a.run < elapsed now b.run then b else a

/-- A failed start's request returns to the list, merged with an entry the outlet has (R26). -/
def OutletPool.giveBack (p : OutletPool) (cls : RequestClass) (arrival : TimeStamp)
    (now : RunCount) : OutletPool :=
  let entry :=
    match p.entry with
    | none => { cls, arrival }
    | some e => { cls := e.cls.higher cls, arrival := TimeStamp.earlier now e.arrival arrival }
  { p with entry := some entry, replaceArisen := p.replaceArisen || entry.cls == .replace }

/-- A start fails (R26). -/
def State.startFailed (s : State) (m : ModuleNo) (code : Option Nat) : State :=
  match s.pool.unit with
  | none => s
  | some u =>
    if u.module = m ∧ (s.module m).state = .starting then
      let failed := ((s.changeModule m fun x => x.toFaulted code).raise .moduleStartFail (.module m)
        code).freeUnit
      let returned :=
        if failed.stillNeeds u.outlet u.cls then
          failed.onMp u.outlet fun p => p.giveBack u.cls u.arrival s.tb.run
        else failed
      returned.servePool u.outlet
    else s

/-- A start completes (R25). -/
def State.startComplete (s : State) (m : ModuleNo) : State :=
  let started := (s.changeModule m fun x => { x with state := .running, precharged := false
                                                     busForming := false }).leaveUnit m
  match (s.module m).outlet with
  | some o => (started.capacityChanged o).arbitrate
  | none => started.arbitrate

/-- A stop ends in IDLE (R27, R28). -/
def State.stopComplete (s : State) (m : ModuleNo) : State :=
  ((s.changeModule m Module.toIdle).leaveUnit m).moduleLeft (s.module m).outlet false

/-- A FAULTED module recovers (R30). -/
def State.recover (s : State) (m : ModuleNo) : State :=
  if (s.module m).faultCount < 3 then (s.changeModule m Module.toIdle).arbitrate
  else (s.changeModule m fun x => { x with state := .lockedOut }).raise .moduleLockout (.module m)

/-! ### Reports (R21) -/

/-- The report's readings are copied into the record (R21, R22). -/
def Module.copyReport (m : Module) (r : ModuleReport) (now : RunCount) : Module :=
  { m with power := some r.power, band := r.band, reportAt := now, lineLost := false }

/-- A module's rated current at an outlet, in amperes (R28). -/
def ratedCurrent (rating nominalVolts : Nat) : Nat := rating * 1000000 / (1732 * nominalVolts)

/-- The current of a stopping module has fallen below a twentieth of its rated current (R28). -/
def State.currentFallen (s : State) (m : Module) (current : Nat) : Bool :=
  match m.rating, m.outlet with
  | some r, some o => decide (current * 20 < ratedCurrent r (s.berth o).nominalVolts)
  | _, _ => false

/-- STOP, NORMAL is commanded of a STOPPING module, and its stop time begins (R28). -/
def Module.commandStop (m : Module) (now : RunCount) : Module :=
  { m with stop := m.stop.map fun p => { p with normalFrom := some (p.normalFrom.getD now) } }

/-- The stop time of a STOPPING module runs (R28). -/
def Module.stopTimeRuns (m : Module) : Bool :=
  match m.stop with
  | some p => p.normalFrom.isSome
  | none => false

/-- The stop of a STOPPING module is of a start ended under R27. -/
def Module.endedStart (m : Module) : Bool :=
  match m.stop with
  | some p => p.endedStart
  | none => false

/-- An expected report of a STOPPING module (R21, R28). -/
def State.stoppingReport (s : State) (m : ModuleNo) (r : ModuleReport) : State :=
  let x := s.module m
  if x.stopTimeRuns then
    (if r.state = .stopped ∧ r.code = none then s.stopComplete m else s)
  else if s.currentFallen x r.current then s.onModule m fun y => y.commandStop s.tb.run
  else s

/-- A report's state judged against the module's (the table of R21). DESIGN CHOICE (log entry 33), unsafe: a
FAULT report taken in FAULTED or LOCKED_OUT leaves the last fault code as the entry to FAULTED left it. -/
def State.judgeReport (s : State) (m : ModuleNo) (r : ModuleReport) : State :=
  let x := s.module m
  match x.state, r.state with
  | .offline, _ | .lockedOut, _ => s
  | .faulted, .stopped => if r.code = none then s.recover m else s
  | .faulted, _ => s
  | .starting, .fault => s.startFailed m r.code
  | .starting, .stopped | .starting, .precharging => s
  | .starting, .precharged => s.onModule m fun y => { y with precharged := true }
  | .starting, .running => if x.precharged then s.startComplete m else s.startFailed m none
  | .stopping, .running | .stopping, .stopped => s.stoppingReport m r
  | .stopping, .precharging | .stopping, .precharged =>
    if x.endedStart then s.stoppingReport m r else s.moduleFaulted m none
  | .idle, .stopped | .running, .running | .held, .running => s
  | _, .fault => s.moduleFaulted m r.code
  | _, _ => s.moduleFaulted m none

/-- A change of the effective rating of a module in a state at an outlet: of a RUNNING one it changes the
outlet's capacity (R23), of a STARTING one its prospective capacity alone, at which MP judges the need
(R32, R33). -/
def State.ratingChanged (s : State) (st : ModuleState) (o : Outlet) : State :=
  match st with
  | .running => s.capacityChanged o
  | .starting => s.servePool o
  | .offline | .idle | .held | .stopping | .faulted | .lockedOut => s

/-- MP copies a report into the record; a change of the module's effective rating is taken at its outlet
(R21, R23). -/
def State.copyReport (s : State) (m : ModuleNo) (r : ModuleReport) : State :=
  let x := s.module m
  let copied := s.onModule m fun y => y.copyReport r s.tb.run
  match x.outlet with
  | some o =>
    if (copied.module m).effective = x.effective then copied else copied.ratingChanged x.state o
  | none => copied

/-! ### Command records (R20) -/

/-- The command record that Table 2-3 gives a module; `refs` are the references of its outlet for a
share target. -/
def Module.commandRecord (m : Module) (refs : Int → Option References) : Option CommandRecord :=
  match m.state, m.outlet with
  | .offline, _ => none
  | .idle, _ => some { command := .stopNormal, refs := none }
  | .starting, some o =>
    if m.precharged then some { command := .run, refs := refs m.shareTarget }
    else some { command := .prechargeTo o m.busForming, refs := none }
  | .running, _ => some { command := .run, refs := refs m.shareTarget }
  | .held, _ => some { command := .run, refs := none }
  | .stopping, _ =>
    if m.stopTimeRuns then some { command := .stopNormal, refs := none }
    else some { command := .run, refs := refs 0 }
  | .faulted, _ | .lockedOut, _ => some { command := .stopForced, refs := none }
  | .starting, none => none

/-- The references that a module's outlet sends it for a share target (R57). -/
def State.referencesFor (s : State) (m : Module) (shareTarget : Int) : Option References :=
  match m.outlet with
  | some o => (s.berth o).rg.references shareTarget m.trim
  | none => none

/-- MP sends a module its command record (R20). -/
def State.sendCommand (s : State) (m : ModuleNo) : State :=
  match (s.module m).commandRecord (s.referencesFor (s.module m)) with
  | some c => s.onModule m fun x => { x with sent := some c }
  | none => s

/-! ### The commands -/

/-- MODULE_REPORT (R21): taken from a declared module. -/
def execModuleReport (m : ModuleNo) (r : ModuleReport) (s : State) :
    Host.Outcome State Fault Refusal :=
  .next (if (s.module m).state = .offline then s else ((s.copyReport m r).judgeReport m r).settle)

/-- MODULE_LINE_LOSS (R22): once for each loss. -/
def execModuleLineLoss (m : ModuleNo) (s : State) : Host.Outcome State Fault Refusal :=
  let x := s.module m
  .next (if x.state = .offline ∨ x.lineLost then s
    else
      let lost := (s.raise .moduleLinkLost (.module m)).onModule m fun y => { y with lineLost := true }
      match x.state with
      | .starting => (lost.startFailed m none).settle
      | .idle | .running | .held | .stopping => (lost.moduleFaulted m none).settle
      | .offline | .faulted | .lockedOut => lost)

/-- COMMAND_RECORD (R20): every declared module is sent its record of the millisecond. -/
def execCommandRecord (s : State) : Host.Outcome State Fault Refusal :=
  let sent := ModuleNo.all.foldl State.sendCommand s
  .next { sent with pool := { sent.pool with commandFrom := s.tb.run } }

/-- START_TIME_EXPIRY (R26). -/
def execStartTimeExpiry (s : State) : Host.Outcome State Fault Refusal :=
  .next (match s.pool.unit with
    | some u => (s.startFailed u.module none).settle
    | none => s)

/-- STOP_CURRENT_TIMEOUT (R28): the current has not fallen far enough in 5 s. -/
def execStopCurrentTimeout (m : ModuleNo) (s : State) : Host.Outcome State Fault Refusal :=
  .next (if (s.module m).state = .stopping then s.onModule m fun x => x.commandStop s.tb.run else s)

/-- STOP_TIME_EXPIRY (R27, R28): the 1 s stop time has expired. -/
def execStopTimeExpiry (m : ModuleNo) (s : State) : Host.Outcome State Fault Refusal :=
  .next (if (s.module m).state = .stopping ∧ (s.module m).stopTimeRuns then
      (s.moduleFaulted m none).settle
    else s)

/-- HOLD_TIME_EXPIRY (R39). -/
def execHoldTimeExpiry (o : Outlet) (s : State) : Host.Outcome State Fault Refusal :=
  let b := s.berth o
  .next (if b.mp.hold.isSome ∧ b.sc.state = .tripped then
      ((s.stopModules o [.held]).onMp o fun p => { p with hold := none }).settle
    else s)

/-- GROW_WATCH_COMPLETE (R36): the outlet raises GROW. -/
def execGrowWatchComplete (o : Outlet) (s : State) : Host.Outcome State Fault Refusal :=
  .next (if (s.berth o).mp.growFrom.isSome ∧ s.growAllowed o then
      ((s.onMp o fun p =>
        { p with growFrom := none }.request .grow s.now).servePool o).settle
    else s)

/-- MP selects a module for a voluntary stop, which begins only at a power record that allows it (R37,
State.mpPower). -/
def State.selectShrink (s : State) (o : Outlet) (m : ModuleNo) : State :=
  s.onMp o fun p => { p with shrinkFrom := none, voluntary := some { module := m, begun := false } }

/-- SHRINK_WATCH_COMPLETE (R37): the watch has run for 60 s, and a module is selected. -/
def execShrinkWatchComplete (o : Outlet) (s : State) : Host.Outcome State Fault Refusal :=
  .next (if (s.berth o).mp.shrinkFrom.isSome then
      (match s.shrinkChoice o with
        | some m => s.selectShrink o m
        | none => s.onMp o fun p => { p with shrinkFrom := none })
    else s)

end Sys2Proof.Machine
end

