-- ==== Sys2Proof/Machine/Formats.lean ====
section
/-! DEFINITION. The byte layouts of replies and records (Section 11): fields high byte first (R183),
the results whose layout no table gives (R185, log entry 9), the billing and event records (R187)
and the shore state record (R186). -/

namespace Sys2Proof.Machine

open Sys2Proof

/-! ### Fields (R183) -/

/-- The `width` low bytes of a number, high byte first. -/
def beDigits : Nat → Nat → List Byte
  | 0, _ => []
  | w + 1, v => BitVec.ofNat 8 (v / 256 ^ w) :: beDigits w (v % 256 ^ w)

/-- An unsigned field; the bytes of a number beyond its width are free (log entry 8). -/
def unsigned (width value : Nat) : List Byte :=
  if value < 256 ^ width then beDigits width value
  else (Config.unencodable width value).toList

/-- A signed field in two's complement; the bytes of a number beyond its width are free (log
entry 8). -/
def signed (width : Nat) (value : Int) : List Byte :=
  if -((256 ^ width / 2 : Nat) : Int) ≤ value ∧ value < ((256 ^ width / 2 : Nat) : Int) then
    beDigits width (value % (256 ^ width : Nat)).toNat
  else (Config.unencodable width value).toList

/-- A value of two states in one byte (R185). -/
def flagByte (b : Bool) : List Byte := unsigned 1 b.toNat

/-- The number whose bits, from bit 0, are those of a list. -/
def bitsValue : List Bool → Nat
  | [] => 0
  | b :: rest => b.toNat + 2 * bitsValue rest

/-- A presence byte (R185). -/
def presence (bits : List Bool) : List Byte := unsigned 1 (bitsValue bits)

/-- The bytes of an optional field: those of a value that stands for an absent one are all 0
(R183). -/
def ifThere {α : Type} (width : Nat) (a : Option α) (f : α → List Byte) : List Byte :=
  match a with
  | some x => f x
  | none => List.replicate width 0

/-- The time of day of a time stamp: seconds, then milliseconds (Table 11-1). -/
def timeBytes (t : TimeStamp) : List Byte := unsigned 4 t.seconds.toNat ++ unsigned 2 (t.micros / 1000)

/-! ### Codes of sets that no table codes: positions from 0 (R185) -/

/-- Table 1-1. -/
def TbState.code : TbState → Nat
  | .irc => 0 | .qualifying => 1 | .xo => 2 | .xoFailed => 3

/-- The table of R9. -/
def PpsState.code : PpsState → Nat
  | .off => 0 | .waiting => 1 | .locked => 2 | .lost => 3

/-- Table 2-2. -/
def ModuleState.code : ModuleState → Nat
  | .offline => 0 | .idle => 1 | .starting => 2 | .running => 3 | .held => 4 | .stopping => 5
  | .faulted => 6 | .lockedOut => 7

/-- Table 2-1. -/
def tempBandCode : TempBand → Nat
  | .normal => 0 | .warm => 1 | .hot => 2

/-- The table of R32. -/
def RequestClass.code : RequestClass → Nat
  | .replace => 0 | .energise => 1 | .grow => 2

/-- Table 3-1. -/
def RgMode.code : RgMode → Nat
  | .off => 0 | .free => 1 | .track => 2 | .power => 3 | .island => 4

/-- Table 4-1. -/
def CloseState.code : CloseState → Nat
  | .watching => 0 | .scheduled _ => 1 | .inFlight => 2

/-- Table 4-3. -/
def CloseKind.code : CloseKind → Nat
  | .synchronised => 0 | .deadBus => 1

/-- Table 4-3. -/
def CloseOutcome.code : CloseOutcome → Nat
  | .inFlight => 0 | .confirmed => 1 | .failed => 2 | .late => 3 | .ended => 4

/-- Table 7-1. -/
def LinkState.code : LinkState → Nat
  | .unpowered => 0 | .waking => 1 | .discovering => 2 | .cycling => 3 | .stuck => 4

/-- The station kinds' codes (R186). -/
def StationKind.code : StationKind → Nat
  | .scp => 1 | .pms => 2 | .aux => 3

/-- Table 7-3. -/
def StationState.code : StationState → Nat
  | .present => 0 | .lost => 1 | .duplicate => 2

/-- The breaker states' codes (R186), UNKNOWN after them. -/
def GenReading.code : GenReading → Nat
  | .opened => 0 | .closed => 1 | .unknown => 2

/-- The rounding modes' codes (R184). -/
def Rounding.code : Rounding → Nat
  | .truncate => 0 | .round => 1

/-- The link wake's codes (R184). -/
def LinkWake.code : LinkWake → Nat
  | .normal => 0 | .fast => 1

/-! ### Station results -/

/-- The station settings in the order of R184. -/
def stationSettings (s : State) : List Byte :=
  flagByte s.tb.xoUse ++ flagByte s.tb.ppsUse ++ signed 2 s.tb.offset
    ++ unsigned 2 s.grid.nominal ++ unsigned 2 s.pool.tripHold ++ unsigned 1 s.account.headroom
    ++ unsigned 1 s.metering.length ++ unsigned 1 s.metering.rounding.code

/-- The selected link speed in bit/s (R171). -/
def SupervisoryLink.bitRate (l : SupervisoryLink) : Nat := if l.highSpeed then 460800 else 115200

/-- The results of READ_STATION (R176). The selected link speed is a number that Table 11-1 does not cover, and
4 bytes are the fewest that hold it (R185; DEDUCED, log entry 64). -/
def stationResults (s : State) : List Byte :=
  stationSettings s
    ++ unsigned 2 s.account.limit ++ signed 4 s.claims ++ signed 4 s.remaining
    ++ unsigned 4 s.account.sessionCounter
    ++ presence [s.gridWatch.since.isSome]
    ++ ifThere 8 s.gridWatch.since (fun r => unsigned 8 r.toNat) ++ flagByte s.gridWatch.standing
    ++ unsigned 1 s.freeEntries ++ unsigned 1 s.spare.toNat ++ unsigned 1 s.openSessions
    ++ unsigned 4 s.metering.sequence
    ++ unsigned 4 s.svl.bitRate
    ++ unsigned 2 s.svl.crcErrors ++ unsigned 2 s.svl.discards ++ unsigned 2 s.svl.overruns

/-- The results of READ_TIME (R12, R176). -/
def timeResults (s : State) : List Byte :=
  timeBytes s.now ++ flagByte s.tb.timeUnset ++ unsigned 1 s.tb.state.code
    ++ unsigned 1 s.tb.pps.code ++ unsigned 1 s.tb.quality.code ++ signed 2 s.tb.offset
    ++ unsigned 2 (localMinute s.tb.seconds s.tb.offset) ++ unsigned 8 s.tb.run.toNat

/-- L, the sum of claims and the remaining budget (R176). -/
def budgetResults (s : State) : List Byte :=
  unsigned 2 s.account.limit ++ signed 4 s.claims ++ signed 4 s.remaining

/-! ### Module results -/

/-- A module record (Table 2-1). -/
def moduleRecord (m : ModuleNo) (r : Module) : List Byte :=
  presence [r.rating.isSome, r.outlet.isSome, r.faultCode.isSome, r.power.isSome]
    ++ unsigned 1 m.number ++ ifThere 2 r.rating (unsigned 2) ++ unsigned 1 r.state.code
    ++ ifThere 1 r.outlet (fun o => unsigned 1 o.number) ++ unsigned 1 (tempBandCode r.band)
    ++ unsigned 2 r.effective ++ unsigned 1 r.faultCount ++ ifThere 1 r.faultCode (unsigned 1)
    ++ signed 2 r.trim ++ ifThere 2 r.power (signed 2)

/-- The entries of the pending list, after their count. -/
def pendingEntries (s : State) : List Byte :=
  let held := Outlet.all.filterMap fun o => ((s.berth o).mp.entry).map fun e => (o, e)
  unsigned 1 held.length ++ held.flatMap fun (o, e) =>
    unsigned 1 o.number ++ unsigned 1 e.cls.code ++ timeBytes e.arrival

/-- The pre-charge unit's state with, while serving, its module and outlet and the time the start
has run, in milliseconds (R177). DESIGN CHOICE (log entry 76), unsafe: of a start that R27 has ended the time
runs on from its beginning for as long as the unit serves it. DESIGN CHOICE (log entry 80), unsafe: it is
truncated to whole milliseconds. -/
def unitState (s : State) : List Byte :=
  let u := s.pool.unit
  presence [u.isSome, u.isSome, u.isSome] ++ flagByte u.isSome
    ++ ifThere 1 u (fun x => unsigned 1 x.module.number)
    ++ ifThere 1 u (fun x => unsigned 1 x.outlet.number)
    ++ ifThere 4 u (fun x => unsigned 4 (elapsed s.tb.run x.since / 1000))

/-- The results of READ_MODULES (R177). DESIGN CHOICE (log entry 69), unsafe: the twelve module records carry
no count byte. -/
def modulesResults (s : State) : List Byte :=
  (ModuleNo.all.flatMap fun m => moduleRecord m (s.module m)) ++ pendingEntries s ++ unitState s

/-! ### Outlet results -/

/-- The settings of an outlet in the order of R184. -/
def outletSettings (b : Berth) : List Byte :=
  let c := b.sc.settings
  let y := b.sy.settings
  unsigned 2 c.nominalVolts ++ unsigned 2 c.cableRating ++ unsigned 1 c.linkWake.code
    ++ unsigned 2 c.energiseTimeout ++ unsigned 2 c.rampRate ++ unsigned 2 c.rampInLimit
    ++ unsigned 1 b.rg.gain ++ unsigned 1 y.smin ++ unsigned 2 y.smax ++ unsigned 1 y.dVpct
    ++ unsigned 2 b.sy.tc ++ flagByte y.adapt ++ unsigned 2 y.syncTimeout
    ++ unsigned 1 b.pr.tripPct

/-- A declaration in 14 bytes (R186). -/
def declarationBytes (d : Declaration) : List Byte :=
  unsigned 4 d.hull ++ unsigned 1 d.hertz ++ unsigned 2 d.volts ++ unsigned 2 d.kw
    ++ unsigned 2 d.kva ++ unsigned 1 d.generators ++ unsigned 1 d.mode ++ unsigned 1 d.cables

/-- The session fields (Table 5-2). -/
def sessionBytes (x : Session) : List Byte :=
  unsigned 4 x.number ++ unsigned 4 x.hull ++ unsigned 1 x.plan ++ unsigned 2 x.claim
    ++ timeBytes x.opened

/-- The outlet record (Table 5-1), with the close attempt count and the capacity that READ_OUTLET
reports with it (R77). DESIGN CHOICE (log entry 60), unsafe: the waiting-since time is optional, the
last of the presence bits. -/
def outletRecord (s : State) (o : Outlet) : List Byte :=
  let r := (s.berth o).sc
  presence [r.waiting.isSome, r.denial.isSome, r.declaration.isSome, r.session.isSome,
      r.firstCause.isSome, r.waitingSince.isSome]
    ++ unsigned 1 r.state.code ++ ifThere 1 r.waiting (fun w => unsigned 1 w.code)
    ++ ifThere 1 r.denial (fun w => unsigned 1 w.code) ++ ifThere 14 r.declaration declarationBytes
    ++ ifThere 17 r.session sessionBytes ++ unsigned 2 r.target
    ++ ifThere 1 r.firstCause (fun c => unsigned 1 c.fault.code) ++ flagByte r.endRequested
    ++ flagByte r.returnAwaited ++ flagByte r.openDrive ++ ifThere 6 r.waitingSince timeBytes
    ++ timeBytes r.entered ++ unsigned 1 (s.berth o).sy.attempts ++ unsigned 2 (s.capacity o)

/-- The reference generator's state (R58). -/
def referenceState (g : RefGen) : List Byte :=
  unsigned 1 g.mode.code ++ unsigned 4 (g.freqNow / 1000) ++ unsigned 4 g.freqTarget
    ++ unsigned 2 (g.voltNow / 1000) ++ unsigned 2 g.voltTarget ++ unsigned 2 g.pSet
    ++ signed 4 g.delta ++ signed 1 g.islandTrim ++ unsigned 1 g.gain ++ flagByte g.holding
    ++ flagByte g.clamped

/-- The close record (Table 4-3); the measured time is a duration, 4 bytes (R185). -/
def closeRecordBytes (c : CloseRecord) : List Byte :=
  presence [c.theta.isSome, c.slip.isSome, c.toGo.isSome, c.measured.isSome, c.angleError.isSome]
    ++ unsigned 1 c.kind.code ++ timeBytes c.command ++ unsigned 8 c.command.run.toNat
    ++ ifThere 2 c.theta (signed 2) ++ ifThere 4 c.slip (unsigned 4) ++ ifThere 2 c.toGo (unsigned 2)
    ++ unsigned 2 c.tc ++ unsigned 1 c.outcome.code ++ ifThere 4 c.measured (unsigned 4)
    ++ ifThere 2 c.angleError (signed 2) ++ unsigned 1 c.attempt

/-- The synchroniser's state as R72 names it, in the order of the rows of Table 4-1 (R185). DEDUCED (log entry
63): the time remaining to the due instant, in milliseconds, stands for the row of the schedule. DESIGN
CHOICE (log entry 80), unsafe: it is truncated to whole milliseconds. -/
def synchroniserState (s : State) (y : Synchroniser) : List Byte :=
  let due : Option RunCount :=
    match y.close with
    | .scheduled plan => some plan.due
    | _ => none
  presence [due.isSome, y.record.isSome] ++ unsigned 1 y.close.code
    ++ ifThere 4 due (fun d => unsigned 4 (elapsed d s.tb.run / 1000)) ++ unsigned 2 y.tc
    ++ unsigned 1 y.attempts ++ flagByte y.openDrive ++ ifThere 34 y.record closeRecordBytes
    ++ unsigned 1 y.settings.smin ++ unsigned 2 y.settings.smax ++ unsigned 1 y.settings.dVpct ++ flagByte y.settings.adapt
    ++ unsigned 2 y.settings.syncTimeout

/-- The protection state (R104), with each persisting condition of R118. -/
def protectionState (s : State) (o : Outlet) : List Byte :=
  let b := s.berth o
  unsigned 1 b.pr.tripPct ++ unsigned 1 b.pr.overload ++ unsigned 1 b.pr.frequency
    ++ flagByte b.pr.voltageFrom.isSome ++ flagByte b.pr.capacityFrom.isSome
    ++ flagByte b.pr.reverseFrom.isSome ++ flagByte b.pr.openDrive
    ++ flagByte b.pr.postTripFrom.isSome
    ++ flagByte (!b.lines.pilotClosed) ++ flagByte b.sl.stopShown ++ flagByte (!b.sl.scpPresent)
    ++ flagByte (!s.grid.point.live)

/-- The latest outlet power record (R16); its period is a duration, 4 bytes (R185). -/
def powerBytes (r : PowerRecord) : List Byte :=
  signed 4 r.p ++ signed 4 r.q ++ unsigned 4 r.s ++ unsigned 4 r.period ++ flagByte r.clipped
    ++ timeBytes r.stamp

/-- The latest pair record (R15); its period is a duration, 4 bytes (R185). -/
def pairBytes (r : PairRecord) : List Byte :=
  unsigned 4 r.fS ++ unsigned 2 r.vS ++ unsigned 4 r.fP ++ unsigned 2 r.vP ++ unsigned 4 r.period
    ++ timeBytes r.stamp ++ signed 2 r.theta

/-- The results of READ_OUTLET (R179). -/
def outletResults (s : State) (o : Outlet) : List Byte :=
  let b := s.berth o
  outletRecord s o ++ referenceState b.rg ++ synchroniserState s b.sy ++ protectionState s o
    ++ outletSettings b ++ presence [b.mu.power.isSome] ++ ifThere 23 b.mu.power powerBytes
    ++ presence [b.mu.pair.isSome] ++ ifThere 24 b.mu.pair pairBytes

/-- A place of the authorisation table: bit 0 of the presence byte is the entry, bit 1 its expiry. -/
def authPlace (e : Option AuthEntry) : List Byte :=
  presence [e.isSome, (e.bind AuthEntry.expiry).isSome]
    ++ ifThere 4 e (fun x => unsigned 4 x.hull)
    ++ ifThere 1 e (fun x =>
        match x.outlet with
        | .any => unsigned 1 0
        | .outlet o => unsigned 1 o.number)
    ++ ifThere 1 e (fun x => unsigned 1 x.plan)
    ++ ifThere 4 (e.bind AuthEntry.expiry) (unsigned 4)

/-! ### Ship link results (R139) -/

/-- The last status of a station entry (Table 7-3). DESIGN CHOICE (log entry 79), unsafe: in the layout of the
STATUS payload of R186, always its 15 bytes, those of an absent declaration 0. -/
def shipStatusBytes (st : ShipStatus) : List Byte :=
  unsigned 1 (bitsValue [st.stop, st.connect, st.cancel, st.ret, st.declaration.isSome])
    ++ ifThere 14 st.declaration declarationBytes

/-- A station entry (Table 7-3). -/
def stationEntry (e : Station) : List Byte :=
  presence [e.kind.isSome, e.identity.isSome, e.status.isSome, e.lastPoll.isSome]
    ++ unsigned 1 e.address ++ ifThere 1 e.kind (fun k => unsigned 1 k.code)
    ++ ifThere 4 e.identity (fun i => unsigned 4 i.toNat) ++ unsigned 1 e.state.code
    ++ unsigned 1 e.misses ++ unsigned 1 e.checkErrors ++ ifThere 15 e.status shipStatusBytes
    ++ ifThere 8 e.lastPoll (fun r => unsigned 8 r.toNat)

/-- The time since a station's last poll, in milliseconds; the presence bit of its last poll time stands
for it too. DESIGN CHOICE (log entry 80), unsafe: it is truncated to whole milliseconds. -/
def sincePoll (s : State) (e : Station) : List Byte :=
  ifThere 4 e.lastPoll fun r => unsigned 4 (elapsed s.tb.run r / 1000)

/-- The results of READ_STATIONS (R139) with the attention pair at a level: the entries, then the time
since each one's last poll. DESIGN CHOICE (log entry 70), unsafe: the collision address is an optional field,
its presence byte before the collision count. DESIGN CHOICE (log entry 81), unsafe: those times have no count
byte of their own. -/
def stationsResults (s : State) (o : Outlet) (held : Bool) : List Byte :=
  let l := (s.berth o).sl
  unsigned 1 l.state.code ++ flagByte held ++ presence [l.collisionAddress.isSome]
    ++ unsigned 1 l.collisions ++ ifThere 1 l.collisionAddress (unsigned 1)
    ++ unsigned 1 l.stations.length ++ l.stations.flatMap stationEntry
    ++ l.stations.flatMap (sincePoll s)

/-- The results of READ_GENERATORS (R139), an entry in the order of the rows of Table 7-4 (R185). DEDUCED (log
entry 63): the time since its update time, in milliseconds, stands for the row of the update time. DESIGN
CHOICE (log entry 80), unsafe: it is truncated to whole milliseconds. -/
def generatorsResults (s : State) (o : Outlet) : List Byte :=
  let l := (s.berth o).sl
  unsigned 1 l.generators.length ++ l.generators.flatMap fun g =>
    unsigned 1 g.number ++ unsigned 1 g.breaker.code ++ unsigned 2 g.kw
      ++ unsigned 4 (elapsed s.tb.run g.updated / 1000) ++ unsigned 1 g.reading.code

/-- The shore state record in the POLL payload (R186). -/
def ShoreState.bytes (r : ShoreState) : List Byte :=
  unsigned 1 r.state.code
    ++ unsigned 1 (bitsValue [r.reason.isSome, r.prepareReturn, r.deny])
    ++ ifThere 1 r.reason (fun x =>
        match x with
        | .inl w => unsigned 1 w.code
        | .inr d => unsigned 1 d.code)
    ++ flagByte r.breakerClosed ++ unsigned 2 r.pSet

/-- The code of an outcome of ENLISTED (R186). -/
def Enlistment.code : Enlistment → Nat
  | .accepted => 1 | .refused => 2 | .duplicate => 3

/-- Destination, kind and payload of a frame the leader sends (R186). -/
def LeaderFrame.parts : LeaderFrame → Nat × Nat × List Byte
  | .rollCall mark => (0, 1, flagByte mark)
  | .enlisted a outcome => (a, 2, unsigned 1 outcome.code)
  | .attentionQuery => (0, 3, [])
  | .poll a shore => (a, 5, ifThere 0 shore ShoreState.bytes)
  | .slotGrant a => (a, 7, [])

/-- The bytes of a frame the leader sends (R121, R122, R186): its source is the leader's address 31, and
its check is computed. -/
def LeaderFrame.bytes (f : LeaderFrame) : List Byte :=
  shipLinkFrame (BitVec.ofNat 8 f.parts.1) 31 (BitVec.ofNat 8 f.parts.2.1) f.parts.2.2

/-- The bytes of a reply's frame (R184): the reply's kind is the request's with the top bit set already,
and its payload begins with the status. -/
def Reply.frame (r : Reply) : List Byte := supervisoryFrame r.kind r.tag r.payload

/-! ### Metering results (R157, R187) -/

/-- The energies of a session meter (R157), in the order of the rows of Table 8-1, each "import and export"
(R185; DEDUCED, log entry 65). -/
def energyBytes (imported exported : Energy) : List Byte :=
  unsigned 16 imported.accumulator ++ unsigned 16 exported.accumulator
    ++ signed 16 imported.residual ++ signed 16 exported.residual
    ++ unsigned 16 imported.total ++ unsigned 16 exported.total
    ++ unsigned 8 imported.billed ++ unsigned 8 exported.billed

/-- The session meter and the open interval (R157); the start time carries its run count (Table 8-2,
R185). The session's elapsed time is truncated to whole seconds (DESIGN CHOICE, log entry 57: R157 names
no rounding). DESIGN CHOICE (log entry 73), unsafe: the flags are sent in the 2-byte word of R187. -/
def meterBytes (s : State) (m : Meter) : List Byte :=
  unsigned 4 m.session ++ unsigned 4 m.hull ++ unsigned 1 m.plan
    ++ energyBytes m.imported m.exported ++ unsigned 2 m.closes ++ unsigned 2 m.trips
    ++ flagByte m.gapFrom.isSome ++ timeBytes m.interval.start
    ++ unsigned 8 m.interval.start.run.toNat ++ unsigned 1 m.interval.band
    ++ unsigned 1 m.interval.worst.code ++ unsigned 4 m.interval.gapMillis
    ++ unsigned 2 m.interval.flags.word ++ unsigned 4 (elapsed s.tb.run m.opened / 1000000)

/-- A billing interval record (R187): 50 bytes, or 78 with its session part. -/
def billingBytes (r : BillingRecord) : List Byte :=
  unsigned 4 r.sequence ++ unsigned 4 r.session ++ unsigned 1 r.outlet.number ++ unsigned 1 r.plan
    ++ unsigned 4 r.hull ++ timeBytes r.start ++ unsigned 4 r.duration ++ unsigned 1 r.band
    ++ unsigned 1 r.quality.code ++ unsigned 2 r.flags.word ++ unsigned 1 r.reason.code
    ++ flagByte r.part.isSome ++ unsigned 8 r.importWh ++ unsigned 8 r.exportWh
    ++ unsigned 4 r.gapSeconds
    ++ ifThere 0 r.part (fun p =>
        unsigned 8 p.importWh ++ unsigned 8 p.exportWh ++ unsigned 4 p.duration
          ++ unsigned 2 p.closes ++ unsigned 2 p.trips ++ signed 2 p.unbilledImport
          ++ signed 2 p.unbilledExport)

/-! ### Fault and event results (R166, R167, R187) -/

/-- An event record (R187). -/
def eventBytes (e : EventRecord) : List Byte :=
  unsigned 1 e.kind.code ++ unsigned 1 e.source.code ++ unsigned 4 e.seconds.toNat
    ++ unsigned 2 e.millis ++ unsigned 1 (bitsValue [e.detail.isSome, e.lost])
    ++ ifThere 4 e.detail (unsigned 4)

/-- The sticky flags as a fault mask, then fault-since-clear (R187). -/
def flagResults (u : FaultUnit) : List Byte :=
  unsigned 4 u.flags.toNat ++ flagByte u.sinceClear

/-- The report settings in the layout of SET_REPORTING (R184). -/
def reportingSettings (u : FaultUnit) : List Byte :=
  unsigned 4 (u.enables &&& otherKinds).toNat
    ++ unsigned 1 (bitsValue [u.outletEvents, u.reportOff])

/-- The results of READ_FAULTS (R167, R187). -/
def faultsResults (u : FaultUnit) : List Byte :=
  flagResults u ++ flagByte u.capture.isSome
    ++ ifThere 8 u.capture (fun c =>
        unsigned 1 c.kind.code ++ unsigned 1 c.source.code ++ unsigned 4 c.seconds.toNat
          ++ unsigned 2 c.millis)
    ++ reportingSettings u ++ unsigned 1 u.queue.length ++ flagByte u.attention

end Sys2Proof.Machine
end

