-- ==== Sys2Proof/Machine/Supervisory.lean ====
section
/-! DEFINITION. The supervisory link (SVL, Section 10): receiving, the request in progress and the
transmit list, statuses, and the commands IDLE_GAP, RECEIVE_DISCARD, CRC_ERROR, SYNC_BYTE, BUSY and
UNKNOWN_REQUEST. -/

namespace Sys2Proof.Machine

open Sys2Proof

/-! ### Statuses (R174, Table 11-2) -/

/-- The status codes. -/
inductive Status where
  | ok | clamped | refusedRange | refusedState | refusedSpace | unknownRequest | badLength | busy
deriving DecidableEq, Repr

/-- The code of a status (Table 11-2). -/
def Status.byte : Status → Byte
  | .ok => 0 | .clamped => 1 | .refusedRange => 2 | .refusedState => 3 | .refusedSpace => 4
  | .unknownRequest => 5 | .badLength => 6 | .busy => 7

/-- What a judged request comes to: the state after it, and the payload of its reply. -/
abbrev Verdict := State × List Byte

/-- A refusal: nothing changes, and the status is sent alone (R174). -/
def refuse (s : State) (status : Status) : Verdict := (s, [status.byte])

/-- A request carried out and answered OK with its results (R174). -/
def accept (s : State) (results : List Byte) : Verdict := (s, Status.ok.byte :: results)

/-- Check 2 of R174 for a request of a fixed payload length. -/
def ofLength (n : Nat) (p : List Byte) (s : State) (judge : Verdict) : Verdict :=
  if p.length = n then judge else refuse s .badLength

/-- Check 3 of R174 for the outlet a request carries first (R179, R180). -/
def ofOutlet (p : List Byte) (s : State) (judge : Outlet → Verdict) : Verdict :=
  match outletField p with
  | some o => judge o
  | none => refuse s .refusedRange

/-- Check 3 of R174 for the module a request carries first (R177). -/
def ofModule (p : List Byte) (s : State) (judge : ModuleNo → Verdict) : Verdict :=
  match moduleField p with
  | some m => judge m
  | none => refuse s .refusedRange

/-! ### Frames and replies (R172, R173) -/

/-- SVL returns to HUNTING with an empty buffer (R172). -/
def SupervisoryLink.hunt (v : SupervisoryLink) : SupervisoryLink :=
  { v with receive := .hunting, buffer := [] }

/-- The kind of the reply to a frame: the frame's with its top bit set (R184). -/
def replyKind (kind : Byte) : Byte := kind ||| 0x80

/-- The BUSY replies owed (R173). -/
def SupervisoryLink.busyOwed (v : SupervisoryLink) : Nat :=
  (v.transmit.filter fun r => !r.answers).length

/-- A good frame that becomes good while a request is in progress: a BUSY reply, or with four owed an
overrun (R173). -/
def SupervisoryLink.turnAway (v : SupervisoryLink) (kind tag : Byte) : SupervisoryLink :=
  if v.busyOwed < 4 then
    { v.hunt with transmit := v.transmit ++
        [{ kind := replyKind kind, tag, payload := [Status.busy.byte], answers := false }] }
  else { v.hunt with overruns := min 65535 (v.overruns + 1) }

/-- The reply of a request taken is placed on the transmit list, and the request is in progress
(R173). -/
def SupervisoryLink.owe (v : SupervisoryLink) (kind tag : Byte) (payload : List Byte) :
    SupervisoryLink :=
  { v.hunt with
    inProgress := some { kind, tag }
    transmit := v.transmit ++ [{ kind := replyKind kind, tag, payload, answers := true }] }

/-- A good frame is taken as a request, judged and answered, or turned away (R173). -/
def State.request (s : State) (kind tag : Byte) (judge : State → Verdict) : State :=
  if s.svl.inProgress.isSome then { s with svl := s.svl.turnAway kind tag }
  else
    let v := judge s
    { v.1 with svl := v.1.svl.owe kind tag v.2 }

/-- A count that runs to 65,535 and holds there (R172). -/
def countUp (n : Nat) : Nat := min 65535 (n + 1)

/-- A partial frame is discarded (R172). -/
def SupervisoryLink.discard (v : SupervisoryLink) : SupervisoryLink :=
  { v.hunt with discards := countUp v.discards }

/-- A byte examined in HUNTING (R172). -/
def SupervisoryLink.examine (v : SupervisoryLink) (b : Byte) : SupervisoryLink :=
  if b = 0xA5 then { v with receive := .receiving, buffer := [b] } else v

/-- A byte stored in RECEIVING (R172). -/
def SupervisoryLink.storeByte (v : SupervisoryLink) (b : Byte) : SupervisoryLink :=
  { v with buffer := v.buffer ++ [b] }

/-- A length byte that SVL takes (R172). -/
def isFrameLength (b : Byte) : Bool := decide (2 ≤ b.toNat ∧ b.toNat ≤ 242)

/-! ### The commands -/

/-- IDLE_GAP (R172): the frame is discarded, and the byte that ends the gap is examined afresh. -/
def execIdleGap (next : Byte) (s : State) : Host.Outcome State Fault Refusal :=
  .next (if s.svl.receive = .receiving then { s with svl := s.svl.discard.examine next } else s)

/-- RECEIVE_DISCARD (R172); a length byte within 2 to 242 is stored instead (log entry 26). -/
def execReceiveDiscard (cause : DiscardCause) (s : State) : Host.Outcome State Fault Refusal :=
  .next (if s.svl.receive = .receiving then
      match cause with
      | .lengthByte b =>
        { s with svl := if isFrameLength b then s.svl.storeByte b else s.svl.discard }
      | .framingError => { s with svl := s.svl.discard }
    else s)

/-- CRC_ERROR (R172). -/
def execCrcError (s : State) : Host.Outcome State Fault Refusal :=
  .next { s with svl := { s.svl.hunt with crcErrors := countUp s.svl.crcErrors } }

/-- SYNC_BYTE (R172): begins a frame in HUNTING, and is stored in RECEIVING. -/
def execSyncByte (s : State) : Host.Outcome State Fault Refusal :=
  .next { s with svl :=
      match s.svl.receive with
      | .hunting => s.svl.examine 0xA5
      | .receiving => s.svl.storeByte 0xA5 }

/-- BUSY (R173). -/
def execBusy (kind tag : Byte) (s : State) : Host.Outcome State Fault Refusal :=
  .next (if s.svl.inProgress.isSome then { s with svl := s.svl.turnAway kind tag } else s)

/-- UNKNOWN_REQUEST (R174). -/
def execUnknownRequest (kind tag : Byte) (s : State) : Host.Outcome State Fault Refusal :=
  .next (s.request kind tag fun t => refuse t .unknownRequest)

end Sys2Proof.Machine
end

