-- ==== Sys2Proof/Machine/OutletRequests.lean ====
section
/-! DEFINITION. The outlet requests of the supervisory link (R178, R179): CONFIGURE_OUTLET,
READ_OUTLET, AUTHORISE, REVOKE, READ_AUTHORISATIONS, END_SESSION, RESET_OUTLET, SET_CAP and
SET_ISLAND_TRIM. -/

namespace Sys2Proof.Machine

open Sys2Proof

/-! ### CONFIGURE_OUTLET (R178) -/

/-- SC's settings written (R78). -/
def OutletChange.writeSettings (c : OutletChange) (r : OutletSettings) : OutletSettings :=
  { nominalVolts := c.nominalVolts.getD r.nominalVolts
    cableRating := c.cableRating.getD r.cableRating
    linkWake := match c.linkWake with
                | some n => if n = 0 then .normal else .fast
                | none => r.linkWake
    energiseTimeout := c.energiseTimeout.getD r.energiseTimeout
    rampRate := c.rampRate.getD r.rampRate
    rampInLimit := c.rampInLimit.getD r.rampInLimit }

/-- SY's settings written (R60). -/
def OutletChange.writeSync (c : OutletChange) (y : SyncSettings) : SyncSettings :=
  { smin := c.smin.getD y.smin, smax := c.smax.getD y.smax, dVpct := c.dVpct.getD y.dVpct
    adapt := match c.adapt with
             | some n => n == 1
             | none => y.adapt
    syncTimeout := c.syncTimeout.getD y.syncTimeout }

/-- Every present setting of an outlet is written (R178). -/
def OutletChange.apply (c : OutletChange) (b : Berth) : Berth :=
  { b with
    sc := { b.sc with settings := c.writeSettings b.sc.settings }
    rg := { b.rg with gain := c.gain.getD b.rg.gain }
    sy := { b.sy with settings := c.writeSync b.sy.settings, tc := c.tc.getD b.sy.tc }
    pr := { b.pr with tripPct := c.tripPct.getD b.pr.tripPct } }

/-- The states in which an outlet's settings may be written (R178). -/
def OutletState.configurable : OutletState → Bool
  | .dormant | .cableProven => true
  | .awaitAuth | .energising | .synchronising | .closing | .parallelIn | .shoreSupply
  | .parallelOut | .opening | .windDown | .tripped => false

/-- The presence word names settings that exist: bits 14 and 15 are outside its set (R184, log
entry 34). -/
def presenceWordFits (p : List Byte) : Bool := decide (field p 1 2 < 16384)

/-- CONFIGURE_OUTLET judged (R178). -/
def judgeConfigureOutlet (p : List Byte) (s : State) : Verdict :=
  ofLength 25 p s <| ofOutlet p s fun o =>
    let c := OutletChange.read p
    if !(presenceWordFits p && c.inRange (s.berth o).sy.settings) then refuse s .refusedRange
    else if !(s.berth o).sc.state.configurable then refuse s .refusedState
    else
      let t := s.onBerth o c.apply
      accept t (outletSettings (t.berth o))

/-- CONFIGURE_OUTLET (R178). -/
def execConfigureOutlet (tag : Byte) (p : List Byte) (s : State) :
    Host.Outcome State Fault Refusal :=
  .next (s.request 0x20 tag (judgeConfigureOutlet p))

/-- READ_OUTLET judged (R77, R179). -/
def judgeReadOutlet (p : List Byte) (s : State) : Verdict :=
  ofLength 1 p s <| ofOutlet p s fun o => accept s (outletResults s o)

/-- READ_OUTLET (R77). -/
def execReadOutlet (tag : Byte) (p : List Byte) (s : State) : Host.Outcome State Fault Refusal :=
  .next (s.request 0x21 tag (judgeReadOutlet p))

/-! ### Authorisations (R82, R83) -/

/-- The lowest-numbered empty place, counted from 0 (R82). -/
def emptyPlace (places : List (Option AuthEntry)) : Option Nat := places.findIdx? Option.isNone

/-- The place that an AUTHORISE takes: that of an entry with the same hull and outlet, or the lowest
empty one (R82). -/
def placeFor (places : List (Option AuthEntry)) (e : AuthEntry) : Option Nat :=
  (findPlace places e.hull e.outlet).orElse fun _ => emptyPlace places

/-- The authorisation table with a place written. -/
def State.setPlace (s : State) (place : Nat) (e : Option AuthEntry) : State :=
  { s with account := { s.account with places := s.account.places.set place e } }

/-- Check 3 of an AUTHORISE (R82). -/
def authoriseInRange (p : List Byte) : Bool :=
  isHull (field p 1 4) && decide (field p 5 1 ≤ 3) && twoValued (field p 6 1)

/-- AUTHORISE judged (R82): answered with the place number, its pass made at the moment it is taken
(R88, R179). -/
def judgeAuthorise (p : List Byte) (s : State) : Verdict :=
  ofLength 11 p s <|
    match authOutletField p, authoriseInRange p with
    | some outlet, true =>
      let e := readAuthEntry p outlet
      match placeFor s.account.places e with
      | none => refuse s .refusedSpace
      | some place =>
        accept ({ s.setPlace place (some e) with passDue := true }).settle (unsigned 1 (place + 1))
    | _, _ => refuse s .refusedRange

/-- AUTHORISE (R82). -/
def execAuthorise (tag : Byte) (p : List Byte) (s : State) : Host.Outcome State Fault Refusal :=
  .next (s.request 0x22 tag (judgeAuthorise p))

/-- REVOKE judged (R83). -/
def judgeRevoke (p : List Byte) (s : State) : Verdict :=
  ofLength 5 p s <|
    match authOutletField p with
    | none => refuse s .refusedRange
    | some outlet =>
      match findPlace s.account.places (field p 1 4) outlet with
      | none => refuse s .refusedRange
      | some place => accept (s.setPlace place none) []

/-- REVOKE (R83). -/
def execRevoke (tag : Byte) (p : List Byte) (s : State) : Host.Outcome State Fault Refusal :=
  .next (s.request 0x23 tag (judgeRevoke p))

/-- READ_AUTHORISATIONS judged (R83). DESIGN CHOICE (log entry 69), unsafe: the eight places carry no count
byte. -/
def judgeReadAuthorisations (p : List Byte) (s : State) : Verdict :=
  ofLength 0 p s (accept s (s.account.places.flatMap authPlace))

/-- READ_AUTHORISATIONS (R83). -/
def execReadAuthorisations (tag : Byte) (p : List Byte) (s : State) :
    Host.Outcome State Fault Refusal :=
  .next (s.request 0x24 tag (judgeReadAuthorisations p))

/-! ### END_SESSION and RESET_OUTLET (R99, R100) -/

/-- What END_SESSION does in an outlet's state (Table 5-5); none where it is refused. -/
def State.endSession (s : State) (o : Outlet) : Option State :=
  let r := (s.berth o).sc
  match r.state with
  | .dormant | .cableProven => none
  | .awaitAuth => some (s.moveTo o .cableProven)
  | .energising | .synchronising => some (s.windDown o)
  | .closing => some (s.onSc o fun x => { x with endRequested := true })
  | .parallelIn => some (s.enter o .parallelOut)
  | .shoreSupply => some (s.requestReturn o)
  | .parallelOut | .opening | .windDown => some s
  | .tripped => if r.session.isSome then some (s.windDown o) else none

/-- END_SESSION judged (R100): answered with the outlet state after the request. -/
def judgeEndSession (p : List Byte) (s : State) : Verdict :=
  ofLength 1 p s <| ofOutlet p s fun o =>
    match s.endSession o with
    | none => refuse s .refusedState
    | some ended =>
      let t := ended.settle
      accept t (unsigned 1 (t.berth o).sc.state.code)

/-- END_SESSION (R100). -/
def execEndSession (tag : Byte) (p : List Byte) (s : State) : Host.Outcome State Fault Refusal :=
  .next (s.request 0x25 tag (judgeEndSession p))

/-- The conditions of RESET_OUTLET (R99). -/
def State.mayReset (s : State) (o : Outlet) : Bool :=
  let b := s.berth o
  b.sc.state == .tripped && b.sc.session.isSome && b.lines.pilotClosed && b.sl.scpPresent
    && !s.persists o && !b.lines.breakerClosed

/-- RESET_OUTLET taken: the outlet enters ENERGISING, and SC judges the capacity that its HELD modules
bring back (R39, R90, R99). -/
def State.resetOutlet (s : State) (o : Outlet) : State :=
  ((s.moveTo o .energising).capacityChanged o).settle

/-- RESET_OUTLET judged (R99), answered with the outlet state ENERGISING (R179, log entry 30). -/
def judgeResetOutlet (p : List Byte) (s : State) : Verdict :=
  ofLength 1 p s <| ofOutlet p s fun o =>
    if s.mayReset o then accept (s.resetOutlet o) (unsigned 1 OutletState.energising.code)
    else refuse s .refusedState

/-- RESET_OUTLET (R99). -/
def execResetOutlet (tag : Byte) (p : List Byte) (s : State) : Host.Outcome State Fault Refusal :=
  .next (s.request 0x26 tag (judgeResetOutlet p))

/-! ### SET_CAP (R86) -/

/-- The claim of an outlet's session becomes a new value; P_set is bounded by it in PARALLEL_IN
(R86). -/
def Berth.setClaim (b : Berth) (claim : Nat) : Berth :=
  { b with
    sc := { b.sc with session := b.sc.session.map fun x => { x with claim } }
    rg := if b.sc.state = .parallelIn ∧ claim < b.rg.pSet then b.rg.writePSet claim else b.rg }

/-- SET_CAP taken: a lowered claim starts a pass (R86, R88). -/
def State.setCap (s : State) (o : Outlet) (claim : Nat) : State :=
  let lowered := decide (claim < (s.berth o).claim)
  { s.onBerth o fun b => b.setClaim claim with passDue := s.passDue || lowered }.settle

/-- The greatest claim an outlet may be given: its own plus the remaining budget, and with that budget
negative its own (R86, log entry 41). -/
def State.claimRoom (s : State) (o : Outlet) : Int := (s.berth o).claim + max 0 s.remaining

/-- SET_CAP judged (R86, R179). -/
def judgeSetCap (p : List Byte) (s : State) : Verdict :=
  ofLength 3 p s <| ofOutlet p s fun o =>
    let asked := field p 1 2
    let claim := min asked 20000
    let b := s.berth o
    if b.sc.session.isNone then refuse s .refusedState
    else if s.claimRoom o < claim then refuse s .refusedSpace
    else
      let t := s.setCap o claim
      let status := if claim = asked then Status.ok else Status.clamped
      (t, status.byte :: unsigned 2 claim ++ signed 4 t.remaining)

/-- SET_CAP (R86). -/
def execSetCap (tag : Byte) (p : List Byte) (s : State) : Host.Outcome State Fault Refusal :=
  .next (s.request 0x27 tag (judgeSetCap p))

/-! ### SET_ISLAND_TRIM (R56) -/

/-- The island trim is stored, and acts at once in ISLAND (R56). -/
def Berth.setTrim (b : Berth) (trim : Int) : Berth :=
  let stored := { b with rg := { b.rg with islandTrim := trim } }
  if b.rg.mode = .island then stored.islandTargets else stored

/-- SET_ISLAND_TRIM judged (R56, R179). -/
def judgeSetIslandTrim (p : List Byte) (s : State) : Verdict :=
  ofLength 2 p s <| ofOutlet p s fun o =>
    let asked := signedField p 1 1
    let trim := clampInt (-50) 50 asked
    let status := if trim = asked then Status.ok else Status.clamped
    (s.onBerth o fun b => b.setTrim trim, status.byte :: signed 1 trim)

/-- SET_ISLAND_TRIM (R56). -/
def execSetIslandTrim (tag : Byte) (p : List Byte) (s : State) : Host.Outcome State Fault Refusal :=
  .next (s.request 0x28 tag (judgeSetIslandTrim p))

end Sys2Proof.Machine
end

