-- ==== Sys2Proof/Machine/RecordRequests.lean ====
section
/-! DEFINITION. The ship link, metering and fault requests of the supervisory link (R180):
READ_STATIONS, READ_GENERATORS, READ_METERS, READ_BILLING, RELEASE_BILLING, FLUSH_INTERVAL,
READ_EVENTS, READ_FAULTS, CLEAR_FAULTS and SET_REPORTING. -/

namespace Sys2Proof.Machine

open Sys2Proof

/-! ### The ship link's tables (R139) -/

/-- READ_STATIONS judged (R139). -/
def judgeReadStations (p : StationsPayload) (s : State) : Verdict :=
  ofLength 1 p.bytes s <| ofOutlet p.bytes s fun o => accept s (stationsResults s o p.held)

/-- READ_STATIONS (R139). -/
def execReadStations (tag : Byte) (p : StationsPayload) (s : State) :
    Host.Outcome State Fault Refusal :=
  .next (s.request 0x30 tag (judgeReadStations p))

/-- READ_GENERATORS judged (R139). -/
def judgeReadGenerators (p : List Byte) (s : State) : Verdict :=
  ofLength 1 p s <| ofOutlet p s fun o => accept s (generatorsResults s o)

/-- READ_GENERATORS (R139). -/
def execReadGenerators (tag : Byte) (p : List Byte) (s : State) :
    Host.Outcome State Fault Refusal :=
  .next (s.request 0x31 tag (judgeReadGenerators p))

/-! ### Meters and billing (R151, R155 to R157) -/

/-- The results of READ_METERS (R157). -/
def metersResults (s : State) (o : Outlet) : List Byte :=
  let m := (s.berth o).mt
  presence [m.isSome] ++ ifThere 152 m (meterBytes s) ++ unsigned 1 s.metering.length
    ++ unsigned 1 s.metering.rounding.code ++ unsigned 1 s.bandNow ++ unsigned 1 s.freeEntries
    ++ unsigned 1 s.spare.toNat ++ unsigned 1 s.openSessions ++ unsigned 4 s.metering.sequence

/-- READ_METERS judged (R157). -/
def judgeReadMeters (p : List Byte) (s : State) : Verdict :=
  ofLength 1 p s <| ofOutlet p s fun o => accept s (metersResults s o)

/-- READ_METERS (R157). -/
def execReadMeters (tag : Byte) (p : List Byte) (s : State) : Host.Outcome State Fault Refusal :=
  .next (s.request 0x40 tag (judgeReadMeters p))

/-- READ_BILLING judged (R155): the number held, then up to 3 records, oldest first (R187). -/
def judgeReadBilling (p : List Byte) (s : State) : Verdict :=
  ofLength 0 p s <|
    accept s (unsigned 1 s.metering.queue.length
      ++ (s.metering.queue.take 3).flatMap billingBytes)

/-- READ_BILLING (R155). -/
def execReadBilling (tag : Byte) (p : List Byte) (s : State) : Host.Outcome State Fault Refusal :=
  .next (s.request 0x41 tag (judgeReadBilling p))

/-- The records of sequence n or less are removed; with 16 or more entries free, BILLING_LOW is armed
again (R154, R156). -/
def Metering.release (m : Metering) (n : Nat) : Metering :=
  let queue := m.queue.filter fun r => decide (n < r.sequence)
  { m with queue
           lowArmed := m.lowArmed
             || (decide (queue.length < m.queue.length) && decide (queue.length + 16 ≤ 96)) }

/-- The number of records that a release removes. -/
def Metering.released (m : Metering) (n : Nat) : Nat :=
  m.queue.length - (m.release n).queue.length

/-- RELEASE_BILLING judged (R156). -/
def judgeReleaseBilling (p : List Byte) (s : State) : Verdict :=
  ofLength 4 p s <|
    let n := field p 0 4
    if s.metering.sequence - 1 < n then refuse s .refusedRange
    else
      let removed := s.metering.released n
      let t : State := { s with metering := s.metering.release n
                                passDue := s.passDue || decide (0 < removed) }
      accept t.settle (unsigned 1 removed)

/-- RELEASE_BILLING (R156). -/
def execReleaseBilling (tag : Byte) (p : List Byte) (s : State) :
    Host.Outcome State Fault Refusal :=
  .next (s.request 0x42 tag (judgeReleaseBilling p))

/-- FLUSH_INTERVAL judged (R151): answered with the sequence of the record stored. -/
def judgeFlushInterval (p : List Byte) (s : State) : Verdict :=
  ofLength 1 p s <| ofOutlet p s fun o =>
    if (s.berth o).mt.isNone then refuse s .refusedState
    else if s.spare < 1 then refuse s .refusedSpace
    else accept (s.closeInterval o .flush) (unsigned 4 s.metering.sequence)

/-- FLUSH_INTERVAL (R151). -/
def execFlushInterval (tag : Byte) (p : List Byte) (s : State) : Host.Outcome State Fault Refusal :=
  .next (s.request 0x43 tag (judgeFlushInterval p))

/-! ### Events and faults (R160, R161, R166, R167) -/

/-- The 8 oldest records are removed (R166). -/
def FaultUnit.takeEvents (u : FaultUnit) : FaultUnit := { u with queue := u.queue.drop 8 }

/-- READ_EVENTS judged (R166): the number that remain, then the records removed (R187). -/
def judgeReadEvents (p : List Byte) (s : State) : Verdict :=
  ofLength 0 p s <|
    let u := s.fe.takeEvents
    accept { s with fe := u }
      (unsigned 1 u.queue.length ++ (s.fe.queue.take 8).flatMap eventBytes)

/-- READ_EVENTS (R166). -/
def execReadEvents (tag : Byte) (p : List Byte) (s : State) : Host.Outcome State Fault Refusal :=
  .next (s.request 0x50 tag (judgeReadEvents p))

/-- READ_FAULTS judged (R167). -/
def judgeReadFaults (p : List Byte) (s : State) : Verdict :=
  ofLength 0 p s (accept s (faultsResults s.fe))

/-- READ_FAULTS (R167). -/
def execReadFaults (tag : Byte) (p : List Byte) (s : State) : Host.Outcome State Fault Refusal :=
  .next (s.request 0x51 tag (judgeReadFaults p))

/-- The flags that a mask names are cleared, and fault-since-clear if none remains set (R160). -/
def FaultUnit.clear (u : FaultUnit) (mask : BitVec 32) : FaultUnit :=
  let flags := u.flags &&& ~~~mask
  { u with flags, sinceClear := if flags = 0 then false else u.sinceClear }

/-- CLEAR_FAULTS judged (R160): a mask with any of bits 29 to 31 set is refused (R180, R184). -/
def judgeClearFaults (p : List Byte) (s : State) : Verdict :=
  ofLength 4 p s <|
    let mask := BitVec.ofNat 32 (field p 0 4)
    if mask &&& ~~~allKinds ≠ 0 then refuse s .refusedRange
    else
      let u := s.fe.clear mask
      accept { s with fe := u } (flagResults u)

/-- CLEAR_FAULTS (R160). -/
def execClearFaults (tag : Byte) (p : List Byte) (s : State) : Host.Outcome State Fault Refusal :=
  .next (s.request 0x52 tag (judgeClearFaults p))

/-- The report settings are replaced all at once (R161, R184). -/
def FaultUnit.setReporting (u : FaultUnit) (mask : BitVec 32) (settings : Nat) : FaultUnit :=
  { u with enables := mask &&& otherKinds, outletEvents := bitOf settings 0
           reportOff := bitOf settings 1 }

/-- SET_REPORTING judged (R161). -/
def judgeSetReporting (p : List Byte) (s : State) : Verdict :=
  ofLength 5 p s <|
    let u := s.fe.setReporting (BitVec.ofNat 32 (field p 0 4)) (field p 4 1)
    accept { s with fe := u } (reportingSettings u)

/-- SET_REPORTING (R161). -/
def execSetReporting (tag : Byte) (p : List Byte) (s : State) : Host.Outcome State Fault Refusal :=
  .next (s.request 0x53 tag (judgeSetReporting p))

end Sys2Proof.Machine
end

