-- ==== Sys2Proof/Machine/Time.lean ====
section
/-! DEFINITION. The timebase (TB): qualification and monitoring of the crystal (R1 to R4), the
one-second tick (R6), pulses (R9 to R11), and the commands QUALIFICATION_WINDOW_END, XO_CHECK,
RETRY_TIME_EXPIRY, ONE_SECOND_TICK, PPS_PULSE and PPS_TIME_EXPIRY. -/

namespace Sys2Proof.Machine

open Sys2Proof

/-! ### The crystal (R1 to R4) -/

/-- The pass band of a 10 ms window (R2). -/
def windowPasses (count : Nat) : Bool := decide (156000 ≤ count ∧ count ≤ 164000)

/-- A qualification attempt begins (R1, R2, R4). -/
def Timebase.beginAttempt (t : Timebase) (first : Bool) : Timebase :=
  { t with state := .qualifying, firstAttempt := first, windows := 0, passes := 0
           windowFrom := t.run, retryFrom := none }

/-- TB enters XO (R2). -/
def Timebase.enterXo (t : Timebase) : Timebase :=
  { t with state := .xo, windows := 0, passes := 0, fails := 0, checkFrom := t.run }

/-- TB enters XO_FAILED and starts the retry time (R4). -/
def Timebase.failXo (t : Timebase) : Timebase :=
  { t with state := .xoFailed, windows := 0, passes := 0, fails := 0, retryFrom := some t.run }

/-- TB enters IRC, what was in progress abandoned (R1). -/
def Timebase.toIrc (t : Timebase) : Timebase :=
  { t with state := .irc, windows := 0, passes := 0, fails := 0, retryFrom := none }

/-- The attempt after a window (R2). -/
def Timebase.window (t : Timebase) (count : Nat) : Timebase :=
  { t with windows := t.windows + 1, windowFrom := t.run
           passes := if windowPasses count then t.passes + 1 else 0 }

/-- The XO-use setting is written (R1). -/
def Timebase.writeXoUse (t : Timebase) (on : Bool) : Timebase :=
  let set := { t with xoUse := on }
  if on = t.xoUse then set
  else if on then (if t.state = .irc then set.beginAttempt true else set)
  else set.toIrc

/-- The PPS-use setting is written (R9). -/
def Timebase.writePpsUse (t : Timebase) (on : Bool) : Timebase :=
  let set := { t with ppsUse := on }
  if on = t.ppsUse then set
  else if on then { set with pps := .waiting, ppsFrom := some t.run }
  else { set with pps := .off, ppsFrom := none }

/-! ### The tick (R6) -/

/-- The second completes: the sub-second count restarts and the seconds count increases (R6). -/
def Timebase.completeSecond (t : Timebase) : Timebase :=
  { t with subSecond := 0, seconds := t.seconds + 1 }

/-- An entry that a tick's seconds count finds expired (R83). -/
def AuthEntry.expired (e : AuthEntry) (seconds : Nat) : Bool :=
  match e.expiry with
  | some x => decide (x < seconds)
  | none => false

/-- SC removes the expired entries at a tick (R83). -/
def Account.expire (a : Account) (seconds : Nat) : Account :=
  { a with places := a.places.map fun p => p.filter fun e => !e.expired seconds }

/-- The one-second tick is delivered to SC and MT (R6, R83, R149). -/
def State.deliverTick (s : State) : State :=
  { s with account := s.account.expire s.tb.seconds.toNat }.meterTick

/-- A second completes and its tick is delivered (R6). -/
def State.secondCompletes (s : State) : State :=
  { s with tb := s.tb.completeSecond }.deliverTick

/-! ### Pulses (R9, R10) -/

/-- The milliseconds of the time of day. -/
def Timebase.millis (t : Timebase) : Nat := t.subSecond / 1000

/-- A pulse comes too soon after the last one accepted (R10). -/
def Timebase.pulseTooSoon (t : Timebase) : Bool :=
  match t.lastPulse with
  | some last => decide (elapsed t.run last < 500000)
  | none => false

/-- The PPS state takes an accepted pulse (R9, R10). -/
def Timebase.lock (t : Timebase) : Timebase :=
  { t with pps := .locked, ppsFrom := some t.run, lastPulse := some t.run }

/-- PPS_JUMP for an accepted pulse (R10, Table 1-2). -/
def State.reportJump (s : State) : State :=
  if 100 ≤ s.tb.millis ∧ s.tb.millis ≤ 899 then s.report .ppsJump .station (some s.tb.millis) else s

/-- The alignment of an accepted pulse (R10). -/
def State.align (s : State) : State :=
  if 500000 ≤ s.tb.subSecond then s.secondCompletes
  else { s with tb := { s.tb with subSecond := 0 } }

/-! ### The commands -/

/-- QUALIFICATION_WINDOW_END (R2). -/
def execQualificationWindowEnd (count : Nat) (s : State) : Host.Outcome State Fault Refusal :=
  .next (if s.tb.state = .qualifying then
      let t := s.tb.window count
      if t.passes = 3 then { s with tb := t.enterXo }.noteQuality
      else if 20 ≤ t.windows then
        let failed : State := { s with tb := t.failXo }
        if t.firstAttempt then failed.raise .timebaseFallback .station else failed
      else { s with tb := t }
    else s)

/-- XO_CHECK (R3). -/
def execXoCheck (count : Nat) (s : State) : Host.Outcome State Fault Refusal :=
  .next (if s.tb.state = .xo then
      let t := { s.tb with checkFrom := s.tb.run
                           fails := if windowPasses count then 0 else s.tb.fails + 1 }
      if 2 ≤ t.fails then ({ s with tb := t.failXo }.raise .timebaseFallback .station).noteQuality
      else { s with tb := t }
    else s)

/-- RETRY_TIME_EXPIRY (R4). -/
def execRetryTimeExpiry (s : State) : Host.Outcome State Fault Refusal :=
  .next (if s.tb.state = .xoFailed ∧ s.tb.retryFrom.isSome then
      { s with tb := s.tb.beginAttempt false }
    else s)

/-- ONE_SECOND_TICK (R6). -/
def execOneSecondTick (s : State) : Host.Outcome State Fault Refusal := .next s.secondCompletes

/-- PPS_PULSE (R10). The PPS_JUMP of an accepted pulse is stamped with the time of day before the
alignment (DESIGN CHOICE, log entry 48: R10 and R163 leave it open). -/
def execPpsPulse (s : State) : Host.Outcome State Fault Refusal :=
  .next (if s.tb.pps = .off then s
    else if s.tb.pulseTooSoon then s.report .ppsJump .station (some s.tb.millis)
    else
      let jumped := s.reportJump
      ({ jumped with tb := s.tb.lock }.noteQuality).align)

/-- PPS_TIME_EXPIRY (R11). -/
def execPpsTimeExpiry (s : State) : Host.Outcome State Fault Refusal :=
  .next (if (s.tb.pps = .waiting ∨ s.tb.pps = .locked) ∧ s.tb.ppsFrom.isSome then
      ({ s with tb := { s.tb with pps := .lost, ppsFrom := none } }.raise .ppsLost
        .station).noteQuality
    else s)

end Sys2Proof.Machine
end

