-- ==== Sys2Proof/Machine/Resets.lean ====
section
/-! DEFINITION. Supply-on and the warm restart (R1, R18, R41, R59, R75, R102, R103, R117, R119, R138,
R158, R169, R170, R181, R182), and the commands SUPPLY_ON, RESET_INPUT and REPLY_SENT. -/

namespace Sys2Proof.Machine

open Sys2Proof

/-! ### Supply-on -/

/-- The state of supply-on with its pins as read: the speed select input and the breaker feedbacks
(R71, R171). -/
def State.powered (highSpeed : Bool) (closed : Quad Bool) (pending : List Instr) : State :=
  let reset := { State.reset with svl := { State.reset.svl with highSpeed }, pending }
  Outlet.all.foldl
    (fun s o => s.onLines o fun l =>
      { l with breakerClosed := closed.get o, closedAt := if closed.get o then some 0 else none })
    reset

/-- SUPPLY_ON (R102): an outlet whose feedback reads closed has an unwanted closure in DORMANT
(R71). -/
def execSupplyOn (highSpeed : Bool) (closed : Quad Bool) (s : State) :
    Host.Outcome State Fault Refusal :=
  .next ((Outlet.all.filter closed.get).foldl State.unwantedClosure
    (State.powered highSpeed closed s.pending))

/-! ### The warm restart of each block -/

/-- FE at a warm restart (R170). -/
def FaultUnit.restart (u : FaultUnit) (seconds : BitVec 32) (millis : Nat) : FaultUnit :=
  { u with
    flags := u.flags ||| FaultKind.restart.bit, sinceClear := true
    queue := [{ kind := .fault .restart, source := .station, seconds, millis, detail := none
                lost := false }] }

/-- SVL at a warm restart (R181); the record of the frame sent last is kept (log entry 74). -/
def SupervisoryLink.restart (v : SupervisoryLink) : SupervisoryLink :=
  { v.hunt with inProgress := none, transmit := [] }

/-- What an outlet holds that decides its state after a warm restart (R103). -/
def Berth.afterRestart (b : Berth) : OutletState :=
  if b.sc.session.isSome ∨ b.lines.breakerClosed then .tripped
  else if b.lines.pilotClosed then .cableProven
  else .dormant

/-- SC's outlet record at a warm restart (R99, R103). The flags last seen are forgotten (DEDUCED, log entry
16). DESIGN CHOICE (log entry 71), unsafe: the last declaration taken is kept. -/
def OutletRecord.restart (r : OutletRecord) (new : OutletState) (closed : Bool) (now : TimeStamp) :
    OutletRecord :=
  let kept := r.session.isSome
  { r with
    state := new, waiting := none, denial := none
    declaration := if kept then r.declaration else none
    target := if kept then r.target else 0
    firstCause := if new = .tripped then some .restart else none
    endRequested := false, returnAwaited := false, openDrive := new == .tripped && closed
    entered := if new = r.state then r.entered else now
    prepareReturn := false, deny := false, flagsSeen := none
    energiseFrom := none, syncFrom := none, syncExpired := false, rampFrom := none
    rampInFrom := none, capacityShortFrom := none, returnFrom := none, rampOutFrom := none
    unloadedFrom := none, openFrom := none, capFrom := none, capReported := false }

/-- SL at a warm restart (R138). -/
def ShipLink.restart (l : ShipLink) (powered : Bool) (wake : LinkWake) (now : RunCount) : ShipLink :=
  if powered then l.clear.powerUp wake now else l.withdraw

/-- MU's part of an outlet at a warm restart (R18). -/
def Measures.restart (now : RunCount) : Measures :=
  { shore := .reset now, ship := .reset now, pair := none, power := none, clipReported := false }

/-- MP's part of an outlet at a warm restart: nothing pending or watched; the hold time of an outlet
with a session runs anew (R38, R41). -/
def OutletPool.restart (held : Bool) (tripHold : Nat) (now : RunCount) : OutletPool :=
  { entry := none, replaceArisen := false, growFrom := none, shrinkFrom := none, voluntary := none
    hold := if held && decide (tripHold ≠ 0) then some { since := now, length := tripHold }
            else none }

/-- A module at a warm restart (R41): a hold time of 0 expires at once (R38). -/
def Module.restart (m : Module) (tripHold : Nat) (now : RunCount) : Module :=
  match m.state with
  | .starting => m.endStart now
  | .running | .held => if tripHold = 0 then m.beginStop now else { m with state := .held }
  | .offline | .idle | .stopping | .faulted | .lockedOut => m

/-- Everything an outlet holds at a warm restart. -/
def Berth.restart (b : Berth) (now : TimeStamp) (tripHold : Nat) : Berth :=
  let new := b.afterRestart
  let powered := new != .dormant
  { sc := b.sc.restart new b.lines.breakerClosed now
    lines := { b.lines with linkPower := powered }
    mu := .restart now.run
    mp := .restart b.sc.session.isSome tripHold now.run
    rg := b.rg.enterOff none
    sy := b.sy.restart
    pr := b.pr.restart (new == .tripped) now.run
    sl := b.sl.restart powered b.sc.settings.linkWake now.run
    mt := b.mt }

/-- The part's tables at a warm restart, before the reports of the outlets. -/
def State.restartBlocks (s : State) : State :=
  { s with
    grid := { s.grid with point := .reset s.tb.run }
    pool := { s.pool with
      unit := none
      modules := ModuleNo.all.foldl
        (fun d m => d.set m ((d.get m).restart s.pool.tripHold s.tb.run)) s.pool.modules }
    account := { s.account with importFrom := none, importReported := false }
    gridWatch := { since := some s.tb.run, standing := false }
    fe := s.fe.restart s.tb.seconds s.tb.millis
    svl := s.svl.restart
    berths := { o1 := s.berths.o1.restart s.now s.pool.tripHold
                o2 := s.berths.o2.restart s.now s.pool.tripHold
                o3 := s.berths.o3.restart s.now s.pool.tripHold
                o4 := s.berths.o4.restart s.now s.pool.tripHold }
    passDue := false }

/-- The reports of an outlet at a warm restart: its change of state (R170), and the RESTART trip of an
outlet that enters TRIPPED, counted by MT (R117, R140). -/
def State.reportRestart (before : State) (s : State) (o : Outlet) : State :=
  let new := (s.berth o).sc.state
  let told := if (before.berth o).sc.state = new then s else s.reportState o new
  if new = .tripped then (told.raise .restart (.outlet o)).onMt o Meter.countTrip else told

/-- A warm restart (R181). -/
def State.warmRestart (s : State) : State :=
  Outlet.all.foldl s.reportRestart s.restartBlocks

/-! ### The commands -/

/-- RESET_INPUT (R181): a warm restart. -/
def execResetInput (s : State) : Host.Outcome State Fault Refusal := .next s.warmRestart

/-- The reply is that of a RESTART that was answered OK (R181). -/
def Reply.restarts (r : Reply) : Bool :=
  r.answers && r.kind == replyKind 0x07 && r.payload == [Status.ok.byte]

/-- The last byte of a reply's frame has been sent (R184): it leaves the list, and the request it answers
ends (R173). -/
def SupervisoryLink.sent (v : SupervisoryLink) (r : Reply) (rest : List Reply) : SupervisoryLink :=
  { v with transmit := rest, inProgress := if r.answers then none else v.inProgress
           lastFrame := r.frame }

/-- REPLY_SENT (R173): after RESTART's own reply a warm restart is taken (R181). -/
def execReplySent (s : State) : Host.Outcome State Fault Refusal :=
  .next (match s.svl.transmit with
    | [] => s
    | r :: rest =>
      let t : State := { s with svl := s.svl.sent r rest }
      if r.restarts then t.warmRestart else t)

end Sys2Proof.Machine
end

