-- ==== Sys2Proof/Machine/StationRequests.lean ====
section
/-! DEFINITION. The station requests and the module requests of the supervisory link (R175 to R177):
CONFIGURE_STATION, READ_STATION, READ_TIME, SET_TIME, SET_IMPORT_LIMIT, SET_BANDS, RESTART,
DECLARE_MODULE, UNLOCK_MODULE, WITHDRAW_MODULE and READ_MODULES. -/

namespace Sys2Proof.Machine

open Sys2Proof

/-! ### CONFIGURE_STATION (R175) -/

/-- A present value that differs from the value held. -/
def changes {α : Type} [DecidableEq α] (present : Option α) (held : α) : Bool :=
  match present with
  | some x => decide (x ≠ held)
  | none => false

/-- A setting that may not change while a metering session is open would change (R8, R143, R175). -/
def StationChange.needsNoSession (c : StationChange) (s : State) : Bool :=
  changes c.offset s.tb.offset || changes c.length s.metering.length
    || changes (c.rounding.map roundingOf) s.metering.rounding

/-- TB with the settings it holds written (R1, R8, R9). -/
def StationChange.writeTime (c : StationChange) (t : Timebase) : Timebase :=
  let t := match c.xoUse with
    | some n => t.writeXoUse (n == 1)
    | none => t
  let t := match c.ppsUse with
    | some n => t.writePpsUse (n == 1)
    | none => t
  { t with offset := c.offset.getD t.offset }

/-- Every present setting is written (R175). -/
def StationChange.apply (c : StationChange) (s : State) : State :=
  { s with
    tb := c.writeTime s.tb
    grid := { s.grid with nominal := c.gridNominal.getD s.grid.nominal }
    pool := { s.pool with tripHold := c.tripHold.getD s.pool.tripHold }
    account := { s.account with headroom := c.headroom.getD s.account.headroom }
    metering := { s.metering with
      length := c.length.getD s.metering.length
      rounding := (c.rounding.map roundingOf).getD s.metering.rounding } }.noteQuality

/-- CONFIGURE_STATION judged (R175). -/
def judgeConfigureStation (p : List Byte) (s : State) : Verdict :=
  ofLength 12 p s <|
    let c := StationChange.read p
    if !c.inRange s.metering.bands then refuse s .refusedRange
    else if 0 < s.openSessions ∧ c.needsNoSession s then refuse s .refusedState
    else
      let t := c.apply s
      accept t (stationSettings t)

/-- CONFIGURE_STATION (R175). -/
def execConfigureStation (tag : Byte) (p : List Byte) (s : State) :
    Host.Outcome State Fault Refusal :=
  .next (s.request 0x01 tag (judgeConfigureStation p))

/-! ### The other station requests (R176) -/

/-- READ_STATION judged (R176). -/
def judgeReadStation (p : List Byte) (s : State) : Verdict :=
  ofLength 0 p s (accept s (stationResults s))

/-- READ_STATION (R176). -/
def execReadStation (tag : Byte) (p : List Byte) (s : State) : Host.Outcome State Fault Refusal :=
  .next (s.request 0x02 tag (judgeReadStation p))

/-- READ_TIME judged (R12, R176). -/
def judgeReadTime (p : List Byte) (s : State) : Verdict := ofLength 0 p s (accept s (timeResults s))

/-- READ_TIME (R12, R176). -/
def execReadTime (tag : Byte) (p : List Byte) (s : State) : Host.Outcome State Fault Refusal :=
  .next (s.request 0x06 tag (judgeReadTime p))

/-- TB takes a SET_TIME, and MT its time-step notice (R7, R150). -/
def State.setSeconds (s : State) (seconds : BitVec 32) : State :=
  ({ s with tb := { s.tb with seconds, timeUnset := false } }.meterTimeStep).noteQuality

/-- SET_TIME judged (R7, R176). -/
def judgeSetTime (p : List Byte) (s : State) : Verdict :=
  ofLength 4 p s <|
    let t := s.setSeconds (BitVec.ofNat 32 (field p 0 4))
    accept t (timeBytes t.now)

/-- SET_TIME (R7). -/
def execSetTime (tag : Byte) (p : List Byte) (s : State) : Host.Outcome State Fault Refusal :=
  .next (s.request 0x05 tag (judgeSetTime p))

/-- A new import limit: OVER_BUDGET where it is below the sum of claims, and a pass where it changed
(R85). -/
def State.setLimit (s : State) (limit : Nat) : State :=
  let set : State :=
    { s with account := { s.account with limit }
             passDue := s.passDue || decide (limit ≠ s.account.limit) }
  (if limit < s.claims then set.raise .overBudget .station else set).settle

/-- SET_IMPORT_LIMIT judged (R85, R176). -/
def judgeSetImportLimit (p : List Byte) (s : State) : Verdict :=
  ofLength 2 p s <|
    if 60000 < field p 0 2 then refuse s .refusedRange
    else
      let t := s.setLimit (field p 0 2)
      accept t (budgetResults t)

/-- SET_IMPORT_LIMIT (R85). -/
def execSetImportLimit (tag : Byte) (p : List Byte) (s : State) :
    Host.Outcome State Fault Refusal :=
  .next (s.request 0x03 tag (judgeSetImportLimit p))

/-- SET_BANDS judged (R144, R176): a payload that does not hold the entries its count gives has a bad
length. -/
def judgeSetBands (p : List Byte) (s : State) : Verdict :=
  let count := field p 0 1
  let table := readBands count p
  ofLength (1 + 3 * count) p s <|
    if !bandsInRange s.metering.length count table then refuse s .refusedRange
    else if 0 < s.openSessions then refuse s .refusedState
    else accept { s with metering := { s.metering with bands := sortBands table } } []

/-- SET_BANDS (R144). -/
def execSetBands (tag : Byte) (p : List Byte) (s : State) : Host.Outcome State Fault Refusal :=
  .next (s.request 0x04 tag (judgeSetBands p))

/-- RESTART judged: OK; the restart is taken when its reply has been sent (R181). -/
def judgeRestart (p : List Byte) (s : State) : Verdict := ofLength 0 p s (accept s [])

/-- RESTART (R181). -/
def execRestart (tag : Byte) (p : List Byte) (s : State) : Host.Outcome State Fault Refusal :=
  .next (s.request 0x07 tag (judgeRestart p))

/-! ### The module requests (R31, R177) -/

/-- A module is declared from OFFLINE (R31, note a); its share trim is 0 in LOCKED_OUT as in IDLE
(DESIGN CHOICE, log entry 49). -/
def Module.declare (m : Module) (rating : Nat) (now : RunCount) : Module :=
  { m with rating := some rating, outlet := none, trim := 0, reportAt := now, lineLost := false
           state := if m.faultCount < 3 then .idle else .lockedOut }

/-- A request of a module taken: a change of module state, arbitration, and the module's record as
the reply's results (R31, R177). DESIGN CHOICE (log entry 62), unsafe: the record is read after the
arbitration. -/
def State.changeByRequest (s : State) (m : ModuleNo) (f : Module → Module) : Verdict :=
  let t := ((s.changeModule m f).arbitrate).settle
  accept t (moduleRecord m (t.module m))

/-- DECLARE_MODULE judged (R31). -/
def judgeDeclareModule (p : List Byte) (s : State) : Verdict :=
  ofLength 3 p s <| ofModule p s fun m =>
    let rating := field p 1 2
    if !isRating rating then refuse s .refusedRange
    else
      match (s.module m).state with
      | .offline => s.changeByRequest m fun x => x.declare rating s.tb.run
      | .idle => s.changeByRequest m fun x => { x with rating := some rating }
      | .starting | .running | .held | .stopping | .faulted | .lockedOut => refuse s .refusedState

/-- DECLARE_MODULE (R31). -/
def execDeclareModule (tag : Byte) (p : List Byte) (s : State) : Host.Outcome State Fault Refusal :=
  .next (s.request 0x10 tag (judgeDeclareModule p))

/-- UNLOCK_MODULE judged (R31). -/
def judgeUnlockModule (p : List Byte) (s : State) : Verdict :=
  ofLength 1 p s <| ofModule p s fun m =>
    match (s.module m).state with
    | .lockedOut =>
      s.changeByRequest m fun x => { x.toIdle with faultCount := 0, faultCode := none }
    | .offline | .idle | .starting | .running | .held | .stopping | .faulted =>
      refuse s .refusedState

/-- UNLOCK_MODULE (R31). -/
def execUnlockModule (tag : Byte) (p : List Byte) (s : State) : Host.Outcome State Fault Refusal :=
  .next (s.request 0x12 tag (judgeUnlockModule p))

/-- WITHDRAW_MODULE judged (R31). -/
def judgeWithdrawModule (p : List Byte) (s : State) : Verdict :=
  ofLength 1 p s <| ofModule p s fun m =>
    match (s.module m).state with
    | .idle | .faulted | .lockedOut =>
      s.changeByRequest m fun x => { x with state := .offline, outlet := none }
    | .offline | .starting | .running | .held | .stopping => refuse s .refusedState

/-- WITHDRAW_MODULE (R31). -/
def execWithdrawModule (tag : Byte) (p : List Byte) (s : State) :
    Host.Outcome State Fault Refusal :=
  .next (s.request 0x11 tag (judgeWithdrawModule p))

/-- READ_MODULES judged (R177). -/
def judgeReadModules (p : List Byte) (s : State) : Verdict :=
  ofLength 0 p s (accept s (modulesResults s))

/-- READ_MODULES (R177). -/
def execReadModules (tag : Byte) (p : List Byte) (s : State) : Host.Outcome State Fault Refusal :=
  .next (s.request 0x13 tag (judgeReadModules p))

end Sys2Proof.Machine
end

