-- ==== Sys2Proof/Machine/Timers.lean ====
section
/-! DEFINITION. The timed commands of the session controller (SC), of protection (PR) and of the
meter (MT): the expiries, ramp ticks and watches of Sections 5 and 6, and GAP_OPENS. -/

namespace Sys2Proof.Machine

open Sys2Proof

/-! ### Load watches (R87) -/

/-- IMPORT_WATCH_COMPLETE (R87). -/
def execImportWatchComplete (s : State) : Host.Outcome State Fault Refusal :=
  .next (if s.account.importFrom.isSome then
      ({ s with account := { s.account with importFrom := none, importReported := true }
        }).report .importOverLimit .station (some (kilowatts s.importSum))
    else s)

/-- CAP_WATCH_COMPLETE (R87). -/
def execCapWatchComplete (o : Outlet) (s : State) : Host.Outcome State Fault Refusal :=
  let b := s.berth o
  .next (if b.sc.capFrom.isSome then
      (s.onSc o fun r => { r with capFrom := none, capReported := true }).report .overCap (.outlet o)
        (b.mu.power.map fun r => kilowatts r.p)
    else s)

/-! ### Energising and synchronising (R90, R91) -/

/-- ENERGISE_TIME_EXPIRY (R90). -/
def execEnergiseTimeExpiry (o : Outlet) (s : State) : Host.Outcome State Fault Refusal :=
  let r := (s.berth o).sc
  .next (if r.state = .energising ∧ r.energiseFrom.isSome then
      ((s.raise .energiseTimeout (.outlet o)).windDown o).settle
    else s)

/-- SYNC_TIME_EXPIRY (R91): in CLOSING the expiry is kept until the close is resolved. -/
def execSyncTimeExpiry (o : Outlet) (s : State) : Host.Outcome State Fault Refusal :=
  let r := (s.berth o).sc
  .next (if r.syncFrom.isSome then
      if r.state = .synchronising then ((s.raise .syncTimeout (.outlet o)).windDown o).settle
      else s.onSc o fun r => { r with syncFrom := none, syncExpired := true }
    else s)

/-! ### Ramp-in (R93, R94) -/

/-- RAMP_IN_TICK (R93). -/
def execRampInTick (o : Outlet) (s : State) : Host.Outcome State Fault Refusal :=
  let b := s.berth o
  .next (if b.sc.state = .parallelIn then
      let ticked := s.onSc o fun r => { r with rampFrom := some s.tb.run }
      if b.sc.target ≤ s.capacity o then
        ticked.onRg o fun g => g.writePSet (min (g.pSet + b.rampStep) b.claim)
      else ticked
    else s)

/-- The ramp-in is aborted (R94). -/
def State.abortRampIn (s : State) (o : Outlet) : State :=
  (s.raise .handoverAbort (.outlet o)).enter o .parallelOut

/-- CAPACITY_SHORT_EXPIRY (R94). -/
def execCapacityShortExpiry (o : Outlet) (s : State) : Host.Outcome State Fault Refusal :=
  let r := (s.berth o).sc
  .next (if r.state = .parallelIn ∧ r.capacityShortFrom.isSome then (s.abortRampIn o).settle else s)

/-- RAMP_IN_LIMIT_EXPIRY (R94). -/
def execRampInLimitExpiry (o : Outlet) (s : State) : Host.Outcome State Fault Refusal :=
  let r := (s.berth o).sc
  .next (if r.state = .parallelIn ∧ r.rampInFrom.isSome then (s.abortRampIn o).settle else s)

/-! ### Return and ramp-out (R95 to R97) -/

/-- RETURN_WAIT_EXPIRY (R95). -/
def execReturnWaitExpiry (o : Outlet) (s : State) : Host.Outcome State Fault Refusal :=
  let r := (s.berth o).sc
  .next (if r.state = .shoreSupply ∧ r.returnFrom.isSome then
      (s.onSc o fun r => { r with returnFrom := none }).report .returnWaitLong (.outlet o)
    else s)

/-- RAMP_OUT_TICK (R96). -/
def execRampOutTick (o : Outlet) (s : State) : Host.Outcome State Fault Refusal :=
  let b := s.berth o
  .next (if b.sc.state = .parallelOut then
      (s.onSc o fun r => { r with rampFrom := some s.tb.run }).onRg o fun g =>
        g.writePSet (g.pSet - b.rampStep)
    else s)

/-- UNLOADED_COMPLETE (R96). -/
def execUnloadedComplete (o : Outlet) (s : State) : Host.Outcome State Fault Refusal :=
  let r := (s.berth o).sc
  .next (if r.state = .parallelOut ∧ r.unloadedFrom.isSome then (s.openBreaker o).settle else s)

/-- RAMP_OUT_TIMEOUT (R96). -/
def execRampOutTimeout (o : Outlet) (s : State) : Host.Outcome State Fault Refusal :=
  let r := (s.berth o).sc
  .next (if r.state = .parallelOut ∧ r.rampOutFrom.isSome then
      ((s.raise .rampOutTimeout (.outlet o)).openBreaker o).settle
    else s)

/-- OPEN_TIME_EXPIRY (R97). -/
def execOpenTimeExpiry (o : Outlet) (s : State) : Host.Outcome State Fault Refusal :=
  let b := s.berth o
  .next (if b.sc.state = .opening ∧ b.sc.openFrom.isSome then
      let timed := s.onSc o fun r => { r with openFrom := none }
      if b.lines.breakerClosed then timed.raise .breakerFail (.outlet o) else timed
    else s)

/-! ### Protection (R107, R112 to R115) -/

/-- POST_TRIP_TIME_EXPIRY (R107, R117). -/
def execPostTripTimeExpiry (o : Outlet) (s : State) : Host.Outcome State Fault Refusal :=
  let b := s.berth o
  .next (if b.pr.postTripFrom.isSome then
      if b.lines.breakerClosed then
        (s.onPr o fun p => { p with postTripFrom := none, openDrive := true, breakerFail := true
          }).raise .breakerFail (.outlet o)
      else s.onPr o fun p => { p with postTripFrom := none, openDrive := false }
    else s)

/-- VOLTAGE_WATCH_COMPLETE (R112). -/
def execVoltageWatchComplete (o : Outlet) (s : State) : Host.Outcome State Fault Refusal :=
  .next (if (s.berth o).pr.voltageFrom.isSome then
      ((s.onPr o fun p => { p with voltageFrom := none }).complete o .busVoltage).settle
    else s)

/-- CAPACITY_WATCH_COMPLETE (R113). -/
def execCapacityWatchComplete (o : Outlet) (s : State) : Host.Outcome State Fault Refusal :=
  .next (if (s.berth o).pr.capacityFrom.isSome then
      ((s.onPr o fun p => { p with capacityFrom := none }).complete o .capacityLoss).settle
    else s)

/-- REVERSE_WATCH_COMPLETE (R114). -/
def execReverseWatchComplete (o : Outlet) (s : State) : Host.Outcome State Fault Refusal :=
  .next (if (s.berth o).pr.reverseFrom.isSome then
      ((s.onPr o fun p => { p with reverseFrom := none }).complete o .reversePower).settle
    else s)

/-- GRID_WATCH_COMPLETE (R115). The completed watch keeps its run count until G is live (DESIGN CHOICE,
log entry 54). -/
def execGridWatchComplete (s : State) : Host.Outcome State Fault Refusal :=
  .next (if s.gridWatch.since.isSome && !s.gridWatch.standing then
      let lost : State := { s with gridWatch := { s.gridWatch with standing := true } }
      (Outlet.all.foldl (fun t o => t.complete o .gridLoss) lost).settle
    else s)

/-! ### Measurement gaps (R142) -/

/-- GAP_OPENS (R142): 100 ms without a power record while the feedback shows closed. -/
def execGapOpens (o : Outlet) (s : State) : Host.Outcome State Fault Refusal :=
  let b := s.berth o
  .next (if b.lines.breakerClosed then
      s.onMt o fun m =>
        { m with gapFrom := some (m.gapFrom.getD (m.gapBase s.tb.run b.lines.closedAt)) }
    else s)

end Sys2Proof.Machine
end

