-- ==== Sys2Proof/Machine/Dispatch.lean ====
section
/-! DEFINITION. The meaning of every command: one arm for each constructor of `Instr`. -/

namespace Sys2Proof.Machine

open Sys2Proof

/-- The effect of a command on everything but the queue of commands that wait. -/
def exec (i : Instr) (s : State) : Host.Outcome State Fault Refusal :=
  match i with
  | .supplyOn highSpeed closed => Sys2Proof.Machine.execSupplyOn highSpeed closed s
  | .resetInput => Sys2Proof.Machine.execResetInput s
  | .qualificationWindowEnd count => Sys2Proof.Machine.execQualificationWindowEnd count s
  | .xoCheck count => Sys2Proof.Machine.execXoCheck count s
  | .retryTimeExpiry => Sys2Proof.Machine.execRetryTimeExpiry s
  | .oneSecondTick => Sys2Proof.Machine.execOneSecondTick s
  | .ppsPulse => Sys2Proof.Machine.execPpsPulse s
  | .ppsTimeExpiry => Sys2Proof.Machine.execPpsTimeExpiry s
  | .zeroCrossing point volts power => Sys2Proof.Machine.execZeroCrossing point volts power s
  | .voltageOnlyCadence point volts => Sys2Proof.Machine.execVoltageOnlyCadence point volts s
  | .cycleLapse point volts => Sys2Proof.Machine.execCycleLapse point volts s
  | .moduleReport m report => Sys2Proof.Machine.execModuleReport m report s
  | .moduleLineLoss m => Sys2Proof.Machine.execModuleLineLoss m s
  | .commandRecord => Sys2Proof.Machine.execCommandRecord s
  | .startTimeExpiry => Sys2Proof.Machine.execStartTimeExpiry s
  | .stopCurrentTimeout m => Sys2Proof.Machine.execStopCurrentTimeout m s
  | .stopTimeExpiry m => Sys2Proof.Machine.execStopTimeExpiry m s
  | .holdTimeExpiry o => Sys2Proof.Machine.execHoldTimeExpiry o s
  | .growWatchComplete o => Sys2Proof.Machine.execGrowWatchComplete o s
  | .shrinkWatchComplete o => Sys2Proof.Machine.execShrinkWatchComplete o s
  | .rgUpdate o => Sys2Proof.Machine.execRgUpdate o s
  | .holdingTimeout o => Sys2Proof.Machine.execHoldingTimeout o s
  | .dueInstant o => Sys2Proof.Machine.execDueInstant o s
  | .confirmationTimeExpiry o => Sys2Proof.Machine.execConfirmationTimeExpiry o s
  | .breakerFeedbackClosed o => Sys2Proof.Machine.execBreakerFeedbackClosed o s
  | .breakerFeedbackOpen o => Sys2Proof.Machine.execBreakerFeedbackOpen o s
  | .openDriveFailTime o => Sys2Proof.Machine.execOpenDriveFailTime o s
  | .deadTimeComplete o => Sys2Proof.Machine.execDeadTimeComplete o s
  | .pilotLoopClosed o => Sys2Proof.Machine.execPilotLoopClosed o s
  | .pilotLoopOpen o => Sys2Proof.Machine.execPilotLoopOpen o s
  | .importWatchComplete => Sys2Proof.Machine.execImportWatchComplete s
  | .capWatchComplete o => Sys2Proof.Machine.execCapWatchComplete o s
  | .energiseTimeExpiry o => Sys2Proof.Machine.execEnergiseTimeExpiry o s
  | .syncTimeExpiry o => Sys2Proof.Machine.execSyncTimeExpiry o s
  | .rampInTick o => Sys2Proof.Machine.execRampInTick o s
  | .capacityShortExpiry o => Sys2Proof.Machine.execCapacityShortExpiry o s
  | .rampInLimitExpiry o => Sys2Proof.Machine.execRampInLimitExpiry o s
  | .returnWaitExpiry o => Sys2Proof.Machine.execReturnWaitExpiry o s
  | .rampOutTick o => Sys2Proof.Machine.execRampOutTick o s
  | .unloadedComplete o => Sys2Proof.Machine.execUnloadedComplete o s
  | .rampOutTimeout o => Sys2Proof.Machine.execRampOutTimeout o s
  | .openTimeExpiry o => Sys2Proof.Machine.execOpenTimeExpiry o s
  | .postTripTimeExpiry o => Sys2Proof.Machine.execPostTripTimeExpiry o s
  | .voltageWatchComplete o => Sys2Proof.Machine.execVoltageWatchComplete o s
  | .capacityWatchComplete o => Sys2Proof.Machine.execCapacityWatchComplete o s
  | .reverseWatchComplete o => Sys2Proof.Machine.execReverseWatchComplete o s
  | .gridWatchComplete => Sys2Proof.Machine.execGridWatchComplete s
  | .wakeTimeExpiry o => Sys2Proof.Machine.execWakeTimeExpiry o s
  | .replyWindowClose o held => Sys2Proof.Machine.execReplyWindowClose o held s
  | .present o held frame => Sys2Proof.Machine.execPresent o held frame s
  | .status o held frame => Sys2Proof.Machine.execStatus o held frame s
  | .badFrame o held src => Sys2Proof.Machine.execBadFrame o held src s
  | .incompleteFrame o held src => Sys2Proof.Machine.execIncompleteFrame o held src s
  | .linkCycle o held => Sys2Proof.Machine.execLinkCycle o held s
  | .slotEnd o held frame => Sys2Proof.Machine.execSlotEnd o held frame s
  | .shipSlotExpiry o => Sys2Proof.Machine.execShipSlotExpiry o s
  | .genStatus o held frame => Sys2Proof.Machine.execGenStatus o held frame s
  | .generatorStale o number => Sys2Proof.Machine.execGeneratorStale o number s
  | .lineDominant o => Sys2Proof.Machine.execLineDominant o s
  | .stuckMissTick o => Sys2Proof.Machine.execStuckMissTick o s
  | .stuckLook o dominant held => Sys2Proof.Machine.execStuckLook o dominant held s
  | .gapOpens o => Sys2Proof.Machine.execGapOpens o s
  | .idleGap next => Sys2Proof.Machine.execIdleGap next s
  | .receiveDiscard cause => Sys2Proof.Machine.execReceiveDiscard cause s
  | .crcError => Sys2Proof.Machine.execCrcError s
  | .busy kind tag => Sys2Proof.Machine.execBusy kind tag s
  | .replySent => Sys2Proof.Machine.execReplySent s
  | .unknownRequest kind tag => Sys2Proof.Machine.execUnknownRequest kind tag s
  | .configureStation tag payload => Sys2Proof.Machine.execConfigureStation tag payload s
  | .readStation tag payload => Sys2Proof.Machine.execReadStation tag payload s
  | .readTime tag payload => Sys2Proof.Machine.execReadTime tag payload s
  | .setTime tag payload => Sys2Proof.Machine.execSetTime tag payload s
  | .setImportLimit tag payload => Sys2Proof.Machine.execSetImportLimit tag payload s
  | .setBands tag payload => Sys2Proof.Machine.execSetBands tag payload s
  | .restart tag payload => Sys2Proof.Machine.execRestart tag payload s
  | .declareModule tag payload => Sys2Proof.Machine.execDeclareModule tag payload s
  | .unlockModule tag payload => Sys2Proof.Machine.execUnlockModule tag payload s
  | .withdrawModule tag payload => Sys2Proof.Machine.execWithdrawModule tag payload s
  | .readModules tag payload => Sys2Proof.Machine.execReadModules tag payload s
  | .configureOutlet tag payload => Sys2Proof.Machine.execConfigureOutlet tag payload s
  | .readOutlet tag payload => Sys2Proof.Machine.execReadOutlet tag payload s
  | .authorise tag payload => Sys2Proof.Machine.execAuthorise tag payload s
  | .revoke tag payload => Sys2Proof.Machine.execRevoke tag payload s
  | .readAuthorisations tag payload => Sys2Proof.Machine.execReadAuthorisations tag payload s
  | .endSession tag payload => Sys2Proof.Machine.execEndSession tag payload s
  | .resetOutlet tag payload => Sys2Proof.Machine.execResetOutlet tag payload s
  | .setCap tag payload => Sys2Proof.Machine.execSetCap tag payload s
  | .setIslandTrim tag payload => Sys2Proof.Machine.execSetIslandTrim tag payload s
  | .readStations tag payload => Sys2Proof.Machine.execReadStations tag payload s
  | .readGenerators tag payload => Sys2Proof.Machine.execReadGenerators tag payload s
  | .readMeters tag payload => Sys2Proof.Machine.execReadMeters tag payload s
  | .readBilling tag payload => Sys2Proof.Machine.execReadBilling tag payload s
  | .releaseBilling tag payload => Sys2Proof.Machine.execReleaseBilling tag payload s
  | .flushInterval tag payload => Sys2Proof.Machine.execFlushInterval tag payload s
  | .readEvents tag payload => Sys2Proof.Machine.execReadEvents tag payload s
  | .readFaults tag payload => Sys2Proof.Machine.execReadFaults tag payload s
  | .clearFaults tag payload => Sys2Proof.Machine.execClearFaults tag payload s
  | .setReporting tag payload => Sys2Proof.Machine.execSetReporting tag payload s
  | .syncByte => Sys2Proof.Machine.execSyncByte s
  | .leaderFrameSent o held => Sys2Proof.Machine.execLeaderFrameSent o held s

end Sys2Proof.Machine
end

