-- ==== Sys2Proof/Machine/Timing.lean ====
section
/-! DEFINITION. The part's own clock (R5, R6): the commands that its running times make due, and what
an idle step does (log entry 2). A time falls due when the run count stands its length or more beyond
its start. -/

namespace Sys2Proof.Machine

open Sys2Proof

/-- A time that runs has run its length, in µs. -/
def State.over (s : State) (since : Option RunCount) (micros : Nat) : Bool :=
  match since with
  | some r => s.ran r micros
  | none => false

/-- A command, if it is due. -/
def dueIf (due : Bool) (c : Instr) : List Instr := if due then [c] else []

/-- The station's commands that are due: the retry time (R4), the PPS time (R11), the command records
of each millisecond (R20), the start time (R26), the import watch (R87), the grid watch (R115). -/
def State.dueAtStation (s : State) : List Instr :=
  let starting : Option RunCount :=
    match s.pool.unit with
    | some u => if u.ended then none else some u.since
    | none => none
  dueIf (s.tb.state == .xoFailed && s.over s.tb.retryFrom 60000000) .retryTimeExpiry
    ++ dueIf (s.over s.tb.ppsFrom 3000000) .ppsTimeExpiry
    ++ dueIf (s.ran s.pool.commandFrom 1000) .commandRecord
    ++ dueIf (s.over starting 2000000) .startTimeExpiry
    ++ dueIf (s.over s.account.importFrom 60000000) .importWatchComplete
    ++ dueIf (!s.gridWatch.standing && s.over s.gridWatch.since 200000) .gridWatchComplete

/-- The commands of a module that are due: line loss (R22), the current timeout and the stop time
(R28). -/
def State.dueAtModule (s : State) (m : ModuleNo) : List Instr :=
  let x := s.module m
  let stopping := x.state == .stopping
  dueIf (x.state != .offline && !x.lineLost && s.ran x.reportAt 20000) (.moduleLineLoss m)
    ++ match x.stop with
       | none => []
       | some p =>
         dueIf (stopping && p.normalFrom.isNone && s.ran p.since 5000000) (.stopCurrentTimeout m)
           ++ dueIf (stopping && s.over p.normalFrom 1000000) (.stopTimeExpiry m)

/-- The updates of the references that are due: those of a millisecond come before its command
records, which carry them (R57). -/
def State.dueUpdates (s : State) : List Instr :=
  Outlet.all.flatMap fun o => dueIf (s.ran (s.berth o).rg.updateFrom 1000) (.rgUpdate o)

/-- The commands of an outlet's MP, RG and SY that are due (R36, R37, R39, R52, R66, R69, R71,
R73). -/
def State.dueAtBus (s : State) (o : Outlet) : List Instr :=
  let b := s.berth o
  let hold :=
    match b.mp.hold with
    | some h => b.sc.state == .tripped && s.ran h.since (h.length * 1000000)
    | none => false
  let instant :=
    match b.sy.close with
    | .scheduled plan => s.ran (plan.due - BitVec.ofNat 64 plan.delay) plan.delay
    | .watching | .inFlight => false
  let confirmation :=
    match b.sy.close, b.sy.record with
    | .inFlight, some c => s.ran c.command.run ((c.tc + 150) * 1000)
    | _, _ => false
  dueIf hold (.holdTimeExpiry o)
    ++ dueIf (s.growAllowed o && s.over b.mp.growFrom 5000000) (.growWatchComplete o)
    ++ dueIf (s.over b.mp.shrinkFrom 60000000) (.shrinkWatchComplete o)
    ++ dueIf (b.rg.awaitsPair && !b.rg.holding && s.over b.rg.recordTime 100000) (.holdingTimeout o)
    ++ dueIf instant (.dueInstant o)
    ++ dueIf confirmation (.confirmationTimeExpiry o)
    ++ dueIf (s.over b.sy.driveFrom 200000) (.openDriveFailTime o)
    ++ dueIf (!b.sy.deadComplete && s.over b.sy.deadFrom 2000000) (.deadTimeComplete o)

/-- The commands of an outlet's SC that are due (R87, R90, R91, R93 to R97). -/
def State.dueAtSession (s : State) (o : Outlet) : List Instr :=
  let b := s.berth o
  let r := b.sc
  dueIf (s.over r.capFrom 60000000) (.capWatchComplete o)
    ++ dueIf (r.state == .energising
         && s.over r.energiseFrom (r.settings.energiseTimeout * 1000000)) (.energiseTimeExpiry o)
    ++ dueIf (s.over r.syncFrom (b.sy.settings.syncTimeout * 1000000)) (.syncTimeExpiry o)
    ++ dueIf (r.state == .parallelIn && s.over r.rampFrom 10000) (.rampInTick o)
    ++ dueIf (r.state == .parallelIn && s.over r.capacityShortFrom 10000000)
         (.capacityShortExpiry o)
    ++ dueIf (r.state == .parallelIn && s.over r.rampInFrom (r.settings.rampInLimit * 1000000))
         (.rampInLimitExpiry o)
    ++ dueIf (r.state == .shoreSupply && s.over r.returnFrom 600000000) (.returnWaitExpiry o)
    ++ dueIf (r.state == .parallelOut && s.over r.rampFrom 10000) (.rampOutTick o)
    ++ dueIf (r.state == .parallelOut && s.over r.unloadedFrom 2000000) (.unloadedComplete o)
    ++ dueIf (r.state == .parallelOut && s.over r.rampOutFrom 300000000) (.rampOutTimeout o)
    ++ dueIf (r.state == .opening && s.over r.openFrom 200000) (.openTimeExpiry o)

/-- The commands of an outlet's PR, SL and MT that are due (R107, R112 to R114, R120, R129, R133,
R135, R142). -/
def State.dueAtShip (s : State) (o : Outlet) : List Instr :=
  let b := s.berth o
  let l := b.sl
  let gap :=
    match b.mt with
    | some m => b.lines.breakerClosed && m.gapFrom.isNone
                  && s.ran (m.gapBase s.tb.run b.lines.closedAt) 100000
    | none => false
  dueIf (s.over b.pr.postTripFrom 200000) (.postTripTimeExpiry o)
    ++ dueIf (s.over b.pr.voltageFrom 1000000) (.voltageWatchComplete o)
    ++ dueIf (s.over b.pr.capacityFrom 5000000) (.capacityWatchComplete o)
    ++ dueIf (s.over b.pr.reverseFrom 2000000) (.reverseWatchComplete o)
    ++ dueIf (l.state == .waking && s.over l.wakeFrom l.wakeLength) (.wakeTimeExpiry o)
    ++ dueIf (l.state == .cycling && l.step == .rest && l.activity == .quiet
         && s.ran l.cycleFrom 100000) (.linkCycle o l.attention)
    ++ (l.generators.filter fun g => !g.stale && s.ran g.updated 2000000).map
         (fun g => .generatorStale o g.number)
    ++ dueIf (l.state == .stuck && s.ran l.missFrom 100000) (.stuckMissTick o)
    ++ dueIf gap (.gapOpens o)

/-- The commands that the part's own times make due at the present run count. -/
def State.dueCommands (s : State) : List Instr :=
  s.dueUpdates ++ s.dueAtStation ++ ModuleNo.all.flatMap s.dueAtModule
    ++ Outlet.all.flatMap fun o => s.dueAtBus o ++ s.dueAtSession o ++ s.dueAtShip o

/-- One microsecond of the running source (R5, R6): where it completes a second, the one-second tick
is put in the queue, and makes the change of the time of day. -/
def State.microsecond (s : State) : State :=
  if 999999 ≤ s.tb.subSecond then
    { s with tb := { s.tb with run := s.tb.run + 1 }, pending := [.oneSecondTick] }
  else { s with tb := { s.tb with run := s.tb.run + 1, subSecond := s.tb.subSecond + 1 } }

/-- A step with no command waiting: the first command that is due is put in the queue, and where none
is due one microsecond passes. -/
def State.idle (s : State) : State :=
  match s.dueCommands with
  | c :: _ => { s with pending := [c] }
  | [] => s.microsecond

end Sys2Proof.Machine
end

