-- ==== Sys2Proof/Safety.lean ====
section
/-! DEFINITION. What claims about the part are stated in: frames (what a command leaves as it was), and
the invariants of the billing queue, the event queue, the claims and the outlets. -/

namespace Sys2Proof.Machine

open Sys2Proof

/-! ### Frames -/

/-- An outlet's berth is the same but for its part of the module pool. -/
structure SameButPool (b c : Berth) : Prop where
  sc : c.sc = b.sc
  lines : c.lines = b.lines
  mu : c.mu = b.mu
  rg : c.rg = b.rg
  sy : c.sy = b.sy
  pr : c.pr = b.pr
  sl : c.sl = b.sl
  mt : c.mt = b.mt

/-- A berth keeps its inputs and settings: its measures (but for the clip-reported flag), its lines (but
for the link power it drives), and the settings of SC, RG, SY and PR. -/
structure SameInputs (b c : Berth) : Prop where
  shore : c.mu.shore = b.mu.shore
  ship : c.mu.ship = b.mu.ship
  pair : c.mu.pair = b.mu.pair
  power : c.mu.power = b.mu.power
  pilot : c.lines.pilotClosed = b.lines.pilotClosed
  breaker : c.lines.breakerClosed = b.lines.breakerClosed
  closedAt : c.lines.closedAt = b.lines.closedAt
  settings : c.sc.settings = b.sc.settings
  gain : c.rg.gain = b.rg.gain
  islandTrim : c.rg.islandTrim = b.rg.islandTrim
  syncSettings : c.sy.settings = b.sy.settings
  tripPct : c.pr.tripPct = b.pr.tripPct

/-- The outlet waits for an evaluation pass: its state is AWAIT_AUTH (R88). -/
def State.waits (s : State) (o : Outlet) : Bool := (s.berth o).sc.state == .awaitAuth

/-- No outlet waits for an evaluation pass. -/
def State.noneWaits (s : State) : Prop := ∀ o, s.waits o = false

/-- The station's blocks keep all that neither a change of an outlet's state, nor the module pool, nor
an evaluation pass may change: TB, the grid's measures and watch, SVL, the settings, the import
account's limit and watch, FE's settings, and the queue of commands. -/
structure SameStation (s t : State) : Prop where
  tb : t.tb = s.tb
  grid : t.grid = s.grid
  gridWatch : t.gridWatch = s.gridWatch
  svl : t.svl = s.svl
  pending : t.pending = s.pending
  tripHold : t.pool.tripHold = s.pool.tripHold
  commandFrom : t.pool.commandFrom = s.pool.commandFrom
  limit : t.account.limit = s.account.limit
  headroom : t.account.headroom = s.account.headroom
  importFrom : t.account.importFrom = s.account.importFrom
  importReported : t.account.importReported = s.account.importReported
  length : t.metering.length = s.metering.length
  rounding : t.metering.rounding = s.metering.rounding
  bands : t.metering.bands = s.metering.bands
  enables : t.fe.enables = s.fe.enables
  outletEvents : t.fe.outletEvents = s.fe.outletEvents
  reportOff : t.fe.reportOff = s.fe.reportOff

/-- The module is one that the handling of the outlets of a list, the arbitration and an evaluation
pass leave alone: it is not IDLE, not one of a list of modules, and not assigned to an outlet of the
list or to one that waits. -/
def State.bystander (s : State) (os : List Outlet) (ms : List ModuleNo) (m : ModuleNo) : Prop :=
  m ∉ ms ∧ (s.module m).state ≠ .idle
    ∧ ∀ p, (s.module m).outlet = some p → p ∉ os ∧ s.waits p = false

/-- A command that handles the outlets of a list and the modules of a list leaves the rest as it was:
the station, every other outlet that does not wait (but for its part of the pool), every module that is
not concerned, and every outlet's inputs and settings. -/
structure Elsewhere (os : List Outlet) (ms : List ModuleNo) (s t : State) : Prop where
  station : SameStation s t
  berth : ∀ p, p ∉ os → s.waits p = false → SameButPool (s.berth p) (t.berth p)
  module : ∀ m, s.bystander os ms m → t.module m = s.module m
  inputs : ∀ p, SameInputs (s.berth p) (t.berth p)

/-- A command opens no session where no outlet waits, so that the authorisation table and the session
counter are kept. -/
def KeepsAccount (s t : State) : Prop := s.noneWaits → t.noneWaits ∧ t.account = s.account

/-- What FE has taken when one fault is raised: its flag, and the fault-since-clear. -/
structure Raised (k : FaultKind) (s t : State) : Prop where
  flags : t.fe.flags = s.fe.flags ||| k.bit
  sinceClear : t.fe.sinceClear = true

/-- FE has taken no fault: flags, fault-since-clear and capture are kept. -/
structure NoFault (s t : State) : Prop where
  flags : t.fe.flags = s.fe.flags
  sinceClear : t.fe.sinceClear = s.fe.sinceClear
  capture : t.fe.capture = s.fe.capture

/-- Each open interval takes note of the clock quality in force, and nothing else at an outlet changes
(R12, R145). -/
def MetersSee (s t : State) : Prop :=
  ∀ o, t.berth o = { s.berth o with mt := (s.berth o).mt.map fun m =>
    { m with interval := { m.interval with worst := m.interval.worst.worse t.tb.quality } } }

/-! ### Trips, wind-down and the close of a session -/

/-- No condition holds that trips an outlet at its entry to a state (R105, R109, R115). -/
structure State.NoEntryCause (s : State) (o : Outlet) : Prop where
  pilot : (s.berth o).lines.pilotClosed = true
  stop : (s.berth o).sl.stopShown = false
  scp : (s.berth o).sl.scpPresent = true
  grid : s.gridWatch.standing = false

/-- What a trip of an outlet by a cause comes to (R38, R70, R106, R107): the state TRIPPED with its first
cause, the session kept, RG in OFF, no close made or planned, PR's drive set and its post-trip time
started with every count and watch at zero, the trip counted, the RUNNING modules HELD (or stopping, with
a trip hold time of 0) and a STARTING one stopping, and the cause's fault flag set. -/
structure Tripped (o : Outlet) (c : Cause) (s t : State) : Prop where
  state : (t.berth o).sc.state = .tripped
  cause : (t.berth o).sc.firstCause = some c
  session : (t.berth o).sc.session = (s.berth o).sc.session
  declaration : (t.berth o).sc.declaration = (s.berth o).sc.declaration
  target : (t.berth o).sc.target = (s.berth o).sc.target
  mode : (t.berth o).rg.mode = .off
  close : (t.berth o).sy.close = .watching
  drive : (t.berth o).pr.openDrive = true
  postTrip : (t.berth o).pr.postTripFrom = some s.tb.run
  counts : (t.berth o).pr.overload = 0 ∧ (t.berth o).pr.frequency = 0
  watches : (t.berth o).pr.voltageFrom = none ∧ (t.berth o).pr.capacityFrom = none
    ∧ (t.berth o).pr.reverseFrom = none
  laterCauses : (t.berth o).pr.laterCauses = []
  meter : (t.berth o).mt
    = (s.berth o).mt.map fun m => { m with trips := min 65535 (m.trips + 1) }
  running : ∀ m, (s.module m).outlet = some o → (s.module m).state = .running →
    (t.module m).state = (if s.pool.tripHold = 0 then .stopping else .held)
      ∧ (t.module m).outlet = some o
  starting : ∀ m, (s.module m).outlet = some o → (s.module m).state = .starting →
    (t.module m).state = .stopping ∧ (t.module m).outlet = some o
  flag : t.fe.flags &&& c.fault.bit = c.fault.bit

/-- What a cause that completes in TRIPPED with the feedback closed comes to (R108): the outlet stays in
TRIPPED with its first cause, hold time, drive and post-trip time, and the cause is among the later causes,
its fault raised where it was not one of them before. -/
structure TakesLaterCause (o : Outlet) (c : Cause) (s t : State) : Prop where
  state : (t.berth o).sc.state = .tripped
  cause : (t.berth o).sc.firstCause = (s.berth o).sc.firstCause
  hold : (t.berth o).mp.hold = (s.berth o).mp.hold
  drive : (t.berth o).pr.openDrive = (s.berth o).pr.openDrive
  postTrip : (t.berth o).pr.postTripFrom = (s.berth o).pr.postTripFrom
  causes : (t.berth o).pr.laterCauses
    = if (s.berth o).pr.laterCauses.contains c then (s.berth o).pr.laterCauses
      else (s.berth o).pr.laterCauses ++ [c]
  raised : (s.berth o).pr.laterCauses.contains c = false →
    t.fe.flags &&& c.fault.bit = c.fault.bit ∧ t.fe.sinceClear = true
  once : (s.berth o).pr.laterCauses.contains c = true →
    t.fe.flags &&& c.fault.bit = s.fe.flags &&& c.fault.bit

/-- What an entry to WIND_DOWN comes to while a module of the outlet, or a closed feedback, keeps the
session open (R27, R28, R98): every module of the outlet stops, RG is in OFF, and session and meter stand
as they were. -/
structure WindsDown (o : Outlet) (s t : State) : Prop where
  state : (t.berth o).sc.state = .windDown
  session : (t.berth o).sc.session = (s.berth o).sc.session
  meter : (t.berth o).mt = (s.berth o).mt
  mode : (t.berth o).rg.mode = .off
  running : ∀ m, (s.module m).outlet = some o →
    (s.module m).state = .running ∨ (s.module m).state = .held →
      (t.module m).state = .stopping ∧ (t.module m).outlet = some o
        ∧ (t.module m).stop = some { endedStart := false, since := s.tb.run, normalFrom := none }
  starting : ∀ m, (s.module m).outlet = some o → (s.module m).state = .starting →
    (t.module m).state = .stopping ∧ (t.module m).outlet = some o
      ∧ (t.module m).stop
          = some { endedStart := true, since := s.tb.run, normalFrom := some s.tb.run }

/-- What becomes of PR's drive and post-trip time where the outlet goes from TRIPPED to WIND_DOWN (R107): they
run on while the feedback shows closed. With it open they end at the change (log entry 55, DEDUCED). -/
structure DriveRunsOn (b c : Berth) : Prop where
  drive : c.pr.openDrive = (b.pr.openDrive && b.lines.breakerClosed)
  postTrip : c.pr.postTripFrom = if b.lines.breakerClosed then b.pr.postTripFrom else none

/-- Something keeps the session of an outlet in WIND_DOWN open: its feedback shows closed, or a module
that is not IDLE is assigned to it (R98). -/
def State.keptOpen (s : State) (o : Outlet) : Prop :=
  (s.berth o).lines.breakerClosed = true
    ∨ ∃ m, (s.module m).outlet = some o ∧ (s.module m).state ≠ .idle

/-- What the close of an outlet's session comes to (R98, R152): no session and no meter, the outlet in
CABLE_PROVEN or DORMANT as the pilot loop shows, its declaration and target cleared, and the session's
last record stored as the newest with the reason SESSION_END. -/
structure SessionCloses (o : Outlet) (x : Session) (s t : State) : Prop where
  session : (t.berth o).sc.session = none
  meter : (t.berth o).mt = none
  state : (t.berth o).sc.state
    = if (s.berth o).lines.pilotClosed then .cableProven else .dormant
  declaration : (t.berth o).sc.declaration = none
  target : (t.berth o).sc.target = 0
  record : ∃ r, t.metering.queue = s.metering.queue ++ [r] ∧ r.reason = .sessionEnd
    ∧ r.outlet = o ∧ r.sequence = s.metering.sequence ∧ r.part.isSome = true
    ∧ ∀ m, (s.berth o).mt = some m → r.session = m.session
  sequence : t.metering.sequence = s.metering.sequence + 1

/-- The state with an outlet's feedback changed to closed now. -/
def State.contact (s : State) (o : Outlet) : State :=
  s.onLines o fun l => { l with breakerClosed := true, closedAt := some s.tb.run }

/-- The state with an outlet's feedback changed to open now, an open measurement gap ended (R142). -/
def State.parted (s : State) (o : Outlet) : State :=
  (s.onLines o fun l => { l with breakerClosed := false }).onMt o fun m => m.endGap s.tb.run

/-! ### Restarts and records -/

/-- What a warm restart leaves of an outlet (R18, R41, R59, R75, R99, R103, R117, R119, R138, R140): its
inputs, settings and session stand; its state is TRIPPED by RESTART with a session or a closed feedback,
and CABLE_PROVEN or DORMANT otherwise; SC's reasons, requests, notices, times and watches are discarded; RG
is in OFF, no close is made or planned, nothing is watched or pending, a hold time starts anew with a
session held (log entry 36, DEDUCED: with or without a HELD module), and SL starts anew. -/
structure OutletRestarted (s : State) (b c : Berth) : Prop where
  state : c.sc.state
    = if b.sc.session.isSome = true ∨ b.lines.breakerClosed = true then .tripped
      else if b.lines.pilotClosed = true then .cableProven else .dormant
  session : c.sc.session = b.sc.session
  declaration : c.sc.declaration = if b.sc.session.isSome then b.sc.declaration else none
  target : c.sc.target = if b.sc.session.isSome then b.sc.target else 0
  cause : c.sc.firstCause = if c.sc.state = .tripped then some .restart else none
  openDrive : c.sc.openDrive = (c.sc.state == .tripped && b.lines.breakerClosed)
  requests : c.sc.endRequested = false ∧ c.sc.returnAwaited = false
  reasons : c.sc.waiting = none ∧ c.sc.denial = none
  notices : c.sc.prepareReturn = false ∧ c.sc.deny = false
  times : c.sc.energiseFrom = none ∧ c.sc.syncFrom = none ∧ c.sc.syncExpired = false
    ∧ c.sc.rampFrom = none ∧ c.sc.rampInFrom = none ∧ c.sc.capacityShortFrom = none
    ∧ c.sc.returnFrom = none ∧ c.sc.rampOutFrom = none ∧ c.sc.unloadedFrom = none
    ∧ c.sc.openFrom = none ∧ c.sc.capFrom = none
  entered : c.sc.state ≠ b.sc.state → c.sc.entered = s.now
  settings : c.sc.settings = b.sc.settings
  lines : c.lines = { b.lines with linkPower := c.sc.state != .dormant }
  measures : c.mu = { shore := .reset s.tb.run, ship := .reset s.tb.run, pair := none, power := none
                      clipReported := false }
  pool : c.mp.entry = none ∧ c.mp.growFrom = none ∧ c.mp.shrinkFrom = none ∧ c.mp.voluntary = none
    ∧ c.mp.replaceArisen = false
  hold : c.mp.hold = if b.sc.session.isSome = true ∧ s.pool.tripHold ≠ 0 then
      some { since := s.tb.run, length := s.pool.tripHold } else none
  references : c.rg = { b.rg with mode := .off, delta := 0, pSet := 0, holding := false, updated := false
                                  clamped := false, recordTime := none }
  close : c.sy.close = .watching ∧ c.sy.closeOutput = false ∧ c.sy.openDrive = false
    ∧ c.sy.driveFrom = none ∧ c.sy.deadFrom = none ∧ c.sy.deadComplete = false
  synchroniser : c.sy.settings = b.sy.settings ∧ c.sy.tc = b.sy.tc ∧ c.sy.attempts = b.sy.attempts
  record : c.sy.record = if b.sy.close = .inFlight then
      b.sy.record.map (fun r => { r with outcome := .ended }) else b.sy.record
  protection : c.pr = { tripPct := b.pr.tripPct, overload := 0, frequency := 0, voltageFrom := none
                        capacityFrom := none, reverseFrom := none, openDrive := false
                        postTripFrom := if c.sc.state = .tripped then some s.tb.run else none
                        breakerFail := false, laterCauses := [] }
  link : c.sl.state = (if c.sc.state = .dormant then .unpowered else .waking)
    ∧ c.sl.stations = [] ∧ c.sl.generators = [] ∧ c.sl.collisions = 0 ∧ c.sl.activity = .quiet
  meter : c.mt = if c.sc.state = .tripped then
      b.mt.map (fun m => { m with trips := min 65535 (m.trips + 1) }) else b.mt

/-- What a warm restart leaves of a module (R38, R41): a STARTING one stops, a RUNNING or HELD one is
HELD or, with a trip hold time of 0, stops, and any other is as it was. -/
structure ModuleRestarted (s : State) (m n : Module) : Prop where
  starting : m.state = .starting →
    n = { m with state := .stopping, shareTarget := 0
                 stop := some { endedStart := true, since := s.tb.run, normalFrom := some s.tb.run } }
  loaded : m.state = .running ∨ m.state = .held → s.pool.tripHold ≠ 0 → n = { m with state := .held }
  unheld : m.state = .running ∨ m.state = .held → s.pool.tripHold = 0 →
    n = { m with state := .stopping, shareTarget := 0
                 stop := some { endedStart := false, since := s.tb.run, normalFrom := none } }
  other : m.state ≠ .starting → m.state ≠ .running → m.state ≠ .held → n = m

/-- The reports of an outlet at a warm restart (R117, R170): its change of state, where outlet events are
on, and its RESTART trip. DEDUCED (log entry 42): a restart into the state the outlet was in is no change. -/
def State.restartReports (s t : State) (o : Outlet) : List EventRecord :=
  (if s.fe.outletEvents = true ∧ (t.berth o).sc.state ≠ (s.berth o).sc.state then
    [s.eventNow .outletState (.outlet o) (some (t.berth o).sc.state.code)] else [])
  ++ (if (t.berth o).sc.state = .tripped then [s.eventNow (.fault .restart) (.outlet o) none] else [])

/-- The capture after a warm restart (R162, R170): kept, but for the RESTART trips of outlets, the last of
which it shows. DESIGN CHOICE (log entry 29), unsafe: the last taken is that of the highest outlet. -/
def State.restartCapture (s t : State) : Option Capture :=
  match (Outlet.all.filter fun o => (t.berth o).sc.state == .tripped).getLast? with
  | some o => some { kind := .restart, source := .outlet o, seconds := s.tb.seconds
                     millis := s.tb.subSecond / 1000 }
  | none => s.fe.capture

/-- What a warm restart leaves of the part (R170, R181, R182): of the event queue the station's RESTART and
the reports of the outlets alone, in order of outlet (log entry 29). -/
structure Restarted (s t : State) : Prop where
  tb : t.tb = s.tb
  grid : t.grid = { point := .reset s.tb.run, nominal := s.grid.nominal }
  gridWatch : t.gridWatch = { since := some s.tb.run, standing := false }
  account : t.account = { s.account with importFrom := none, importReported := false }
  metering : t.metering = s.metering
  pending : t.pending = s.pending
  svl : t.svl = { s.svl with receive := .hunting, buffer := [], inProgress := none, transmit := [] }
  unit : t.pool.unit = none
  tripHold : t.pool.tripHold = s.pool.tripHold
  commandFrom : t.pool.commandFrom = s.pool.commandFrom
  module : ∀ m, ModuleRestarted s (s.module m) (t.module m)
  flags : t.fe.flags = s.fe.flags ||| FaultKind.restart.bit
  sinceClear : t.fe.sinceClear = true
  queue : t.fe.queue
    = s.eventNow (.fault .restart) .station none :: Outlet.all.flatMap (s.restartReports t)
  capture : t.fe.capture = s.restartCapture t
  reporting : t.fe.enables = s.fe.enables ∧ t.fe.outletEvents = s.fe.outletEvents
    ∧ t.fe.reportOff = s.fe.reportOff
  outlet : ∀ o, OutletRestarted s (s.berth o) (t.berth o)

/-- A zero crossing at a point now ends a cycle with a cycle record (R13, R14): from 14,286 to 25,000 µs
after the last one, at a voltage of a tenth of nominal or more. -/
structure State.EndsCycle (s : State) (pt : MeasPoint) (v : LineVoltages) : Prop where
  period : ∃ last, (s.point pt).cycle = some last ∧ 14286 ≤ elapsed s.tb.run last.run
    ∧ elapsed s.tb.run last.run ≤ 25000
  volts : s.nominalAt pt / 10 ≤ min 15000 ((v.v12 + v.v23 + v.v31) / 3)

/-- A zero crossing at a point now makes an outlet's power record (R16): it ends a cycle of Pn, or of Sn
while Pn is dead. -/
structure State.MakesPower (s : State) (o : Outlet) (pt : MeasPoint) (v : LineVoltages) : Prop where
  point : pt = .ship o ∨ (pt = .shore o ∧ (s.berth o).mu.ship.live = false)
  cycle : s.EndsCycle pt v

/-- A command that brings a record of a measuring point now (R13, R14): the cadence with no cycle in
progress, a cycle's lapse, or a zero crossing that ends a cycle. -/
def State.BringsRecord (s : State) (pt : MeasPoint) (v : LineVoltages) (i : Instr) : Prop :=
  (i = .voltageOnlyCadence pt v ∧ (s.point pt).cycle = none)
    ∨ (i = .cycleLapse pt v ∧ (s.point pt).cycle ≠ none)
    ∨ (∃ c last, i = .zeroCrossing pt v c ∧ (s.point pt).cycle = some last
      ∧ 14286 ≤ elapsed s.tb.run last.run ∧ elapsed s.tb.run last.run ≤ 25000)

/-- A measuring point's record leaves the rest as it was: every other point, the station (but for the
grid watch, at a record of G, and the import watch, at a power record) and every other outlet that does
not wait, but for its part of the pool. -/
structure MeasuredFrame (pt : MeasPoint) (s t : State) : Prop where
  points : ∀ q, q ≠ pt → t.point q = s.point q
  station : SameStation
    { s with grid := t.grid, gridWatch := t.gridWatch
             account := { s.account with importFrom := t.account.importFrom
                                         importReported := t.account.importReported } } t
  gridPoint : pt = .grid → s.passDue = false →
    t = { s with grid := { s.grid with point := t.grid.point }, gridWatch := t.gridWatch }
  outletPoint : pt ≠ .grid → t.grid = s.grid ∧ t.gridWatch = s.gridWatch
  berth : ∀ p, pt ≠ .shore p → pt ≠ .ship p → s.waits p = false →
    SameButPool (s.berth p) (t.berth p)

/-- What the entry of a module to FAULTED comes to (R26, R28, R29): no outlet, the count raised to 3 at
most, a code copied where one is given, and the fault's flag set. -/
structure EntersFaulted (m : ModuleNo) (code : Option Nat) (k : FaultKind) (s t : State) : Prop where
  state : (t.module m).state = .faulted
  outlet : (t.module m).outlet = none
  count : (t.module m).faultCount = min 3 ((s.module m).faultCount + 1)
  code : (t.module m).faultCode = (match code with
                                   | some c => some c
                                   | none => (s.module m).faultCode)
  flag : t.fe.flags &&& k.bit = k.bit
  sinceClear : t.fe.sinceClear = true
  elsewhere : Elsewhere (s.module m).outlet.toList [m] s t
  account : KeepsAccount s t

/-- The record of a module with a report's readings copied into it (R21, R22). -/
structure Copied (r : ModuleReport) (s : State) (m : ModuleNo) (n : Module) : Prop where
  power : n.power = some r.power
  band : n.band = r.band
  reportAt : n.reportAt = s.tb.run
  rating : n.rating = (s.module m).rating

/-- A report leaves the effective rating of a module as it was: it is not in the band HOT before or
after, or is in it before and after (R21). -/
def State.sameRating (s : State) (m : ModuleNo) (r : ModuleReport) : Prop :=
  r.band = .hot ↔ (s.module m).band = .hot

/-! ### Replies of the supervisory link -/

/-- The state with a request taken and its reply owed (R173, R184): SVL hunts, the request is in
progress, and the reply, of the request's kind with the top bit set, is the last of the transmit list. -/
def State.answered (s : State) (kind tag : Byte) (payload : List Byte) : State :=
  { s with svl := { s.svl with
      receive := .hunting, buffer := []
      inProgress := some { kind, tag }
      transmit := s.svl.transmit
        ++ [{ kind := kind ||| 0x80, tag, payload, answers := true }] } }

/-- The state with a good frame turned away (R173): a BUSY reply owed, or with four owed an overrun. -/
def State.turnedAway (s : State) (kind tag : Byte) : State :=
  { s with svl :=
      if (s.svl.transmit.filter fun r => !r.answers).length < 4 then
        { s.svl with
          receive := .hunting, buffer := []
          transmit := s.svl.transmit
            ++ [{ kind := kind ||| 0x80, tag, payload := [7], answers := false }] }
      else { s.svl with receive := .hunting, buffer := []
                        overruns := min 65535 (s.svl.overruns + 1) } }

/-- The length of a request's payload by its kind (R184); that of SET_BANDS follows from its first
byte. -/
def payloadLength (kind : Byte) (p : List Byte) : Option Nat :=
  match kind.toNat with
  | 0x01 => some 12
  | 0x02 | 0x06 | 0x07 | 0x13 | 0x24 | 0x41 | 0x50 | 0x51 => some 0
  | 0x03 => some 2
  | 0x04 => some (1 + 3 * (match p with
                           | [] => 0
                           | b :: _ => b.toNat))
  | 0x05 | 0x42 | 0x52 => some 4
  | 0x10 | 0x27 => some 3
  | 0x11 | 0x12 | 0x21 | 0x25 | 0x26 | 0x30 | 0x31 | 0x40 | 0x43 => some 1
  | 0x20 => some 25
  | 0x22 => some 11
  | 0x23 | 0x53 => some 5
  | 0x28 => some 2
  | _ => none

/-! ### The ship link -/

/-- The leader waits for the station at an address to answer a frame: a POLL of it, or an ENLISTED with
outcome ACCEPTED, its reply window open (R123). -/
def State.expects (s : State) (o : Outlet) (a : Nat) : Prop :=
  ∃ since, (∃ shore, (s.berth o).sl.activity = .window (.poll a shore) since)
    ∨ (s.berth o).sl.activity = .window (.enlisted a .accepted) since

/-- The leader waits for a station to answer a ROLL_CALL or an ATTENTION_QUERY (R123, R126, R131). -/
def State.calls (s : State) (o : Outlet) : Prop :=
  ∃ since, (∃ mark, (s.berth o).sl.activity = .window (.rollCall mark) since)
    ∨ (s.berth o).sl.activity = .window .attentionQuery since

/-- The state with a station turned away that found the table full (note c of R126, R127): TOO_MANY_STATIONS
with its address, ENLISTED with REFUSED begun, and in a discovery no further ROLL_CALL to come. -/
def State.turnedAwayStation (s : State) (o : Outlet) (held : Bool) (a : Nat) : State :=
  (s.onSl o fun l => { l with
    attention := held, collisions := 0, activity := .sending (.enlisted a .refused)
    step := match l.step with
            | .rollCall n _ => .rollCall n true
            | other => other }).report .tooManyStations (.outlet o) (some a)

/-- What finding an address shared that an entry in PRESENT or LOST holds comes to beside the entry (note e of
R126, R127): STATION_DUPLICATE is raised and ENLISTED with DUPLICATE begun; protection takes the loss of an
SCP, and every reading becomes UNKNOWN with the loss of a PMS (R130, R135). -/
structure FoundShared (o : Outlet) (a : Nat) (kind : Option StationKind) (s t : State) : Prop where
  collisions : (t.berth o).sl.collisions = 0
  activity : (t.berth o).sl.activity = .sending (.enlisted a .duplicate)
  flag : t.fe.flags &&& FaultKind.stationDuplicate.bit = FaultKind.stationDuplicate.bit
  scpLost : kind = some .scp →
    (s.berth o).sc.state = .closing ∨ (s.berth o).sc.state.breakerClosed = true →
    Tripped o .scpLost s t
  pmsLost : kind = some .pms → ∀ g ∈ (t.berth o).sl.generators, g.breaker = .unknown
  elsewhere : Elsewhere [o] [] s t
  account : KeepsAccount s t
  metering : t.metering = s.metering

/-! ### Invariants -/

/-- R153: the billing queue's sequences increase strictly, below the counter, and the queue and the
open sessions together leave it no more than 96 records. -/
structure BillingInv (s : State) : Prop where
  ascending : (s.metering.queue.map BillingRecord.sequence).Pairwise (· < ·)
  below : ∀ r ∈ s.metering.queue, r.sequence < s.metering.sequence
  room : s.metering.queue.length + s.openSessions ≤ 96

/-- R164, R165: the event queue holds no more than 32 records. -/
def EventInv (s : State) : Prop := s.fe.queue.length ≤ 32

/-- R6: the sub-second count is 0 to 999,999. -/
def ClockInv (s : State) : Prop := s.tb.subSecond < 1000000

/-- The states in which a session is open (Table 5-3): from ENERGISING to WIND_DOWN. -/
def OutletState.inSession : OutletState → Bool
  | .energising | .synchronising | .closing | .parallelIn | .shoreSupply | .parallelOut | .opening
  | .windDown => true
  | .dormant | .cableProven | .awaitAuth | .tripped => false

/-- The states in which no session is open (Table 5-3): before ENERGISING. TRIPPED has one or not. -/
def OutletState.beforeSession : OutletState → Bool
  | .dormant | .cableProven | .awaitAuth => true
  | .energising | .synchronising | .closing | .parallelIn | .shoreSupply | .parallelOut | .opening
  | .windDown | .tripped => false

/-- What an outlet's blocks hold together in every state: SC's session and MT's meter (R89, R98,
R140), SY's close state (R65, R66), RG's mode and power setpoint (R43, R55), and PR's drive and post-trip
time, which stand in TRIPPED and, until the feedback shows open, in WIND_DOWN (R106, R107). -/
structure BerthInv (b : Berth) : Prop where
  session : b.sc.state.inSession = true → b.sc.session.isSome = true
  noSession : b.sc.state.beforeSession = true → b.sc.session = none
  meter : b.mt.isSome = b.sc.session.isSome
  declared : b.sc.session.isSome = true → b.sc.declaration.isSome = true
  waitsDeclared : b.sc.state = .awaitAuth → b.sc.declaration.isSome = true
  scheduled : ∀ plan, b.sy.close = .scheduled plan → b.sc.state = .synchronising
  inFlight : b.sy.close = .inFlight → b.sc.state = .closing
  output : b.sy.closeOutput = true → b.sy.close = .inFlight
  mode : b.rg.mode = b.sc.state.mode
  pSetAbsent : b.rg.mode ≠ .power → b.rg.pSet = 0
  pSetBound : b.rg.pSet ≤ 25000
  drive : b.pr.openDrive = true ∨ b.pr.postTripFrom.isSome = true →
    b.sc.state = .tripped ∨ (b.sc.state = .windDown ∧ b.lines.breakerClosed = true)

/-- Every outlet's blocks agree. -/
def OutletsInv (s : State) : Prop := ∀ o, BerthInv (s.berth o)

/-- R46: the targets of an outlet in a mode other than OFF lie within their bands (Table 3-3). -/
structure TargetsInBand (b : Berth) : Prop where
  freqLow : (freqBand b.nominalFreq).1 ≤ b.rg.freqTarget
  freqHigh : b.rg.freqTarget ≤ (freqBand b.nominalFreq).2
  voltLow : (voltBand b.nominalVolts).1 ≤ b.rg.voltTarget
  voltHigh : b.rg.voltTarget ≤ (voltBand b.nominalVolts).2

/-- R147: for each open session and each direction, the watt-hours billed, the residual and the open
interval's accumulator together are the energy integrated since the session opened. -/
def Energy.Conserved (e : Energy) : Prop :=
  (e.billed : Int) * microjoulesPerWh + e.residual + e.accumulator = e.total

/-- R147: the range of a residual in a rounding mode. -/
def Energy.ResidualFits (mode : Rounding) (e : Energy) : Prop :=
  match mode with
  | .truncate => 0 ≤ e.residual ∧ e.residual < 3600000000
  | .round => -1800000000 ≤ e.residual ∧ e.residual < 1800000000

/-- R147, of every meter. -/
def EnergyInv (s : State) : Prop :=
  ∀ o m, (s.berth o).mt = some m →
    (m.imported.Conserved ∧ m.imported.ResidualFits s.metering.rounding)
      ∧ (m.exported.Conserved ∧ m.exported.ResidualFits s.metering.rounding)

end Sys2Proof.Machine
end

