-- ==== Sys2Proof/WellFormed.lean ====
section
/-! DEFINITION. The commands whose operands a line, a frame or a report can carry. A command that is
not well formed has a meaning too: the checks say only what the part's partners can send. -/

namespace Sys2Proof

/-- A report's fault code is 1 to 255, and present only in FAULT (R21, Table 2-1). -/
def ModuleReport.wellFormed (r : ModuleReport) : Bool :=
  match r.code with
  | none => true
  | some c => r.state == .fault && decide (1 ≤ c ∧ c ≤ 255)

/-- A frame's addresses are bytes and its payload is 0 to 24 bytes (R121, R186). -/
def ShipFrame.wellFormed (f : ShipFrame) : Bool :=
  decide (f.dst < 256) && decide (f.src < 256) && decide (f.payload.length ≤ 24)

/-- A source address as received is a byte (R186). -/
def sourceFits (src : Option Nat) : Bool :=
  match src with
  | none => true
  | some a => decide (a < 256)

/-- A frame that a sticking line cuts short has a byte as its source address, where it was received
(R133). -/
def LineCut.wellFormed : LineCut → Bool
  | .nothing => true
  | .frame src => sourceFits src

/-- The length bytes that make SVL discard a frame are those below 2 or above 242 (R172). -/
def DiscardCause.wellFormed : DiscardCause → Bool
  | .lengthByte b => decide (b.toNat < 2 ∨ 242 < b.toNat)
  | .framingError => true

/-- A kind that no request has (R184). -/
def isUnknownKind (kind : Byte) : Bool :=
  match requestCommand false kind 0 [] with
  | .unknownRequest _ _ => true
  | _ => false

/-- The payload of a supervisory frame is 0 to 240 bytes (R172, R184). -/
def payloadFits (p : List Byte) : Bool := decide (p.length ≤ 240)

/-- A command is well formed. -/
def Instr.wellFormed (i : Instr) : Bool :=
  match i with
  | .moduleReport _ r => r.wellFormed
  | .present _ _ f | .status _ _ f | .slotEnd _ _ f | .genStatus _ _ f => f.wellFormed
  | .badFrame _ _ src => sourceFits (some src)
  | .incompleteFrame _ _ src => sourceFits src
  | .lineDominant line => line.cut.wellFormed
  | .generatorStale _ n => decide (1 ≤ n ∧ n ≤ 4)
  | .receiveDiscard cause => cause.wellFormed
  | .unknownRequest kind _ => isUnknownKind kind
  | .configureStation _ p | .readStation _ p | .setImportLimit _ p
  | .setBands _ p | .setTime _ p | .readTime _ p | .restart _ p
  | .declareModule _ p | .withdrawModule _ p | .unlockModule _ p
  | .readModules _ p | .configureOutlet _ p | .readOutlet _ p | .authorise _ p
  | .revoke _ p | .readAuthorisations _ p | .endSession _ p | .resetOutlet _ p
  | .setCap _ p | .setIslandTrim _ p | .readGenerators _ p
  | .readMeters _ p | .readBilling _ p | .releaseBilling _ p | .flushInterval _ p
  | .readEvents _ p | .readFaults _ p | .clearFaults _ p | .setReporting _ p => payloadFits p
  | .readStations _ p => payloadFits p.bytes
  | .supplyOn _ _ | .resetInput | .qualificationWindowEnd _ | .xoCheck _
  | .retryTimeExpiry | .oneSecondTick | .ppsPulse | .ppsTimeExpiry | .zeroCrossing _ _ _
  | .voltageOnlyCadence _ _ | .cycleLapse _ _ | .moduleLineLoss _ | .commandRecord
  | .startTimeExpiry | .stopCurrentTimeout _ | .stopTimeExpiry _ | .holdTimeExpiry _
  | .growWatchComplete _ | .shrinkWatchComplete _ | .rgUpdate _ | .holdingTimeout _
  | .dueInstant _ | .confirmationTimeExpiry _ | .breakerFeedbackClosed _
  | .breakerFeedbackOpen _ | .openDriveFailTime _ | .deadTimeComplete _
  | .pilotLoopClosed _ | .pilotLoopOpen _ | .importWatchComplete | .capWatchComplete _
  | .energiseTimeExpiry _ | .syncTimeExpiry _ | .rampInTick _ | .capacityShortExpiry _
  | .rampInLimitExpiry _ | .returnWaitExpiry _ | .rampOutTick _ | .unloadedComplete _
  | .rampOutTimeout _ | .openTimeExpiry _ | .postTripTimeExpiry _
  | .voltageWatchComplete _ | .capacityWatchComplete _ | .reverseWatchComplete _
  | .gridWatchComplete | .wakeTimeExpiry _ | .replyWindowClose _ _ | .linkCycle _ _
  | .shipSlotExpiry _ | .stuckMissTick _ | .stuckLook _ _ _
  | .gapOpens _ | .idleGap _ | .crcError | .busy _ _ | .replySent | .syncByte
  | .leaderFrameSent _ _ => true

end Sys2Proof
end

