-- ==== Sys2Proof/Certificates/Slice0/Obligations.lean ====
section
/-! DEFINITION. The statements about the part, one definition each, named for what they state. Their
docstrings name the rules of spec/ they come from. -/

open Sys2Proof Sys2Proof.Machine

/-! ### The machine -/

/-- A step runs the command at the front of the queue on the state with the queue's rest. -/
def Obligations.StepRunsFrontCommand : Prop :=
  ∀ (c : Instr) (rest : List Instr) (s : State), s.pending = c :: rest →
    step s = exec c { s with pending := rest }

/-- MODEL'S CHOICE. No command stops the part (log entry 47, DEDUCED: the manual names no condition in
which it stops), and none touches the queue of the commands that wait, which is the model's own, SUPPLY_ON
included (log entries 40 and 45). -/
def Obligations.EveryCommandAnswersAndKeepsTheQueue : Prop :=
  ∀ (c : Instr) (s : State), ∃ t, exec c s = .next t ∧ t.pending = s.pending
    ∧ (s.passDue = false → t.passDue = false)

/-- MODEL'S CHOICE (log entries 1 and 2). With no command waiting, the first command that the part's own
times make due is put in the queue; where none is due, one microsecond passes (R5), and the microsecond
that completes a second puts the one-second tick in the queue (R6).

A command of a time, a watch or a line that does not apply in the state at hand changes nothing: the time
does not run, the state is another, or the line shows that level already. -/
def Obligations.IdleStepsAndInapplicableCommands : Prop :=
  (∀ s : State, s.pending = [] →
     (∀ c rest, s.dueCommands = c :: rest → step s = .next { s with pending := [c] })
    ∧ (s.dueCommands = [] → s.tb.subSecond < 999999 →
        step s = .next { s with tb := { s.tb with
          run := s.tb.run + 1, subSecond := s.tb.subSecond + 1 } })
    ∧ (s.dueCommands = [] → 999999 ≤ s.tb.subSecond →
        step s = .next { s with
          tb := { s.tb with run := s.tb.run + 1 }, pending := [.oneSecondTick] }))
  ∧ (∀ (o : Outlet) (m : ModuleNo) (held : Bool) (n : Nat) (s : State),
    (s.tb.state ≠ .qualifying → exec (.qualificationWindowEnd n) s = .next s)
    ∧ (s.tb.state ≠ .xo → exec (.xoCheck n) s = .next s)
    ∧ (s.tb.state ≠ .xoFailed → exec .retryTimeExpiry s = .next s)
    ∧ (s.tb.ppsFrom = none → exec .ppsTimeExpiry s = .next s)
    ∧ (∀ pt v, ((s.point pt).cycle ≠ none → exec (.voltageOnlyCadence pt v) s = .next s)
      ∧ ((s.point pt).cycle = none → exec (.cycleLapse pt v) s = .next s))
    ∧ (s.pool.unit = none → exec .startTimeExpiry s = .next s)
    ∧ ((s.module m).state ≠ .stopping → exec (.stopCurrentTimeout m) s = .next s
      ∧ exec (.stopTimeExpiry m) s = .next s)
    ∧ ((s.berth o).mp.hold = none → exec (.holdTimeExpiry o) s = .next s)
    ∧ ((s.berth o).mp.growFrom = none → exec (.growWatchComplete o) s = .next s)
    ∧ ((s.berth o).mp.shrinkFrom = none → exec (.shrinkWatchComplete o) s = .next s)
    ∧ ((s.berth o).rg.recordTime = none → exec (.holdingTimeout o) s = .next s)
    ∧ ((∀ plan, (s.berth o).sy.close ≠ .scheduled plan) → exec (.dueInstant o) s = .next s)
    ∧ ((s.berth o).sy.close ≠ .inFlight → exec (.confirmationTimeExpiry o) s = .next s)
    ∧ ((s.berth o).lines.breakerClosed = true → exec (.breakerFeedbackClosed o) s = .next s)
    ∧ ((s.berth o).lines.breakerClosed = false → exec (.breakerFeedbackOpen o) s = .next s
      ∧ exec (.gapOpens o) s = .next s)
    ∧ ((s.berth o).sy.driveFrom = none → exec (.openDriveFailTime o) s = .next s)
    ∧ ((s.berth o).sy.deadFrom = none → exec (.deadTimeComplete o) s = .next s)
    ∧ ((s.berth o).lines.pilotClosed = true → exec (.pilotLoopClosed o) s = .next s)
    ∧ ((s.berth o).lines.pilotClosed = false → exec (.pilotLoopOpen o) s = .next s)
    ∧ (s.account.importFrom = none → exec .importWatchComplete s = .next s)
    ∧ ((s.berth o).sc.capFrom = none → exec (.capWatchComplete o) s = .next s)
    ∧ ((s.berth o).sc.state ≠ .energising → exec (.energiseTimeExpiry o) s = .next s)
    ∧ ((s.berth o).sc.syncFrom = none → exec (.syncTimeExpiry o) s = .next s)
    ∧ ((s.berth o).sc.state ≠ .parallelIn → exec (.rampInTick o) s = .next s
      ∧ exec (.capacityShortExpiry o) s = .next s ∧ exec (.rampInLimitExpiry o) s = .next s)
    ∧ ((s.berth o).sc.state ≠ .shoreSupply → exec (.returnWaitExpiry o) s = .next s)
    ∧ ((s.berth o).sc.state ≠ .parallelOut → exec (.rampOutTick o) s = .next s
      ∧ exec (.unloadedComplete o) s = .next s ∧ exec (.rampOutTimeout o) s = .next s)
    ∧ ((s.berth o).sc.state ≠ .opening → exec (.openTimeExpiry o) s = .next s)
    ∧ ((s.berth o).pr.postTripFrom = none → exec (.postTripTimeExpiry o) s = .next s)
    ∧ ((s.berth o).pr.voltageFrom = none → exec (.voltageWatchComplete o) s = .next s)
    ∧ ((s.berth o).pr.capacityFrom = none → exec (.capacityWatchComplete o) s = .next s)
    ∧ ((s.berth o).pr.reverseFrom = none → exec (.reverseWatchComplete o) s = .next s)
    ∧ (s.gridWatch.since = none → exec .gridWatchComplete s = .next s)
    ∧ ((s.berth o).sl.state ≠ .waking → exec (.wakeTimeExpiry o) s = .next s)
    ∧ ((s.berth o).sl.activity = .quiet → exec (.leaderFrameSent o held) s = .next s
      ∧ exec (.replyWindowClose o held) s = .next s ∧ exec (.shipSlotExpiry o) s = .next s
      ∧ (∀ f, exec (.present o held f) s = .next s ∧ exec (.status o held f) s = .next s
          ∧ exec (.genStatus o held f) s = .next s ∧ exec (.slotEnd o held f) s = .next s)
      ∧ (∀ src, exec (.badFrame o held src) s = .next s)
      ∧ (∀ src, exec (.incompleteFrame o held src) s = .next s))
    ∧ ((s.berth o).sl.state ≠ .cycling → exec (.linkCycle o held) s = .next s)
    ∧ ((s.berth o).sl.state ≠ .stuck → exec (.stuckMissTick o) s = .next s
      ∧ ∀ d, exec (.stuckLook o d held) s = .next s)
    ∧ ((s.berth o).sl.state ≠ .discovering → (s.berth o).sl.state ≠ .cycling →
      ∀ cut, exec (.lineDominant ⟨o, cut⟩) s = .next s)
    ∧ (s.svl.receive = .hunting → (∀ b, exec (.idleGap b) s = .next s)
      ∧ ∀ c, exec (.receiveDiscard c) s = .next s)
    ∧ (s.svl.inProgress = none → ∀ kind tag, exec (.busy kind tag) s = .next s))

/-- What each block holds right after supply-on (R1, R5, R6, R8, R9, R12, R18, R19, R31, R38, R41, R42,
R59, R60, R75, R78, R102, R104, R119, R138, R143, R158, R161, R169, R182): the values that the rules
give. -/
def Obligations.ResetHoldsTheSupplyOnValues : Prop :=
  (State.reset.tb.state = .qualifying ∧ State.reset.tb.xoUse = true
    ∧ State.reset.tb.firstAttempt = true ∧ State.reset.tb.passes = 0 ∧ State.reset.tb.run = 0
    ∧ State.reset.tb.seconds = 0 ∧ State.reset.tb.subSecond = 0 ∧ State.reset.tb.timeUnset = true
    ∧ State.reset.tb.offset = 0 ∧ State.reset.tb.ppsUse = false ∧ State.reset.tb.pps = .off
    ∧ State.reset.tb.quality = .unset)
  ∧ (∀ pt, (State.reset.point pt).live = false ∧ (State.reset.point pt).record = none
      ∧ (State.reset.point pt).cycle = none ∧ State.reset.nominalAt pt = 11000)
  ∧ (∀ o, (State.reset.berth o).mu.power = none ∧ (State.reset.berth o).mu.pair = none
      ∧ (State.reset.berth o).mu.clipReported = false)
  ∧ (∀ m, (State.reset.module m).state = .offline ∧ (State.reset.module m).rating = none
      ∧ (State.reset.module m).outlet = none ∧ (State.reset.module m).faultCount = 0
      ∧ (State.reset.module m).faultCode = none ∧ (State.reset.module m).trim = 0
      ∧ (State.reset.module m).band = .normal ∧ (State.reset.module m).power = none)
  ∧ (State.reset.pool.unit = none ∧ State.reset.pool.tripHold = 30)
  ∧ (∀ o, (State.reset.berth o).sc.state = .dormant ∧ (State.reset.berth o).sc.session = none
      ∧ (State.reset.berth o).sc.declaration = none ∧ (State.reset.berth o).sc.target = 0
      ∧ (State.reset.berth o).sc.waiting = none ∧ (State.reset.berth o).sc.denial = none
      ∧ (State.reset.berth o).sc.firstCause = none ∧ (State.reset.berth o).sc.endRequested = false
      ∧ (State.reset.berth o).sc.returnAwaited = false ∧ (State.reset.berth o).sc.openDrive = false
      ∧ (State.reset.berth o).sc.prepareReturn = false ∧ (State.reset.berth o).sc.deny = false
      ∧ (State.reset.berth o).sc.capFrom = none
      ∧ (State.reset.berth o).sc.settings
          = { nominalVolts := 11000, cableRating := 3000, linkWake := .normal
              energiseTimeout := 600, rampRate := 400, rampInLimit := 300 }
      ∧ (State.reset.berth o).lines.pilotClosed = false
      ∧ (State.reset.berth o).lines.linkPower = false)
  ∧ (∀ o, (State.reset.berth o).mp.entry = none ∧ (State.reset.berth o).mp.growFrom = none
      ∧ (State.reset.berth o).mp.shrinkFrom = none ∧ (State.reset.berth o).mp.voluntary = none
      ∧ (State.reset.berth o).rg.mode = .off ∧ (State.reset.berth o).rg.phase = 0
      ∧ (State.reset.berth o).rg.phaseFrac = 0 ∧ (State.reset.berth o).rg.freqNow = 50000000
      ∧ (State.reset.berth o).rg.freqTarget = 50000 ∧ (State.reset.berth o).rg.voltNow = 11000000
      ∧ (State.reset.berth o).rg.voltTarget = 11000 ∧ (State.reset.berth o).rg.pSet = 0
      ∧ (State.reset.berth o).rg.delta = 0 ∧ (State.reset.berth o).rg.islandTrim = 0
      ∧ (State.reset.berth o).rg.gain = 40 ∧ (State.reset.berth o).rg.holding = false
      ∧ (State.reset.berth o).rg.clamped = false)
  ∧ (∀ o, (State.reset.berth o).sy.close = .watching ∧ (State.reset.berth o).sy.tc = 120
      ∧ (State.reset.berth o).sy.attempts = 0 ∧ (State.reset.berth o).sy.record = none
      ∧ (State.reset.berth o).sy.deadFrom = none ∧ (State.reset.berth o).sy.openDrive = false
      ∧ (State.reset.berth o).sy.closeOutput = false
      ∧ (State.reset.berth o).sy.settings
          = { smin := 20, smax := 150, dVpct := 5, adapt := false, syncTimeout := 180 })
  ∧ (∀ o, (State.reset.berth o).pr
          = { tripPct := 130, overload := 0, frequency := 0, voltageFrom := none
              capacityFrom := none, reverseFrom := none, openDrive := false, postTripFrom := none
              breakerFail := false, laterCauses := [] }
      ∧ (State.reset.berth o).sl.state = .unpowered ∧ (State.reset.berth o).sl.stations = []
      ∧ (State.reset.berth o).sl.generators = [] ∧ (State.reset.berth o).sl.collisions = 0
      ∧ (State.reset.berth o).sl.activity = .quiet ∧ (State.reset.berth o).mt = none)
  ∧ State.reset.gridWatch = { since := some 0, standing := false }
  ∧ (State.reset.account.places = List.replicate 8 none ∧ State.reset.account.limit = 0
    ∧ State.reset.account.sessionCounter = 1 ∧ State.reset.account.headroom = 20
    ∧ State.reset.account.importFrom = none)
  ∧ (State.reset.metering.length = 15 ∧ State.reset.metering.rounding = .round
    ∧ State.reset.metering.bands = [] ∧ State.reset.metering.queue = []
    ∧ State.reset.metering.sequence = 1 ∧ State.reset.metering.lowArmed = true
    ∧ State.reset.openSessions = 0)
  ∧ (State.reset.fe.flags = FaultKind.supplyOn.bit ∧ State.reset.fe.sinceClear = true
    ∧ State.reset.fe.capture = none ∧ State.reset.fe.reported = allKinds
    ∧ State.reset.fe.outletEvents = true ∧ State.reset.fe.reportOff = false
    ∧ State.reset.fe.queue = [{ kind := .fault .supplyOn, source := .station, seconds := 0
                                millis := 0, detail := none, lost := false }])
  ∧ (State.reset.svl.receive = .hunting ∧ State.reset.svl.inProgress = none
    ∧ State.reset.svl.transmit = [] ∧ State.reset.svl.crcErrors = 0
    ∧ State.reset.svl.discards = 0 ∧ State.reset.svl.overruns = 0)

/-! ### The timebase -/

/-- A 10 ms window of a qualification attempt (R2): a count of 156,000 to 164,000 passes; the third
pass in a row ends the attempt in XO, the twentieth window without it in XO_FAILED, with
TIMEBASE_FALLBACK for a first attempt and a retry time started (R4).

The once-per-second check of the crystal in XO (R3): the second failing check in a row enters
XO_FAILED with TIMEBASE_FALLBACK and starts the retry time; and at the retry time's expiry (R4) a retry
attempt begins. -/
def Obligations.QualificationAndCrystalCheck : Prop :=
  (∀ (n : Nat) (s : State), s.tb.state = .qualifying →
     ∃ t, exec (.qualificationWindowEnd n) s = .next t
       ∧ ∀ passes, passes = (if 156000 ≤ n ∧ n ≤ 164000 then s.tb.passes + 1 else 0) →
         (passes = 3 →
           t = { s with tb := t.tb, berths := t.berths }
           ∧ t.tb = { s.tb with state := .xo, windows := 0, passes := 0, fails := 0
                                windowFrom := s.tb.run, checkFrom := s.tb.run }
           ∧ MetersSee s t)
         ∧ (passes ≠ 3 → 20 ≤ s.tb.windows + 1 →
           t = { s with tb := t.tb, fe := t.fe }
           ∧ t.tb = { s.tb with state := .xoFailed, windows := 0, passes := 0, fails := 0
                                windowFrom := s.tb.run, retryFrom := some s.tb.run }
           ∧ t.fe = if s.tb.firstAttempt then (s.raise .timebaseFallback .station).fe else s.fe)
         ∧ (passes ≠ 3 → s.tb.windows + 1 < 20 →
           t = { s with tb := { s.tb with windows := s.tb.windows + 1, passes := passes
                                          windowFrom := s.tb.run } }))
  ∧ ((∀ (n : Nat) (s : State), s.tb.state = .xo →
       ∃ t, exec (.xoCheck n) s = .next t
         ∧ ∀ fails, fails = (if 156000 ≤ n ∧ n ≤ 164000 then 0 else s.tb.fails + 1) →
           (fails < 2 → t = { s with tb := { s.tb with fails := fails, checkFrom := s.tb.run } })
           ∧ (2 ≤ fails →
             t = { s with tb := t.tb, fe := t.fe, berths := t.berths }
             ∧ t.tb = { s.tb with state := .xoFailed, windows := 0, passes := 0, fails := 0
                                  checkFrom := s.tb.run, retryFrom := some s.tb.run }
             ∧ t.fe = (s.raise .timebaseFallback .station).fe ∧ MetersSee s t))
     ∧ (∀ s : State, s.tb.state = .xoFailed → s.tb.retryFrom.isSome = true →
       exec .retryTimeExpiry s = .next { s with tb := { s.tb with
         state := .qualifying, firstAttempt := false, windows := 0, passes := 0
         windowFrom := s.tb.run, retryFrom := none } }))

/-- The one-second tick (R6) restarts the sub-second count, adds 1 to the seconds count (modulo 2³²),
and removes the authorisations whose expiry the new seconds count exceeds (R83). Off an interval
boundary (R143) MT does nothing with it.

A pulse (R10) is ignored in OFF; within 500 ms of the last one accepted it raises PPS_JUMP alone;
otherwise it locks the PPS state, starts the 3 s time anew and brings the sub-second count to 0, with
PPS_JUMP at 100 to 899 ms. When it was 500,000 or more the second completes, and its tick does all that the
one-second tick does: the expiry of authorisations (R83), and a boundary where it falls on one (R149). And the expiry of the 3 s time (R11) loses the PPS.
MODEL'S CHOICE (log entry 48): the PPS_JUMP of an accepted pulse shows the time before the alignment. -/
def Obligations.TicksAndPulses : Prop :=
  (∀ s : State, ∃ t, exec .oneSecondTick s = .next t
     ∧ t = { s with tb := t.tb, account := t.account, metering := t.metering, fe := t.fe
                    berths := t.berths }
     ∧ t.tb = { s.tb with seconds := s.tb.seconds + 1, subSecond := 0 }
     ∧ t.account = { s.account with
         places := s.account.places.map (Option.filter fun e =>
           e.expiry.all fun x => decide ((s.tb.seconds + 1).toNat ≤ x)) }
     ∧ (∀ o, t.berth o = { s.berth o with mt := (t.berth o).mt })
     ∧ NoFault s t
     ∧ (t.atBoundary = false → t.metering = s.metering ∧ t.fe = s.fe ∧ t.berths = s.berths))
  ∧ ((∀ s : State, s.tb.pps = .off → exec .ppsPulse s = .next s)
     ∧ (∀ (s : State) (last : RunCount), s.tb.pps ≠ .off → s.tb.lastPulse = some last →
         (s.tb.run - last).toNat < 500000 →
         exec .ppsPulse s = .next (s.report .ppsJump .station (some (s.tb.subSecond / 1000))))
     ∧ (∀ s : State, s.tb.pps ≠ .off →
         (∀ last, s.tb.lastPulse = some last → 500000 ≤ (s.tb.run - last).toNat) →
         ∃ t, exec .ppsPulse s = .next t
           ∧ t = { s with tb := t.tb, account := t.account, metering := t.metering, fe := t.fe
                          berths := t.berths }
           ∧ t.tb = { s.tb with
               pps := .locked, ppsFrom := some s.tb.run, lastPulse := some s.tb.run, subSecond := 0
               seconds := if 500000 ≤ s.tb.subSecond then s.tb.seconds + 1 else s.tb.seconds }
           ∧ (∀ o, t.berth o = { s.berth o with mt := (t.berth o).mt })
           ∧ NoFault s t
           ∧ (s.tb.subSecond < 500000 →
               t = { s with tb := t.tb, fe := t.fe, berths := t.berths } ∧ MetersSee s t
               ∧ t.fe = if 100000 ≤ s.tb.subSecond then
                   (s.report .ppsJump .station (some (s.tb.subSecond / 1000))).fe else s.fe)
           ∧ (500000 ≤ s.tb.subSecond →
               t.account = { s.account with
                 places := s.account.places.map (Option.filter fun e =>
                   e.expiry.all fun x => decide ((s.tb.seconds + 1).toNat ≤ x)) }
               ∧ ∃ u, u = { s with
                     tb := { s.tb with
                       pps := .locked, ppsFrom := some s.tb.run, lastPulse := some s.tb.run }
                     fe := if s.tb.subSecond < 900000 then
                         (s.report .ppsJump .station (some (s.tb.subSecond / 1000))).fe else s.fe
                     berths := u.berths }
                   ∧ MetersSee s u ∧ exec .oneSecondTick u = .next t))
     ∧ (∀ s : State, s.tb.pps = .waiting ∨ s.tb.pps = .locked → s.tb.ppsFrom.isSome = true →
         ∃ t, exec .ppsTimeExpiry s = .next t
           ∧ t = { s with tb := t.tb, fe := t.fe, berths := t.berths }
           ∧ t.tb = { s.tb with pps := .lost, ppsFrom := none }
           ∧ t.fe = (s.raise .ppsLost .station).fe ∧ MetersSee s t))

/-! ### Closing the coupling breaker -/

/-- DUE_INSTANT (R66): the close output is driven, the close is in flight, a close record starts and the
outlet enters CLOSING, whether a grid loss stands or not (R115); where a level condition holds at the
entry (R105, R109) the outlet trips by it at once and the close record shows ENDED (R70). -/
def Obligations.DueInstantIssuesTheClose : Prop :=
  ∀ (o : Outlet) (s : State) (plan : Schedule), (s.berth o).sy.close = .scheduled plan →
    (s.berth o).sc.state = .synchronising →
    ((s.berth o).levelCause = none →
      ∃ t, exec (.dueInstant o) s = .next t
        ∧ (t.berth o).sc.state = .closing ∧ (t.berth o).sc.entered = s.now
        ∧ (t.berth o).sc.session = (s.berth o).sc.session ∧ (t.berth o).mt = (s.berth o).mt
        ∧ (t.berth o).rg.mode = .track
        ∧ (t.berth o).sy.close = .inFlight ∧ (t.berth o).sy.closeOutput = true
        ∧ (t.berth o).sy.tc = (s.berth o).sy.tc ∧ (t.berth o).sy.attempts = (s.berth o).sy.attempts
        ∧ (t.berth o).sy.record = some
            { kind := .synchronised, command := s.now, theta := some plan.theta
              slip := some plan.slip, toGo := some plan.toGo, tc := (s.berth o).sy.tc
              outcome := .inFlight, measured := none, angleError := none
              attempt := (s.berth o).sy.attempts + 1 }
        ∧ Elsewhere [o] [] s t ∧ KeepsAccount s t ∧ NoFault s t ∧ t.metering = s.metering)
    ∧ (∀ c, (s.berth o).levelCause = some c →
      ∃ t, exec (.dueInstant o) s = .next t ∧ Tripped o c s t
        ∧ (t.berth o).sy.closeOutput = false
        ∧ (∃ r, (t.berth o).sy.record = some r ∧ r.outcome = .ended)
        ∧ Elsewhere [o] [] s t ∧ KeepsAccount s t ∧ t.metering = s.metering)

/-- CONFIRMATION_TIME_EXPIRY (R69, R91, R92): the close fails and is counted, CLOSE_FAIL is raised, and
the outlet returns to SYNCHRONISING, where with a DEAD_BUS declaration and Pn dead the dead time starts anew
(R73); with the end of the session requested, after the third attempt, or with the sync time expired, it enters
WIND_DOWN. MODEL'S CHOICE (log entry 17, DEDUCED: R91 and R92 leave the precedence open): after the third
attempt HANDOVER_ABORT alone is raised beside CLOSE_FAIL, also where the sync time has expired. -/
def Obligations.ConfirmationTimeExpiryFailsTheClose : Prop :=
  ∀ (o : Outlet) (s : State), (s.berth o).sy.close = .inFlight → (s.berth o).sc.state = .closing →
    ((s.berth o).sc.endRequested = false → (s.berth o).sy.attempts + 1 < 3 →
      (s.berth o).sc.syncExpired = false →
      ∃ t, exec (.confirmationTimeExpiry o) s = .next t
        ∧ (t.berth o).sc.state = .synchronising ∧ (t.berth o).rg.mode = .track
        ∧ (t.berth o).sc.session = (s.berth o).sc.session ∧ (t.berth o).mt = (s.berth o).mt
        ∧ (t.berth o).sy.close = .watching ∧ (t.berth o).sy.closeOutput = false
        ∧ (t.berth o).sy.attempts = (s.berth o).sy.attempts + 1
        ∧ (t.berth o).sy.record
            = (s.berth o).sy.record.map (fun c => { c with outcome := .failed })
        ∧ (t.berth o).sy.deadFrom = (if (s.berth o).declaresDeadBus = true
            ∧ (s.berth o).mu.ship.live = false then some s.tb.run else none)
        ∧ (t.berth o).sy.deadComplete = false
        ∧ Raised .closeFail s t ∧ Elsewhere [o] [] s t ∧ KeepsAccount s t
        ∧ t.metering = s.metering)
    ∧ (s.keptOpen o → (s.berth o).sc.endRequested = true →
      ∃ t, exec (.confirmationTimeExpiry o) s = .next t ∧ WindsDown o s t ∧ Raised .closeFail s t
        ∧ Elsewhere [o] [] s t ∧ KeepsAccount s t ∧ t.metering = s.metering)
    ∧ (s.keptOpen o → (s.berth o).sc.endRequested = false → 3 ≤ (s.berth o).sy.attempts + 1 →
      ∃ t, exec (.confirmationTimeExpiry o) s = .next t ∧ WindsDown o s t
        ∧ t.fe.flags = s.fe.flags ||| FaultKind.closeFail.bit ||| FaultKind.handoverAbort.bit
        ∧ Elsewhere [o] [] s t ∧ KeepsAccount s t ∧ t.metering = s.metering)
    ∧ (s.keptOpen o → (s.berth o).sc.endRequested = false → (s.berth o).sy.attempts + 1 < 3 →
      (s.berth o).sc.syncExpired = true →
      ∃ t, exec (.confirmationTimeExpiry o) s = .next t ∧ WindsDown o s t
        ∧ t.fe.flags = s.fe.flags ||| FaultKind.closeFail.bit ||| FaultKind.syncTimeout.bit
        ∧ Elsewhere [o] [] s t ∧ KeepsAccount s t ∧ t.metering = s.metering)

/-- BREAKER_FEEDBACK_CLOSED with a close in flight (R67, R92, R140): the close output is released, the
close record shows CONFIRMED with its measured closing time, the close is counted, and the outlet enters
PARALLEL_IN with P_set at the power the breaker already carries (of a SYNCHRONISED close), SHORE_SUPPLY
(of a DEAD_BUS close), or PARALLEL_OUT where the end of the session has been requested. Of a DEAD_BUS close
so ended (note d of Table 5-6, R95), SHORE_SUPPLY is entered with the return awaited: PREPARE_RETURN is set
and the return wait starts. -/
def Obligations.FeedbackClosedConfirmsTheClose : Prop :=
  ∀ (o : Outlet) (s : State) (c : CloseRecord), (s.berth o).lines.breakerClosed = false →
    (s.berth o).sy.close = .inFlight → (s.berth o).sc.state = .closing →
    (s.berth o).sy.record = some c → (s.berth o).rg.mode = .track → s.NoEntryCause o →
    (c.kind = .synchronised → (s.berth o).sc.endRequested = true ∨ (s.berth o).rampedIn = false) →
    (c.kind = .deadBus → (s.berth o).anyClosed = false) →
    ∃ t, exec (.breakerFeedbackClosed o) s = .next t
      ∧ (t.berth o).sc.state
          = (match c.kind, (s.berth o).sc.endRequested with
             | .synchronised, false => .parallelIn
             | .synchronised, true => .parallelOut
             | .deadBus, _ => .shoreSupply)
      ∧ (t.berth o).sc.endRequested = false
      ∧ (c.kind = .deadBus → (s.berth o).sc.endRequested = true →
          (s.berth o).sc.returnAwaited = false →
          (t.berth o).sc.returnAwaited = true ∧ (t.berth o).sc.prepareReturn = true
            ∧ (t.berth o).sc.returnFrom = some s.tb.run)
      ∧ (c.kind = .synchronised ∨ (s.berth o).sc.endRequested = false →
          (t.berth o).sc.returnAwaited = (s.berth o).sc.returnAwaited
            ∧ (t.berth o).sc.prepareReturn = (s.berth o).sc.prepareReturn
            ∧ (t.berth o).sc.returnFrom = (s.berth o).sc.returnFrom)
      ∧ (t.berth o).rg.mode = (match c.kind with
                               | .synchronised => .power
                               | .deadBus => .island)
      ∧ (t.berth o).rg.pSet
          = (match c.kind, (s.berth o).mu.power with
             | .synchronised, some r => min (min (r.p.tdiv 1000).toNat (s.berth o).claim) 25000
             | .synchronised, none => 0
             | .deadBus, _ => 0)
      ∧ (t.berth o).sy.close = .watching ∧ (t.berth o).sy.closeOutput = false
      ∧ (∀ ms, ms = elapsed s.tb.run c.command.run / 1000 →
          (t.berth o).sy.record = some { c with
              outcome := .confirmed, measured := some ms
              angleError := c.slip.map fun slip => contactError slip ms c.tc }
          ∧ (t.berth o).sy.tc
              = if (s.berth o).sy.settings.adapt = true ∧ 40 ≤ ms ∧ ms ≤ 300 then
                  (3 * c.tc + ms + 2) / 4
                else (s.berth o).sy.tc)
      ∧ (t.berth o).sc.session = (s.berth o).sc.session
      ∧ (t.berth o).mt
          = (s.berth o).mt.map (fun m => { m with closes := min 65535 (m.closes + 1) })
      ∧ Elsewhere [o] [] (s.contact o) t ∧ KeepsAccount s t ∧ NoFault s t
      ∧ t.metering = s.metering

/-- BREAKER_FEEDBACK_CLOSED without a close in flight (R71, R107): an unwanted closure sets SY's open
drive and raises BREAKER_LATE; a closure in TRIPPED sets PR's open drive and starts a new post-trip time;
in the other states only the feedback changes. -/
def Obligations.FeedbackClosedUnaskedDrivesTheBreakerOpen : Prop :=
  ∀ (o : Outlet) (s : State), s.passDue = false → (s.berth o).lines.breakerClosed = false →
    (s.berth o).sy.close ≠ .inFlight →
    ((s.berth o).sc.state.closureUnwanted = true →
      ∃ t, exec (.breakerFeedbackClosed o) s = .next t
        ∧ t = { s with fe := t.fe, berths := t.berths } ∧ Raised .breakerLate s t
        ∧ (∀ p, p ≠ o → t.berth p = s.berth p)
        ∧ t.berth o = { (s.contact o).berth o with sy := (t.berth o).sy }
        ∧ (t.berth o).sy = { (s.berth o).sy with
            openDrive := true, driveFrom := some s.tb.run, deadFrom := none, deadComplete := false
            close := .watching
            record := (s.berth o).sy.record.map fun c =>
              if c.outcome = .failed then
                { c with outcome := .late
                         measured := some (min 65535 (elapsed s.tb.run c.command.run / 1000)) }
              else c })
    ∧ ((s.berth o).sc.state = .tripped → s.gridWatch.standing = false →
      exec (.breakerFeedbackClosed o) s = .next ((s.contact o).onPr o fun p =>
        { p with overload := 0, frequency := 0, voltageFrom := none, capacityFrom := none
                 reverseFrom := none, openDrive := true, postTripFrom := some s.tb.run
                 breakerFail := false }))
    ∧ ((s.berth o).sc.state.closureUnwanted = false → (s.berth o).sc.state ≠ .tripped →
      exec (.breakerFeedbackClosed o) s = .next (s.contact o))

/-- BREAKER_FEEDBACK_OPEN (R97, R98, R99, R107, R108, R116): in a breaker-closed state, with no block driving the
open output, the outlet trips by UNEXPECTED_OPEN; in OPENING it enters WIND_DOWN; in WIND_DOWN PR's
drive and post-trip time that ran on from TRIPPED end (R107), and with no module assigned its session closes;
in TRIPPED without a session it leaves for CABLE_PROVEN or DORMANT, and with one PR stops watching (R108),
keeps a drive within the post-trip time and releases one that outlasted it (R107). In ENERGISING and
SYNCHRONISING the drives that the opening ends are released (R71), and where all the other conditions of a dead-bus close hold, this is the first moment of it: SY issues the close and the
outlet enters CLOSING (R74), where a level condition trips it (R109). -/
def Obligations.FeedbackOpenIsTaken : Prop :=
  ∀ (o : Outlet) (s : State), (s.berth o).lines.breakerClosed = true →
    ((s.berth o).sc.state.breakerClosed = true → (s.berth o).openOutput = false →
      ∃ t, exec (.breakerFeedbackOpen o) s = .next t ∧ Tripped o .unexpectedOpen (s.parted o) t
        ∧ Elsewhere [o] [] (s.parted o) t ∧ KeepsAccount s t ∧ t.metering = s.metering
        ∧ Raised .unexpectedOpen s t)
    ∧ ((s.berth o).sc.state = .opening → (s.parted o).keptOpen o →
      ∃ t, exec (.breakerFeedbackOpen o) s = .next t ∧ WindsDown o (s.parted o) t
        ∧ (t.berth o).sc.openDrive = false
        ∧ Elsewhere [o] [] (s.parted o) t ∧ KeepsAccount s t ∧ t.metering = s.metering
        ∧ NoFault s t)
    ∧ (∀ x, (s.berth o).sc.state = .windDown → s.assigned o = 0 →
      (s.berth o).sc.session = some x → (s.berth o).mt.isSome = true →
      ∃ t, exec (.breakerFeedbackOpen o) s = .next t ∧ SessionCloses o x (s.parted o) t
        ∧ (t.berth o).pr.openDrive = false ∧ (t.berth o).pr.postTripFrom = none
        ∧ Elsewhere [o] [] (s.parted o) t ∧ KeepsAccount s t ∧ NoFault s t)
    ∧ ((s.berth o).sc.state = .windDown → 0 < s.assigned o → s.passDue = false →
      exec (.breakerFeedbackOpen o) s = .next ((s.parted o).onBerth o fun b => { b with
        sy := if b.sy.openDrive then { b.sy with openDrive := false, driveFrom := none } else b.sy
        sc := { b.sc with openDrive := false }
        pr := { b.pr with openDrive := false, postTripFrom := none, breakerFail := false } }))
    ∧ ((s.berth o).sc.state = .tripped → (s.berth o).sc.session.isSome = true → s.passDue = false →
      exec (.breakerFeedbackOpen o) s = .next ((s.parted o).onBerth o fun b => { b with
        sy := if b.sy.openDrive then { b.sy with openDrive := false, driveFrom := none } else b.sy
        sc := { b.sc with openDrive := false }
        pr := { b.pr with
          overload := 0, frequency := 0, voltageFrom := none, capacityFrom := none
          reverseFrom := none, openDrive := b.pr.openDrive && !b.pr.breakerFail
          breakerFail := false } }))
    ∧ ((s.berth o).sc.state = .tripped → (s.berth o).sc.session = none →
      ∃ t, exec (.breakerFeedbackOpen o) s = .next t
        ∧ (t.berth o).sc.state
            = (if (s.berth o).lines.pilotClosed then .cableProven else .dormant)
        ∧ Elsewhere [o] [] (s.parted o) t ∧ KeepsAccount s t ∧ t.metering = s.metering
        ∧ NoFault s t)
    ∧ ((s.berth o).sc.state = .energising ∨ (s.berth o).sc.state = .synchronising →
      ∀ ready, ready = ((s.berth o).declaresDeadBus = true ∧ (s.berth o).sy.deadComplete = true
          ∧ (s.berth o).sc.target ≤ s.capacity o ∧ (s.berth o).mu.shore.live = true
          ∧ (s.berth o).sy.close = .watching) →
      (ready → (s.berth o).levelCause = none →
        ∃ t, exec (.breakerFeedbackOpen o) s = .next t
          ∧ (t.berth o).sc.state = .closing ∧ (t.berth o).rg.mode = .track
          ∧ (t.berth o).sc.session = (s.berth o).sc.session
          ∧ (t.berth o).mt = ((s.parted o).berth o).mt
          ∧ (t.berth o).sy.close = .inFlight ∧ (t.berth o).sy.closeOutput = true
          ∧ (t.berth o).sy.openDrive = false
          ∧ (t.berth o).sy.record = some
              { kind := .deadBus, command := s.now, theta := none, slip := none, toGo := none
                tc := (s.berth o).sy.tc, outcome := .inFlight, measured := none
                angleError := none, attempt := (s.berth o).sy.attempts + 1 }
          ∧ Elsewhere [o] [] (s.parted o) t ∧ KeepsAccount s t ∧ NoFault s t
          ∧ t.metering = s.metering)
      ∧ (∀ c, ready → (s.berth o).levelCause = some c →
        ∃ t, exec (.breakerFeedbackOpen o) s = .next t ∧ Tripped o c (s.parted o) t
          ∧ (t.berth o).sy.closeOutput = false
          ∧ Elsewhere [o] [] (s.parted o) t ∧ KeepsAccount s t ∧ t.metering = s.metering)
      ∧ (¬ ready → s.passDue = false →
        exec (.breakerFeedbackOpen o) s = .next ((s.parted o).onBerth o fun b => { b with
          sy := if b.sy.openDrive then { b.sy with openDrive := false, driveFrom := none } else b.sy
          sc := { b.sc with openDrive := false }
          pr := if b.pr.breakerFail then { b.pr with openDrive := false, breakerFail := false }
                else b.pr })))

/-! ### Supply-on, restarts and frames -/

/-- SUPPLY_ON (R1, R5, R6, R8, R9, R18, R41, R59, R71, R75, R102, R119, R138, R158, R169, R171, R182):
every block holds its supply-on value, with the speed select input and the breaker feedbacks as read; an
outlet whose feedback reads closed has an unwanted closure, so that SY drives its open output and
BREAKER_LATE is raised. MODEL'S CHOICE: that SUPPLY_ON acts in any state and leaves the queue of waiting
commands (log entry 45), the values that the rules do not give (log entries 4 and 44), and the order of the
BREAKER_LATE events by outlet (log entry 5). -/
def Obligations.SupplyOnStartsThePart : Prop :=
  ∀ (highSpeed : Bool) (closed : Quad Bool) (s : State),
    ∃ t, exec (.supplyOn highSpeed closed) s = .next t
      ∧ t = { State.reset with svl := { State.reset.svl with highSpeed := highSpeed }
                               fe := t.fe, berths := t.berths, pending := s.pending }
      ∧ (∀ o, t.berth o = if closed.get o then
          { Berth.reset with
            lines := { Berth.reset.lines with breakerClosed := true, closedAt := some 0 }
            sy := { Berth.reset.sy with openDrive := true, driveFrom := some 0 } }
          else Berth.reset)
      ∧ t.fe.flags = FaultKind.supplyOn.bit |||
          (if Outlet.all.any closed.get then FaultKind.breakerLate.bit else 0)
      ∧ t.fe.sinceClear = true ∧ t.fe.enables = FaultUnit.reset.enables
      ∧ t.fe.outletEvents = true ∧ t.fe.reportOff = false
      ∧ t.fe.queue.map (fun e => (e.kind, e.source))
          = (.fault .supplyOn, .station) :: (Outlet.all.filter closed.get).map fun o =>
              (.fault .breakerLate, .outlet o)

/-- A warm restart (R181, R182) is taken at the reset input, and after the last byte of an OK reply to a
RESTART request: every block is left as its own section says (R18, R41, R59, R75, R99, R103, R117, R119, R138,
R158, R162, R170): the event records held before it are discarded, the capture is kept but where an outlet
trips by RESTART, a fresh hold time starts, and the reasons, notices, times and watches of SC are discarded. Every reply goes out as the frame of R184: sync, length, kind, tag, payload and the CRC-16
of all but the sync. Any other reply that has been sent leaves the transmit list, and the request that it
answers is no longer in progress (R173). MODEL'S CHOICE: the frame sent last is kept until the next, over a
warm restart too (log entry 74), the mark that IMPORT_OVER_LIMIT has been raised is cleared
(log entry 18, DEDUCED), the hold time starts for every outlet with a session (log entry 36, DEDUCED), a
restart into the state the outlet was in is no change of state (log entry 42, DEDUCED), the RESTART of the
station stands first in the queue and the reports of the outlets follow in order, the capture showing the
last (log entry 29), the queue of waiting commands is kept (log entry 40), and a REPLY_SENT with nothing to transmit changes nothing (log
entry 1). -/
def Obligations.WarmRestart : Prop :=
  (∀ s : State, ∃ t, exec .resetInput s = .next t ∧ Restarted s t)
  ∧ (∀ (s : State) (r : Reply) (rest : List Reply) (body frame : List Byte),
      s.svl.transmit = r :: rest →
      body = BitVec.ofNat 8 (r.payload.length + 2) :: r.kind :: r.tag :: r.payload →
      frame = 0xA5 :: body ++ [(crc16 body).extractLsb' 8 8, (crc16 body).extractLsb' 0 8] →
      (r.answers = true → r.kind = 0x87 → r.payload = [0] →
        ∃ t, exec .replySent s = .next t
          ∧ Restarted { s with svl := { s.svl with lastFrame := frame } } t)
      ∧ (¬ (r.answers = true ∧ r.kind = 0x87 ∧ r.payload = [0]) →
        exec .replySent s = .next { s with svl := { s.svl with
          transmit := rest, lastFrame := frame
          inProgress := if r.answers then none else s.svl.inProgress } }))
  ∧ (∀ s : State, s.svl.transmit = [] → exec .replySent s = .next s)

/-- The frames of the supervisory link (R172, R184): the bytes of every well-formed request, and of
every unknown one without a payload, come to that command; with any other two check bytes they come to
CRC_ERROR.

The frames of the ship link (R121, R122, R186): the bytes of every well-formed PRESENT, STATUS,
SLOT_END and GEN_STATUS come to that command; with another check byte they come to BAD_FRAME with the
frame's source, and cut short to INCOMPLETE_FRAME, with the source where its byte was received.

Every frame that the leader sends (R121, R122) carries the leader's address 31 as its source, 0 or the
address of its station as its destination, the length of its payload, and the CRC-8 of all bytes before
the check as its check. -/
def Obligations.FramesDecodeAndCarryTheirChecks : Prop :=
  (∀ (i : Instr) (held : Bool) (bytes : List Byte), i.wellFormed = true → i.pairShows held →
     i.requestFrame = some bytes →
     commandOfFrame held bytes = some i
     ∧ ∀ check : List Byte, check.length = 2 → check ≠ bytes.drop (bytes.length - 2) →
         commandOfFrame held (bytes.take (bytes.length - 2) ++ check) = some .crcError)
  ∧ (∀ (i : Instr) (o : Outlet) (held : Bool) (bytes : List Byte), i.wellFormed = true →
       i.shipFrame = some (o, held, bytes) →
       shipCommand o held bytes = i
       ∧ (∀ check : Byte, [check] ≠ bytes.drop (bytes.length - 1) →
           ∃ src : Byte, bytes[1]? = some src
             ∧ shipCommand o held (bytes.take (bytes.length - 1) ++ [check])
                 = .badFrame o held src.toNat)
       ∧ (∀ n, n < bytes.length →
           shipCommand o held (bytes.take n)
             = .incompleteFrame o held (if n < 2 then none else bytes[1]?.map BitVec.toNat)))
  ∧ (∀ f : LeaderFrame, ∃ dst kind len : Byte, ∃ payload : List Byte,
       f.bytes = dst :: 31 :: kind :: len :: payload ++ [crc8 (dst :: 31 :: kind :: len :: payload)]
       ∧ len.toNat = payload.length ∧ payload.length ≤ 24
       ∧ (∀ a, (∃ r, f = .enlisted a r) ∨ (∃ r, f = .poll a r) ∨ f = .slotGrant a →
           dst = BitVec.ofNat 8 a)
       ∧ ((∃ mark, f = .rollCall mark) ∨ f = .attentionQuery → dst = 0))

/-! ### Measurement -/

/-- A zero crossing (R13, R14, R17). With no cycle in progress it begins one at a live point. With one,
it is ignored within 14,286 µs; from 14,286 to 25,000 µs it ends a cycle, whose record is a cycle record
at a voltage of a tenth of nominal or more, the point staying live, and a voltage-only record below it,
the point dead with no cycle in progress.

A point without a cycle gives a voltage-only record each 20 ms, and a cycle that has run 25,000 µs
without a crossing lapses into one (R13, R14, R17): live at a tenth of nominal or more, with no cycle in
progress, the cadence counting from it. Neither comes at a point where the other applies. -/
def Obligations.MeasuringPointRecords : Prop :=
  (∀ (pt : MeasPoint) (v : LineVoltages) (c : CyclePower) (s : State),
     ((s.point pt).cycle = none →
       exec (.zeroCrossing pt v c) s = .next (s.setPoint pt { s.point pt with
         cycle := if (s.point pt).live then some s.now else none }))
     ∧ ∀ last, (s.point pt).cycle = some last →
       (elapsed s.tb.run last.run < 14286 → exec (.zeroCrossing pt v c) s = .next s)
       ∧ (14286 ≤ elapsed s.tb.run last.run → elapsed s.tb.run last.run ≤ 25000 →
         ∃ t, exec (.zeroCrossing pt v c) s = .next t ∧ MeasuredFrame pt s t
           ∧ (s.nominalAt pt / 10 ≤ min 15000 ((v.v12 + v.v23 + v.v31) / 3) →
             t.point pt =
               { record := some
                   { stamp := s.now
                     cycle := some { period := elapsed s.tb.run last.run
                                     freq := 1000000000 / elapsed s.tb.run last.run }
                     voltage := min 15000 ((v.v12 + v.v23 + v.v31) / 3)
                     clipped := v.clipped || decide (15000 < (v.v12 + v.v23 + v.v31) / 3) }
                 live := true, cycle := some s.now, cadenceFrom := (s.point pt).cadenceFrom })
           ∧ (min 15000 ((v.v12 + v.v23 + v.v31) / 3) < s.nominalAt pt / 10 →
             t.point pt =
               { record := some
                   { stamp := s.now, cycle := none
                     voltage := min 15000 ((v.v12 + v.v23 + v.v31) / 3)
                     clipped := v.clipped || decide (15000 < (v.v12 + v.v23 + v.v31) / 3) }
                 live := false, cycle := none, cadenceFrom := s.tb.run })))
  ∧ (∀ (pt : MeasPoint) (v : LineVoltages) (s : State) (i : Instr),
       (i = .voltageOnlyCadence pt v ∧ (s.point pt).cycle = none)
         ∨ (i = .cycleLapse pt v ∧ (s.point pt).cycle ≠ none) →
       ∃ t, exec i s = .next t ∧ MeasuredFrame pt s t
         ∧ t.point pt =
             { record := some
                 { stamp := s.now, cycle := none
                   voltage := min 15000 ((v.v12 + v.v23 + v.v31) / 3)
                   clipped := v.clipped || decide (15000 < (v.v12 + v.v23 + v.v31) / 3) }
               live := decide (s.nominalAt pt / 10 ≤ min 15000 ((v.v12 + v.v23 + v.v31) / 3))
               cycle := none, cadenceFrom := s.tb.run })

/-- The end of a cycle of Pn, or of Sn while Pn is dead, makes the outlet's power record (R16, R17): P is
the mean of the phases' instantaneous products, Q the reactive power of their fundamentals and S the sum of
their RMS products, each truncated, within its range, S no less than the magnitude of P. MODEL'S CHOICE (log
entry 24): the mean is that of the instants the command carries. MT adds P times the period to the session meter (R141), an open gap ended (R142): to the import of a
positive P, to the export of a negative one.

At a cycle record of Pn, with a cycle record of Sn and a cycle of it in progress, the pair record is
made (R15): its angle lies from −1,800 to 1,799 tenths of a degree, and is, modulo 3,600, the time since
the last crossing of Sn in tenths of a degree of its cycle, truncated. -/
def Obligations.CyclesMakePowerAndPairRecords : Prop :=
  (∀ (o : Outlet) (pt : MeasPoint) (v : LineVoltages) (c : CyclePower) (s : State)
       (last : TimeStamp) (watts vars p : Int) (va : Nat), s.waits o = false →
     pt = .ship o ∨ (pt = .shore o ∧ (s.berth o).mu.ship.live = false) →
     (s.point pt).cycle = some last →
     14286 ≤ elapsed s.tb.run last.run → elapsed s.tb.run last.run ≤ 25000 →
     s.nominalAt pt / 10 ≤ min 15000 ((v.v12 + v.v23 + v.v31) / 3) →
     watts = ((c.samples.map fun (x : Phases PhaseSample) => x.l1.volts * x.l1.amps
       + x.l2.volts * x.l2.amps + x.l3.volts * x.l3.amps).sum).tdiv
         (c.samples.length * 1000000) →
     vars = (c.fundamental.l1.vCos * c.fundamental.l1.iSin
       - c.fundamental.l1.vSin * c.fundamental.l1.iCos
       + (c.fundamental.l2.vCos * c.fundamental.l2.iSin
         - c.fundamental.l2.vSin * c.fundamental.l2.iCos)
       + (c.fundamental.l3.vCos * c.fundamental.l3.iSin
         - c.fundamental.l3.vSin * c.fundamental.l3.iCos)).tdiv 1000000 →
     va = (c.rms.l1.volts * c.rms.l1.amps + c.rms.l2.volts * c.rms.l2.amps
       + c.rms.l3.volts * c.rms.l3.amps) / 1000000 →
     p = max (-25000000) (min 25000000 watts) →
     ∃ t r, exec (.zeroCrossing pt v c) s = .next t ∧ (t.berth o).mu.power = some r
       ∧ r.p = p ∧ r.q = max (-30000000) (min 30000000 vars)
       ∧ r.s = min 30000000 (max va p.natAbs)
       ∧ r.period = elapsed s.tb.run last.run ∧ r.stamp = s.now
       ∧ (watts = p → r.q = vars → va ≤ 30000000 → r.clipped = (c.clipped || v.clipped))
       ∧ ∀ m, (s.berth o).mt = some m → ∃ m', (t.berth o).mt = some m'
         ∧ m'.imported = { m.imported with
             accumulator := m.imported.accumulator + (if 0 < p then p.natAbs * r.period else 0)
             total := m.imported.total + (if 0 < p then p.natAbs * r.period else 0) }
         ∧ m'.exported = { m.exported with
             accumulator := m.exported.accumulator + (if p < 0 then p.natAbs * r.period else 0)
             total := m.exported.total + (if p < 0 then p.natAbs * r.period else 0) }
         ∧ m'.lastRecord = some s.tb.run ∧ m'.gapFrom = none
         ∧ m'.interval.gapMillis = m.interval.gapMillis
             + (match m.gapFrom with
                | some since => elapsed s.tb.run since / 1000
                | none => 0))
  ∧ (∀ (o : Outlet) (v : LineVoltages) (c : CyclePower) (s : State) (last lastS : TimeStamp)
         (rs : Phasor) (cs : CycleFields), s.waits o = false →
       (s.berth o).mu.ship.cycle = some last →
       14286 ≤ elapsed s.tb.run last.run → elapsed s.tb.run last.run ≤ 25000 →
       (s.berth o).nominalVolts / 10 ≤ min 15000 ((v.v12 + v.v23 + v.v31) / 3) →
       (s.berth o).mu.shore.record = some rs → rs.cycle = some cs →
       (s.berth o).mu.shore.cycle = some lastS →
       ∃ t r, exec (.zeroCrossing (.ship o) v c) s = .next t ∧ (t.berth o).mu.pair = some r
         ∧ r.fS = cs.freq ∧ r.vS = rs.voltage ∧ r.period = elapsed s.tb.run last.run
         ∧ r.fP = 1000000000 / r.period ∧ r.vP = min 15000 ((v.v12 + v.v23 + v.v31) / 3)
         ∧ r.stamp = s.now ∧ -1800 ≤ r.theta ∧ r.theta ≤ 1799
         ∧ ∃ k : Int, r.theta + 3600 * k
             = ((elapsed s.tb.run lastS.run * 3600 / cs.period : Nat) : Int))

/-! ### The module pool -/

/-- MODULE_REPORT (R21): nothing at an OFFLINE module. Of any other its readings are copied; a report
that the module's state expects does that alone, and PRECHARGED of a STARTING one is kept, so that RUN is
commanded (R25).

A start completes at the first RUNNING report after PRECHARGED (R25): the module is RUNNING, the
pre-charge unit serves it no longer, and the outlet's capacity has grown by its effective rating. In
ENERGISING, of a PARALLEL ship, the outlet enters SYNCHRONISING with the capacity at the target and both
buses live, and stays otherwise (R90).

A report that changes the effective rating of the STARTING module changes the prospective capacity, at
which the need is judged (R32, R33): where it is short, a request of the class whose condition holds is
raised, or the entry's class raised in place; where it is not, an entry that is not GROW is withdrawn.
MODEL'S CHOICE (log entry 33): a FAULT report taken in FAULTED or LOCKED_OUT leaves the last fault code as it
was. -/
def Obligations.ModuleReportsAndStarts : Prop :=
  (∀ (m : ModuleNo) (r : ModuleReport) (s : State), s.passDue = false →
     ((s.module m).state = .offline → exec (.moduleReport m r) s = .next s)
     ∧ ((s.module m).state ≠ .offline →
         ∃ t, exec (.moduleReport m r) s = .next t ∧ Copied r s m (t.module m)
           ∧ Elsewhere (s.module m).outlet.toList [m] s t ∧ KeepsAccount s t)
     ∧ (s.sameRating m r →
         (s.module m).state = .lockedOut
           ∨ ((s.module m).state = .idle ∧ r.state = .stopped)
           ∨ ((s.module m).state = .running ∧ r.state = .running)
           ∨ ((s.module m).state = .held ∧ r.state = .running)
           ∨ ((s.module m).state = .faulted ∧ (r.state ≠ .stopped ∨ r.code ≠ none))
           ∨ ((s.module m).state = .starting
               ∧ (r.state = .stopped ∨ r.state = .precharging ∨ r.state = .precharged)) →
         exec (.moduleReport m r) s = .next (s.onModule m fun x => { x with
           power := some r.power, band := r.band, reportAt := s.tb.run, lineLost := false
           precharged := x.precharged || (x.state == .starting && r.state == .precharged) })))
  ∧ (∀ (m : ModuleNo) (r : ModuleReport) (o : Outlet) (s : State),
       (s.module m).state = .starting → (s.module m).outlet = some o →
       (s.module m).precharged = true → r.state = .running → (s.berth o).declaresDeadBus = false →
       ∃ t, exec (.moduleReport m r) s = .next t
         ∧ (t.module m).state = .running ∧ (t.module m).outlet = some o
         ∧ (∀ u, t.pool.unit = some u → u.module ≠ m)
         ∧ t.capacity o = s.capacity o + (t.module m).effective
         ∧ Elsewhere [o] [m] s t ∧ KeepsAccount s t
         ∧ ((s.berth o).sc.state = .energising → (s.berth o).declaresParallel = true →
             (t.berth o).sc.session = (s.berth o).sc.session
             ∧ (t.berth o).sc.state =
                 if (s.berth o).sc.target ≤ t.capacity o ∧ (s.berth o).mu.shore.live = true
                     ∧ (s.berth o).mu.ship.live = true then .synchronising
                 else .energising))
  ∧ (∀ (m : ModuleNo) (r : ModuleReport) (o : Outlet) (s u : State) (serving : Serving),
       s.passDue = false → (s.module m).state = .starting → (s.module m).outlet = some o →
       r.state = .stopped ∨ r.state = .precharging → s.pool.unit = some serving →
       u = s.onModule m (fun x => { x with
         power := some r.power, band := r.band, reportAt := s.tb.run, lineLost := false }) →
       (u.module m).effective ≠ (s.module m).effective → (s.berth o).sc.state.requests = true →
       s.assigned o < 8 →
       ∃ t, exec (.moduleReport m r) s = .next t ∧ t = { u with berths := t.berths }
         ∧ SameButPool (s.berth o) (t.berth o) ∧ (∀ q, q ≠ o → t.berth q = s.berth q)
         ∧ (∀ cls : RequestClass, u.prospective o < (s.berth o).sc.target →
             (cls = .replace ∧ (s.berth o).mp.replaceArisen = true)
               ∨ (cls = .energise ∧ (s.berth o).mp.replaceArisen = false
                 ∧ ((s.berth o).sc.state = .energising ∨ (s.berth o).sc.state = .synchronising)) →
             (t.berth o).mp.entry = some
               (match (s.berth o).mp.entry with
                | none => { cls := cls, arrival := s.now }
                | some e => { cls := if e.cls = .replace then .replace else cls
                              arrival := e.arrival }))
         ∧ ((s.berth o).sc.target ≤ u.prospective o →
             (t.berth o).mp.replaceArisen = false
             ∧ (∀ e, (s.berth o).mp.entry = some e →
                 (t.berth o).mp.entry = if e.cls = .grow then some e else none)))

/-- A stop ends (R21, R28, R30). Before STOP, NORMAL is commanded, a report of less than a twentieth of
the rated current begins the 1 s stop time; after it, STOPPED with no code takes the module to IDLE, as
it takes a FAULTED one with fewer than 3 faults, where no request is pending; a FAULTED one with 3 it
takes to LOCKED_OUT. -/
def Obligations.StopsAndFaultsEnd : Prop :=
  ∀ (m : ModuleNo) (r : ModuleReport) (s : State), s.passDue = false →
    (∀ p rating o, (s.module m).state = .stopping → (s.module m).stop = some p →
      p.normalFrom = none → (s.module m).rating = some rating → (s.module m).outlet = some o →
      r.state = .running ∨ r.state = .stopped →
      exec (.moduleReport m r) s = .next (s.onModule m fun x => { x with
        power := some r.power, band := r.band, reportAt := s.tb.run, lineLost := false
        stop := if r.current * 20 < rating * 1000000 / (1732 * (s.berth o).nominalVolts) then
            some { p with normalFrom := some s.tb.run } else some p }))
    ∧ (∀ p since o, (s.module m).state = .stopping → (s.module m).stop = some p →
      p.normalFrom = some since → (s.module m).outlet = some o → r.state = .stopped →
      r.code = none → (∀ q, (s.berth q).mp.entry = none) →
      (s.berth o).sc.state.requests = false → s.noneWaits →
      ∃ t, exec (.moduleReport m r) s = .next t
        ∧ (t.module m).state = .idle ∧ (t.module m).outlet = none ∧ (t.module m).trim = 0
        ∧ Copied r s m (t.module m) ∧ Elsewhere [o] [m] s t ∧ KeepsAccount s t)
    ∧ ((s.module m).state = .faulted → r.state = .stopped → r.code = none →
      ((s.module m).faultCount < 3 → (∀ q, (s.berth q).mp.entry = none) → s.noneWaits →
        ∃ t, exec (.moduleReport m r) s = .next t ∧ (t.module m).state = .idle
          ∧ Copied r s m (t.module m) ∧ Elsewhere [] [m] s t ∧ KeepsAccount s t ∧ NoFault s t)
      ∧ (3 ≤ (s.module m).faultCount →
        ∃ t, exec (.moduleReport m r) s = .next t ∧ (t.module m).state = .lockedOut
          ∧ (t.module m).outlet = (s.module m).outlet ∧ Copied r s m (t.module m)
          ∧ Raised .moduleLockout s t ∧ Elsewhere [] [m] s t ∧ KeepsAccount s t))

/-- A report that the state of the module does not allow (R21, R29) takes it to FAULTED, with the
report's code where the report is FAULT; of a module that is STARTING, FAULT, or RUNNING before
PRECHARGED, is a failed start (R26).

20 ms without a report (R22) raise MODULE_LINK_LOST, once for each loss; a module in IDLE, RUNNING,
HELD or STOPPING enters FAULTED, and a STARTING one fails its start. The start time (R26) and the stop
time (R28), expiring, end in FAULTED too. -/
def Obligations.ModuleFailures : Prop :=
  (∀ (m : ModuleNo) (r : ModuleReport) (s : State), s.sameRating m r →
     (((s.module m).state = .idle ∧ r.state ≠ .stopped)
         ∨ (((s.module m).state = .running ∨ (s.module m).state = .held) ∧ r.state ≠ .running)
         ∨ ((s.module m).state = .stopping ∧ r.state = .fault)
         ∨ ((s.module m).state = .stopping ∧ (s.module m).endedStart = false
             ∧ (r.state = .precharging ∨ r.state = .precharged)) →
       ∃ t, exec (.moduleReport m r) s = .next t
         ∧ EntersFaulted m (if r.state = .fault then r.code else none) .moduleFault s t)
     ∧ ((s.module m).state = .starting → (∃ u, s.pool.unit = some u ∧ u.module = m) →
       r.state = .fault ∨ (r.state = .running ∧ (s.module m).precharged = false) →
       ∃ t, exec (.moduleReport m r) s = .next t
         ∧ EntersFaulted m (if r.state = .fault then r.code else none) .moduleStartFail s t
         ∧ ∀ u, t.pool.unit = some u → u.module ≠ m))
  ∧ ((∀ (m : ModuleNo) (s : State), (s.module m).state ≠ .offline → (s.module m).lineLost = false →
       ∃ t, exec (.moduleLineLoss m) s = .next t ∧ (t.module m).lineLost = true
         ∧ t.fe.flags &&& FaultKind.moduleLinkLost.bit = FaultKind.moduleLinkLost.bit
         ∧ Elsewhere (s.module m).outlet.toList [m] s t ∧ KeepsAccount s t
         ∧ ((s.module m).state = .idle ∨ (s.module m).state = .running
             ∨ (s.module m).state = .held ∨ (s.module m).state = .stopping →
             EntersFaulted m none .moduleFault s t)
         ∧ ((s.module m).state = .starting → (∃ u, s.pool.unit = some u ∧ u.module = m) →
             EntersFaulted m none .moduleStartFail s t)
         ∧ ((s.module m).state = .faulted ∨ (s.module m).state = .lockedOut →
             (t.module m).state = (s.module m).state ∧ Raised .moduleLinkLost s t))
     ∧ (∀ (m : ModuleNo) (s : State), (s.module m).state = .offline ∨ (s.module m).lineLost = true →
         exec (.moduleLineLoss m) s = .next s)
     ∧ (∀ (s : State) (u : Serving), s.pool.unit = some u → (s.module u.module).state = .starting →
       ∃ t, exec .startTimeExpiry s = .next t ∧ EntersFaulted u.module none .moduleStartFail s t
         ∧ ∀ v, t.pool.unit = some v → v.module ≠ u.module)
     ∧ (∀ (m : ModuleNo) (s : State) (p : StopProgress), (s.module m).state = .stopping →
       (s.module m).stop = some p → p.normalFrom.isSome = true →
       ∃ t, exec (.stopTimeExpiry m) s = .next t ∧ EntersFaulted m none .moduleFault s t))

/-- Arbitration (R24, R34): where a module comes to IDLE while the pre-charge unit is free, the pending
entry of the highest class goes first, of equal classes that of the earliest arrival, and of equal arrivals
that of the lowest outlet; its module starts, the entry is removed, and every other entry stands.

A start that fails returns its request (R26): while the outlet still needs the module, it has an entry
again, of the arrival time the request had, merged with an entry the outlet has: the higher class and the
earlier arrival. In a state that makes no requests it has none. MODEL'S CHOICE (log entries 19 and 32,
DEDUCED): arrivals are compared by run count, and a GROW request returns without a further condition;
(log entries 62 and 49, DESIGN CHOICE) the reply (R177) shows the module's record as it stands after the
arbitration, and the share target of a module that starts is 0; (log entry 50, DESIGN CHOICE: R32 leaves open
whether REPLACE arises when a start fails that had covered a fault) the request that a failed ENERGISE start
leaves is of class REPLACE exactly where the REPLACE condition had arisen before or the outlet's entry was
REPLACE already. -/
def Obligations.ArbitrationOrderAndReturns : Prop :=
  (∀ (tag b hi lo : Byte) (m : ModuleNo) (w : Outlet) (e : PendingEntry) (s : State) (rating : Nat),
     b = BitVec.ofNat 8 m.number → rating = hi.toNat * 256 + lo.toNat → 500 ≤ rating →
     rating ≤ 4000 → rating % 10 = 0 → s.svl.inProgress = none → s.passDue = false → s.noneWaits →
     (s.module m).state = .offline → (s.module m).faultCount < 3 → s.pool.unit = none →
     (∀ n, (s.module n).state ≠ .idle) → (s.berth w).mp.entry = some e →
     (∀ q f, q ≠ w → (s.berth q).mp.entry = some f →
       f.cls.rank < e.cls.rank
         ∨ (f.cls = e.cls ∧ elapsed s.tb.run f.arrival.run < elapsed s.tb.run e.arrival.run)
         ∨ (f.cls = e.cls ∧ elapsed s.tb.run f.arrival.run = elapsed s.tb.run e.arrival.run
           ∧ w.number < q.number)) →
     ∃ (t : State) (forms : Bool), exec (.declareModule tag [b, hi, lo]) s
         = .next (t.answered 0x10 tag (0 :: moduleRecord m (t.module m)))
       ∧ t = { s with pool := t.pool, berths := t.berths }
       ∧ t.pool.unit = some { module := m, outlet := w, since := s.tb.run, cls := e.cls
                              arrival := e.arrival, ended := false }
       ∧ t.module m = { s.module m with
           rating := some rating, outlet := some w, trim := 0, shareTarget := 0
           reportAt := s.tb.run, lineLost := false, state := .starting, busForming := forms
           precharged := false, stop := none }
       ∧ (forms = true ↔ (s.berth w).mu.shore.live = false
           ∧ ∀ n, (s.module n).outlet = some w → (s.module n).state ≠ .running)
       ∧ (∀ n, n ≠ m → t.module n = s.module n)
       ∧ (∀ q, q ≠ w → t.berth q = s.berth q) ∧ SameButPool (s.berth w) (t.berth w)
       ∧ (∀ f, (t.berth w).mp.entry = some f → f.arrival = s.now))
  ∧ (∀ (s : State) (u : Serving) (o : Outlet), s.pool.unit = some u → u.outlet = o →
       (s.module u.module).state = .starting → (s.module u.module).outlet = some o →
       (∀ n, n ≠ u.module → (s.module n).outlet = some o → (s.module n).state ≠ .starting) →
       (∀ n, (s.module n).state ≠ .idle) → s.assigned o ≤ 8 → s.passDue = false → s.noneWaits →
       ∃ t, exec .startTimeExpiry s = .next t
         ∧ t = { s with pool := t.pool, fe := t.fe, berths := t.berths }
         ∧ t.pool.unit = none ∧ Raised .moduleStartFail s t
         ∧ (∀ n, n ≠ u.module → t.module n = s.module n)
         ∧ (∀ q, q ≠ o → t.berth q = s.berth q) ∧ SameButPool (s.berth o) (t.berth o)
         ∧ ((s.berth o).sc.state.requests = false → (t.berth o).mp.entry = none)
         ∧ ((s.berth o).sc.state.requests = true → ∀ arrival,
             arrival = (match (s.berth o).mp.entry with
               | none => u.arrival
               | some f => if elapsed s.tb.run f.arrival.run < elapsed s.tb.run u.arrival.run then
                   u.arrival else f.arrival) →
             (u.cls = .replace → s.capacity o < (s.berth o).sc.target →
               (t.berth o).mp.entry = some { cls := .replace, arrival := arrival })
             ∧ (u.cls = .energise → s.capacity o < (s.berth o).sc.target →
               (s.berth o).sc.state = .energising ∨ (s.berth o).sc.state = .synchronising →
               ∃ cls, (t.berth o).mp.entry = some { cls := cls, arrival := arrival }
                 ∧ (cls = .replace ∨ cls = .energise)
                 ∧ (cls = .replace ↔ (s.berth o).mp.replaceArisen = true
                     ∨ ∃ f, (s.berth o).mp.entry = some f ∧ f.cls = .replace))
             ∧ (u.cls = .grow → (s.berth o).sc.target ≤ s.capacity o →
               (∀ f, (s.berth o).mp.entry = some f → f.cls = .grow) →
               (t.berth o).mp.entry = some { cls := .grow, arrival := arrival })
             ∧ (u.cls ≠ .grow → (s.berth o).sc.target ≤ s.capacity o →
               (s.berth o).mp.entry = none → (t.berth o).mp.entry = none)))

/-- COMMAND_RECORD (R20, R45, R57, Table 2-3): each declared module is sent the command of its state,
with the references of its outlet where the command carries them, absent while RG is in OFF and after it
until the next update; and nothing else changes. At the 5 s of R28 a STOPPING module is commanded STOP, NORMAL.

The hold time of a tripped outlet expires (R39): its HELD modules stop, and nothing of the outlet
but its part of the pool changes. -/
def Obligations.CommandRecordsAndHolds : Prop :=
  ((∀ s : State, ∃ t, exec .commandRecord s = .next t
     ∧ t = { s with pool := { s.pool with modules := t.pool.modules, commandFrom := s.tb.run } }
     ∧ ∀ m, t.module m = { s.module m with sent := (t.module m).sent }
       ∧ ((s.module m).state = .offline → (t.module m).sent = (s.module m).sent)
       ∧ ((s.module m).state = .idle → (t.module m).sent = some ⟨.stopNormal, none⟩)
       ∧ ((s.module m).state = .faulted ∨ (s.module m).state = .lockedOut →
           (t.module m).sent = some ⟨.stopForced, none⟩)
       ∧ ((s.module m).state = .held → (t.module m).sent = some ⟨.run, none⟩)
       ∧ ∀ o, (s.module m).outlet = some o →
         ∀ refs : Int → Option References, (∀ share, refs share =
             if (s.berth o).rg.mode = .off ∨ (s.berth o).rg.updated = false then none else some
               { phase := (s.berth o).rg.phase, freq := (s.berth o).rg.freqNow / 1000
                 volts := (s.berth o).rg.voltNow / 1000, shareTarget := share
                 shareTrim := (s.module m).trim }) →
         ((s.module m).state = .starting → (t.module m).sent = some
             (if (s.module m).precharged then ⟨.run, refs (s.module m).shareTarget⟩
              else ⟨.prechargeTo o (s.module m).busForming, none⟩))
         ∧ ((s.module m).state = .running →
             (t.module m).sent = some ⟨.run, refs (s.module m).shareTarget⟩)
         ∧ (∀ p, (s.module m).state = .stopping → (s.module m).stop = some p →
             (t.module m).sent = some
               (if p.normalFrom.isSome then ⟨.stopNormal, none⟩ else ⟨.run, refs 0⟩)))
   ∧ (∀ (m : ModuleNo) (s : State) (p : StopProgress), (s.module m).state = .stopping →
       (s.module m).stop = some p → p.normalFrom = none →
       exec (.stopCurrentTimeout m) s = .next (s.onModule m fun x => { x with
         stop := some { p with normalFrom := some s.tb.run } })))
  ∧ (∀ (o : Outlet) (s : State), (s.berth o).sc.state = .tripped →
       (s.berth o).mp.hold.isSome = true →
       ∃ t, exec (.holdTimeExpiry o) s = .next t
         ∧ (∀ m, (s.module m).outlet = some o → (s.module m).state = .held →
             (t.module m).state = .stopping ∧ (t.module m).outlet = some o
               ∧ (t.module m).stop
                 = some { endedStart := false, since := s.tb.run, normalFrom := none })
         ∧ (t.berth o).mp.hold = none ∧ SameButPool (s.berth o) (t.berth o)
         ∧ Elsewhere [o] [] s t ∧ KeepsAccount s t ∧ NoFault s t ∧ t.metering = s.metering)

/-- The GROW watch completes (R36): the outlet requests a module by GROW, taken at once while the
pre-charge unit is free, an IDLE module exists and no other request is pending; the module that starts
is the smallest of those with an effective rating (R34, R35).

The module that a deficit chooses among the IDLE ones (R35): the smallest effective rating not below
the deficit, or with none so large the largest; of equals the lowest number.

The SHRINK watch completes in SHORE_SUPPLY (R37): of the RUNNING modules with the largest effective
rating the one of highest number is selected, and nothing else changes. Its stop begins at the first power
record that leaves at least 1.05 times S of capacity; at any other record the module runs on and the stop
stays deferred.

At a power record (R36, R37) the GROW watch runs on, or starts from it, while the outlet is breaker-closed with
fewer than 8 modules, none STARTING, no entry, and S above 90 % of capacity; and the SHRINK watch while, in
SHORE_SUPPLY, without the largest RUNNING module the capacity is at the target and 1.25 times S, with no module
STARTING, STOPPING or HELD, no entry and no stop selected. Otherwise the watch is at zero. -/
def Obligations.GrowAndShrinkWatches : Prop :=
  (∀ (o : Outlet) (s : State), (s.berth o).mp.growFrom.isSome = true → s.growAllowed o = true →
     (s.berth o).mp.replaceArisen = false →
     (∀ u, s.pool.unit = some u → s.passDue = false →
       ∃ t, exec (.growWatchComplete o) s = .next t ∧ t = { s with berths := t.berths }
         ∧ (t.berth o).mp.entry = some { cls := .grow, arrival := s.now }
         ∧ (t.berth o).mp.growFrom = none ∧ SameButPool (s.berth o) (t.berth o)
         ∧ ∀ q, q ≠ o → t.berth q = s.berth q)
     ∧ (s.pool.unit = none → (∃ m, (s.module m).state = .idle) →
       (∀ q, (s.berth q).mp.entry = none) →
       ∃ t m, exec (.growWatchComplete o) s = .next t ∧ (s.module m).state = .idle
         ∧ (t.module m).state = .starting ∧ (t.module m).outlet = some o ∧ (t.module m).trim = 0
         ∧ t.pool.unit = some { module := m, outlet := o, since := s.tb.run, cls := .grow
                                arrival := s.now, ended := false }
         ∧ (∀ n, (s.module n).state = .idle → 1 ≤ (s.module n).effective →
             1 ≤ (s.module m).effective ∧ (s.module m).effective ≤ (s.module n).effective)
         ∧ SameButPool (s.berth o) (t.berth o)
         ∧ Elsewhere [o] [] s t ∧ KeepsAccount s t ∧ NoFault s t ∧ t.metering = s.metering))
  ∧ (∀ (s : State) (deficit : Nat),
       ((∃ m, (s.module m).state = .idle) ↔ (s.chooseModule deficit).isSome = true)
       ∧ ∀ m, s.chooseModule deficit = some m → (s.module m).state = .idle
         ∧ ∀ n, (s.module n).state = .idle →
           (deficit ≤ (s.module n).effective →
             deficit ≤ (s.module m).effective ∧ (s.module m).effective ≤ (s.module n).effective
               ∧ ((s.module n).effective = (s.module m).effective → m.number ≤ n.number))
           ∧ ((s.module m).effective < deficit →
             (s.module n).effective ≤ (s.module m).effective
               ∧ ((s.module n).effective = (s.module m).effective → m.number ≤ n.number)))
  ∧ (∀ (o : Outlet) (s : State) (m : ModuleNo), (s.berth o).mp.shrinkFrom.isSome = true →
       (s.berth o).sc.state = .shoreSupply →
       (s.module m).state = .running → (s.module m).outlet = some o →
       (∀ n, (s.module n).state = .running → (s.module n).outlet = some o →
         (s.module n).effective < (s.module m).effective
           ∨ ((s.module n).effective = (s.module m).effective ∧ n.number ≤ m.number)) →
       exec (.shrinkWatchComplete o) s = .next (s.onMp o fun p => { p with
         shrinkFrom := none, voluntary := some { module := m, begun := false } }))
  ∧ (∀ (o : Outlet) (s : State) (m : ModuleNo) (v : LineVoltages) (c : CyclePower)
       (last : TimeStamp), (s.berth o).sc.state = .shoreSupply →
       (s.module m).state = .running → (s.module m).outlet = some o →
       (s.berth o).mp.voluntary = some { module := m, begun := false } →
       (s.berth o).mu.ship.cycle = some last →
       14286 ≤ elapsed s.tb.run last.run → elapsed s.tb.run last.run ≤ 25000 →
       (s.berth o).nominalVolts / 10 ≤ min 15000 ((v.v12 + v.v23 + v.v31) / 3) →
       (s.berth o).pr.frequency < 9 → (s.berth o).pr.overload < 9 →
       ∃ t r, exec (.zeroCrossing (.ship o) v c) s = .next t ∧ MeasuredFrame (.ship o) s t
         ∧ (t.berth o).mu.power = some r ∧ r.stamp = s.now
         ∧ (t.berth o).sc.state = .shoreSupply ∧ (t.module m).outlet = some o
         ∧ (105 * r.s ≤ (s.capacity o - (s.module m).effective) * 100000 →
           (t.module m).state = .stopping
             ∧ (t.module m).stop
               = some { endedStart := false, since := s.tb.run, normalFrom := none }
             ∧ (t.berth o).mp.voluntary = some { module := m, begun := true })
         ∧ ((s.capacity o - (s.module m).effective) * 100000 < 105 * r.s →
           (t.module m).state = .running
             ∧ (t.berth o).mp.voluntary = some { module := m, begun := false }))
  ∧ (∀ (o : Outlet) (pt : MeasPoint) (v : LineVoltages) (c : CyclePower) (s : State),
       s.passDue = false → s.MakesPower o pt v → (pt = .ship o → (s.berth o).pr.frequency < 9) →
       (s.berth o).pr.overload < 9 → (∀ x, (s.berth o).mp.voluntary = some x → x.begun = true) →
       ∃ t r, exec (.zeroCrossing pt v c) s = .next t ∧ MeasuredFrame pt s t
         ∧ (t.berth o).mu.power = some r ∧ r.stamp = s.now
         ∧ (t.berth o).mp.growFrom
           = (if (s.berth o).sc.state.breakerClosed = true ∧ s.assigned o < 8
                ∧ s.countAt .starting o = 0 ∧ (s.berth o).mp.entry = none
                ∧ s.capacity o * 9000 < r.s * 10 then
              some ((s.berth o).mp.growFrom.getD s.tb.run) else none)
         ∧ ((∀ m, (s.module m).outlet = some o → (s.module m).state ≠ .running) →
           (t.berth o).mp.shrinkFrom = none)
         ∧ (∀ (l : ModuleNo) (left : Nat), (s.module l).outlet = some o →
           (s.module l).state = .running →
           (∀ m, (s.module m).outlet = some o → (s.module m).state = .running →
             (s.module m).effective ≤ (s.module l).effective) →
           left = s.capacity o - (s.module l).effective →
           (t.berth o).mp.shrinkFrom
             = (if (s.berth o).sc.state = .shoreSupply ∧ s.countAt .starting o = 0
                  ∧ s.countAt .stopping o = 0 ∧ s.countAt .held o = 0
                  ∧ (s.berth o).mp.entry = none ∧ (s.berth o).mp.voluntary = none
                  ∧ (s.berth o).sc.target ≤ left ∧ 125 * r.s ≤ left * 100000 then
                some ((s.berth o).mp.shrinkFrom.getD s.tb.run) else none)))

/-! ### The reference generator -/

/-- RG_UPDATE (R47, R48, R49, R57): in every mode but OFF the frequency moves at most 500 µHz and the
voltage at most 1/20 mV for each volt of nominal toward their targets, and stops there; the phase then
advances by the frequency times 65,536 per 10⁹, the remainder carried; command records carry the
references from then on. In OFF the phase alone advances.
And 100 ms without a pair record in TRACK or POWER (R52) show holding.

The power loop (R53, R54): in POWER, with a capacity, Δ changes by the gain times the error in percent
of the capacity, over 1000, truncated at each step, within -500 to 500; a changed Δ works the targets out
afresh from the latest pair record. In any other mode, or at capacity 0, nothing changes. -/
def Obligations.ReferencesAndPowerLoop : Prop :=
  ((∀ (o : Outlet) (s : State), ∃ f v total,
     exec (.rgUpdate o) s = .next (s.onRg o fun g => { g with
       freqNow := f, voltNow := v, phase := (g.phase + total / 1000000000) % 65536
       phaseFrac := total % 1000000000, updateFrom := s.tb.run
       updated := if g.mode = .off then g.updated else true })
     ∧ total = f * 65536 + (s.berth o).rg.phaseFrac
     ∧ ((s.berth o).rg.mode = .off → f = (s.berth o).rg.freqNow ∧ v = (s.berth o).rg.voltNow)
     ∧ ((s.berth o).rg.mode ≠ .off →
       (f = (s.berth o).rg.freqTarget * 1000
           ∧ ((f : Int) - (s.berth o).rg.freqNow).natAbs ≤ 500
         ∨ (s.berth o).rg.freqNow + 500 < (s.berth o).rg.freqTarget * 1000
           ∧ f = (s.berth o).rg.freqNow + 500
         ∨ (s.berth o).rg.freqTarget * 1000 + 500 < (s.berth o).rg.freqNow
           ∧ f + 500 = (s.berth o).rg.freqNow)
       ∧ ∀ step, step = (s.berth o).nominalVolts / 20 →
         (v = (s.berth o).rg.voltTarget * 1000
             ∧ ((v : Int) - (s.berth o).rg.voltNow).natAbs ≤ step
           ∨ (s.berth o).rg.voltNow + step < (s.berth o).rg.voltTarget * 1000
             ∧ v = (s.berth o).rg.voltNow + step
           ∨ (s.berth o).rg.voltTarget * 1000 + step < (s.berth o).rg.voltNow
             ∧ v + step = (s.berth o).rg.voltNow)))
   ∧ (∀ (o : Outlet) (s : State), (s.berth o).rg.mode = .track ∨ (s.berth o).rg.mode = .power →
       (s.berth o).rg.recordTime.isSome = true →
       exec (.holdingTimeout o) s = .next (s.onRg o fun g => { g with holding := true })))
  ∧ (∀ (b : Berth) (capacity : Nat) (r : PowerRecord) (pair : PairRecord) (change delta : Int),
       b.mu.pair = some pair →
       change = ((((b.rg.pSet : Int) * 1000 - r.p) * 100).tdiv ((capacity : Int) * 1000)
         * b.rg.gain).tdiv 1000 →
       delta = max (-500) (min 500 (b.rg.delta + change)) →
       (b.rg.mode = .power → capacity ≠ 0 →
         (b.powerLoop capacity r).rg.delta = delta
         ∧ (delta = b.rg.delta → b.powerLoop capacity r = b)
         ∧ (delta ≠ b.rg.delta →
           b.powerLoop capacity r = ({ b with rg := { b.rg with delta := delta } }).withTargets
             (pair.fP + delta) pair.vP))
       ∧ (b.rg.mode ≠ .power ∨ capacity = 0 → b.powerLoop capacity r = b))

/-- What the blocks do with the records that a cycle of Pn makes. In TRACK, before the breaker closes,
the pair record sets the targets (R46, R51): its fP with the slip target added and its VP, clamped. In
POWER the power record moves Δ by the loop (R54), and the targets are its fP with Δ added and its VP,
clamped (R46, R53). Either clears holding, with the record time now (R51, R53).

Each RUNNING module is given its share of P (R40), and its trim moves one tenth of a degree toward a
difference of more than 5 % of its rating, within -20 to 20. MODEL'S CHOICE (log entry 15, DEDUCED): after
a change of Δ the clamp indication is that of both targets worked out afresh. -/
def Obligations.ControlAtARecord : Prop :=
  ∀ (o : Outlet) (v : LineVoltages) (c : CyclePower) (s : State) (last : TimeStamp) (p : Int),
    s.waits o = false → (s.berth o).mu.ship.cycle = some last →
    14286 ≤ elapsed s.tb.run last.run → elapsed s.tb.run last.run ≤ 25000 →
    (s.berth o).nominalVolts / 10 ≤ min 15000 ((v.v12 + v.v23 + v.v31) / 3) →
    (s.berth o).pr.frequency < 9 → (s.berth o).pr.overload < 9 → (s.berth o).mp.voluntary = none →
    p = max (-25000000) (min 25000000 c.p) →
    ∃ t, exec (.zeroCrossing (.ship o) v c) s = .next t ∧ MeasuredFrame (.ship o) s t
      ∧ (∀ (rs : Phasor) (cs : CycleFields) (lastS : TimeStamp) (fP vP : Nat)
          (delta low high lowV highV : Int),
        (s.berth o).mu.shore.record = some rs → rs.cycle = some cs →
        (s.berth o).mu.shore.cycle = some lastS →
        fP = 1000000000 / elapsed s.tb.run last.run →
        vP = min 15000 ((v.v12 + v.v23 + v.v31) / 3) →
        low = ((s.berth o).nominalFreq * 95 / 100 : Nat) →
        high = ((s.berth o).nominalFreq * 105 / 100 : Nat) →
        lowV = ((s.berth o).nominalVolts * 90 / 100 : Nat) →
        highV = ((s.berth o).nominalVolts * 110 / 100 : Nat) →
        ((s.berth o).rg.mode = .track ∧ (s.berth o).rg.delta = delta
            ∧ ((s.berth o).sc.state = .synchronising ∨ (s.berth o).sc.state = .closing))
          ∨ ((s.berth o).rg.mode = .power
            ∧ ((s.berth o).sc.state = .parallelIn ∨ (s.berth o).sc.state = .parallelOut)
            ∧ delta = (if s.capacity o = 0 then (s.berth o).rg.delta
                else max (-500) (min 500 ((s.berth o).rg.delta
                  + (((((s.berth o).rg.pSet : Int) * 1000 - p) * 100).tdiv
                      ((s.capacity o : Int) * 1000) * (s.berth o).rg.gain).tdiv 1000)))) →
        ∀ freq : Int, freq = (if (s.berth o).rg.mode = .track then
            ((fP + ((s.berth o).sy.settings.smin + (s.berth o).sy.settings.smax) / 2 : Nat) : Int)
          else fP + delta) →
        (t.berth o).sc.state = (s.berth o).sc.state
        ∧ (t.berth o).rg = { (s.berth o).rg with
            delta := delta, recordTime := some s.tb.run, holding := false
            freqTarget := (max low (min high freq)).toNat
            voltTarget := (max lowV (min highV vP)).toNat
            clamped := decide (freq < low ∨ high < freq ∨ (vP : Int) < lowV ∨ highV < vP) })
      ∧ (∀ (m : ModuleNo) (share : Int), (s.module m).state = .running →
          (s.module m).outlet = some o →
          share = (p * (s.module m).effective).tdiv ((s.capacity o : Int) * 1000) →
          t.module m = { s.module m with
            shareTarget := share
            trim := match (s.module m).power with
              | none => (s.module m).trim
              | some out =>
                if (out - share).natAbs * 20 ≤ (s.module m).effective then (s.module m).trim
                else if share < out then max (-20) ((s.module m).trim - 1)
                else min 20 ((s.module m).trim + 1) })

/-! ### Breakers, the pilot loop and the times of a session -/

/-- BREAKER_FAIL by time: 200 ms after SY drove its open output (R71), after the entry to OPENING (R97)
and after a trip (R107), a feedback that still shows closed raises BREAKER_FAIL; after the post-trip time
PR keeps or sets its drive, and with the feedback open releases it.

The watches of import and claim (R87), the return wait (R95) and the measurement gap (R142): each
completes with its event and its note alone, and the gap is counted from the later of the last record,
or before the first the opening of the meter, and the latest change of the feedback to closed.

At a power record the import watch runs while the P of the outlets' latest records together exceed the import
limit, and after IMPORT_OVER_LIMIT not before the sum has been at the limit or below (R87); the cap watch of a
breaker-closed outlet while P exceeds the claim, and after OVER_CAP not before a record at the claim or below
(R87); and in PARALLEL_OUT the unloaded time while P is within 50 kW or 2 % of capacity (R96). Otherwise each
stands at zero. MODEL'S CHOICE (log entry 66, DESIGN CHOICE): a record outside the breaker-closed states does
not let the cap watch run again. -/
def Obligations.TimesThatReport : Prop :=
  (∀ (o : Outlet) (s : State),
     ((s.berth o).sy.driveFrom.isSome = true →
       exec (.openDriveFailTime o) s = .next
         (if (s.berth o).lines.breakerClosed then
           (s.onSy o fun y => { y with driveFrom := none }).raise .breakerFail (.outlet o)
          else s.onSy o fun y => { y with driveFrom := none }))
     ∧ ((s.berth o).sc.state = .opening → (s.berth o).sc.openFrom.isSome = true →
       exec (.openTimeExpiry o) s = .next
         (if (s.berth o).lines.breakerClosed then
           (s.onSc o fun r => { r with openFrom := none }).raise .breakerFail (.outlet o)
          else s.onSc o fun r => { r with openFrom := none }))
     ∧ ((s.berth o).pr.postTripFrom.isSome = true →
       exec (.postTripTimeExpiry o) s = .next
         (if (s.berth o).lines.breakerClosed then
           (s.onPr o fun p => { p with postTripFrom := none, openDrive := true, breakerFail := true
             }).raise .breakerFail (.outlet o)
          else s.onPr o fun p => { p with postTripFrom := none, openDrive := false })))
  ∧ ((∀ s : State, s.account.importFrom.isSome = true →
       exec .importWatchComplete s = .next
         ({ s with account := { s.account with importFrom := none, importReported := true }
           }.report .importOverLimit .station (some (s.importSum.tdiv 1000).toNat)))
     ∧ (∀ (o : Outlet) (s : State) (r : PowerRecord), (s.berth o).sc.capFrom.isSome = true →
       (s.berth o).mu.power = some r →
       exec (.capWatchComplete o) s = .next
         ((s.onSc o fun x => { x with capFrom := none, capReported := true }).report .overCap
           (.outlet o) (some (r.p.tdiv 1000).toNat)))
     ∧ (∀ (o : Outlet) (s : State), (s.berth o).sc.state = .shoreSupply →
       (s.berth o).sc.returnFrom.isSome = true →
       exec (.returnWaitExpiry o) s = .next
         ((s.onSc o fun x => { x with returnFrom := none }).report .returnWaitLong (.outlet o)))
     ∧ (∀ (o : Outlet) (s : State) (m : Meter), (s.berth o).lines.breakerClosed = true →
       (s.berth o).mt = some m → m.gapFrom = none →
       ∃ from', exec (.gapOpens o) s
             = .next (s.onMt o fun x => { x with gapFrom := some from' })
         ∧ (from' = m.lastRecord.getD m.opened ∨ (s.berth o).lines.closedAt = some from')
         ∧ elapsed s.tb.run from' ≤ elapsed s.tb.run (m.lastRecord.getD m.opened)
         ∧ ∀ c, (s.berth o).lines.closedAt = some c → elapsed s.tb.run from' ≤ elapsed s.tb.run c))
  ∧ (∀ (o : Outlet) (pt : MeasPoint) (v : LineVoltages) (c : CyclePower) (s : State),
       s.passDue = false → s.MakesPower o pt v → (pt = .ship o → (s.berth o).pr.frequency < 9) →
       (s.berth o).pr.overload < 9 →
       ∃ t r, exec (.zeroCrossing pt v c) s = .next t ∧ MeasuredFrame pt s t
         ∧ (t.berth o).mu.power = some r ∧ r.stamp = s.now
         ∧ (∀ sum : Int, sum = (Outlet.all.map fun q => if q = o then r.p else
               match (s.berth q).mu.power with
               | some x => x.p
               | none => 0).sum →
             ((s.account.limit : Int) * 1000 < sum →
               t.account.importFrom = (if s.account.importReported then none
                 else some (s.account.importFrom.getD s.tb.run))
               ∧ t.account.importReported = s.account.importReported)
             ∧ (sum ≤ (s.account.limit : Int) * 1000 →
               t.account.importFrom = none ∧ t.account.importReported = false))
         ∧ ((s.berth o).sc.state.breakerClosed = true →
             (((s.berth o).claim : Int) * 1000 < r.p →
               (t.berth o).sc.capFrom = (if (s.berth o).sc.capReported then none
                 else some ((s.berth o).sc.capFrom.getD s.tb.run))
               ∧ (t.berth o).sc.capReported = (s.berth o).sc.capReported)
             ∧ (r.p ≤ ((s.berth o).claim : Int) * 1000 →
               (t.berth o).sc.capFrom = none ∧ (t.berth o).sc.capReported = false))
         ∧ ((s.berth o).sc.state.breakerClosed = false →
             (t.berth o).sc.capFrom = none
             ∧ (t.berth o).sc.capReported = (s.berth o).sc.capReported)
         ∧ (t.berth o).sc.unloadedFrom
           = (if (s.berth o).sc.state = .parallelOut
                ∧ r.p.natAbs ≤ max 50000 (s.capacity o * 20) then
              some ((s.berth o).sc.unloadedFrom.getD s.tb.run) else none))

/-- The dead time completes (R73, R74): with a DEAD_BUS declaration in ENERGISING or SYNCHRONISING, the
capacity at the target, Sn live, the breaker open, no open drive and no close made, SY issues the close
at once and the outlet enters CLOSING, where a level condition trips it (R105, R109); otherwise, where any one
of these fails, the completion is kept and nothing else changes.

The dead time at a record of Pn in these two states (R73): with a DEAD_BUS declaration it runs on, or starts
from the record, where Pn is dead by it, and is discarded where Pn is live; with a PARALLEL one none starts.
MODEL'S CHOICE (log entry 51, DESIGN CHOICE): it starts also while SY's open drive is set. -/
def Obligations.DeadTimeCompleteClosesOntoADeadBus : Prop :=
  (∀ (o : Outlet) (s : State), (s.berth o).sy.deadFrom.isSome = true →
    (∀ ready, ready =
        (((s.berth o).sc.state = .energising ∨ (s.berth o).sc.state = .synchronising)
          ∧ (s.berth o).declaresDeadBus = true ∧ (s.berth o).sc.target ≤ s.capacity o
          ∧ (s.berth o).mu.shore.live = true ∧ (s.berth o).lines.breakerClosed = false
          ∧ (s.berth o).sy.openDrive = false ∧ (s.berth o).sy.close = .watching) →
      (ready → (s.berth o).levelCause = none →
        ∃ t, exec (.deadTimeComplete o) s = .next t
          ∧ (t.berth o).sc.state = .closing ∧ (t.berth o).rg.mode = .track
          ∧ (t.berth o).sc.session = (s.berth o).sc.session ∧ (t.berth o).mt = (s.berth o).mt
          ∧ (t.berth o).sy.close = .inFlight ∧ (t.berth o).sy.closeOutput = true
          ∧ (t.berth o).sy.deadFrom = none
          ∧ (t.berth o).sy.record = some
              { kind := .deadBus, command := s.now, theta := none, slip := none, toGo := none
                tc := (s.berth o).sy.tc, outcome := .inFlight, measured := none
                angleError := none, attempt := (s.berth o).sy.attempts + 1 }
          ∧ Elsewhere [o] [] s t ∧ KeepsAccount s t ∧ NoFault s t ∧ t.metering = s.metering)
      ∧ (∀ c, ready → (s.berth o).levelCause = some c →
        ∃ t, exec (.deadTimeComplete o) s = .next t ∧ Tripped o c s t
          ∧ (t.berth o).sy.closeOutput = false
          ∧ Elsewhere [o] [] s t ∧ KeepsAccount s t ∧ t.metering = s.metering)
      ∧ (¬ ready → s.passDue = false →
        exec (.deadTimeComplete o) s = .next (s.onSy o fun y => { y with deadComplete := true }))))
  ∧ (∀ (o : Outlet) (v : LineVoltages) (s : State) (i : Instr),
      (s.berth o).sc.state = .energising ∨ (s.berth o).sc.state = .synchronising →
      s.BringsRecord (.ship o) v i →
      ∃ t, exec i s = .next t ∧ MeasuredFrame (.ship o) s t
        ∧ ((s.berth o).declaresDeadBus = true → (s.berth o).sy.deadComplete = false →
            (t.berth o).sc.state = (s.berth o).sc.state
            ∧ (t.berth o).sy.deadComplete = false
            ∧ (t.berth o).sy.deadFrom
              = (if min 15000 ((v.v12 + v.v23 + v.v31) / 3) < (s.berth o).nominalVolts / 10 then
                  some ((s.berth o).sy.deadFrom.getD s.tb.run) else none))
        ∧ ((s.berth o).declaresDeadBus = false → (s.berth o).sy.deadFrom = none →
            (t.berth o).sy.deadFrom = none))

/-- The treated pilot loop closes (R79, R120): a DORMANT outlet enters CABLE_PROVEN with its link
powered, SL waking for 3 s, or 300 ms with FAST; in any other state the loop is noted alone.

The treated pilot loop opens (R79, R106, R108, R137, Table 5-5): CABLE_PROVEN and AWAIT_AUTH return
to DORMANT with the link unpowered and its tables cleared; ENERGISING, SYNCHRONISING and TRIPPED with a
session enter WIND_DOWN; CLOSING and the breaker-closed states trip by PILOT_OPEN; in TRIPPED without a
session it is, while the feedback is closed, the later cause PILOT_OPEN, raised once (R108), and the outlet
stays in TRIPPED (note j of Table 5-5); in the others the loop is noted alone. From TRIPPED into WIND_DOWN PR's
drive and post-trip time run on while the feedback shows closed (R107); with it open they end there (MODEL'S
CHOICE, log entry 55, DEDUCED). -/
def Obligations.PilotLoopChanges : Prop :=
  (∀ (o : Outlet) (s : State), (s.berth o).lines.pilotClosed = false →
     ∀ u, u = (s.onLines o fun l => { l with pilotClosed := true }) →
     ((s.berth o).sc.state = .dormant →
       ∃ t, exec (.pilotLoopClosed o) s = .next t
         ∧ (t.berth o).sc.state = .cableProven ∧ (t.berth o).sc.entered = s.now
         ∧ (t.berth o).sc.session = (s.berth o).sc.session ∧ (t.berth o).mt = (s.berth o).mt
         ∧ (t.berth o).lines = { (s.berth o).lines with pilotClosed := true, linkPower := true }
         ∧ (t.berth o).sl = { (s.berth o).sl with
             state := .waking, wakeFrom := some s.tb.run
             wakeLength := if (s.berth o).sc.settings.linkWake = .fast then 300000 else 3000000 }
         ∧ Elsewhere [o] [] u t ∧ KeepsAccount s t ∧ NoFault s t ∧ t.metering = s.metering)
     ∧ ((s.berth o).sc.state ≠ .dormant → exec (.pilotLoopClosed o) s = .next u))
  ∧ (∀ (o : Outlet) (s : State), (s.berth o).lines.pilotClosed = true →
       ∀ u, u = (s.onLines o fun l => { l with pilotClosed := false }) →
       ((s.berth o).sc.state = .cableProven ∨ (s.berth o).sc.state = .awaitAuth →
         ∃ t, exec (.pilotLoopOpen o) s = .next t
           ∧ (t.berth o).sc.state = .dormant ∧ (t.berth o).sc.declaration = none
           ∧ (t.berth o).sc.target = 0 ∧ (t.berth o).sc.session = (s.berth o).sc.session
           ∧ (t.berth o).lines = { (s.berth o).lines with pilotClosed := false, linkPower := false }
           ∧ (t.berth o).sl.state = .unpowered ∧ (t.berth o).sl.stations = []
           ∧ (t.berth o).sl.generators = []
           ∧ Elsewhere [o] [] u t ∧ KeepsAccount s t ∧ NoFault s t ∧ t.metering = s.metering)
       ∧ ((s.berth o).sc.state = .energising ∨ (s.berth o).sc.state = .synchronising → s.keptOpen o →
         ∃ t, exec (.pilotLoopOpen o) s = .next t ∧ WindsDown o u t
           ∧ Elsewhere [o] [] u t ∧ KeepsAccount s t ∧ NoFault s t ∧ t.metering = s.metering)
       ∧ ((s.berth o).sc.state = .closing ∨ (s.berth o).sc.state.breakerClosed = true →
         ∃ t, exec (.pilotLoopOpen o) s = .next t ∧ Tripped o .pilotOpen u t ∧ Raised .pilotOpen s t
           ∧ Elsewhere [o] [] u t ∧ KeepsAccount s t ∧ t.metering = s.metering)
       ∧ ((s.berth o).sc.state = .tripped → (s.berth o).sc.session.isSome = true → s.keptOpen o →
         ∃ t, exec (.pilotLoopOpen o) s = .next t ∧ WindsDown o u t
           ∧ Elsewhere [o] [] u t ∧ KeepsAccount s t ∧ t.metering = s.metering
           ∧ DriveRunsOn (s.berth o) (t.berth o)
           ∧ ((s.berth o).lines.breakerClosed = true →
               (s.berth o).pr.laterCauses.contains .pilotOpen = false → Raised .pilotOpen s t))
       ∧ (s.passDue = false → (s.berth o).sc.state = .tripped → (s.berth o).sc.session = none →
         exec (.pilotLoopOpen o) s = .next
           (if (s.berth o).lines.breakerClosed = true
               ∧ (s.berth o).pr.laterCauses.contains .pilotOpen = false then
             (u.raise .pilotOpen (.outlet o)).onPr o fun p =>
               { p with laterCauses := p.laterCauses ++ [.pilotOpen] }
           else u))
       ∧ (s.passDue = false → (s.berth o).sc.state = .dormant ∨ (s.berth o).sc.state = .opening
           ∨ (s.berth o).sc.state = .windDown → exec (.pilotLoopOpen o) s = .next u))

/-- A record of Sn or Pn in ENERGISING, of a PARALLEL ship (R90): where with it the capacity is at the
target and both buses are live, the outlet enters SYNCHRONISING, RG in TRACK, and the sync time starts
(R91); otherwise it stays.

The energise time (R90) and the sync time in SYNCHRONISING (R91) expire: the fault is raised and the
outlet enters WIND_DOWN, where its session closes at once if nothing keeps it open (R98). In CLOSING the
sync time's expiry is kept until the close is resolved. -/
def Obligations.EnergisingAndSynchronisingEnd : Prop :=
  (∀ (o : Outlet) (pt : MeasPoint) (v : LineVoltages) (c : CyclePower) (s : State) (i : Instr),
    pt = .shore o ∨ pt = .ship o →
    (s.berth o).sc.state = .energising → (s.berth o).declaresParallel = true →
    (s.berth o).sc.syncFrom = none → (s.berth o).sc.syncExpired = false →
    (i = .voltageOnlyCadence pt v ∧ (s.point pt).cycle = none)
      ∨ (i = .cycleLapse pt v ∧ (s.point pt).cycle.isSome = true)
      ∨ (i = .zeroCrossing pt v c ∧ ∃ last, (s.point pt).cycle = some last
          ∧ 14286 ≤ elapsed s.tb.run last.run ∧ elapsed s.tb.run last.run ≤ 25000) →
    ∃ t, exec i s = .next t ∧ MeasuredFrame pt s t
      ∧ (t.berth o).sc.session = (s.berth o).sc.session
      ∧ (t.berth o).sc.declaration = (s.berth o).sc.declaration
      ∧ (t.berth o).sc.target = (s.berth o).sc.target
      ∧ (if (s.berth o).sc.target ≤ s.capacity o ∧ (t.berth o).mu.shore.live = true
            ∧ (t.berth o).mu.ship.live = true then
          (t.berth o).sc.state = .synchronising ∧ (t.berth o).rg.mode = .track
            ∧ (t.berth o).sc.entered = s.now ∧ (t.berth o).sc.syncFrom = some s.tb.run
            ∧ (t.berth o).sc.energiseFrom = none
        else
          (t.berth o).sc.state = .energising ∧ (t.berth o).rg.mode = (s.berth o).rg.mode
            ∧ (t.berth o).sc.energiseFrom = (s.berth o).sc.energiseFrom))
  ∧ (∀ (o : Outlet) (s : State) (i : Instr) (k : FaultKind),
    (i = .energiseTimeExpiry o ∧ k = .energiseTimeout ∧ (s.berth o).sc.state = .energising
        ∧ (s.berth o).sc.energiseFrom.isSome = true)
      ∨ (i = .syncTimeExpiry o ∧ k = .syncTimeout ∧ (s.berth o).sc.state = .synchronising
        ∧ (s.berth o).sc.syncFrom.isSome = true) →
    (s.keptOpen o →
      ∃ t, exec i s = .next t ∧ WindsDown o s t ∧ Raised k s t
        ∧ Elsewhere [o] [] s t ∧ KeepsAccount s t ∧ t.metering = s.metering)
    ∧ (∀ x, (s.berth o).lines.breakerClosed = false → s.assigned o = 0 →
      (s.berth o).sc.session = some x → (s.berth o).mt.isSome = true →
      ∃ t, exec i s = .next t ∧ SessionCloses o x s t ∧ Raised k s t
        ∧ Elsewhere [o] [] s t ∧ KeepsAccount s t))
  ∧ (∀ (o : Outlet) (s : State), (s.berth o).sc.state = .closing →
    (s.berth o).sc.syncFrom.isSome = true →
    exec (.syncTimeExpiry o) s = .next (s.onSc o fun r => { r with
      syncFrom := none, syncExpired := true }))

/-- The ramps (R55, R86, R93, R96): each 10 ms P_set moves by a hundredth of the ramp rate, up to the
claim in PARALLEL_IN while the capacity is at the target, down to 0 in PARALLEL_OUT.

A capacity 10 s below the target and the ramp-in limit abort the ramp-in (R94): HANDOVER_ABORT is
raised and the outlet enters PARALLEL_OUT, P_set as it was; where a level condition stands, it trips
there at once (R105, R109).

In PARALLEL_OUT, 2 s unloaded, or the 300 s timeout with RAMP_OUT_TIMEOUT (R96), take the outlet to
OPENING: SC drives its open output, RG is in OFF, and session, meter and RUNNING modules stand. -/
def Obligations.RampsInAndOut : Prop :=
  (∀ (o : Outlet) (s : State), (s.berth o).rg.mode = .power →
     ((s.berth o).sc.state = .parallelIn →
       exec (.rampInTick o) s = .next (s.onBerth o fun b => { b with
         sc := { b.sc with rampFrom := some s.tb.run }
         rg := if b.sc.target ≤ s.capacity o then
             { b.rg with
               pSet := min (min (b.rg.pSet + b.sc.settings.rampRate / 100) b.claim) 25000 }
           else b.rg }))
     ∧ ((s.berth o).sc.state = .parallelOut →
       exec (.rampOutTick o) s = .next (s.onBerth o fun b => { b with
         sc := { b.sc with rampFrom := some s.tb.run }
         rg := { b.rg with pSet := min (b.rg.pSet - b.sc.settings.rampRate / 100) 25000 } })))
  ∧ (∀ (o : Outlet) (s : State) (i : Instr), (s.berth o).sc.state = .parallelIn →
       (s.berth o).rg.mode = .power →
       (i = .capacityShortExpiry o ∧ (s.berth o).sc.capacityShortFrom.isSome = true)
         ∨ (i = .rampInLimitExpiry o ∧ (s.berth o).sc.rampInFrom.isSome = true) →
       (s.NoEntryCause o →
         ∃ t, exec i s = .next t ∧ (t.berth o).sc.state = .parallelOut
           ∧ (t.berth o).sc.rampOutFrom = some s.tb.run ∧ (t.berth o).rg = (s.berth o).rg
           ∧ (t.berth o).sc.session = (s.berth o).sc.session ∧ (t.berth o).mt = (s.berth o).mt
           ∧ Raised .handoverAbort s t
           ∧ Elsewhere [o] [] s t ∧ KeepsAccount s t ∧ t.metering = s.metering)
       ∧ (∀ c, (s.berth o).levelCause = some c →
         ∃ t, exec i s = .next t ∧ Tripped o c s t
           ∧ t.fe.flags = s.fe.flags ||| FaultKind.handoverAbort.bit ||| c.fault.bit
           ∧ Elsewhere [o] [] s t ∧ KeepsAccount s t ∧ t.metering = s.metering))
  ∧ (∀ (o : Outlet) (s : State) (i : Instr), (s.berth o).sc.state = .parallelOut →
       (s.berth o).rg.mode = .power →
       (i = .unloadedComplete o ∧ (s.berth o).sc.unloadedFrom.isSome = true)
         ∨ (i = .rampOutTimeout o ∧ (s.berth o).sc.rampOutFrom.isSome = true) →
       ∃ t, exec i s = .next t ∧ (t.berth o).sc.state = .opening
         ∧ (t.berth o).sc.openDrive = true ∧ (t.berth o).sc.openFrom = some s.tb.run
         ∧ (t.berth o).rg.mode = .off ∧ (t.berth o).rg.pSet = 0
         ∧ (t.berth o).sc.session = (s.berth o).sc.session ∧ (t.berth o).mt = (s.berth o).mt
         ∧ (∀ m, (s.module m).outlet = some o → (s.module m).state = .running →
             t.module m = s.module m)
         ∧ (i = .unloadedComplete o → NoFault s t)
         ∧ (i = .rampOutTimeout o → Raised .rampOutTimeout s t)
         ∧ Elsewhere [o] [] s t ∧ KeepsAccount s t ∧ t.metering = s.metering)

/-! ### Protection -/

/-- The watches of protection complete (R112, R113, R114, Table 6-2): in the states of its cause the
outlet trips; and BUS_VOLTAGE in TRIPPED with the feedback closed, once, is raised and kept as a later
cause (R108). MODEL'S CHOICE (log entry 12, DEDUCED): a watch that completes in TRIPPED is discarded by
its completion.

The tenth record in a row (R110, R111) trips a breaker-closed outlet: by BUS_FREQUENCY, a record of
Pn outside the band, as a voltage-only record and a cycle record more than 5 % off nominal are; by OVERLOAD,
a power record of more than the trip percentage of the capacity. An earlier voltage-only record is
counted.

At a record of Pn of a breaker-closed outlet whose counts stand below 9, the voltage watch is discarded where
the record is inside nominal ±10 %, the bounds included, and otherwise runs on, or starts from the record's
time stamp (R112). A record with a clipped sample is judged at 15,000 V, whatever its mean.
At a power record of such an outlet the overload count rises by 1 where the record exceeds, and is otherwise 0
(R110); the capacity watch runs on, or starts from the record, while S exceeds the capacity (R113), and in
SHORE_SUPPLY the reverse watch while P is below -10 % of it (R114), each being discarded otherwise.

In TRIPPED with the feedback closed (R108), BUS_FREQUENCY at the tenth record outside the band, SHIP_STOP at a
STATUS with the stop flag set and SCP_LOST at the third miss of the SCP are later causes, each raised once.
MODEL'S CHOICE (log entry 53): without a session every cycle record is outside the band. -/
def Obligations.ProtectionTrips : Prop :=
  (∀ (o : Outlet) (s : State),
     (∀ i c, (i = .voltageWatchComplete o ∧ c = .busVoltage
           ∧ (s.berth o).pr.voltageFrom.isSome = true
           ∧ (s.berth o).sc.state.breakerClosed = true)
         ∨ (i = .capacityWatchComplete o ∧ c = .capacityLoss
           ∧ (s.berth o).pr.capacityFrom.isSome = true
           ∧ (s.berth o).sc.state.breakerClosed = true)
         ∨ (i = .reverseWatchComplete o ∧ c = .reversePower
           ∧ (s.berth o).pr.reverseFrom.isSome = true ∧ (s.berth o).sc.state = .shoreSupply) →
       ∃ t, exec i s = .next t ∧ Tripped o c s t ∧ Raised c.fault s t
         ∧ Elsewhere [o] [] s t ∧ KeepsAccount s t ∧ t.metering = s.metering)
     ∧ ((s.berth o).pr.voltageFrom.isSome = true → (s.berth o).sc.state = .tripped →
       (s.berth o).lines.breakerClosed = true →
       (s.berth o).pr.laterCauses.contains .busVoltage = false → s.passDue = false →
       exec (.voltageWatchComplete o) s = .next
         ((s.onPr o fun p => { p with
           voltageFrom := none, laterCauses := p.laterCauses ++ [.busVoltage]
           }).raise .busVoltage (.outlet o))))
  ∧ (∀ (o : Outlet) (v : LineVoltages) (s : State), (s.berth o).sc.state.breakerClosed = true →
       ((s.berth o).mu.ship.cycle = none → (s.berth o).pr.frequency = 9 →
         ∃ t, exec (.voltageOnlyCadence (.ship o) v) s = .next t ∧ Tripped o .busFrequency s t)
       ∧ ((s.berth o).mu.ship.cycle = none → (s.berth o).pr.frequency < 9 →
         ∃ t, exec (.voltageOnlyCadence (.ship o) v) s = .next t
           ∧ (t.berth o).pr.frequency = (s.berth o).pr.frequency + 1
           ∧ (t.berth o).sc.state = (s.berth o).sc.state)
       ∧ (∀ (c : CyclePower) (last : TimeStamp) (freq : Nat), (s.berth o).mu.ship.cycle = some last →
         14286 ≤ elapsed s.tb.run last.run → elapsed s.tb.run last.run ≤ 25000 →
         (s.berth o).nominalVolts / 10 ≤ min 15000 ((v.v12 + v.v23 + v.v31) / 3) →
         freq = 1000000000 / elapsed s.tb.run last.run →
         freq * 100 < (s.berth o).nominalFreq * 95 ∨ (s.berth o).nominalFreq * 105 < freq * 100 →
         ((s.berth o).pr.frequency = 9 →
           ∃ t, exec (.zeroCrossing (.ship o) v c) s = .next t ∧ MeasuredFrame (.ship o) s t
             ∧ (t.berth o).sc.state = .tripped ∧ (t.berth o).sc.firstCause = some .busFrequency
             ∧ (t.berth o).sc.session = (s.berth o).sc.session
             ∧ (t.berth o).pr.openDrive = true ∧ (t.berth o).pr.postTripFrom = some s.tb.run
             ∧ (t.berth o).rg.mode = .off
             ∧ t.fe.flags &&& FaultKind.busFrequency.bit = FaultKind.busFrequency.bit)
         ∧ ((s.berth o).pr.frequency < 9 → (s.berth o).pr.overload < 9 →
           (s.berth o).mp.voluntary = none →
           ∃ t, exec (.zeroCrossing (.ship o) v c) s = .next t ∧ MeasuredFrame (.ship o) s t
             ∧ (t.berth o).sc.state = (s.berth o).sc.state
             ∧ (t.berth o).pr.frequency = (s.berth o).pr.frequency + 1))
       ∧ (∀ (c : CyclePower) (last : TimeStamp), (s.berth o).mu.ship.cycle = some last →
         14286 ≤ elapsed s.tb.run last.run → elapsed s.tb.run last.run ≤ 25000 →
         (s.berth o).nominalVolts / 10 ≤ min 15000 ((v.v12 + v.v23 + v.v31) / 3) →
         (s.berth o).pr.frequency < 9 → (s.berth o).pr.overload = 9 →
         (s.berth o).mp.voluntary = none →
         (s.berth o).pr.tripPct * (s.capacity o * 1000) < min 30000000 c.s * 100 →
         ∃ t, exec (.zeroCrossing (.ship o) v c) s = .next t
           ∧ (t.berth o).sc.state = .tripped ∧ (t.berth o).sc.firstCause = some .overload
           ∧ (t.berth o).pr.openDrive = true
           ∧ t.fe.flags &&& FaultKind.overload.bit = FaultKind.overload.bit)
       ∧ (∀ (i : Instr) (judged : Nat),
         (i = .voltageOnlyCadence (.ship o) v ∧ (s.berth o).mu.ship.cycle = none)
           ∨ (i = .cycleLapse (.ship o) v ∧ (s.berth o).mu.ship.cycle ≠ none)
           ∨ (∃ c last, i = .zeroCrossing (.ship o) v c ∧ (s.berth o).mu.ship.cycle = some last
             ∧ 14286 ≤ elapsed s.tb.run last.run ∧ elapsed s.tb.run last.run ≤ 25000) →
         (s.berth o).pr.frequency < 9 → (s.berth o).pr.overload < 9 →
         (s.berth o).mp.voluntary = none →
         judged = (if v.clipped then 15000 else min 15000 ((v.v12 + v.v23 + v.v31) / 3)) →
         ∃ t, exec i s = .next t ∧ MeasuredFrame (.ship o) s t
           ∧ (t.berth o).sc.state = (s.berth o).sc.state
           ∧ (t.berth o).pr.voltageFrom
             = (if (s.berth o).nominalVolts * 90 ≤ judged * 100
                  ∧ judged * 100 ≤ (s.berth o).nominalVolts * 110 then none
                else some ((s.berth o).pr.voltageFrom.getD s.tb.run))))
  ∧ (∀ (o : Outlet) (pt : MeasPoint) (v : LineVoltages) (c : CyclePower) (s : State) (cap : Nat),
       (s.berth o).sc.state.breakerClosed = true → s.MakesPower o pt v →
       (pt = .ship o → (s.berth o).pr.frequency < 9) → (s.berth o).pr.overload < 9 →
       (∀ x, (s.berth o).mp.voluntary = some x → x.begun = true) → cap = s.capacity o →
       ∃ t r, exec (.zeroCrossing pt v c) s = .next t ∧ MeasuredFrame pt s t
         ∧ (t.berth o).mu.power = some r ∧ r.stamp = s.now
         ∧ (t.berth o).sc.state = (s.berth o).sc.state
         ∧ (t.berth o).pr.overload
           = (if (s.berth o).pr.tripPct * (cap * 1000) < r.s * 100 then (s.berth o).pr.overload + 1
              else 0)
         ∧ (t.berth o).pr.capacityFrom
           = (if cap * 1000 < r.s then some ((s.berth o).pr.capacityFrom.getD s.tb.run) else none)
         ∧ ((s.berth o).sc.state = .shoreSupply →
             (t.berth o).pr.reverseFrom
               = (if r.p < -((cap : Int) * 100) then
                   some ((s.berth o).pr.reverseFrom.getD s.tb.run) else none)))
  ∧ (∀ (o : Outlet) (s : State), (s.berth o).sc.state = .tripped →
       (s.berth o).lines.breakerClosed = true →
       (∀ (v : LineVoltages) (i : Instr), (s.berth o).pr.frequency = 9 →
         (i = .voltageOnlyCadence (.ship o) v ∧ (s.berth o).mu.ship.cycle = none)
           ∨ (i = .cycleLapse (.ship o) v ∧ (s.berth o).mu.ship.cycle ≠ none)
           ∨ (∃ c last freq, i = .zeroCrossing (.ship o) v c
             ∧ (s.berth o).mu.ship.cycle = some last
             ∧ 14286 ≤ elapsed s.tb.run last.run ∧ elapsed s.tb.run last.run ≤ 25000
             ∧ freq = 1000000000 / elapsed s.tb.run last.run
             ∧ (freq * 100 < (s.berth o).nominalFreq * 95
               ∨ (s.berth o).nominalFreq * 105 < freq * 100)) →
         ∃ t, exec i s = .next t ∧ MeasuredFrame (.ship o) s t ∧ TakesLaterCause o .busFrequency s t)
       ∧ (∀ (held : Bool) (frame : ShipFrame) (st : ShipStatus), s.expects o frame.src →
         frame.dst = 31 → readStatus frame.payload = some st → st.stop = true →
         ∃ t, exec (.status o held frame) s = .next t ∧ TakesLaterCause o .shipStop s t
           ∧ Elsewhere [o] [] s t ∧ KeepsAccount s t ∧ t.metering = s.metering)
       ∧ (∀ (held : Bool) (e : Station) (i : Instr), s.expects o e.address →
         (s.berth o).sl.entry e.address = some e → e.kind = some .scp → e.state = .present →
         2 ≤ e.misses →
         i = .replyWindowClose o held ∨ (∃ src, i = .badFrame o held src)
           ∨ (∃ src, i = .incompleteFrame o held src) →
         ∃ t, exec i s = .next t ∧ TakesLaterCause o .scpLost s t
           ∧ Elsewhere [o] [] s t ∧ KeepsAccount s t ∧ t.metering = s.metering))

/-- The grid (R115): a record of G with the point live ends the watch and the loss, one with it dead
starts the watch where it does not run; the watch's completion stands as the grid loss and trips every
outlet in a breaker-closed state, is a later cause at one in TRIPPED with its feedback closed, and leaves
every other one that does not wait as it was but for its part of the pool. MODEL'S CHOICE (log entry 54):
a complete watch keeps its run count until G is live.

While the grid loss stands, an outlet trips by it at its entry to a breaker-closed state (R105, R115): at
a close confirmed, and at the entry to PARALLEL_OUT by an aborted ramp-in. A closure in TRIPPED makes it a
later cause, once (R107, R108). -/
def Obligations.GridLossTripsTheClosedOutlets : Prop :=
  (∀ (v : LineVoltages) (s : State), s.passDue = false → s.grid.point.cycle = none →
    ∃ t, exec (.voltageOnlyCadence .grid v) s = .next t
      ∧ t.gridWatch = (if t.grid.point.live then { since := none, standing := false }
          else { since := some (s.gridWatch.since.getD s.tb.run)
                 standing := s.gridWatch.standing })
      ∧ (t.grid.point.live = true ↔
          s.grid.nominal / 10 ≤ min 15000 ((v.v12 + v.v23 + v.v31) / 3)))
  ∧ (∀ s : State, s.gridWatch.since.isSome = true → s.gridWatch.standing = false →
    ∃ t, exec .gridWatchComplete s = .next t
      ∧ t.gridWatch = { s.gridWatch with standing := true }
      ∧ SameStation { s with gridWatch := { s.gridWatch with standing := true } } t
      ∧ KeepsAccount s t ∧ t.metering = s.metering
      ∧ (∀ o, (s.berth o).sc.state.breakerClosed = true → Tripped o .gridLoss s t)
      ∧ (∀ o, (s.berth o).trippedClosed = true →
          (t.berth o).sc.state = .tripped
          ∧ (t.berth o).pr.laterCauses
              = (if (s.berth o).pr.laterCauses.contains .gridLoss then (s.berth o).pr.laterCauses
                else (s.berth o).pr.laterCauses ++ [.gridLoss]))
      ∧ (∀ o, (s.berth o).sc.state.breakerClosed = false → (s.berth o).trippedClosed = false →
          s.waits o = false → SameButPool (s.berth o) (t.berth o)))
  ∧ (∀ (o : Outlet) (s : State), s.gridWatch.standing = true → (s.berth o).levelCause = none →
    (∀ i, (s.berth o).sc.state = .parallelIn → (s.berth o).rg.mode = .power →
      (i = .capacityShortExpiry o ∧ (s.berth o).sc.capacityShortFrom.isSome = true)
        ∨ (i = .rampInLimitExpiry o ∧ (s.berth o).sc.rampInFrom.isSome = true) →
      ∃ t, exec i s = .next t ∧ Tripped o .gridLoss s t
        ∧ t.fe.flags = s.fe.flags ||| FaultKind.handoverAbort.bit ||| FaultKind.gridLoss.bit
        ∧ Elsewhere [o] [] s t ∧ KeepsAccount s t ∧ t.metering = s.metering)
    ∧ ((s.berth o).sc.state = .closing → (s.berth o).sy.close = .inFlight →
      (s.berth o).lines.breakerClosed = false → (s.berth o).sy.record.isSome = true →
      ∃ t, exec (.breakerFeedbackClosed o) s = .next t
        ∧ Tripped o .gridLoss ((s.contact o).onMt o fun m =>
            { m with closes := min 65535 (m.closes + 1) }) t
        ∧ (∃ r, (t.berth o).sy.record = some r ∧ r.outcome = .confirmed)
        ∧ (t.berth o).sy.closeOutput = false ∧ Raised .gridLoss s t
        ∧ Elsewhere [o] [] (s.contact o) t ∧ KeepsAccount s t ∧ t.metering = s.metering))
  ∧ (∀ (o : Outlet) (s d : State), s.gridWatch.standing = true → s.passDue = false →
    (s.berth o).sc.state = .tripped → (s.berth o).lines.breakerClosed = false →
    (s.berth o).sy.close ≠ .inFlight →
    d = (s.contact o).onPr o (fun p =>
      { p with overload := 0, frequency := 0, voltageFrom := none, capacityFrom := none
               reverseFrom := none, openDrive := true, postTripFrom := some s.tb.run
               breakerFail := false }) →
    exec (.breakerFeedbackClosed o) s = .next
      (if (s.berth o).pr.laterCauses.contains .gridLoss then d
       else (d.raise .gridLoss (.outlet o)).onPr o fun p =>
         { p with laterCauses := p.laterCauses ++ [.gridLoss] }))

/-! ### The ship link -/

/-- The leader's frames (R120, R123, R128): the wake time's end begins a discovery with a ROLL_CALL that
carries the restart mark; a frame that has ended opens its reply window, a SLOT_GRANT the slot; after an
ENLISTED that refuses, in a discovery, the next ROLL_CALL follows.

A link cycle begins (R129, R131, R132, R136): the entry of lowest address that is PRESENT, or LOST
with its last poll a second old, is polled, the SCP entry with the shore state record; with none to poll
an ATTENTION_QUERY follows while the pair is held, and otherwise the cycle ends. A query without an answer
is followed by the slot of a PRESENT PMS; SLOT_END of the PMS, and the slot's expiry, end the cycle.
MODEL'S CHOICE (log entry 61): the last poll time is that at which the frame begins. -/
def Obligations.LeaderFramesAndCycles : Prop :=
  (∀ (o : Outlet) (s : State),
     ((s.berth o).sl.state = .waking →
       exec (.wakeTimeExpiry o) s = .next (s.onSl o fun l => { l with
         state := .discovering, collisions := 0, wakeFrom := none
         activity := .sending (.rollCall true), step := .rollCall 1 false }))
     ∧ (∀ held f, (s.berth o).sl.activity = .sending f →
       ((∃ mark, f = .rollCall mark) ∨ f = .attentionQuery ∨ (∃ a shore, f = .poll a shore)
           ∨ (∃ a, f = .enlisted a .accepted) →
         exec (.leaderFrameSent o held) s = .next (s.onSl o fun l => { l with
           activity := .window f s.tb.run }))
       ∧ (∀ a, f = .slotGrant a →
         exec (.leaderFrameSent o held) s = .next (s.onSl o fun l => { l with
           activity := .slot s.tb.run }))
       ∧ (∀ a sent, f = .enlisted a .refused ∨ f = .enlisted a .duplicate →
         (s.berth o).sl.step = .rollCall sent false → sent < 24 →
         exec (.leaderFrameSent o held) s = .next (s.onSl o fun l => { l with
           attention := held, activity := .sending (.rollCall false)
           step := .rollCall (sent + 1) false }))))
  ∧ ((∀ (o : Outlet) (held : Bool) (s : State), (s.berth o).sl.state = .cycling →
       (s.berth o).sl.step = .rest → (s.berth o).sl.activity = .quiet →
       ∀ due : Station → Prop, (∀ e, due e ↔ 0 < e.address ∧ (e.state = .present
           ∨ (e.state = .lost ∧ ∀ r, e.lastPoll = some r → 1000000 ≤ elapsed s.tb.run r))) →
       (∀ before e after, (s.berth o).sl.stations = before ++ e :: after → due e →
         (∀ x ∈ before, ¬ due x) →
         exec (.linkCycle o held) s = .next (s.onBerth o fun b => { b with sl := { b.sl with
           attention := held, cycleFrom := s.tb.run, step := .polls e.address
           activity := .sending (.poll e.address
             (if b.sl.isScp e.address then some
               { state := b.sc.state, reason := b.sc.reason, breakerClosed := b.lines.breakerClosed
                 pSet := b.rg.pSet, prepareReturn := b.sc.prepareReturn, deny := b.sc.deny }
              else none))
           stations := b.sl.stations.map fun x =>
             if x.address = e.address then { x with lastPoll := some s.tb.run } else x } }))
       ∧ ((∀ x ∈ (s.berth o).sl.stations, ¬ due x) →
         (held = true →
           exec (.linkCycle o held) s = .next (s.onSl o fun l => { l with
             attention := true, cycleFrom := s.tb.run, step := .attention 1
             activity := .sending .attentionQuery }))
         ∧ (held = false → (∀ x ∈ (s.berth o).sl.stations, 0 < x.address) →
           exec (.linkCycle o held) s = .next (s.onSl o fun l => { l with
             attention := false, cycleFrom := s.tb.run, step := .rest, activity := .quiet }))))
     ∧ (∀ (o : Outlet) (held : Bool) (frame : ShipFrame) (s : State) (since : RunCount),
       (s.berth o).sl.activity = .slot since →
       ((s.berth o).sl.isPms frame.src = true →
         exec (.slotEnd o held frame) s = .next (s.onSl o fun l => { l with
           activity := .quiet, step := .rest }))
       ∧ exec (.shipSlotExpiry o) s = .next (s.onSl o fun l => { l with
           activity := .quiet, step := .rest }))
     ∧ (∀ (o : Outlet) (held : Bool) (s : State) (since : RunCount) (queries : Nat) (e : Station),
       (s.berth o).sl.activity = .window .attentionQuery since →
       (s.berth o).sl.step = .attention queries → (s.berth o).sl.entryOf .pms = some e →
       e.state = .present → s.passDue = false →
       exec (.replyWindowClose o held) s = .next (s.onSl o fun l => { l with
         attention := held, collisions := 0, activity := .sending (.slotGrant e.address)
         step := .shipSlot })))

/-- A reply that does not come, or comes bad or incomplete, is a miss of the polled entry (R123, R130),
the last two counted as its check errors: the third in a row takes a PRESENT one to LOST. The loss of the
SCP entry trips an outlet in CLOSING or a breaker-closed state.

A good reply (R109, R130): the entry has no misses, a LOST one is PRESENT, and the table keeps the
stop flag of a station that is not the SCP. With the flag set, an outlet in CLOSING or a breaker-closed
state trips by SHIP_STOP. -/
def Obligations.RepliesOfPolledStations : Prop :=
  (∀ (o : Outlet) (held checked : Bool) (s : State) (a : Nat) (e : Station) (i : Instr),
     s.expects o a → (s.berth o).sl.entry a = some e →
     (i = .replyWindowClose o held ∧ checked = false)
       ∨ ((∃ src, i = .badFrame o held src) ∧ checked = true)
       ∨ ((∃ src, i = .incompleteFrame o held src) ∧ checked = true) →
     (∃ t e', exec i s = .next t ∧ (t.berth o).sl.entry a = some e'
       ∧ e'.checkErrors = (if checked then min 255 (e.checkErrors + 1) else e.checkErrors)
       ∧ (e.state = .present → e.misses < 2 →
           e'.state = .present ∧ e'.misses = e.misses + 1)
       ∧ (e.state = .present → 2 ≤ e.misses → e'.state = .lost ∧ e'.misses = 3)
       ∧ (e.state ≠ .present → e'.state = e.state ∧ e'.misses = e.misses)
       ∧ e'.kind = e.kind ∧ e'.identity = e.identity ∧ e'.status = e.status
       ∧ Elsewhere [o] [] s t ∧ KeepsAccount s t ∧ t.metering = s.metering)
     ∧ (e.state = .present → 2 ≤ e.misses → e.kind = some .scp →
       (s.berth o).sc.state = .closing ∨ (s.berth o).sc.state.breakerClosed = true →
       ∃ t, exec i s = .next t ∧ Tripped o .scpLost s t ∧ Raised .scpLost s t))
  ∧ (∀ (o : Outlet) (held : Bool) (frame : ShipFrame) (s : State) (st : ShipStatus) (e : Station),
       s.expects o frame.src → frame.dst = 31 → readStatus frame.payload = some st →
       (s.berth o).sl.entry frame.src = some e → (s.berth o).sl.isScp frame.src = false →
       (∃ t e', exec (.status o held frame) s = .next t
         ∧ (t.berth o).sl.entry frame.src = some e' ∧ e'.misses = 0
         ∧ e'.state = (if e.state = .lost then .present else e.state)
         ∧ e'.status = some { stop := st.stop, connect := false, cancel := false, ret := false
                              declaration := none }
         ∧ e'.kind = e.kind ∧ e'.identity = e.identity ∧ e'.checkErrors = e.checkErrors
         ∧ Elsewhere [o] [] s t ∧ KeepsAccount s t ∧ t.metering = s.metering
         ∧ (st.stop = false → NoFault s t
             ∧ (s.waits o = false → (t.berth o).sc = (s.berth o).sc)))
       ∧ (st.stop = true →
         (s.berth o).sc.state = .closing ∨ (s.berth o).sc.state.breakerClosed = true →
         ∃ t, exec (.status o held frame) s = .next t ∧ Tripped o .shipStop s t
           ∧ Raised .shipStop s t))

/-- No reply to a ROLL_CALL ends the discovery: the link cycles (R127, R128, R129). The third collision
in a row of one address makes it DUPLICATE (R124, R127), answered so; an earlier one is counted.

A PRESENT in answer to a ROLL_CALL or an ATTENTION_QUERY (R125, R126): a new station within the
limits is enlisted PRESENT, in its place by address, and told so; one beyond them is refused with
TOO_MANY_STATIONS; one at an address held by another is answered DUPLICATE, its entry DUPLICATE. The same
station at the address of its entry is enlisted again, or in an attention step polled (note d of R126, R131); at
a DUPLICATE entry DUPLICATE is answered again, without a fault; and with the table full the refusal ends a
discovery (note c of R126).

The third collision at an address that has an entry (R127) makes the entry DUPLICATE, keeping its kind, identity
and status, with the hand-overs of note e of R126; at a DUPLICATE entry, and with the table full, it comes to
what an answer there comes to.
MODEL'S CHOICE: a collision of a source address outside 1 to 30 counts as any other (log entry 56), a bad
or incomplete frame of any kind is one (log entry 68), and the last poll time is that at which the ENLISTED or
the POLL begins (log entry 61). -/
def Obligations.EnlistingAndCollisions : Prop :=
  (∀ (o : Outlet) (held mark : Bool) (s : State) (since : RunCount) (sent : Nat),
     (s.berth o).sl.activity = .window (.rollCall mark) since →
     (s.berth o).sl.step = .rollCall sent false → s.passDue = false →
     (∃ t, exec (.replyWindowClose o held) s = .next t ∧ (t.berth o).sl.state = .cycling
       ∧ (t.berth o).sl.collisions = 0 ∧ (t.berth o).sl.cycleFrom = s.tb.run
       ∧ t = { s with berths := t.berths } ∧ (∀ p, p ≠ o → t.berth p = s.berth p)
       ∧ t.berth o = { s.berth o with sl := (t.berth o).sl })
     ∧ (∀ a, (s.berth o).sl.collisionAddress = some a → (s.berth o).sl.collisions = 2 →
       (s.berth o).sl.entry a = none → (s.berth o).sl.stations.length < 6 →
       ∃ t e, exec (.badFrame o held a) s = .next t ∧ (t.berth o).sl.entry a = some e
         ∧ e.state = .duplicate ∧ e.kind = none ∧ (t.berth o).sl.collisions = 0
         ∧ (t.berth o).sl.activity = .sending (.enlisted a .duplicate)
         ∧ t = { s with fe := t.fe, berths := t.berths } ∧ (∀ p, p ≠ o → t.berth p = s.berth p)
         ∧ t.berth o = { s.berth o with sl := (t.berth o).sl } ∧ Raised .stationDuplicate s t)
     ∧ (∀ a, (s.berth o).sl.collisionAddress = some a → (s.berth o).sl.collisions < 2 → sent < 24 →
       exec (.incompleteFrame o held (some a)) s = .next (s.onSl o fun l => { l with
         attention := held, collisions := l.collisions + 1
         activity := .sending (.rollCall false), step := .rollCall (sent + 1) false })))
  ∧ (∀ (o : Outlet) (held : Bool) (frame : ShipFrame) (s : State) (k : StationKind) (id : BitVec 32),
       s.calls o → frame.dst = 31 → 1 ≤ frame.src → frame.src ≤ 30 →
       readPresent frame.payload = some (k, id) →
       ((s.berth o).sl.entry frame.src = none → (s.berth o).sl.stations.length < 6 →
         (s.berth o).sl.admits k = true → s.passDue = false →
         ∃ t before after, exec (.present o held frame) s = .next t
           ∧ (s.berth o).sl.stations = before ++ after
           ∧ t = s.onBerth o (fun b => { b with
               sc := if k = .scp then { b.sc with flagsSeen := none } else b.sc
               sl := { b.sl with
                 attention := held, collisions := 0
                 activity := .sending (.enlisted frame.src .accepted)
                 stations := before ++
                   { address := frame.src, kind := some k, identity := some id, state := .present
                     misses := 0, checkErrors := 0, status := none, lastPoll := some s.tb.run }
                   :: after } })
           ∧ (∀ e ∈ before, e.address ≤ frame.src)
           ∧ (∀ e, after.head? = some e → frame.src < e.address))
       ∧ ((s.berth o).sl.entry frame.src = none → (s.berth o).sl.stations.length < 6 →
         (s.berth o).sl.admits k = false → s.passDue = false →
         exec (.present o held frame) s = .next
           ((s.onSl o fun l => { l with
             attention := held, collisions := 0
             activity := .sending (.enlisted frame.src .refused) }).report .tooManyStations
               (.outlet o) (some frame.src)))
       ∧ (∀ e, (s.berth o).sl.entry frame.src = some e → e.state ≠ .duplicate →
         ¬ (e.kind = some k ∧ e.identity = some id) →
         ∃ t e', exec (.present o held frame) s = .next t
           ∧ (t.berth o).sl.entry frame.src = some e' ∧ e' = { e with state := .duplicate }
           ∧ FoundShared o frame.src e.kind s t)
       ∧ (∀ (e : Station) (sent : LeaderFrame), (s.berth o).sl.entry frame.src = some e →
         e.state ≠ .duplicate → e.kind = some k → e.identity = some id → s.passDue = false →
         sent = (match (s.berth o).sl.step with
           | .attention _ => .poll frame.src
               (if (s.berth o).sl.isScp frame.src then some (s.berth o).shoreState else none)
           | _ => .enlisted frame.src .accepted) →
         exec (.present o held frame) s = .next (s.onSl o fun l => { l with
           attention := held, collisions := 0, activity := .sending sent
           stations := l.stations.map fun x =>
             if x.address = frame.src then { x with lastPoll := some s.tb.run } else x }))
       ∧ (∀ e, (s.berth o).sl.entry frame.src = some e → e.state = .duplicate → s.passDue = false →
         exec (.present o held frame) s = .next (s.onSl o fun l => { l with
           attention := held, collisions := 0
           activity := .sending (.enlisted frame.src .duplicate) }))
       ∧ ((s.berth o).sl.entry frame.src = none → 6 ≤ (s.berth o).sl.stations.length →
         s.passDue = false →
         exec (.present o held frame) s = .next (s.turnedAwayStation o held frame.src)))
  ∧ (∀ (o : Outlet) (held : Bool) (s : State) (a : Nat) (i : Instr), s.calls o →
       i = .badFrame o held a ∨ i = .incompleteFrame o held (some a) →
       (s.berth o).sl.collisionAddress = some a → (s.berth o).sl.collisions = 2 →
       (∀ e, (s.berth o).sl.entry a = some e → e.state ≠ .duplicate →
         ∃ t e', exec i s = .next t
           ∧ (t.berth o).sl.entry a = some e' ∧ e' = { e with state := .duplicate }
           ∧ FoundShared o a e.kind s t)
       ∧ (∀ e, (s.berth o).sl.entry a = some e → e.state = .duplicate → s.passDue = false →
         exec i s = .next (s.onSl o fun l => { l with
           attention := held, collisions := 0, activity := .sending (.enlisted a .duplicate) }))
       ∧ ((s.berth o).sl.entry a = none → 6 ≤ (s.berth o).sl.stations.length → s.passDue = false →
         exec i s = .next (s.turnedAwayStation o held a)))
  ∧ (∀ (o : Outlet) (held : Bool) (s : State) (a n : Nat),
       (s.berth o).sl.activity = .sending (.enlisted a .refused) →
       (s.berth o).sl.step = .rollCall n true →
       ∃ t, exec (.leaderFrameSent o held) s = .next t ∧ (t.berth o).sl.state = .cycling
         ∧ (t.berth o).sl.cycleFrom = s.tb.run ∧ t = { s with berths := t.berths }
         ∧ (∀ p, p ≠ o → t.berth p = s.berth p)
         ∧ t.berth o = { s.berth o with sl := (t.berth o).sl })

/-- A connect request of the SCP in CABLE_PROVEN (R80, R81), no station DUPLICATE: the checks in order
deny it, or, where all are met and no entry of the authorisation table names the hull, the declaration is
held with its capacity target and the outlet waits in AWAIT_AUTH for AUTHORISATION (R84, R88).

With a station DUPLICATE the connect request is blocked (R80): it is treated as not received, and its STATUS
does not count as the last one seen, CONNECT being held as clear.

The sum that check 4 of R81 takes is that of at most 8 of the ratings, and of no 8 of them is the
sum greater. -/
def Obligations.ConnectRequests : Prop :=
  (∀ (o : Outlet) (held : Bool) (frame : ShipFrame) (s : State) (d : Declaration),
     s.expects o frame.src → frame.dst = 31 →
     readStatus frame.payload = some { stop := false, connect := true, cancel := false
                                       ret := false, declaration := some d } →
     (s.berth o).sl.isScp frame.src = true →
     (∀ e ∈ (s.berth o).sl.stations, e.state ≠ .duplicate) →
     (s.berth o).sc.state = .cableProven → (s.berth o).sc.flagsSeen = none → s.noneWaits →
     ∀ target counted fits, target = (d.kva * (100 + s.account.headroom) + 999) / 1000 * 10 →
       counted = s.pool.modules.toList.filterMap (fun m =>
         if m.state = .offline ∨ m.state = .lockedOut then none else m.rating) →
       fits = (d.cables * (s.berth o).sc.settings.cableRating) →
       ∃ t, exec (.status o held frame) s = .next t
         ∧ Elsewhere [o] [] s t ∧ NoFault s t ∧ t.metering = s.metering
         ∧ (∀ reason,
             (d.inRange = false ∧ reason = .declarationRange)
             ∨ (d.inRange = true ∧ d.volts ≠ (s.berth o).nominalVolts
                 ∧ reason = .nominalMismatch)
             ∨ (d.inRange = true ∧ d.volts = (s.berth o).nominalVolts ∧ fits < target
                 ∧ reason = .cableLimit)
             ∨ (d.inRange = true ∧ d.volts = (s.berth o).nominalVolts ∧ target ≤ fits
                 ∧ sumOfLargest8 counted < target ∧ reason = .capacityImpossible) →
             (t.berth o).sc.state = .cableProven ∧ (t.berth o).sc.denial = some reason
               ∧ (t.berth o).sc.deny = true
               ∧ (t.berth o).sc.declaration = (s.berth o).sc.declaration
               ∧ (t.berth o).sc.session = (s.berth o).sc.session ∧ t.account = s.account)
         ∧ (d.inRange = true → d.volts = (s.berth o).nominalVolts → target ≤ fits →
             target ≤ sumOfLargest8 counted →
             (∀ p ∈ s.account.places, ∀ e, p = some e → e.hull ≠ d.hull) →
             (t.berth o).sc.state = .awaitAuth ∧ (t.berth o).sc.declaration = some d
               ∧ (t.berth o).sc.target = target ∧ (t.berth o).sc.denial = none
               ∧ (t.berth o).sc.deny = false ∧ (t.berth o).sc.waiting = some .authorisation
               ∧ (t.berth o).sc.waitingSince = some s.now
               ∧ (t.berth o).sc.session = (s.berth o).sc.session ∧ t.account = s.account))
  ∧ (∀ (o : Outlet) (held : Bool) (frame : ShipFrame) (s : State) (st : ShipStatus),
     s.expects o frame.src → frame.dst = 31 → readStatus frame.payload = some st →
     st.stop = false → st.connect = true → (s.berth o).sl.isScp frame.src = true →
     (∃ e ∈ (s.berth o).sl.stations, e.state = .duplicate) →
     (s.berth o).sc.state = .cableProven → s.passDue = false →
     (∀ m, (s.berth o).sc.flagsSeen = some m → m.connect = false)
       ∨ (s.berth o).sc.lastDeclared ≠ some st.declaration →
     ∃ t, exec (.status o held frame) s = .next t ∧ t = { s with berths := t.berths }
       ∧ (∀ q, q ≠ o → t.berth q = s.berth q)
       ∧ t.berth o = { s.berth o with
           sc := { (s.berth o).sc with flagsSeen :=
             (s.berth o).sc.flagsSeen.map fun m => { m with connect := false } }
           sl := (t.berth o).sl })
  ∧ (∀ l : List Nat,
       (∃ m : List Nat, m.Sublist l ∧ m.length ≤ 8 ∧ m.sum = sumOfLargest8 l)
       ∧ ∀ m : List Nat, m.Sublist l → m.length ≤ 8 → m.sum ≤ sumOfLargest8 l)

/-- A STATUS of the SCP that polls answer (R80, R100, R109). With its stop flag set, an outlet in CLOSING
or a breaker-closed state trips by SHIP_STOP, whatever else it carries.

A flag is taken when it is set and was clear at the last STATUS. CANCEL takes AWAIT_AUTH back to
CABLE_PROVEN, ENERGISING and SYNCHRONISING to WIND_DOWN, where the session closes at once if nothing keeps
it open, and requests the end of the session in CLOSING; in PARALLEL_IN either flag leads to PARALLEL_OUT,
and in SHORE_SUPPLY to a return awaited. In the other states a flag does nothing, and a flag held set is
not taken again. MODEL'S CHOICE (log entry 16, DEDUCED): with no STATUS remembered a set flag is taken. -/
def Obligations.ScpStatusCancelsReturnsAndStops : Prop :=
  ∀ (o : Outlet) (held : Bool) (frame : ShipFrame) (s : State) (st : ShipStatus),
    s.expects o frame.src → frame.dst = 31 → readStatus frame.payload = some st →
    (s.berth o).sl.isScp frame.src = true →
    (st.stop = true → (s.berth o).sc.state = .closing ∨ (s.berth o).sc.state.breakerClosed = true →
      ∃ t, exec (.status o held frame) s = .next t ∧ Tripped o .shipStop s t ∧ Raised .shipStop s t
        ∧ Elsewhere [o] [] s t ∧ KeepsAccount s t ∧ t.metering = s.metering)
    ∧ ∀ (cancels returns : Prop) (seen : RequestMemory),
      (cancels ↔ st.cancel = true ∧ ∀ m, (s.berth o).sc.flagsSeen = some m → m.cancel = false) →
      (returns ↔ st.ret = true ∧ ∀ m, (s.berth o).sc.flagsSeen = some m → m.ret = false) →
      (st.connect = true → ∃ m, (s.berth o).sc.flagsSeen = some m ∧ m.connect = true
        ∧ (s.berth o).sc.lastDeclared = some st.declaration) →
      seen = { connect := st.connect, cancel := st.cancel, ret := st.ret } → st.stop = false →
      (cancels → ¬ returns → (s.berth o).sc.state = .awaitAuth →
        ∃ t, exec (.status o held frame) s = .next t
          ∧ (t.berth o).sc.state = .cableProven ∧ (t.berth o).sc.declaration = none
          ∧ (t.berth o).sc.target = 0 ∧ (t.berth o).sc.session = (s.berth o).sc.session
          ∧ (t.berth o).sc.flagsSeen = some seen
          ∧ Elsewhere [o] [] s t ∧ NoFault s t ∧ t.metering = s.metering)
      ∧ (cancels → ¬ returns →
        (s.berth o).sc.state = .energising ∨ (s.berth o).sc.state = .synchronising →
        (s.keptOpen o →
          ∃ t, exec (.status o held frame) s = .next t ∧ WindsDown o s t
            ∧ (t.berth o).sc.flagsSeen = some seen
            ∧ Elsewhere [o] [] s t ∧ KeepsAccount s t ∧ NoFault s t ∧ t.metering = s.metering)
        ∧ (∀ x, (s.berth o).lines.breakerClosed = false → s.assigned o = 0 →
          (s.berth o).sc.session = some x → (s.berth o).mt.isSome = true →
          ∃ t, exec (.status o held frame) s = .next t ∧ SessionCloses o x s t
            ∧ Elsewhere [o] [] s t ∧ KeepsAccount s t ∧ NoFault s t))
      ∧ (cancels ∨ returns → (s.berth o).sc.state = .parallelIn → s.NoEntryCause o →
        ∃ t, exec (.status o held frame) s = .next t
          ∧ (t.berth o).sc.state = .parallelOut ∧ (t.berth o).sc.rampOutFrom = some s.tb.run
          ∧ ((s.berth o).rg.mode = .power → (t.berth o).rg = (s.berth o).rg)
          ∧ (t.berth o).sc.session = (s.berth o).sc.session ∧ (t.berth o).mt = (s.berth o).mt
          ∧ (t.berth o).sc.flagsSeen = some seen
          ∧ Elsewhere [o] [] s t ∧ KeepsAccount s t ∧ NoFault s t ∧ t.metering = s.metering)
      ∧ (s.passDue = false → ∀ kept : OutletRecord,
        (kept = (s.berth o).sc
            ∧ ((¬ cancels ∧ ¬ returns)
              ∨ (s.berth o).sc.state = .dormant ∨ (s.berth o).sc.state = .cableProven
              ∨ (s.berth o).sc.state = .parallelOut ∨ (s.berth o).sc.state = .opening
              ∨ (s.berth o).sc.state = .windDown ∨ (s.berth o).sc.state = .tripped
              ∨ (¬ cancels ∧ ((s.berth o).sc.state = .awaitAuth
                ∨ (s.berth o).sc.state = .energising ∨ (s.berth o).sc.state = .synchronising
                ∨ (s.berth o).sc.state = .closing))))
          ∨ (kept = { (s.berth o).sc with endRequested := true }
            ∧ cancels ∧ (s.berth o).sc.state = .closing)
          ∨ (kept = (if (s.berth o).sc.returnAwaited then (s.berth o).sc
                else { (s.berth o).sc with
                  returnAwaited := true, prepareReturn := true, returnFrom := some s.tb.run })
            ∧ (cancels ∨ returns) ∧ (s.berth o).sc.state = .shoreSupply
            ∧ (s.berth o).anyClosed = false) →
        ∃ t, exec (.status o held frame) s = .next t ∧ t = { s with berths := t.berths }
          ∧ (∀ q, q ≠ o → t.berth q = s.berth q)
          ∧ t.berth o = { s.berth o with
              sc := { kept with flagsSeen := some seen }, sl := (t.berth o).sl })

/-- A generator report of the PMS in its slot (R134, R135): each item's entry is replaced, or created in
its place, and every other stands. In PARALLEL_IN the outlet enters SHORE_SUPPLY once the declared number
of generators, and every one, reads OPEN (R93); in SHORE_SUPPLY a CLOSED one takes it to PARALLEL_OUT
(R95), with P_set at the present power. MODEL'S CHOICE (log entry 75): SC judges once, after the last item of
the report.

A generator entry not updated for 2 s reads UNKNOWN (R135); so it neither completes a ramp-in nor
calls for a return. -/
def Obligations.GeneratorTable : Prop :=
  (∀ (o : Outlet) (held : Bool) (frame : ShipFrame) (s : State) (since : RunCount)
       (items : List GenItem),
     (s.berth o).sl.activity = .slot since → (s.berth o).sl.isPms frame.src = true →
     readGenItems frame.payload = some items →
     (s.berth o).sl.generators.Pairwise (fun g h => g.number < h.number) →
     ∃ t, exec (.genStatus o held frame) s = .next t
       ∧ Elsewhere [o] [] s t ∧ KeepsAccount s t ∧ t.metering = s.metering
       ∧ (t.berth o).sl.generators.Pairwise (fun g h => g.number < h.number)
       ∧ (∀ n i, items.reverse.find? (fun i => i.number == n) = some i →
           ({ number := n, breaker := if i.closed then .closed else .opened, kw := i.kw
              updated := s.tb.run, stale := false } : Generator) ∈ (t.berth o).sl.generators)
       ∧ (∀ g, (∀ i ∈ items, i.number ≠ g.number) →
           (g ∈ (t.berth o).sl.generators ↔ g ∈ (s.berth o).sl.generators))
       ∧ ((s.berth o).sc.state ≠ .parallelIn → (s.berth o).sc.state ≠ .shoreSupply →
           s.waits o = false → (t.berth o).sc = (s.berth o).sc ∧ NoFault s t)
       ∧ ((s.berth o).sc.state = .parallelIn → (s.berth o).rampedIn = false → s.NoEntryCause o →
           (t.berth o).sc.state
             = if (t.berth o).rampedIn then .shoreSupply else .parallelIn)
       ∧ ((s.berth o).sc.state = .shoreSupply → (s.berth o).anyClosed = false →
           (s.berth o).rg.mode = .island → s.NoEntryCause o →
           (t.berth o).sc.state
               = (if (t.berth o).anyClosed then .parallelOut else .shoreSupply)
             ∧ (∀ r, (s.berth o).mu.power = some r → (t.berth o).anyClosed = true →
                 (t.berth o).rg.pSet = min (r.p.tdiv 1000).toNat 25000)))
  ∧ (∀ (o : Outlet) (n : Nat) (s : State), s.passDue = false →
       ((s.berth o).sc.state = .shoreSupply → (s.berth o).anyClosed = false) →
       ∃ t, exec (.generatorStale o n) s = .next t
         ∧ t = (s.onSl o fun l => { l with generators := l.generators.map fun g =>
             if g.number = n then { g with stale := true } else g })
         ∧ (∀ g ∈ (t.berth o).sl.generators, g.number = n → g.reading = .unknown))

/-- A line held dominant for 10 ms sticks the link in DISCOVERING or CYCLING, with LINK_STUCK (R133): the
leader stops, the looks count from now, and the misses from the present cycle's beginning in steps of
100 ms, in a discovery from now. A frame that this cuts short is incomplete: a miss and a check error of the
station polled (R123, R130), a collision (R127), or in the slot a check error of its source (R134).
MODEL'S CHOICE: the cut frame is taken before STUCK is entered, no frame of the leader follows it, and no
last poll time is set (log entry 23, DEDUCED); cut without a source it counts no collision (log entry 22,
DEDUCED), with any source address, 0 and above 30 too, it counts one (log entry 56), and so it does of
whatever kind it was (log entry 68).

In STUCK each 100 ms is a miss of each PRESENT entry; the look of each second keeps it while the line is
dominant, and otherwise begins the discovery anew, or a cycle. -/
def Obligations.StuckLinkMissesAndLooks : Prop :=
  (∀ (o : Outlet) (s : State) (miss : RunCount) (stick : ShipLink → ShipLink),
    (s.berth o).sl.state = .discovering ∨ (s.berth o).sl.state = .cycling →
    miss = (if (s.berth o).sl.state = .discovering then s.tb.run
      else s.tb.run - BitVec.ofNat 64 (elapsed s.tb.run (s.berth o).sl.cycleFrom % 100000)) →
    (∀ l, stick l = { l with
      state := .stuck, stuckInDiscovery := (s.berth o).sl.state == .discovering, activity := .quiet
      step := .rest, missFrom := miss, lookFrom := s.tb.run }) →
    (s.passDue = false →
      (∀ cut, cut = .nothing ∨ (s.berth o).sl.activity = .quiet
          ∨ (∃ f, (s.berth o).sl.activity = .sending f) ∨ (cut = .frame none ∧ s.calls o) →
        exec (.lineDominant ⟨o, cut⟩) s = .next ((s.onSl o stick).raise .linkStuck (.outlet o)))
      ∧ (∀ src since, (s.berth o).sl.activity = .slot since →
        exec (.lineDominant ⟨o, .frame src⟩) s = .next
          ((s.onSl o fun l => stick { l with
            stations := match src with
              | none => l.stations
              | some a => l.stations.map fun e =>
                  if e.address = a ∧ e.state ≠ .duplicate then
                    { e with checkErrors := min 255 (e.checkErrors + 1) } else e }).raise
            .linkStuck (.outlet o)))
      ∧ (∀ a, s.calls o →
        ((s.berth o).sl.collisionAddress = some a → (s.berth o).sl.collisions ≠ 2 →
          exec (.lineDominant ⟨o, .frame (some a)⟩) s = .next
            ((s.onSl o fun l => stick { l with collisions := l.collisions + 1 }).raise
              .linkStuck (.outlet o)))
        ∧ ((s.berth o).sl.collisionAddress ≠ some a →
          exec (.lineDominant ⟨o, .frame (some a)⟩) s = .next
            ((s.onSl o fun l => stick { l with
              collisions := 1, collisionAddress := some a }).raise .linkStuck (.outlet o)))
        ∧ ((s.berth o).sl.collisionAddress = some a → (s.berth o).sl.collisions = 2 →
          (s.berth o).sl.entry a = none → (s.berth o).sl.stations.length < 6 →
          ∃ t e, exec (.lineDominant ⟨o, .frame (some a)⟩) s = .next t
            ∧ t = { s with fe := t.fe, berths := t.berths } ∧ (∀ p, p ≠ o → t.berth p = s.berth p)
            ∧ t.berth o = { s.berth o with sl := (t.berth o).sl }
            ∧ (t.berth o).sl = stick { (s.berth o).sl with
                collisions := 0, stations := (t.berth o).sl.stations }
            ∧ (t.berth o).sl.entry a = some e ∧ e.state = .duplicate ∧ e.kind = none
            ∧ t.fe.flags
                = s.fe.flags ||| FaultKind.stationDuplicate.bit ||| FaultKind.linkStuck.bit)))
    ∧ (∀ (a : Nat) (e : Station) (src : Option Nat), s.expects o a →
      (s.berth o).sl.entry a = some e →
      ∃ t e', exec (.lineDominant ⟨o, .frame src⟩) s = .next t
        ∧ (t.berth o).sl.state = .stuck ∧ (t.berth o).sl.activity = .quiet
        ∧ (t.berth o).sl.step = .rest ∧ (t.berth o).sl.missFrom = miss
        ∧ (t.berth o).sl.lookFrom = s.tb.run ∧ (t.berth o).sl.entry a = some e'
        ∧ e'.checkErrors = min 255 (e.checkErrors + 1) ∧ e'.lastPoll = e.lastPoll
        ∧ (e.state = .present → e.misses < 2 →
            e'.state = .present ∧ e'.misses = e.misses + 1 ∧ Raised .linkStuck s t)
        ∧ (e.state = .present → 2 ≤ e.misses → e'.state = .lost ∧ e'.misses = 3)
        ∧ (e.state ≠ .present → e'.state = e.state ∧ e'.misses = e.misses)
        ∧ e'.kind = e.kind ∧ e'.identity = e.identity ∧ e'.status = e.status
        ∧ t.fe.flags &&& FaultKind.linkStuck.bit = FaultKind.linkStuck.bit
        ∧ Elsewhere [o] [] s t ∧ KeepsAccount s t ∧ t.metering = s.metering
        ∧ (e.state = .present → 2 ≤ e.misses → e.kind = some .scp →
            (s.berth o).sc.state = .closing ∨ (s.berth o).sc.state.breakerClosed = true →
            Tripped o .scpLost s t)))
  ∧ (∀ (o : Outlet) (s : State), (s.berth o).sl.state = .stuck →
    ((s.berth o).sl.stations.map Station.address).Nodup →
    ∃ t, exec (.stuckMissTick o) s = .next t ∧ (t.berth o).sl.state = .stuck
      ∧ (t.berth o).sl.missFrom = s.tb.run
      ∧ Elsewhere [o] [] s t ∧ KeepsAccount s t ∧ t.metering = s.metering
      ∧ ∀ e ∈ (s.berth o).sl.stations, ∃ e' ∈ (t.berth o).sl.stations,
          (e.state = .present → e.misses < 2 → e' = { e with misses := e.misses + 1 })
          ∧ (e.state = .present → 2 ≤ e.misses → e' = { e with misses := 3, state := .lost })
          ∧ (e.state ≠ .present → e' = e))
  ∧ (∀ (o : Outlet) (held : Bool) (s : State), (s.berth o).sl.state = .stuck →
    exec (.stuckLook o true held) s = .next (s.onSl o fun l => { l with
      lookFrom := s.tb.run, attention := held })
    ∧ ((s.berth o).sl.stuckInDiscovery = true →
      exec (.stuckLook o false held) s = .next (s.onSl o fun l => { l with
        lookFrom := s.tb.run, attention := held, state := .discovering, collisions := 0
        wakeFrom := none, activity := .sending (.rollCall true), step := .rollCall 1 false }))
    ∧ ((s.berth o).sl.stuckInDiscovery = false →
      ∃ t, exec (.stuckLook o false held) s = .next t ∧ (t.berth o).sl.state = .cycling
        ∧ (t.berth o).sl.cycleFrom = s.tb.run ∧ t = { s with berths := t.berths }
        ∧ (∀ p, p ≠ o → t.berth p = s.berth p)
        ∧ t.berth o = { s.berth o with sl := (t.berth o).sl }))

/-! ### The supervisory link -/

/-- Receiving (R172): an idle gap, a bad length byte or a framing error discards a partial frame and is
counted, the byte that ends the gap being examined afresh; a check error is counted; and the sync byte
begins a frame in HUNTING and is stored in RECEIVING. Counts hold at 65,535.

Every good frame that is a request (R173, R174, R184): with none in progress it is taken and its
reply, a status and the results, is owed; with one in progress it is turned away and nothing else
changes. A frame of an unknown kind is answered UNKNOWN_REQUEST. -/
def Obligations.RequestsAndReceiving : Prop :=
  (∀ s : State,
     (s.svl.receive = .receiving →
       (∀ next, exec (.idleGap next) s = .next { s with svl := { s.svl with
         receive := if next = 0xA5 then .receiving else .hunting
         buffer := if next = 0xA5 then [0xA5] else []
         discards := min 65535 (s.svl.discards + 1) } })
       ∧ (∀ cause, cause = .framingError
             ∨ (∃ b : Byte, cause = .lengthByte b ∧ (b.toNat < 2 ∨ 242 < b.toNat)) →
           exec (.receiveDiscard cause) s = .next { s with svl := { s.svl with
             receive := .hunting, buffer := [], discards := min 65535 (s.svl.discards + 1) } })
       ∧ exec .syncByte s = .next { s with svl := { s.svl with
           buffer := s.svl.buffer ++ [0xA5] } })
     ∧ (s.svl.receive = .hunting →
       exec .syncByte s = .next { s with svl := { s.svl with
         receive := .receiving, buffer := [0xA5] } })
     ∧ exec .crcError s = .next { s with svl := { s.svl with
         receive := .hunting, buffer := [], crcErrors := min 65535 (s.svl.crcErrors + 1) } })
  ∧ ((∀ (i : Instr) (kind tag : Byte) (p : List Byte) (s : State), i.request = some (kind, tag, p) →
       (s.svl.inProgress = none →
         ∃ (t : State) (status : Byte) (results : List Byte),
           exec i s = .next (t.answered kind tag (status :: results))
             ∧ t.svl = s.svl ∧ t.pending = s.pending ∧ status.toNat ≤ 6)
       ∧ (s.svl.inProgress.isSome = true → exec i s = .next (s.turnedAway kind tag)))
     ∧ (∀ (kind tag : Byte) (s : State),
       (s.svl.inProgress.isSome = true → exec (.busy kind tag) s = .next (s.turnedAway kind tag))
       ∧ (s.svl.inProgress = none →
         exec (.unknownRequest kind tag) s = .next (s.answered kind tag [5]))))

/-- A request whose payload has the wrong length is answered BAD_LENGTH, one that names an outlet
outside O1 to O4 or a module outside M1 to M12 REFUSED_RANGE, and neither changes anything else (R174,
R184).

The read requests (R77, R83, R139, R155, R157, R166, R167, R176, R177, R179) are answered OK with
their results, and change nothing else; but READ_EVENTS removes the 8 oldest event records. MODEL'S CHOICE
(log entries 9, 57, 59, 60, 63, 64, 65, 69, 70, 73, 76, 79, 80 and 81): the bytes of the results where R185 and the owning rules
leave them open. -/
def Obligations.RefusalsAndReads : Prop :=
  (∀ (i : Instr) (kind tag : Byte) (p : List Byte) (n : Nat) (s : State),
     i.wellFormed = true → i.request = some (kind, tag, p) → payloadLength kind p = some n →
     s.svl.inProgress = none →
     (p.length ≠ n → exec i s = .next (s.answered kind tag [6]))
     ∧ (p.length = n →
       kind ∈ [0x20, 0x21, 0x25, 0x26, 0x27, 0x28, 0x30, 0x31, 0x40, 0x43] →
       (∀ b rest, p = b :: rest → b.toNat < 1 ∨ 4 < b.toNat) →
       exec i s = .next (s.answered kind tag [2]))
     ∧ (p.length = n → kind ∈ [0x10, 0x11, 0x12] →
       (∀ b rest, p = b :: rest → b.toNat < 1 ∨ 12 < b.toNat) →
       exec i s = .next (s.answered kind tag [2])))
  ∧ (∀ (tag : Byte) (s : State), s.svl.inProgress = none →
       exec (.readStation tag []) s = .next (s.answered 0x02 tag (0 :: stationResults s))
       ∧ exec (.readTime tag []) s = .next (s.answered 0x06 tag (0 :: timeResults s))
       ∧ exec (.readModules tag []) s = .next (s.answered 0x13 tag (0 :: modulesResults s))
       ∧ exec (.readAuthorisations tag []) s
           = .next (s.answered 0x24 tag (0 :: s.account.places.flatMap authPlace))
       ∧ exec (.readBilling tag []) s
           = .next (s.answered 0x41 tag (0 :: unsigned 1 s.metering.queue.length
               ++ (s.metering.queue.take 3).flatMap billingBytes))
       ∧ exec (.readFaults tag []) s = .next (s.answered 0x51 tag (0 :: faultsResults s.fe))
       ∧ exec (.readEvents tag []) s
           = .next ({ s with fe := { s.fe with queue := s.fe.queue.drop 8 } }.answered 0x50 tag
               (0 :: unsigned 1 (s.fe.queue.length - 8) ++ (s.fe.queue.take 8).flatMap eventBytes))
       ∧ ∀ o b, b = BitVec.ofNat 8 o.number →
         exec (.readOutlet tag [b]) s = .next (s.answered 0x21 tag (0 :: outletResults s o))
         ∧ (∀ held, exec (.readStations tag ⟨held, [b]⟩) s
             = .next (s.answered 0x30 tag (0 :: stationsResults s o held)))
         ∧ exec (.readGenerators tag [b]) s
             = .next (s.answered 0x31 tag (0 :: generatorsResults s o))
         ∧ exec (.readMeters tag [b]) s = .next (s.answered 0x40 tag (0 :: metersResults s o)))

/-! ### Station and module requests -/

/-- CONFIGURE_STATION (R1, R8, R9, R175, R184): with every present setting in range, and no session open
or no change of offset, length or rounding, the present settings are written, TB and the PPS take theirs
up, and the settings that result are the reply; refused, nothing changes. -/
def Obligations.ConfigureStationWritesTheSettings : Prop :=
  ∀ (tag : Byte) (p : List Byte) (s : State) (c : StationChange), p.length = 12 →
    c = StationChange.read p → s.svl.inProgress = none →
    (c.inRange s.metering.bands = true → s.openSessions = 0 ∨ c.needsNoSession s = false →
      ∃ t, exec (.configureStation tag p) s
          = .next (t.answered 0x01 tag (0 :: stationSettings t))
        ∧ t = { s with
            tb := t.tb
            grid := { s.grid with nominal := c.gridNominal.getD s.grid.nominal }
            pool := { s.pool with tripHold := c.tripHold.getD s.pool.tripHold }
            account := { s.account with headroom := c.headroom.getD s.account.headroom }
            metering := { s.metering with
              length := c.length.getD s.metering.length
              rounding := match c.rounding with
                          | some n => if n = 0 then .truncate else .round
                          | none => s.metering.rounding }
            berths := t.berths }
        ∧ MetersSee s t
        ∧ t.tb.run = s.tb.run ∧ t.tb.seconds = s.tb.seconds ∧ t.tb.subSecond = s.tb.subSecond
        ∧ t.tb.timeUnset = s.tb.timeUnset ∧ t.tb.lastPulse = s.tb.lastPulse
        ∧ t.tb.offset = c.offset.getD s.tb.offset
        ∧ t.tb.xoUse = (match c.xoUse with
                        | some n => n == 1
                        | none => s.tb.xoUse)
        ∧ t.tb.ppsUse = (match c.ppsUse with
                         | some n => n == 1
                         | none => s.tb.ppsUse)
        ∧ (s.tb.xoUse = true → t.tb.xoUse = false →
            t.tb.state = .irc ∧ t.tb.retryFrom = none ∧ t.tb.passes = 0)
        ∧ (s.tb.xoUse = false → t.tb.xoUse = true → s.tb.state = .irc →
            t.tb.state = .qualifying ∧ t.tb.firstAttempt = true ∧ t.tb.windows = 0
              ∧ t.tb.passes = 0 ∧ t.tb.windowFrom = s.tb.run)
        ∧ (t.tb.xoUse = s.tb.xoUse → t.tb.state = s.tb.state)
        ∧ (s.tb.ppsUse = false → t.tb.ppsUse = true →
            t.tb.pps = .waiting ∧ t.tb.ppsFrom = some s.tb.run)
        ∧ (s.tb.ppsUse = true → t.tb.ppsUse = false → t.tb.pps = .off ∧ t.tb.ppsFrom = none)
        ∧ (t.tb.ppsUse = s.tb.ppsUse → t.tb.pps = s.tb.pps ∧ t.tb.ppsFrom = s.tb.ppsFrom))
    ∧ (c.inRange s.metering.bands = false →
      exec (.configureStation tag p) s = .next (s.answered 0x01 tag [2]))
    ∧ (c.inRange s.metering.bands = true → 0 < s.openSessions → c.needsNoSession s = true →
      exec (.configureStation tag p) s = .next (s.answered 0x01 tag [3]))

/-- SET_TIME (R7), SET_IMPORT_LIMIT with no outlet waiting (R85), SET_BANDS (R144) and RESTART (R181),
answered as R176 says.

SET_TIME with sessions open (R150): each open interval closes with the reason TIME_SET and the next one
opens at the new time, as long as the billing queue has an entry to spare, the interval of earlier start
first and of equal ones that of the lower outlet; with none to spare it is left open, TIME_STEPPED, and
BAND_MIXED where the band in force is not its own. MODEL'S CHOICE (log entry 19, DEDUCED): the starts are
compared by run count. -/
def Obligations.StationWrites : Prop :=
  ∀ (tag : Byte) (p : List Byte) (s : State), s.svl.inProgress = none →
    (p.length = 4 → s.openSessions = 0 →
      ∀ t, t = { s with tb := { s.tb with
          seconds := BitVec.ofNat 32 (field p 0 4), timeUnset := false } } →
        exec (.setTime tag p) s = .next (t.answered 0x05 tag (0 :: timeBytes t.now)))
    ∧ (p.length = 4 → ∀ u, u = { s with tb := { s.tb with
          seconds := BitVec.ofNat 32 (field p 0 4), timeUnset := false } } →
      ∃ t rs, exec (.setTime tag p) s = .next (t.answered 0x05 tag (0 :: timeBytes t.now))
        ∧ t = { u with metering := t.metering, fe := t.fe, berths := t.berths } ∧ NoFault s t
        ∧ (∀ o, t.berth o = { s.berth o with mt := (t.berth o).mt })
        ∧ t.metering = { s.metering with
            queue := s.metering.queue ++ rs, sequence := s.metering.sequence + rs.length
            lowArmed := t.metering.lowArmed }
        ∧ rs.length = min s.openSessions s.spare.toNat
        ∧ rs.map BillingRecord.sequence
            = (List.range rs.length).map (s.metering.sequence + ·)
        ∧ (rs.map BillingRecord.outlet).Nodup
        ∧ (∀ r ∈ rs, r.reason = .timeSet ∧ r.part = none)
        ∧ (∀ o m, (s.berth o).mt = some m →
            (∃ r ∈ rs, r.outlet = o ∧ r.session = m.session ∧ r.start = m.interval.start
              ∧ r.duration = (elapsed s.tb.run m.interval.start.run + 500000) / 1000000
              ∧ r.band = m.interval.band ∧ r.quality = m.interval.worst
              ∧ ∃ m', (t.berth o).mt = some m' ∧ m'.interval =
                  { start := u.now, band := u.bandNow, worst := u.tb.quality, gapMillis := 0
                    flags := { isPartial := false, extended := false, bandMixed := false
                               timeStepped := false, timeUnset := false, saturated := false
                               measurementGap := false } })
            ∨ ((∀ r ∈ rs, r.outlet ≠ o) ∧ (t.berth o).mt = some { m with interval := {
                m.interval with
                  worst := m.interval.worst.worse u.tb.quality
                  flags := { m.interval.flags with
                    timeStepped := true
                    bandMixed := m.interval.flags.bandMixed
                      || decide (u.bandNow ≠ m.interval.band) } } }))
        ∧ (∀ o q m n, (s.berth o).mt = some m → (s.berth q).mt = some n →
            elapsed s.tb.run m.interval.start.run < elapsed s.tb.run n.interval.start.run
              ∨ (elapsed s.tb.run m.interval.start.run = elapsed s.tb.run n.interval.start.run
                ∧ q.number < o.number) →
            (∃ r ∈ rs, r.outlet = o) → ∃ r ∈ rs, r.outlet = q))
    ∧ (p.length = 2 → field p 0 2 ≤ 60000 → s.noneWaits → s.passDue = false →
      ∀ u t, u = { s with account := { s.account with limit := field p 0 2 } } →
        t = (if field p 0 2 < s.claims then u.raise .overBudget .station else u) →
        exec (.setImportLimit tag p) s = .next (t.answered 0x03 tag
          (0 :: unsigned 2 t.account.limit ++ signed 4 t.claims
            ++ signed 4 ((t.account.limit : Int) - t.claims))))
    ∧ (p.length = 2 → 60000 < field p 0 2 →
      exec (.setImportLimit tag p) s = .next (s.answered 0x03 tag [2]))
    ∧ (p.length = 1 + 3 * field p 0 1 →
      (bandsInRange s.metering.length (field p 0 1) (readBands (field p 0 1) p) = true →
        (s.openSessions = 0 →
          ∃ bands, exec (.setBands tag p) s = .next
              ({ s with metering := { s.metering with bands := bands } }.answered 0x04 tag [0])
            ∧ bands.Perm (readBands (field p 0 1) p)
            ∧ bands.Pairwise (fun e f => e.minute < f.minute))
        ∧ (0 < s.openSessions →
          exec (.setBands tag p) s = .next (s.answered 0x04 tag [3])))
      ∧ (bandsInRange s.metering.length (field p 0 1) (readBands (field p 0 1) p) = false →
        exec (.setBands tag p) s = .next (s.answered 0x04 tag [2])))
    ∧ (p = [] → exec (.restart tag p) s = .next (s.answered 0x07 tag [0]))

/-- A boundary tick (R143, R146, R149): each open interval closes with the reason BOUNDARY and the next one
opens at once, as long as the billing queue has an entry to spare, the interval of earlier start first and of
equal ones that of the lower outlet; with none to spare it is left open, EXTENDED, and BAND_MIXED where the
band in force is not its own. MODEL'S CHOICE (log entry 19, DEDUCED): the starts are compared by run count.

The band in force at a local minute (R144), of a table in ascending order: that of the last entry
that starts at or before the minute, or before the first entry that of the day's last; with no entry
band 0.

A band table is in range (R144) exactly when it has at most 8 entries, each at a minute of 0 to 1439
that the interval length divides and of band 0 to 7, no two at one minute. -/
def Obligations.BoundariesAndBands : Prop :=
  (∀ s t : State, exec .oneSecondTick s = .next t → t.atBoundary = true →
     ∃ rs, t.metering = { s.metering with
           queue := s.metering.queue ++ rs, sequence := s.metering.sequence + rs.length
           lowArmed := t.metering.lowArmed }
       ∧ rs.length = min s.openSessions s.spare.toNat
       ∧ rs.map BillingRecord.sequence
           = (List.range rs.length).map (s.metering.sequence + ·)
       ∧ (rs.map BillingRecord.outlet).Nodup
       ∧ (∀ r ∈ rs, r.reason = .boundary ∧ r.part = none)
       ∧ (∀ o m, (s.berth o).mt = some m →
           (∃ r ∈ rs, r.outlet = o ∧ r.session = m.session ∧ r.start = m.interval.start
             ∧ r.duration = (elapsed s.tb.run m.interval.start.run + 500000) / 1000000
             ∧ r.band = m.interval.band ∧ r.quality = m.interval.worst
             ∧ ∃ m', (t.berth o).mt = some m' ∧ m'.interval =
                 { start := t.now, band := t.bandNow, worst := t.tb.quality, gapMillis := 0
                   flags := { isPartial := false, extended := false, bandMixed := false
                              timeStepped := false, timeUnset := t.tb.timeUnset, saturated := false
                              measurementGap := false } })
           ∨ ((∀ r ∈ rs, r.outlet ≠ o) ∧ (t.berth o).mt = some { m with interval := {
               m.interval with
                 flags := { m.interval.flags with
                   extended := true
                   bandMixed := m.interval.flags.bandMixed
                     || decide (t.bandNow ≠ m.interval.band) } } }))
       ∧ (∀ o q m n, (s.berth o).mt = some m → (s.berth q).mt = some n →
           elapsed s.tb.run m.interval.start.run < elapsed s.tb.run n.interval.start.run
             ∨ (elapsed s.tb.run m.interval.start.run = elapsed s.tb.run n.interval.start.run
               ∧ q.number < o.number) →
           (∃ r ∈ rs, r.outlet = o) → ∃ r ∈ rs, r.outlet = q)
       ∧ ((s.openSessions : Int) ≤ s.spare → ∀ o, (s.berth o).mt.isSome = true →
           ∃ r ∈ rs, r.outlet = o)
       ∧ (s.spare < 1 → t.metering = s.metering ∧ t.fe = s.fe))
  ∧ (∀ (l : List BandEntry) (minute : Nat), l.Pairwise (fun e f => e.minute < f.minute) →
       (l = [] → bandAt l minute = 0)
       ∧ (∀ e ∈ l, e.minute ≤ minute → (∀ f ∈ l, f.minute ≤ minute → f.minute ≤ e.minute) →
           bandAt l minute = e.band)
       ∧ (∀ e ∈ l, (∀ f ∈ l, minute < f.minute) → (∀ f ∈ l, f.minute ≤ e.minute) →
           bandAt l minute = e.band))
  ∧ (∀ (length count : Nat) (l : List BandEntry),
       bandsInRange length count l = true ↔
         count ≤ 8 ∧ (∀ e ∈ l, e.minute ≤ 1439 ∧ e.minute % length = 0 ∧ e.band ≤ 7)
           ∧ (l.map BandEntry.minute).Nodup)

/-- The module requests (R31, R177), with no request for a module pending and no outlet waiting:
DECLARE_MODULE takes an OFFLINE module to IDLE, or with 3 faults to LOCKED_OUT, and changes the rating of
an IDLE one; UNLOCK_MODULE takes a LOCKED_OUT one to IDLE with its faults cleared; WITHDRAW_MODULE takes
one in IDLE, FAULTED or LOCKED_OUT to OFFLINE; the reply is the module's record. Elsewhere each is
refused. MODEL'S CHOICE (log entry 49): the share trim is 0 after a declaration into LOCKED_OUT too. -/
def Obligations.ModuleRequests : Prop :=
  ∀ (tag : Byte) (m : ModuleNo) (b hi lo : Byte) (s : State), b = BitVec.ofNat 8 m.number →
    s.svl.inProgress = none →
    (∀ rating, rating = hi.toNat * 256 + lo.toNat → 500 ≤ rating → rating ≤ 4000 →
      rating % 10 = 0 →
      ((s.module m).state ≠ .offline → (s.module m).state ≠ .idle →
        exec (.declareModule tag [b, hi, lo]) s = .next (s.answered 0x10 tag [3]))
      ∧ ((∀ q, (s.berth q).mp.entry = none) → s.noneWaits → s.passDue = false →
        ∀ f t, t = s.onModule m f →
          ((s.module m).state = .offline ∧ f = (fun x => { x with
              rating := some rating, outlet := none, trim := 0, reportAt := s.tb.run
              lineLost := false, state := if x.faultCount < 3 then .idle else .lockedOut }))
            ∨ ((s.module m).state = .idle ∧ f = (fun x => { x with rating := some rating })) →
          exec (.declareModule tag [b, hi, lo]) s
            = .next (t.answered 0x10 tag (0 :: moduleRecord m (t.module m)))))
    ∧ (∀ rating, rating = hi.toNat * 256 + lo.toNat →
      rating < 500 ∨ 4000 < rating ∨ rating % 10 ≠ 0 →
      exec (.declareModule tag [b, hi, lo]) s = .next (s.answered 0x10 tag [2]))
    ∧ ((s.module m).state ≠ .lockedOut →
      exec (.unlockModule tag [b]) s = .next (s.answered 0x12 tag [3]))
    ∧ ((s.module m).state ≠ .idle → (s.module m).state ≠ .faulted →
      (s.module m).state ≠ .lockedOut →
      exec (.withdrawModule tag [b]) s = .next (s.answered 0x11 tag [3]))
    ∧ ((∀ q, (s.berth q).mp.entry = none) → s.noneWaits → s.passDue = false →
      (∀ t, t = s.onModule m (fun x => { x with
          state := .idle, outlet := none, trim := 0, shareTarget := 0, stop := none
          precharged := false, busForming := false, faultCount := 0, faultCode := none }) →
        (s.module m).state = .lockedOut →
        exec (.unlockModule tag [b]) s
          = .next (t.answered 0x12 tag (0 :: moduleRecord m (t.module m))))
      ∧ (∀ t, t = s.onModule m (fun x => { x with state := .offline, outlet := none }) →
        (s.module m).state = .idle ∨ (s.module m).state = .faulted
          ∨ (s.module m).state = .lockedOut →
        exec (.withdrawModule tag [b]) s
          = .next (t.answered 0x11 tag (0 :: moduleRecord m (t.module m)))))

/-! ### Outlet requests -/

/-- CONFIGURE_OUTLET (R60, R78, R104, R178, R184) writes the present settings of an outlet in DORMANT or
CABLE_PROVEN, all in range, and is answered with the settings that result; in another state it is
refused. MODEL'S CHOICE (log entry 34, DEDUCED: R183 and R184 differ): a presence word with bit 14 or 15
set is refused.

SET_ISLAND_TRIM (R56, R179) stores the trim, held to -50 to 50 with the status CLAMPED; in ISLAND the
voltage target follows at once. -/
def Obligations.OutletSettingsAndTrim : Prop :=
  (∀ (tag : Byte) (p : List Byte) (o : Outlet) (s : State) (c : OutletChange), p.length = 25 →
     outletField p = some o → c = OutletChange.read p → s.svl.inProgress = none →
     (field p 1 2 < 16384 ∧ c.inRange (s.berth o).sy.settings = true →
       ((s.berth o).sc.state = .dormant ∨ (s.berth o).sc.state = .cableProven →
         ∀ t, t = s.onBerth o (fun b => { b with
             sc := { b.sc with settings :=
               { nominalVolts := c.nominalVolts.getD b.sc.settings.nominalVolts
                 cableRating := c.cableRating.getD b.sc.settings.cableRating
                 linkWake := match c.linkWake with
                             | some n => if n = 0 then .normal else .fast
                             | none => b.sc.settings.linkWake
                 energiseTimeout := c.energiseTimeout.getD b.sc.settings.energiseTimeout
                 rampRate := c.rampRate.getD b.sc.settings.rampRate
                 rampInLimit := c.rampInLimit.getD b.sc.settings.rampInLimit } }
             rg := { b.rg with gain := c.gain.getD b.rg.gain }
             sy := { b.sy with
               tc := c.tc.getD b.sy.tc
               settings :=
                 { smin := c.smin.getD b.sy.settings.smin, smax := c.smax.getD b.sy.settings.smax
                   dVpct := c.dVpct.getD b.sy.settings.dVpct
                   adapt := match c.adapt with
                            | some n => n == 1
                            | none => b.sy.settings.adapt
                   syncTimeout := c.syncTimeout.getD b.sy.settings.syncTimeout } }
             pr := { b.pr with tripPct := c.tripPct.getD b.pr.tripPct } }) →
           exec (.configureOutlet tag p) s
             = .next (t.answered 0x20 tag (0 :: outletSettings (t.berth o))))
       ∧ ((s.berth o).sc.state ≠ .dormant → (s.berth o).sc.state ≠ .cableProven →
         exec (.configureOutlet tag p) s = .next (s.answered 0x20 tag [3])))
     ∧ (¬ (field p 1 2 < 16384 ∧ c.inRange (s.berth o).sy.settings = true) →
       exec (.configureOutlet tag p) s = .next (s.answered 0x20 tag [2])))
  ∧ (∀ (tag x b : Byte) (o : Outlet) (s : State) (trim : Int), b = BitVec.ofNat 8 o.number →
       trim = max (-50) (min 50 x.toInt) → s.svl.inProgress = none →
       exec (.setIslandTrim tag [b, x]) s = .next
         ((s.onBerth o fun b => { b with rg :=
           if b.rg.mode = .island then
             { b.rg with islandTrim := trim, freqTarget := b.nominalFreq, clamped := false
                         voltTarget := ((b.nominalVolts : Int) * (1000 + trim) / 1000).toNat }
           else { b.rg with islandTrim := trim } }).answered 0x28 tag
             [if trim = x.toInt then 0 else 1, BitVec.ofInt 8 trim]))

/-- AUTHORISE and REVOKE (R82, R83), with no outlet waiting: an entry goes to the place of one for the
same hull and outlet, or to the lowest empty place, whose number is the reply, and is refused where there
is neither; a revoked entry's place is emptied. -/
def Obligations.AuthorisationTable : Prop :=
  ∀ (tag : Byte) (p : List Byte) (outlet : AuthOutlet) (s : State) (same : Option AuthEntry → Bool),
    authOutletField p = some outlet → s.svl.inProgress = none →
    (∀ x, same x = x.any fun e => e.hull == field p 1 4 && e.outlet == outlet) →
    (∀ e, p.length = 11 → authoriseInRange p = true →
      e = { hull := field p 1 4, outlet := outlet, plan := field p 5 1
            expiry := if field p 6 1 = 1 then some (field p 7 4) else none } →
      (∀ n, n < s.account.places.length → s.noneWaits → s.passDue = false →
        (s.account.places[n]?.any same = true
            ∧ ∀ k, k < n → s.account.places[k]?.any same = false)
          ∨ (s.account.places.any same = false ∧ s.account.places[n]? = some none
            ∧ ∀ k, k < n → s.account.places[k]? ≠ some none) →
        exec (.authorise tag p) s = .next
          ({ s with account := { s.account with
              places := s.account.places.set n (some e) } }.answered 0x22 tag
            (0 :: unsigned 1 (n + 1))))
      ∧ (s.account.places.any same = false → none ∉ s.account.places →
        exec (.authorise tag p) s = .next (s.answered 0x22 tag [4])))
    ∧ (p.length = 5 →
      (∀ n, s.account.places[n]?.any same = true →
        (∀ k, k < n → s.account.places[k]?.any same = false) →
        exec (.revoke tag p) s = .next
          ({ s with account := { s.account with
              places := s.account.places.set n none } }.answered 0x23 tag [0]))
      ∧ (s.account.places.any same = false →
        exec (.revoke tag p) s = .next (s.answered 0x23 tag [2])))

/-- The AUTHORISE that an outlet in AWAIT_AUTH waits for opens its session (R84, R88, R89, R140): with
the capacity feasible, the budget and a billing entry free, it enters ENERGISING with a session of the
counter's number, the entry's plan and the declared power as its claim, and a meter opened now; the entry
is used up. -/
def Obligations.AuthorisationOpensTheSession : Prop :=
  ∀ (tag : Byte) (p : List Byte) (outlet : AuthOutlet) (o : Outlet) (s : State) (d : Declaration),
    p.length = 11 → authOutletField p = some outlet → authoriseInRange p = true →
    s.svl.inProgress = none → outlet = .any ∨ outlet = .outlet o →
    (s.berth o).sc.state = .awaitAuth → (s.berth o).sc.declaration = some d →
    d.hull = field p 1 4 → (∀ q, q ≠ o → s.waits q = false) →
    (∀ x ∈ s.account.places, ∀ e, x = some e → e.hull ≠ d.hull) → none ∈ s.account.places →
    (s.berth o).sc.target ≤ sumOfLargest8 s.countedRatings →
    (d.kw : Int) ≤ (s.account.limit : Int) - s.claims → 1 ≤ s.spare →
    ∃ t results, exec (.authorise tag p) s = .next (t.answered 0x22 tag (0 :: results))
      ∧ (t.berth o).sc.state = .energising ∧ (t.berth o).rg.mode = .free
      ∧ (t.berth o).sc.session = some
          { number := s.account.sessionCounter, hull := d.hull, plan := field p 5 1
            claim := d.kw, opened := s.now }
      ∧ (t.berth o).sc.declaration = some d ∧ (t.berth o).sc.energiseFrom = some s.tb.run
      ∧ (t.berth o).sy.attempts = 0
      ∧ (∃ m, (t.berth o).mt = some m ∧ m.session = s.account.sessionCounter
          ∧ m.plan = field p 5 1 ∧ m.opened = s.tb.run ∧ m.imported = .zero
          ∧ m.exported = .zero ∧ m.closes = 0 ∧ m.trips = 0 ∧ m.interval.start = s.now
          ∧ m.interval.flags.isPartial = true)
      ∧ t.account = { s.account with sessionCounter :=
          if s.account.sessionCounter = 4294967295 then 1 else s.account.sessionCounter + 1 }
      ∧ t.metering = s.metering ∧ Elsewhere [o] [] s t ∧ NoFault s t

/-- The evaluation pass that a change of the import limit calls for (R85, R88, R89). A waiting outlet is
judged in order: not feasible, it returns to CABLE_PROVEN, denied; without a matching entry it waits for
AUTHORISATION, with a declared power above the remaining budget for BUDGET, and with no spare billing entry
for BILLING_SPACE; with all of them met its session opens, by an entry that names the outlet before one
that names ANY, the lowest place first (R84).

Of two that wait, the one of earlier waiting-since time is taken first, of equal times the lower outlet:
where the budget fits it but not the two, it opens, and the other waits for BUDGET. MODEL'S CHOICE (log
entries 19 and 31, DEDUCED): the times are compared by run count, and the reply shows the state after the
passes. -/
def Obligations.EvaluationPassesDecide : Prop :=
  ∀ (tag : Byte) (p : List Byte) (s u v : State) (o : Outlet) (d : Declaration) (limit : Nat),
    p.length = 2 → limit = field p 0 2 → limit ≤ 60000 → limit ≠ s.account.limit →
    s.svl.inProgress = none → s.passDue = false →
    u = { s with account := { s.account with limit := limit } } →
    v = (if limit < s.claims then u.raise .overBudget .station else u) →
    (s.berth o).sc.state = .awaitAuth → (s.berth o).sc.declaration = some d →
    (∀ reply, reply = 0 :: unsigned 2 limit ++ signed 4 s.claims
        ++ signed 4 ((limit : Int) - s.claims) →
      (∀ q, q ≠ o → s.waits q = false) →
      (sumOfLargest8 s.countedRatings < (s.berth o).sc.target →
        ∃ t, exec (.setImportLimit tag p) s = .next (t.answered 0x03 tag reply)
          ∧ (t.berth o).sc.state = .cableProven ∧ (t.berth o).sc.declaration = none
          ∧ (t.berth o).sc.denial = some .capacityImpossible ∧ (t.berth o).sc.deny = true
          ∧ (t.berth o).sc.target = 0 ∧ (t.berth o).sc.session = (s.berth o).sc.session
          ∧ Elsewhere [o] [] u t ∧ NoFault v t ∧ t.account = u.account ∧ t.metering = s.metering)
      ∧ ((s.berth o).sc.target ≤ sumOfLargest8 s.countedRatings →
        ∀ (matched : Prop) (reason : WaitingReason),
          (matched ↔ ∃ x ∈ s.account.places, ∃ e, x = some e ∧ e.hull = d.hull
            ∧ (e.outlet = .outlet o ∨ e.outlet = .any)) →
          (¬ matched ∧ reason = .authorisation)
            ∨ (matched ∧ (limit : Int) - s.claims < d.kw ∧ reason = .budget)
            ∨ (matched ∧ (d.kw : Int) ≤ limit - s.claims ∧ s.spare < 1
              ∧ reason = .billingSpace) →
          exec (.setImportLimit tag p) s = .next
            ((v.onSc o fun r => { r with waiting := some reason }).answered 0x03 tag reply)))
    ∧ ((s.berth o).sc.session = none → (s.berth o).sc.target ≤ sumOfLargest8 s.countedRatings →
      (d.kw : Int) ≤ limit - s.claims → 1 ≤ s.spare →
      ∀ (n : Nat) (e : AuthEntry) (reply : List Byte), s.account.places[n]? = some (some e) →
        e.hull = d.hull →
        e.outlet = .outlet o ∨ (e.outlet = .any ∧ ∀ x ∈ s.account.places, ∀ f, x = some f →
          f.hull = d.hull → f.outlet ≠ .outlet o) →
        (∀ k, k < n → ∀ f, s.account.places[k]? = some (some f) → f.hull = d.hull →
          f.outlet ≠ e.outlet) →
        reply = 0 :: unsigned 2 limit ++ signed 4 (s.claims + d.kw)
          ++ signed 4 ((limit : Int) - s.claims - d.kw) →
        ((∀ q, q ≠ o → s.waits q = false) →
          ∃ t, exec (.setImportLimit tag p) s = .next (t.answered 0x03 tag reply)
            ∧ (t.berth o).sc.state = .energising
            ∧ (t.berth o).sc.session = some
                { number := s.account.sessionCounter, hull := d.hull, plan := e.plan, claim := d.kw
                  opened := s.now }
            ∧ (t.berth o).mt.isSome = true
            ∧ t.account = { u.account with
                places := s.account.places.set n none
                sessionCounter := if s.account.sessionCounter = 4294967295 then 1
                  else s.account.sessionCounter + 1 }
            ∧ Elsewhere [o] [] u t ∧ NoFault s t ∧ t.metering = s.metering)
        ∧ (∀ (q : Outlet) (d' : Declaration) (since since' : TimeStamp), q ≠ o →
          (s.berth q).sc.state = .awaitAuth → (s.berth q).sc.declaration = some d' →
          (∀ r, r ≠ o → r ≠ q → s.waits r = false) →
          (s.berth o).sc.waitingSince = some since → (s.berth q).sc.waitingSince = some since' →
          elapsed s.tb.run since'.run < elapsed s.tb.run since.run
            ∨ (elapsed s.tb.run since'.run = elapsed s.tb.run since.run ∧ o.number < q.number) →
          (s.berth q).sc.target ≤ sumOfLargest8 s.countedRatings →
          (∃ x ∈ s.account.places, ∃ f, x = some f ∧ f.hull = d'.hull ∧ f.outlet = .outlet q) →
          (limit : Int) - s.claims - d.kw < d'.kw →
          ∃ t, exec (.setImportLimit tag p) s = .next (t.answered 0x03 tag reply)
            ∧ (t.berth o).sc.state = .energising
            ∧ (t.berth o).sc.session = some
                { number := s.account.sessionCounter, hull := d.hull, plan := e.plan, claim := d.kw
                  opened := s.now }
            ∧ (t.berth q).sc = { (s.berth q).sc with waiting := some .budget }
            ∧ (t.berth q).mt = (s.berth q).mt
            ∧ Elsewhere [o, q] [] u t ∧ NoFault s t ∧ t.metering = s.metering))

/-- END_SESSION (R95, R100, Table 5-5), answered with the outlet state after it. In PARALLEL_IN the
outlet enters PARALLEL_OUT; in SHORE_SUPPLY a return is awaited; in CLOSING the end is requested; from
ENERGISING, SYNCHRONISING and TRIPPED with a session it enters WIND_DOWN, and where nothing keeps the session
open it closes at once (R98, R152); without a session to end it is refused. From TRIPPED into WIND_DOWN PR's
drive and post-trip time run on while the feedback shows closed (R107).

RESET_OUTLET (R39, R90, R99, R118): of a TRIPPED outlet with a session, its loop closed, its SCP PRESENT,
no trip condition persisting and its breaker open, it clears the cause and carries the outlet to
ENERGISING, the HELD modules RUNNING while their hold time runs, and where their capacity reaches the target
with Sn and Pn live and the declaration PARALLEL, on to SYNCHRONISING; otherwise it is refused. MODEL'S
CHOICE: the reply names ENERGISING whatever follows in the same moment (log entry 30, DEDUCED), a module
that rejoins keeps the share target it had (log entry 49), and PR's drive and post-trip time end at the change
into WIND_DOWN where the feedback shows open (log entry 55, DEDUCED). -/
def Obligations.EndAndResetRequests : Prop :=
  (∀ (tag b : Byte) (o : Outlet) (s : State), b = BitVec.ofNat 8 o.number →
     s.svl.inProgress = none →
     (((s.berth o).sc.state = .dormant ∨ (s.berth o).sc.state = .cableProven
         ∨ ((s.berth o).sc.state = .tripped ∧ (s.berth o).sc.session = none)) →
       exec (.endSession tag [b]) s = .next (s.answered 0x25 tag [3]))
     ∧ ((s.berth o).sc.state = .awaitAuth →
       ∃ t, exec (.endSession tag [b]) s = .next (t.answered 0x25 tag [0, 1])
         ∧ (t.berth o).sc.state = .cableProven ∧ (t.berth o).sc.declaration = none
         ∧ (t.berth o).sc.target = 0 ∧ (t.berth o).sc.session = (s.berth o).sc.session
         ∧ Elsewhere [o] [] s t ∧ NoFault s t ∧ t.metering = s.metering)
     ∧ ((s.berth o).sc.state = .energising ∨ (s.berth o).sc.state = .synchronising
         ∨ ((s.berth o).sc.state = .tripped ∧ (s.berth o).sc.session.isSome = true) →
       s.keptOpen o →
       ∃ t, exec (.endSession tag [b]) s = .next (t.answered 0x25 tag [0, 10])
         ∧ WindsDown o s t
         ∧ ((s.berth o).sc.state = .tripped → DriveRunsOn (s.berth o) (t.berth o))
         ∧ Elsewhere [o] [] s t ∧ KeepsAccount s t ∧ NoFault s t ∧ t.metering = s.metering)
     ∧ (∀ x, (s.berth o).sc.state = .energising ∨ (s.berth o).sc.state = .synchronising
         ∨ (s.berth o).sc.state = .tripped →
       (s.berth o).lines.breakerClosed = false → s.assigned o = 0 →
       (s.berth o).sc.session = some x → (s.berth o).mt.isSome = true →
       ∃ t, exec (.endSession tag [b]) s = .next (t.answered 0x25 tag
           [0, if (s.berth o).lines.pilotClosed then 1 else 0])
         ∧ SessionCloses o x s t ∧ Elsewhere [o] [] s t ∧ KeepsAccount s t ∧ NoFault s t)
     ∧ (s.passDue = false → (s.berth o).sc.state = .closing →
       exec (.endSession tag [b]) s = .next
         ((s.onSc o fun r => { r with endRequested := true }).answered 0x25 tag [0, 5]))
     ∧ ((s.berth o).sc.state = .parallelIn → s.NoEntryCause o →
       ∃ t, exec (.endSession tag [b]) s = .next (t.answered 0x25 tag [0, 8])
         ∧ (t.berth o).sc.state = .parallelOut
         ∧ (t.berth o).sc.session = (s.berth o).sc.session ∧ (t.berth o).mt = (s.berth o).mt
         ∧ Elsewhere [o] [] s t ∧ KeepsAccount s t ∧ NoFault s t ∧ t.metering = s.metering)
     ∧ (s.passDue = false → (s.berth o).sc.state = .shoreSupply → (s.berth o).anyClosed = false →
       exec (.endSession tag [b]) s = .next
         ((if (s.berth o).sc.returnAwaited then s else s.onSc o fun r =>
           { r with returnAwaited := true, prepareReturn := true, returnFrom := some s.tb.run
           }).answered 0x25 tag [0, 7]))
     ∧ (s.passDue = false → ∀ code : Byte,
         ((s.berth o).sc.state = .parallelOut ∧ code = 8)
           ∨ ((s.berth o).sc.state = .opening ∧ code = 9)
           ∨ ((s.berth o).sc.state = .windDown ∧ code = 10) →
       exec (.endSession tag [b]) s = .next (s.answered 0x25 tag [0, code])))
  ∧ (∀ (tag b : Byte) (o : Outlet) (s : State), b = BitVec.ofNat 8 o.number →
       s.svl.inProgress = none →
       ∀ may : Prop, (may ↔ (s.berth o).sc.state = .tripped ∧ (s.berth o).sc.session.isSome = true
           ∧ (s.berth o).lines.pilotClosed = true ∧ (s.berth o).sl.scpPresent = true
           ∧ (s.berth o).sl.stopShown = false ∧ s.grid.point.live = true
           ∧ (s.berth o).lines.breakerClosed = false) →
       (may → ∀ (capacity : Nat) (goesOn : Prop),
         capacity = s.capacity o + (if (s.berth o).mp.hold.isSome then
           s.pool.sum fun m => if m.inStateAt .held o then m.effective else 0 else 0) →
         (goesOn ↔ (s.berth o).declaresParallel = true ∧ (s.berth o).sc.target ≤ capacity
           ∧ (s.berth o).mu.shore.live = true ∧ (s.berth o).mu.ship.live = true) →
         ∃ t, exec (.resetOutlet tag [b]) s = .next (t.answered 0x26 tag [0, 3])
           ∧ (goesOn → (t.berth o).sc.state = .synchronising ∧ (t.berth o).rg.mode = .track
             ∧ (t.berth o).sc.syncFrom = some s.tb.run ∧ (t.berth o).sc.energiseFrom = none)
           ∧ (¬ goesOn → (t.berth o).sc.state = .energising ∧ (t.berth o).rg.mode = .free
             ∧ (t.berth o).sc.syncFrom = none ∧ (t.berth o).sc.energiseFrom = some s.tb.run)
           ∧ (t.berth o).sc.firstCause = none
           ∧ (t.berth o).sc.session = (s.berth o).sc.session ∧ (t.berth o).mt = (s.berth o).mt
           ∧ (t.berth o).sy.attempts = 0 ∧ (t.berth o).pr.openDrive = false
           ∧ (t.berth o).pr.postTripFrom = none ∧ (t.berth o).mp.hold = none
           ∧ (∀ m, (s.module m).outlet = some o → (s.module m).state = .held →
               t.module m = if (s.berth o).mp.hold.isSome then { s.module m with state := .running }
                 else s.module m)
           ∧ Elsewhere [o] [] s t ∧ KeepsAccount s t ∧ NoFault s t ∧ t.metering = s.metering)
       ∧ (¬ may → exec (.resetOutlet tag [b]) s = .next (s.answered 0x26 tag [3])))

/-- SET_CAP (R86, R179), with no outlet waiting: the claim becomes the value asked, held to 20,000 kW
with the status CLAMPED, where the remaining budget allows the increase, and P_set of a ramp-in is
brought down to it; the reply carries the claim and the remaining budget. While the budget is negative
every rise is refused and every fall taken. MODEL'S CHOICE (log entry 41, DEDUCED: the formula of R86 read
alone would refuse it): the present claim itself is taken then. -/
def Obligations.SetCapChangesTheClaim : Prop :=
  ∀ (tag b hi lo : Byte) (o : Outlet) (s : State) (asked claim : Nat),
    b = BitVec.ofNat 8 o.number → asked = hi.toNat * 256 + lo.toNat → claim = min asked 20000 →
    s.svl.inProgress = none →
    ((s.berth o).sc.session = none →
      exec (.setCap tag [b, hi, lo]) s = .next (s.answered 0x27 tag [3]))
    ∧ ∀ x, (s.berth o).sc.session = some x →
      ((x.claim : Int) + max 0 ((s.account.limit : Int) - s.claims) < claim →
        exec (.setCap tag [b, hi, lo]) s = .next (s.answered 0x27 tag [4]))
      ∧ ((claim : Int) ≤ x.claim + max 0 ((s.account.limit : Int) - s.claims) → s.noneWaits →
        s.passDue = false → (s.berth o).rg.mode = .power ∨ (s.berth o).sc.state ≠ .parallelIn →
        ∀ t, t = s.onBerth o (fun b => { b with
            sc := { b.sc with session := some { x with claim := claim } }
            rg := { b.rg with pSet :=
              if b.sc.state = .parallelIn then min b.rg.pSet claim else b.rg.pSet } }) →
          exec (.setCap tag [b, hi, lo]) s = .next (t.answered 0x27 tag
            ((if claim = asked then 0 else 1) :: unsigned 2 claim
              ++ signed 4 ((s.account.limit : Int) - s.claims + x.claim - claim))))

/-! ### Billing -/

/-- FLUSH_INTERVAL (R146, R148, R151, R153): with an entry to spare the open interval closes, and its
record, of the counter's sequence, is stored as the newest; the next interval opens now. With none to
spare, or no session, it is refused.

RELEASE_BILLING (R153, R154, R156), with no outlet waiting: the records of the sequence given or less
are removed, and their number is the reply; a sequence not yet given out is refused.

The rounding step (R147) bills whole watt-hours of the accumulator and the residual, and carries the
rest: at least 0 and less than one watt-hour in TRUNCATE, at least minus half and less than half a
watt-hour in ROUND. -/
def Obligations.FlushReleaseAndRounding : Prop :=
  ((∀ (tag b : Byte) (o : Outlet) (s : State), b = BitVec.ofNat 8 o.number →
      s.svl.inProgress = none →
      ((s.berth o).mt = none → exec (.flushInterval tag [b]) s = .next (s.answered 0x43 tag [3]))
      ∧ ∀ m, (s.berth o).mt = some m →
        (s.spare < 1 → exec (.flushInterval tag [b]) s = .next (s.answered 0x43 tag [4]))
        ∧ (1 ≤ s.spare → ∃ t r m', exec (.flushInterval tag [b]) s
              = .next (t.answered 0x43 tag (0 :: unsigned 4 s.metering.sequence))
          ∧ t = { s with metering := t.metering, fe := t.fe, berths := t.berths }
          ∧ t.metering = { s.metering with
              queue := s.metering.queue ++ [r], sequence := s.metering.sequence + 1
              lowArmed := t.metering.lowArmed }
          ∧ (∀ p, p ≠ o → t.berth p = s.berth p)
          ∧ t.berth o = { s.berth o with mt := some m' }
          ∧ NoFault s t
          ∧ r.sequence = s.metering.sequence ∧ r.session = m.session ∧ r.outlet = o
          ∧ r.plan = m.plan ∧ r.hull = m.hull ∧ r.start = m.interval.start
          ∧ r.duration = (elapsed s.tb.run m.interval.start.run + 500000) / 1000000
          ∧ r.band = m.interval.band ∧ r.quality = m.interval.worst ∧ r.reason = .flush
          ∧ r.part = none
          ∧ (m.gapFrom = none → r.gapSeconds = m.interval.gapMillis / 1000)
          ∧ m'.imported.billed = m.imported.billed + r.importWh
          ∧ m'.exported.billed = m.exported.billed + r.exportWh
          ∧ m'.imported.accumulator = 0 ∧ m'.exported.accumulator = 0
          ∧ m'.imported.total = m.imported.total ∧ m'.exported.total = m.exported.total
          ∧ m'.interval.start = s.now ∧ m'.interval.band = s.bandNow
          ∧ m'.interval.worst = s.tb.quality ∧ m'.interval.gapMillis = 0))
   ∧ (∀ (tag : Byte) (p : List Byte) (s : State) (n : Nat), p.length = 4 → n = field p 0 4 →
        s.svl.inProgress = none →
        (s.metering.sequence - 1 < n →
          exec (.releaseBilling tag p) s = .next (s.answered 0x42 tag [2]))
        ∧ (n ≤ s.metering.sequence - 1 → s.noneWaits → s.passDue = false →
          ∀ kept, kept = s.metering.queue.filter (fun r => decide (n < r.sequence)) →
            ∃ armed, exec (.releaseBilling tag p) s = .next
                ({ s with metering := { s.metering with queue := kept, lowArmed := armed } }.answered
                  0x42 tag (0 :: unsigned 1 (s.metering.queue.length - kept.length)))
              ∧ (s.metering.lowArmed = true → armed = true)
              ∧ (kept.length < s.metering.queue.length → (armed = true ↔
                  s.metering.lowArmed = true ∨ kept.length + 16 ≤ 96)))))
  ∧ (∀ (e : Energy) (mode : Rounding), e.ResidualFits mode →
       (e.close mode).accumulator = 0 ∧ (e.close mode).total = e.total
       ∧ (e.close mode).billed = e.billed + e.wattHours mode
       ∧ (e.wattHours mode : Int) * 3600000000 + (e.close mode).residual
           = e.accumulator + e.residual
       ∧ (mode = .truncate → 0 ≤ (e.close mode).residual ∧ (e.close mode).residual < 3600000000)
       ∧ (mode = .round →
           -1800000000 ≤ (e.close mode).residual ∧ (e.close mode).residual < 1800000000))

/-! ### Faults and events -/

/-- CLEAR_FAULTS (R160): the flags that the mask names are cleared, and fault-since-clear where none
remains; an empty mask clears none and is taken, and one with any of bits 29 to 31 set, which name no
kind, is refused (R180, R184). SET_REPORTING (R161, R184) replaces the
report enables of the other class, the outlet events enable and global report-off. -/
def Obligations.FaultRequests : Prop :=
  ∀ (tag : Byte) (p : List Byte) (s : State), s.svl.inProgress = none →
    (p.length = 4 → ∀ mask flags u, mask = BitVec.ofNat 32 (field p 0 4) →
      flags = s.fe.flags &&& ~~~mask →
      u = { s.fe with flags := flags
                      sinceClear := if flags = 0 then false else s.fe.sinceClear } →
      (mask &&& 0xE0000000 = 0 →
        exec (.clearFaults tag p) s = .next ({ s with fe := u }.answered 0x52 tag
          (0 :: unsigned 4 flags.toNat ++ unsigned 1 u.sinceClear.toNat)))
      ∧ (mask &&& 0xE0000000 ≠ 0 →
        exec (.clearFaults tag p) s = .next (s.answered 0x52 tag [2])))
    ∧ (p.length = 5 → ∀ u, u = { s.fe with
        enables := BitVec.ofNat 32 (field p 0 4) &&& 0x1FFFF800
        outletEvents := field p 4 1 % 2 == 1, reportOff := field p 4 1 / 2 % 2 == 1 } →
      exec (.setReporting tag p) s = .next ({ s with fe := u }.answered 0x53 tag
        (0 :: unsigned 4 u.enables.toNat
          ++ unsigned 1 (u.outletEvents.toNat + 2 * u.reportOff.toNat))))

/-- A raised fault (R159, R161, R162, R163) sets its flag and fault-since-clear; of the trip class, or
of the other class with its enable on, it overwrites the capture and offers an event.

An event offered (R164, R165) is stored as the newest record while fewer than 32 are held; with 32 it
is discarded, and the newest record held is marked lost. -/
def Obligations.FaultsAndEvents : Prop :=
  (∀ (s : State) (k : FaultKind) (src : Source) (d : Option Nat) (e : EventRecord),
     e = { kind := .fault k, source := src, seconds := s.tb.seconds
           millis := s.tb.subSecond / 1000, detail := d, lost := false } →
     (s.raise k src d).fe.flags = s.fe.flags ||| k.bit ∧ (s.raise k src d).fe.sinceClear = true
     ∧ (k.code ≤ 11 ∨ s.fe.enables &&& k.bit ≠ 0 →
       (s.raise k src d).fe.capture = some { kind := k, source := src, seconds := s.tb.seconds
                                             millis := s.tb.subSecond / 1000 }
       ∧ (s.raise k src d).fe.queue = (s.fe.offer e).queue)
     ∧ (11 < k.code → s.fe.enables &&& k.bit = 0 →
       (s.raise k src d).fe.capture = s.fe.capture ∧ (s.raise k src d).fe.queue = s.fe.queue))
  ∧ (∀ (u : FaultUnit) (e : EventRecord),
       (u.queue.length < 32 → u.offer e = { u with queue := u.queue ++ [e] })
       ∧ (32 ≤ u.queue.length → ∃ before last, u.queue = before ++ [last]
           ∧ u.offer e = { u with queue := before ++ [{ last with lost := true }] }))

/-! ### The synchroniser and the power loop -/

/-- SY at a pair record (R61 to R64): in SYNCHRONISING, of a PARALLEL ship, the capacity at the target,
watching, the breaker open and not driven open, with the ship's bus within its bands, the slip at least
1 mHz and within its limits and the voltages within the window, the close is scheduled for the closing
time before the angle comes to 0, where that lies less than one cycle of the ship's bus ahead; any other
record schedules nothing. -/
def Obligations.SynchroniserSchedulesTheCoincidence : Prop :=
  ∀ (b : Berth) (capacity : Nat) (r : PairRecord) (slip toGo t0 : Nat),
    slip = r.fS - r.fP → (toGo : Int) = (3600 - r.theta) % 3600 →
    t0 = toGo * 2500000 / (9 * slip) →
    ∀ fits : Prop, (fits ↔
        b.sc.state = .synchronising ∧ b.declaresParallel = true ∧ b.sc.target ≤ capacity
        ∧ b.sy.close = .watching ∧ b.lines.breakerClosed = false ∧ b.sy.openDrive = false
        ∧ b.nominalFreq * 98 ≤ r.fP * 100 ∧ r.fP * 100 ≤ b.nominalFreq * 102
        ∧ b.nominalVolts * 90 ≤ r.vP * 100 ∧ r.vP * 100 ≤ b.nominalVolts * 110
        ∧ r.fP + 1 ≤ r.fS ∧ r.fP + b.sy.settings.smin ≤ r.fS
        ∧ r.fS ≤ r.fP + b.sy.settings.smax
        ∧ ((r.vS : Int) - r.vP).natAbs ≤ b.nominalVolts * b.sy.settings.dVpct / 100
        ∧ b.sy.tc * 1000 ≤ t0 ∧ t0 - b.sy.tc * 1000 < 1000000000 / r.fP) →
    (∀ plan : Schedule, plan =
        { due := r.stamp.run + BitVec.ofNat 64 (t0 - b.sy.tc * 1000), theta := r.theta
          slip := slip, toGo := toGo, delay := t0 - b.sy.tc * 1000 } →
      fits → b.syPair capacity r = { b with sy := { b.sy with close := .scheduled plan } })
    ∧ (¬ fits → b.syPair capacity r = b)

/-! ### Rules of the whole machine -/

/-- R153: the billing queue's sequences increase strictly, below the counter, and its records and the
open sessions are no more than 96 together, after every step from a state in which they do. -/
def Obligations.BillingQueueStaysInOrder : Prop :=
  ∀ s t : State, BillingInv s → step s = .next t → BillingInv t

/-- The blocks of each outlet agree after every step from a state in which they do (R43, R46, R55, R65,
R66, R89, R98, R106, R107, R140): a session, and its meter and declaration, in the states from ENERGISING to
WIND_DOWN and none before; a schedule in SYNCHRONISING alone and a close in flight in CLOSING alone; RG in
the mode of the state, its setpoint 0 outside POWER and its targets within their bands; PR's drive and
post-trip time in TRIPPED, and in WIND_DOWN until the feedback shows open (that they end at an entry with the
feedback open already is the MODEL'S CHOICE, log entry 55, DEDUCED). -/
def Obligations.OutletBlocksStayTogether : Prop :=
  ∀ s t : State, OutletsInv s →
    (∀ o, (s.berth o).rg.mode ≠ .off → TargetsInBand (s.berth o)) → step s = .next t →
    OutletsInv t ∧ ∀ o, (t.berth o).rg.mode ≠ .off → TargetsInBand (t.berth o)

/-- R147: for each open session and each direction, after every step from a state in which it is so, the
watt-hours billed, the residual and the open interval's accumulator are the energy integrated since the
session opened, the residual within the range of the rounding mode. -/
def Obligations.EnergyIsConserved : Prop :=
  ∀ s t : State, EnergyInv s → step s = .next t → EnergyInv t

/-- Kept by every step: the event queue holds no more than 32 records (R164, R165), and the sub-second
count stays below 1,000,000 (R6). Kept by every command but SUPPLY_ON and CLEAR_FAULTS: a sticky flag
that is set (R160, R169, R170).

The claims (R85): no command makes their sum greater than both what it was and the import limit. -/
def Obligations.BoundsAndFlagsStand : Prop :=
  (∀ s t : State, EventInv s → step s = .next t → EventInv t)
  ∧ (∀ s t : State, ClockInv s → step s = .next t → ClockInv t)
  ∧ (∀ (c : Instr) (s t : State), (∀ high closed, c ≠ .supplyOn high closed) →
      (∀ tag p, c ≠ .clearFaults tag p) → exec c s = .next t →
      s.fe.flags &&& t.fe.flags = s.fe.flags)
  ∧ (∀ (c : Instr) (s t : State), exec c s = .next t →
      t.claims ≤ s.claims ∨ t.claims ≤ t.account.limit)

/-- A session ends only with its breaker feedback open, and never unbilled (R98, R152): a command other
than SUPPLY_ON that leaves an outlet without the session it had leaves its feedback open and a SESSION_END
record of the session in the billing queue. -/
def Obligations.SessionsCloseOpenAndBilled : Prop :=
  ∀ (c : Instr) (s t : State) (o : Outlet) (m : Meter),
    (∀ high closed, c ≠ .supplyOn high closed) → (s.berth o).sc.session.isSome = true →
    (s.berth o).mt = some m → exec c s = .next t → (t.berth o).sc.session = none →
    (t.berth o).lines.breakerClosed = false ∧ (t.berth o).mt = none
    ∧ ∃ r ∈ t.metering.queue, r.reason = .sessionEnd ∧ r.outlet = o ∧ r.session = m.session
      ∧ r.part.isSome = true

/-- The state after reset meets every invariant that the steps keep. -/
def Obligations.ResetMeetsTheInvariants : Prop :=
  BillingInv State.reset ∧ OutletsInv State.reset
  ∧ (∀ o, (State.reset.berth o).rg.mode ≠ .off → TargetsInBand (State.reset.berth o))
  ∧ EnergyInv State.reset ∧ EventInv State.reset ∧ ClockInv State.reset
end

