-- ==== Sys2Proof/Laws/State.lean ====
section
/-! SUPPORT. What each update of State leaves in each field: one lemma per field per update, so that no
later proof unfolds a record update. -/

namespace Sys2Proof

/-! ### The tables of outlets and modules -/

@[simp] theorem Quad.get_set_self {α : Type} (q : Quad α) (o : Outlet) (a : α) :
    (q.set o a).get o = a := by cases o <;> rfl

@[simp] theorem Quad.get_set_ne {α : Type} (q : Quad α) {o p : Outlet} (a : α) (h : p ≠ o) :
    (q.set o a).get p = q.get p := by cases o <;> cases p <;> first | rfl | exact absurd rfl h

@[simp] theorem Quad.get_fill {α : Type} (a : α) (o : Outlet) : (Quad.fill a).get o = a := by
  cases o <;> rfl

@[simp] theorem Dozen.get_set_self {α : Type} (d : Dozen α) (m : ModuleNo) (a : α) :
    (d.set m a).get m = a := by cases m <;> rfl

@[simp] theorem Dozen.get_set_ne {α : Type} (d : Dozen α) {m n : ModuleNo} (a : α) (h : n ≠ m) :
    (d.set m a).get n = d.get n := by cases m <;> cases n <;> first | rfl | exact absurd rfl h

@[simp] theorem Dozen.get_fill {α : Type} (a : α) (m : ModuleNo) : (Dozen.fill a).get m = a := by
  cases m <;> rfl

/-- Two tables of outlets that agree at every outlet are equal. -/
theorem Quad.ext_get {α : Type} {q r : Quad α} (h : ∀ o, q.get o = r.get o) : q = r := by
  cases q; cases r
  simp only [Quad.mk.injEq]
  exact ⟨h .o1, h .o2, h .o3, h .o4⟩

@[simp] theorem Outlet.mem_all (o : Outlet) : o ∈ Outlet.all := by cases o <;> decide

@[simp] theorem ModuleNo.mem_all (m : ModuleNo) : m ∈ ModuleNo.all := by cases m <;> decide

end Sys2Proof

namespace Sys2Proof.Machine

open Sys2Proof


/-! ### What an outlet holds -/

@[simp] theorem State.berth_onBerth_self (s : State) (o : Outlet) (f : Berth → Berth) :
    (s.onBerth o f).berth o = f (s.berth o) := Quad.get_set_self _ _ _

@[simp] theorem State.berth_onBerth_ne (s : State) {o p : Outlet} (f : Berth → Berth) (h : p ≠ o) :
    (s.onBerth o f).berth p = s.berth p := Quad.get_set_ne _ _ h

@[simp] theorem State.module_onBerth (s : State) (o : Outlet) (f : Berth → Berth) (m : ModuleNo) :
    (s.onBerth o f).module m = s.module m := rfl

@[simp] theorem State.onBerth_tb (s : State) (o : Outlet) (f : Berth → Berth) :
    (s.onBerth o f).tb = s.tb := rfl

@[simp] theorem State.onBerth_grid (s : State) (o : Outlet) (f : Berth → Berth) :
    (s.onBerth o f).grid = s.grid := rfl

@[simp] theorem State.onBerth_pool (s : State) (o : Outlet) (f : Berth → Berth) :
    (s.onBerth o f).pool = s.pool := rfl

@[simp] theorem State.onBerth_account (s : State) (o : Outlet) (f : Berth → Berth) :
    (s.onBerth o f).account = s.account := rfl

@[simp] theorem State.onBerth_metering (s : State) (o : Outlet) (f : Berth → Berth) :
    (s.onBerth o f).metering = s.metering := rfl

@[simp] theorem State.onBerth_gridWatch (s : State) (o : Outlet) (f : Berth → Berth) :
    (s.onBerth o f).gridWatch = s.gridWatch := rfl

@[simp] theorem State.onBerth_fe (s : State) (o : Outlet) (f : Berth → Berth) :
    (s.onBerth o f).fe = s.fe := rfl

@[simp] theorem State.onBerth_svl (s : State) (o : Outlet) (f : Berth → Berth) :
    (s.onBerth o f).svl = s.svl := rfl

@[simp] theorem State.onBerth_passDue (s : State) (o : Outlet) (f : Berth → Berth) :
    (s.onBerth o f).passDue = s.passDue := rfl

@[simp] theorem State.onBerth_pending (s : State) (o : Outlet) (f : Berth → Berth) :
    (s.onBerth o f).pending = s.pending := rfl

/-! ### `onSc` -/

@[simp] theorem State.berth_onSc_self (s : State) (o : Outlet) (f : OutletRecord → OutletRecord) :
    (s.onSc o f).berth o = { s.berth o with sc := f (s.berth o).sc } :=
  State.berth_onBerth_self _ _ _

@[simp] theorem State.berth_onSc_ne (s : State) {o p : Outlet} (f : OutletRecord → OutletRecord) (h : p ≠ o) :
    (s.onSc o f).berth p = s.berth p := State.berth_onBerth_ne _ _ h

@[simp] theorem State.module_onSc (s : State) (o : Outlet) (f : OutletRecord → OutletRecord) (m : ModuleNo) :
    (s.onSc o f).module m = s.module m := rfl

@[simp] theorem State.onSc_tb (s : State) (o : Outlet) (f : OutletRecord → OutletRecord) :
    (s.onSc o f).tb = s.tb := rfl

@[simp] theorem State.onSc_grid (s : State) (o : Outlet) (f : OutletRecord → OutletRecord) :
    (s.onSc o f).grid = s.grid := rfl

@[simp] theorem State.onSc_pool (s : State) (o : Outlet) (f : OutletRecord → OutletRecord) :
    (s.onSc o f).pool = s.pool := rfl

@[simp] theorem State.onSc_account (s : State) (o : Outlet) (f : OutletRecord → OutletRecord) :
    (s.onSc o f).account = s.account := rfl

@[simp] theorem State.onSc_metering (s : State) (o : Outlet) (f : OutletRecord → OutletRecord) :
    (s.onSc o f).metering = s.metering := rfl

@[simp] theorem State.onSc_gridWatch (s : State) (o : Outlet) (f : OutletRecord → OutletRecord) :
    (s.onSc o f).gridWatch = s.gridWatch := rfl

@[simp] theorem State.onSc_fe (s : State) (o : Outlet) (f : OutletRecord → OutletRecord) :
    (s.onSc o f).fe = s.fe := rfl

@[simp] theorem State.onSc_svl (s : State) (o : Outlet) (f : OutletRecord → OutletRecord) :
    (s.onSc o f).svl = s.svl := rfl

@[simp] theorem State.onSc_passDue (s : State) (o : Outlet) (f : OutletRecord → OutletRecord) :
    (s.onSc o f).passDue = s.passDue := rfl

@[simp] theorem State.onSc_pending (s : State) (o : Outlet) (f : OutletRecord → OutletRecord) :
    (s.onSc o f).pending = s.pending := rfl

@[simp] theorem State.lines_onSc (s : State) (o p : Outlet) (f : OutletRecord → OutletRecord) :
    ((s.onSc o f).berth p).lines = (s.berth p).lines := by cases o <;> cases p <;> rfl

@[simp] theorem State.mu_onSc (s : State) (o p : Outlet) (f : OutletRecord → OutletRecord) :
    ((s.onSc o f).berth p).mu = (s.berth p).mu := by cases o <;> cases p <;> rfl

@[simp] theorem State.mp_onSc (s : State) (o p : Outlet) (f : OutletRecord → OutletRecord) :
    ((s.onSc o f).berth p).mp = (s.berth p).mp := by cases o <;> cases p <;> rfl

@[simp] theorem State.rg_onSc (s : State) (o p : Outlet) (f : OutletRecord → OutletRecord) :
    ((s.onSc o f).berth p).rg = (s.berth p).rg := by cases o <;> cases p <;> rfl

@[simp] theorem State.sy_onSc (s : State) (o p : Outlet) (f : OutletRecord → OutletRecord) :
    ((s.onSc o f).berth p).sy = (s.berth p).sy := by cases o <;> cases p <;> rfl

@[simp] theorem State.pr_onSc (s : State) (o p : Outlet) (f : OutletRecord → OutletRecord) :
    ((s.onSc o f).berth p).pr = (s.berth p).pr := by cases o <;> cases p <;> rfl

@[simp] theorem State.sl_onSc (s : State) (o p : Outlet) (f : OutletRecord → OutletRecord) :
    ((s.onSc o f).berth p).sl = (s.berth p).sl := by cases o <;> cases p <;> rfl

@[simp] theorem State.mt_onSc (s : State) (o p : Outlet) (f : OutletRecord → OutletRecord) :
    ((s.onSc o f).berth p).mt = (s.berth p).mt := by cases o <;> cases p <;> rfl

/-! ### `onRg` -/

@[simp] theorem State.berth_onRg_self (s : State) (o : Outlet) (f : RefGen → RefGen) :
    (s.onRg o f).berth o = { s.berth o with rg := f (s.berth o).rg } :=
  State.berth_onBerth_self _ _ _

@[simp] theorem State.berth_onRg_ne (s : State) {o p : Outlet} (f : RefGen → RefGen) (h : p ≠ o) :
    (s.onRg o f).berth p = s.berth p := State.berth_onBerth_ne _ _ h

@[simp] theorem State.module_onRg (s : State) (o : Outlet) (f : RefGen → RefGen) (m : ModuleNo) :
    (s.onRg o f).module m = s.module m := rfl

@[simp] theorem State.onRg_tb (s : State) (o : Outlet) (f : RefGen → RefGen) :
    (s.onRg o f).tb = s.tb := rfl

@[simp] theorem State.onRg_grid (s : State) (o : Outlet) (f : RefGen → RefGen) :
    (s.onRg o f).grid = s.grid := rfl

@[simp] theorem State.onRg_pool (s : State) (o : Outlet) (f : RefGen → RefGen) :
    (s.onRg o f).pool = s.pool := rfl

@[simp] theorem State.onRg_account (s : State) (o : Outlet) (f : RefGen → RefGen) :
    (s.onRg o f).account = s.account := rfl

@[simp] theorem State.onRg_metering (s : State) (o : Outlet) (f : RefGen → RefGen) :
    (s.onRg o f).metering = s.metering := rfl

@[simp] theorem State.onRg_gridWatch (s : State) (o : Outlet) (f : RefGen → RefGen) :
    (s.onRg o f).gridWatch = s.gridWatch := rfl

@[simp] theorem State.onRg_fe (s : State) (o : Outlet) (f : RefGen → RefGen) :
    (s.onRg o f).fe = s.fe := rfl

@[simp] theorem State.onRg_svl (s : State) (o : Outlet) (f : RefGen → RefGen) :
    (s.onRg o f).svl = s.svl := rfl

@[simp] theorem State.onRg_passDue (s : State) (o : Outlet) (f : RefGen → RefGen) :
    (s.onRg o f).passDue = s.passDue := rfl

@[simp] theorem State.onRg_pending (s : State) (o : Outlet) (f : RefGen → RefGen) :
    (s.onRg o f).pending = s.pending := rfl

@[simp] theorem State.sc_onRg (s : State) (o p : Outlet) (f : RefGen → RefGen) :
    ((s.onRg o f).berth p).sc = (s.berth p).sc := by cases o <;> cases p <;> rfl

@[simp] theorem State.lines_onRg (s : State) (o p : Outlet) (f : RefGen → RefGen) :
    ((s.onRg o f).berth p).lines = (s.berth p).lines := by cases o <;> cases p <;> rfl

@[simp] theorem State.mu_onRg (s : State) (o p : Outlet) (f : RefGen → RefGen) :
    ((s.onRg o f).berth p).mu = (s.berth p).mu := by cases o <;> cases p <;> rfl

@[simp] theorem State.mp_onRg (s : State) (o p : Outlet) (f : RefGen → RefGen) :
    ((s.onRg o f).berth p).mp = (s.berth p).mp := by cases o <;> cases p <;> rfl

@[simp] theorem State.sy_onRg (s : State) (o p : Outlet) (f : RefGen → RefGen) :
    ((s.onRg o f).berth p).sy = (s.berth p).sy := by cases o <;> cases p <;> rfl

@[simp] theorem State.pr_onRg (s : State) (o p : Outlet) (f : RefGen → RefGen) :
    ((s.onRg o f).berth p).pr = (s.berth p).pr := by cases o <;> cases p <;> rfl

@[simp] theorem State.sl_onRg (s : State) (o p : Outlet) (f : RefGen → RefGen) :
    ((s.onRg o f).berth p).sl = (s.berth p).sl := by cases o <;> cases p <;> rfl

@[simp] theorem State.mt_onRg (s : State) (o p : Outlet) (f : RefGen → RefGen) :
    ((s.onRg o f).berth p).mt = (s.berth p).mt := by cases o <;> cases p <;> rfl

/-! ### `onSy` -/

@[simp] theorem State.berth_onSy_self (s : State) (o : Outlet) (f : Synchroniser → Synchroniser) :
    (s.onSy o f).berth o = { s.berth o with sy := f (s.berth o).sy } :=
  State.berth_onBerth_self _ _ _

@[simp] theorem State.berth_onSy_ne (s : State) {o p : Outlet} (f : Synchroniser → Synchroniser) (h : p ≠ o) :
    (s.onSy o f).berth p = s.berth p := State.berth_onBerth_ne _ _ h

@[simp] theorem State.module_onSy (s : State) (o : Outlet) (f : Synchroniser → Synchroniser) (m : ModuleNo) :
    (s.onSy o f).module m = s.module m := rfl

@[simp] theorem State.onSy_tb (s : State) (o : Outlet) (f : Synchroniser → Synchroniser) :
    (s.onSy o f).tb = s.tb := rfl

@[simp] theorem State.onSy_grid (s : State) (o : Outlet) (f : Synchroniser → Synchroniser) :
    (s.onSy o f).grid = s.grid := rfl

@[simp] theorem State.onSy_pool (s : State) (o : Outlet) (f : Synchroniser → Synchroniser) :
    (s.onSy o f).pool = s.pool := rfl

@[simp] theorem State.onSy_account (s : State) (o : Outlet) (f : Synchroniser → Synchroniser) :
    (s.onSy o f).account = s.account := rfl

@[simp] theorem State.onSy_metering (s : State) (o : Outlet) (f : Synchroniser → Synchroniser) :
    (s.onSy o f).metering = s.metering := rfl

@[simp] theorem State.onSy_gridWatch (s : State) (o : Outlet) (f : Synchroniser → Synchroniser) :
    (s.onSy o f).gridWatch = s.gridWatch := rfl

@[simp] theorem State.onSy_fe (s : State) (o : Outlet) (f : Synchroniser → Synchroniser) :
    (s.onSy o f).fe = s.fe := rfl

@[simp] theorem State.onSy_svl (s : State) (o : Outlet) (f : Synchroniser → Synchroniser) :
    (s.onSy o f).svl = s.svl := rfl

@[simp] theorem State.onSy_passDue (s : State) (o : Outlet) (f : Synchroniser → Synchroniser) :
    (s.onSy o f).passDue = s.passDue := rfl

@[simp] theorem State.onSy_pending (s : State) (o : Outlet) (f : Synchroniser → Synchroniser) :
    (s.onSy o f).pending = s.pending := rfl

@[simp] theorem State.sc_onSy (s : State) (o p : Outlet) (f : Synchroniser → Synchroniser) :
    ((s.onSy o f).berth p).sc = (s.berth p).sc := by cases o <;> cases p <;> rfl

@[simp] theorem State.lines_onSy (s : State) (o p : Outlet) (f : Synchroniser → Synchroniser) :
    ((s.onSy o f).berth p).lines = (s.berth p).lines := by cases o <;> cases p <;> rfl

@[simp] theorem State.mu_onSy (s : State) (o p : Outlet) (f : Synchroniser → Synchroniser) :
    ((s.onSy o f).berth p).mu = (s.berth p).mu := by cases o <;> cases p <;> rfl

@[simp] theorem State.mp_onSy (s : State) (o p : Outlet) (f : Synchroniser → Synchroniser) :
    ((s.onSy o f).berth p).mp = (s.berth p).mp := by cases o <;> cases p <;> rfl

@[simp] theorem State.rg_onSy (s : State) (o p : Outlet) (f : Synchroniser → Synchroniser) :
    ((s.onSy o f).berth p).rg = (s.berth p).rg := by cases o <;> cases p <;> rfl

@[simp] theorem State.pr_onSy (s : State) (o p : Outlet) (f : Synchroniser → Synchroniser) :
    ((s.onSy o f).berth p).pr = (s.berth p).pr := by cases o <;> cases p <;> rfl

@[simp] theorem State.sl_onSy (s : State) (o p : Outlet) (f : Synchroniser → Synchroniser) :
    ((s.onSy o f).berth p).sl = (s.berth p).sl := by cases o <;> cases p <;> rfl

@[simp] theorem State.mt_onSy (s : State) (o p : Outlet) (f : Synchroniser → Synchroniser) :
    ((s.onSy o f).berth p).mt = (s.berth p).mt := by cases o <;> cases p <;> rfl

/-! ### `onPr` -/

@[simp] theorem State.berth_onPr_self (s : State) (o : Outlet) (f : Protection → Protection) :
    (s.onPr o f).berth o = { s.berth o with pr := f (s.berth o).pr } :=
  State.berth_onBerth_self _ _ _

@[simp] theorem State.berth_onPr_ne (s : State) {o p : Outlet} (f : Protection → Protection) (h : p ≠ o) :
    (s.onPr o f).berth p = s.berth p := State.berth_onBerth_ne _ _ h

@[simp] theorem State.module_onPr (s : State) (o : Outlet) (f : Protection → Protection) (m : ModuleNo) :
    (s.onPr o f).module m = s.module m := rfl

@[simp] theorem State.onPr_tb (s : State) (o : Outlet) (f : Protection → Protection) :
    (s.onPr o f).tb = s.tb := rfl

@[simp] theorem State.onPr_grid (s : State) (o : Outlet) (f : Protection → Protection) :
    (s.onPr o f).grid = s.grid := rfl

@[simp] theorem State.onPr_pool (s : State) (o : Outlet) (f : Protection → Protection) :
    (s.onPr o f).pool = s.pool := rfl

@[simp] theorem State.onPr_account (s : State) (o : Outlet) (f : Protection → Protection) :
    (s.onPr o f).account = s.account := rfl

@[simp] theorem State.onPr_metering (s : State) (o : Outlet) (f : Protection → Protection) :
    (s.onPr o f).metering = s.metering := rfl

@[simp] theorem State.onPr_gridWatch (s : State) (o : Outlet) (f : Protection → Protection) :
    (s.onPr o f).gridWatch = s.gridWatch := rfl

@[simp] theorem State.onPr_fe (s : State) (o : Outlet) (f : Protection → Protection) :
    (s.onPr o f).fe = s.fe := rfl

@[simp] theorem State.onPr_svl (s : State) (o : Outlet) (f : Protection → Protection) :
    (s.onPr o f).svl = s.svl := rfl

@[simp] theorem State.onPr_passDue (s : State) (o : Outlet) (f : Protection → Protection) :
    (s.onPr o f).passDue = s.passDue := rfl

@[simp] theorem State.onPr_pending (s : State) (o : Outlet) (f : Protection → Protection) :
    (s.onPr o f).pending = s.pending := rfl

@[simp] theorem State.sc_onPr (s : State) (o p : Outlet) (f : Protection → Protection) :
    ((s.onPr o f).berth p).sc = (s.berth p).sc := by cases o <;> cases p <;> rfl

@[simp] theorem State.lines_onPr (s : State) (o p : Outlet) (f : Protection → Protection) :
    ((s.onPr o f).berth p).lines = (s.berth p).lines := by cases o <;> cases p <;> rfl

@[simp] theorem State.mu_onPr (s : State) (o p : Outlet) (f : Protection → Protection) :
    ((s.onPr o f).berth p).mu = (s.berth p).mu := by cases o <;> cases p <;> rfl

@[simp] theorem State.mp_onPr (s : State) (o p : Outlet) (f : Protection → Protection) :
    ((s.onPr o f).berth p).mp = (s.berth p).mp := by cases o <;> cases p <;> rfl

@[simp] theorem State.rg_onPr (s : State) (o p : Outlet) (f : Protection → Protection) :
    ((s.onPr o f).berth p).rg = (s.berth p).rg := by cases o <;> cases p <;> rfl

@[simp] theorem State.sy_onPr (s : State) (o p : Outlet) (f : Protection → Protection) :
    ((s.onPr o f).berth p).sy = (s.berth p).sy := by cases o <;> cases p <;> rfl

@[simp] theorem State.sl_onPr (s : State) (o p : Outlet) (f : Protection → Protection) :
    ((s.onPr o f).berth p).sl = (s.berth p).sl := by cases o <;> cases p <;> rfl

@[simp] theorem State.mt_onPr (s : State) (o p : Outlet) (f : Protection → Protection) :
    ((s.onPr o f).berth p).mt = (s.berth p).mt := by cases o <;> cases p <;> rfl

/-! ### `onSl` -/

@[simp] theorem State.berth_onSl_self (s : State) (o : Outlet) (f : ShipLink → ShipLink) :
    (s.onSl o f).berth o = { s.berth o with sl := f (s.berth o).sl } :=
  State.berth_onBerth_self _ _ _

@[simp] theorem State.berth_onSl_ne (s : State) {o p : Outlet} (f : ShipLink → ShipLink) (h : p ≠ o) :
    (s.onSl o f).berth p = s.berth p := State.berth_onBerth_ne _ _ h

@[simp] theorem State.module_onSl (s : State) (o : Outlet) (f : ShipLink → ShipLink) (m : ModuleNo) :
    (s.onSl o f).module m = s.module m := rfl

@[simp] theorem State.onSl_tb (s : State) (o : Outlet) (f : ShipLink → ShipLink) :
    (s.onSl o f).tb = s.tb := rfl

@[simp] theorem State.onSl_grid (s : State) (o : Outlet) (f : ShipLink → ShipLink) :
    (s.onSl o f).grid = s.grid := rfl

@[simp] theorem State.onSl_pool (s : State) (o : Outlet) (f : ShipLink → ShipLink) :
    (s.onSl o f).pool = s.pool := rfl

@[simp] theorem State.onSl_account (s : State) (o : Outlet) (f : ShipLink → ShipLink) :
    (s.onSl o f).account = s.account := rfl

@[simp] theorem State.onSl_metering (s : State) (o : Outlet) (f : ShipLink → ShipLink) :
    (s.onSl o f).metering = s.metering := rfl

@[simp] theorem State.onSl_gridWatch (s : State) (o : Outlet) (f : ShipLink → ShipLink) :
    (s.onSl o f).gridWatch = s.gridWatch := rfl

@[simp] theorem State.onSl_fe (s : State) (o : Outlet) (f : ShipLink → ShipLink) :
    (s.onSl o f).fe = s.fe := rfl

@[simp] theorem State.onSl_svl (s : State) (o : Outlet) (f : ShipLink → ShipLink) :
    (s.onSl o f).svl = s.svl := rfl

@[simp] theorem State.onSl_passDue (s : State) (o : Outlet) (f : ShipLink → ShipLink) :
    (s.onSl o f).passDue = s.passDue := rfl

@[simp] theorem State.onSl_pending (s : State) (o : Outlet) (f : ShipLink → ShipLink) :
    (s.onSl o f).pending = s.pending := rfl

@[simp] theorem State.sc_onSl (s : State) (o p : Outlet) (f : ShipLink → ShipLink) :
    ((s.onSl o f).berth p).sc = (s.berth p).sc := by cases o <;> cases p <;> rfl

@[simp] theorem State.lines_onSl (s : State) (o p : Outlet) (f : ShipLink → ShipLink) :
    ((s.onSl o f).berth p).lines = (s.berth p).lines := by cases o <;> cases p <;> rfl

@[simp] theorem State.mu_onSl (s : State) (o p : Outlet) (f : ShipLink → ShipLink) :
    ((s.onSl o f).berth p).mu = (s.berth p).mu := by cases o <;> cases p <;> rfl

@[simp] theorem State.mp_onSl (s : State) (o p : Outlet) (f : ShipLink → ShipLink) :
    ((s.onSl o f).berth p).mp = (s.berth p).mp := by cases o <;> cases p <;> rfl

@[simp] theorem State.rg_onSl (s : State) (o p : Outlet) (f : ShipLink → ShipLink) :
    ((s.onSl o f).berth p).rg = (s.berth p).rg := by cases o <;> cases p <;> rfl

@[simp] theorem State.sy_onSl (s : State) (o p : Outlet) (f : ShipLink → ShipLink) :
    ((s.onSl o f).berth p).sy = (s.berth p).sy := by cases o <;> cases p <;> rfl

@[simp] theorem State.pr_onSl (s : State) (o p : Outlet) (f : ShipLink → ShipLink) :
    ((s.onSl o f).berth p).pr = (s.berth p).pr := by cases o <;> cases p <;> rfl

@[simp] theorem State.mt_onSl (s : State) (o p : Outlet) (f : ShipLink → ShipLink) :
    ((s.onSl o f).berth p).mt = (s.berth p).mt := by cases o <;> cases p <;> rfl

/-! ### `onMp` -/

@[simp] theorem State.berth_onMp_self (s : State) (o : Outlet) (f : OutletPool → OutletPool) :
    (s.onMp o f).berth o = { s.berth o with mp := f (s.berth o).mp } :=
  State.berth_onBerth_self _ _ _

@[simp] theorem State.berth_onMp_ne (s : State) {o p : Outlet} (f : OutletPool → OutletPool) (h : p ≠ o) :
    (s.onMp o f).berth p = s.berth p := State.berth_onBerth_ne _ _ h

@[simp] theorem State.module_onMp (s : State) (o : Outlet) (f : OutletPool → OutletPool) (m : ModuleNo) :
    (s.onMp o f).module m = s.module m := rfl

@[simp] theorem State.onMp_tb (s : State) (o : Outlet) (f : OutletPool → OutletPool) :
    (s.onMp o f).tb = s.tb := rfl

@[simp] theorem State.onMp_grid (s : State) (o : Outlet) (f : OutletPool → OutletPool) :
    (s.onMp o f).grid = s.grid := rfl

@[simp] theorem State.onMp_pool (s : State) (o : Outlet) (f : OutletPool → OutletPool) :
    (s.onMp o f).pool = s.pool := rfl

@[simp] theorem State.onMp_account (s : State) (o : Outlet) (f : OutletPool → OutletPool) :
    (s.onMp o f).account = s.account := rfl

@[simp] theorem State.onMp_metering (s : State) (o : Outlet) (f : OutletPool → OutletPool) :
    (s.onMp o f).metering = s.metering := rfl

@[simp] theorem State.onMp_gridWatch (s : State) (o : Outlet) (f : OutletPool → OutletPool) :
    (s.onMp o f).gridWatch = s.gridWatch := rfl

@[simp] theorem State.onMp_fe (s : State) (o : Outlet) (f : OutletPool → OutletPool) :
    (s.onMp o f).fe = s.fe := rfl

@[simp] theorem State.onMp_svl (s : State) (o : Outlet) (f : OutletPool → OutletPool) :
    (s.onMp o f).svl = s.svl := rfl

@[simp] theorem State.onMp_passDue (s : State) (o : Outlet) (f : OutletPool → OutletPool) :
    (s.onMp o f).passDue = s.passDue := rfl

@[simp] theorem State.onMp_pending (s : State) (o : Outlet) (f : OutletPool → OutletPool) :
    (s.onMp o f).pending = s.pending := rfl

@[simp] theorem State.sc_onMp (s : State) (o p : Outlet) (f : OutletPool → OutletPool) :
    ((s.onMp o f).berth p).sc = (s.berth p).sc := by cases o <;> cases p <;> rfl

@[simp] theorem State.lines_onMp (s : State) (o p : Outlet) (f : OutletPool → OutletPool) :
    ((s.onMp o f).berth p).lines = (s.berth p).lines := by cases o <;> cases p <;> rfl

@[simp] theorem State.mu_onMp (s : State) (o p : Outlet) (f : OutletPool → OutletPool) :
    ((s.onMp o f).berth p).mu = (s.berth p).mu := by cases o <;> cases p <;> rfl

@[simp] theorem State.rg_onMp (s : State) (o p : Outlet) (f : OutletPool → OutletPool) :
    ((s.onMp o f).berth p).rg = (s.berth p).rg := by cases o <;> cases p <;> rfl

@[simp] theorem State.sy_onMp (s : State) (o p : Outlet) (f : OutletPool → OutletPool) :
    ((s.onMp o f).berth p).sy = (s.berth p).sy := by cases o <;> cases p <;> rfl

@[simp] theorem State.pr_onMp (s : State) (o p : Outlet) (f : OutletPool → OutletPool) :
    ((s.onMp o f).berth p).pr = (s.berth p).pr := by cases o <;> cases p <;> rfl

@[simp] theorem State.sl_onMp (s : State) (o p : Outlet) (f : OutletPool → OutletPool) :
    ((s.onMp o f).berth p).sl = (s.berth p).sl := by cases o <;> cases p <;> rfl

@[simp] theorem State.mt_onMp (s : State) (o p : Outlet) (f : OutletPool → OutletPool) :
    ((s.onMp o f).berth p).mt = (s.berth p).mt := by cases o <;> cases p <;> rfl

/-! ### `onMu` -/

@[simp] theorem State.berth_onMu_self (s : State) (o : Outlet) (f : Measures → Measures) :
    (s.onMu o f).berth o = { s.berth o with mu := f (s.berth o).mu } :=
  State.berth_onBerth_self _ _ _

@[simp] theorem State.berth_onMu_ne (s : State) {o p : Outlet} (f : Measures → Measures) (h : p ≠ o) :
    (s.onMu o f).berth p = s.berth p := State.berth_onBerth_ne _ _ h

@[simp] theorem State.module_onMu (s : State) (o : Outlet) (f : Measures → Measures) (m : ModuleNo) :
    (s.onMu o f).module m = s.module m := rfl

@[simp] theorem State.onMu_tb (s : State) (o : Outlet) (f : Measures → Measures) :
    (s.onMu o f).tb = s.tb := rfl

@[simp] theorem State.onMu_grid (s : State) (o : Outlet) (f : Measures → Measures) :
    (s.onMu o f).grid = s.grid := rfl

@[simp] theorem State.onMu_pool (s : State) (o : Outlet) (f : Measures → Measures) :
    (s.onMu o f).pool = s.pool := rfl

@[simp] theorem State.onMu_account (s : State) (o : Outlet) (f : Measures → Measures) :
    (s.onMu o f).account = s.account := rfl

@[simp] theorem State.onMu_metering (s : State) (o : Outlet) (f : Measures → Measures) :
    (s.onMu o f).metering = s.metering := rfl

@[simp] theorem State.onMu_gridWatch (s : State) (o : Outlet) (f : Measures → Measures) :
    (s.onMu o f).gridWatch = s.gridWatch := rfl

@[simp] theorem State.onMu_fe (s : State) (o : Outlet) (f : Measures → Measures) :
    (s.onMu o f).fe = s.fe := rfl

@[simp] theorem State.onMu_svl (s : State) (o : Outlet) (f : Measures → Measures) :
    (s.onMu o f).svl = s.svl := rfl

@[simp] theorem State.onMu_passDue (s : State) (o : Outlet) (f : Measures → Measures) :
    (s.onMu o f).passDue = s.passDue := rfl

@[simp] theorem State.onMu_pending (s : State) (o : Outlet) (f : Measures → Measures) :
    (s.onMu o f).pending = s.pending := rfl

@[simp] theorem State.sc_onMu (s : State) (o p : Outlet) (f : Measures → Measures) :
    ((s.onMu o f).berth p).sc = (s.berth p).sc := by cases o <;> cases p <;> rfl

@[simp] theorem State.lines_onMu (s : State) (o p : Outlet) (f : Measures → Measures) :
    ((s.onMu o f).berth p).lines = (s.berth p).lines := by cases o <;> cases p <;> rfl

@[simp] theorem State.mp_onMu (s : State) (o p : Outlet) (f : Measures → Measures) :
    ((s.onMu o f).berth p).mp = (s.berth p).mp := by cases o <;> cases p <;> rfl

@[simp] theorem State.rg_onMu (s : State) (o p : Outlet) (f : Measures → Measures) :
    ((s.onMu o f).berth p).rg = (s.berth p).rg := by cases o <;> cases p <;> rfl

@[simp] theorem State.sy_onMu (s : State) (o p : Outlet) (f : Measures → Measures) :
    ((s.onMu o f).berth p).sy = (s.berth p).sy := by cases o <;> cases p <;> rfl

@[simp] theorem State.pr_onMu (s : State) (o p : Outlet) (f : Measures → Measures) :
    ((s.onMu o f).berth p).pr = (s.berth p).pr := by cases o <;> cases p <;> rfl

@[simp] theorem State.sl_onMu (s : State) (o p : Outlet) (f : Measures → Measures) :
    ((s.onMu o f).berth p).sl = (s.berth p).sl := by cases o <;> cases p <;> rfl

@[simp] theorem State.mt_onMu (s : State) (o p : Outlet) (f : Measures → Measures) :
    ((s.onMu o f).berth p).mt = (s.berth p).mt := by cases o <;> cases p <;> rfl

/-! ### `onMt` -/

@[simp] theorem State.berth_onMt_self (s : State) (o : Outlet) (f : Meter → Meter) :
    (s.onMt o f).berth o = { s.berth o with mt := (s.berth o).mt.map f } :=
  State.berth_onBerth_self _ _ _

@[simp] theorem State.berth_onMt_ne (s : State) {o p : Outlet} (f : Meter → Meter) (h : p ≠ o) :
    (s.onMt o f).berth p = s.berth p := State.berth_onBerth_ne _ _ h

@[simp] theorem State.module_onMt (s : State) (o : Outlet) (f : Meter → Meter) (m : ModuleNo) :
    (s.onMt o f).module m = s.module m := rfl

@[simp] theorem State.onMt_tb (s : State) (o : Outlet) (f : Meter → Meter) :
    (s.onMt o f).tb = s.tb := rfl

@[simp] theorem State.onMt_grid (s : State) (o : Outlet) (f : Meter → Meter) :
    (s.onMt o f).grid = s.grid := rfl

@[simp] theorem State.onMt_pool (s : State) (o : Outlet) (f : Meter → Meter) :
    (s.onMt o f).pool = s.pool := rfl

@[simp] theorem State.onMt_account (s : State) (o : Outlet) (f : Meter → Meter) :
    (s.onMt o f).account = s.account := rfl

@[simp] theorem State.onMt_metering (s : State) (o : Outlet) (f : Meter → Meter) :
    (s.onMt o f).metering = s.metering := rfl

@[simp] theorem State.onMt_gridWatch (s : State) (o : Outlet) (f : Meter → Meter) :
    (s.onMt o f).gridWatch = s.gridWatch := rfl

@[simp] theorem State.onMt_fe (s : State) (o : Outlet) (f : Meter → Meter) :
    (s.onMt o f).fe = s.fe := rfl

@[simp] theorem State.onMt_svl (s : State) (o : Outlet) (f : Meter → Meter) :
    (s.onMt o f).svl = s.svl := rfl

@[simp] theorem State.onMt_passDue (s : State) (o : Outlet) (f : Meter → Meter) :
    (s.onMt o f).passDue = s.passDue := rfl

@[simp] theorem State.onMt_pending (s : State) (o : Outlet) (f : Meter → Meter) :
    (s.onMt o f).pending = s.pending := rfl

@[simp] theorem State.sc_onMt (s : State) (o p : Outlet) (f : Meter → Meter) :
    ((s.onMt o f).berth p).sc = (s.berth p).sc := by cases o <;> cases p <;> rfl

@[simp] theorem State.lines_onMt (s : State) (o p : Outlet) (f : Meter → Meter) :
    ((s.onMt o f).berth p).lines = (s.berth p).lines := by cases o <;> cases p <;> rfl

@[simp] theorem State.mu_onMt (s : State) (o p : Outlet) (f : Meter → Meter) :
    ((s.onMt o f).berth p).mu = (s.berth p).mu := by cases o <;> cases p <;> rfl

@[simp] theorem State.mp_onMt (s : State) (o p : Outlet) (f : Meter → Meter) :
    ((s.onMt o f).berth p).mp = (s.berth p).mp := by cases o <;> cases p <;> rfl

@[simp] theorem State.rg_onMt (s : State) (o p : Outlet) (f : Meter → Meter) :
    ((s.onMt o f).berth p).rg = (s.berth p).rg := by cases o <;> cases p <;> rfl

@[simp] theorem State.sy_onMt (s : State) (o p : Outlet) (f : Meter → Meter) :
    ((s.onMt o f).berth p).sy = (s.berth p).sy := by cases o <;> cases p <;> rfl

@[simp] theorem State.pr_onMt (s : State) (o p : Outlet) (f : Meter → Meter) :
    ((s.onMt o f).berth p).pr = (s.berth p).pr := by cases o <;> cases p <;> rfl

@[simp] theorem State.sl_onMt (s : State) (o p : Outlet) (f : Meter → Meter) :
    ((s.onMt o f).berth p).sl = (s.berth p).sl := by cases o <;> cases p <;> rfl

/-! ### `onLines` -/

@[simp] theorem State.berth_onLines_self (s : State) (o : Outlet) (f : Lines → Lines) :
    (s.onLines o f).berth o = { s.berth o with lines := f (s.berth o).lines } :=
  State.berth_onBerth_self _ _ _

@[simp] theorem State.berth_onLines_ne (s : State) {o p : Outlet} (f : Lines → Lines) (h : p ≠ o) :
    (s.onLines o f).berth p = s.berth p := State.berth_onBerth_ne _ _ h

@[simp] theorem State.module_onLines (s : State) (o : Outlet) (f : Lines → Lines) (m : ModuleNo) :
    (s.onLines o f).module m = s.module m := rfl

@[simp] theorem State.onLines_tb (s : State) (o : Outlet) (f : Lines → Lines) :
    (s.onLines o f).tb = s.tb := rfl

@[simp] theorem State.onLines_grid (s : State) (o : Outlet) (f : Lines → Lines) :
    (s.onLines o f).grid = s.grid := rfl

@[simp] theorem State.onLines_pool (s : State) (o : Outlet) (f : Lines → Lines) :
    (s.onLines o f).pool = s.pool := rfl

@[simp] theorem State.onLines_account (s : State) (o : Outlet) (f : Lines → Lines) :
    (s.onLines o f).account = s.account := rfl

@[simp] theorem State.onLines_metering (s : State) (o : Outlet) (f : Lines → Lines) :
    (s.onLines o f).metering = s.metering := rfl

@[simp] theorem State.onLines_gridWatch (s : State) (o : Outlet) (f : Lines → Lines) :
    (s.onLines o f).gridWatch = s.gridWatch := rfl

@[simp] theorem State.onLines_fe (s : State) (o : Outlet) (f : Lines → Lines) :
    (s.onLines o f).fe = s.fe := rfl

@[simp] theorem State.onLines_svl (s : State) (o : Outlet) (f : Lines → Lines) :
    (s.onLines o f).svl = s.svl := rfl

@[simp] theorem State.onLines_passDue (s : State) (o : Outlet) (f : Lines → Lines) :
    (s.onLines o f).passDue = s.passDue := rfl

@[simp] theorem State.onLines_pending (s : State) (o : Outlet) (f : Lines → Lines) :
    (s.onLines o f).pending = s.pending := rfl

@[simp] theorem State.sc_onLines (s : State) (o p : Outlet) (f : Lines → Lines) :
    ((s.onLines o f).berth p).sc = (s.berth p).sc := by cases o <;> cases p <;> rfl

@[simp] theorem State.mu_onLines (s : State) (o p : Outlet) (f : Lines → Lines) :
    ((s.onLines o f).berth p).mu = (s.berth p).mu := by cases o <;> cases p <;> rfl

@[simp] theorem State.mp_onLines (s : State) (o p : Outlet) (f : Lines → Lines) :
    ((s.onLines o f).berth p).mp = (s.berth p).mp := by cases o <;> cases p <;> rfl

@[simp] theorem State.rg_onLines (s : State) (o p : Outlet) (f : Lines → Lines) :
    ((s.onLines o f).berth p).rg = (s.berth p).rg := by cases o <;> cases p <;> rfl

@[simp] theorem State.sy_onLines (s : State) (o p : Outlet) (f : Lines → Lines) :
    ((s.onLines o f).berth p).sy = (s.berth p).sy := by cases o <;> cases p <;> rfl

@[simp] theorem State.pr_onLines (s : State) (o p : Outlet) (f : Lines → Lines) :
    ((s.onLines o f).berth p).pr = (s.berth p).pr := by cases o <;> cases p <;> rfl

@[simp] theorem State.sl_onLines (s : State) (o p : Outlet) (f : Lines → Lines) :
    ((s.onLines o f).berth p).sl = (s.berth p).sl := by cases o <;> cases p <;> rfl

@[simp] theorem State.mt_onLines (s : State) (o p : Outlet) (f : Lines → Lines) :
    ((s.onLines o f).berth p).mt = (s.berth p).mt := by cases o <;> cases p <;> rfl

/-! ### Module records -/

@[simp] theorem State.module_onModule_self (s : State) (m : ModuleNo) (f : Module → Module) :
    (s.onModule m f).module m = f (s.module m) := Dozen.get_set_self _ _ _

@[simp] theorem State.module_onModule_ne (s : State) {m n : ModuleNo} (f : Module → Module)
    (h : n ≠ m) : (s.onModule m f).module n = s.module n := Dozen.get_set_ne _ _ h

@[simp] theorem State.berth_onModule (s : State) (m : ModuleNo) (f : Module → Module) (o : Outlet) :
    (s.onModule m f).berth o = s.berth o := rfl

@[simp] theorem State.onModule_unit (s : State) (m : ModuleNo) (f : Module → Module) :
    (s.onModule m f).pool.unit = s.pool.unit := rfl

@[simp] theorem State.onModule_tripHold (s : State) (m : ModuleNo) (f : Module → Module) :
    (s.onModule m f).pool.tripHold = s.pool.tripHold := rfl

@[simp] theorem State.onModule_commandFrom (s : State) (m : ModuleNo) (f : Module → Module) :
    (s.onModule m f).pool.commandFrom = s.pool.commandFrom := rfl

@[simp] theorem State.onModule_tb (s : State) (m : ModuleNo) (f : Module → Module) :
    (s.onModule m f).tb = s.tb := rfl

@[simp] theorem State.onModule_grid (s : State) (m : ModuleNo) (f : Module → Module) :
    (s.onModule m f).grid = s.grid := rfl

@[simp] theorem State.onModule_account (s : State) (m : ModuleNo) (f : Module → Module) :
    (s.onModule m f).account = s.account := rfl

@[simp] theorem State.onModule_metering (s : State) (m : ModuleNo) (f : Module → Module) :
    (s.onModule m f).metering = s.metering := rfl

@[simp] theorem State.onModule_gridWatch (s : State) (m : ModuleNo) (f : Module → Module) :
    (s.onModule m f).gridWatch = s.gridWatch := rfl

@[simp] theorem State.onModule_fe (s : State) (m : ModuleNo) (f : Module → Module) :
    (s.onModule m f).fe = s.fe := rfl

@[simp] theorem State.onModule_svl (s : State) (m : ModuleNo) (f : Module → Module) :
    (s.onModule m f).svl = s.svl := rfl

@[simp] theorem State.onModule_berths (s : State) (m : ModuleNo) (f : Module → Module) :
    (s.onModule m f).berths = s.berths := rfl

@[simp] theorem State.onModule_passDue (s : State) (m : ModuleNo) (f : Module → Module) :
    (s.onModule m f).passDue = s.passDue := rfl

@[simp] theorem State.onModule_pending (s : State) (m : ModuleNo) (f : Module → Module) :
    (s.onModule m f).pending = s.pending := rfl

@[simp] theorem State.module_changeModule_self (s : State) (m : ModuleNo) (f : Module → Module) :
    (s.changeModule m f).module m = f (s.module m) := Dozen.get_set_self _ _ _

@[simp] theorem State.module_changeModule_ne (s : State) {m n : ModuleNo} (f : Module → Module)
    (h : n ≠ m) : (s.changeModule m f).module n = s.module n := Dozen.get_set_ne _ _ h

@[simp] theorem State.berth_changeModule (s : State) (m : ModuleNo) (f : Module → Module) (o : Outlet) :
    (s.changeModule m f).berth o = s.berth o := rfl

@[simp] theorem State.changeModule_unit (s : State) (m : ModuleNo) (f : Module → Module) :
    (s.changeModule m f).pool.unit = s.pool.unit := rfl

@[simp] theorem State.changeModule_tripHold (s : State) (m : ModuleNo) (f : Module → Module) :
    (s.changeModule m f).pool.tripHold = s.pool.tripHold := rfl

@[simp] theorem State.changeModule_commandFrom (s : State) (m : ModuleNo) (f : Module → Module) :
    (s.changeModule m f).pool.commandFrom = s.pool.commandFrom := rfl

@[simp] theorem State.changeModule_tb (s : State) (m : ModuleNo) (f : Module → Module) :
    (s.changeModule m f).tb = s.tb := rfl

@[simp] theorem State.changeModule_grid (s : State) (m : ModuleNo) (f : Module → Module) :
    (s.changeModule m f).grid = s.grid := rfl

@[simp] theorem State.changeModule_account (s : State) (m : ModuleNo) (f : Module → Module) :
    (s.changeModule m f).account = s.account := rfl

@[simp] theorem State.changeModule_metering (s : State) (m : ModuleNo) (f : Module → Module) :
    (s.changeModule m f).metering = s.metering := rfl

@[simp] theorem State.changeModule_gridWatch (s : State) (m : ModuleNo) (f : Module → Module) :
    (s.changeModule m f).gridWatch = s.gridWatch := rfl

@[simp] theorem State.changeModule_fe (s : State) (m : ModuleNo) (f : Module → Module) :
    (s.changeModule m f).fe = s.fe := rfl

@[simp] theorem State.changeModule_svl (s : State) (m : ModuleNo) (f : Module → Module) :
    (s.changeModule m f).svl = s.svl := rfl

@[simp] theorem State.changeModule_berths (s : State) (m : ModuleNo) (f : Module → Module) :
    (s.changeModule m f).berths = s.berths := rfl

@[simp] theorem State.changeModule_passDue (s : State) (m : ModuleNo) (f : Module → Module) :
    (s.changeModule m f).passDue = true := rfl

@[simp] theorem State.changeModule_pending (s : State) (m : ModuleNo) (f : Module → Module) :
    (s.changeModule m f).pending = s.pending := rfl

/-! ### Reports -/

@[simp] theorem State.raise_tb (s : State) (k : FaultKind) (src : Source) (d : Option Nat) :
    (s.raise k src d).tb = s.tb := rfl

@[simp] theorem State.raise_grid (s : State) (k : FaultKind) (src : Source) (d : Option Nat) :
    (s.raise k src d).grid = s.grid := rfl

@[simp] theorem State.raise_pool (s : State) (k : FaultKind) (src : Source) (d : Option Nat) :
    (s.raise k src d).pool = s.pool := rfl

@[simp] theorem State.raise_account (s : State) (k : FaultKind) (src : Source) (d : Option Nat) :
    (s.raise k src d).account = s.account := rfl

@[simp] theorem State.raise_metering (s : State) (k : FaultKind) (src : Source) (d : Option Nat) :
    (s.raise k src d).metering = s.metering := rfl

@[simp] theorem State.raise_gridWatch (s : State) (k : FaultKind) (src : Source) (d : Option Nat) :
    (s.raise k src d).gridWatch = s.gridWatch := rfl

@[simp] theorem State.raise_svl (s : State) (k : FaultKind) (src : Source) (d : Option Nat) :
    (s.raise k src d).svl = s.svl := rfl

@[simp] theorem State.raise_berths (s : State) (k : FaultKind) (src : Source) (d : Option Nat) :
    (s.raise k src d).berths = s.berths := rfl

@[simp] theorem State.raise_passDue (s : State) (k : FaultKind) (src : Source) (d : Option Nat) :
    (s.raise k src d).passDue = s.passDue := rfl

@[simp] theorem State.raise_pending (s : State) (k : FaultKind) (src : Source) (d : Option Nat) :
    (s.raise k src d).pending = s.pending := rfl

@[simp] theorem State.berth_raise (s : State) (k : FaultKind) (src : Source) (d : Option Nat) (o : Outlet) :
    (s.raise k src d).berth o = s.berth o := rfl

@[simp] theorem State.module_raise (s : State) (k : FaultKind) (src : Source) (d : Option Nat) (m : ModuleNo) :
    (s.raise k src d).module m = s.module m := rfl

@[simp] theorem State.report_tb (s : State) (k : EventKind) (src : Source) (d : Option Nat) :
    (s.report k src d).tb = s.tb := rfl

@[simp] theorem State.report_grid (s : State) (k : EventKind) (src : Source) (d : Option Nat) :
    (s.report k src d).grid = s.grid := rfl

@[simp] theorem State.report_pool (s : State) (k : EventKind) (src : Source) (d : Option Nat) :
    (s.report k src d).pool = s.pool := rfl

@[simp] theorem State.report_account (s : State) (k : EventKind) (src : Source) (d : Option Nat) :
    (s.report k src d).account = s.account := rfl

@[simp] theorem State.report_metering (s : State) (k : EventKind) (src : Source) (d : Option Nat) :
    (s.report k src d).metering = s.metering := rfl

@[simp] theorem State.report_gridWatch (s : State) (k : EventKind) (src : Source) (d : Option Nat) :
    (s.report k src d).gridWatch = s.gridWatch := rfl

@[simp] theorem State.report_svl (s : State) (k : EventKind) (src : Source) (d : Option Nat) :
    (s.report k src d).svl = s.svl := rfl

@[simp] theorem State.report_berths (s : State) (k : EventKind) (src : Source) (d : Option Nat) :
    (s.report k src d).berths = s.berths := rfl

@[simp] theorem State.report_passDue (s : State) (k : EventKind) (src : Source) (d : Option Nat) :
    (s.report k src d).passDue = s.passDue := rfl

@[simp] theorem State.report_pending (s : State) (k : EventKind) (src : Source) (d : Option Nat) :
    (s.report k src d).pending = s.pending := rfl

@[simp] theorem State.berth_report (s : State) (k : EventKind) (src : Source) (d : Option Nat) (o : Outlet) :
    (s.report k src d).berth o = s.berth o := rfl

@[simp] theorem State.module_report (s : State) (k : EventKind) (src : Source) (d : Option Nat) (m : ModuleNo) :
    (s.report k src d).module m = s.module m := rfl

@[simp] theorem State.reportState_tb (s : State) (o : Outlet) (new : OutletState) :
    (s.reportState o new).tb = s.tb := by unfold State.reportState; split <;> rfl

@[simp] theorem State.reportState_grid (s : State) (o : Outlet) (new : OutletState) :
    (s.reportState o new).grid = s.grid := by unfold State.reportState; split <;> rfl

@[simp] theorem State.reportState_pool (s : State) (o : Outlet) (new : OutletState) :
    (s.reportState o new).pool = s.pool := by unfold State.reportState; split <;> rfl

@[simp] theorem State.reportState_account (s : State) (o : Outlet) (new : OutletState) :
    (s.reportState o new).account = s.account := by unfold State.reportState; split <;> rfl

@[simp] theorem State.reportState_metering (s : State) (o : Outlet) (new : OutletState) :
    (s.reportState o new).metering = s.metering := by unfold State.reportState; split <;> rfl

@[simp] theorem State.reportState_gridWatch (s : State) (o : Outlet) (new : OutletState) :
    (s.reportState o new).gridWatch = s.gridWatch := by unfold State.reportState; split <;> rfl

@[simp] theorem State.reportState_svl (s : State) (o : Outlet) (new : OutletState) :
    (s.reportState o new).svl = s.svl := by unfold State.reportState; split <;> rfl

@[simp] theorem State.reportState_berths (s : State) (o : Outlet) (new : OutletState) :
    (s.reportState o new).berths = s.berths := by unfold State.reportState; split <;> rfl

@[simp] theorem State.reportState_passDue (s : State) (o : Outlet) (new : OutletState) :
    (s.reportState o new).passDue = s.passDue := by unfold State.reportState; split <;> rfl

@[simp] theorem State.reportState_pending (s : State) (o : Outlet) (new : OutletState) :
    (s.reportState o new).pending = s.pending := by unfold State.reportState; split <;> rfl

@[simp] theorem State.berth_reportState (s : State) (o p : Outlet) (new : OutletState) :
    (s.reportState o new).berth p = s.berth p := by unfold State.reportState; split <;> rfl

@[simp] theorem State.module_reportState (s : State) (o : Outlet) (new : OutletState) (m : ModuleNo) :
    (s.reportState o new).module m = s.module m := by unfold State.reportState; split <;> rfl

end Sys2Proof.Machine
end

