-- ==== Sys2Proof/Laws/Pool.lean ====
section
/-! SUPPORT. What the operations of the module pool can do: they change module records, the pre-charge
unit, the outlets' parts of the pool and the call for an evaluation pass, and nothing else. -/

namespace Sys2Proof.Machine

open Sys2Proof

/-! ### Berths that agree but for the pool -/

theorem SameButPool.refl (b : Berth) : SameButPool b b := ⟨rfl, rfl, rfl, rfl, rfl, rfl, rfl, rfl⟩

theorem SameButPool.trans {a b c : Berth} (h : SameButPool a b) (g : SameButPool b c) :
    SameButPool a c :=
  ⟨g.sc.trans h.sc, g.lines.trans h.lines, g.mu.trans h.mu, g.rg.trans h.rg, g.sy.trans h.sy,
    g.pr.trans h.pr, g.sl.trans h.sl, g.mt.trans h.mt⟩

/-- The same berth with another part of the pool. -/
theorem SameButPool.eq {b c : Berth} (h : SameButPool b c) : c = { b with mp := c.mp } := by
  cases b; cases c
  obtain ⟨h1, h2, h3, h4, h5, h6, h7, h8⟩ := h
  simp_all

/-- What an operation of the pool may change. -/
structure PoolOnly (s t : State) : Prop where
  rest : t = { s with
    pool := { s.pool with modules := t.pool.modules, unit := t.pool.unit }
    berths := t.berths, passDue := t.passDue }
  berth : ∀ p, SameButPool (s.berth p) (t.berth p)

theorem PoolOnly.refl (s : State) : PoolOnly s s := ⟨rfl, fun _ => SameButPool.refl _⟩

theorem PoolOnly.trans {s t u : State} (h : PoolOnly s t) (g : PoolOnly t u) : PoolOnly s u := by
  refine ⟨?_, fun p => (h.berth p).trans (g.berth p)⟩
  have hr := h.rest
  have gr := g.rest
  rw [hr] at gr
  exact gr

theorem PoolOnly.onMp (s : State) (o : Outlet) (f : OutletPool → OutletPool) :
    PoolOnly s (s.onMp o f) := by
  refine ⟨rfl, fun p => ?_⟩
  by_cases h : p = o
  · subst h; rw [State.berth_onMp_self]; exact ⟨rfl, rfl, rfl, rfl, rfl, rfl, rfl, rfl⟩
  · rw [State.berth_onMp_ne _ _ h]; exact SameButPool.refl _

theorem PoolOnly.onModule (s : State) (m : ModuleNo) (f : Module → Module) :
    PoolOnly s (s.onModule m f) := ⟨rfl, fun _ => SameButPool.refl _⟩

theorem PoolOnly.changeModule (s : State) (m : ModuleNo) (f : Module → Module) :
    PoolOnly s (s.changeModule m f) := ⟨rfl, fun _ => SameButPool.refl _⟩

theorem PoolOnly.withUnit (s : State) (u : Option Serving) :
    PoolOnly s { s with pool := { s.pool with unit := u } } := ⟨rfl, fun _ => SameButPool.refl _⟩

/-- A fold of operations that each change the pool alone changes the pool alone. -/
theorem PoolOnly.foldl {α : Type} (f : State → α → State) (h : ∀ s a, PoolOnly s (f s a))
    (l : List α) (s : State) : PoolOnly s (l.foldl f s) := by
  induction l generalizing s with
  | nil => exact .refl s
  | cons a l ih => exact (h s a).trans (ih (f s a))

/-! ### The operations -/

theorem State.tidyWatches_poolOnly (s : State) (o : Outlet) : PoolOnly s (s.tidyWatches o) := by
  unfold State.tidyWatches
  exact (PoolOnly.onMp _ _ _).trans (.onMp _ _ _)

theorem State.judgeNeed_poolOnly (s : State) (o : Outlet) : PoolOnly s (s.judgeNeed o) := by
  unfold State.judgeNeed
  refine PoolOnly.trans ?_ (State.tidyWatches_poolOnly _ _)
  split
  · exact .onMp _ _ _
  · split
    · split
      · exact .onMp _ _ _
      · split
        · exact .onMp _ _ _
        · exact .refl s
    · exact .onMp _ _ _

theorem State.startModule_poolOnly (s : State) (m : ModuleNo) (o : Outlet) (e : PendingEntry) :
    PoolOnly s (s.startModule m o e) := (PoolOnly.changeModule _ _ _).trans (.withUnit _ _)

theorem State.arbitrate_poolOnly (s : State) : PoolOnly s s.arbitrate := by
  unfold State.arbitrate
  split
  · split
    · exact .refl s
    · exact ((PoolOnly.onMp _ _ _).trans (State.startModule_poolOnly _ _ _ _)).trans
        (State.judgeNeed_poolOnly _ _)
  · exact .refl s

theorem State.servePool_poolOnly (s : State) (o : Outlet) : PoolOnly s (s.servePool o) :=
  (State.judgeNeed_poolOnly s o).trans (State.arbitrate_poolOnly _)

theorem State.freeUnit_poolOnly (s : State) : PoolOnly s s.freeUnit := PoolOnly.withUnit _ _

theorem State.changeModulesAt_poolOnly (s : State) (o : Outlet) (states : List ModuleState)
    (f : Module → Module) : PoolOnly s (s.changeModulesAt o states f) :=
  PoolOnly.foldl _ (fun _ _ => .changeModule _ _ _) _ _

theorem State.endStarts_poolOnly (s : State) (o : Outlet) : PoolOnly s (s.endStarts o) :=
  (State.changeModulesAt_poolOnly _ _ _ _).trans (.withUnit _ _)

theorem State.stopModules_poolOnly (s : State) (o : Outlet) (states : List ModuleState) :
    PoolOnly s (s.stopModules o states) := State.changeModulesAt_poolOnly _ _ _ _

theorem State.holdModules_poolOnly (s : State) (o : Outlet) : PoolOnly s (s.holdModules o) := by
  unfold State.holdModules
  dsimp only
  split
  · exact ((State.changeModulesAt_poolOnly _ _ _ _).trans (State.stopModules_poolOnly _ _ _)).trans
      (.onMp _ _ _)
  · exact (State.changeModulesAt_poolOnly _ _ _ _).trans (.onMp _ _ _)

theorem State.rejoinModules_poolOnly (s : State) (o : Outlet) : PoolOnly s (s.rejoinModules o) := by
  unfold State.rejoinModules
  split
  · exact State.changeModulesAt_poolOnly _ _ _ _
  · exact .refl s

theorem State.poolTakesState_poolOnly (s : State) (o : Outlet) (old new : OutletState) :
    PoolOnly s (s.poolTakesState o old new) := by
  unfold State.poolTakesState
  refine PoolOnly.trans ?_ (State.servePool_poolOnly _ _)
  refine PoolOnly.trans (t := if new.requests then s else s.endStarts o) ?_ ?_
  · split
    · exact .refl s
    · exact State.endStarts_poolOnly _ _
  generalize (if new.requests then s else s.endStarts o) = s1
  have key : ∀ s2, PoolOnly s1 s2 →
      PoolOnly s1 (if old = OutletState.tripped then s2.onMp o fun p => { p with hold := none }
        else s2) := by
    intro s2 h
    split
    · exact h.trans (.onMp _ _ _)
    · exact h
  apply key
  split
  · exact State.holdModules_poolOnly _ _
  · exact State.stopModules_poolOnly _ _ _
  · split
    · exact State.rejoinModules_poolOnly _ _
    · exact .refl s1
  all_goals exact .refl s1

theorem State.shareLoad_poolOnly (s : State) (o : Outlet) (r : PowerRecord) :
    PoolOnly s (s.shareLoad o r) := PoolOnly.foldl _ (fun _ _ => .onModule _ _ _) _ _

theorem State.beginVoluntary_poolOnly (s : State) (o : Outlet) (m : ModuleNo) :
    PoolOnly s (s.beginVoluntary o m) := (PoolOnly.changeModule _ _ _).trans (.onMp _ _ _)

theorem State.judgeWatches_poolOnly (s : State) (o : Outlet) (apparent : Nat) :
    PoolOnly s (s.judgeWatches o apparent) := by
  unfold State.judgeWatches
  exact .onMp _ _ _

end Sys2Proof.Machine
end

