-- ==== Sys2Proof/Laws/PoolModules.lean ====
section
/-! SUPPORT. What the operations of the module pool do to a module's record, and to the figures that are
summed over the modules. -/

namespace Sys2Proof.Machine

open Sys2Proof

/-! ### Changes of several modules -/

/-- A fold of module changes over a list without repeats changes each module of the list once. -/
theorem State.module_foldl_changeModule (f : Module → Module) (l : List ModuleNo) (hl : l.Nodup)
    (s : State) (n : ModuleNo) :
    (l.foldl (fun t m => t.changeModule m f) s).module n
      = if n ∈ l then f (s.module n) else s.module n := by
  induction l generalizing s with
  | nil => rfl
  | cons a l ih =>
    rw [List.nodup_cons] at hl
    rw [List.foldl_cons, ih hl.2]
    by_cases h : n = a
    · subst h; simp [hl.1]
    · simp [h]

/-- The same for changes that call for no pass. -/
theorem State.module_foldl_onModule (f : Module → Module) (l : List ModuleNo) (hl : l.Nodup)
    (s : State) (n : ModuleNo) :
    (l.foldl (fun t m => t.onModule m f) s).module n
      = if n ∈ l then f (s.module n) else s.module n := by
  induction l generalizing s with
  | nil => rfl
  | cons a l ih =>
    rw [List.nodup_cons] at hl
    rw [List.foldl_cons, ih hl.2]
    by_cases h : n = a
    · subst h; simp [hl.1]
    · simp [h]

theorem ModuleNo.all_nodup : ModuleNo.all.Nodup := by decide

theorem Pool.which_nodup (p : Pool) (f : Module → Bool) : (p.which f).Nodup :=
  ModuleNo.all_nodup.filter _

@[simp] theorem Pool.mem_which (p : Pool) (f : Module → Bool) (m : ModuleNo) :
    m ∈ p.which f ↔ f (p.modules.get m) = true := by
  simp [Pool.which]

/-- A change of the modules of an outlet in some states. -/
theorem State.module_changeModulesAt (s : State) (o : Outlet) (states : List ModuleState)
    (f : Module → Module) (n : ModuleNo) :
    (s.changeModulesAt o states f).module n
      = if (s.module n).assignedTo o && states.contains (s.module n).state then f (s.module n)
        else s.module n := by
  unfold State.changeModulesAt
  rw [State.module_foldl_changeModule _ _ (Pool.which_nodup _ _)]
  simp only [Pool.mem_which]
  rfl

@[simp] theorem State.module_endStarts (s : State) (o : Outlet) (n : ModuleNo) :
    (s.endStarts o).module n
      = if (s.module n).assignedTo o && [ModuleState.starting].contains (s.module n).state then
          (s.module n).endStart s.tb.run
        else s.module n := State.module_changeModulesAt _ _ _ _ _

@[simp] theorem State.module_stopModules (s : State) (o : Outlet) (states : List ModuleState)
    (n : ModuleNo) :
    (s.stopModules o states).module n
      = if (s.module n).assignedTo o && states.contains (s.module n).state then
          (s.module n).beginStop s.tb.run
        else s.module n := State.module_changeModulesAt _ _ _ _ _

/-- The module pool's clock. -/
theorem PoolOnly.tb {s t : State} (h : PoolOnly s t) : t.tb = s.tb := by rw [h.rest]

theorem PoolOnly.fe {s t : State} (h : PoolOnly s t) : t.fe = s.fe := by rw [h.rest]

theorem PoolOnly.account {s t : State} (h : PoolOnly s t) : t.account = s.account := by rw [h.rest]

theorem PoolOnly.metering {s t : State} (h : PoolOnly s t) : t.metering = s.metering := by
  rw [h.rest]

theorem PoolOnly.svl {s t : State} (h : PoolOnly s t) : t.svl = s.svl := by rw [h.rest]

theorem PoolOnly.grid {s t : State} (h : PoolOnly s t) : t.grid = s.grid := by rw [h.rest]

theorem PoolOnly.gridWatch {s t : State} (h : PoolOnly s t) : t.gridWatch = s.gridWatch := by
  rw [h.rest]

theorem PoolOnly.pending {s t : State} (h : PoolOnly s t) : t.pending = s.pending := by rw [h.rest]

theorem PoolOnly.tripHold {s t : State} (h : PoolOnly s t) :
    t.pool.tripHold = s.pool.tripHold := by rw [h.rest]

theorem PoolOnly.commandFrom {s t : State} (h : PoolOnly s t) :
    t.pool.commandFrom = s.pool.commandFrom := by rw [h.rest]

/-! ### Judging needs and arbitration -/

@[simp] theorem State.tidyWatches_pool (s : State) (o : Outlet) : (s.tidyWatches o).pool = s.pool :=
  rfl

@[simp] theorem State.tidyWatches_passDue (s : State) (o : Outlet) :
    (s.tidyWatches o).passDue = s.passDue := rfl

@[simp] theorem State.judgeNeed_pool (s : State) (o : Outlet) : (s.judgeNeed o).pool = s.pool := by
  unfold State.judgeNeed
  rw [State.tidyWatches_pool]
  split
  · rfl
  · split
    · split
      · rfl
      · split <;> rfl
    · rfl

@[simp] theorem State.judgeNeed_passDue (s : State) (o : Outlet) :
    (s.judgeNeed o).passDue = s.passDue := by
  unfold State.judgeNeed
  rw [State.tidyWatches_passDue]
  split
  · rfl
  · split
    · split
      · rfl
      · split <;> rfl
    · rfl

@[simp] theorem State.module_judgeNeed (s : State) (o : Outlet) (m : ModuleNo) :
    (s.judgeNeed o).module m = s.module m := by
  unfold State.module; rw [State.judgeNeed_pool]

/-- A module picked from a list is of the list. -/
theorem State.pickModule_mem (s : State) (better : Nat → Nat → Bool) (l : List ModuleNo)
    (m : ModuleNo) (h : s.pickModule better l = some m) : m ∈ l := by
  induction l generalizing m with
  | nil => simp [State.pickModule] at h
  | cons a l ih =>
    unfold State.pickModule at h
    split at h
    · cases h; exact List.mem_cons_self
    · rename_i m' hm'
      split at h
      · cases h; exact List.mem_cons_of_mem _ (ih _ hm')
      · cases h; exact List.mem_cons_self

/-- R35: a module chosen for a start is IDLE. -/
theorem State.chooseModule_idle (s : State) (deficit : Nat) (m : ModuleNo)
    (h : s.chooseModule deficit = some m) : (s.module m).state = .idle := by
  have hm : m ∈ s.idleModules := by
    unfold State.chooseModule at h
    dsimp only at h
    split at h
    · exact s.pickModule_mem _ _ _ h
    · exact List.mem_of_mem_filter (s.pickModule_mem _ _ _ h)
  simpa [State.idleModules, State.module] using hm

@[simp] theorem State.module_startModule_self (s : State) (m : ModuleNo) (o : Outlet)
    (e : PendingEntry) :
    (s.startModule m o e).module m = (s.module m).begin o (s.formsBus o) :=
  s.module_changeModule_self m fun r => r.begin o (s.formsBus o)

@[simp] theorem State.module_startModule_ne (s : State) {m n : ModuleNo} (o : Outlet)
    (e : PendingEntry) (h : n ≠ m) : (s.startModule m o e).module n = s.module n :=
  s.module_changeModule_ne (fun r => r.begin o (s.formsBus o)) h

/-- R24, R34: arbitration leaves each module as it was, or begins the start of an IDLE one. -/
theorem State.module_arbitrate (s : State) (n : ModuleNo) :
    s.arbitrate.module n = s.module n
      ∨ ((s.module n).state = .idle
          ∧ ∃ o forms, s.arbitrate.module n = (s.module n).begin o forms) := by
  unfold State.arbitrate
  split
  · rename_i o e _ _
    split
    · exact .inl rfl
    · rename_i m hm
      rw [State.module_judgeNeed]
      by_cases h : n = m
      · subst h
        refine .inr ⟨s.chooseModule_idle _ _ hm, o, _, State.module_startModule_self _ _ _ _⟩
      · exact .inl (by rw [State.module_startModule_ne _ _ _ h]; rfl)
  · exact .inl rfl

/-- Arbitration leaves a module that is not IDLE as it was. -/
theorem State.module_arbitrate_of_ne_idle (s : State) (n : ModuleNo) (h : (s.module n).state ≠ .idle) :
    s.arbitrate.module n = s.module n :=
  (s.module_arbitrate n).resolve_right fun g => h g.1

theorem State.module_servePool (s : State) (o : Outlet) (n : ModuleNo) :
    (s.servePool o).module n = s.module n
      ∨ ((s.module n).state = .idle
          ∧ ∃ p forms, (s.servePool o).module n = (s.module n).begin p forms) := by
  have := (s.judgeNeed o).module_arbitrate n
  rwa [State.module_judgeNeed] at this

theorem State.module_servePool_of_ne_idle (s : State) (o : Outlet) (n : ModuleNo)
    (h : (s.module n).state ≠ .idle) : (s.servePool o).module n = s.module n :=
  (s.module_servePool o n).resolve_right fun g => h g.1

/-! ### Figures -/

/-- A sum over the modules rests on each module's term alone. -/
theorem Pool.sum_congr (p q : Pool) (f : Module → Nat)
    (h : ∀ m, f (p.modules.get m) = f (q.modules.get m)) : p.sum f = q.sum f := by
  have e : ∀ r : Pool, r.modules.toList = ModuleNo.all.map r.modules.get := fun r => rfl
  unfold Pool.sum
  rw [e, e, List.map_map, List.map_map]
  congr 1
  exact List.map_congr_left fun m _ => h m

/-- R23: an outlet's capacity rests on its RUNNING modules alone. -/
theorem State.capacity_congr (s t : State) (o : Outlet)
    (h : ∀ m, (if (s.module m).inStateAt .running o then (s.module m).effective else 0)
      = if (t.module m).inStateAt .running o then (t.module m).effective else 0) :
    s.capacity o = t.capacity o := Pool.sum_congr _ _ _ h

/-- Modules that are the same give the same capacity. -/
theorem State.capacity_eq_of_modules (s t : State) (o : Outlet)
    (h : ∀ m, s.module m = t.module m) : s.capacity o = t.capacity o :=
  State.capacity_congr s t o fun m => by rw [h m]

@[simp] theorem State.capacity_judgeNeed (s : State) (o p : Outlet) :
    (s.judgeNeed o).capacity p = s.capacity p :=
  State.capacity_eq_of_modules _ _ _ fun m => s.module_judgeNeed o m

/-- A start begun brings no capacity. -/
@[simp] theorem State.capacity_arbitrate (s : State) (p : Outlet) :
    s.arbitrate.capacity p = s.capacity p := by
  refine State.capacity_congr _ _ _ fun m => ?_
  rcases s.module_arbitrate m with h | ⟨h, o, forms, g⟩
  · rw [h]
  · rw [g]
    simp [Module.inStateAt, Module.begin, h]

@[simp] theorem State.capacity_servePool (s : State) (o p : Outlet) :
    (s.servePool o).capacity p = s.capacity p := by
  unfold State.servePool; rw [State.capacity_arbitrate, State.capacity_judgeNeed]

end Sys2Proof.Machine
end

