-- ==== Sys2Proof/Laws/Acts.lean ====
section
/-! SUPPORT. What the shared operations can do, said once: each is a sequence of updates within a scope
(`Acts`), and the frames of Safety.lean follow from the scope. -/

namespace Sys2Proof.Machine

open Sys2Proof

/-- The scope of a sequence of updates: the outlets and the modules it handles, whether it may put an
outlet into AWAIT_AUTH, whether it may store billing records, and the fault kinds it may raise. -/
structure Scope where
  outlets : List Outlet
  modules : List ModuleNo
  connects : Bool
  bills : Bool
  kinds : List FaultKind

/-- A sequence of updates within a scope. An outlet that waits may be handled whatever the scope. -/
inductive Acts : Scope → State → State → Prop where
  | refl (x : Scope) (s : State) : Acts x s s
  | trans {x : Scope} {s t u : State} : Acts x s t → Acts x t u → Acts x s u
  | onBerth (x : Scope) (s : State) (o : Outlet) (f : Berth → Berth) (touched : o ∈ x.outlets)
      (connects : x.connects = false → (f (s.berth o)).sc.state = .awaitAuth → s.waits o = true)
      (inputs : SameInputs (s.berth o) (f (s.berth o))) : Acts x s (s.onBerth o f)
  | onMp (x : Scope) (s : State) (o : Outlet) (f : OutletPool → OutletPool) : Acts x s (s.onMp o f)
  | onModule (x : Scope) (s : State) (m : ModuleNo) (f : Module → Module)
      (touched : m ∈ x.modules ∨ (s.module m).state = .idle
        ∨ ∃ o, (s.module m).outlet = some o ∧ o ∈ x.outlets) : Acts x s (s.onModule m f)
  | setUnit (x : Scope) (s : State) (u : Option Serving) :
      Acts x s { s with pool := { s.pool with unit := u } }
  | setPass (x : Scope) (s : State) (due : Bool) : Acts x s { s with passDue := due }
  | raise (x : Scope) (s : State) (k : FaultKind) (src : Source) (d : Option Nat) (h : k ∈ x.kinds) :
      Acts x s (s.raise k src d)
  | report (x : Scope) (s : State) (k : EventKind) (src : Source) (d : Option Nat) :
      Acts x s (s.report k src d)
  | append (x : Scope) (s : State) (r : BillingRecord) (armed : Bool) (h : x.bills = true) :
      Acts x s { s with metering := { s.metering with
        queue := s.metering.queue ++ [r], sequence := s.metering.sequence + 1
        lowArmed := armed } }
  | takePlace (x : Scope) (s : State) (o : Outlet) (places : List (Option AuthEntry)) (n : Nat)
      (waits : s.waits o = true) :
      Acts x s { s with account := { s.account with places, sessionCounter := n } }
  | wait {x : Scope} {s t : State} (o : Outlet) (waits : s.waits o = true) :
      Acts { x with outlets := o :: x.outlets } s t → Acts x s t

/-- A scope within another. -/
structure Scope.Le (x y : Scope) : Prop where
  outlets : ∀ o ∈ x.outlets, o ∈ y.outlets
  modules : ∀ m ∈ x.modules, m ∈ y.modules
  connects : y.connects = false → x.connects = false
  bills : x.bills = true → y.bills = true
  kinds : ∀ k ∈ x.kinds, k ∈ y.kinds

/-- Updates within a scope are within a greater one. -/
theorem Acts.mono {x y : Scope} {s t : State} (h : Acts x s t) (le : x.Le y) : Acts y s t := by
  induction h generalizing y with
  | refl => exact .refl _ _
  | trans _ _ ih1 ih2 => exact (ih1 le).trans (ih2 le)
  | onBerth x s o f touched connects inputs =>
    exact .onBerth _ _ _ _ (le.outlets _ touched) (fun h => connects (le.connects h)) inputs
  | onMp => exact .onMp _ _ _ _
  | onModule x s m f touched =>
    refine .onModule _ _ _ _ ?_
    rcases touched with h | h | ⟨o, h, g⟩
    · exact .inl (le.modules _ h)
    · exact .inr (.inl h)
    · exact .inr (.inr ⟨o, h, le.outlets _ g⟩)
  | setUnit => exact .setUnit _ _ _
  | setPass => exact .setPass _ _ _
  | raise x s k src d h => exact .raise _ _ _ _ _ (le.kinds _ h)
  | report => exact .report _ _ _ _ _
  | append x s r armed h => exact .append _ _ _ _ (le.bills h)
  | takePlace x s o places n w => exact .takePlace _ _ _ _ _ w
  | wait o w _ ih =>
    refine .wait o w (ih ⟨?_, le.modules, le.connects, le.bills, le.kinds⟩)
    intro p hp
    rcases List.mem_cons.mp hp with h | h
    · exact h ▸ List.mem_cons_self
    · exact List.mem_cons_of_mem _ (le.outlets _ h)

/-- A fold of updates within a scope. -/
theorem Acts.foldl {α : Type} {x : Scope} (f : State → α → State) (l : List α)
    (h : ∀ s, ∀ a ∈ l, Acts x s (f s a)) (s : State) : Acts x s (l.foldl f s) := by
  induction l generalizing s with
  | nil => exact .refl _ _
  | cons a l ih =>
    exact (h s a List.mem_cons_self).trans (ih (fun t b hb => h t b (List.mem_cons_of_mem _ hb)) _)

/-! ### What follows from a scope -/

theorem SameStation.refl (s : State) : SameStation s s := by constructor <;> rfl

theorem SameStation.trans {s t u : State} (h : SameStation s t) (g : SameStation t u) :
    SameStation s u := by
  constructor
  · exact g.tb.trans h.tb
  · exact g.grid.trans h.grid
  · exact g.gridWatch.trans h.gridWatch
  · exact g.svl.trans h.svl
  · exact g.pending.trans h.pending
  · exact g.tripHold.trans h.tripHold
  · exact g.commandFrom.trans h.commandFrom
  · exact g.limit.trans h.limit
  · exact g.headroom.trans h.headroom
  · exact g.importFrom.trans h.importFrom
  · exact g.importReported.trans h.importReported
  · exact g.length.trans h.length
  · exact g.rounding.trans h.rounding
  · exact g.bands.trans h.bands
  · exact g.enables.trans h.enables
  · exact g.outletEvents.trans h.outletEvents
  · exact g.reportOff.trans h.reportOff

theorem FaultUnit.offer_flags (u : FaultUnit) (e : EventRecord) : (u.offer e).flags = u.flags := by
  unfold FaultUnit.offer; split <;> rfl

theorem FaultUnit.offer_sinceClear (u : FaultUnit) (e : EventRecord) :
    (u.offer e).sinceClear = u.sinceClear := by unfold FaultUnit.offer; split <;> rfl

theorem FaultUnit.offer_capture (u : FaultUnit) (e : EventRecord) :
    (u.offer e).capture = u.capture := by unfold FaultUnit.offer; split <;> rfl

theorem FaultUnit.offer_enables (u : FaultUnit) (e : EventRecord) :
    (u.offer e).enables = u.enables := by unfold FaultUnit.offer; split <;> rfl

theorem FaultUnit.offer_outletEvents (u : FaultUnit) (e : EventRecord) :
    (u.offer e).outletEvents = u.outletEvents := by unfold FaultUnit.offer; split <;> rfl

theorem FaultUnit.offer_reportOff (u : FaultUnit) (e : EventRecord) :
    (u.offer e).reportOff = u.reportOff := by unfold FaultUnit.offer; split <;> rfl

theorem FaultUnit.take_flags (u : FaultUnit) (k : FaultKind) (e : EventRecord) :
    (u.take k e).flags = u.flags ||| k.bit := by
  unfold FaultUnit.take; dsimp only; split
  · exact FaultUnit.offer_flags _ _
  · rfl

theorem FaultUnit.take_sinceClear (u : FaultUnit) (k : FaultKind) (e : EventRecord) :
    (u.take k e).sinceClear = true := by
  unfold FaultUnit.take; dsimp only; split
  · exact FaultUnit.offer_sinceClear _ _
  · rfl

theorem FaultUnit.take_enables (u : FaultUnit) (k : FaultKind) (e : EventRecord) :
    (u.take k e).enables = u.enables := by
  unfold FaultUnit.take; dsimp only; split
  · exact FaultUnit.offer_enables _ _
  · rfl

theorem FaultUnit.take_outletEvents (u : FaultUnit) (k : FaultKind) (e : EventRecord) :
    (u.take k e).outletEvents = u.outletEvents := by
  unfold FaultUnit.take; dsimp only; split
  · exact FaultUnit.offer_outletEvents _ _
  · rfl

theorem FaultUnit.take_reportOff (u : FaultUnit) (k : FaultKind) (e : EventRecord) :
    (u.take k e).reportOff = u.reportOff := by
  unfold FaultUnit.take; dsimp only; split
  · exact FaultUnit.offer_reportOff _ _
  · rfl

/-- Updates within any scope keep the station. -/
theorem Acts.station {x : Scope} {s t : State} (h : Acts x s t) : SameStation s t := by
  induction h with
  | trans _ _ ih1 ih2 => exact ih1.trans ih2
  | wait _ _ _ ih => exact ih
  | raise x s k src d h =>
    constructor <;> first
      | rfl | exact FaultUnit.take_enables _ _ _ | exact FaultUnit.take_outletEvents _ _ _
      | exact FaultUnit.take_reportOff _ _ _
  | report x s k src d =>
    constructor <;> first
      | rfl | exact FaultUnit.offer_enables _ _ | exact FaultUnit.offer_outletEvents _ _
      | exact FaultUnit.offer_reportOff _ _
  | _ => constructor <;> rfl

/-- An outlet outside the scope that does not wait keeps its berth but for the pool. -/
theorem Acts.berth {x : Scope} {s t : State} (h : Acts x s t) :
    ∀ p, p ∉ x.outlets → s.waits p = false → SameButPool (s.berth p) (t.berth p) := by
  induction h with
  | trans _ _ ih1 ih2 =>
    intro p hp hw
    have h1 := ih1 p hp hw
    refine h1.trans (ih2 p hp ?_)
    unfold State.waits at hw ⊢
    rw [h1.sc]; exact hw
  | onBerth x s o f touched =>
    intro p hp _
    have : p ≠ o := fun e => hp (e ▸ touched)
    rw [State.berth_onBerth_ne _ _ this]; exact .refl _
  | onMp x s o f => intro p _ _; exact (PoolOnly.onMp s o f).berth p
  | wait o w _ ih =>
    intro p hp hw
    refine ih p ?_ hw
    intro h
    rcases List.mem_cons.mp h with h | h
    · subst h; rw [w] at hw; cases hw
    · exact hp h
  | _ => intro p _ _; exact .refl _

/-- A module outside the scope keeps its record. -/
theorem Acts.module {x : Scope} {s t : State} (h : Acts x s t) :
    ∀ m, s.bystander x.outlets x.modules m → t.module m = s.module m := by
  induction h with
  | trans h1 _ ih1 ih2 =>
    intro m hm
    have e1 := ih1 m hm
    rw [← e1]
    refine ih2 m ⟨hm.1, e1 ▸ hm.2.1, fun p hp => ?_⟩
    rw [e1] at hp
    obtain ⟨a, b⟩ := hm.2.2 p hp
    refine ⟨a, ?_⟩
    have := (h1.berth p a b).sc
    unfold State.waits at b ⊢
    rw [this]; exact b
  | onModule x s m f touched =>
    intro n hn
    refine State.module_onModule_ne _ _ fun e => ?_
    subst e
    rcases touched with h | h | ⟨o, h, g⟩
    · exact hn.1 h
    · exact hn.2.1 h
    · exact (hn.2.2 o h).1 g
  | wait o w _ ih =>
    intro m hm
    refine ih m ⟨hm.1, hm.2.1, fun p hp => ?_⟩
    obtain ⟨a, b⟩ := hm.2.2 p hp
    refine ⟨fun h => ?_, b⟩
    rcases List.mem_cons.mp h with h | h
    · subst h; rw [w] at b; cases b
    · exact a h
  | _ => intro m _; rfl

theorem SameInputs.refl (b : Berth) : SameInputs b b := by constructor <;> rfl

theorem SameInputs.trans {a b c : Berth} (h : SameInputs a b) (g : SameInputs b c) :
    SameInputs a c := by
  constructor
  · exact g.shore.trans h.shore
  · exact g.ship.trans h.ship
  · exact g.pair.trans h.pair
  · exact g.power.trans h.power
  · exact g.pilot.trans h.pilot
  · exact g.breaker.trans h.breaker
  · exact g.closedAt.trans h.closedAt
  · exact g.settings.trans h.settings
  · exact g.gain.trans h.gain
  · exact g.islandTrim.trans h.islandTrim
  · exact g.syncSettings.trans h.syncSettings
  · exact g.tripPct.trans h.tripPct

/-- A berth that is the same but for the pool has the same inputs and settings. -/
theorem SameButPool.inputs {b c : Berth} (h : SameButPool b c) : SameInputs b c := by
  constructor <;> simp [h.mu, h.lines, h.sc, h.rg, h.sy, h.pr]

/-- Updates within any scope keep every outlet's inputs and settings. -/
theorem Acts.inputs {x : Scope} {s t : State} (h : Acts x s t) :
    ∀ p, SameInputs (s.berth p) (t.berth p) := by
  induction h with
  | trans _ _ ih1 ih2 => exact fun p => (ih1 p).trans (ih2 p)
  | onBerth x s o f touched connects inputs =>
    intro p
    by_cases e : p = o
    · subst e; rw [State.berth_onBerth_self]; exact inputs
    · rw [State.berth_onBerth_ne _ _ e]; exact .refl _
  | onMp x s o f => exact fun p => ((PoolOnly.onMp s o f).berth p).inputs
  | wait o w _ ih => exact ih
  | _ => exact fun _ => .refl _

/-- The frame that a scope gives. -/
theorem Acts.elsewhere {x : Scope} {s t : State} (h : Acts x s t) :
    Elsewhere x.outlets x.modules s t := ⟨h.station, h.berth, h.module, h.inputs⟩

/-- Updates that put no outlet into AWAIT_AUTH open no session where no outlet waits. -/
theorem Acts.keepsAccount {x : Scope} {s t : State} (h : Acts x s t) (hx : x.connects = false) :
    KeepsAccount s t := by
  induction h with
  | trans _ _ ih1 ih2 =>
    intro hs
    obtain ⟨a, b⟩ := ih1 hx hs
    obtain ⟨c, d⟩ := ih2 hx a
    exact ⟨c, d.trans b⟩
  | onBerth x s o f touched connects =>
    intro hs
    refine ⟨fun p => ?_, rfl⟩
    by_cases e : p = o
    · subst e
      unfold State.waits
      rw [State.berth_onBerth_self]
      by_cases g : (f (s.berth p)).sc.state = .awaitAuth
      · have := connects hx g; rw [hs p] at this; cases this
      · simpa using g
    · have := hs p
      unfold State.waits at this ⊢
      rwa [State.berth_onBerth_ne _ _ e]
  | onMp x s o f =>
    intro hs
    refine ⟨fun p => ?_, rfl⟩
    have := hs p
    unfold State.waits at this ⊢
    rwa [State.sc_onMp]
  | takePlace x s o places n w => intro hs; rw [hs o] at w; cases w
  | wait o w _ _ => intro hs; rw [hs o] at w; cases w
  | _ => exact fun hs => ⟨hs, rfl⟩

/-- A flag set stays set; and a flag newly set is of a kind that the scope raises. -/
theorem Acts.flags {x : Scope} {s t : State} (h : Acts x s t) :
    s.fe.flags &&& t.fe.flags = s.fe.flags := by
  induction h with
  | trans _ _ ih1 ih2 =>
    rename_i s t u _ _
    calc s.fe.flags &&& u.fe.flags = (s.fe.flags &&& t.fe.flags) &&& u.fe.flags := by rw [ih1]
      _ = s.fe.flags &&& (t.fe.flags &&& u.fe.flags) := BitVec.and_assoc _ _ _
      _ = s.fe.flags := by rw [ih2, ih1]
  | raise x s k src d h =>
    have : (s.raise k src d).fe.flags = s.fe.flags ||| k.bit := FaultUnit.take_flags _ _ _
    rw [this]
    ext i; simp; exact Or.inl
  | report x s k src d =>
    have : (s.report k src d).fe.flags = s.fe.flags := FaultUnit.offer_flags _ _
    rw [this]; exact BitVec.and_self
  | wait _ _ _ ih => exact ih
  | _ => exact BitVec.and_self

theorem NoFault.refl (s : State) : NoFault s s := ⟨rfl, rfl, rfl⟩

theorem NoFault.trans {s t u : State} (h : NoFault s t) (g : NoFault t u) : NoFault s u :=
  ⟨g.flags.trans h.flags, g.sinceClear.trans h.sinceClear, g.capture.trans h.capture⟩

/-- Updates of a scope that raises no fault. -/
theorem Acts.noFault {x : Scope} {s t : State} (h : Acts x s t) (hx : x.kinds = []) :
    NoFault s t := by
  induction h with
  | trans _ _ ih1 ih2 => exact (ih1 hx).trans (ih2 hx)
  | raise x s k src d h => rw [hx] at h; cases h
  | report x s k src d =>
    exact ⟨FaultUnit.offer_flags _ _, FaultUnit.offer_sinceClear _ _, FaultUnit.offer_capture _ _⟩
  | wait _ _ _ ih => exact ih hx
  | _ => exact ⟨rfl, rfl, rfl⟩

/-- Updates of a scope that stores no billing record. -/
theorem Acts.metering {x : Scope} {s t : State} (h : Acts x s t) (hx : x.bills = false) :
    t.metering = s.metering := by
  induction h with
  | trans _ _ ih1 ih2 => exact (ih2 hx).trans (ih1 hx)
  | append x s r armed h => rw [hx] at h; cases h
  | wait _ _ _ ih => exact ih hx
  | _ => rfl

theorem FaultUnit.offer_length (u : FaultUnit) (e : EventRecord) (h : u.queue.length ≤ 32) :
    (u.offer e).queue.length ≤ 32 := by
  unfold FaultUnit.offer
  split
  · rw [List.length_append]; simp; omega
  · rw [List.length_append, List.length_dropLast]
    cases hq : u.queue.getLast? with
    | none => simp; omega
    | some a => simp; omega

theorem FaultUnit.take_length (u : FaultUnit) (k : FaultKind) (e : EventRecord)
    (h : u.queue.length ≤ 32) : (u.take k e).queue.length ≤ 32 := by
  unfold FaultUnit.take; dsimp only; split
  · exact FaultUnit.offer_length _ _ h
  · exact h

/-- Updates within any scope keep the event queue within its bound. -/
theorem Acts.eventInv {x : Scope} {s t : State} (h : Acts x s t) (hs : EventInv s) : EventInv t := by
  induction h with
  | trans _ _ ih1 ih2 => exact ih2 (ih1 hs)
  | raise x s k src d h => exact FaultUnit.take_length _ _ _ hs
  | report x s k src d => exact FaultUnit.offer_length _ _ hs
  | wait _ _ _ ih => exact ih hs
  | _ => exact hs

end Sys2Proof.Machine
end

