-- ==== Sys2Proof/Laws/PoolActs.lean ====
section
/-! SUPPORT. The scopes of the module pool's operations. -/

namespace Sys2Proof.Machine

open Sys2Proof

theorem State.tidyWatches_acts (x : Scope) (s : State) (o : Outlet) : Acts x s (s.tidyWatches o) := by
  unfold State.tidyWatches
  exact (Acts.onMp _ _ _ _).trans (.onMp _ _ _ _)

theorem State.judgeNeed_acts (x : Scope) (s : State) (o : Outlet) : Acts x s (s.judgeNeed o) := by
  unfold State.judgeNeed
  refine Acts.trans ?_ (State.tidyWatches_acts _ _ _)
  split
  · exact .onMp _ _ _ _
  · split
    · split
      · exact .onMp _ _ _ _
      · split
        · exact .onMp _ _ _ _
        · exact .refl _ s
    · exact .onMp _ _ _ _

theorem State.changeModule_acts {x : Scope} {s : State} {m : ModuleNo} (f : Module → Module)
    (touched : m ∈ x.modules ∨ (s.module m).state = .idle
        ∨ ∃ o, (s.module m).outlet = some o ∧ o ∈ x.outlets) : Acts x s (s.changeModule m f) :=
  (Acts.onModule x s m f touched).trans (.setPass _ _ true)

theorem State.startModule_acts {x : Scope} {s : State} {m : ModuleNo} (o : Outlet) (e : PendingEntry)
    (h : (s.module m).state = .idle) : Acts x s (s.startModule m o e) :=
  Acts.trans (State.changeModule_acts _ (.inr (.inl h))) (.setUnit _ _ _)

theorem State.arbitrate_acts (x : Scope) (s : State) : Acts x s s.arbitrate := by
  unfold State.arbitrate
  split
  · split
    · exact .refl _ s
    · rename_i m hm
      exact ((Acts.onMp _ _ _ _).trans
        (State.startModule_acts _ _ (s.chooseModule_idle _ _ hm))).trans (State.judgeNeed_acts _ _ _)
  · exact .refl _ s

theorem State.servePool_acts (x : Scope) (s : State) (o : Outlet) : Acts x s (s.servePool o) :=
  (State.judgeNeed_acts x s o).trans (State.arbitrate_acts _ _)

theorem State.freeUnit_acts (x : Scope) (s : State) : Acts x s s.freeUnit := .setUnit _ _ _

/-- A fold of changes over modules without repeats, each of which is of the scope at the start. -/
theorem Acts.foldl_changeModule {x : Scope} (f : Module → Module) (l : List ModuleNo) (hl : l.Nodup)
    (s : State) (touched : ∀ m ∈ l, m ∈ x.modules ∨ (s.module m).state = .idle
        ∨ ∃ o, (s.module m).outlet = some o ∧ o ∈ x.outlets) :
    Acts x s (l.foldl (fun t m => t.changeModule m f) s) := by
  induction l generalizing s with
  | nil => exact .refl _ _
  | cons a l ih =>
    rw [List.nodup_cons] at hl
    refine (State.changeModule_acts f (touched a List.mem_cons_self)).trans (ih hl.2 _ fun m hm => ?_)
    have : m ≠ a := fun e => hl.1 (e ▸ hm)
    rw [State.module_changeModule_ne _ _ this]
    exact touched m (List.mem_cons_of_mem _ hm)

theorem State.changeModulesAt_acts {x : Scope} (s : State) (o : Outlet) (states : List ModuleState)
    (f : Module → Module) (h : o ∈ x.outlets) : Acts x s (s.changeModulesAt o states f) := by
  refine Acts.foldl_changeModule _ _ (Pool.which_nodup _ _) _ fun m hm => .inr (.inr ⟨o, ?_, h⟩)
  rw [Pool.mem_which] at hm
  simp only [Bool.and_eq_true, Module.assignedTo, beq_iff_eq] at hm
  exact hm.1

theorem State.endStarts_acts {x : Scope} (s : State) (o : Outlet) (h : o ∈ x.outlets) :
    Acts x s (s.endStarts o) :=
  (State.changeModulesAt_acts s o _ _ h).trans (.setUnit _ _ _)

theorem State.stopModules_acts {x : Scope} (s : State) (o : Outlet) (states : List ModuleState)
    (h : o ∈ x.outlets) : Acts x s (s.stopModules o states) :=
  State.changeModulesAt_acts s o _ _ h

theorem State.holdModules_acts {x : Scope} (s : State) (o : Outlet) (h : o ∈ x.outlets) :
    Acts x s (s.holdModules o) := by
  unfold State.holdModules
  dsimp only
  split
  · exact ((State.changeModulesAt_acts s o _ _ h).trans (State.stopModules_acts _ _ _ h)).trans
      (.onMp _ _ _ _)
  · exact (State.changeModulesAt_acts s o _ _ h).trans (.onMp _ _ _ _)

theorem State.rejoinModules_acts {x : Scope} (s : State) (o : Outlet) (h : o ∈ x.outlets) :
    Acts x s (s.rejoinModules o) := by
  unfold State.rejoinModules
  split
  · exact State.changeModulesAt_acts s o _ _ h
  · exact .refl _ s

theorem State.poolTakesState_acts {x : Scope} (s : State) (o : Outlet) (old new : OutletState)
    (h : o ∈ x.outlets) : Acts x s (s.poolTakesState o old new) := by
  unfold State.poolTakesState
  refine Acts.trans ?_ (State.servePool_acts _ _ _)
  refine Acts.trans (t := if new.requests then s else s.endStarts o) ?_ ?_
  · split
    · exact .refl _ s
    · exact State.endStarts_acts _ _ h
  generalize (if new.requests then s else s.endStarts o) = s1
  have key : ∀ s2, Acts x s1 s2 →
      Acts x s1 (if old = OutletState.tripped then s2.onMp o fun p => { p with hold := none }
        else s2) := by
    intro s2 h
    split
    · exact h.trans (.onMp _ _ _ _)
    · exact h
  apply key
  split
  · exact State.holdModules_acts _ _ h
  · exact State.stopModules_acts _ _ _ h
  · split
    · exact State.rejoinModules_acts _ _ h
    · exact .refl _ s1
  all_goals exact .refl _ s1

theorem State.shareLoad_acts {x : Scope} (s : State) (o : Outlet) (r : PowerRecord)
    (h : o ∈ x.outlets) : Acts x s (s.shareLoad o r) := by
  unfold State.shareLoad
  dsimp only
  have key : ∀ (l : List ModuleNo), l.Nodup → ∀ t : State,
      (∀ m ∈ l, (t.module m).outlet = some o) →
      Acts x t (l.foldl (fun t m => t.onModule m fun y => y.share r.p (s.capacity o)) t) := by
    intro l
    induction l with
    | nil => intro _ t _; exact .refl _ _
    | cons a l ih =>
      intro hl t ht
      rw [List.nodup_cons] at hl
      refine (Acts.onModule x t a _ (.inr (.inr ⟨o, ht a List.mem_cons_self, h⟩))).trans
        (ih hl.2 _ fun m hm => ?_)
      have : m ≠ a := fun e => hl.1 (e ▸ hm)
      rw [State.module_onModule_ne _ _ this]
      exact ht m (List.mem_cons_of_mem _ hm)
  refine key _ (Pool.which_nodup _ _) s fun m hm => ?_
  rw [Pool.mem_which] at hm
  simp only [Bool.and_eq_true, Module.inStateAt, beq_iff_eq] at hm
  exact hm.2

theorem State.beginVoluntary_acts {x : Scope} (s : State) (o : Outlet) (m : ModuleNo)
    (h : m ∈ x.modules ∨ (s.module m).outlet = some o ∧ o ∈ x.outlets) :
    Acts x s (s.beginVoluntary o m) := by
  refine Acts.trans (State.changeModule_acts _ ?_) (.onMp _ _ _ _)
  rcases h with h | ⟨h, g⟩
  · exact .inl h
  · exact .inr (.inr ⟨o, h, g⟩)

theorem State.judgeWatches_acts (x : Scope) (s : State) (o : Outlet) (apparent : Nat) :
    Acts x s (s.judgeWatches o apparent) := by
  unfold State.judgeWatches
  exact .onMp _ _ _ _

end Sys2Proof.Machine
end

