-- ==== Sys2Proof/Laws/Session.lean ====
section
/-! SUPPORT. What the session controller's operations can do: the fields of a change of state, and the
scope of each operation. -/

namespace Sys2Proof.Machine

open Sys2Proof

/-! ### A change of mode (R44) -/

@[simp] theorem Berth.withTargets_mode (b : Berth) (f v : Int) :
    (b.withTargets f v).rg.mode = b.rg.mode := rfl

@[simp] theorem Berth.withTargets_pSet (b : Berth) (f v : Int) :
    (b.withTargets f v).rg.pSet = b.rg.pSet := rfl

/-- Targets work on RG alone. -/
theorem Berth.withTargets_rest (b : Berth) (f v : Int) :
    b.withTargets f v = { b with rg := (b.withTargets f v).rg } := rfl

theorem Berth.entryTargets_rest (b : Berth) (mode : RgMode) :
    b.entryTargets mode = { b with rg := (b.entryTargets mode).rg } := by
  cases mode <;> simp only [Berth.entryTargets]
  · exact b.withTargets_rest _ _
  · cases b.mu.pair with
    | none => rfl
    | some r => dsimp only; split <;> rfl
  · cases b.mu.pair with
    | none => rfl
    | some r => exact b.withTargets_rest _ _
  · exact b.withTargets_rest _ _

@[simp] theorem Berth.entryTargets_mode (b : Berth) (mode : RgMode) :
    (b.entryTargets mode).rg.mode = b.rg.mode := by
  cases mode <;> simp only [Berth.entryTargets]
  · exact b.withTargets_mode _ _
  · cases b.mu.pair with
    | none => rfl
    | some r => dsimp only; split <;> rfl
  · cases b.mu.pair with
    | none => rfl
    | some r => exact b.withTargets_mode _ _
  · exact b.withTargets_mode _ _

@[simp] theorem Berth.entryTargets_pSet (b : Berth) (mode : RgMode) :
    (b.entryTargets mode).rg.pSet = b.rg.pSet := by
  cases mode <;> simp only [Berth.entryTargets]
  · exact b.withTargets_pSet _ _
  · cases b.mu.pair with
    | none => rfl
    | some r => dsimp only; split <;> rfl
  · cases b.mu.pair with
    | none => rfl
    | some r => exact b.withTargets_pSet _ _
  · exact b.withTargets_pSet _ _

/-- The entry to a mode works on RG alone. -/
theorem Berth.enterMode_rest (b : Berth) (now : RunCount) (mode : RgMode) (pSet : Nat) :
    b.enterMode now mode pSet = { b with rg := (b.enterMode now mode pSet).rg } := by
  unfold Berth.enterMode
  split
  · rfl
  · split
    · rfl
    · exact Berth.entryTargets_rest _ _

/-- R43: after the entry RG is in the mode entered. -/
@[simp] theorem Berth.enterMode_mode (b : Berth) (now : RunCount) (mode : RgMode) (pSet : Nat) :
    (b.enterMode now mode pSet).rg.mode = mode := by
  unfold Berth.enterMode
  split
  · assumption
  · split
    · rename_i h; exact h.symm
    · exact Berth.entryTargets_mode _ _

theorem Berth.entryTargets_gain (b : Berth) (mode : RgMode) :
    (b.entryTargets mode).rg.gain = b.rg.gain
      ∧ (b.entryTargets mode).rg.islandTrim = b.rg.islandTrim := by
  cases mode <;> simp only [Berth.entryTargets]
  · simp
  · exact ⟨rfl, rfl⟩
  · cases b.mu.pair with
    | none => exact ⟨rfl, rfl⟩
    | some r => dsimp only; split <;> exact ⟨rfl, rfl⟩
  · cases b.mu.pair with
    | none => exact ⟨rfl, rfl⟩
    | some r => exact ⟨rfl, rfl⟩
  · exact ⟨rfl, rfl⟩

theorem Berth.enterMode_gain (b : Berth) (now : RunCount) (mode : RgMode) (pSet : Nat) :
    (b.enterMode now mode pSet).rg.gain = b.rg.gain
      ∧ (b.enterMode now mode pSet).rg.islandTrim = b.rg.islandTrim := by
  unfold Berth.enterMode
  split
  · exact ⟨rfl, rfl⟩
  · split
    · exact ⟨rfl, rfl⟩
    · dsimp only
      rw [(Berth.entryTargets_gain _ _).1, (Berth.entryTargets_gain _ _).2]
      dsimp only [RefGen.fromOff]
      split <;> exact ⟨rfl, rfl⟩

/-! ### A change of outlet state (R77) -/

@[simp] theorem Berth.linkTakesState_sc (b : Berth) (old new : OutletState) (now : RunCount) :
    (b.linkTakesState old new now).sc = b.sc := by
  unfold Berth.linkTakesState; split
  · rfl
  · split <;> rfl

@[simp] theorem Berth.linkTakesState_mu (b : Berth) (old new : OutletState) (now : RunCount) :
    (b.linkTakesState old new now).mu = b.mu := by
  unfold Berth.linkTakesState; split
  · rfl
  · split <;> rfl

@[simp] theorem Berth.linkTakesState_mp (b : Berth) (old new : OutletState) (now : RunCount) :
    (b.linkTakesState old new now).mp = b.mp := by
  unfold Berth.linkTakesState; split
  · rfl
  · split <;> rfl

@[simp] theorem Berth.linkTakesState_rg (b : Berth) (old new : OutletState) (now : RunCount) :
    (b.linkTakesState old new now).rg = b.rg := by
  unfold Berth.linkTakesState; split
  · rfl
  · split <;> rfl

@[simp] theorem Berth.linkTakesState_sy (b : Berth) (old new : OutletState) (now : RunCount) :
    (b.linkTakesState old new now).sy = b.sy := by
  unfold Berth.linkTakesState; split
  · rfl
  · split <;> rfl

@[simp] theorem Berth.linkTakesState_pr (b : Berth) (old new : OutletState) (now : RunCount) :
    (b.linkTakesState old new now).pr = b.pr := by
  unfold Berth.linkTakesState; split
  · rfl
  · split <;> rfl

@[simp] theorem Berth.linkTakesState_mt (b : Berth) (old new : OutletState) (now : RunCount) :
    (b.linkTakesState old new now).mt = b.mt := by
  unfold Berth.linkTakesState; split
  · rfl
  · split <;> rfl

@[simp] theorem Berth.takeState_sc (b : Berth) (new : OutletState) (pSet : Nat) (now : TimeStamp)
    (short : Bool) : (b.takeState new pSet now short).sc = b.sc.takeState new now short := by
  unfold Berth.takeState; simp

@[simp] theorem Berth.takeState_mu (b : Berth) (new : OutletState) (pSet : Nat) (now : TimeStamp)
    (short : Bool) : (b.takeState new pSet now short).mu = b.mu := by
  unfold Berth.takeState; simp only [Berth.linkTakesState_mu]; rw [Berth.enterMode_rest]

@[simp] theorem Berth.takeState_rg (b : Berth) (new : OutletState) (pSet : Nat) (now : TimeStamp)
    (short : Bool) :
    (b.takeState new pSet now short).rg = (b.enterMode now.run new.mode pSet).rg := by
  unfold Berth.takeState; simp

@[simp] theorem Berth.takeState_sy (b : Berth) (new : OutletState) (pSet : Nat) (now : TimeStamp)
    (short : Bool) :
    (b.takeState new pSet now short).sy
      = b.sy.takeState new (!b.mu.ship.live && b.declaresDeadBus) now.run := by
  unfold Berth.takeState; simp

@[simp] theorem Berth.takeState_pr (b : Berth) (new : OutletState) (pSet : Nat) (now : TimeStamp)
    (short : Bool) :
    (b.takeState new pSet now short).pr
      = b.pr.takeState b.sc.state new b.lines.breakerClosed := by
  unfold Berth.takeState; simp

@[simp] theorem Berth.takeState_mt (b : Berth) (new : OutletState) (pSet : Nat) (now : TimeStamp)
    (short : Bool) : (b.takeState new pSet now short).mt = b.mt := by
  unfold Berth.takeState; simp only [Berth.linkTakesState_mt]; rw [Berth.enterMode_rest]

/-- A change that leaves DORMANT out at both ends touches neither the lines nor SL. -/
theorem Berth.linkTakesState_of_ne (b : Berth) (old new : OutletState) (now : RunCount)
    (ho : old ≠ .dormant) (hn : new ≠ .dormant) : b.linkTakesState old new now = b := by
  unfold Berth.linkTakesState; rw [if_neg hn, if_neg ho]

theorem Berth.takeState_lines (b : Berth) (new : OutletState) (pSet : Nat) (now : TimeStamp)
    (short : Bool) (ho : b.sc.state ≠ .dormant) (hn : new ≠ .dormant) :
    (b.takeState new pSet now short).lines = b.lines := by
  unfold Berth.takeState; dsimp only
  rw [Berth.linkTakesState_of_ne _ _ _ _ ho hn, Berth.enterMode_rest]

theorem Berth.takeState_sl (b : Berth) (new : OutletState) (pSet : Nat) (now : TimeStamp)
    (short : Bool) (ho : b.sc.state ≠ .dormant) (hn : new ≠ .dormant) :
    (b.takeState new pSet now short).sl = b.sl := by
  unfold Berth.takeState; dsimp only
  rw [Berth.linkTakesState_of_ne _ _ _ _ ho hn, Berth.enterMode_rest]

theorem Berth.takeState_pilot (b : Berth) (new : OutletState) (pSet : Nat) (now : TimeStamp)
    (short : Bool) :
    (b.takeState new pSet now short).lines.pilotClosed = b.lines.pilotClosed := by
  unfold Berth.takeState Berth.linkTakesState; dsimp only
  rw [Berth.enterMode_rest]; split
  · rfl
  · split <;> rfl

theorem Berth.takeState_breaker (b : Berth) (new : OutletState) (pSet : Nat) (now : TimeStamp)
    (short : Bool) :
    (b.takeState new pSet now short).lines.breakerClosed = b.lines.breakerClosed := by
  unfold Berth.takeState Berth.linkTakesState; dsimp only
  rw [Berth.enterMode_rest]; split
  · rfl
  · split <;> rfl

theorem Synchroniser.takeState_settings (y : Synchroniser) (new : OutletState) (dead : Bool)
    (now : RunCount) : (y.takeState new dead now).settings = y.settings := by
  unfold Synchroniser.takeState Synchroniser.closeTakesState
  dsimp only
  split
  · rfl
  · rfl
  · split <;> rfl

theorem Protection.takeState_tripPct (p : Protection) (old new : OutletState) (closed : Bool) :
    (p.takeState old new closed).tripPct = p.tripPct := by
  unfold Protection.takeState Protection.watchesTakeState Protection.leaveTripped
  dsimp only
  split <;> split <;> first | rfl | (split <;> rfl)

/-- What leaving TRIPPED makes of PR's drive and post-trip time (R107): they run on into WIND_DOWN while the
feedback shows closed, and end otherwise. -/
theorem Protection.leaveTripped_drive (p : Protection) (new : OutletState) (closed : Bool) :
    (new = .windDown ∧ closed = true ∧ p.leaveTripped new closed = { p with laterCauses := [] })
      ∨ (¬ (new = .windDown ∧ closed = true) ∧ (p.leaveTripped new closed).openDrive = false
        ∧ (p.leaveTripped new closed).postTripFrom = none
        ∧ (p.leaveTripped new closed).breakerFail = false) := by
  unfold Protection.leaveTripped
  by_cases h : new = .windDown ∧ closed = true
  · exact .inl ⟨h.1, h.2, by simp only [if_pos h]⟩
  · refine .inr ⟨h, ?_⟩
    simp only [if_neg h]
    exact ⟨rfl, rfl, rfl⟩

/-- A change between two states other than TRIPPED leaves PR's drive, post-trip time and marks. -/
theorem Protection.takeState_drive (p : Protection) (old new : OutletState) (closed : Bool)
    (h : old ≠ .tripped) :
    (p.takeState old new closed).openDrive = p.openDrive
      ∧ (p.takeState old new closed).postTripFrom = p.postTripFrom
      ∧ (p.takeState old new closed).breakerFail = p.breakerFail
      ∧ (p.takeState old new closed).laterCauses = p.laterCauses := by
  unfold Protection.takeState Protection.watchesTakeState
  simp only [if_neg h]
  split <;> exact ⟨rfl, rfl, rfl, rfl⟩

/-- A change of state keeps the outlet's inputs and settings. -/
theorem Berth.takeState_inputs (b : Berth) (new : OutletState) (pSet : Nat) (now : TimeStamp)
    (short : Bool) : SameInputs b (b.takeState new pSet now short) := by
  have hl : (b.takeState new pSet now short).lines.closedAt = b.lines.closedAt := by
    unfold Berth.takeState Berth.linkTakesState; dsimp only
    rw [Berth.enterMode_rest]; split
    · rfl
    · split <;> rfl
  constructor
  · rw [Berth.takeState_mu]
  · rw [Berth.takeState_mu]
  · rw [Berth.takeState_mu]
  · rw [Berth.takeState_mu]
  · exact Berth.takeState_pilot _ _ _ _ _
  · exact Berth.takeState_breaker _ _ _ _ _
  · exact hl
  · rw [Berth.takeState_sc]; rfl
  · rw [Berth.takeState_rg]; exact (Berth.enterMode_gain _ _ _ _).1
  · rw [Berth.takeState_rg]; exact (Berth.enterMode_gain _ _ _ _).2
  · rw [Berth.takeState_sy]; exact Synchroniser.takeState_settings _ _ _ _
  · rw [Berth.takeState_pr]; exact Protection.takeState_tripPct _ _ _ _

/-- The berth of an outlet after a change of its state, but for the pool. -/
theorem State.moveTo_berth_self (s : State) (o : Outlet) (new : OutletState) (pSet : Nat) :
    SameButPool
      ((s.berth o).takeState new pSet s.now (decide (s.capacity o < (s.berth o).sc.target)))
      ((s.moveTo o new pSet).berth o) := by
  unfold State.moveTo
  dsimp only
  rw [State.berth_reportState]
  have := (State.poolTakesState_poolOnly (s.onBerth o fun b =>
    b.takeState new pSet s.now (decide (s.capacity o < (s.berth o).sc.target))) o
      (s.berth o).sc.state new).berth o
  rwa [State.berth_onBerth_self] at this

/-- Another outlet keeps its berth but for the pool. -/
theorem State.moveTo_berth_ne (s : State) {o p : Outlet} (new : OutletState) (pSet : Nat)
    (h : p ≠ o) : SameButPool (s.berth p) ((s.moveTo o new pSet).berth p) := by
  unfold State.moveTo
  dsimp only
  rw [State.berth_reportState]
  have := (State.poolTakesState_poolOnly (s.onBerth o fun b =>
    b.takeState new pSet s.now (decide (s.capacity o < (s.berth o).sc.target))) o
      (s.berth o).sc.state new).berth p
  rwa [State.berth_onBerth_ne _ _ h] at this

@[simp] theorem State.moveTo_state (s : State) (o : Outlet) (new : OutletState) (pSet : Nat) :
    ((s.moveTo o new pSet).berth o).sc.state = new := by
  rw [(s.moveTo_berth_self o new pSet).sc, Berth.takeState_sc]; rfl

/-! ### Scopes -/

theorem State.reportState_acts (x : Scope) (s : State) (o : Outlet) (new : OutletState) :
    Acts x s (s.reportState o new) := by
  unfold State.reportState
  split
  · exact .report _ _ _ _ _
  · exact .refl _ _

theorem State.moveTo_acts {x : Scope} (s : State) (o : Outlet) (new : OutletState) (pSet : Nat)
    (h : o ∈ x.outlets) (hn : new ≠ .awaitAuth ∨ x.connects = true) :
    Acts x s (s.moveTo o new pSet) := by
  unfold State.moveTo
  refine ((Acts.onBerth _ _ _ _ h (fun hc hw => ?_) (Berth.takeState_inputs _ _ _ _ _)).trans
    (State.poolTakesState_acts _ _ _ _ h)).trans (State.reportState_acts _ _ _ _)
  rw [Berth.takeState_sc] at hw
  rcases hn with hn | hn
  · exact absurd hw hn
  · rw [hn] at hc; cases hc

/-- A change of an outlet's berth that keeps SC's state. -/
theorem Acts.onBerth_keep {x : Scope} (s : State) (o : Outlet) (f : Berth → Berth) (h : o ∈ x.outlets)
    (hf : (f (s.berth o)).sc.state = (s.berth o).sc.state)
    (hi : SameInputs (s.berth o) (f (s.berth o))) : Acts x s (s.onBerth o f) :=
  .onBerth _ _ _ _ h (fun _ hw => by rw [hf] at hw; unfold State.waits; rw [hw]; rfl) hi

theorem Acts.onSc {x : Scope} (s : State) (o : Outlet) (f : OutletRecord → OutletRecord)
    (h : o ∈ x.outlets) (hf : (f (s.berth o).sc).state = (s.berth o).sc.state)
    (hs : (f (s.berth o).sc).settings = (s.berth o).sc.settings) :
    Acts x s (s.onSc o f) :=
  Acts.onBerth_keep _ _ _ h hf ⟨rfl, rfl, rfl, rfl, rfl, rfl, rfl, hs, rfl, rfl, rfl, rfl⟩

theorem Acts.onRg {x : Scope} (s : State) (o : Outlet) (f : RefGen → RefGen) (h : o ∈ x.outlets)
    (hg : (f (s.berth o).rg).gain = (s.berth o).rg.gain)
    (ht : (f (s.berth o).rg).islandTrim = (s.berth o).rg.islandTrim) : Acts x s (s.onRg o f) :=
  Acts.onBerth_keep _ _ _ h rfl ⟨rfl, rfl, rfl, rfl, rfl, rfl, rfl, rfl, hg, ht, rfl, rfl⟩

theorem Acts.onSy {x : Scope} (s : State) (o : Outlet) (f : Synchroniser → Synchroniser)
    (h : o ∈ x.outlets) (hs : (f (s.berth o).sy).settings = (s.berth o).sy.settings) :
    Acts x s (s.onSy o f) :=
  Acts.onBerth_keep _ _ _ h rfl ⟨rfl, rfl, rfl, rfl, rfl, rfl, rfl, rfl, rfl, rfl, hs, rfl⟩

theorem Acts.onPr {x : Scope} (s : State) (o : Outlet) (f : Protection → Protection)
    (h : o ∈ x.outlets) (hp : (f (s.berth o).pr).tripPct = (s.berth o).pr.tripPct) :
    Acts x s (s.onPr o f) :=
  Acts.onBerth_keep _ _ _ h rfl ⟨rfl, rfl, rfl, rfl, rfl, rfl, rfl, rfl, rfl, rfl, rfl, hp⟩

theorem Acts.onSl {x : Scope} (s : State) (o : Outlet) (f : ShipLink → ShipLink)
    (h : o ∈ x.outlets) : Acts x s (s.onSl o f) :=
  Acts.onBerth_keep _ _ _ h rfl ⟨rfl, rfl, rfl, rfl, rfl, rfl, rfl, rfl, rfl, rfl, rfl, rfl⟩

theorem Acts.onMt {x : Scope} (s : State) (o : Outlet) (f : Meter → Meter)
    (h : o ∈ x.outlets) : Acts x s (s.onMt o f) :=
  Acts.onBerth_keep _ _ _ h rfl ⟨rfl, rfl, rfl, rfl, rfl, rfl, rfl, rfl, rfl, rfl, rfl, rfl⟩

theorem Acts.withMt {x : Scope} (s : State) (o : Outlet) (f : Berth → Option Meter)
    (h : o ∈ x.outlets) : Acts x s (s.onBerth o fun b => { b with mt := f b }) :=
  Acts.onBerth_keep _ _ _ h rfl ⟨rfl, rfl, rfl, rfl, rfl, rfl, rfl, rfl, rfl, rfl, rfl, rfl⟩

theorem Acts.clipReported {x : Scope} (s : State) (o : Outlet) (c : Bool) (h : o ∈ x.outlets) :
    Acts x s (s.onMu o fun m => { m with clipReported := c }) :=
  Acts.onBerth_keep _ _ _ h rfl ⟨rfl, rfl, rfl, rfl, rfl, rfl, rfl, rfl, rfl, rfl, rfl, rfl⟩

theorem State.trip_acts {x : Scope} (s : State) (o : Outlet) (c : Cause) (h : o ∈ x.outlets)
    (hk : c.fault ∈ x.kinds) : Acts x s (s.trip o c) := by
  unfold State.trip
  exact ((((State.moveTo_acts s o .tripped 0 h (.inl (by decide))).trans
    (Acts.onSc _ _ _ h rfl rfl)).trans (Acts.onPr _ _ _ h rfl)).trans (.raise _ _ _ _ _ hk)).trans
    (Acts.onMt _ _ _ h)

theorem State.laterCause_acts {x : Scope} (s : State) (o : Outlet) (c : Cause) (h : o ∈ x.outlets)
    (hk : c.fault ∈ x.kinds) : Acts x s (s.laterCause o c) := by
  unfold State.laterCause
  split
  · exact .refl _ _
  · exact (Acts.raise _ _ _ _ _ hk).trans (Acts.onPr _ _ _ h rfl)

theorem State.complete_acts {x : Scope} (s : State) (o : Outlet) (c : Cause) (h : o ∈ x.outlets)
    (hk : c.fault ∈ x.kinds) : Acts x s (s.complete o c) := by
  unfold State.complete
  dsimp only
  split
  · exact State.trip_acts _ _ _ h hk
  · split
    · exact State.laterCause_acts _ _ _ h hk
    · exact .refl _ _

/-- The fault kinds of the causes that can trip an outlet at its entry to a state. -/
def entryKinds : List FaultKind := [.pilotOpen, .shipStop, .scpLost, .gridLoss]

theorem Berth.levelCause_kind (b : Berth) (c : Cause) (h : b.levelCause = some c) :
    c.fault ∈ entryKinds := by
  unfold Berth.levelCause at h
  split at h
  · cases h; decide
  · split at h
    · cases h; decide
    · split at h
      · cases h; decide
      · cases h

theorem Berth.entryCause_kind (b : Berth) (standing : Bool) (c : Cause)
    (h : b.entryCause standing = some c) : c.fault ∈ entryKinds := by
  unfold Berth.entryCause at h
  split at h
  · split at h
    · rename_i hl; cases h; exact Berth.levelCause_kind _ _ hl
    · split at h
      · cases h; decide
      · cases h
  · cases h

theorem State.enter_acts {x : Scope} (s : State) (o : Outlet) (new : OutletState) (pSet : Nat)
    (h : o ∈ x.outlets) (hn : new ≠ .awaitAuth ∨ x.connects = true)
    (hk : ∀ k ∈ entryKinds, k ∈ x.kinds) : Acts x s (s.enter o new pSet) := by
  unfold State.enter
  dsimp only
  split
  · rename_i c hc
    exact (State.moveTo_acts s o new pSet h hn).trans
      (State.trip_acts _ _ _ h (hk _ (Berth.entryCause_kind _ _ _ hc)))
  · exact State.moveTo_acts s o new pSet h hn

theorem State.store_acts {x : Scope} (s : State) (r : BillingRecord) (hb : x.bills = true) :
    Acts x s (s.store r) := by
  unfold State.store
  dsimp only
  split
  · exact (Acts.report x s .billingLow .station _).trans (Acts.append x _ r false hb)
  · exact Acts.append x s r s.metering.lowArmed hb

theorem State.closeInterval_acts {x : Scope} (s : State) (o : Outlet) (reason : ClosingReason)
    (h : o ∈ x.outlets) (hb : x.bills = true) : Acts x s (s.closeInterval o reason) := by
  unfold State.closeInterval
  split
  · exact .refl _ _
  · exact (State.store_acts _ _ hb).trans (Acts.withMt _ _ _ h)

theorem State.tryClose_acts {x : Scope} (s : State) (o : Outlet) (h : o ∈ x.outlets)
    (hb : x.bills = true) : Acts x s (s.tryClose o) := by
  unfold State.tryClose
  split
  · exact .refl _ _
  · split
    · refine Acts.trans ?_ (.setPass _ _ true)
      refine Acts.trans ?_ (State.moveTo_acts _ _ _ _ h (.inl ?_))
      · exact ((State.closeInterval_acts _ _ _ h hb).trans (Acts.onSc _ _ _ h rfl rfl)).trans
          (.report _ _ _ _ _)
      · split <;> decide
    · exact .refl _ _

theorem State.windDown_acts {x : Scope} (s : State) (o : Outlet) (h : o ∈ x.outlets)
    (hb : x.bills = true) : Acts x s (s.windDown o) :=
  (State.moveTo_acts s o .windDown 0 h (.inl (by decide))).trans (State.tryClose_acts _ _ h hb)

theorem State.judgeGenerators_acts {x : Scope} (s : State) (o : Outlet) (h : o ∈ x.outlets)
    (hk : ∀ k ∈ entryKinds, k ∈ x.kinds) : Acts x s (s.judgeGenerators o) := by
  unfold State.judgeGenerators
  dsimp only
  split
  · exact State.enter_acts _ _ _ _ h (.inl (by decide)) hk
  · split
    · refine Acts.trans ?_ (State.enter_acts _ _ _ _ h (.inl (by decide)) hk)
      split
      · exact .refl _ _
      · exact .report _ _ _ _ _
    · exact .refl _ _

theorem State.enterJudged_acts {x : Scope} (s : State) (o : Outlet) (new : OutletState) (pSet : Nat)
    (h : o ∈ x.outlets) (hn : new ≠ .awaitAuth) (hk : ∀ k ∈ entryKinds, k ∈ x.kinds) :
    Acts x s (s.enterJudged o new pSet) :=
  (State.enter_acts s o new pSet h (.inl hn) hk).trans (State.judgeGenerators_acts _ _ h hk)

theorem State.requestReturn_acts {x : Scope} (s : State) (o : Outlet) (h : o ∈ x.outlets)
    (hk : ∀ k ∈ entryKinds, k ∈ x.kinds) : Acts x s (s.requestReturn o) := by
  unfold State.requestReturn
  split
  · exact .refl _ _
  · exact (Acts.onSc _ _ _ h rfl rfl).trans (State.judgeGenerators_acts _ _ h hk)

theorem State.openBreaker_acts {x : Scope} (s : State) (o : Outlet) (h : o ∈ x.outlets) :
    Acts x s (s.openBreaker o) := State.moveTo_acts s o .opening 0 h (.inl (by decide))

theorem State.issueClose_acts {x : Scope} (s : State) (o : Outlet) (plan : Option Schedule)
    (h : o ∈ x.outlets) (hk : ∀ k ∈ entryKinds, k ∈ x.kinds) : Acts x s (s.issueClose o plan) :=
  (Acts.onSy s o _ h rfl).trans (State.enter_acts _ _ _ _ h (.inl (by decide)) hk)

theorem State.tryDeadBus_acts {x : Scope} (s : State) (o : Outlet) (h : o ∈ x.outlets)
    (hk : ∀ k ∈ entryKinds, k ∈ x.kinds) : Acts x s (s.tryDeadBus o) := by
  unfold State.tryDeadBus
  split
  · exact State.issueClose_acts _ _ _ h hk
  · exact .refl _ _

theorem State.judgeEnergising_acts {x : Scope} (s : State) (o : Outlet) (h : o ∈ x.outlets)
    (hk : ∀ k ∈ entryKinds, k ∈ x.kinds) : Acts x s (s.judgeEnergising o) := by
  unfold State.judgeEnergising
  dsimp only
  split
  · exact State.enter_acts _ _ _ _ h (.inl (by decide)) hk
  · exact .refl _ _

theorem Berth.syCapacity_rest (b : Berth) (c : Nat) :
    b.syCapacity c = { b with sy := { b.sy with close := (b.syCapacity c).sy.close } } := by
  unfold Berth.syCapacity
  split
  · split <;> rfl
  all_goals rfl

theorem State.capacityChanged_acts {x : Scope} (s : State) (o : Outlet) (h : o ∈ x.outlets)
    (hk : ∀ k ∈ entryKinds, k ∈ x.kinds) : Acts x s (s.capacityChanged o) := by
  unfold State.capacityChanged
  refine (((Acts.onBerth_keep _ _ _ h rfl ?_).trans (State.servePool_acts _ _ _)).trans
    (State.tryDeadBus_acts _ _ h hk)).trans (State.judgeEnergising_acts _ _ h hk)
  rw [Berth.syCapacity_rest]
  constructor <;> rfl

theorem State.takeConnect_acts {x : Scope} (s : State) (o : Outlet) (d : Option Declaration)
    (h : o ∈ x.outlets) (hc : x.connects = true) : Acts x s (s.takeConnect o d) := by
  unfold State.takeConnect
  split
  · exact ((Acts.onSc _ _ _ h rfl rfl).trans (State.moveTo_acts _ _ _ _ h (.inr hc))).trans
      (.setPass _ _ true)
  · exact Acts.onSc _ _ _ h rfl rfl

/-! ### Evaluation passes -/

theorem State.openSession_acts {x : Scope} (s : State) (o : Outlet) (d : Declaration) (place : Nat)
    (h : o ∈ x.outlets) (hw : s.waits o = true) : Acts x s (s.openSession o d place) := by
  unfold State.openSession
  exact (((((Acts.takePlace x s o _ _ hw).trans (Acts.onSc _ _ _ h rfl rfl)).trans
    (Acts.withMt _ _ _ h)).trans (Acts.clipReported _ _ _ h)).trans
    (State.moveTo_acts _ _ _ _ h (.inl (by decide)))).trans (.report _ _ _ _ _)

/-- R88: a pass handles an outlet only while it waits. -/
theorem State.evaluate_acts (x : Scope) (s : State) (o : Outlet) : Acts x s (s.evaluate o) := by
  unfold State.evaluate
  dsimp only
  split
  · rename_i d hst _
    have hw : s.waits o = true := by
      unfold State.waits; rw [beq_iff_eq]; exact of_decide_eq_true hst
    refine .wait o hw ?_
    have h : o ∈ ({ x with outlets := o :: x.outlets } : Scope).outlets := List.mem_cons_self
    split
    · exact (State.moveTo_acts _ _ _ _ h (.inl (by decide))).trans (Acts.onSc _ _ _ h rfl rfl)
    · split
      · exact Acts.onSc _ _ _ h rfl rfl
      · split
        · exact Acts.onSc _ _ _ h rfl rfl
        · split
          · exact Acts.onSc _ _ _ h rfl rfl
          · exact State.openSession_acts _ _ _ _ h hw
  · exact .refl _ _

theorem State.pass_acts (x : Scope) (s : State) : Acts x s s.pass :=
  (Acts.setPass x s false).trans (Acts.foldl _ _ (fun _ _ _ => State.evaluate_acts _ _ _) _)

theorem State.passes_acts (x : Scope) (n : Nat) (s : State) : Acts x s (s.passes n) := by
  induction n generalizing s with
  | zero => exact .setPass x s false
  | succ n ih =>
    unfold State.passes
    split
    · exact (State.pass_acts _ _).trans (ih _)
    · exact .refl _ _

/-- The passes of a step's end handle waiting outlets alone, and raise no fault. -/
theorem State.settle_acts (x : Scope) (s : State) : Acts x s s.settle := State.passes_acts _ _ _

/-! ### What a trip and a wind-down come to -/

@[simp] theorem State.moveTo_tb (s : State) (o : Outlet) (new : OutletState) (pSet : Nat) :
    (s.moveTo o new pSet).tb = s.tb := by
  unfold State.moveTo
  dsimp only
  rw [State.reportState_tb, (State.poolTakesState_poolOnly _ _ _ _).tb]
  rfl

@[simp] theorem State.moveTo_gridWatch (s : State) (o : Outlet) (new : OutletState) (pSet : Nat) :
    (s.moveTo o new pSet).gridWatch = s.gridWatch := by
  unfold State.moveTo
  dsimp only
  rw [State.reportState_gridWatch, (State.poolTakesState_poolOnly _ _ _ _).gridWatch]
  rfl

@[simp] theorem State.moveTo_metering (s : State) (o : Outlet) (new : OutletState) (pSet : Nat) :
    (s.moveTo o new pSet).metering = s.metering := by
  unfold State.moveTo
  dsimp only
  rw [State.reportState_metering, (State.poolTakesState_poolOnly _ _ _ _).metering]
  rfl

/-- The module records after a change of state are those after the pool has taken it. -/
theorem State.module_moveTo (s : State) (o : Outlet) (new : OutletState) (pSet : Nat)
    (m : ModuleNo) :
    (s.moveTo o new pSet).module m
      = ((s.onBerth o fun b => b.takeState new pSet s.now
          (decide (s.capacity o < (s.berth o).sc.target))).poolTakesState o (s.berth o).sc.state
            new).module m := by
  unfold State.moveTo
  dsimp only
  rw [State.module_reportState]

/-- A module of a tripped outlet that was RUNNING is HELD, or stopping with a trip hold time of 0
(R38). -/
theorem State.module_moveTo_tripped_running (s : State) (o : Outlet) (pSet : Nat) (m : ModuleNo)
    (ho : (s.module m).outlet = some o) (hr : (s.module m).state = .running) :
    (s.moveTo o .tripped pSet).module m
      = if s.pool.tripHold = 0 then
          ({ s.module m with state := .held } : Module).beginStop s.tb.run
        else { s.module m with state := .held } := by
  rw [State.module_moveTo]
  generalize hs : s.onBerth o _ = u
  have um : u.module m = s.module m := by rw [← hs]; rfl
  have ut : u.tb = s.tb := by rw [← hs]; rfl
  have uh : u.pool.tripHold = s.pool.tripHold := by rw [← hs]; rfl
  unfold State.poolTakesState
  rw [if_neg (by decide)]
  dsimp only
  have h1 : (u.endStarts o).module m = s.module m := by
    rw [State.module_endStarts, um, hr]; simp
  have ht1 : (u.endStarts o).tb = s.tb := by
    rw [(State.endStarts_poolOnly u o).tb, ut]
  have hh1 : (u.endStarts o).pool.tripHold = s.pool.tripHold := by
    rw [(State.endStarts_poolOnly u o).tripHold, uh]
  have h2 : ((u.endStarts o).holdModules o).module m
      = if s.pool.tripHold = 0 then
          ({ s.module m with state := .held } : Module).beginStop s.tb.run
        else { s.module m with state := .held } := by
    unfold State.holdModules
    dsimp only
    rw [hh1]
    have h3 : ((u.endStarts o).changeModulesAt o [.running] fun x => { x with state := .held }).module m
        = { s.module m with state := .held } := by
      rw [State.module_changeModulesAt, h1, hr, Module.assignedTo, ho]; simp [ho]
    have ht3 : ((u.endStarts o).changeModulesAt o [.running]
        fun x => { x with state := .held }).tb = s.tb := by
      rw [(State.changeModulesAt_poolOnly _ _ _ _).tb, ht1]
    split
    · rw [State.module_onMp, State.module_stopModules, h3, ht3, Module.assignedTo]
      simp [ho]
    · rw [State.module_onMp, h3]
  have h4 : ∀ w : State, w.module m = ((u.endStarts o).holdModules o).module m →
      (w.servePool o).module m = ((u.endStarts o).holdModules o).module m := by
    intro w hw
    rw [State.module_servePool_of_ne_idle _ _ _ ?_, hw]
    rw [hw, h2]
    split
    · exact ModuleState.noConfusion
    · exact ModuleState.noConfusion
  rw [h4, h2]
  split <;> rfl

/-- A module that was STARTING at an outlet that leaves the request states is stopping (R27). -/
theorem State.module_moveTo_starting (s : State) (o : Outlet) (new : OutletState) (pSet : Nat)
    (m : ModuleNo) (hn : new.requests = false) (ho : (s.module m).outlet = some o)
    (hr : (s.module m).state = .starting) :
    (s.moveTo o new pSet).module m = (s.module m).endStart s.tb.run := by
  rw [State.module_moveTo]
  generalize hs : s.onBerth o _ = u
  have um : u.module m = s.module m := by rw [← hs]; rfl
  have ut : u.tb = s.tb := by rw [← hs]; rfl
  unfold State.poolTakesState
  rw [hn, if_neg (by decide)]
  dsimp only
  have h1 : (u.endStarts o).module m = (s.module m).endStart s.tb.run := by
    rw [State.module_endStarts, um, ut, hr, Module.assignedTo, ho]; simp
  have hst : ((s.module m).endStart s.tb.run).state = .stopping := rfl
  have hold : ((u.endStarts o).holdModules o).module m = (s.module m).endStart s.tb.run := by
    unfold State.holdModules
    dsimp only
    have h3 : ((u.endStarts o).changeModulesAt o [.running] fun x => { x with state := .held }).module m
        = (s.module m).endStart s.tb.run := by
      rw [State.module_changeModulesAt, h1, hst]; simp
    split
    · rw [State.module_onMp, State.module_stopModules, h3, hst]; simp
    · rw [State.module_onMp, h3]
  have stop : ((u.endStarts o).stopModules o [.running, .held]).module m
      = (s.module m).endStart s.tb.run := by
    rw [State.module_stopModules, h1, hst]; simp
  have h4 : ∀ w : State, w.module m = (s.module m).endStart s.tb.run →
      (w.servePool o).module m = (s.module m).endStart s.tb.run := by
    intro w hw
    rw [State.module_servePool_of_ne_idle _ _ _ (by rw [hw, hst]; exact ModuleState.noConfusion), hw]
  apply h4
  have key : ∀ w : State, w.module m = (s.module m).endStart s.tb.run →
      (if (s.berth o).sc.state = OutletState.tripped then w.onMp o fun p => { p with hold := none }
        else w).module m = (s.module m).endStart s.tb.run := by
    intro w hw; split
    · exact hw
    · exact hw
  apply key
  cases new <;> simp only [OutletState.requests] at hn <;>
    first | exact h1 | exact hold | exact stop | cases hn

/-- A module of an outlet that enters WIND_DOWN that was RUNNING or HELD is stopping (R98). -/
theorem State.module_moveTo_windDown (s : State) (o : Outlet) (pSet : Nat) (m : ModuleNo)
    (ho : (s.module m).outlet = some o)
    (hr : (s.module m).state = .running ∨ (s.module m).state = .held) :
    (s.moveTo o .windDown pSet).module m = (s.module m).beginStop s.tb.run := by
  rw [State.module_moveTo]
  generalize hs : s.onBerth o _ = u
  have um : u.module m = s.module m := by rw [← hs]; rfl
  have ut : u.tb = s.tb := by rw [← hs]; rfl
  unfold State.poolTakesState
  rw [if_neg (by decide)]
  dsimp only
  have h1 : (u.endStarts o).module m = s.module m := by
    rw [State.module_endStarts, um]
    rcases hr with hr | hr <;> rw [hr] <;> simp
  have ht1 : (u.endStarts o).tb = s.tb := by rw [(State.endStarts_poolOnly u o).tb, ut]
  have h2 : ((u.endStarts o).stopModules o [.running, .held]).module m
      = (s.module m).beginStop s.tb.run := by
    rw [State.module_stopModules, h1, ht1, Module.assignedTo, ho]
    rcases hr with hr | hr <;> rw [hr] <;> simp
  have h4 : ∀ w : State, w.module m = (s.module m).beginStop s.tb.run →
      (w.servePool o).module m = (s.module m).beginStop s.tb.run := by
    intro w hw
    rw [State.module_servePool_of_ne_idle _ _ _ (by rw [hw]; exact ModuleState.noConfusion), hw]
  apply h4
  split <;> exact h2

/-- A module that is not IDLE keeps its outlet through the pool's taking of a change of state, and does
not become IDLE. -/
theorem State.module_moveTo_outlet (s : State) (o : Outlet) (new : OutletState) (pSet : Nat)
    (m : ModuleNo) (h : (s.module m).state ≠ .idle) :
    ((s.moveTo o new pSet).module m).outlet = (s.module m).outlet
      ∧ ((s.moveTo o new pSet).module m).state ≠ .idle := by
  rw [State.module_moveTo]
  generalize hs : s.onBerth o _ = u
  have um : u.module m = s.module m := by rw [← hs]; rfl
  let good : State → Prop := fun w =>
    (w.module m).outlet = (s.module m).outlet ∧ (w.module m).state ≠ .idle
  have gu : good u := by show _ ∧ _; rw [um]; exact ⟨rfl, h⟩
  have gchange : ∀ (w : State) (l : List ModuleState) (f : Module → Module),
      (∀ x : Module, (f x).outlet = x.outlet ∧ (f x).state ≠ .idle) → good w →
      good (w.changeModulesAt o l f) := by
    intro w l f hf hw
    show _ ∧ _
    rw [State.module_changeModulesAt]
    split
    · exact ⟨(hf _).1.trans hw.1, (hf _).2⟩
    · exact hw
  have gmp : ∀ (w : State) (f : OutletPool → OutletPool), good w → good (w.onMp o f) :=
    fun w f hw => hw
  have gend : ∀ w, good w → good (w.endStarts o) := fun w hw =>
    gchange w _ _ (fun x => ⟨rfl, ModuleState.noConfusion⟩) hw
  have gstop : ∀ w l, good w → good (w.stopModules o l) := fun w l hw =>
    gchange w _ _ (fun x => ⟨rfl, ModuleState.noConfusion⟩) hw
  have ghold : ∀ w, good w → good (w.holdModules o) := by
    intro w hw
    unfold State.holdModules
    dsimp only
    split
    · exact gmp _ _ (gstop _ _ (gchange w _ _ (fun x => ⟨rfl, ModuleState.noConfusion⟩) hw))
    · exact gmp _ _ (gchange w _ _ (fun x => ⟨rfl, ModuleState.noConfusion⟩) hw)
  have grejoin : ∀ w, good w → good (w.rejoinModules o) := by
    intro w hw
    unfold State.rejoinModules
    split
    · exact gchange w _ _ (fun x => ⟨rfl, ModuleState.noConfusion⟩) hw
    · exact hw
  have gserve : ∀ w, good w → good (w.servePool o) := by
    intro w hw
    show _ ∧ _
    rw [State.module_servePool_of_ne_idle _ _ _ hw.2]
    exact hw
  show good (u.poolTakesState o (s.berth o).sc.state new)
  unfold State.poolTakesState
  apply gserve
  have g1 : good (if new.requests then u else u.endStarts o) := by
    split
    · exact gu
    · exact gend _ gu
  revert g1
  generalize (if new.requests then u else u.endStarts o) = w
  intro g1
  have key : ∀ v : State, good v →
      good (if (s.berth o).sc.state = OutletState.tripped then v.onMp o fun p => { p with hold := none }
        else v) := by
    intro v hv; split <;> exact hv
  apply key
  split
  · exact ghold _ g1
  · exact gstop _ _ g1
  · split
    · exact grejoin _ g1
    · exact g1
  all_goals exact g1

/-- A change between request states leaves a module that is not IDLE as it was. -/
theorem State.module_moveTo_requests (s : State) (o : Outlet) (new : OutletState) (pSet : Nat)
    (m : ModuleNo) (hn : new.requests = true) (hold : (s.berth o).sc.state ≠ .tripped)
    (hm : (s.module m).state ≠ .idle) : (s.moveTo o new pSet).module m = s.module m := by
  rw [State.module_moveTo]
  generalize hs : s.onBerth o _ = u
  have um : u.module m = s.module m := by rw [← hs]; rfl
  unfold State.poolTakesState
  rw [hn, if_pos rfl]
  dsimp only
  rw [if_neg hold]
  have h4 : (u.servePool o).module m = s.module m := by
    rw [State.module_servePool_of_ne_idle _ _ _ (by rw [um]; exact hm), um]
  cases new <;> simp only [OutletState.requests] at hn <;>
    first | exact h4 | cases hn
  rw [if_neg hold]; exact h4

theorem FaultUnit.take_bit (u : FaultUnit) (k : FaultKind) (e : EventRecord) :
    (u.take k e).flags &&& k.bit = k.bit := by
  rw [FaultUnit.take_flags]
  ext i; simp; exact Or.inr

theorem Synchroniser.takeState_tripped_close (y : Synchroniser) (dead : Bool) (now : RunCount) :
    (y.takeState .tripped dead now).close = .watching := by
  unfold Synchroniser.takeState Synchroniser.closeTakesState
  dsimp only
  split
  · assumption
  · rfl
  · rfl

/-- R106: a trip. -/
theorem State.trip_tripped (s : State) (o : Outlet) (c : Cause) : Tripped o c s (s.trip o c) := by
  have hb := s.moveTo_berth_self o .tripped 0
  have hsc := hb.sc
  have hrg := hb.rg
  have hsy := hb.sy
  have hmt := hb.mt
  rw [Berth.takeState_sc] at hsc
  rw [Berth.takeState_rg] at hrg
  rw [Berth.takeState_sy] at hsy
  rw [Berth.takeState_mt] at hmt
  have hm : ∀ m, (s.trip o c).module m = (s.moveTo o .tripped).module m := fun m => by
    unfold State.trip; simp
  constructor
  · unfold State.trip; simp
  · unfold State.trip; simp
  · unfold State.trip; simp [hsc, OutletRecord.takeState]
  · unfold State.trip; simp [hsc, OutletRecord.takeState]
  · unfold State.trip; simp [hsc, OutletRecord.takeState]
  · unfold State.trip; simp [hrg, OutletState.mode]
  · unfold State.trip; simp [hsy, Synchroniser.takeState_tripped_close]
  · unfold State.trip; simp [Protection.trip]
  · unfold State.trip; simp [Protection.trip]
  · unfold State.trip; simp [Protection.trip, Protection.clearWatches]
  · unfold State.trip; simp [Protection.trip, Protection.clearWatches]
  · unfold State.trip; simp [Protection.trip]
  · unfold State.trip; simp only [State.berth_onMt_self, State.berth_raise, State.mt_onPr,
      State.mt_onSc, hmt]; rfl
  · intro m ho hr
    rw [hm, s.module_moveTo_tripped_running o 0 m ho hr]
    split <;> exact ⟨rfl, ho⟩
  · intro m ho hr
    rw [hm, s.module_moveTo_starting o .tripped 0 m rfl ho hr]
    exact ⟨rfl, ho⟩
  · exact FaultUnit.take_bit _ _ _

/-- What follows a trip without touching the outlet leaves it as it came to. -/
theorem Tripped.after {o : Outlet} {c : Cause} {s t u : State} {x : Scope} (h : Tripped o c s t)
    (a : Acts x t u) (ho : o ∉ x.outlets) (hm : x.modules = []) : Tripped o c s u := by
  have hw : t.waits o = false := by unfold State.waits; rw [h.state]; decide
  have hb := a.berth o ho hw
  have bystander : ∀ m, (t.module m).outlet = some o → (t.module m).state ≠ .idle →
      u.module m = t.module m := fun m e hi => a.module m
    ⟨by rw [hm]; exact List.not_mem_nil, hi, fun p hp => by
      rw [e] at hp; cases hp; exact ⟨ho, hw⟩⟩
  constructor
  · rw [hb.sc]; exact h.state
  · rw [hb.sc]; exact h.cause
  · rw [hb.sc]; exact h.session
  · rw [hb.sc]; exact h.declaration
  · rw [hb.sc]; exact h.target
  · rw [hb.rg]; exact h.mode
  · rw [hb.sy]; exact h.close
  · rw [hb.pr]; exact h.drive
  · rw [hb.pr]; exact h.postTrip
  · rw [hb.pr]; exact h.counts
  · rw [hb.pr]; exact h.watches
  · rw [hb.pr]; exact h.laterCauses
  · rw [hb.mt]; exact h.meter
  · intro m e hr
    obtain ⟨a1, a2⟩ := h.running m e hr
    rw [bystander m a2 (by rw [a1]; split <;> exact ModuleState.noConfusion)]
    exact ⟨a1, a2⟩
  · intro m e hr
    obtain ⟨a1, a2⟩ := h.starting m e hr
    rw [bystander m a2 (by rw [a1]; exact ModuleState.noConfusion)]
    exact ⟨a1, a2⟩
  · have f := a.flags
    calc u.fe.flags &&& c.fault.bit
        = u.fe.flags &&& (t.fe.flags &&& c.fault.bit) := by rw [h.flag]
      _ = (t.fe.flags &&& u.fe.flags) &&& c.fault.bit := by
          rw [← BitVec.and_assoc, BitVec.and_comm u.fe.flags]
      _ = c.fault.bit := by rw [f, h.flag]

/-- What came before a trip without touching what it keeps. -/
theorem Tripped.before {o : Outlet} {c : Cause} {s u t : State} (h : Tripped o c u t)
    (session : (u.berth o).sc.session = (s.berth o).sc.session)
    (declaration : (u.berth o).sc.declaration = (s.berth o).sc.declaration)
    (target : (u.berth o).sc.target = (s.berth o).sc.target)
    (meter : (u.berth o).mt = (s.berth o).mt) (run : u.tb.run = s.tb.run)
    (hold : u.pool.tripHold = s.pool.tripHold)
    (module : ∀ m, (s.module m).outlet = some o → (s.module m).state ≠ .idle →
      u.module m = s.module m) : Tripped o c s t := by
  constructor
  · exact h.state
  · exact h.cause
  · rw [h.session, session]
  · rw [h.declaration, declaration]
  · rw [h.target, target]
  · exact h.mode
  · exact h.close
  · exact h.drive
  · rw [h.postTrip, run]
  · exact h.counts
  · exact h.watches
  · exact h.laterCauses
  · rw [h.meter, meter]
  · intro m ho hr
    have e := module m ho (by rw [hr]; exact ModuleState.noConfusion)
    have := h.running m (by rw [e]; exact ho) (by rw [e]; exact hr)
    rwa [hold] at this
  · intro m ho hr
    have e := module m ho (by rw [hr]; exact ModuleState.noConfusion)
    exact h.starting m (by rw [e]; exact ho) (by rw [e]; exact hr)
  · exact h.flag

/-- What came before an entry to WIND_DOWN without touching what it keeps. -/
theorem WindsDown.before {o : Outlet} {s u t : State} (h : WindsDown o u t)
    (session : (u.berth o).sc.session = (s.berth o).sc.session)
    (meter : (u.berth o).mt = (s.berth o).mt) (run : u.tb.run = s.tb.run)
    (module : ∀ m, (s.module m).outlet = some o → (s.module m).state ≠ .idle →
      u.module m = s.module m) : WindsDown o s t := by
  constructor
  · exact h.state
  · rw [h.session, session]
  · rw [h.meter, meter]
  · exact h.mode
  · intro m ho hr
    have e := module m ho (by rcases hr with hr | hr <;> rw [hr] <;> exact ModuleState.noConfusion)
    have := h.running m (by rw [e]; exact ho) (by rw [e]; exact hr)
    rwa [run] at this
  · intro m ho hr
    have e := module m ho (by rw [hr]; exact ModuleState.noConfusion)
    have := h.starting m (by rw [e]; exact ho) (by rw [e]; exact hr)
    rwa [run] at this

/-- A trip and the passes of the step's end. -/
theorem State.trip_settle_tripped (s : State) (o : Outlet) (c : Cause) :
    Tripped o c s (s.trip o c).settle :=
  (s.trip_tripped o c).after (State.settle_acts ⟨[], [], false, false, []⟩ _)
    List.not_mem_nil rfl

/-- R98: the session of an outlet in WIND_DOWN stays open while something keeps it. -/
theorem State.windDown_eq_moveTo (s : State) (o : Outlet) (h : s.keptOpen o) :
    s.windDown o = s.moveTo o .windDown := by
  unfold State.windDown State.tryClose
  split
  · rfl
  · rw [if_neg]
    unfold State.mayClose
    rcases h with h | ⟨m, h, hi⟩
    · have : ((s.moveTo o .windDown).berth o).lines.breakerClosed = true := by
        rw [(s.moveTo_berth_self o .windDown 0).lines, Berth.takeState_breaker, h]
      dsimp only
      rw [this]; simp
    · have hm := s.module_moveTo_outlet o .windDown 0 m hi
      have : (s.moveTo o .windDown).assigned o ≠ 0 := by
        unfold State.assigned
        intro h0
        have hmem : m ∈ (s.moveTo o .windDown).pool.which fun x => x.assignedTo o := by
          rw [Pool.mem_which]
          show ((s.moveTo o .windDown).module m).assignedTo o = true
          rw [Module.assignedTo, hm.1, h]; simp
        rw [List.length_eq_zero_iff] at h0
        rw [h0] at hmem; cases hmem
      dsimp only
      simp [this]

/-- R98: an entry to WIND_DOWN that leaves the session open. -/
theorem State.windDown_windsDown (s : State) (o : Outlet) (h : s.keptOpen o) :
    WindsDown o s (s.windDown o) := by
  rw [s.windDown_eq_moveTo o h]
  have hb := s.moveTo_berth_self o .windDown 0
  constructor
  · exact s.moveTo_state o .windDown 0
  · rw [hb.sc, Berth.takeState_sc]; rfl
  · rw [hb.mt, Berth.takeState_mt]
  · rw [hb.rg, Berth.takeState_rg, Berth.enterMode_mode]; rfl
  · intro m ho hr
    rw [s.module_moveTo_windDown o 0 m ho hr]
    exact ⟨rfl, ho, rfl⟩
  · intro m ho hr
    rw [s.module_moveTo_starting o .windDown 0 m rfl ho hr]
    exact ⟨rfl, ho, rfl⟩

/-- What follows an entry to WIND_DOWN without touching the outlet leaves it as it came to. -/
theorem WindsDown.after {o : Outlet} {s t u : State} {x : Scope} (h : WindsDown o s t)
    (a : Acts x t u) (ho : o ∉ x.outlets) (hm : x.modules = []) : WindsDown o s u := by
  have hw : t.waits o = false := by unfold State.waits; rw [h.state]; decide
  have hb := a.berth o ho hw
  have bystander : ∀ m, (t.module m).outlet = some o → (t.module m).state ≠ .idle →
      u.module m = t.module m := fun m e hi => a.module m
    ⟨by rw [hm]; exact List.not_mem_nil, hi, fun p hp => by
      rw [e] at hp; cases hp; exact ⟨ho, hw⟩⟩
  constructor
  · rw [hb.sc]; exact h.state
  · rw [hb.sc]; exact h.session
  · rw [hb.mt]; exact h.meter
  · rw [hb.rg]; exact h.mode
  · intro m e hr
    obtain ⟨a1, a2, a3⟩ := h.running m e hr
    rw [bystander m a2 (by rw [a1]; exact ModuleState.noConfusion)]
    exact ⟨a1, a2, a3⟩
  · intro m e hr
    obtain ⟨a1, a2, a3⟩ := h.starting m e hr
    rw [bystander m a2 (by rw [a1]; exact ModuleState.noConfusion)]
    exact ⟨a1, a2, a3⟩

/-- An entry to WIND_DOWN that leaves the session open, and the passes of the step's end. -/
theorem State.windDown_settle_windsDown (s : State) (o : Outlet) (h : s.keptOpen o) :
    WindsDown o s (s.windDown o).settle :=
  (s.windDown_windsDown o h).after (State.settle_acts ⟨[], [], false, false, []⟩ _)
    List.not_mem_nil rfl

/-- Where nothing trips the outlet at its entry to a state, entering it is the change of state. -/
theorem State.enter_eq_moveTo (s : State) (o : Outlet) (new : OutletState) (pSet : Nat)
    (h : s.NoEntryCause o) (hd : (s.berth o).sc.state ≠ .dormant) (hn : new ≠ .dormant) :
    s.enter o new pSet = s.moveTo o new pSet := by
  unfold State.enter
  have hb := s.moveTo_berth_self o new pSet
  have hl := hb.lines
  have hsl := hb.sl
  rw [Berth.takeState_lines _ _ _ _ _ hd hn] at hl
  rw [Berth.takeState_sl _ _ _ _ _ hd hn] at hsl
  have hc : ((s.moveTo o new pSet).berth o).levelCause = none := by
    unfold Berth.levelCause
    rw [hl, hsl, h.pilot, h.stop, h.scp]; rfl
  have he : ((s.moveTo o new pSet).berth o).entryCause (s.moveTo o new pSet).gridWatch.standing
      = none := by
    unfold Berth.entryCause
    rw [hc, State.moveTo_gridWatch, h.grid]
    simp
  dsimp only
  rw [he]

end Sys2Proof.Machine
end

