-- ==== Sys2Proof/Laws/Blocks.lean ====
section
/-! SUPPORT. The scopes of the operations of the measurement unit, the module lines, the breaker lines
and the ship link. -/

namespace Sys2Proof.Machine

open Sys2Proof

/-- A fault raised and what follows it. -/
theorem Acts.thenIf {x : Scope} {s t : State} (c : Prop) [Decidable c] (h : Acts x s t) :
    Acts x s (if c then t else s) := by
  split
  · exact h
  · exact .refl _ _

/-! ### Measurement -/

theorem State.noteClip_acts {x : Scope} (s : State) (o : Outlet) (clipped : Bool) (h : o ∈ x.outlets)
    (hk : .measurementClip ∈ x.kinds) : Acts x s (s.noteClip o clipped) := by
  unfold State.noteClip
  dsimp only
  split
  · exact (Acts.raise _ _ _ _ _ hk).trans (Acts.clipReported _ _ _ h)
  · exact .refl _ _

theorem Berth.judgeCapacityWatches_sc (b : Berth) (c : Nat) (now : RunCount) :
    (b.judgeCapacityWatches c now).sc = b.sc := rfl

theorem Berth.countOverload_rest (b : Berth) (c : Nat) (r : PowerRecord) :
    b.countOverload c r = { b with pr := { b.pr with overload := (b.countOverload c r).pr.overload } } := by
  unfold Berth.countOverload; split <;> rfl

theorem Berth.powerLoop_rest (b : Berth) (c : Nat) (r : PowerRecord) :
    b.powerLoop c r = { b with rg := (b.powerLoop c r).rg } := by
  unfold Berth.powerLoop
  split
  · dsimp only
    split
    · rfl
    · split <;> rfl
  · rfl

theorem Berth.rgPair_rest (b : Berth) (r : PairRecord) :
    b.rgPair r = { b with rg := (b.rgPair r).rg } := by
  unfold Berth.rgPair
  dsimp only
  split <;> rfl

theorem Berth.syPair_rest (b : Berth) (c : Nat) (r : PairRecord) :
    b.syPair c r = { b with sy := (b.syPair c r).sy } := by
  unfold Berth.syPair
  split
  · split <;> rfl
  · rfl

theorem Berth.syShipRecord_rest (b : Berth) (now : RunCount) :
    b.syShipRecord now = { b with sy := (b.syShipRecord now).sy } := by
  unfold Berth.syShipRecord
  split
  · split <;> rfl
  · rfl

theorem Berth.prShipRecord_rest (b : Berth) (r : Phasor) :
    b.prShipRecord r = { b with pr := { b.pr with
      frequency := (b.prShipRecord r).pr.frequency
      voltageFrom := (b.prShipRecord r).pr.voltageFrom } } := by
  unfold Berth.prShipRecord; split <;> rfl


theorem State.mpPower_acts {x : Scope} (s : State) (o : Outlet) (r : PowerRecord) (h : o ∈ x.outlets)
    (hk : ∀ k ∈ entryKinds, k ∈ x.kinds) : Acts x s (s.mpPower o r) := by
  unfold State.mpPower
  dsimp only
  split
  · rename_i m hm
    refine (((((State.judgeWatches_acts _ _ _ _).trans
      (State.beginVoluntary_acts _ _ _ (.inr ⟨?_, h⟩))).trans (State.shareLoad_acts _ _ _ h)).trans
      (State.tidyWatches_acts _ _ _)).trans (State.capacityChanged_acts _ _ h hk))
    unfold State.stopDue at hm
    split at hm
    · split at hm
      · rename_i v _ hv
        cases hm
        have h2 := hv.2.1
        unfold State.voluntaryStands at h2
        rw [if_neg (by simp [hv.1])] at h2
        simp only [Bool.and_eq_true, Module.inStateAt, beq_iff_eq] at h2
        exact h2.2.2
      · cases hm
    · cases hm
  · exact (State.judgeWatches_acts _ _ _ _).trans (State.shareLoad_acts _ _ _ h)

theorem State.prPower_acts {x : Scope} (s : State) (o : Outlet) (r : PowerRecord) (h : o ∈ x.outlets)
    (hk : .overload ∈ x.kinds) : Acts x s (s.prPower o r) := by
  unfold State.prPower
  dsimp only
  have first : Acts x s (s.onBerth o fun b =>
      (b.countOverload (s.capacity o) r).judgeCapacityWatches (s.capacity o) s.tb.run) :=
    Acts.onBerth_keep _ _ _ h (by rw [Berth.countOverload_rest]; rfl)
      (by rw [Berth.countOverload_rest]; constructor <;> rfl)
  split
  · exact first.trans (State.complete_acts _ _ _ h hk)
  · exact first

theorem State.prShip_acts {x : Scope} (s : State) (o : Outlet) (r : Phasor) (h : o ∈ x.outlets)
    (hk : .busFrequency ∈ x.kinds) : Acts x s (s.prShip o r) := by
  unfold State.prShip
  dsimp only
  have first : Acts x s (s.onBerth o fun b => b.prShipRecord r) :=
    Acts.onBerth_keep _ _ _ h (by rw [Berth.prShipRecord_rest])
      (by rw [Berth.prShipRecord_rest]; constructor <;> rfl)
  split
  · exact first.trans (State.complete_acts _ _ _ h hk)
  · exact first

theorem State.judgeBuses_acts {x : Scope} (s : State) (o : Outlet) (h : o ∈ x.outlets)
    (hk : ∀ k ∈ entryKinds, k ∈ x.kinds) : Acts x s (s.judgeBuses o) :=
  (State.tryDeadBus_acts _ _ h hk).trans (State.judgeEnergising_acts _ _ h hk)

/-! ### Module lines -/

theorem State.leaveUnit_acts (x : Scope) (s : State) (m : ModuleNo) : Acts x s (s.leaveUnit m) := by
  unfold State.leaveUnit
  split
  · exact State.freeUnit_acts _ _
  · exact .refl _ _

theorem State.moduleLeft_acts {x : Scope} (s : State) (outlet : Option Outlet) (running : Bool)
    (h : ∀ o, outlet = some o → o ∈ x.outlets) (hb : x.bills = true)
    (hk : ∀ k ∈ entryKinds, k ∈ x.kinds) : Acts x s (s.moduleLeft outlet running) := by
  unfold State.moduleLeft
  split
  · exact State.arbitrate_acts _ _
  · rename_i o
    have ho : o ∈ x.outlets := h o rfl
    refine Acts.trans (Acts.trans ?_ (State.tryClose_acts _ _ ho hb)) (State.arbitrate_acts _ _)
    split
    · exact State.capacityChanged_acts _ _ ho hk
    · exact State.servePool_acts _ _ _

theorem State.ariseReplace_acts (x : Scope) (s : State) (o : Outlet) :
    Acts x s (s.ariseReplace o) := by
  unfold State.ariseReplace
  split
  · exact .onMp _ _ _ _
  · exact .refl _ _

theorem State.moduleFaulted_acts {x : Scope} (s : State) (m : ModuleNo) (code : Option Nat)
    (hm : m ∈ x.modules) (ho : ∀ o, (s.module m).outlet = some o → o ∈ x.outlets)
    (hb : x.bills = true) (hf : .moduleFault ∈ x.kinds) (hk : ∀ k ∈ entryKinds, k ∈ x.kinds) :
    Acts x s (s.moduleFaulted m code) := by
  unfold State.moduleFaulted
  dsimp only
  refine Acts.trans ?_ (State.moduleLeft_acts _ _ _ ho hb hk)
  have first := ((State.changeModule_acts (x := x) (s := s) (m := m) (fun x => x.toFaulted code)
    (.inl hm)).trans (.raise _ _ .moduleFault (.module m) code hf)).trans
    (State.leaveUnit_acts _ _ m)
  split
  · exact first.trans (State.ariseReplace_acts _ _ _)
  · exact first

theorem State.startFailed_acts {x : Scope} (s : State) (m : ModuleNo) (code : Option Nat)
    (hm : m ∈ x.modules) (hf : .moduleStartFail ∈ x.kinds) : Acts x s (s.startFailed m code) := by
  unfold State.startFailed
  split
  · exact .refl _ _
  · split
    · dsimp only
      refine Acts.trans ?_ (State.servePool_acts _ _ _)
      have first := ((State.changeModule_acts (x := x) (s := s) (m := m)
        (fun x => x.toFaulted code) (.inl hm)).trans
        (.raise _ _ .moduleStartFail (.module m) code hf)).trans (State.freeUnit_acts _ _)
      split
      · exact first.trans (.onMp _ _ _ _)
      · exact first
    · exact .refl _ _

theorem State.startComplete_acts {x : Scope} (s : State) (m : ModuleNo) (hm : m ∈ x.modules)
    (ho : ∀ o, (s.module m).outlet = some o → o ∈ x.outlets)
    (hk : ∀ k ∈ entryKinds, k ∈ x.kinds) : Acts x s (s.startComplete m) := by
  unfold State.startComplete
  dsimp only
  have first := (State.changeModule_acts (x := x) (s := s) (m := m)
    (fun x => { x with state := .running, precharged := false, busForming := false })
    (.inl hm)).trans (State.leaveUnit_acts _ _ m)
  split
  · rename_i o h
    exact (first.trans (State.capacityChanged_acts _ _ (ho o h) hk)).trans (State.arbitrate_acts _ _)
  · exact first.trans (State.arbitrate_acts _ _)

theorem State.stopComplete_acts {x : Scope} (s : State) (m : ModuleNo) (hm : m ∈ x.modules)
    (ho : ∀ o, (s.module m).outlet = some o → o ∈ x.outlets) (hb : x.bills = true)
    (hk : ∀ k ∈ entryKinds, k ∈ x.kinds) : Acts x s (s.stopComplete m) :=
  ((State.changeModule_acts (x := x) (s := s) (m := m) Module.toIdle (.inl hm)).trans
    (State.leaveUnit_acts _ _ m)).trans (State.moduleLeft_acts _ _ _ ho hb hk)

theorem State.recover_acts {x : Scope} (s : State) (m : ModuleNo) (hm : m ∈ x.modules)
    (hf : .moduleLockout ∈ x.kinds) : Acts x s (s.recover m) := by
  unfold State.recover
  split
  · exact (State.changeModule_acts _ (.inl hm)).trans (State.arbitrate_acts _ _)
  · exact (State.changeModule_acts _ (.inl hm)).trans (.raise _ _ _ _ _ hf)

/-- The fault kinds that a module's line can raise. -/
def moduleKinds : List FaultKind :=
  [.moduleFault, .moduleStartFail, .moduleLockout, .moduleLinkLost] ++ entryKinds

theorem State.judgeReport_acts {x : Scope} (s : State) (m : ModuleNo) (r : ModuleReport)
    (hm : m ∈ x.modules) (ho : ∀ o, (s.module m).outlet = some o → o ∈ x.outlets)
    (hb : x.bills = true) (hk : ∀ k ∈ moduleKinds, k ∈ x.kinds) : Acts x s (s.judgeReport m r) := by
  have he : ∀ k ∈ entryKinds, k ∈ x.kinds := fun k h => hk k (List.mem_append_right _ h)
  have hf : FaultKind.moduleFault ∈ x.kinds := hk _ (by decide)
  have hs : FaultKind.moduleStartFail ∈ x.kinds := hk _ (by decide)
  have hl : FaultKind.moduleLockout ∈ x.kinds := hk _ (by decide)
  have stopping : Acts x s (s.stoppingReport m r) := by
    unfold State.stoppingReport
    dsimp only
    split
    · split
      · exact State.stopComplete_acts _ _ hm ho hb he
      · exact .refl _ _
    · split
      · exact .onModule _ _ _ _ (.inl hm)
      · exact .refl _ _
  unfold State.judgeReport
  dsimp only
  split
  all_goals first
    | exact .refl _ _
    | exact stopping
    | exact State.moduleFaulted_acts _ _ _ hm ho hb hf he
    | exact State.startFailed_acts _ _ _ hm hs
    | exact .onModule _ _ _ _ (.inl hm)
    | skip
  · exact Acts.thenIf _ (State.recover_acts _ _ hm hl)
  · split
    · exact State.startComplete_acts _ _ hm ho he
    · exact State.startFailed_acts _ _ _ hm hs
  all_goals
    split
    · exact stopping
    · exact State.moduleFaulted_acts _ _ _ hm ho hb hf he

theorem State.ratingChanged_acts {x : Scope} (s : State) (st : ModuleState) (o : Outlet)
    (h : o ∈ x.outlets) (hk : ∀ k ∈ entryKinds, k ∈ x.kinds) : Acts x s (s.ratingChanged st o) := by
  unfold State.ratingChanged
  split
  · exact State.capacityChanged_acts _ _ h hk
  · exact State.servePool_acts _ _ _
  all_goals exact .refl _ _

theorem State.copyReport_acts {x : Scope} (s : State) (m : ModuleNo) (r : ModuleReport)
    (hm : m ∈ x.modules) (ho : ∀ o, (s.module m).outlet = some o → o ∈ x.outlets)
    (hk : ∀ k ∈ entryKinds, k ∈ x.kinds) : Acts x s (s.copyReport m r) := by
  unfold State.copyReport
  dsimp only
  have first : Acts x s (s.onModule m fun y => y.copyReport r s.tb.run) :=
    .onModule _ _ _ _ (.inl hm)
  split
  · rename_i o h
    split
    · exact first
    · exact first.trans (State.ratingChanged_acts _ _ _ (ho o h) hk)
  · exact first

/-! ### Breaker lines -/

theorem State.closeConfirmed_acts {x : Scope} (s : State) (o : Outlet) (kind : CloseKind)
    (h : o ∈ x.outlets) (hk : ∀ k ∈ entryKinds, k ∈ x.kinds) : Acts x s (s.closeConfirmed o kind) := by
  unfold State.closeConfirmed
  dsimp only
  split
  · exact State.enterJudged_acts _ _ _ _ h (by decide) hk
  · exact State.enter_acts _ _ _ _ h (.inl (by decide)) hk
  · exact State.enterJudged_acts _ _ _ _ h (by decide) hk
  · have first := State.enter_acts s o .shoreSupply 0 h (.inl (by decide)) hk
    split
    · exact first.trans (State.requestReturn_acts _ _ h hk)
    · exact first

theorem Synchroniser.confirm_settings (y : Synchroniser) (now : RunCount) :
    (y.confirm now).settings = y.settings := by unfold Synchroniser.confirm; split <;> rfl

theorem State.confirmClose_acts {x : Scope} (s : State) (o : Outlet) (h : o ∈ x.outlets)
    (hk : ∀ k ∈ entryKinds, k ∈ x.kinds) : Acts x s (s.confirmClose o) := by
  unfold State.confirmClose
  dsimp only
  refine Acts.trans (Acts.trans ?_ (Acts.onMt _ _ _ h)) (State.closeConfirmed_acts _ _ _ h hk)
  split
  · exact (Acts.onSy _ _ _ h (Synchroniser.confirm_settings _ _)).trans (.report _ _ _ _ _)
  · exact Acts.onSy _ _ _ h (Synchroniser.confirm_settings _ _)

theorem State.unwantedClosure_acts {x : Scope} (s : State) (o : Outlet) (h : o ∈ x.outlets)
    (hk : .breakerLate ∈ x.kinds) : Acts x s (s.unwantedClosure o) :=
  (Acts.onSy s o _ h rfl).trans (.raise _ _ _ _ _ hk)

theorem State.closureInTripped_acts {x : Scope} (s : State) (o : Outlet) (h : o ∈ x.outlets)
    (hk : ∀ k ∈ entryKinds, k ∈ x.kinds) : Acts x s (s.closureInTripped o) := by
  unfold State.closureInTripped
  dsimp only
  split
  · exact (Acts.onPr _ _ _ h rfl).trans (State.complete_acts _ _ _ h (hk _ (by decide)))
  · exact Acts.onPr _ _ _ h rfl

theorem State.takeClosed_acts {x : Scope} (s : State) (o : Outlet) (h : o ∈ x.outlets)
    (hk : ∀ k ∈ entryKinds, k ∈ x.kinds) (hl : .breakerLate ∈ x.kinds) :
    Acts x s (s.takeClosed o) := by
  unfold State.takeClosed
  dsimp only
  split
  · exact State.confirmClose_acts _ _ h hk
  · split
    · exact State.unwantedClosure_acts _ _ h hl
    · split
      · exact State.closureInTripped_acts _ _ h hk
      · exact .refl _ _

theorem Protection.takeOpen_tripPct (p : Protection) (st : OutletState) :
    (p.takeOpen st).tripPct = p.tripPct := by
  unfold Protection.takeOpen; dsimp only
  split
  · rfl
  · split <;> split <;> rfl

/-- What the feedback's opening makes of PR's drive and post-trip time (R107): in WIND_DOWN both end; in
any other state the time runs on, and the drive with it unless it had outlasted the time. -/
theorem Protection.takeOpen_drive (p : Protection) (st : OutletState) :
    (st = .windDown ∧ p.takeOpen st = p.release)
      ∨ (st ≠ .windDown ∧ (p.takeOpen st).openDrive = (p.openDrive && !p.breakerFail)
        ∧ (p.takeOpen st).postTripFrom = p.postTripFrom ∧ (p.takeOpen st).breakerFail = false
        ∧ (p.takeOpen st).laterCauses = p.laterCauses) := by
  unfold Protection.takeOpen
  by_cases h : st = .windDown
  · exact .inl ⟨h, if_pos h⟩
  · refine .inr ⟨h, ?_⟩
    simp only [if_neg h]
    cases hf : p.breakerFail <;> split <;> simp_all [Protection.clearWatches]

/-! ### The supervisory link -/

@[simp] theorem SupervisoryLink.sent_transmit (v : SupervisoryLink) (r : Reply) (rest : List Reply) :
    (v.sent r rest).transmit = rest := rfl

@[simp] theorem SupervisoryLink.sent_inProgress (v : SupervisoryLink) (r : Reply)
    (rest : List Reply) :
    (v.sent r rest).inProgress = if r.answers then none else v.inProgress := rfl

@[simp] theorem SupervisoryLink.sent_lastFrame (v : SupervisoryLink) (r : Reply)
    (rest : List Reply) : (v.sent r rest).lastFrame = r.frame := rfl

@[simp] theorem SupervisoryLink.restart_lastFrame (v : SupervisoryLink) :
    v.restart.lastFrame = v.lastFrame := rfl

/-! ### The feedback's opening -/

theorem Berth.releaseDrives_inputs (b : Berth) : SameInputs b b.releaseDrives := by
  constructor <;> first | rfl | exact Protection.takeOpen_tripPct _ _ | skip
  unfold Berth.releaseDrives; dsimp only; split <;> rfl

/-- Outside ENERGISING and SYNCHRONISING the feedback's opening raises no fault of an entry. -/
theorem State.afterOpen_quiet_acts {x : Scope} (s : State) (o : Outlet) (h : o ∈ x.outlets)
    (hb : x.bills = true) (he : (s.berth o).sc.state ≠ .energising)
    (hs : (s.berth o).sc.state ≠ .synchronising) : Acts x s (s.afterOpen o) := by
  unfold State.afterOpen
  dsimp only
  split
  all_goals first
    | exact State.windDown_acts _ _ h hb
    | exact State.tryClose_acts _ _ h hb
    | exact .refl _ _
    | contradiction
    | skip
  split
  · exact .refl _ _
  · refine State.moveTo_acts _ _ _ _ h (.inl ?_)
    split <;> decide

theorem State.afterOpen_acts {x : Scope} (s : State) (o : Outlet) (h : o ∈ x.outlets)
    (hb : x.bills = true) (hk : ∀ k ∈ entryKinds, k ∈ x.kinds) : Acts x s (s.afterOpen o) := by
  by_cases he : (s.berth o).sc.state = .energising
  · simpa only [State.afterOpen, he] using State.tryDeadBus_acts s o h hk
  · by_cases hs : (s.berth o).sc.state = .synchronising
    · simpa only [State.afterOpen, hs] using State.tryDeadBus_acts s o h hk
    · exact State.afterOpen_quiet_acts s o h hb he hs

theorem State.takeOpen_acts {x : Scope} (s : State) (o : Outlet) (h : o ∈ x.outlets)
    (hb : x.bills = true) (hk : ∀ k ∈ entryKinds, k ∈ x.kinds) (hu : .unexpectedOpen ∈ x.kinds) :
    Acts x s (s.takeOpen o) := by
  unfold State.takeOpen
  dsimp only
  split
  · exact State.complete_acts _ _ _ h hu
  · exact (Acts.onBerth_keep _ _ _ h rfl (Berth.releaseDrives_inputs _)).trans
      (State.afterOpen_acts _ _ h hb hk)

theorem State.closeFailed_acts {x : Scope} (s : State) (o : Outlet) (h : o ∈ x.outlets)
    (hb : x.bills = true) (ha : .handoverAbort ∈ x.kinds) (ht : .syncTimeout ∈ x.kinds) :
    Acts x s (s.closeFailed o) := by
  unfold State.closeFailed
  dsimp only
  have back := State.moveTo_acts (x := x) s o .synchronising 0 h (.inl (by decide))
  split
  · exact State.windDown_acts _ _ h hb
  · split
    · exact (back.trans (.raise _ _ _ _ _ ha)).trans (State.windDown_acts _ _ h hb)
    · split
      · exact (back.trans (.raise _ _ _ _ _ ht)).trans (State.windDown_acts _ _ h hb)
      · exact back

theorem State.pilotOpened_acts {x : Scope} (s : State) (o : Outlet) (h : o ∈ x.outlets)
    (hb : x.bills = true) (hk : .pilotOpen ∈ x.kinds) : Acts x s (s.pilotOpened o) := by
  unfold State.pilotOpened
  dsimp only
  split
  all_goals first
    | exact State.windDown_acts _ _ h hb
    | exact State.complete_acts _ _ .pilotOpen h hk
    | exact .refl _ _
    | exact State.moveTo_acts _ _ _ _ h (.inl (by decide))
    | skip
  split
  · exact (State.complete_acts _ _ .pilotOpen h hk).trans (State.windDown_acts _ _ h hb)
  · exact State.complete_acts _ _ .pilotOpen h hk

theorem State.abortRampIn_acts {x : Scope} (s : State) (o : Outlet) (h : o ∈ x.outlets)
    (hk : ∀ k ∈ entryKinds, k ∈ x.kinds) (ha : .handoverAbort ∈ x.kinds) :
    Acts x s (s.abortRampIn o) :=
  (Acts.raise _ _ _ _ _ ha).trans (State.enter_acts _ _ _ _ h (.inl (by decide)) hk)

/-! ### The ship link -/

/-- A change of SL alone. -/
theorem Acts.sl {x : Scope} (s : State) (o : Outlet) (f : Berth → Berth) (h : o ∈ x.outlets)
    (hf : ∀ b, f b = { b with sl := (f b).sl }) : Acts x s (s.onBerth o f) :=
  Acts.onBerth_keep _ _ _ h (by rw [hf]) (by rw [hf]; constructor <;> rfl)

/-- A leader's step works on SL alone. -/
theorem Berth.nextPoll_rest (b : Berth) (upTo : Nat) (now : RunCount) :
    b.nextPoll upTo now = { b with sl := (b.nextPoll upTo now).sl } := by
  unfold Berth.nextPoll; split <;> rfl

theorem Berth.beginCycle_rest (b : Berth) (now : RunCount) :
    b.beginCycle now = { b with sl := (b.beginCycle now).sl } := by
  unfold Berth.beginCycle; rw [Berth.nextPoll_rest]

theorem Berth.resume_rest (b : Berth) (now : RunCount) :
    b.resume now = { b with sl := (b.resume now).sl } := by
  unfold Berth.resume
  split
  · split
    · exact Berth.beginCycle_rest _ _
    · rfl
  · exact Berth.nextPoll_rest _ _ _
  all_goals rfl

theorem State.resume_acts {x : Scope} (s : State) (o : Outlet) (h : o ∈ x.outlets) :
    Acts x s (s.resume o) := Acts.sl _ _ _ h fun _ => Berth.resume_rest _ _

theorem State.handLoss_acts {x : Scope} (s : State) (o : Outlet) (k : Option StationKind)
    (h : o ∈ x.outlets) (hk : ∀ k ∈ entryKinds, k ∈ x.kinds) : Acts x s (s.handLoss o k) := by
  unfold State.handLoss
  split
  · exact State.complete_acts _ _ _ h (hk _ (by decide))
  · exact (Acts.onSl _ _ _ h).trans (State.judgeGenerators_acts _ _ h hk)
  · exact .refl _ _
  · exact .refl _ _

theorem State.miss_acts {x : Scope} (s : State) (o : Outlet) (a : Nat) (checked : Bool)
    (h : o ∈ x.outlets) (hk : ∀ k ∈ entryKinds, k ∈ x.kinds) : Acts x s (s.miss o a checked) := by
  unfold State.miss
  split
  · exact .refl _ _
  · dsimp only
    split
    · exact (Acts.onSl _ _ _ h).trans (State.handLoss_acts _ _ _ h hk)
    · exact Acts.onSl _ _ _ h

theorem State.makeDuplicate_acts {x : Scope} (s : State) (o : Outlet) (e : Station)
    (h : o ∈ x.outlets) (hk : ∀ k ∈ entryKinds, k ∈ x.kinds) (hd : .stationDuplicate ∈ x.kinds) :
    Acts x s (s.makeDuplicate o e) :=
  ((Acts.onSl s o _ h).trans (.raise _ _ _ _ _ hd)).trans (State.handLoss_acts _ _ _ h hk)

theorem State.sendEnlisted_acts {x : Scope} (s : State) (o : Outlet) (a : Nat) (e : Enlistment)
    (h : o ∈ x.outlets) : Acts x s (s.sendEnlisted o a e) := Acts.onSl _ _ _ h

theorem State.refuseStation_acts {x : Scope} (s : State) (o : Outlet) (a : Nat)
    (h : o ∈ x.outlets) : Acts x s (s.refuseStation o a) :=
  ((Acts.report x s _ _ _).trans (Acts.onSl _ _ _ h)).trans (State.sendEnlisted_acts _ _ _ _ h)

theorem State.foundShared_acts {x : Scope} (s : State) (o : Outlet) (a : Nat)
    (h : o ∈ x.outlets) (hk : ∀ k ∈ entryKinds, k ∈ x.kinds) (hd : .stationDuplicate ∈ x.kinds) :
    Acts x s (s.foundShared o a) := by
  unfold State.foundShared
  dsimp only
  split
  · split
    · exact State.sendEnlisted_acts _ _ _ _ h
    · exact (State.makeDuplicate_acts _ _ _ h hk hd).trans (State.sendEnlisted_acts _ _ _ _ h)
  · split
    · exact State.refuseStation_acts _ _ _ h
    · exact ((Acts.onSl _ _ _ h).trans (.raise _ _ _ _ _ hd)).trans
        (State.sendEnlisted_acts _ _ _ _ h)

theorem State.countCollision_acts {x : Scope} (s : State) (o : Outlet) (src : Option Nat)
    (h : o ∈ x.outlets) (hk : ∀ k ∈ entryKinds, k ∈ x.kinds) (hd : .stationDuplicate ∈ x.kinds) :
    Acts x s (s.countCollision o src) := by
  unfold State.countCollision
  split
  · exact .refl _ _
  · dsimp only
    split
    · exact ((Acts.onSl _ _ _ h).trans (Acts.onSl _ _ _ h)).trans
        (State.foundShared_acts _ _ _ h hk hd)
    · exact Acts.onSl _ _ _ h

theorem State.collision_acts {x : Scope} (s : State) (o : Outlet) (src : Option Nat)
    (h : o ∈ x.outlets) (hk : ∀ k ∈ entryKinds, k ∈ x.kinds) (hd : .stationDuplicate ∈ x.kinds) :
    Acts x s (s.collision o src) := by
  unfold State.collision
  dsimp only
  split
  · exact State.countCollision_acts _ _ _ h hk hd
  · exact (State.countCollision_acts _ _ _ h hk hd).trans (State.resume_acts _ _ h)

theorem State.noAnswer_acts {x : Scope} (s : State) (o : Outlet) (h : o ∈ x.outlets) :
    Acts x s (s.noAnswer o) := by
  refine Acts.sl _ _ _ h fun b => ?_
  dsimp only
  split
  · exact Berth.beginCycle_rest _ _
  all_goals rfl

theorem State.enlistStation_acts {x : Scope} (s : State) (o : Outlet) (a : Nat) (k : StationKind)
    (id : BitVec 32) (h : o ∈ x.outlets) : Acts x s (s.enlistStation o a k id) := by
  unfold State.enlistStation
  dsimp only
  refine Acts.trans ?_ (State.sendEnlisted_acts _ _ _ _ h)
  split
  · exact (Acts.onSl _ _ _ h).trans (Acts.onSc _ _ _ h rfl rfl)
  · exact Acts.onSl _ _ _ h

theorem State.answer_acts {x : Scope} (s : State) (o : Outlet) (a : Nat) (k : StationKind)
    (id : BitVec 32) (h : o ∈ x.outlets) (hk : ∀ k ∈ entryKinds, k ∈ x.kinds)
    (hd : .stationDuplicate ∈ x.kinds) : Acts x s (s.answer o a k id) := by
  unfold State.answer
  refine (Acts.onSl s o ShipLink.settleCount h).trans ?_
  generalize s.onSl o ShipLink.settleCount = s
  dsimp only
  split
  · split
    · exact State.enlistStation_acts _ _ _ _ _ h
    · exact State.refuseStation_acts _ _ _ h
  · split
    · exact State.sendEnlisted_acts _ _ _ _ h
    · split
      · split
        · exact Acts.sl _ _ _ h fun _ => rfl
        · exact State.sendEnlisted_acts _ _ _ _ h
      · exact (State.makeDuplicate_acts _ _ _ h hk hd).trans (State.sendEnlisted_acts _ _ _ _ h)

theorem State.shipConnect_acts {x : Scope} (s : State) (o : Outlet) (d : Option Declaration)
    (h : o ∈ x.outlets) (hc : x.connects = true) : Acts x s (s.shipConnect o d) := by
  unfold State.shipConnect
  split
  · exact (Acts.onSc _ _ _ h rfl rfl).trans (State.takeConnect_acts _ _ _ h hc)
  · exact .refl _ _

theorem State.shipCancel_acts {x : Scope} (s : State) (o : Outlet) (h : o ∈ x.outlets)
    (hb : x.bills = true) (hk : ∀ k ∈ entryKinds, k ∈ x.kinds) : Acts x s (s.shipCancel o) := by
  unfold State.shipCancel
  split
  all_goals first
    | exact .refl _ _
    | exact State.moveTo_acts _ _ _ _ h (.inl (by decide))
    | exact State.windDown_acts _ _ h hb
    | exact Acts.onSc _ _ _ h rfl rfl
    | exact State.enter_acts _ _ _ _ h (.inl (by decide)) hk
    | exact State.requestReturn_acts _ _ h hk

theorem State.shipReturn_acts {x : Scope} (s : State) (o : Outlet) (h : o ∈ x.outlets)
    (hk : ∀ k ∈ entryKinds, k ∈ x.kinds) : Acts x s (s.shipReturn o) := by
  unfold State.shipReturn
  split
  all_goals first
    | exact .refl _ _
    | exact State.enter_acts _ _ _ _ h (.inl (by decide)) hk
    | exact State.requestReturn_acts _ _ h hk

@[simp] theorem OutletRecord.flagsAfter_counted (r : OutletRecord) (st : ShipStatus) :
    r.flagsAfter st false = some { connect := st.connect, cancel := st.cancel, ret := st.ret } := rfl

@[simp] theorem OutletRecord.flagsAfter_blocked (r : OutletRecord) (st : ShipStatus) :
    r.flagsAfter st true = r.flagsSeen.map fun m => { m with connect := false } := rfl

/-- After a blocked connect request the next STATUS that shows CONNECT set carries one (R80). -/
theorem OutletRecord.asksConnect_after_blocked (r : OutletRecord) (st next : ShipStatus)
    (h : next.connect = true) :
    { r with flagsSeen := r.flagsAfter st true }.asksConnect next = true := by
  cases hm : r.flagsSeen <;> simp [OutletRecord.asksConnect, newlySet, hm, h]

/-- And CANCEL and RETURN of the next STATUS are judged against the one before the blocked one (R80). -/
theorem newlySet_after_blocked (r : OutletRecord) (st : ShipStatus) (flag : Bool) :
    newlySet (r.flagsAfter st true) flag RequestMemory.cancel
        = newlySet r.flagsSeen flag RequestMemory.cancel
      ∧ newlySet (r.flagsAfter st true) flag RequestMemory.ret
        = newlySet r.flagsSeen flag RequestMemory.ret := by
  cases hm : r.flagsSeen <;> simp [newlySet, hm]

theorem State.takeScpStatus_acts {x : Scope} (s : State) (o : Outlet) (st : ShipStatus)
    (h : o ∈ x.outlets) (hc : x.connects = true) (hb : x.bills = true)
    (hk : ∀ k ∈ entryKinds, k ∈ x.kinds) : Acts x s (s.takeScpStatus o st) := by
  unfold State.takeScpStatus
  dsimp only
  have thenIf : ∀ {s t : State} (c : Bool) (f : State → State), Acts x s t →
      (∀ u, Acts x u (f u)) → Acts x s (if c = true then f t else t) := by
    intro s t c f h hf
    split
    · exact h.trans (hf _)
    · exact h
  refine thenIf _ (fun u => u.shipReturn o) ?_ (fun u => State.shipReturn_acts _ _ h hk)
  refine thenIf _ (fun u => u.shipCancel o) ?_ (fun u => State.shipCancel_acts _ _ h hb hk)
  refine thenIf _ (fun u => u.shipConnect o st.declaration) ?_
    (fun u => State.shipConnect_acts _ _ _ h hc)
  exact Acts.onSc _ _ _ h rfl rfl

theorem State.goodReply_acts {x : Scope} (s : State) (o : Outlet) (a : Nat) (st : ShipStatus)
    (h : o ∈ x.outlets) (hc : x.connects = true) (hb : x.bills = true)
    (hk : ∀ k ∈ entryKinds, k ∈ x.kinds) : Acts x s (s.goodReply o a st) := by
  unfold State.goodReply
  dsimp only
  have first : Acts x s (if st.stop = true then
      (s.onSl o fun l => l.onEntry a fun e => e.good st ((s.berth o).sl.isScp a)).complete o .shipStop
      else s.onSl o fun l => l.onEntry a fun e => e.good st ((s.berth o).sl.isScp a)) := by
    split
    · exact (Acts.onSl _ _ _ h).trans (State.complete_acts _ _ _ h (hk _ (by decide)))
    · exact Acts.onSl _ _ _ h
  split
  · exact first.trans (State.takeScpStatus_acts _ _ _ h hc hb hk)
  · exact first

theorem State.reply_acts {x : Scope} (s : State) (o : Outlet) (f : LeaderFrame) (hd : Heard)
    (h : o ∈ x.outlets) (hc : x.connects = true) (hb : x.bills = true)
    (hk : ∀ k ∈ entryKinds, k ∈ x.kinds) (hs : .stationDuplicate ∈ x.kinds) :
    Acts x s (s.reply o f hd) := by
  unfold State.reply
  split
  all_goals first
    | exact .refl _ _
    | exact State.noAnswer_acts _ _ h
    | exact State.collision_acts _ _ _ h hk hs
    | exact (State.miss_acts _ _ _ _ h hk).trans (State.resume_acts _ _ h)
    | skip
  all_goals
    split
    all_goals first
      | exact State.answer_acts _ _ _ _ _ h hk hs
      | exact State.noAnswer_acts _ _ h
      | exact (State.goodReply_acts _ _ _ _ h hc hb hk).trans (State.resume_acts _ _ h)
      | exact (State.miss_acts _ _ _ _ h hk).trans (State.resume_acts _ _ h)

theorem State.cutFrame_acts {x : Scope} (s : State) (o : Outlet) (cut : LineCut)
    (h : o ∈ x.outlets) (hk : ∀ k ∈ entryKinds, k ∈ x.kinds) (hd : .stationDuplicate ∈ x.kinds) :
    Acts x s (s.cutFrame o cut) := by
  unfold State.cutFrame
  split
  · unfold State.cutReply
    split
    all_goals first
      | exact State.miss_acts _ _ _ _ h hk
      | exact State.countCollision_acts _ _ _ h hk hd
      | exact .refl _ _
  · exact Acts.onSl _ _ _ h
  all_goals exact .refl _ _

theorem State.hear_acts {x : Scope} (s : State) (o : Outlet) (held : Bool) (hd : Heard)
    (h : o ∈ x.outlets) (hc : x.connects = true) (hb : x.bills = true)
    (hk : ∀ k ∈ entryKinds, k ∈ x.kinds) (hs : .stationDuplicate ∈ x.kinds) :
    Acts x s (s.hear o held hd) := by
  unfold State.hear
  split
  · exact ((Acts.onSl _ _ _ h).trans (State.reply_acts _ _ _ _ h hc hb hk hs)).trans
      (State.settle_acts _ _)
  · exact Acts.onSl _ _ _ h
  all_goals exact .refl _ _

theorem State.takeGenerators_acts {x : Scope} (s : State) (o : Outlet) (items : List GenItem)
    (h : o ∈ x.outlets) (hk : ∀ k ∈ entryKinds, k ∈ x.kinds) :
    Acts x s (s.takeGenerators o items) := by
  unfold State.takeGenerators
  dsimp only
  split
  · exact Acts.onSl _ _ _ h
  · exact (Acts.onSl _ _ _ h).trans (State.judgeGenerators_acts _ _ h hk)

end Sys2Proof.Machine
end

