-- ==== Sys2Proof/Laws/Measurement.lean ====
section
/-! SUPPORT. What P, Q and S of a cycle are, and what a power record holds of them (R16, R17); how BUS_VOLTAGE
judges a record of Pn, and what its count and watch then are (R111, R112). -/

namespace Sys2Proof

theorem Phases.total_eq {α : Type} (x : Phases α) (f : α → Int) :
    x.total f = f x.l1 + f x.l2 + f x.l3 := rfl

theorem CyclePower.p_eq_mean (c : CyclePower) :
    c.p = ((c.samples.map fun (x : Phases PhaseSample) => x.l1.volts * x.l1.amps
      + x.l2.volts * x.l2.amps + x.l3.volts * x.l3.amps).sum).tdiv (c.samples.length * 1000000) := rfl

theorem CyclePower.s_eq_rms_products (c : CyclePower) :
    c.s = (c.rms.l1.volts * c.rms.l1.amps + c.rms.l2.volts * c.rms.l2.amps
      + c.rms.l3.volts * c.rms.l3.amps) / 1000000 := by
  unfold CyclePower.s Phases.total
  congr 1

namespace Machine

theorem saturate_eq (bound : Nat) (x : Int) : saturate bound x = max (-(bound : Int)) (min (bound : Int) x) := by
  unfold saturate
  split <;> omega

/-- A power record holds P, Q and S within their ranges, S no less than the magnitude of P (R16, R17). -/
theorem powerRecord_holds (c : CyclePower) (v : LineVoltages) (period : Nat) (now : TimeStamp) :
    (powerRecord c v period now).p = max (-25000000) (min 25000000 c.p)
      ∧ (powerRecord c v period now).q = max (-30000000) (min 30000000 c.q)
      ∧ (powerRecord c v period now).p.natAbs ≤ (powerRecord c v period now).s
      ∧ (powerRecord c v period now).s ≤ 30000000 := by
  have h : ∀ x, (saturate 25000000 x).natAbs ≤ 30000000 := fun x => by
    rw [saturate_eq]; omega
  exact ⟨saturate_eq _ _, saturate_eq _ _, le_min (h c.p) (le_max_right _ _), min_le_left _ _⟩

/-! ### BUS_FREQUENCY and BUS_VOLTAGE at a record of Pn (R111, R112) -/

@[simp] theorem Phasor.judgedVolts_of_clipped {r : Phasor} (h : r.clipped = true) :
    r.judgedVolts = 15000 := if_pos h

@[simp] theorem Phasor.judgedVolts_of_not_clipped {r : Phasor} (h : r.clipped = false) :
    r.judgedVolts = r.voltage := if_neg (by simp [h])

/-- A record just made is judged at the range end if a sample was clipped, and at its saturated mean
otherwise (R14, R17, R112). -/
theorem judgedVolts_phasor (now : TimeStamp) (c : Option CycleFields) (v : LineVoltages) :
    (phasor now c v).judgedVolts = if v.clipped then 15000 else recordVolts v := by
  unfold Phasor.judgedVolts phasor recordVolts
  by_cases hc : v.clipped = true <;> by_cases hm : 15000 < meanVolts v <;> simp [hc, hm]
  omega

theorem outsideVoltage_eq_false_iff (nominal : Nat) (r : Phasor) :
    outsideVoltage nominal r = false
      ↔ nominal * 90 ≤ r.judgedVolts * 100 ∧ r.judgedVolts * 100 ≤ nominal * 110 := by
  simp [outsideVoltage]

/-- A clipped record is outside the band of every nominal up to 13,636 V, 6600 and 11,000 V among them
(R112). -/
theorem outsideVoltage_of_clipped {nominal : Nat} {r : Phasor} (hn : nominal * 110 < 1500000)
    (hr : r.clipped = true) : outsideVoltage nominal r = true := by
  rw [← Bool.not_eq_false, outsideVoltage_eq_false_iff, Phasor.judgedVolts_of_clipped hr]
  omega

/-- All that PR does with a record of Pn while it watches the bus (R111, R112). -/
theorem Berth.prShipRecord_of_watching {b : Berth} (h : b.watchesBus = true) (r : Phasor) :
    b.prShipRecord r = { b with pr := { b.pr with
      frequency := countRecord b.pr.frequency (outsideFrequency b.nominalFreq r)
      voltageFrom := watch b.pr.voltageFrom (outsideVoltage b.nominalVolts r) r.stamp.run } } :=
  if_pos h

/-- And while it does not, nothing (R105). -/
theorem Berth.prShipRecord_of_not_watching {b : Berth} (h : b.watchesBus = false) (r : Phasor) :
    b.prShipRecord r = b := if_neg (by simp [h])

end Machine

end Sys2Proof
end

