-- ==== Sys2Proof/Laws/PerInstr.lean ====
section
/-! SUPPORT. What holds of every command as syntax: a well-formed request has the kind by which its frame
is read (R184), and a payload that a frame can carry. -/

namespace Sys2Proof.Laws

open Sys2Proof

/-- The request that a well-formed command is, if it is one, is read back as the command, with the
attention pair at the level that the command carries, if it carries one; and its payload is 240 bytes or
fewer. -/
def RequestReads.Statement (i : Instr) : Prop :=
  ∀ held kind tag p, i.request = some (kind, tag, p) → i.wellFormed = true → i.pairShows held →
    requestCommand held kind tag p = i ∧ p.length ≤ 240

/-- A command that is no request meets the statement. -/
theorem requestReads_of_none {i : Instr} (h : i.request = none) : RequestReads.Statement i :=
  fun _ _ _ _ r _ _ => nomatch h.symm.trans r

/-- A request of a kind that reads back to it meets the statement, its payload fitting a frame. -/
theorem requestReads_of_some {i : Instr} {kind tag : Byte} {p : List Byte}
    (h : i.request = some (kind, tag, p))
    (hc : ∀ held, i.pairShows held → requestCommand held kind tag p = i) (hp : i.wellFormed = true → p.length ≤ 240) : RequestReads.Statement i := by
  intro held kind' tag' p' r w l
  have e := h.symm.trans r
  simp only [Option.some.injEq, Prod.mk.injEq] at e
  obtain ⟨rfl, rfl, rfl⟩ := e
  exact ⟨hc held l, hp w⟩

theorem RequestReads.supplyOn (highSpeed : Bool) (closed : Quad Bool) :
    RequestReads.Statement (.supplyOn highSpeed closed) :=
  requestReads_of_none rfl

theorem RequestReads.resetInput :
    RequestReads.Statement .resetInput :=
  requestReads_of_none rfl

theorem RequestReads.qualificationWindowEnd (count : Nat) :
    RequestReads.Statement (.qualificationWindowEnd count) :=
  requestReads_of_none rfl

theorem RequestReads.xoCheck (count : Nat) :
    RequestReads.Statement (.xoCheck count) :=
  requestReads_of_none rfl

theorem RequestReads.retryTimeExpiry :
    RequestReads.Statement .retryTimeExpiry :=
  requestReads_of_none rfl

theorem RequestReads.oneSecondTick :
    RequestReads.Statement .oneSecondTick :=
  requestReads_of_none rfl

theorem RequestReads.ppsPulse :
    RequestReads.Statement .ppsPulse :=
  requestReads_of_none rfl

theorem RequestReads.ppsTimeExpiry :
    RequestReads.Statement .ppsTimeExpiry :=
  requestReads_of_none rfl

theorem RequestReads.zeroCrossing (point : MeasPoint) (volts : LineVoltages) (power : CyclePower) :
    RequestReads.Statement (.zeroCrossing point volts power) :=
  requestReads_of_none rfl

theorem RequestReads.voltageOnlyCadence (point : MeasPoint) (volts : LineVoltages) :
    RequestReads.Statement (.voltageOnlyCadence point volts) :=
  requestReads_of_none rfl

theorem RequestReads.cycleLapse (point : MeasPoint) (volts : LineVoltages) :
    RequestReads.Statement (.cycleLapse point volts) :=
  requestReads_of_none rfl

theorem RequestReads.moduleReport (m : ModuleNo) (report : ModuleReport) :
    RequestReads.Statement (.moduleReport m report) :=
  requestReads_of_none rfl

theorem RequestReads.moduleLineLoss (m : ModuleNo) :
    RequestReads.Statement (.moduleLineLoss m) :=
  requestReads_of_none rfl

theorem RequestReads.commandRecord :
    RequestReads.Statement .commandRecord :=
  requestReads_of_none rfl

theorem RequestReads.startTimeExpiry :
    RequestReads.Statement .startTimeExpiry :=
  requestReads_of_none rfl

theorem RequestReads.stopCurrentTimeout (m : ModuleNo) :
    RequestReads.Statement (.stopCurrentTimeout m) :=
  requestReads_of_none rfl

theorem RequestReads.stopTimeExpiry (m : ModuleNo) :
    RequestReads.Statement (.stopTimeExpiry m) :=
  requestReads_of_none rfl

theorem RequestReads.holdTimeExpiry (o : Outlet) :
    RequestReads.Statement (.holdTimeExpiry o) :=
  requestReads_of_none rfl

theorem RequestReads.growWatchComplete (o : Outlet) :
    RequestReads.Statement (.growWatchComplete o) :=
  requestReads_of_none rfl

theorem RequestReads.shrinkWatchComplete (o : Outlet) :
    RequestReads.Statement (.shrinkWatchComplete o) :=
  requestReads_of_none rfl

theorem RequestReads.rgUpdate (o : Outlet) :
    RequestReads.Statement (.rgUpdate o) :=
  requestReads_of_none rfl

theorem RequestReads.holdingTimeout (o : Outlet) :
    RequestReads.Statement (.holdingTimeout o) :=
  requestReads_of_none rfl

theorem RequestReads.dueInstant (o : Outlet) :
    RequestReads.Statement (.dueInstant o) :=
  requestReads_of_none rfl

theorem RequestReads.confirmationTimeExpiry (o : Outlet) :
    RequestReads.Statement (.confirmationTimeExpiry o) :=
  requestReads_of_none rfl

theorem RequestReads.breakerFeedbackClosed (o : Outlet) :
    RequestReads.Statement (.breakerFeedbackClosed o) :=
  requestReads_of_none rfl

theorem RequestReads.breakerFeedbackOpen (o : Outlet) :
    RequestReads.Statement (.breakerFeedbackOpen o) :=
  requestReads_of_none rfl

theorem RequestReads.openDriveFailTime (o : Outlet) :
    RequestReads.Statement (.openDriveFailTime o) :=
  requestReads_of_none rfl

theorem RequestReads.deadTimeComplete (o : Outlet) :
    RequestReads.Statement (.deadTimeComplete o) :=
  requestReads_of_none rfl

theorem RequestReads.pilotLoopClosed (o : Outlet) :
    RequestReads.Statement (.pilotLoopClosed o) :=
  requestReads_of_none rfl

theorem RequestReads.pilotLoopOpen (o : Outlet) :
    RequestReads.Statement (.pilotLoopOpen o) :=
  requestReads_of_none rfl

theorem RequestReads.importWatchComplete :
    RequestReads.Statement .importWatchComplete :=
  requestReads_of_none rfl

theorem RequestReads.capWatchComplete (o : Outlet) :
    RequestReads.Statement (.capWatchComplete o) :=
  requestReads_of_none rfl

theorem RequestReads.energiseTimeExpiry (o : Outlet) :
    RequestReads.Statement (.energiseTimeExpiry o) :=
  requestReads_of_none rfl

theorem RequestReads.syncTimeExpiry (o : Outlet) :
    RequestReads.Statement (.syncTimeExpiry o) :=
  requestReads_of_none rfl

theorem RequestReads.rampInTick (o : Outlet) :
    RequestReads.Statement (.rampInTick o) :=
  requestReads_of_none rfl

theorem RequestReads.capacityShortExpiry (o : Outlet) :
    RequestReads.Statement (.capacityShortExpiry o) :=
  requestReads_of_none rfl

theorem RequestReads.rampInLimitExpiry (o : Outlet) :
    RequestReads.Statement (.rampInLimitExpiry o) :=
  requestReads_of_none rfl

theorem RequestReads.returnWaitExpiry (o : Outlet) :
    RequestReads.Statement (.returnWaitExpiry o) :=
  requestReads_of_none rfl

theorem RequestReads.rampOutTick (o : Outlet) :
    RequestReads.Statement (.rampOutTick o) :=
  requestReads_of_none rfl

theorem RequestReads.unloadedComplete (o : Outlet) :
    RequestReads.Statement (.unloadedComplete o) :=
  requestReads_of_none rfl

theorem RequestReads.rampOutTimeout (o : Outlet) :
    RequestReads.Statement (.rampOutTimeout o) :=
  requestReads_of_none rfl

theorem RequestReads.openTimeExpiry (o : Outlet) :
    RequestReads.Statement (.openTimeExpiry o) :=
  requestReads_of_none rfl

theorem RequestReads.postTripTimeExpiry (o : Outlet) :
    RequestReads.Statement (.postTripTimeExpiry o) :=
  requestReads_of_none rfl

theorem RequestReads.voltageWatchComplete (o : Outlet) :
    RequestReads.Statement (.voltageWatchComplete o) :=
  requestReads_of_none rfl

theorem RequestReads.capacityWatchComplete (o : Outlet) :
    RequestReads.Statement (.capacityWatchComplete o) :=
  requestReads_of_none rfl

theorem RequestReads.reverseWatchComplete (o : Outlet) :
    RequestReads.Statement (.reverseWatchComplete o) :=
  requestReads_of_none rfl

theorem RequestReads.gridWatchComplete :
    RequestReads.Statement .gridWatchComplete :=
  requestReads_of_none rfl

theorem RequestReads.wakeTimeExpiry (o : Outlet) :
    RequestReads.Statement (.wakeTimeExpiry o) :=
  requestReads_of_none rfl

theorem RequestReads.replyWindowClose (o : Outlet) (held : Bool) :
    RequestReads.Statement (.replyWindowClose o held) :=
  requestReads_of_none rfl

theorem RequestReads.present (o : Outlet) (held : Bool) (frame : ShipFrame) :
    RequestReads.Statement (.present o held frame) :=
  requestReads_of_none rfl

theorem RequestReads.status (o : Outlet) (held : Bool) (frame : ShipFrame) :
    RequestReads.Statement (.status o held frame) :=
  requestReads_of_none rfl

theorem RequestReads.badFrame (o : Outlet) (held : Bool) (src : Nat) :
    RequestReads.Statement (.badFrame o held src) :=
  requestReads_of_none rfl

theorem RequestReads.incompleteFrame (o : Outlet) (held : Bool) (src : Option Nat) :
    RequestReads.Statement (.incompleteFrame o held src) :=
  requestReads_of_none rfl

theorem RequestReads.linkCycle (o : Outlet) (held : Bool) :
    RequestReads.Statement (.linkCycle o held) :=
  requestReads_of_none rfl

theorem RequestReads.slotEnd (o : Outlet) (held : Bool) (frame : ShipFrame) :
    RequestReads.Statement (.slotEnd o held frame) :=
  requestReads_of_none rfl

theorem RequestReads.shipSlotExpiry (o : Outlet) :
    RequestReads.Statement (.shipSlotExpiry o) :=
  requestReads_of_none rfl

theorem RequestReads.genStatus (o : Outlet) (held : Bool) (frame : ShipFrame) :
    RequestReads.Statement (.genStatus o held frame) :=
  requestReads_of_none rfl

theorem RequestReads.generatorStale (o : Outlet) (number : Nat) :
    RequestReads.Statement (.generatorStale o number) :=
  requestReads_of_none rfl

theorem RequestReads.lineDominant (o : StuckLine) :
    RequestReads.Statement (.lineDominant o) :=
  requestReads_of_none rfl

theorem RequestReads.stuckMissTick (o : Outlet) :
    RequestReads.Statement (.stuckMissTick o) :=
  requestReads_of_none rfl

theorem RequestReads.stuckLook (o : Outlet) (dominant : Bool) (held : Bool) :
    RequestReads.Statement (.stuckLook o dominant held) :=
  requestReads_of_none rfl

theorem RequestReads.gapOpens (o : Outlet) :
    RequestReads.Statement (.gapOpens o) :=
  requestReads_of_none rfl

theorem RequestReads.idleGap (next : Byte) :
    RequestReads.Statement (.idleGap next) :=
  requestReads_of_none rfl

theorem RequestReads.receiveDiscard (cause : DiscardCause) :
    RequestReads.Statement (.receiveDiscard cause) :=
  requestReads_of_none rfl

theorem RequestReads.crcError :
    RequestReads.Statement .crcError :=
  requestReads_of_none rfl

theorem RequestReads.busy (kind : Byte) (tag : Byte) :
    RequestReads.Statement (.busy kind tag) :=
  requestReads_of_none rfl

theorem RequestReads.replySent :
    RequestReads.Statement .replySent :=
  requestReads_of_none rfl

theorem RequestReads.unknownRequest (kind : Byte) (tag : Byte) :
    RequestReads.Statement (.unknownRequest kind tag) := by
  intro held k t p r w _
  simp only [Instr.request, Option.some.injEq, Prod.mk.injEq] at r
  obtain ⟨rfl, rfl, rfl⟩ := r
  refine ⟨?_, by simp⟩
  simp only [Instr.wellFormed, isUnknownKind, requestCommand] at w
  unfold requestCommand
  split <;> rename_i k <;> first | rfl | (rw [k] at w; cases w)

theorem RequestReads.configureStation (tag : Byte) (payload : List Byte) :
    RequestReads.Statement (.configureStation tag payload) :=
  requestReads_of_some rfl (fun _ _ => rfl) fun h => of_decide_eq_true h

theorem RequestReads.readStation (tag : Byte) (payload : List Byte) :
    RequestReads.Statement (.readStation tag payload) :=
  requestReads_of_some rfl (fun _ _ => rfl) fun h => of_decide_eq_true h

theorem RequestReads.readTime (tag : Byte) (payload : List Byte) :
    RequestReads.Statement (.readTime tag payload) :=
  requestReads_of_some rfl (fun _ _ => rfl) fun h => of_decide_eq_true h

theorem RequestReads.setTime (tag : Byte) (payload : List Byte) :
    RequestReads.Statement (.setTime tag payload) :=
  requestReads_of_some rfl (fun _ _ => rfl) fun h => of_decide_eq_true h

theorem RequestReads.setImportLimit (tag : Byte) (payload : List Byte) :
    RequestReads.Statement (.setImportLimit tag payload) :=
  requestReads_of_some rfl (fun _ _ => rfl) fun h => of_decide_eq_true h

theorem RequestReads.setBands (tag : Byte) (payload : List Byte) :
    RequestReads.Statement (.setBands tag payload) :=
  requestReads_of_some rfl (fun _ _ => rfl) fun h => of_decide_eq_true h

theorem RequestReads.restart (tag : Byte) (payload : List Byte) :
    RequestReads.Statement (.restart tag payload) :=
  requestReads_of_some rfl (fun _ _ => rfl) fun h => of_decide_eq_true h

theorem RequestReads.declareModule (tag : Byte) (payload : List Byte) :
    RequestReads.Statement (.declareModule tag payload) :=
  requestReads_of_some rfl (fun _ _ => rfl) fun h => of_decide_eq_true h

theorem RequestReads.unlockModule (tag : Byte) (payload : List Byte) :
    RequestReads.Statement (.unlockModule tag payload) :=
  requestReads_of_some rfl (fun _ _ => rfl) fun h => of_decide_eq_true h

theorem RequestReads.withdrawModule (tag : Byte) (payload : List Byte) :
    RequestReads.Statement (.withdrawModule tag payload) :=
  requestReads_of_some rfl (fun _ _ => rfl) fun h => of_decide_eq_true h

theorem RequestReads.readModules (tag : Byte) (payload : List Byte) :
    RequestReads.Statement (.readModules tag payload) :=
  requestReads_of_some rfl (fun _ _ => rfl) fun h => of_decide_eq_true h

theorem RequestReads.configureOutlet (tag : Byte) (payload : List Byte) :
    RequestReads.Statement (.configureOutlet tag payload) :=
  requestReads_of_some rfl (fun _ _ => rfl) fun h => of_decide_eq_true h

theorem RequestReads.readOutlet (tag : Byte) (payload : List Byte) :
    RequestReads.Statement (.readOutlet tag payload) :=
  requestReads_of_some rfl (fun _ _ => rfl) fun h => of_decide_eq_true h

theorem RequestReads.authorise (tag : Byte) (payload : List Byte) :
    RequestReads.Statement (.authorise tag payload) :=
  requestReads_of_some rfl (fun _ _ => rfl) fun h => of_decide_eq_true h

theorem RequestReads.revoke (tag : Byte) (payload : List Byte) :
    RequestReads.Statement (.revoke tag payload) :=
  requestReads_of_some rfl (fun _ _ => rfl) fun h => of_decide_eq_true h

theorem RequestReads.readAuthorisations (tag : Byte) (payload : List Byte) :
    RequestReads.Statement (.readAuthorisations tag payload) :=
  requestReads_of_some rfl (fun _ _ => rfl) fun h => of_decide_eq_true h

theorem RequestReads.endSession (tag : Byte) (payload : List Byte) :
    RequestReads.Statement (.endSession tag payload) :=
  requestReads_of_some rfl (fun _ _ => rfl) fun h => of_decide_eq_true h

theorem RequestReads.resetOutlet (tag : Byte) (payload : List Byte) :
    RequestReads.Statement (.resetOutlet tag payload) :=
  requestReads_of_some rfl (fun _ _ => rfl) fun h => of_decide_eq_true h

theorem RequestReads.setCap (tag : Byte) (payload : List Byte) :
    RequestReads.Statement (.setCap tag payload) :=
  requestReads_of_some rfl (fun _ _ => rfl) fun h => of_decide_eq_true h

theorem RequestReads.setIslandTrim (tag : Byte) (payload : List Byte) :
    RequestReads.Statement (.setIslandTrim tag payload) :=
  requestReads_of_some rfl (fun _ _ => rfl) fun h => of_decide_eq_true h

theorem RequestReads.readStations (tag : Byte) (payload : StationsPayload) :
    RequestReads.Statement (.readStations tag payload) :=
  requestReads_of_some rfl (fun _ l => by cases l tag payload rfl; rfl) fun h => of_decide_eq_true h

theorem RequestReads.readGenerators (tag : Byte) (payload : List Byte) :
    RequestReads.Statement (.readGenerators tag payload) :=
  requestReads_of_some rfl (fun _ _ => rfl) fun h => of_decide_eq_true h

theorem RequestReads.readMeters (tag : Byte) (payload : List Byte) :
    RequestReads.Statement (.readMeters tag payload) :=
  requestReads_of_some rfl (fun _ _ => rfl) fun h => of_decide_eq_true h

theorem RequestReads.readBilling (tag : Byte) (payload : List Byte) :
    RequestReads.Statement (.readBilling tag payload) :=
  requestReads_of_some rfl (fun _ _ => rfl) fun h => of_decide_eq_true h

theorem RequestReads.releaseBilling (tag : Byte) (payload : List Byte) :
    RequestReads.Statement (.releaseBilling tag payload) :=
  requestReads_of_some rfl (fun _ _ => rfl) fun h => of_decide_eq_true h

theorem RequestReads.flushInterval (tag : Byte) (payload : List Byte) :
    RequestReads.Statement (.flushInterval tag payload) :=
  requestReads_of_some rfl (fun _ _ => rfl) fun h => of_decide_eq_true h

theorem RequestReads.readEvents (tag : Byte) (payload : List Byte) :
    RequestReads.Statement (.readEvents tag payload) :=
  requestReads_of_some rfl (fun _ _ => rfl) fun h => of_decide_eq_true h

theorem RequestReads.readFaults (tag : Byte) (payload : List Byte) :
    RequestReads.Statement (.readFaults tag payload) :=
  requestReads_of_some rfl (fun _ _ => rfl) fun h => of_decide_eq_true h

theorem RequestReads.clearFaults (tag : Byte) (payload : List Byte) :
    RequestReads.Statement (.clearFaults tag payload) :=
  requestReads_of_some rfl (fun _ _ => rfl) fun h => of_decide_eq_true h

theorem RequestReads.setReporting (tag : Byte) (payload : List Byte) :
    RequestReads.Statement (.setReporting tag payload) :=
  requestReads_of_some rfl (fun _ _ => rfl) fun h => of_decide_eq_true h

theorem RequestReads.syncByte :
    RequestReads.Statement .syncByte :=
  requestReads_of_none rfl

theorem RequestReads.leaderFrameSent (o : Outlet) (held : Bool) :
    RequestReads.Statement (.leaderFrameSent o held) :=
  requestReads_of_none rfl

end Sys2Proof.Laws
end

