-- ==== Sys2Proof/Tests/Slice0.lean ====
section
/-! SUPPORT. Tests on small states, each one command: the well-formedness checks, the check
computations, the manual's worked figures, and for each statement's hypotheses a state that meets
them. -/

namespace Sys2Proof.Tests

open Sys2Proof Sys2Proof.Machine

-- Each theorem is checked before the next is read, so that few threads wait for the kernel at once.
set_option Elab.async false

/-! ### States to test on -/

/-- A property of every outlet from its four cases. -/
theorem everyOutlet {p : Outlet → Prop} (h : p .o1 ∧ p .o2 ∧ p .o3 ∧ p .o4) : ∀ o, p o := by
  intro o
  cases o
  · exact h.1
  · exact h.2.1
  · exact h.2.2.1
  · exact h.2.2.2

theorem noneWaits_of (s : State)
    (h : s.waits .o1 = false ∧ s.waits .o2 = false ∧ s.waits .o3 = false ∧ s.waits .o4 = false) :
    s.noneWaits := everyOutlet h

/-- What a command's next state shows. -/
def shows (i : Instr) (s : State) (f : State → Bool) : Bool :=
  match exec i s with
  | .next t => f t
  | .fault _ => false
  | .refused _ => false

/-- A declaration of 1,800 kW and 2,000 kVA at 60 Hz, PARALLEL. -/
def declared : Declaration :=
  { hull := 1234567, hertz := 60, volts := 11000, kw := 1800, kva := 2000, generators := 2
    mode := 0, cables := 1 }

/-- The SCP of the ship, PRESENT at address 3. -/
def scp : Station :=
  { address := 3, kind := some .scp, identity := some 7, state := .present, misses := 0
    checkErrors := 0, status := none, lastPoll := none }

/-- The PMS of the ship, PRESENT at address 5. -/
def pms : Station := { scp with address := 5, kind := some .pms, identity := some 9 }

/-- A session of the declaration. -/
def session : Session := { number := 1, hull := 1234567, plan := 3, claim := 1800, opened := .zero }

/-- Its meter. -/
def meter : Meter :=
  { session := 1, hull := 1234567, plan := 3, opened := 0, imported := .zero, exported := .zero
    closes := 0, trips := 0, lastRecord := none, gapFrom := none
    interval := { start := .zero, band := 0, worst := .unset, gapMillis := 0
                  flags := { isPartial := true, extended := false, bandMixed := false
                             timeStepped := false, timeUnset := true, saturated := false
                             measurementGap := false } } }

/-- An outlet with a ship and a session, in a state. -/
def berthIn (st : OutletState) : Berth :=
  { Berth.reset with
    sc := { OutletRecord.reset with state := st, session := some session
                                    declaration := some declared, target := 2400 }
    lines := { pilotClosed := true, breakerClosed := st.breakerClosed, closedAt := none
               linkPower := true }
    rg := { RefGen.reset with mode := st.mode }
    sl := { ShipLink.reset with state := .cycling, stations := [scp, pms] }
    mt := some meter }

/-- An outlet with a ship and no session, in a state. -/
def berthBefore (st : OutletState) : Berth :=
  { berthIn st with
    sc := { OutletRecord.reset with state := st }
    mt := none }

/-- A module in a state at an outlet. -/
def moduleIn (st : ModuleState) (o : Option Outlet) : Machine.Module :=
  { Machine.Module.reset with rating := some 3000, state := st, outlet := o }

/-- The station with an outlet O1, a module M1 and a live grid, at run count 1,000,000. -/
def station (b : Berth) (m : Machine.Module) : State :=
  { State.reset with
    tb := { Timebase.reset with run := 1000000 }
    grid := { point := { PointState.reset 0 with live := true }, nominal := 11000 }
    gridWatch := { since := none, standing := false }
    berths := { State.reset.berths with o1 := b }
    pool := { State.reset.pool with modules := { State.reset.pool.modules with m1 := m } } }

/-- O1 in a state with its session, and M1 RUNNING there. -/
def inState (st : OutletState) : State := station (berthIn st) (moduleIn .running (some .o1))

/-- O1 in a state with its session, and no module. -/
def bare (st : OutletState) : State := station (berthIn st) Machine.Module.reset

/-- O1 in a state without a session, and no module. -/
def before (st : OutletState) : State := station (berthBefore st) Machine.Module.reset

/-- A time stamp at a run count. -/
def stampAt (run : RunCount) : TimeStamp := { seconds := 0, micros := 0, run := run }

/-- Three equal line voltages. -/
def volts (n : Nat) : LineVoltages := { v12 := n, v23 := n, v31 := n, clipped := false }

/-- A value in L1 alone. -/
def inL1 {α : Type} (x zero : α) : Phases α := ⟨x, zero, zero⟩

/-- A cycle of a real and an apparent power, in L1 at 1 V. -/
def powers (p : Int) (s : Nat) : CyclePower :=
  { samples := [inL1 ⟨1000, p * 1000⟩ ⟨0, 0⟩], rms := inL1 ⟨1000, s * 1000⟩ ⟨0, 0⟩
    fundamental := inL1 ⟨0, 0, 0, 0⟩ ⟨0, 0, 0, 0⟩, clipped := false }

/-- No power. -/
def noPower : CyclePower := powers 0 0

/-! ### The well-formedness checks refuse -/

theorem test_report_code_outside_fault :
    (Instr.moduleReport .m1 ⟨.running, 0, 0, .normal, some 4⟩).wellFormed = false := by decide +kernel

theorem test_report_code_0 :
    (Instr.moduleReport .m1 ⟨.fault, 0, 0, .normal, some 0⟩).wellFormed = false := by decide +kernel

theorem test_frame_address_256 :
    (Instr.present .o1 false ⟨256, 3, []⟩).wellFormed = false := by decide +kernel

theorem test_frame_source_256 :
    (Instr.status .o1 false ⟨31, 256, []⟩).wellFormed = false := by decide +kernel

theorem test_frame_payload_25 :
    (Instr.genStatus .o1 false ⟨31, 3, List.replicate 25 0⟩).wellFormed = false := by decide +kernel

theorem test_slotEnd_payload_24 :
    (Instr.slotEnd .o1 false ⟨31, 3, List.replicate 24 0⟩).wellFormed = true := by decide

theorem test_badFrame_source_256 : (Instr.badFrame .o1 false 256).wellFormed = false := by decide +kernel

theorem test_incompleteFrame_source_256 :
    (Instr.incompleteFrame .o1 false (some 256)).wellFormed = false := by decide +kernel

theorem test_generatorStale_5 : (Instr.generatorStale .o1 5).wellFormed = false := by decide +kernel

theorem test_discard_length_2 :
    (Instr.receiveDiscard (.lengthByte 2)).wellFormed = false := by decide +kernel

theorem test_discard_length_243 :
    (Instr.receiveDiscard (.lengthByte 243)).wellFormed = true := by decide

theorem test_unknown_kind_of_a_request :
    (Instr.unknownRequest 0x53 0).wellFormed = false := by decide +kernel

theorem test_payload_241 :
    (Instr.readStation 0 (List.replicate 241 0)).wellFormed = false := by decide +kernel

/-! ### Frames and check computations (R184, R186) -/

theorem test_crc16_check_value :
    crc16 [0x31, 0x32, 0x33, 0x34, 0x35, 0x36, 0x37, 0x38, 0x39] = 0x29B1 := by decide +kernel

theorem test_crc8_check_value :
    crc8 [0x31, 0x32, 0x33, 0x34, 0x35, 0x36, 0x37, 0x38, 0x39] = 0xF4 := by decide +kernel

theorem test_readTime_frame_decodes :
    (Instr.readTime 0x21 []).requestFrame.bind (commandOfFrame false) = some (.readTime 0x21 []) := by
  decide +kernel

theorem test_slotEnd_frame_decodes :
    (Instr.slotEnd .o2 true ⟨31, 5, []⟩).shipFrame.map (fun x => shipCommand x.1 x.2.1 x.2.2)
      = some (.slotEnd .o2 true ⟨31, 5, []⟩) := by decide +kernel

/-- Section 11: the POLL of an AUX station at address 8 is 08 1F 05 00 14. -/
theorem test_crc8_of_the_poll :
    crc8 [0x08, 0x1F, 0x05, 0x00] = 0x14
      ∧ (LeaderFrame.poll 8 none).bytes = [0x08, 0x1F, 0x05, 0x00, 0x14] := by decide +kernel

/-! ### The manual's worked figures -/

/-- Paragraph 1.5.1. -/
theorem test_angle_of_the_example : pairAngle 14999 16645 = -356 := by decide

/-- Paragraph 4.7, record C. -/
theorem test_schedule_of_record_c :
    (scheduleOf 120 { fS := 60080, vS := 6640, fP := 60000, vP := 6580, period := 16666
                      stamp := stampAt 1000, theta := -36 }).map (fun p => (p.due, p.delay))
      = some (6000, 5000) := by decide +kernel

/-- Paragraph 4.7: contact 10 ms late at 80 mHz. -/
theorem test_contact_error : contactError 80 130 120 = 3 := by decide

/-- Table 3.5.1, record 1. -/
theorem test_power_loop_record_1 : loopChange 3000 1200000 6000 40 = 1 := by decide

/-- Table 3.5.1, record 4. -/
theorem test_power_loop_record_4 : loopChange 3020 1760000 6000 40 = 0 := by decide

/-- Paragraph 3.5.1, in PARALLEL_OUT. -/
theorem test_power_loop_reversed : loopChange 1000 2600000 6000 40 = -1 := by decide

/-- R47: a step of 500 µHz, and a last step short of it. -/
theorem test_slew_steps : slew 60000000 60085000 500 = 60000500 ∧ slew 60084700 60085000 500 = 60085000 := by
  decide

/-- R49: the advance at 60,000 mHz is 3932.16 units. -/
theorem test_phase_advance :
    ({ RefGen.reset with freqNow := 60000000 }.advance).phase = 3932
      ∧ ({ RefGen.reset with freqNow := 60000000 }.advance).phaseFrac = 160000000 := by decide

/-- R40's example. -/
theorem test_share_target : shareTargetOf 4200123 2000 6000 = 1400 := by decide

/-- R40's example: 1,510 kW against 1,400 kW of a 2,000 kVA module. -/
theorem test_share_trim :
    ({ Machine.Module.reset with rating := some 2000, power := some 1510 }.trimmed 1400) = -1 := by
  decide

/-- Paragraph 12.2. -/
theorem test_capacity_target : capacityTarget 6000 20 = 7200 := by decide

/-- Paragraph 12.2. -/
theorem test_sum_of_largest_8 :
    sumOfLargest8 [2000, 2000, 2000, 2000, 1500, 3000, 3000, 2000, 2000, 1500, 1000, 1000]
      = 18000 := by decide

/-- R8: a sum of -300 is second 86,100 of the day, minute 1435. -/
theorem test_local_minute : localMinute 0 (-5) = 1435 := by decide

/-- Paragraph 8.4.1, ROUND. -/
theorem test_rounding_round :
    ({ Energy.zero with accumulator := 3780110700000000 }.close .round).billed = 1050031
      ∧ ({ Energy.zero with accumulator := 3780110700000000 }.close .round).residual
        = -900000000 := by decide

/-- Paragraph 8.4.1, TRUNCATE. -/
theorem test_rounding_truncate :
    ({ Energy.zero with accumulator := 3780110700000000 }.close .truncate).billed = 1050030
      ∧ ({ Energy.zero with accumulator := 3780110700000000 }.close .truncate).residual
        = 2700000000 := by decide

/-- Paragraph 8.4.1, the last interval: 305 mWh unbilled. -/
theorem test_unbilled : unbilled 1100000000 = 305 := by decide

/-! ### States that meet the hypotheses of the statements -/

theorem witness_StepRunsFrontCommand :
    ({ State.reset with pending := [.commandRecord, .ppsPulse] }).pending
      = .commandRecord :: [.ppsPulse] := rfl

theorem witness_EveryCommandAnswersAndKeepsTheQueue : State.reset.passDue = false := rfl

/-- Reset at a sub-second count. -/
def atMicro (n : Nat) : State := { State.reset with tb := { Timebase.reset with subSecond := n } }

theorem witness_IdleStepsAndInapplicableCommands :
    (atMicro 999998).pending = [] ∧ (atMicro 999998).dueCommands = []
      ∧ (atMicro 999998).tb.subSecond < 999999 ∧ (atMicro 999999).dueCommands = []
      ∧ 999999 ≤ (atMicro 999999).tb.subSecond := by decide +kernel

theorem witness_IdleStepsAndInapplicableCommands_due :
    ({ State.reset with tb := { Timebase.reset with run := 1000 } }).dueCommands
      = .rgUpdate .o1 :: [.rgUpdate .o2, .rgUpdate .o3, .rgUpdate .o4, .commandRecord] := by
  decide +kernel

/-- TB in a state. -/
def tbIn (f : Timebase → Timebase) : State := { State.reset with tb := f .reset }

theorem witness_QualificationAndCrystalCheck_windows :
    (tbIn fun t => { t with passes := 2 }).tb.state = .qualifying
      ∧ (3 : Nat) = (if 156000 ≤ 156000 ∧ 156000 ≤ 164000 then
          (tbIn fun t => { t with passes := 2 }).tb.passes + 1 else 0)
      ∧ (tbIn fun t => { t with windows := 19 }).tb.state = .qualifying
      ∧ 20 ≤ (tbIn fun t => { t with windows := 19 }).tb.windows + 1
      ∧ (tbIn fun t => { t with windows := 18 }).tb.windows + 1 < 20
      ∧ (0 : Nat) = (if 156000 ≤ 155999 ∧ 155999 ≤ 164000 then
          (tbIn fun t => { t with windows := 18 }).tb.passes + 1 else 0) := by decide

theorem witness_QualificationAndCrystalCheck_checks :
    (tbIn fun t => { t with state := .xo, fails := 1 }).tb.state = .xo
      ∧ (2 : Nat) = (if 156000 ≤ 164001 ∧ 164001 ≤ 164000 then 0 else
          (tbIn fun t => { t with state := .xo, fails := 1 }).tb.fails + 1)
      ∧ (0 : Nat) = (if 156000 ≤ 164000 ∧ 164000 ≤ 164000 then 0 else
          (tbIn fun t => { t with state := .xo, fails := 1 }).tb.fails + 1)
      ∧ (tbIn fun t => { t with state := .xoFailed, retryFrom := some 0 }).tb.state = .xoFailed
      ∧ (tbIn fun t => { t with state := .xoFailed, retryFrom := some 0 }).tb.retryFrom.isSome
        = true := by decide

theorem test_third_pass_enters_xo :
    shows (.qualificationWindowEnd 164000) (tbIn fun t => { t with passes := 2 })
      (fun t => t.tb.state == .xo) = true := by decide +kernel

theorem test_count_below_the_window_fails :
    shows (.qualificationWindowEnd 155999) (tbIn fun t => { t with passes := 2 })
      (fun t => t.tb.passes == 0 && t.tb.state == .qualifying) = true := by decide +kernel

theorem test_second_failing_check_falls_back :
    shows (.xoCheck 164001) (tbIn fun t => { t with state := .xo, fails := 1 })
      (fun t => t.tb.state == .xoFailed && t.fe.flags == 0x10100000) = true := by decide +kernel

/-- PPS in WAITING at a run count, with its last pulse. -/
def ppsAt (run : RunCount) (sub : Nat) (last : Option RunCount) : State :=
  tbIn fun t => { t with ppsUse := true, pps := .waiting, ppsFrom := some 0, lastPulse := last
                         run := run, subSecond := sub }

theorem witness_TicksAndPulses_tick :
    shows .oneSecondTick State.reset (fun t => !t.atBoundary) = true := by decide +kernel

theorem witness_TicksAndPulses_pulses :
    State.reset.tb.pps = .off
      ∧ (ppsAt 499999 0 (some 0)).tb.pps ≠ .off
      ∧ (ppsAt 499999 0 (some 0)).tb.lastPulse = some 0
      ∧ ((ppsAt 499999 0 (some 0)).tb.run - 0).toNat < 500000
      ∧ (ppsAt 500000 100000 none).tb.pps ≠ .off
      ∧ (ppsAt 500000 100000 none).tb.lastPulse = none
      ∧ (ppsAt 500000 100000 none).tb.subSecond < 500000
      ∧ 500000 ≤ ((ppsAt 500000 0 (some 0)).tb.run - 0).toNat
      ∧ (ppsAt 0 0 none).tb.pps = .waiting
      ∧ (ppsAt 0 0 none).tb.ppsFrom.isSome = true := by decide

theorem test_pulse_completes_the_second :
    shows .ppsPulse (ppsAt 700000 500000 (some 0))
      (fun t => t.tb.seconds == 1 && t.tb.subSecond == 0 && t.tb.pps == .locked) = true := by
  decide +kernel

/-- Such a state with one authorisation, which expires at second 0. -/
def ppsAuthorised (sub : Nat) : State :=
  { ppsAt 700000 sub (some 0) with account := { State.reset.account with
      places := [some { hull := 1234567, outlet := .any, plan := 3, expiry := some 0 }] } }

theorem witness_TicksAndPulses_second :
    (ppsAuthorised 500000).tb.pps ≠ .off ∧ (ppsAuthorised 500000).tb.lastPulse = some 0
      ∧ 500000 ≤ ((ppsAuthorised 500000).tb.run - 0).toNat
      ∧ 500000 ≤ (ppsAuthorised 500000).tb.subSecond
      ∧ (ppsAuthorised 899999).tb.subSecond < 900000
      ∧ ¬ (ppsAuthorised 900000).tb.subSecond < 900000 := by decide

/-- R10 and R83: PPS_JUMP to 899 ms, and at second 1 the authorisation has gone. -/
theorem test_pulse_delivers_the_tick :
    shows .ppsPulse (ppsAuthorised 899999)
        (fun t => t.account.places == [none] && t.fe.queue.length == 2) = true
      ∧ shows .ppsPulse (ppsAuthorised 900000)
        (fun t => t.account.places == [none] && t.fe.queue.length == 1) = true := by
  decide +kernel

theorem test_pulse_in_the_first_half :
    shows .ppsPulse (ppsAt 700000 499999 none)
      (fun t => t.tb.seconds == 0 && t.tb.subSecond == 0 && t.fe.queue.length == 2) = true := by
  decide +kernel

/-- Nothing trips O1 at an entry, in the state that a ship and its session leave. -/
theorem noEntryCause (s : State)
    (g : s.gridWatch = (bare .closing).gridWatch)
    (p : (s.berth .o1).lines.pilotClosed = true) (l : (s.berth .o1).sl.stations = [scp, pms]) :
    s.NoEntryCause .o1 where
  pilot := p
  stop := by unfold ShipLink.stopShown; rw [l]; rfl
  scp := by unfold ShipLink.scpPresent; rw [l]; rfl
  grid := by rw [g]; rfl

/-- A schedule due now. -/
def plan : Schedule := { due := 1000000, theta := -36, slip := 80, toGo := 36, delay := 5000 }

/-- O1 in SYNCHRONISING with its close scheduled. -/
def scheduled : State :=
  (inState .synchronising).onSy .o1 fun y => { y with close := .scheduled plan }

/-- A state in which the SCP of O1 shows its stop flag. -/
def stopping (s : State) : State :=
  s.onSl .o1 fun l => { l with stations :=
    [{ scp with status := some { stop := true, connect := false, cancel := false, ret := false
                                 declaration := none } }, pms] }

theorem witness_DueInstantIssuesTheClose :
    (scheduled.berth .o1).sy.close = .scheduled plan
      ∧ (scheduled.berth .o1).sc.state = .synchronising ∧ (scheduled.berth .o1).levelCause = none
      ∧ ((stopping scheduled).berth .o1).sy.close = .scheduled plan
      ∧ ((stopping scheduled).berth .o1).sc.state = .synchronising
      ∧ ((stopping scheduled).berth .o1).levelCause = some .shipStop :=
  ⟨rfl, rfl, by decide, rfl, rfl, by decide⟩

theorem test_due_instant_closes :
    shows (.dueInstant .o1) scheduled (fun t => (t.berth .o1).sc.state == .closing
      && (t.berth .o1).sy.closeOutput) = true := by decide +kernel

/-- A close record in flight, commanded at run count 870,000. -/
def inFlightRecord (kind : CloseKind) : CloseRecord :=
  { kind := kind, command := stampAt 870000, theta := some (-36), slip := some 80, toGo := some 36
    tc := 120, outcome := .inFlight, measured := none, angleError := none, attempt := 1 }

/-- O1 in CLOSING with its close in flight, after a number of failed attempts. -/
def closing (attempts : Nat) : State :=
  (inState .closing).onSy .o1 fun y => { y with
    settings := { y.settings with adapt := true }, close := .inFlight, attempts := attempts
    closeOutput := true, record := some (inFlightRecord .synchronised) }

theorem keptOpen_of_module (s : State) (h : (s.module .m1).outlet = some .o1)
    (i : (s.module .m1).state ≠ .idle) : s.keptOpen .o1 := .inr ⟨.m1, h, i⟩

theorem witness_ConfirmationTimeExpiryFailsTheClose :
    ((closing 1).berth .o1).sy.close = .inFlight ∧ ((closing 1).berth .o1).sc.state = .closing
      ∧ ((closing 1).berth .o1).sc.endRequested = false
      ∧ ((closing 1).berth .o1).sy.attempts + 1 < 3
      ∧ ((closing 1).berth .o1).sc.syncExpired = false
      ∧ (closing 2).keptOpen .o1 ∧ 3 ≤ ((closing 2).berth .o1).sy.attempts + 1
      ∧ (((closing 1).onSc .o1 fun r => { r with endRequested := true }).berth .o1).sc.endRequested
        = true
      ∧ (((closing 1).onSc .o1 fun r => { r with syncExpired := true }).berth .o1).sc.syncExpired
        = true :=
  ⟨rfl, rfl, rfl, by decide, rfl, keptOpen_of_module _ rfl (by decide), by decide, rfl, rfl⟩

theorem test_third_failed_close_winds_down :
    shows (.confirmationTimeExpiry .o1) (closing 2) (fun t =>
      (t.berth .o1).sc.state == .windDown && t.fe.flags == 0x14000800) = true := by
  decide +kernel

theorem witness_FeedbackClosedConfirmsTheClose :
    ((closing 0).berth .o1).lines.breakerClosed = false
      ∧ ((closing 0).berth .o1).sy.close = .inFlight
      ∧ ((closing 0).berth .o1).sc.state = .closing
      ∧ ((closing 0).berth .o1).sy.record = some (inFlightRecord .synchronised)
      ∧ ((closing 0).berth .o1).rg.mode = .track ∧ (closing 0).NoEntryCause .o1
      ∧ ((closing 0).berth .o1).rampedIn = false ∧ ((closing 0).berth .o1).anyClosed = false
      ∧ (((closing 0).onSy .o1 fun y => { y with record := some (inFlightRecord .deadBus)
          }).berth .o1).sy.record = some (inFlightRecord .deadBus) :=
  ⟨rfl, rfl, rfl, rfl, rfl, noEntryCause _ rfl rfl rfl, by decide, by decide, rfl⟩

/-- O1 in CLOSING with a dead-bus close in flight and the end of its session requested. -/
def endedDeadBus : State :=
  ((closing 0).onSy .o1 fun y => { y with record := some (inFlightRecord .deadBus) }).onSc .o1
    fun r => { r with endRequested := true }

theorem witness_FeedbackClosedConfirmsTheClose_ended :
    (endedDeadBus.berth .o1).lines.breakerClosed = false
      ∧ (endedDeadBus.berth .o1).sy.close = .inFlight
      ∧ (endedDeadBus.berth .o1).sc.state = .closing
      ∧ (endedDeadBus.berth .o1).sy.record = some (inFlightRecord .deadBus)
      ∧ (endedDeadBus.berth .o1).rg.mode = .track ∧ endedDeadBus.NoEntryCause .o1
      ∧ (endedDeadBus.berth .o1).anyClosed = false
      ∧ (endedDeadBus.berth .o1).sc.endRequested = true
      ∧ (endedDeadBus.berth .o1).sc.returnAwaited = false :=
  ⟨rfl, rfl, rfl, rfl, rfl, noEntryCause _ rfl rfl rfl, by decide, rfl, rfl⟩

/-- Table 5-6, note d: the return is awaited at once. -/
theorem test_ended_dead_bus_close_awaits_the_return :
    shows (.breakerFeedbackClosed .o1) endedDeadBus (fun t =>
      (t.berth .o1).sc.state == .shoreSupply && (t.berth .o1).sc.prepareReturn
        && (t.berth .o1).sc.returnFrom == some 1000000) = true := by decide +kernel

/-- Paragraph 4.7: contact after 130 ms of a closing time in use of 120. -/
theorem test_confirmed_close_adapts :
    shows (.breakerFeedbackClosed .o1) (closing 0) (fun t =>
      (t.berth .o1).sc.state == .parallelIn && (t.berth .o1).sy.tc == 123) = true := by
  decide +kernel

/-- O1 in ENERGISING after a failed close. -/
def failedClose : State :=
  (inState .energising).onSy .o1 fun y => { y with
    record := some { inFlightRecord .synchronised with outcome := .failed } }

theorem witness_FeedbackClosedUnaskedDrivesTheBreakerOpen :
    failedClose.passDue = false ∧ (failedClose.berth .o1).lines.breakerClosed = false
      ∧ (failedClose.berth .o1).sy.close ≠ .inFlight
      ∧ (failedClose.berth .o1).sc.state.closureUnwanted = true
      ∧ ((inState .tripped).berth .o1).sc.state = .tripped
      ∧ (inState .tripped).gridWatch.standing = false
      ∧ ((bare .closing).berth .o1).lines.breakerClosed = false
      ∧ ((bare .closing).berth .o1).sy.close ≠ .inFlight
      ∧ OutletState.closureUnwanted .closing = false := by decide

theorem test_late_closure_is_recorded :
    shows (.breakerFeedbackClosed .o1) failedClose (fun t =>
      (t.berth .o1).sy.openDrive && (t.berth .o1).sy.record.any fun r =>
        r.outcome == .late && r.measured == some 130) = true := by decide +kernel

/-- A state with O1's feedback closed. -/
def contacted (s : State) : State := s.onLines .o1 fun l => { l with breakerClosed := true }

/-- O1 with its feedback closed, PR driving it open within a post-trip time. -/
def postTrip (st : OutletState) : State :=
  (contacted (inState st)).onBerth .o1 fun b =>
    { b with pr := { b.pr with openDrive := true, postTripFrom := some 900000 } }

theorem witness_FeedbackOpenIsTaken :
    ((inState .shoreSupply).berth .o1).lines.breakerClosed = true
      ∧ ((inState .shoreSupply).berth .o1).sc.state.breakerClosed = true
      ∧ ((inState .shoreSupply).berth .o1).openOutput = false
      ∧ ((contacted (inState .opening)).berth .o1).sc.state = .opening
      ∧ ((contacted (inState .opening)).parted .o1).keptOpen .o1
      ∧ ((contacted (bare .windDown)).berth .o1).sc.state = .windDown
      ∧ (contacted (bare .windDown)).assigned .o1 = 0
      ∧ ((contacted (bare .windDown)).berth .o1).sc.session = some session
      ∧ ((contacted (bare .windDown)).berth .o1).mt.isSome = true
      ∧ ((contacted (before .tripped)).berth .o1).sc.state = .tripped
      ∧ ((contacted (before .tripped)).berth .o1).sc.session = none :=
  ⟨rfl, rfl, rfl, rfl, keptOpen_of_module _ rfl (by decide), rfl, by decide, rfl, rfl, rfl, rfl⟩

theorem witness_FeedbackOpenIsTaken_drives :
    ((contacted (inState .windDown)).berth .o1).lines.breakerClosed = true
      ∧ ((contacted (inState .windDown)).berth .o1).sc.state = .windDown
      ∧ 0 < (contacted (inState .windDown)).assigned .o1
      ∧ (contacted (inState .windDown)).passDue = false
      ∧ ((contacted (inState .tripped)).berth .o1).lines.breakerClosed = true
      ∧ ((contacted (inState .tripped)).berth .o1).sc.state = .tripped
      ∧ ((contacted (inState .tripped)).berth .o1).sc.session.isSome = true
      ∧ (contacted (inState .tripped)).passDue = false := by decide +kernel

/-- R107: within the post-trip time the opening ends the drive in WIND_DOWN, and leaves it in TRIPPED. -/
theorem test_opening_within_the_post_trip_time :
    shows (.breakerFeedbackOpen .o1) (postTrip .windDown) (fun t =>
        !(t.berth .o1).pr.openDrive && (t.berth .o1).pr.postTripFrom == none) = true
      ∧ shows (.breakerFeedbackOpen .o1) (postTrip .tripped) (fun t =>
        (t.berth .o1).pr.openDrive && (t.berth .o1).pr.postTripFrom == some 900000) = true := by
  decide +kernel

theorem test_opening_trips_or_closes_the_session :
    shows (.breakerFeedbackOpen .o1) (inState .shoreSupply) (fun t =>
        (t.berth .o1).sc.state == .tripped && (t.module .m1).state == .held) = true
      ∧ shows (.breakerFeedbackOpen .o1) (contacted (bare .windDown)) (fun t =>
        (t.berth .o1).sc.state == .cableProven && t.metering.queue.length == 1) = true := by
  decide +kernel

theorem test_supply_on_with_a_closed_breaker :
    shows (.supplyOn true ⟨false, true, false, false⟩) State.reset (fun t =>
      (t.berth .o2).sy.openDrive && !(t.berth .o1).sy.openDrive && t.fe.flags == 0x10001000) = true := by
  decide +kernel

/-- A reply of one byte owed. -/
def owed (kind : Byte) (payload : List Byte) : State :=
  { State.reset with svl := { State.reset.svl with
      inProgress := some ⟨0x07, 1⟩, transmit := [⟨kind, 1, payload, true⟩] } }

theorem witness_WarmRestart :
    (owed 0x87 [0]).svl.transmit = ⟨0x87, 1, [0], true⟩ :: []
      ∧ (owed 0x87 [6]).svl.transmit = ⟨0x87, 1, [6], true⟩ :: []
      ∧ ¬ ((6 : Byte) :: [] = [0]) ∧ State.reset.svl.transmit = []
      ∧ [(0x03 : Byte), 0x87, 0x01, 0x00] = BitVec.ofNat 8 ([(0 : Byte)].length + 2) :: 0x87 :: 1 :: [0]
      ∧ [(0xA5 : Byte), 0x03, 0x87, 0x01, 0x00, 0x92, 0xE7]
        = 0xA5 :: [0x03, 0x87, 0x01, 0x00] ++ [(crc16 [0x03, 0x87, 0x01, 0x00]).extractLsb' 8 8,
            (crc16 [0x03, 0x87, 0x01, 0x00]).extractLsb' 0 8] := by decide +kernel

theorem test_restart_reply_restarts :
    shows .replySent (owed 0x87 [0]) (fun t => t.fe.flags == 0x10000400 && t.svl.transmit == []) = true := by
  decide +kernel

/-- R184: the frame of a BAD_LENGTH reply, its CRC-16 worked out outside the model. -/
theorem test_reply_goes_out_framed :
    shows .replySent (owed 0x87 [6]) (fun t => t.svl.transmit == []
      && t.svl.lastFrame == [0xA5, 0x03, 0x87, 0x01, 0x06, 0xF2, 0x21]) = true := by
  decide +kernel

theorem test_restart_trips_a_session :
    shows .resetInput (inState .shoreSupply) (fun t => (t.berth .o1).sc.state == .tripped
      && (t.berth .o1).sc.openDrive && (t.module .m1).state == .held) = true := by decide +kernel

/-- R170 and R41: the reports of the restart alone, the capture of the trip, and a fresh hold time. -/
theorem test_restart_reports_and_holds :
    shows .resetInput (inState .shoreSupply) (fun t =>
        t.fe.queue.map (fun e => (e.kind, e.source, e.detail))
            == [(.fault .restart, .station, none), (.outletState, .outlet .o1, some 11),
              (.fault .restart, .outlet .o1, none)]
          && t.fe.capture.map Capture.source == some (.outlet .o1)
          && (t.berth .o1).mp.hold == some { since := 1000000, length := 30 }) = true
      ∧ shows .resetInput (before .dormant) (fun t =>
        t.fe.queue.map EventRecord.source == [.station, .outlet .o1]
          && t.fe.capture == none && (t.berth .o1).mp.hold == none) = true := by decide +kernel

theorem witness_FramesDecodeAndCarryTheirChecks :
    (Instr.unlockModule 9 [12]).wellFormed = true
      ∧ (Instr.unlockModule 9 [12]).requestFrame
        = some [0xA5, 0x03, 0x12, 0x09, 0x0C, 0x49, 0x0B]
      ∧ [0, 0].length = 2 ∧ [(0 : Byte), 0] ≠ [0x49, 0x0B] := by decide +kernel

theorem witness_FramesDecodeAndCarryTheirChecks_ship :
    (Instr.slotEnd .o2 true ⟨31, 5, []⟩).wellFormed = true
      ∧ (Instr.slotEnd .o2 true ⟨31, 5, []⟩).shipFrame.isSome = true := by decide +kernel

/-- G with a cycle in progress since a run count, at run count 1,000,000. -/
def gridCycle (since : RunCount) : State :=
  { bare .dormant with grid := { nominal := 11000, point := { PointState.reset 0 with
      live := true, cycle := some (stampAt since) } } }

theorem witness_MeasuringPointRecords :
    ((bare .dormant).point .grid).cycle = none
      ∧ ((gridCycle 985715).point .grid).cycle = some (stampAt 985715)
      ∧ elapsed (gridCycle 985715).tb.run 985715 < 14286
      ∧ 14286 ≤ elapsed (gridCycle 985714).tb.run 985714
      ∧ elapsed (gridCycle 975000).tb.run 975000 ≤ 25000
      ∧ (gridCycle 975000).nominalAt .grid / 10
        ≤ min 15000 (((volts 1100).v12 + (volts 1100).v23 + (volts 1100).v31) / 3)
      ∧ min 15000 (((volts 1099).v12 + (volts 1099).v23 + (volts 1099).v31) / 3)
        < (gridCycle 975000).nominalAt .grid / 10
      ∧ ((gridCycle 975000).point .grid).cycle ≠ none := by decide +kernel

theorem test_cycle_record_of_the_grid :
    shows (.zeroCrossing .grid (volts 11000) noPower) (gridCycle 980000) (fun t =>
      t.grid.point.record.any fun r => r.cycle == some { period := 20000, freq := 50000 }
        && r.voltage == 11000) = true := by decide +kernel

theorem test_low_voltage_makes_the_point_dead :
    shows (.cycleLapse .grid (volts 1099)) (gridCycle 970000) (fun t =>
      !t.grid.point.live && t.grid.point.cycle == none) = true := by decide +kernel

/-- O1 in a state with a cycle of P1 and of S1 in progress. -/
def measuringIn (st : OutletState) : State :=
  (inState st).onMu .o1 fun m => { m with
    ship := { live := true, cycle := some (stampAt 983334), cadenceFrom := 0, record := none }
    shore := { live := true, cycle := some (stampAt 985001), cadenceFrom := 0
               record := some { stamp := stampAt 985001, voltage := 11000, clipped := false
                                cycle := some { period := 16645, freq := 60078 } } } }

/-- O1 on shore supply, so measured. -/
def measuring : State := measuringIn .shoreSupply

theorem witness_CyclesMakePowerAndPairRecords :
    measuring.waits .o1 = false
      ∧ (measuring.point (.ship .o1)).cycle = some (stampAt 983334)
      ∧ 14286 ≤ elapsed measuring.tb.run 983334 ∧ elapsed measuring.tb.run 983334 ≤ 25000
      ∧ measuring.nominalAt (.ship .o1) / 10
        ≤ min 15000 (((volts 11000).v12 + (volts 11000).v23 + (volts 11000).v31) / 3)
      ∧ (0 : Int) = max (-25000000) (min 25000000 noPower.p)
      ∧ (measuring.berth .o1).mu.ship.cycle = some (stampAt 983334)
      ∧ (measuring.berth .o1).mu.shore.cycle = some (stampAt 985001)
      ∧ (measuring.berth .o1).mt = some meter
      ∧ (((bare .shoreSupply).onMu .o1 fun m => { m with
          shore := (measuring.berth .o1).mu.shore }).berth .o1).mu.ship.live = false := by
  decide +kernel

/-- R16: 100 V and 10 A in each phase at one instant and the reverse current at the next but for
1,999,999 µW; the current 90° behind; 1.999999 VA. -/
theorem test_power_of_a_cycle :
    ({ noPower with samples := [⟨⟨100000, 10000⟩, ⟨100000, 10000⟩, ⟨100000, 10000⟩⟩,
        ⟨⟨100000, -10000⟩, ⟨100000, -10000⟩, ⟨-1, 1003999998⟩⟩] }).p = -1
      ∧ ({ noPower with fundamental := ⟨⟨100000, 0, 0, 10000⟩, ⟨100000, 0, 0, 10000⟩,
        ⟨100000, 0, 0, 10000⟩⟩ }).q = 3000
      ∧ ({ noPower with rms := ⟨⟨1, 999999⟩, ⟨1000, 1000⟩, ⟨0, 5⟩⟩ }).s = 1 := by decide +kernel

/-- Paragraph 1.5.1, and R141: 4,200,123 W over 16,666 µs. -/
theorem test_pair_record_and_energy :
    shows (.zeroCrossing (.ship .o1) (volts 11000) (powers 4200123 0)) measuring (fun t =>
      (t.berth .o1).mu.pair.any (fun r => r.theta == -356)
        && (t.berth .o1).mt.any fun m => m.imported.accumulator == 4200123 * 16666) = true := by
  decide +kernel

/-- O1 on shore supply with Pn dead, a cycle of S1 in progress. -/
def measuringShore : State := measuring.onMu .o1 fun m => { m with ship := .reset 0 }

/-- The end of a cycle of P1 that began so makes a power record of O1. -/
theorem makesPower_ship (s : State) (run : s.tb.run = 1000000)
    (cycle : (s.point (.ship .o1)).cycle = some (stampAt 983334))
    (nominal : s.nominalAt (.ship .o1) = 11000) : s.MakesPower .o1 (.ship .o1) (volts 11000) where
  point := .inl rfl
  cycle :=
    { period := ⟨stampAt 983334, cycle, by rw [run]; decide, by rw [run]; decide⟩
      volts := by rw [nominal]; decide }

/-- So does the end of the cycle of S1 while P1 is dead. -/
theorem makesPower_shore : measuringShore.MakesPower .o1 (.shore .o1) (volts 11000) :=
  ⟨.inr ⟨rfl, rfl⟩, ⟨⟨stampAt 985001, rfl, by decide, by decide⟩, by decide⟩⟩

/-! ### The module pool -/

/-- M1 in a state at O1 in ENERGISING, a module that the pre-charge unit serves. -/
def starting (precharged : Bool) : State :=
  { station (berthIn .energising) { moduleIn .starting (some .o1) with precharged := precharged } with
    pool := { (station (berthIn .energising)
        { moduleIn .starting (some .o1) with precharged := precharged }).pool with
      unit := some { module := .m1, outlet := .o1, since := 0, cls := .energise, arrival := .zero
                     ended := false } } }

/-- A report. -/
def report (st : ReportState) (code : Option Nat) : ModuleReport :=
  { state := st, current := 0, power := 0, band := .normal, code := code }

theorem witness_ModuleReportsAndStarts :
    State.reset.passDue = false ∧ (State.reset.module .m1).state = .offline
      ∧ ((inState .shoreSupply).module .m1).state ≠ .offline
      ∧ ((inState .shoreSupply).module .m1).state = .running
      ∧ (inState .shoreSupply).sameRating .m1 (report .running none)
      ∧ ((starting true).module .m1).state = .starting
      ∧ ((starting true).module .m1).outlet = some .o1
      ∧ ((starting true).module .m1).precharged = true
      ∧ ((starting true).berth .o1).declaresDeadBus = false :=
  ⟨rfl, rfl, by decide, rfl, iff_of_false (by decide) (by decide), rfl, rfl, rfl, rfl⟩

/-- A report of PRECHARGING from a module that has become hot. -/
def hotReport : ModuleReport := { report .precharging none with band := .hot }

/-- The starting module's outlet with a target. -/
def wanting (target : Nat) : State := (starting false).onSc .o1 fun r => { r with target := target }

/-- 3,000 kVA is 2,250 kVA HOT (R21). -/
theorem witness_ModuleReportsAndStarts_rating :
    ((starting true).berth .o1).sc.state = .energising
      ∧ ((starting true).berth .o1).declaresParallel = true
      ∧ (wanting 2400).passDue = false ∧ ((wanting 2400).module .m1).state = .starting
      ∧ ((wanting 2400).module .m1).outlet = some .o1 ∧ (wanting 2400).pool.unit.isSome = true
      ∧ ((wanting 2400).module .m1).effective = 3000
      ∧ ((wanting 2400).berth .o1).sc.state.requests = true ∧ (wanting 2400).assigned .o1 < 8
      ∧ ((wanting 2400).onModule .m1 fun x => { x with band := .hot }).prospective .o1 = 2250
      ∧ ((wanting 2400).berth .o1).sc.target = 2400 ∧ ((wanting 2250).berth .o1).sc.target = 2250
      ∧ ((wanting 2400).berth .o1).mp.replaceArisen = false := by decide +kernel

theorem test_hot_start_raises_a_request :
    shows (.moduleReport .m1 hotReport) (wanting 2400) (fun t =>
        (t.berth .o1).mp.entry.any fun e => e.cls == .energise) = true
      ∧ shows (.moduleReport .m1 hotReport) ((wanting 2250).onMp .o1 fun p => { p with
          entry := some { cls := .energise, arrival := .zero } }) (fun t =>
        (t.berth .o1).mp.entry == none) = true := by decide +kernel

/-! ### Arbitration -/

/-- O1, O2 and O3 want a module, and none is IDLE: O1 and O2 by ENERGISE, O1 since earlier, and O3 by
GROW since earliest. -/
def requesting : State :=
  (((bare .energising).onMp .o1 fun p => { p with
    entry := some { cls := .energise, arrival := stampAt 10 } }).onMp .o2 fun p => { p with
      entry := some { cls := .energise, arrival := stampAt 20 } }).onMp .o3 fun p => { p with
        entry := some { cls := .grow, arrival := stampAt 5 } }

theorem witness_ArbitrationOrderAndReturns :
    (3000 : Nat) = (0x0B : Byte).toNat * 256 + (0xB8 : Byte).toNat
      ∧ requesting.svl.inProgress = none ∧ requesting.passDue = false ∧ requesting.noneWaits
      ∧ (requesting.module .m1).state = .offline ∧ (requesting.module .m1).faultCount < 3
      ∧ requesting.pool.unit = none ∧ (∀ n, (requesting.module n).state ≠ .idle)
      ∧ (requesting.berth .o1).mp.entry = some { cls := .energise, arrival := stampAt 10 }
      ∧ elapsed requesting.tb.run 20 < elapsed requesting.tb.run 10
      ∧ RequestClass.rank .grow < RequestClass.rank .energise
      ∧ (requesting.berth .o4).mp.entry = none :=
  ⟨rfl, rfl, rfl, noneWaits_of _ ⟨rfl, rfl, rfl, rfl⟩, rfl, by decide, rfl,
    fun n => by cases n <;> decide, rfl, by decide, by decide, rfl⟩

theorem test_the_earlier_of_the_higher_class_is_served :
    shows (.declareModule 1 [1, 0x0B, 0xB8]) requesting (fun t =>
      t.pool.unit.any (fun u => u.outlet == .o1) && (t.berth .o2).mp.entry.isSome
        && (t.berth .o3).mp.entry.isSome) = true := by decide +kernel

/-- M1 starting at O1 for a request, and another module there. -/
def returning (st : OutletState) (cls : RequestClass) (other : Machine.Module) : State :=
  { (station (berthIn st) (moduleIn .starting (some .o1))).onMp .o1 fun p => { p with
      replaceArisen := cls == .replace } with
    pool := { State.reset.pool with
      modules := { State.reset.pool.modules with m1 := moduleIn .starting (some .o1), m2 := other }
      unit := some { module := .m1, outlet := .o1, since := 0, cls := cls, arrival := stampAt 7
                     ended := false } } }

theorem witness_ArbitrationOrderAndReturns_returns :
    (∃ u, (returning .energising .energise .reset).pool.unit = some u ∧ u.outlet = .o1)
      ∧ ((returning .energising .energise .reset).module .m1).state = .starting
      ∧ ((returning .energising .energise .reset).module .m1).outlet = some .o1
      ∧ (∀ n, n ≠ .m1 → ((returning .energising .energise .reset).module n).state ≠ .starting)
      ∧ (∀ n, ((returning .energising .energise .reset).module n).state ≠ .idle)
      ∧ (returning .energising .energise .reset).assigned .o1 ≤ 8
      ∧ (returning .energising .energise .reset).passDue = false
      ∧ (returning .energising .energise .reset).noneWaits
      ∧ (returning .energising .energise .reset).capacity .o1
        < ((returning .energising .energise .reset).berth .o1).sc.target
      ∧ ((returning .shoreSupply .grow (moduleIn .running (some .o1))).berth .o1).sc.target
        ≤ (returning .shoreSupply .grow (moduleIn .running (some .o1))).capacity .o1
      ∧ ((returning .shoreSupply .grow .reset).berth .o1).sc.state.requests = true
      ∧ ((returning .windDown .grow .reset).berth .o1).sc.state.requests = false :=
  ⟨⟨_, rfl, rfl⟩, rfl, rfl, fun n => by cases n <;> decide, fun n => by cases n <;> decide,
    by decide, rfl, noneWaits_of _ ⟨rfl, rfl, rfl, rfl⟩, by decide +kernel, by decide +kernel, rfl,
    rfl⟩

theorem test_a_failed_start_returns_its_request :
    shows .startTimeExpiry (returning .energising .energise .reset) (fun t =>
        (t.berth .o1).mp.entry == some { cls := .energise, arrival := stampAt 7 }) = true
      ∧ shows .startTimeExpiry (returning .shoreSupply .replace .reset) (fun t =>
        (t.berth .o1).mp.entry == some { cls := .replace, arrival := stampAt 7 }) = true
      ∧ shows .startTimeExpiry (returning .shoreSupply .replace (moduleIn .running (some .o1)))
        (fun t => (t.berth .o1).mp.entry == none) = true := by decide +kernel

theorem test_start_completes :
    shows (.moduleReport .m1 (report .running none)) (starting true) (fun t =>
      (t.module .m1).state == .running && t.capacity .o1 == 3000) = true := by decide +kernel

/-- M1 STOPPING at O1 in WIND_DOWN, before and after STOP, NORMAL is commanded. -/
def moduleStopping (normalFrom : Option RunCount) : State :=
  station (berthIn .windDown) { moduleIn .stopping (some .o1) with
    stop := some { endedStart := false, since := 0, normalFrom := normalFrom } }

/-- M1 FAULTED with a number of faults. -/
def moduleFaulted (n : Nat) : State :=
  station Berth.reset { moduleIn .faulted none with faultCount := n }

theorem witness_StopsAndFaultsEnd :
    ((moduleStopping none).module .m1).state = .stopping
      ∧ ((moduleStopping none).module .m1).stop
        = some { endedStart := false, since := 0, normalFrom := none }
      ∧ ((moduleStopping none).module .m1).rating = some 3000
      ∧ ((moduleStopping none).module .m1).outlet = some .o1
      ∧ ((moduleStopping (some 0)).module .m1).stop
        = some { endedStart := false, since := 0, normalFrom := some 0 }
      ∧ (∀ q, ((moduleStopping (some 0)).berth q).mp.entry = none)
      ∧ ((moduleStopping (some 0)).berth .o1).sc.state.requests = false
      ∧ (moduleStopping (some 0)).noneWaits
      ∧ ((moduleFaulted 2).module .m1).state = .faulted
      ∧ ((moduleFaulted 2).module .m1).faultCount < 3 ∧ (moduleFaulted 2).noneWaits
      ∧ (∀ q, ((moduleFaulted 2).berth q).mp.entry = none)
      ∧ 3 ≤ ((moduleFaulted 3).module .m1).faultCount :=
  ⟨rfl, rfl, rfl, rfl, rfl, everyOutlet ⟨rfl, rfl, rfl, rfl⟩, rfl,
    noneWaits_of _ ⟨rfl, rfl, rfl, rfl⟩, rfl, by decide, noneWaits_of _ ⟨rfl, rfl, rfl, rfl⟩,
    everyOutlet ⟨rfl, rfl, rfl, rfl⟩, by decide⟩

theorem test_stopped_module_is_idle :
    shows (.moduleReport .m1 (report .stopped none)) (moduleStopping (some 0)) (fun t =>
      (t.module .m1).state == .idle && (t.module .m1).outlet == none) = true := by decide +kernel

/-- R28: 3,000 kVA at 11,000 V is 157 A, a twentieth of which 7 A is below and 8 A is not. -/
theorem test_stop_current :
    shows (.moduleReport .m1 { report .running none with current := 8 }) (moduleStopping none)
        (fun t => (t.module .m1).stop.any fun p => p.normalFrom == none) = true
      ∧ shows (.moduleReport .m1 { report .running none with current := 7 }) (moduleStopping none)
        (fun t => (t.module .m1).stop.any fun p => p.normalFrom == some 1000000) = true := by
  decide +kernel

theorem witness_ModuleFailures_reports :
    (inState .shoreSupply).sameRating .m1 (report .fault (some 9))
      ∧ ((inState .shoreSupply).module .m1).state = .running
      ∧ (report .fault (some 9)).state ≠ .running
      ∧ ((starting false).module .m1).state = .starting
      ∧ (∃ u, (starting false).pool.unit = some u ∧ u.module = .m1)
      ∧ (starting false).sameRating .m1 (report .running none)
      ∧ ((starting false).module .m1).precharged = false :=
  ⟨iff_of_false (by decide) (by decide), rfl, by decide, rfl, ⟨_, rfl, rfl⟩,
    iff_of_false (by decide) (by decide), rfl⟩

theorem test_fault_report :
    shows (.moduleReport .m1 (report .fault (some 9))) (inState .shoreSupply) (fun t =>
      (t.module .m1).state == .faulted && (t.module .m1).faultCode == some 9) = true := by
  decide +kernel

theorem witness_ModuleFailures_times :
    ((inState .shoreSupply).module .m1).state ≠ .offline
      ∧ ((inState .shoreSupply).module .m1).lineLost = false
      ∧ ((moduleFaulted 1).module .m1).state = .faulted
      ∧ ((starting false).module .m1).state = .starting
      ∧ (State.reset.module .m1).state = .offline
      ∧ ((moduleStopping (some 0)).module .m1).state = .stopping
      ∧ ((moduleStopping (some 0)).module .m1).stop
        = some { endedStart := false, since := 0, normalFrom := some 0 } := by decide

theorem test_line_loss_of_a_running_module :
    shows (.moduleLineLoss .m1) (inState .shoreSupply) (fun t =>
      (t.module .m1).state == .faulted && t.fe.flags == 0x10024000) = true := by decide +kernel

theorem test_start_time_expiry :
    shows .startTimeExpiry (starting true) (fun t =>
      (t.module .m1).state == .faulted && (t.module .m1).faultCount == 1) = true := by
  decide +kernel

/-- O1 TRIPPED with its hold time running and M1 HELD. -/
def holding : State :=
  (station (berthIn .tripped) (moduleIn .held (some .o1))).onMp .o1 fun p => { p with
    hold := some { since := 0, length := 30 } }

theorem witness_CommandRecordsAndHolds :
    ((moduleStopping none).module .m1).state = .stopping
      ∧ ((moduleStopping none).module .m1).stop
        = some { endedStart := false, since := 0, normalFrom := none }
      ∧ (holding.berth .o1).sc.state = .tripped ∧ (holding.berth .o1).mp.hold.isSome = true
      ∧ (holding.module .m1).outlet = some .o1 ∧ (holding.module .m1).state = .held := by decide

theorem test_hold_time_expiry :
    shows (.holdTimeExpiry .o1) holding (fun t => (t.module .m1).state == .stopping) = true := by
  decide +kernel

theorem test_command_of_an_idle_module :
    shows .commandRecord (station Berth.reset (moduleIn .idle none)) (fun t =>
      (t.module .m1).sent == some ⟨.stopNormal, none⟩ && (t.module .m2).sent == none) = true := by
  decide +kernel

/-- R57: after OFF the references wait for the next update. -/
theorem test_first_references_after_off :
    shows .commandRecord (inState .energising) (fun t =>
        (t.module .m1).sent.any fun c => c.refs == none) = true
      ∧ shows .commandRecord ((inState .energising).onRg .o1 fun g => { g with updated := true })
        (fun t => (t.module .m1).sent.any fun c => c.refs.isSome) = true := by decide +kernel

/-- O1 on shore supply with M1 RUNNING there and M2 in a state, and its watches. -/
def watching (st : ModuleState) (o : Option Outlet) (f : OutletPool → OutletPool) : State :=
  { (inState .shoreSupply).onMp .o1 f with
    pool := { (inState .shoreSupply).pool with
      modules := { (inState .shoreSupply).pool.modules with m2 := moduleIn st o } } }

theorem witness_GrowAndShrinkWatches :
    ((watching .idle none fun p => { p with growFrom := some 0 }).berth .o1).mp.growFrom.isSome = true
      ∧ (watching .idle none fun p => { p with growFrom := some 0 }).growAllowed .o1 = true
      ∧ ((watching .idle none fun p => { p with growFrom := some 0 }).berth .o1).mp.replaceArisen
        = false
      ∧ (watching .idle none fun p => { p with growFrom := some 0 }).pool.unit = none
      ∧ (∃ m, ((watching .idle none fun p => { p with growFrom := some 0 }).module m).state = .idle)
      ∧ (∀ q, ((watching .idle none fun p => { p with growFrom := some 0 }).berth q).mp.entry = none)
      ∧ ({ watching .idle none fun p => { p with growFrom := some 0 } with
          pool := { (starting true).pool with modules := (watching .idle none id).pool.modules } }
        ).growAllowed .o1 = true
      ∧ ((inState .shoreSupply).chooseModule 1) = none
      ∧ (watching .idle none id).chooseModule 1 = some .m2 :=
  ⟨rfl, by decide +kernel, rfl, rfl, ⟨.m2, rfl⟩, everyOutlet ⟨rfl, rfl, rfl, rfl⟩,
    by decide +kernel, by decide +kernel, by decide +kernel⟩

/-- A power record of an apparent power. -/
def powerOf (s : Nat) : PowerRecord :=
  { p := s, q := 0, s := s, period := 20000, clipped := false, stamp := .zero }

/-- O1 on shore supply with M1 and M2 RUNNING, its SHRINK watch run, and a power record. -/
def shrinking (apparent : Nat) : State :=
  (watching .running (some .o1) fun p => { p with shrinkFrom := some 0 }).onMu .o1 fun m =>
    { m with power := some (powerOf apparent) }

theorem witness_GrowAndShrinkWatches_shrink :
    ((shrinking 2000000).berth .o1).mp.shrinkFrom.isSome = true
      ∧ ((shrinking 2000000).berth .o1).sc.state = .shoreSupply
      ∧ ((shrinking 2000000).module .m2).state = .running
      ∧ ((shrinking 2000000).module .m2).outlet = some .o1
      ∧ (∀ n, ((shrinking 2000000).module n).state = .running →
          ((shrinking 2000000).module n).outlet = some .o1 →
          ((shrinking 2000000).module n).effective < ((shrinking 2000000).module .m2).effective
            ∨ (((shrinking 2000000).module n).effective
                = ((shrinking 2000000).module .m2).effective
              ∧ n.number ≤ ModuleNo.number .m2))
      ∧ ((shrinking 2000000).berth .o1).mu.power = some (powerOf 2000000) :=
  ⟨rfl, rfl, rfl, rfl, fun n => by cases n <;> decide +kernel, rfl⟩

theorem test_shrink_selects_the_higher_number :
    shows (.shrinkWatchComplete .o1) (shrinking 2000000) (fun t =>
      (t.module .m2).state == .running && (t.module .m1).state == .running
        && (t.berth .o1).mp.voluntary == some { module := .m2, begun := false }) = true := by
  decide +kernel

/-- O1 so measured with M1 and M2 RUNNING, M2's stop deferred. -/
def deferring : State :=
  { measuring.onMp .o1 fun p => { p with voluntary := some { module := .m2, begun := false } } with
    pool := (shrinking 0).pool }

theorem witness_GrowAndShrinkWatches_record :
    (deferring.berth .o1).sc.state = .shoreSupply ∧ (deferring.module .m2).state = .running
      ∧ (deferring.module .m2).outlet = some .o1
      ∧ (deferring.berth .o1).mp.voluntary = some { module := .m2, begun := false }
      ∧ (deferring.berth .o1).mu.ship.cycle = some (stampAt 983334)
      ∧ 14286 ≤ elapsed deferring.tb.run 983334 ∧ elapsed deferring.tb.run 983334 ≤ 25000
      ∧ (deferring.berth .o1).nominalVolts / 10 ≤ 11000
      ∧ (deferring.berth .o1).pr.frequency < 9 ∧ (deferring.berth .o1).pr.overload < 9
      ∧ deferring.capacity .o1 - (deferring.module .m2).effective = 3000 := by decide +kernel

/-- R37: 3000 kVA left allow a stop up to an S of 2,857,142 VA. -/
theorem test_deferred_stop_begins_at_a_record :
    shows (.zeroCrossing (.ship .o1) (volts 11000) (powers 0 2857142)) deferring (fun t =>
        (t.module .m2).state == .stopping && (t.berth .o1).sc.state == .shoreSupply
          && (t.berth .o1).mp.voluntary == some { module := .m2, begun := true }) = true
      ∧ shows (.zeroCrossing (.ship .o1) (volts 11000) (powers 0 2857143)) deferring (fun t =>
        (t.module .m2).state == .running
          && (t.berth .o1).mp.voluntary == some { module := .m2, begun := false }) = true := by
  decide +kernel

/-- O1 so measured with M1 and M2 RUNNING. -/
def measuringTwo : State := { measuring with pool := (shrinking 0).pool }

theorem witness_GrowAndShrinkWatches_judged :
    measuring.passDue = false ∧ measuring.MakesPower .o1 (.ship .o1) (volts 11000)
      ∧ measuringShore.MakesPower .o1 (.shore .o1) (volts 11000)
      ∧ (measuring.berth .o1).pr.frequency < 9 ∧ (measuring.berth .o1).pr.overload < 9
      ∧ (measuring.berth .o1).mp.voluntary = none
      ∧ measuringTwo.MakesPower .o1 (.ship .o1) (volts 11000)
      ∧ (measuringTwo.module .m2).outlet = some .o1 ∧ (measuringTwo.module .m2).state = .running
      ∧ (∀ m, (measuringTwo.module m).effective ≤ (measuringTwo.module .m2).effective)
      ∧ 3000 = measuringTwo.capacity .o1 - (measuringTwo.module .m2).effective
      ∧ ∀ m, ((bare .shoreSupply).module m).state ≠ .running :=
  ⟨rfl, makesPower_ship _ rfl rfl rfl, makesPower_shore, by decide, by decide, rfl,
    makesPower_ship _ rfl rfl rfl, rfl, rfl, fun m => by cases m <;> decide, by decide,
    fun m => by cases m <;> decide⟩

/-- R36: at 3,000 kVA the GROW watch runs above 2,700,000 VA, at a record of P1 and of S1. -/
theorem test_grow_watch_at_a_record :
    shows (.zeroCrossing (.ship .o1) (volts 11000) (powers 0 2700001)) measuring (fun t =>
        (t.berth .o1).mp.growFrom == some 1000000) = true
      ∧ shows (.zeroCrossing (.shore .o1) (volts 11000) (powers 0 2700001)) measuringShore
        (fun t => (t.berth .o1).mp.growFrom == some 1000000) = true
      ∧ shows (.zeroCrossing (.ship .o1) (volts 11000) (powers 0 2700000))
        (measuring.onMp .o1 fun p => { p with growFrom := some 7 }) (fun t =>
          (t.berth .o1).mp.growFrom == none) = true := by decide +kernel

/-- R37: 3,000 kVA left are 1.25 times 2,400,000 VA. -/
theorem test_shrink_watch_at_a_record :
    shows (.zeroCrossing (.ship .o1) (volts 11000) (powers 0 2400000)) measuringTwo (fun t =>
        (t.berth .o1).mp.shrinkFrom == some 1000000) = true
      ∧ shows (.zeroCrossing (.ship .o1) (volts 11000) (powers 0 2400001))
        (measuringTwo.onMp .o1 fun p => { p with shrinkFrom := some 7 }) (fun t =>
          (t.berth .o1).mp.shrinkFrom == none) = true := by decide +kernel

/-- Paragraph 12.3: a deficit of 1200, and 1500 shared by M5 and M10. -/
theorem test_choice_of_the_smallest_not_below :
    ({ State.reset with pool := { State.reset.pool with modules := { State.reset.pool.modules with
        m5 := { moduleIn .idle none with rating := some 1500 }
        m7 := moduleIn .idle none
        m10 := { moduleIn .idle none with rating := some 1500 }
        m11 := { moduleIn .idle none with rating := some 1000 } } } }).chooseModule 1200
      = some .m5 := by decide +kernel

/-! ### References -/

/-- A pair record at 60,004 mHz. -/
def pair : PairRecord :=
  { fS := 60084, vS := 6640, fP := 60004, vP := 6580, period := 16665, stamp := .zero, theta := -36 }

/-- O1 in PARALLEL_IN with the figures of paragraph 3.5.1. -/
def ramping : Berth :=
  { berthIn .parallelIn with
    rg := { (berthIn .parallelIn).rg with pSet := 3000, delta := 12, recordTime := some 0 }
    mu := { (berthIn .parallelIn).mu with pair := some pair } }

theorem witness_ReferencesAndPowerLoop :
    (ramping.rg.mode = .track ∨ ramping.rg.mode = .power) ∧ ramping.rg.recordTime.isSome = true
      ∧ ramping.mu.pair = some pair ∧ ramping.rg.mode = .power
      ∧ (1 : Int) = ((((ramping.rg.pSet : Int) * 1000 - 1200000) * 100).tdiv ((6000 : Int) * 1000)
          * ramping.rg.gain).tdiv 1000
      ∧ (13 : Int) = max (-500) (min 500 (ramping.rg.delta + 1)) ∧ (13 : Int) ≠ ramping.rg.delta := by
  decide

theorem test_power_loop_moves_the_target :
    (ramping.powerLoop 6000 { powerOf 1200000 with p := 1200000 }).rg.freqTarget = 60017 := by
  decide +kernel

theorem witness_ControlAtARecord :
    (measuringIn .synchronising).waits .o1 = false
      ∧ ((measuringIn .synchronising).berth .o1).mu.ship.cycle = some (stampAt 983334)
      ∧ ((measuringIn .synchronising).berth .o1).pr.frequency < 9
      ∧ ((measuringIn .synchronising).berth .o1).pr.overload < 9
      ∧ ((measuringIn .synchronising).berth .o1).mp.voluntary = none
      ∧ ((measuringIn .synchronising).berth .o1).mu.shore.record.any (·.cycle.isSome) = true
      ∧ ((measuringIn .synchronising).berth .o1).mu.shore.cycle = some (stampAt 985001)
      ∧ ((measuringIn .synchronising).berth .o1).rg.mode = .track
      ∧ ((measuringIn .parallelIn).berth .o1).rg.mode = .power
      ∧ (measuringIn .parallelIn).capacity .o1 = 3000
      ∧ ((measuringIn .parallelIn).module .m1).state = .running
      ∧ ((measuringIn .parallelIn).module .m1).outlet = some .o1 := by decide +kernel

/-- R51: 60,002 mHz and the slip target of 85 mHz. R53: with P_set 0 and 1,200 kW of 3,000 kVA, -40 %
times the gain of 40, over 1000, is -1 mHz. R40: M1 carries all of it. -/
theorem test_control_at_a_record :
    shows (.zeroCrossing (.ship .o1) (volts 11000) noPower) (measuringIn .synchronising) (fun t =>
        (t.berth .o1).rg.freqTarget == 60087 && (t.berth .o1).rg.voltTarget == 11000) = true
      ∧ shows (.zeroCrossing (.ship .o1) (volts 11000) (powers 1200000 1200000))
        (measuringIn .parallelIn) (fun t => (t.berth .o1).rg.freqTarget == 60001
          && (t.module .m1).shareTarget == 1200) = true := by decide +kernel

/-! ### Breakers, the pilot loop and the times of a session -/

/-- O1 with every time of its breaker running. -/
def opening (st : OutletState) (closed : Bool) : State :=
  (inState st).onBerth .o1 fun b => { b with
    sc := { b.sc with openFrom := some 0, returnFrom := some 0, capFrom := some 0 }
    sy := { b.sy with driveFrom := some 0 }
    pr := { b.pr with postTripFrom := some 0 }
    mu := { b.mu with power := some (powerOf 2000000) }
    lines := { b.lines with breakerClosed := closed } }

theorem witness_TimesThatReport :
    ((opening .opening true).berth .o1).sy.driveFrom.isSome = true
      ∧ ((opening .opening true).berth .o1).sc.state = .opening
      ∧ ((opening .opening true).berth .o1).sc.openFrom.isSome = true
      ∧ ((opening .opening true).berth .o1).pr.postTripFrom.isSome = true
      ∧ ({ State.reset with account := { State.reset.account with importFrom := some 0 }
          }).account.importFrom.isSome = true
      ∧ ((opening .shoreSupply true).berth .o1).sc.capFrom.isSome = true
      ∧ ((opening .shoreSupply true).berth .o1).mu.power = some (powerOf 2000000)
      ∧ ((opening .shoreSupply true).berth .o1).sc.state = .shoreSupply
      ∧ ((opening .shoreSupply true).berth .o1).sc.returnFrom.isSome = true
      ∧ ((opening .shoreSupply true).berth .o1).lines.breakerClosed = true
      ∧ ((opening .shoreSupply true).berth .o1).mt = some meter ∧ meter.gapFrom = none := by decide

/-- O1 so measured in a state, with an import limit of 1,800 kW. -/
def limitedTo1800 (st : OutletState) : State :=
  { measuringIn st with account := { State.reset.account with limit := 1800 } }

theorem witness_TimesThatReport_records :
    (limitedTo1800 .shoreSupply).passDue = false
      ∧ (limitedTo1800 .shoreSupply).MakesPower .o1 (.ship .o1) (volts 11000)
      ∧ measuringShore.MakesPower .o1 (.shore .o1) (volts 11000)
      ∧ ((limitedTo1800 .shoreSupply).berth .o1).pr.frequency < 9
      ∧ ((limitedTo1800 .shoreSupply).berth .o1).pr.overload < 9
      ∧ ((limitedTo1800 .shoreSupply).berth .o1).sc.state.breakerClosed = true
      ∧ ((limitedTo1800 .energising).berth .o1).sc.state.breakerClosed = false
      ∧ ((limitedTo1800 .shoreSupply).berth .o1).claim = 1800 :=
  ⟨rfl, makesPower_ship _ rfl rfl rfl, makesPower_shore, by decide, by decide, rfl, rfl, rfl⟩

/-- R87: a limit and a claim of 1,800 kW. -/
theorem test_load_watches_at_a_record :
    shows (.zeroCrossing (.ship .o1) (volts 11000) (powers 1800001 0)) (limitedTo1800 .shoreSupply)
        (fun t => t.account.importFrom == some 1000000
          && (t.berth .o1).sc.capFrom == some 1000000) = true
      ∧ shows (.zeroCrossing (.ship .o1) (volts 11000) (powers 1800000 0))
        (limitedTo1800 .shoreSupply) (fun t => t.account.importFrom == none
          && (t.berth .o1).sc.capFrom == none) = true := by decide +kernel

/-- R96: 2 % of 3,000 kVA. -/
theorem test_unloaded_time_at_a_record :
    shows (.zeroCrossing (.ship .o1) (volts 11000) (powers (-60000) 0)) (measuringIn .parallelOut)
        (fun t => (t.berth .o1).sc.unloadedFrom == some 1000000) = true
      ∧ shows (.zeroCrossing (.ship .o1) (volts 11000) (powers 60001 0)) (measuringIn .parallelOut)
        (fun t => (t.berth .o1).sc.unloadedFrom == none) = true := by decide +kernel

theorem test_breaker_fail_after_the_trip :
    shows (.postTripTimeExpiry .o1) (opening .tripped true) (fun t =>
      (t.berth .o1).pr.openDrive && t.fe.flags == 0x10002000) = true := by decide +kernel

theorem test_gap_counts_from_the_meter_opened :
    shows (.gapOpens .o1) (inState .shoreSupply) (fun t =>
      (t.berth .o1).mt.any fun m => m.gapFrom == some 0) = true := by decide +kernel

/-- O1 in ENERGISING for a dead ship, S1 live and the dead time running. -/
def deadShip : State :=
  (inState .energising).onBerth .o1 fun b => { b with
    sc := { b.sc with declaration := some { declared with mode := 1 } }
    sy := { b.sy with deadFrom := some 0 }
    mu := { b.mu with shore := { b.mu.shore with live := true } } }

theorem witness_DeadTimeCompleteClosesOntoADeadBus :
    (deadShip.berth .o1).sy.deadFrom.isSome = true ∧ (deadShip.berth .o1).sc.state = .energising
      ∧ (deadShip.berth .o1).declaresDeadBus = true
      ∧ (deadShip.berth .o1).sc.target ≤ deadShip.capacity .o1
      ∧ (deadShip.berth .o1).mu.shore.live = true
      ∧ (deadShip.berth .o1).lines.breakerClosed = false
      ∧ (deadShip.berth .o1).sy.openDrive = false ∧ (deadShip.berth .o1).sy.close = .watching
      ∧ (deadShip.berth .o1).levelCause = none
      ∧ ((stopping deadShip).berth .o1).levelCause = some .shipStop
      ∧ deadShip.passDue = false :=
  ⟨rfl, rfl, rfl, by decide, rfl, rfl, rfl, rfl, by decide, by decide, rfl⟩

/-- The dead ship's outlet with S1 dead: the dead time runs, and the close may not be issued (R74). -/
def deadShore : State := deadShip.onMu .o1 fun m => { m with shore := { m.shore with live := false } }

theorem witness_DeadTimeCompleteClosesOntoADeadBus_records :
    (deadShip.berth .o1).sc.state = .energising
      ∧ deadShip.BringsRecord (.ship .o1) (volts 1099) (.voltageOnlyCadence (.ship .o1) (volts 1099))
      ∧ (deadShip.berth .o1).declaresDeadBus = true ∧ (deadShip.berth .o1).sy.deadComplete = false
      ∧ (measuringIn .synchronising).BringsRecord (.ship .o1) (volts 1099)
        (.zeroCrossing (.ship .o1) (volts 1099) noPower)
      ∧ (measuringIn .energising).BringsRecord (.ship .o1) (volts 1099)
        (.cycleLapse (.ship .o1) (volts 1099))
      ∧ ((measuringIn .energising).berth .o1).declaresDeadBus = false
      ∧ ((measuringIn .energising).berth .o1).sy.deadFrom = none :=
  ⟨rfl, .inl ⟨rfl, rfl⟩, rfl, rfl,
    .inr (.inr ⟨noPower, stampAt 983334, rfl, rfl, by decide, by decide⟩),
    .inr (.inl ⟨rfl, by decide⟩), rfl, rfl⟩

/-- R73: a tenth of 11,000 V discards the dead time; below it the time starts, or runs on. -/
theorem test_dead_time_at_a_record :
    shows (.voltageOnlyCadence (.ship .o1) (volts 1100)) deadShip (fun t =>
        (t.berth .o1).sy.deadFrom == none) = true
      ∧ shows (.voltageOnlyCadence (.ship .o1) (volts 1099)) deadShip (fun t =>
        (t.berth .o1).sy.deadFrom == some 0) = true
      ∧ shows (.voltageOnlyCadence (.ship .o1) (volts 1099))
        (deadShip.onSy .o1 fun y => { y with deadFrom := none }) (fun t =>
          (t.berth .o1).sy.deadFrom == some 1000000) = true := by decide +kernel

theorem witness_DeadTimeCompleteClosesOntoADeadBus_kept :
    (deadShore.berth .o1).sy.deadFrom.isSome = true ∧ deadShore.passDue = false
      ∧ (deadShore.berth .o1).sc.state = .energising
      ∧ ¬ (((deadShore.berth .o1).sc.state = .energising
            ∨ (deadShore.berth .o1).sc.state = .synchronising)
          ∧ (deadShore.berth .o1).declaresDeadBus = true
          ∧ (deadShore.berth .o1).sc.target ≤ deadShore.capacity .o1
          ∧ (deadShore.berth .o1).mu.shore.live = true
          ∧ (deadShore.berth .o1).lines.breakerClosed = false
          ∧ (deadShore.berth .o1).sy.openDrive = false
          ∧ (deadShore.berth .o1).sy.close = .watching) := by decide +kernel

/-- A dead ship's outlet whose dead time has run, SY driving its breaker open. -/
def driven : State :=
  contacted (deadShip.onSy .o1 fun y => { y with
    deadFrom := none, deadComplete := true, openDrive := true })

theorem witness_FeedbackOpenIsTaken_ready :
    (driven.berth .o1).lines.breakerClosed = true ∧ (driven.berth .o1).sc.state = .energising
      ∧ (driven.berth .o1).declaresDeadBus = true ∧ (driven.berth .o1).sy.deadComplete = true
      ∧ (driven.berth .o1).sc.target ≤ driven.capacity .o1
      ∧ (driven.berth .o1).mu.shore.live = true ∧ (driven.berth .o1).sy.close = .watching
      ∧ (driven.berth .o1).levelCause = none
      ∧ ((stopping driven).berth .o1).levelCause = some .shipStop
      ∧ ((contacted (inState .synchronising)).berth .o1).sc.state = .synchronising
      ∧ ((contacted (inState .synchronising)).berth .o1).declaresDeadBus = false
      ∧ (contacted (inState .synchronising)).passDue = false := by decide +kernel

theorem test_opening_of_the_driven_breaker_closes_onto_the_dead_bus :
    shows (.breakerFeedbackOpen .o1) driven (fun t => (t.berth .o1).sc.state == .closing
      && (t.berth .o1).sy.closeOutput && !(t.berth .o1).sy.openDrive) = true := by decide +kernel

theorem test_dead_bus_close :
    shows (.deadTimeComplete .o1) deadShip (fun t => (t.berth .o1).sc.state == .closing
      && (t.berth .o1).sy.closeOutput) = true
      ∧ shows (.deadTimeComplete .o1) deadShore (fun t => (t.berth .o1).sc.state == .energising
        && (t.berth .o1).sy.deadComplete && !(t.berth .o1).sy.closeOutput) = true := by
  decide +kernel

theorem witness_PilotLoopChanges :
    (State.reset.berth .o1).lines.pilotClosed = false
      ∧ (State.reset.berth .o1).sc.state = .dormant
      ∧ (((before .tripped).onLines .o1 fun l => { l with pilotClosed := false }).berth
          .o1).lines.pilotClosed = false
      ∧ ((before .tripped).berth .o1).sc.state ≠ .dormant
      ∧ ((before .cableProven).berth .o1).lines.pilotClosed = true
      ∧ ((before .cableProven).berth .o1).sc.state = .cableProven
      ∧ ((inState .energising).berth .o1).sc.state = .energising
      ∧ (inState .energising).keptOpen .o1
      ∧ ((inState .shoreSupply).berth .o1).sc.state.breakerClosed = true
      ∧ ((inState .tripped).berth .o1).sc.state = .tripped
      ∧ ((inState .tripped).berth .o1).sc.session.isSome = true ∧ (inState .tripped).keptOpen .o1
      ∧ ((contacted (inState .tripped)).berth .o1).lines.breakerClosed = true
      ∧ ((contacted (inState .tripped)).berth .o1).pr.laterCauses.contains .pilotOpen = false
      ∧ (bare .windDown).passDue = false ∧ ((bare .windDown).berth .o1).sc.state = .windDown :=
  ⟨rfl, rfl, rfl, by decide, rfl, rfl, rfl, keptOpen_of_module _ rfl (by decide), rfl, rfl, rfl,
    keptOpen_of_module _ rfl (by decide), rfl, by decide, rfl, rfl⟩

theorem witness_PilotLoopChanges_tripped :
    ((before .tripped).berth .o1).lines.pilotClosed = true ∧ (before .tripped).passDue = false
      ∧ ((before .tripped).berth .o1).sc.state = .tripped
      ∧ ((before .tripped).berth .o1).sc.session = none
      ∧ ((before .tripped).berth .o1).lines.breakerClosed = false
      ∧ ((contacted (before .tripped)).berth .o1).lines.breakerClosed = true
      ∧ ((contacted (before .tripped)).berth .o1).pr.laterCauses.contains .pilotOpen = false :=
  ⟨rfl, rfl, rfl, rfl, rfl, rfl, by decide⟩

/-- R108: PILOT_OPEN is a later cause of a tripped outlet whose breaker shows closed. -/
theorem test_pilot_open_in_tripped :
    shows (.pilotLoopOpen .o1) (contacted (before .tripped)) (fun t =>
      (t.berth .o1).sc.state == .tripped && (t.berth .o1).pr.laterCauses == [.pilotOpen]) = true := by
  decide +kernel

theorem test_cable_proven_wakes_the_link :
    shows (.pilotLoopClosed .o1) State.reset (fun t => (t.berth .o1).sc.state == .cableProven
      && (t.berth .o1).sl.wakeLength == 3000000) = true := by decide +kernel

theorem test_pilot_open_trips :
    shows (.pilotLoopOpen .o1) (inState .shoreSupply) (fun t =>
      (t.berth .o1).sc.firstCause == some .pilotOpen && t.fe.flags == 0x10000001) = true := by
  decide +kernel

/-- A state with the energise and sync times of O1 running. -/
def timed (s : State) : State :=
  s.onSc .o1 fun r => { r with energiseFrom := some 0, syncFrom := some 0 }

theorem witness_EnergisingAndSynchronisingEnd :
    ((timed (inState .energising)).berth .o1).sc.state = .energising
      ∧ ((timed (inState .energising)).berth .o1).sc.energiseFrom.isSome = true
      ∧ (timed (inState .energising)).keptOpen .o1
      ∧ ((timed (inState .synchronising)).berth .o1).sc.syncFrom.isSome = true
      ∧ ((timed (bare .energising)).berth .o1).lines.breakerClosed = false
      ∧ (timed (bare .energising)).assigned .o1 = 0
      ∧ ((timed (bare .energising)).berth .o1).sc.session = some session
      ∧ ((timed (bare .energising)).berth .o1).mt.isSome = true
      ∧ ((timed (inState .closing)).berth .o1).sc.state = .closing
      ∧ ((timed (inState .closing)).berth .o1).sc.syncFrom.isSome = true :=
  ⟨rfl, rfl, keptOpen_of_module _ rfl (by decide), rfl, rfl, by decide, rfl, rfl, rfl, rfl⟩

/-- O1 in ENERGISING with its shore side live, the ship's bus not yet. -/
def energised : State :=
  (inState .energising).onMu .o1 fun m => { m with shore := { m.shore with live := true } }

theorem witness_EnergisingAndSynchronisingEnd_record :
    (energised.berth .o1).sc.state = .energising ∧ (energised.berth .o1).declaresParallel = true
      ∧ (energised.berth .o1).sc.syncFrom = none ∧ (energised.berth .o1).sc.syncExpired = false
      ∧ (energised.point (.ship .o1)).cycle = none ∧ (energised.point (.shore .o1)).cycle = none
      ∧ (energised.berth .o1).sc.target ≤ energised.capacity .o1
      ∧ ((energised.setPoint (.shore .o1) { energised.point (.shore .o1) with
          cycle := some (stampAt 983334) }).point (.shore .o1)).cycle = some (stampAt 983334)
      ∧ 14286 ≤ elapsed energised.tb.run 983334 ∧ elapsed energised.tb.run 983334 ≤ 25000 := by
  decide +kernel

theorem test_live_ship_begins_synchronising :
    shows (.voltageOnlyCadence (.ship .o1) (volts 1100)) energised (fun t =>
        (t.berth .o1).sc.state == .synchronising) = true
      ∧ shows (.voltageOnlyCadence (.ship .o1) (volts 1099)) energised (fun t =>
        (t.berth .o1).sc.state == .energising) = true := by decide +kernel

theorem test_energise_timeout_without_modules_ends_the_session :
    shows (.energiseTimeExpiry .o1) (timed (bare .energising)) (fun t =>
      (t.berth .o1).sc.session == none && (t.berth .o1).sc.state == .cableProven) = true := by
  decide +kernel

/-- The times of a ramp run. -/
def ramped (s : State) : State :=
  s.onSc .o1 fun r => { r with capacityShortFrom := some 0, rampInFrom := some 0
                               rampOutFrom := some 0, unloadedFrom := some 0 }

theorem witness_RampsInAndOut :
    ((ramped (inState .parallelIn)).berth .o1).sc.state = .parallelIn
      ∧ ((ramped (inState .parallelIn)).berth .o1).rg.mode = .power
      ∧ ((ramped (inState .parallelIn)).berth .o1).sc.capacityShortFrom.isSome = true
      ∧ ((ramped (inState .parallelIn)).berth .o1).sc.rampInFrom.isSome = true
      ∧ (ramped (inState .parallelIn)).NoEntryCause .o1
      ∧ ((stopping (ramped (inState .parallelIn))).berth .o1).levelCause = some .shipStop
      ∧ ((ramped (inState .parallelOut)).berth .o1).sc.state = .parallelOut
      ∧ ((ramped (inState .parallelOut)).berth .o1).rg.mode = .power
      ∧ ((ramped (inState .parallelOut)).berth .o1).sc.unloadedFrom.isSome = true
      ∧ ((ramped (inState .parallelOut)).berth .o1).sc.rampOutFrom.isSome = true :=
  ⟨rfl, rfl, rfl, rfl, noEntryCause _ rfl rfl rfl, by decide, rfl, rfl, rfl, rfl⟩

/-- R93: 400 kW/s is 4 kW each 10 ms, up to the claim of 1,800 kW. -/
theorem test_ramp_in :
    shows (.rampInTick .o1) (inState .parallelIn) (fun t => (t.berth .o1).rg.pSet == 4) = true
      ∧ shows (.rampInTick .o1) ((inState .parallelIn).onRg .o1 fun g => { g with pSet := 1798 })
        (fun t => (t.berth .o1).rg.pSet == 1800) = true := by decide +kernel

theorem test_ramp_out_ends_at_0 :
    shows (.rampOutTick .o1) ((inState .parallelOut).onRg .o1 fun g => { g with pSet := 3 })
      (fun t => (t.berth .o1).rg.pSet == 0) = true := by decide +kernel

theorem test_ramp_out_timeout_opens :
    shows (.rampOutTimeout .o1) (ramped (inState .parallelOut)) (fun t =>
      (t.berth .o1).sc.state == .opening && t.fe.flags == 0x18000000) = true := by decide +kernel

/-! ### Protection -/

/-- The watches of O1's protection run, and its counts stand at 9. -/
def watched (s : State) : State :=
  s.onPr .o1 fun p => { p with voltageFrom := some 0, capacityFrom := some 0
                               reverseFrom := some 0, overload := 9 }

theorem witness_ProtectionTrips :
    ((watched (inState .shoreSupply)).berth .o1).pr.voltageFrom.isSome = true
      ∧ ((watched (inState .shoreSupply)).berth .o1).sc.state.breakerClosed = true
      ∧ ((watched (inState .shoreSupply)).berth .o1).pr.capacityFrom.isSome = true
      ∧ ((watched (inState .shoreSupply)).berth .o1).pr.reverseFrom.isSome = true
      ∧ ((watched (contacted (inState .tripped))).berth .o1).sc.state = .tripped
      ∧ ((watched (contacted (inState .tripped))).berth .o1).lines.breakerClosed = true
      ∧ ((watched (contacted (inState .tripped))).berth .o1).pr.laterCauses.contains .busVoltage
        = false
      ∧ ((inState .shoreSupply).berth .o1).mu.ship.cycle = none
      ∧ (((inState .shoreSupply).onPr .o1 fun p => { p with frequency := 9 }).berth .o1).pr.frequency
        = 9
      ∧ ((inState .shoreSupply).berth .o1).pr.frequency < 9
      ∧ ((watched measuring).berth .o1).mu.ship.cycle = some (stampAt 983334)
      ∧ ((watched measuring).berth .o1).pr.frequency < 9
      ∧ ((watched measuring).berth .o1).pr.overload = 9
      ∧ ((watched measuring).berth .o1).mp.voluntary = none
      ∧ ((watched measuring).berth .o1).pr.tripPct * ((watched measuring).capacity .o1 * 1000)
        < min 30000000 3900001 * 100 := by decide +kernel

theorem test_tenth_overload_trips :
    shows (.zeroCrossing (.ship .o1) (volts 11000) (powers 0 3900001)) (watched measuring)
        (fun t => (t.berth .o1).sc.firstCause == some .overload) = true
      ∧ shows (.zeroCrossing (.ship .o1) (volts 11000) (powers 0 3900000))
        (watched measuring) (fun t => (t.berth .o1).pr.overload == 0) = true := by decide +kernel

/-- O1 on shore supply with a cycle of P1 since a run count, after records of a frequency outside the
band. -/
def offFrequency (since : RunCount) (n : Nat) : State :=
  ((inState .shoreSupply).onMu .o1 fun m => { m with ship := { m.ship with
    live := true, cycle := some (stampAt since) } }).onPr .o1 fun p => { p with frequency := n }

theorem witness_ProtectionTrips_frequency :
    ((offFrequency 984128 9).berth .o1).sc.state.breakerClosed = true
      ∧ ((offFrequency 984128 9).berth .o1).mu.ship.cycle = some (stampAt 984128)
      ∧ 14286 ≤ elapsed (offFrequency 984128 9).tb.run 984128
      ∧ elapsed (offFrequency 984128 9).tb.run 984128 ≤ 25000
      ∧ ((offFrequency 984128 9).berth .o1).nominalFreq * 105
        < 1000000000 / elapsed (offFrequency 984128 9).tb.run 984128 * 100
      ∧ 1000000000 / elapsed (offFrequency 982456 9).tb.run 982456 * 100
        < ((offFrequency 982456 9).berth .o1).nominalFreq * 95
      ∧ ((offFrequency 984128 9).berth .o1).pr.frequency = 9
      ∧ ((offFrequency 984128 8).berth .o1).pr.frequency < 9
      ∧ ((offFrequency 984128 8).berth .o1).pr.overload < 9
      ∧ ((offFrequency 984128 8).berth .o1).mp.voluntary = none := by decide +kernel

/-- R111: 63,000 mHz is the edge of the band of 60 Hz; 15,873 µs give it, and 15,872 µs give 63,004. -/
theorem test_tenth_frequency_record_trips :
    shows (.zeroCrossing (.ship .o1) (volts 11000) noPower) (offFrequency 984128 9) (fun t =>
        (t.berth .o1).sc.firstCause == some .busFrequency) = true
      ∧ shows (.zeroCrossing (.ship .o1) (volts 11000) noPower) (offFrequency 984127 9) (fun t =>
        (t.berth .o1).pr.frequency == 0) = true := by decide +kernel

/-- Three equal line voltages, a sample of them clipped. -/
def clippedVolts (n : Nat) : LineVoltages := { volts n with clipped := true }

theorem witness_ProtectionTrips_voltage :
    ((inState .shoreSupply).berth .o1).sc.state.breakerClosed = true
      ∧ ((inState .shoreSupply).berth .o1).mu.ship.cycle = none
      ∧ ((inState .shoreSupply).berth .o1).pr.frequency < 9
      ∧ ((inState .shoreSupply).berth .o1).pr.overload < 9
      ∧ ((inState .shoreSupply).berth .o1).mp.voluntary = none
      ∧ ((inState .shoreSupply).berth .o1).nominalVolts = 11000
      ∧ ((offFrequency 984128 8).berth .o1).sc.state.breakerClosed = true
      ∧ ((offFrequency 984128 8).berth .o1).mu.ship.cycle = some (stampAt 984128) := by
  decide +kernel

/-- R112: 9900 and 12,100 V are inside the band of 11,000 V and discard the watch, 9899 and 12,101 V are
outside it; a record with a clipped sample is judged at 15,000 V, its mean in the band or not, and the
watch then runs on. -/
theorem test_voltage_watch_at_a_record :
    (∀ v, v = volts 9900 ∨ v = volts 12100 →
        shows (.voltageOnlyCadence (.ship .o1) v) ((inState .shoreSupply).onPr .o1 fun p =>
          { p with voltageFrom := some 7 }) (fun t => (t.berth .o1).pr.voltageFrom == none) = true)
      ∧ (∀ v, v = volts 9899 ∨ v = volts 12101 ∨ v = clippedVolts 11000 →
        shows (.voltageOnlyCadence (.ship .o1) v) (inState .shoreSupply) (fun t =>
          (t.berth .o1).pr.voltageFrom == some (inState .shoreSupply).tb.run) = true)
      ∧ shows (.zeroCrossing (.ship .o1) (clippedVolts 11000) noPower)
        ((offFrequency 984128 8).onPr .o1 fun p => { p with voltageFrom := some 7 })
        (fun t => (t.berth .o1).pr.voltageFrom == some 7) = true := by
  refine ⟨?_, ?_, by decide +kernel⟩
  · rintro v (rfl | rfl) <;> decide +kernel
  · rintro v (rfl | rfl | rfl) <;> decide +kernel

theorem witness_ProtectionTrips_records :
    (measuring.berth .o1).sc.state.breakerClosed = true
      ∧ measuring.MakesPower .o1 (.ship .o1) (volts 11000)
      ∧ measuringShore.MakesPower .o1 (.shore .o1) (volts 11000)
      ∧ (measuring.berth .o1).pr.frequency < 9 ∧ (measuring.berth .o1).pr.overload < 9
      ∧ (measuring.berth .o1).mp.voluntary = none ∧ 3000 = measuring.capacity .o1
      ∧ (measuring.berth .o1).sc.state = .shoreSupply :=
  ⟨rfl, makesPower_ship _ rfl rfl rfl, makesPower_shore, by decide, by decide, rfl, by decide, rfl⟩

/-- R110, R113 and R114 at 3,000 kVA: 3,900,000 VA, 3,000,000 VA and -300,000 W are not beyond. -/
theorem test_protection_watches_at_a_record :
    shows (.zeroCrossing (.ship .o1) (volts 11000) (powers (-300001) 3900001))
        (measuring.onPr .o1 fun p => { p with overload := 5 }) (fun t =>
          (t.berth .o1).pr.overload == 6 && (t.berth .o1).pr.capacityFrom == some 1000000
            && (t.berth .o1).pr.reverseFrom == some 1000000) = true
      ∧ shows (.zeroCrossing (.ship .o1) (volts 11000) (powers (-300000) 3000000))
        ((watched measuring).onPr .o1 fun p => { p with overload := 5 }) (fun t =>
          (t.berth .o1).pr.overload == 0 && (t.berth .o1).pr.capacityFrom == none
            && (t.berth .o1).pr.reverseFrom == none) = true := by decide +kernel

/-- A state in which a grid loss stands. -/
def lost (s : State) : State := { s with gridWatch := { since := some 0, standing := true } }

theorem witness_GridLossTripsTheClosedOutlets_standing :
    ((lost (ramped (inState .parallelIn))).berth .o1).levelCause = none
      ∧ ((lost (ramped (inState .parallelIn))).berth .o1).sc.capacityShortFrom.isSome = true
      ∧ ((lost (ramped (inState .parallelIn))).berth .o1).sc.rampInFrom.isSome = true
      ∧ ((lost (ramped (inState .parallelIn))).berth .o1).rg.mode = .power
      ∧ ((lost (closing 0)).berth .o1).levelCause = none
      ∧ ((lost (closing 0)).berth .o1).sc.state = .closing
      ∧ ((lost (closing 0)).berth .o1).sy.close = .inFlight
      ∧ ((lost (closing 0)).berth .o1).lines.breakerClosed = false
      ∧ ((lost (closing 0)).berth .o1).sy.record.isSome = true
      ∧ ((lost (inState .tripped)).berth .o1).sc.state = .tripped
      ∧ ((lost (inState .tripped)).berth .o1).lines.breakerClosed = false
      ∧ ((lost (inState .tripped)).berth .o1).sy.close ≠ .inFlight
      ∧ (lost (inState .tripped)).passDue = false
      ∧ ((contacted (inState .tripped)).berth .o1).trippedClosed = true := by decide +kernel

theorem test_grid_loss_trips_at_the_contact :
    shows (.breakerFeedbackClosed .o1) (lost (closing 0)) (fun t =>
      (t.berth .o1).sc.firstCause == some .gridLoss && t.fe.flags == 0x10000100) = true := by
  decide +kernel

theorem witness_GridLossTripsTheClosedOutlets :
    (bare .dormant).passDue = false ∧ (bare .dormant).grid.point.cycle = none
      ∧ State.reset.gridWatch.since.isSome = true ∧ State.reset.gridWatch.standing = false
      ∧ ((inState .shoreSupply).berth .o1).sc.state.breakerClosed = true
      ∧ ((inState .shoreSupply).berth .o2).sc.state.breakerClosed = false
      ∧ ((inState .shoreSupply).berth .o2).trippedClosed = false
      ∧ (inState .shoreSupply).waits .o2 = false := by decide

theorem test_grid_loss_trips :
    shows .gridWatchComplete { inState .shoreSupply with
        gridWatch := { since := some 0, standing := false } } (fun t =>
      (t.berth .o1).sc.firstCause == some .gridLoss && t.gridWatch.standing) = true := by
  decide +kernel

/-! ### The ship link -/

/-- O1's link in a state, at an activity and a step. -/
def linkIn (st : LinkState) (a : LineActivity) (p : LinkStep) : State :=
  (bare .energising).onSl .o1 fun l => { l with state := st, activity := a, step := p }

theorem witness_LeaderFramesAndCycles_frames :
    ((linkIn .waking .quiet .rest).berth .o1).sl.state = .waking
      ∧ ((linkIn .discovering (.sending (.rollCall true)) (.rollCall 1 false)).berth .o1).sl.activity
        = .sending (.rollCall true)
      ∧ ((linkIn .discovering (.sending (.enlisted 9 .refused)) (.rollCall 23 false)).berth
          .o1).sl.activity = .sending (.enlisted 9 .refused)
      ∧ ((linkIn .discovering (.sending (.enlisted 9 .refused)) (.rollCall 23 false)).berth
          .o1).sl.step = .rollCall 23 false
      ∧ ((linkIn .cycling (.sending (.slotGrant 5)) .shipSlot).berth .o1).sl.activity
        = .sending (.slotGrant 5) := by decide

theorem witness_LeaderFramesAndCycles_cycles :
    ((linkIn .cycling .quiet .rest).berth .o1).sl.state = .cycling
      ∧ ((linkIn .cycling .quiet .rest).berth .o1).sl.step = .rest
      ∧ ((linkIn .cycling .quiet .rest).berth .o1).sl.activity = .quiet
      ∧ ((linkIn .cycling .quiet .rest).berth .o1).sl.stations = [] ++ scp :: [pms]
      ∧ 0 < scp.address ∧ scp.state = .present
      ∧ (((linkIn .cycling .quiet .rest).onSl .o1 fun l => { l with stations := [] }).berth
          .o1).sl.stations = []
      ∧ ((linkIn .cycling (.slot 0) .shipSlot).berth .o1).sl.activity = .slot 0
      ∧ ((linkIn .cycling (.slot 0) .shipSlot).berth .o1).sl.isPms 5 = true
      ∧ ((linkIn .cycling (.window .attentionQuery 0) (.attention 1)).berth .o1).sl.activity
        = .window .attentionQuery 0
      ∧ ((linkIn .cycling (.window .attentionQuery 0) (.attention 1)).berth .o1).sl.step
        = .attention 1
      ∧ ((linkIn .cycling (.window .attentionQuery 0) (.attention 1)).berth .o1).sl.entryOf .pms
        = some pms := by decide

theorem test_cycle_polls_the_scp :
    shows (.linkCycle .o1 false) (linkIn .cycling .quiet .rest) (fun t =>
      match (t.berth .o1).sl.activity with
      | .sending (.poll 3 (some r)) => r.state == .energising
      | _ => false) = true := by decide +kernel

/-- R132: the check and the source end the slot, whatever the payload. -/
theorem test_slotEnd_with_a_payload_ends_the_slot :
    shows (.slotEnd .o1 false ⟨31, 5, [1]⟩) (linkIn .cycling (.slot 0) .shipSlot) (fun t =>
      (t.berth .o1).sl.activity == .quiet) = true := by decide +kernel

theorem test_slot_goes_to_the_pms :
    shows (.replyWindowClose .o1 false) (linkIn .cycling (.window .attentionQuery 0) (.attention 1))
      (fun t => (t.berth .o1).sl.activity == .sending (.slotGrant 5)) = true := by decide +kernel

/-- O1 on shore supply, the SCP polled, its entry with a number of misses. -/
def polled (misses : Nat) : State :=
  (inState .shoreSupply).onSl .o1 fun l => { l with
    activity := .window (.poll 3 none) 0, step := .polls 3
    stations := [{ scp with misses := misses }, pms] }

/-- O1 on shore supply, the PMS polled. -/
def polledPms : State :=
  (inState .shoreSupply).onSl .o1 fun l => { l with
    activity := .window (.poll 5 none) 0, step := .polls 5 }

theorem witness_RepliesOfPolledStations :
    (polled 1).expects .o1 3 ∧ ((polled 1).berth .o1).sl.entry 3 = some { scp with misses := 1 }
      ∧ (polled 2).expects .o1 3 ∧ ((polled 2).berth .o1).sl.entry 3 = some { scp with misses := 2 }
      ∧ ((polled 2).berth .o1).sc.state.breakerClosed = true
      ∧ polledPms.expects .o1 5 ∧ (polledPms.berth .o1).sl.entry 5 = some pms
      ∧ (polledPms.berth .o1).sl.isScp 5 = false
      ∧ readStatus [1] = some { stop := true, connect := false, cancel := false, ret := false
                                declaration := none }
      ∧ readStatus [0] = some { stop := false, connect := false, cancel := false, ret := false
                                declaration := none } :=
  ⟨⟨0, .inl ⟨none, rfl⟩⟩, rfl, ⟨0, .inl ⟨none, rfl⟩⟩, rfl, rfl, ⟨0, .inl ⟨none, rfl⟩⟩, rfl, rfl,
    by decide +kernel, by decide +kernel⟩

theorem test_third_miss_of_the_scp_trips :
    shows (.replyWindowClose .o1 false) (polled 2) (fun t =>
      (t.berth .o1).sc.firstCause == some .scpLost) = true := by decide +kernel

/-- O1 TRIPPED by OVERLOAD with its feedback closed, 9 records outside the frequency band, and its SCP
polled after 2 misses. -/
def trippedClosed : State :=
  (((contacted (inState .tripped)).onSc .o1 fun r => { r with firstCause := some .overload }).onPr .o1
    fun p => { p with frequency := 9 }).onSl .o1 fun _ => ((polled 2).berth .o1).sl

theorem witness_ProtectionTrips_later :
    (trippedClosed.berth .o1).sc.state = .tripped
      ∧ (trippedClosed.berth .o1).lines.breakerClosed = true
      ∧ (trippedClosed.berth .o1).pr.frequency = 9 ∧ (trippedClosed.berth .o1).mu.ship.cycle = none
      ∧ trippedClosed.expects .o1 3
      ∧ readStatus [1] = some { stop := true, connect := false, cancel := false, ret := false
                                declaration := none }
      ∧ (trippedClosed.berth .o1).sl.entry 3 = some { scp with misses := 2 }
      ∧ ((measuringIn .tripped).berth .o1).mu.ship.cycle = some (stampAt 983334) :=
  ⟨rfl, rfl, rfl, rfl, ⟨0, .inl ⟨none, rfl⟩⟩, by decide +kernel, rfl, rfl⟩

theorem test_later_causes_in_tripped :
    shows (.voltageOnlyCadence (.ship .o1) (volts 11000)) trippedClosed (fun t =>
        (t.berth .o1).sc.firstCause == some .overload && t.fe.flags == 0x10000010
          && (t.berth .o1).pr.laterCauses == [.busFrequency]) = true
      ∧ shows (.status .o1 false ⟨31, 3, [1]⟩) trippedClosed (fun t =>
        t.fe.flags == 0x10000002 && (t.berth .o1).pr.laterCauses == [.shipStop]) = true
      ∧ shows (.replyWindowClose .o1 false) trippedClosed (fun t =>
        t.fe.flags == 0x10000004 && (t.berth .o1).pr.laterCauses == [.scpLost]) = true := by
  decide +kernel

/-- The SCP polled, in a state. -/
def answering (s : State) : State :=
  s.onSl .o1 fun l => { l with activity := .window (.poll 3 none) 0, step := .polls 3 }

theorem witness_ScpStatusCancelsReturnsAndStops :
    (answering (inState .closing)).expects .o1 3
      ∧ ((answering (inState .closing)).berth .o1).sl.isScp 3 = true
      ∧ ((answering (inState .closing)).berth .o1).sc.state = .closing
      ∧ ((answering (inState .closing)).berth .o1).sc.flagsSeen = none
      ∧ (answering (inState .closing)).passDue = false
      ∧ readStatus [1] = some { stop := true, connect := false, cancel := false, ret := false
                                declaration := none }
      ∧ readStatus [4] = some { stop := false, connect := false, cancel := true, ret := false
                                declaration := none }
      ∧ readStatus [8] = some { stop := false, connect := false, cancel := false, ret := true
                                declaration := none }
      ∧ ((answering (before .awaitAuth)).berth .o1).sc.state = .awaitAuth
      ∧ (answering (inState .energising)).keptOpen .o1
      ∧ ((answering (bare .energising)).berth .o1).lines.breakerClosed = false
      ∧ (answering (bare .energising)).assigned .o1 = 0
      ∧ ((answering (bare .energising)).berth .o1).sc.session = some session
      ∧ ((answering (bare .energising)).berth .o1).mt.isSome = true
      ∧ ((answering (inState .parallelIn)).berth .o1).sc.state = .parallelIn
      ∧ (answering (inState .parallelIn)).NoEntryCause .o1
      ∧ ((answering (inState .shoreSupply)).berth .o1).sc.state = .shoreSupply
      ∧ ((answering (inState .shoreSupply)).berth .o1).anyClosed = false :=
  ⟨⟨0, .inl ⟨none, rfl⟩⟩, rfl, rfl, rfl, rfl, by decide +kernel, by decide +kernel,
    by decide +kernel, rfl, keptOpen_of_module _ rfl (by decide), rfl, by decide, rfl, rfl, rfl,
    noEntryCause _ rfl rfl rfl, rfl, by decide⟩

theorem test_flags_of_the_scp :
    shows (.status .o1 false ⟨31, 3, [8]⟩) (answering (inState .parallelIn)) (fun t =>
        (t.berth .o1).sc.state == .parallelOut) = true
      ∧ shows (.status .o1 false ⟨31, 3, [4]⟩) (answering (inState .closing)) (fun t =>
        (t.berth .o1).sc.state == .closing && (t.berth .o1).sc.endRequested) = true := by
  decide +kernel

theorem test_stop_flag_of_the_pms_trips :
    shows (.status .o1 false ⟨31, 5, [1]⟩) polledPms (fun t =>
      (t.berth .o1).sc.firstCause == some .shipStop) = true := by decide +kernel

/-- O1's leader waits for an answer to a ROLL_CALL. -/
def calling (collisions : Nat) : State :=
  (linkIn .discovering (.window (.rollCall false) 0) (.rollCall 23 false)).onSl .o1 fun l => { l with
    collisions := collisions, collisionAddress := some 7 }

theorem witness_EnlistingAndCollisions :
    ((calling 2).berth .o1).sl.activity = .window (.rollCall false) 0
      ∧ ((calling 2).berth .o1).sl.step = .rollCall 23 false ∧ (calling 2).passDue = false
      ∧ ((calling 2).berth .o1).sl.collisionAddress = some 7
      ∧ ((calling 2).berth .o1).sl.collisions = 2 ∧ ((calling 2).berth .o1).sl.entry 7 = none
      ∧ ((calling 2).berth .o1).sl.stations.length < 6
      ∧ ((calling 1).berth .o1).sl.collisions < 2 ∧ 23 < 24
      ∧ (calling 0).calls .o1
      ∧ readPresent [3, 0, 0, 0, 8] = some (.aux, 8) ∧ readPresent [1, 0, 0, 0, 8] = some (.scp, 8)
      ∧ ((calling 0).berth .o1).sl.entry 4 = none ∧ ((calling 0).berth .o1).sl.admits .aux = true
      ∧ ((calling 0).berth .o1).sl.admits .scp = false
      ∧ ((calling 0).berth .o1).sl.entry 3 = some scp ∧ scp.state ≠ .duplicate
      ∧ ¬ (scp.kind = some .aux ∧ scp.identity = some 8) :=
  ⟨rfl, rfl, rfl, rfl, rfl, rfl, by decide, by decide, by decide, ⟨0, .inl ⟨false, rfl⟩⟩,
    by decide +kernel, by decide +kernel, rfl, by decide, by decide, rfl, by decide, by decide⟩

theorem test_new_station_stands_between :
    shows (.present .o1 false ⟨31, 4, [3, 0, 0, 0, 8]⟩) (calling 0) (fun t =>
      (t.berth .o1).sl.stations.map Station.address == [3, 4, 5]) = true := by decide +kernel

theorem test_third_collision_is_a_duplicate :
    shows (.badFrame .o1 false 7) (calling 2) (fun t =>
      (t.berth .o1).sl.activity == .sending (.enlisted 7 .duplicate)) = true := by decide +kernel

/-- The same with other entries in the table, in a step. -/
def callingWith (step : LinkStep) (stations : List Station) : State :=
  (calling 2).onSl .o1 fun l => { l with
    stations := stations, step := step, collisionAddress := some 3 }

/-- A full table without an entry at address 3. -/
def sixStations : List Station := [8, 9, 10, 11, 12, 13].map fun a => { pms with address := a }

theorem witness_EnlistingAndCollisions_entries :
    (callingWith (.rollCall 2 false) [scp, pms]).calls .o1
      ∧ readPresent [1, 0, 0, 0, 7] = some (.scp, 7)
      ∧ ((callingWith (.attention 1) [scp, pms]).berth .o1).sl.entry 3 = some scp
      ∧ scp.state ≠ .duplicate ∧ scp.kind = some .scp ∧ scp.identity = some 7
      ∧ ((callingWith (.attention 1) [{ scp with state := .duplicate }]).berth .o1).sl.entry 3
        = some { scp with state := .duplicate }
      ∧ ((callingWith (.rollCall 2 false) sixStations).berth .o1).sl.entry 3 = none
      ∧ 6 ≤ ((callingWith (.rollCall 2 false) sixStations).berth .o1).sl.stations.length
      ∧ ((callingWith (.rollCall 2 false) [scp, pms]).berth .o1).sl.collisionAddress = some 3
      ∧ ((callingWith (.rollCall 2 false) [scp, pms]).berth .o1).sl.collisions = 2
      ∧ (callingWith (.rollCall 2 false) [scp, pms]).passDue = false
      ∧ ((linkIn .discovering (.sending (.enlisted 3 .refused)) (.rollCall 2 true)).berth
          .o1).sl.activity = .sending (.enlisted 3 .refused)
      ∧ ((linkIn .discovering (.sending (.enlisted 3 .refused)) (.rollCall 2 true)).berth
          .o1).sl.step = .rollCall 2 true :=
  ⟨⟨0, .inl ⟨false, rfl⟩⟩, by decide +kernel, rfl, by decide, rfl, rfl, rfl, rfl, by decide, rfl, rfl,
    rfl, rfl, rfl⟩

/-- Note d of R126, and R131. -/
theorem test_same_station_again :
    shows (.present .o1 false ⟨31, 3, [1, 0, 0, 0, 7]⟩) (callingWith (.rollCall 2 false) [scp, pms])
        (fun t => (t.berth .o1).sl.activity == .sending (.enlisted 3 .accepted)) = true
      ∧ shows (.present .o1 false ⟨31, 5, [2, 0, 0, 0, 9]⟩) (callingWith (.attention 1) [scp, pms])
        (fun t => (t.berth .o1).sl.activity == .sending (.poll 5 none)) = true := by decide +kernel

/-- Note c of R126: the refusal of a seventh station ends the discovery. -/
theorem test_full_table_ends_the_discovery :
    shows (.present .o1 false ⟨31, 3, [3, 0, 0, 0, 7]⟩)
        (callingWith (.rollCall 2 false) sixStations) (fun t =>
          (t.berth .o1).sl.activity == .sending (.enlisted 3 .refused)
            && (t.berth .o1).sl.step == .rollCall 2 true) = true
      ∧ shows (.leaderFrameSent .o1 false)
        (linkIn .discovering (.sending (.enlisted 3 .refused)) (.rollCall 2 true)) (fun t =>
          (t.berth .o1).sl.state == .cycling) = true := by decide +kernel

/-- R127: the third collision at the address of an entry, and of a DUPLICATE one. -/
theorem test_third_collision_at_an_entry :
    shows (.badFrame .o1 false 3) (callingWith (.rollCall 2 false) [scp, pms]) (fun t =>
        (t.berth .o1).sl.stations == [{ scp with state := .duplicate }, pms]
          && t.fe.flags == 0x10080000) = true
      ∧ shows (.badFrame .o1 false 3)
        (callingWith (.rollCall 2 false) [{ scp with state := .duplicate }, pms]) (fun t =>
          (t.berth .o1).sl.activity == .sending (.enlisted 3 .duplicate)
            && t.fe.flags == 0x10000000) = true := by decide +kernel

/-- The bytes of a STATUS with CONNECT set and a declaration. -/
def connectBytes (kva : Nat) (cables : Byte) : List Byte :=
  [0x12, 0x00, 0x12, 0xD6, 0x87, 60, 0x2A, 0xF8, 0x07, 0x08, BitVec.ofNat 8 (kva / 256),
   BitVec.ofNat 8 kva, 2, 0, cables]

/-- O1 in CABLE_PROVEN, its SCP polled, with M1 and M2 IDLE. -/
def connecting : State :=
  { (before .cableProven).onSl .o1 fun l => { l with
      activity := .window (.poll 3 none) 0, step := .polls 3 } with
    pool := { (before .cableProven).pool with modules :=
      { (before .cableProven).pool.modules with
        m1 := moduleIn .idle none, m2 := moduleIn .idle none } } }

/-- The status of `connectBytes`. -/
def connectStatus (d : Declaration) : ShipStatus :=
  { stop := false, connect := true, cancel := false, ret := false, declaration := some d }

theorem witness_ConnectRequests :
    connecting.expects .o1 3
      ∧ readStatus (connectBytes 2000 1) = some (connectStatus declared)
      ∧ (connecting.berth .o1).sl.isScp 3 = true
      ∧ (∀ e ∈ (connecting.berth .o1).sl.stations, e.state ≠ .duplicate)
      ∧ (connecting.berth .o1).sc.state = .cableProven
      ∧ (connecting.berth .o1).sc.flagsSeen = none ∧ connecting.noneWaits
      ∧ declared.inRange = true ∧ { declared with cables := 0 }.inRange = false
      ∧ ({ declared with volts := 6600 }.inRange = true ∧ 6600 ≠ (connecting.berth .o1).nominalVolts)
      ∧ ({ declared with kva := 2600 }.inRange = true
          ∧ 1 * (connecting.berth .o1).sc.settings.cableRating < 3120)
      ∧ ({ declared with kva := 6000, cables := 5 }.inRange = true
          ∧ sumOfLargest8 connecting.countedRatings < 7200
          ∧ 7200 ≤ 5 * (connecting.berth .o1).sc.settings.cableRating)
      ∧ 2400 ≤ sumOfLargest8 connecting.countedRatings
      ∧ (∀ p ∈ connecting.account.places, p = none) :=
  ⟨⟨0, .inl ⟨none, rfl⟩⟩, by decide +kernel, rfl, by decide, rfl, rfl,
    noneWaits_of _ ⟨rfl, rfl, rfl, rfl⟩, by decide, by decide, by decide, by decide, by decide,
    by decide, by decide⟩

/-- The SCP of `connecting` after a STATUS with RETURN set and CONNECT clear, and a station DUPLICATE. -/
def blocking : State :=
  (connecting.onSl .o1 fun l => { l with stations := l.stations ++ [.shared 20] }).onSc .o1 fun r =>
    { r with flagsSeen := some { connect := false, cancel := false, ret := true } }

theorem witness_ConnectRequests_blocked :
    blocking.expects .o1 3 ∧ readStatus (connectBytes 2000 1) = some (connectStatus declared)
      ∧ (blocking.berth .o1).sl.isScp 3 = true
      ∧ (∃ e ∈ (blocking.berth .o1).sl.stations, e.state = .duplicate)
      ∧ (blocking.berth .o1).sc.state = .cableProven ∧ blocking.passDue = false
      ∧ (∀ m, (blocking.berth .o1).sc.flagsSeen = some m → m.connect = false)
      ∧ (blocking.berth .o1).sc.lastDeclared ≠ some (some declared) :=
  ⟨⟨0, .inl ⟨none, rfl⟩⟩, by decide +kernel, by decide +kernel, by decide +kernel, rfl, rfl,
    by rintro m h; cases h; rfl, by decide +kernel⟩

/-- R80: the STATUS of a blocked CONNECT does not count: its clear RETURN is not seen. -/
theorem test_blocked_status_does_not_count :
    shows (.status .o1 false ⟨31, 3, connectBytes 2000 1⟩) blocking (fun t =>
      (t.berth .o1).sc.state == .cableProven && (t.berth .o1).sc.lastDeclared == none
        && (t.berth .o1).sc.flagsSeen
          == some { connect := false, cancel := false, ret := true }) = true := by decide +kernel

theorem test_connect_waits_for_authorisation :
    shows (.status .o1 false ⟨31, 3, connectBytes 2000 1⟩) connecting (fun t =>
      (t.berth .o1).sc.state == .awaitAuth && (t.berth .o1).sc.target == 2400
        && (t.berth .o1).sc.waiting == some .authorisation) = true := by decide +kernel

theorem test_connect_is_denied_beyond_the_cable :
    shows (.status .o1 false ⟨31, 3, connectBytes 2600 1⟩) connecting (fun t =>
      (t.berth .o1).sc.denial == some .cableLimit) = true := by decide +kernel

/-- A generator's entry. -/
def generator (n : Nat) (r : GenReading) : Generator :=
  { number := n, breaker := r, kw := 100, updated := 0, stale := false }

/-- O1 in a state, the PMS in its slot. -/
def slotted (st : OutletState) (gens : List Generator) : State :=
  (inState st).onSl .o1 fun l => { l with
    activity := .slot 0, step := .shipSlot, generators := gens }

theorem witness_GeneratorTable :
    ((slotted .parallelIn [generator 2 .closed]).berth .o1).sl.activity = .slot 0
      ∧ ((slotted .parallelIn [generator 2 .closed]).berth .o1).sl.isPms 5 = true
      ∧ readGenItems [1, 0, 0, 0, 2, 0, 0, 0]
        = some [⟨1, false, 0⟩, ⟨2, false, 0⟩]
      ∧ readGenItems [2, 1, 0, 5] = some [⟨2, true, 5⟩]
      ∧ ((slotted .parallelIn [generator 2 .closed]).berth .o1).sl.generators.Pairwise
          (fun g h => g.number < h.number)
      ∧ ((slotted .parallelIn [generator 2 .closed]).berth .o1).rampedIn = false
      ∧ (slotted .parallelIn [generator 2 .closed]).NoEntryCause .o1
      ∧ ((slotted .shoreSupply [generator 2 .opened]).berth .o1).anyClosed = false
      ∧ ((slotted .shoreSupply [generator 2 .opened]).berth .o1).rg.mode = .island
      ∧ (slotted .shoreSupply [generator 2 .opened]).NoEntryCause .o1
      ∧ (slotted .shoreSupply [generator 2 .opened]).passDue = false :=
  ⟨rfl, rfl, by decide +kernel, by decide +kernel, List.pairwise_singleton _ _, by decide,
    noEntryCause _ rfl rfl rfl, by decide, rfl, noEntryCause _ rfl rfl rfl, rfl⟩

theorem test_generators_open_ends_the_ramp_in :
    shows (.genStatus .o1 false ⟨31, 5, [1, 0, 0, 0, 2, 0, 0, 0]⟩)
      (slotted .parallelIn [generator 2 .closed]) (fun t =>
        (t.berth .o1).sc.state == .shoreSupply) = true := by decide +kernel

/-- Table 7-4: number, breaker state, kW, the time since the update time (here 0 ms), reading (R185). -/
theorem test_generator_entry_in_the_order_of_its_table :
    generatorsResults { slotted .shoreSupply [{ generator 2 .closed with kw := 500 }] with
      tb := { State.reset.tb with run := (generator 2 .closed).updated } } .o1
      = [1, 2, 1, 1, 0xF4, 0, 0, 0, 0, 1] := by decide +kernel

/-- Table 4-1: presence, close state, time remaining, tc of 120 ms, attempts, open drive, the close record's
34 bytes, then smin 20, smax 150, dVpct 5, adapt off and the timeout of 180 s (R72, R185). -/
theorem test_synchroniser_state_in_the_order_of_its_table :
    synchroniserState State.reset (State.reset.berth .o1).sy
      = [0, 0, 0, 0, 0, 0, 0, 120, 0, 0] ++ List.replicate 34 0 ++ [20, 0, 150, 5, 0, 0, 180] := by
  decide +kernel

/-- R171, R185: 115,200 bit/s is 0001C200 hex and 460,800 is 00070800 hex. -/
theorem test_link_speed_is_a_number :
    unsigned 4 State.reset.svl.bitRate = [0, 1, 0xC2, 0]
      ∧ unsigned 4 { State.reset.svl with highSpeed := true }.bitRate = [0, 7, 8, 0] := by
  decide +kernel

theorem test_generator_closed_begins_the_return :
    shows (.genStatus .o1 false ⟨31, 5, [2, 1, 0, 5]⟩) (slotted .shoreSupply [generator 2 .opened])
      (fun t => (t.berth .o1).sc.state == .parallelOut) = true := by decide +kernel

theorem witness_StuckLinkMissesAndLooks :
    ((linkIn .cycling .quiet .rest).berth .o1).sl.state = .cycling
      ∧ ((linkIn .stuck .quiet .rest).berth .o1).sl.state = .stuck
      ∧ (((linkIn .stuck .quiet .rest).berth .o1).sl.stations.map Station.address).Nodup
      ∧ ((linkIn .stuck .quiet .rest).berth .o1).sl.stuckInDiscovery = false
      ∧ (((linkIn .stuck .quiet .rest).onSl .o1 fun l => { l with stuckInDiscovery := true }).berth
          .o1).sl.stuckInDiscovery = true := by decide

theorem witness_StuckLinkMissesAndLooks_cut :
    ((linkIn .cycling (.slot 0) .shipSlot).berth .o1).sl.state = .cycling
      ∧ ((linkIn .cycling (.slot 0) .shipSlot).berth .o1).sl.activity = .slot 0
      ∧ (linkIn .cycling (.slot 0) .shipSlot).passDue = false
      ∧ (calling 1).calls .o1 ∧ ((calling 1).berth .o1).sl.state = .discovering
      ∧ ((calling 1).berth .o1).sl.collisionAddress = some 7
      ∧ ((calling 1).berth .o1).sl.collisions ≠ 2 ∧ ((calling 2).berth .o1).sl.collisions = 2
      ∧ ((calling 2).berth .o1).sl.entry 7 = none
      ∧ ((calling 2).berth .o1).sl.stations.length < 6
      ∧ (polled 1).expects .o1 3 ∧ ((polled 1).berth .o1).sl.state = .cycling
      ∧ ((polled 1).berth .o1).sl.entry 3 = some { scp with misses := 1 }
      ∧ ((polled 2).berth .o1).sl.entry 3 = some { scp with misses := 2 }
      ∧ ((polled 2).berth .o1).sc.state.breakerClosed = true :=
  ⟨rfl, rfl, rfl, ⟨0, .inl ⟨false, rfl⟩⟩, rfl, rfl, by decide, rfl, rfl, by decide,
    ⟨0, .inl ⟨none, rfl⟩⟩, rfl, rfl, rfl, rfl⟩

/-- R133: at run count 1,000,000, of a cycle from 730,000, the misses count from 930,000. -/
theorem test_line_dominant_cuts_the_reply :
    shows (.lineDominant ⟨.o1, .frame (some 3)⟩)
      ((polled 1).onSl .o1 fun l => { l with cycleFrom := 730000 }) (fun t =>
        (t.berth .o1).sl.state == .stuck && (t.berth .o1).sl.missFrom == 930000
          && (t.berth .o1).sl.stations.map Station.misses == [2, 0]) = true := by decide +kernel

theorem test_stuck_tick_misses_both :
    shows (.stuckMissTick .o1) (linkIn .stuck .quiet .rest) (fun t =>
      (t.berth .o1).sl.stations.map Station.misses == [1, 1]) = true := by decide +kernel

/-! ### The supervisory link and its requests -/

/-- SVL in RECEIVING, and a request in progress. -/
def receiving : State :=
  { State.reset with svl := { State.reset.svl with
      receive := .receiving, buffer := [0xA5], inProgress := some ⟨0x06, 1⟩ } }

theorem witness_RequestsAndReceiving :
    receiving.svl.receive = .receiving ∧ State.reset.svl.receive = .hunting
      ∧ ((1 : Byte).toNat < 2 ∨ 242 < (1 : Byte).toNat)
      ∧ ((243 : Byte).toNat < 2 ∨ 242 < (243 : Byte).toNat)
      ∧ (Instr.readTime 1 []).request = some (0x06, 1, [])
      ∧ State.reset.svl.inProgress = none ∧ receiving.svl.inProgress.isSome = true := by decide

theorem test_idle_gap_ended_by_a_sync_byte :
    shows (.idleGap 0xA5) receiving (fun t => t.svl.receive == .receiving && t.svl.discards == 1) = true
      ∧ shows (.idleGap 0) receiving (fun t => t.svl.receive == .hunting) = true := by
  decide +kernel

theorem test_request_in_progress_is_busy :
    shows (.readTime 9 []) receiving (fun t =>
      t.svl.transmit == [⟨0x86, 9, [7], false⟩]) = true := by decide +kernel

/-- What a request is answered. -/
def answers (i : Instr) (s : State) (payload : List Byte) : Bool :=
  shows i s fun t => t.svl.transmit.map Reply.payload == [payload]

theorem witness_RefusalsAndReads :
    (Instr.readOutlet 1 [5]).wellFormed = true
      ∧ (Instr.readOutlet 1 [5]).request = some (0x21, 1, [5])
      ∧ payloadLength 0x21 [5] = some 1 ∧ payloadLength 0x21 [] = some 1
      ∧ (0x21 : Byte) ∈ [(0x20 : Byte), 0x21, 0x25, 0x26, 0x27, 0x28, 0x30, 0x31, 0x40, 0x43]
      ∧ ((5 : Byte).toNat < 1 ∨ 4 < (5 : Byte).toNat)
      ∧ payloadLength 0x11 [13] = some 1 ∧ (0x11 : Byte) ∈ [(0x10 : Byte), 0x11, 0x12]
      ∧ ((13 : Byte).toNat < 1 ∨ 12 < (13 : Byte).toNat)
      ∧ State.reset.svl.inProgress = none ∧ (4 : Byte) = BitVec.ofNat 8 (Outlet.number .o4) := by
  decide

theorem test_range_and_length :
    answers (.readOutlet 1 [5]) State.reset [2] = true
      ∧ answers (.readOutlet 1 []) State.reset [6] = true
      ∧ answers (.withdrawModule 1 [0]) State.reset [2] = true := by decide +kernel

/-- R160: the last flag cleared clears fault-since-clear. -/
theorem test_clearing_the_last_flag :
    answers (.clearFaults 1 [0x10, 0, 0, 0]) State.reset [0, 0, 0, 0, 0, 0] = true := by
  decide +kernel

theorem test_trip_hold_alone_is_written :
    shows (.configureStation 1 [0x10, 0, 0, 0, 0, 0, 0, 0, 45, 0, 0, 0]) State.reset (fun t =>
      t.pool.tripHold == 45 && t.metering.length == 15) = true := by decide +kernel

theorem witness_ConfigureStationWritesTheSettings :
    (List.replicate 12 (0 : Byte)).length = 12
      ∧ (StationChange.read (List.replicate 12 0)).inRange [] = true
      ∧ State.reset.openSessions = 0 ∧ 0 < (bare .energising).openSessions
      ∧ (∃ p : List Byte, p.length = 12 ∧ (StationChange.read p).inRange [] = false)
      ∧ (∃ p : List Byte, p.length = 12 ∧ (StationChange.read p).inRange [] = true
          ∧ (StationChange.read p).needsNoSession (bare .energising) = true) :=
  ⟨rfl, by decide +kernel, rfl, by decide, ⟨[0xFF, 0xFF, 0, 0, 0, 0, 0, 0, 0, 0, 0, 0], rfl, by
    decide +kernel⟩, ⟨[0x40, 0, 0, 0, 0, 0, 0, 0, 0, 0, 60, 0], rfl, by decide +kernel, by
    decide +kernel⟩⟩

/-- O1 with a session, one second before the first boundary, with records in the billing queue. -/
def atBoundary (held : Nat) : State :=
  { bare .energising with
    tb := { (bare .energising).tb with seconds := 899 }
    metering := { State.reset.metering with
      bands := [{ minute := 420, band := 1 }, { minute := 1320, band := 2 }]
      sequence := 500
      queue := List.replicate held
        { sequence := 1, session := 1, outlet := .o1, plan := 0, hull := 1234567, start := .zero
          duration := 0, band := 0, quality := .irc, flags := meter.interval.flags
          reason := .flush, importWh := 0, exportWh := 0, gapSeconds := 0, part := none } } }

theorem witness_StationWrites :
    [(0 : Byte), 0, 1, 0].length = 4 ∧ State.reset.openSessions = 0
      ∧ field [0xEA, 0x60] 0 2 ≤ 60000 ∧ 60000 < field [0xEA, 0x61] 0 2
      ∧ State.reset.noneWaits ∧ State.reset.passDue = false
      ∧ [1, 0x01, 0xA4, 1].length = 1 + 3 * field [1, 0x01, 0xA4, 1] 0 1
      ∧ bandsInRange 15 1 (readBands 1 [1, 0x01, 0xA4, 1]) = true
      ∧ bandsInRange 15 1 (readBands 1 [1, 0x01, 0xA4, 8]) = false
      ∧ 0 < (bare .energising).openSessions :=
  ⟨rfl, rfl, by decide +kernel, by decide +kernel, noneWaits_of _ ⟨rfl, rfl, rfl, rfl⟩, rfl,
    by decide +kernel, by decide +kernel, by decide +kernel, by decide⟩

theorem test_set_time_steps_the_clock :
    shows (.setTime 1 [0, 0, 1, 0]) State.reset (fun t =>
      t.tb.seconds == 256 && !t.tb.timeUnset) = true := by decide +kernel

theorem witness_StationWrites_sessions :
    ((atBoundary 94).berth .o1).mt = some meter ∧ (atBoundary 94).openSessions = 1
      ∧ 1 ≤ (atBoundary 94).spare ∧ (atBoundary 95).spare < 1
      ∧ (atBoundary 94).svl.inProgress = none := by decide +kernel

theorem test_set_time_closes_the_open_interval :
    shows (.setTime 1 [0, 0, 1, 0]) (atBoundary 94) (fun t =>
        t.metering.queue.getLast?.any (fun r => r.reason == .timeSet)
          && (t.berth .o1).mt.any fun m => m.interval.start.seconds == 256) = true
      ∧ shows (.setTime 1 [0, 0, 1, 0]) (atBoundary 95) (fun t => t.metering.sequence == 500
        && (t.berth .o1).mt.any fun m => m.interval.flags.timeStepped) = true := by decide +kernel

theorem test_limit_below_the_claims_is_over_budget :
    shows (.setImportLimit 1 [0x07, 0x07]) (bare .energising) (fun t =>
      t.account.limit == 1799 && t.fe.flags == 0x10800000) = true := by decide +kernel

theorem witness_BoundariesAndBands :
    shows .oneSecondTick (atBoundary 95) (fun t => t.atBoundary) = true
      ∧ ((atBoundary 95).openSessions : Int) ≤ (atBoundary 94).spare
      ∧ (atBoundary 95).spare < 1
      ∧ [(⟨420, 1⟩ : BandEntry), ⟨1320, 2⟩].Pairwise (fun e f => e.minute < f.minute)
      ∧ (⟨420, 1⟩ : BandEntry) ∈ [(⟨420, 1⟩ : BandEntry), ⟨1320, 2⟩] := by decide +kernel

theorem test_boundary_record :
    shows .oneSecondTick (atBoundary 20) (fun t => t.metering.sequence == 501
        && t.metering.queue.length == 21) = true
      ∧ shows .oneSecondTick (atBoundary 95) (fun t => t.metering.sequence == 500
        && (t.berth .o1).mt.any fun m => m.interval.flags.extended) = true := by decide +kernel

/-- One second before a boundary with two open intervals, that of O2 the earlier, and one entry to spare. -/
def oneToSpare : State :=
  ((atBoundary 93).onBerth .o2 fun _ => berthIn .energising).onMt .o1 fun m =>
    { m with interval := { m.interval with start := stampAt 500000 } }

theorem witness_BoundariesAndBands_oneToSpare :
    shows .oneSecondTick oneToSpare (fun t => t.atBoundary) = true
      ∧ oneToSpare.openSessions = 2 ∧ oneToSpare.spare = 1
      ∧ (oneToSpare.berth .o2).mt = some meter := by decide +kernel

/-- R149: the interval of the earlier start takes the one entry. -/
theorem test_boundary_serves_the_earlier_start :
    shows .oneSecondTick oneToSpare (fun t =>
      t.metering.queue.length == 94
        && t.metering.queue.getLast?.any (fun r => r.outlet == .o2)
        && (t.berth .o1).mt.any fun m => m.interval.flags.extended) = true := by decide +kernel

/-- Section 12's band table: 420 with band 1, 1320 with band 2. -/
theorem test_band_in_force :
    bandAt [⟨420, 1⟩, ⟨1320, 2⟩] 420 = 1 ∧ bandAt [⟨420, 1⟩, ⟨1320, 2⟩] 1319 = 1
      ∧ bandAt [⟨420, 1⟩, ⟨1320, 2⟩] 1320 = 2 ∧ bandAt [⟨420, 1⟩, ⟨1320, 2⟩] 419 = 2 := by decide

theorem witness_ModuleRequests :
    (1 : Byte) = BitVec.ofNat 8 (ModuleNo.number .m1) ∧ State.reset.svl.inProgress = none
      ∧ (500 : Nat) = (0x01 : Byte).toNat * 256 + (0xF4 : Byte).toNat ∧ 500 % 10 = 0
      ∧ (4000 : Nat) = (0x0F : Byte).toNat * 256 + (0xA0 : Byte).toNat
      ∧ (499 : Nat) = (0x01 : Byte).toNat * 256 + (0xF3 : Byte).toNat
      ∧ (State.reset.module .m1).state = .offline
      ∧ ((station Berth.reset (moduleIn .idle none)).module .m1).state = .idle
      ∧ ((station Berth.reset (moduleIn .lockedOut none)).module .m1).state = .lockedOut
      ∧ ((inState .shoreSupply).module .m1).state = .running
      ∧ (∀ q, (State.reset.berth q).mp.entry = none) ∧ State.reset.noneWaits
      ∧ State.reset.passDue = false :=
  ⟨rfl, rfl, rfl, rfl, rfl, rfl, rfl, rfl, rfl, rfl, everyOutlet ⟨rfl, rfl, rfl, rfl⟩,
    noneWaits_of _ ⟨rfl, rfl, rfl, rfl⟩, rfl⟩

theorem test_declare_then_idle :
    shows (.declareModule 1 [1, 0x0B, 0xB8]) State.reset (fun t =>
      (t.module .m1).state == .idle && (t.module .m1).rating == some 3000) = true := by
  decide +kernel

theorem test_unlock_and_withdraw :
    shows (.unlockModule 1 [1]) (station Berth.reset (moduleIn .lockedOut none)) (fun t =>
        (t.module .m1).state == .idle) = true
      ∧ answers (.withdrawModule 1 [1]) (inState .shoreSupply) [3] = true := by decide +kernel

/-- A CONFIGURE_OUTLET of O1 that sets nothing, or asks for a setting that no bit names. -/
def outletPayload (mask : Byte) : List Byte := [1, mask, 0] ++ List.replicate 22 0

theorem witness_OutletSettingsAndTrim :
    (outletPayload 0).length = 25 ∧ outletField (outletPayload 0) = some .o1
      ∧ field (outletPayload 0) 1 2 < 16384
      ∧ (OutletChange.read (outletPayload 0)).inRange (State.reset.berth .o1).sy.settings = true
      ∧ (State.reset.berth .o1).sc.state = .dormant
      ∧ ((bare .energising).berth .o1).sc.state ≠ .dormant
      ∧ ((bare .energising).berth .o1).sc.state ≠ .cableProven
      ∧ ¬ field (outletPayload 0x40) 1 2 < 16384
      ∧ (-50 : Int) = max (-50) (min 50 (0xCD : Byte).toInt) := by decide +kernel

theorem test_island_trim_is_clamped :
    shows (.setIslandTrim 1 [1, 0x33]) (inState .shoreSupply) (fun t =>
      (t.berth .o1).rg.voltTarget == 11550
        && t.svl.transmit.map Reply.payload == [[1, 50]]) = true := by decide +kernel

/-- An AUTHORISE of the declared hull for O1, plan 3, no expiry. -/
def authoriseBytes : List Byte := [1, 0x00, 0x12, 0xD6, 0x87, 3, 0, 0, 0, 0, 0]

/-- The entry it carries. -/
def entry : AuthEntry := { hull := 1234567, outlet := .outlet .o1, plan := 3, expiry := none }

/-- The station with entries in the first places. -/
def authorised (places : List (Option AuthEntry)) : State :=
  { State.reset with account := { State.reset.account with places := places } }

theorem witness_AuthorisationTable :
    authOutletField authoriseBytes = some (.outlet .o1) ∧ authoriseBytes.length = 11
      ∧ authoriseInRange authoriseBytes = true ∧ field authoriseBytes 1 4 = 1234567
      ∧ entry = { hull := field authoriseBytes 1 4, outlet := .outlet .o1
                  plan := field authoriseBytes 5 1
                  expiry := if field authoriseBytes 6 1 = 1 then some (field authoriseBytes 7 4)
                            else none }
      ∧ 0 < State.reset.account.places.length ∧ State.reset.noneWaits
      ∧ State.reset.account.places[0]? = some none
      ∧ (authorised (List.replicate 8 (some { entry with hull := 1000000 }))).account.places.any
          (fun x => x.any fun e => e.hull == 1234567 && e.outlet == .outlet .o1) = false
      ∧ none ∉ (authorised (List.replicate 8 (some entry))).account.places
      ∧ (authorised [none, some entry]).account.places[1]?.any
          (fun x => x.any fun e => e.hull == 1234567 && e.outlet == .outlet .o1) = true
      ∧ [1, 0x00, 0x12, 0xD6, (0x87 : Byte)].length = 5 :=
  ⟨by decide +kernel, rfl, by decide +kernel, by decide +kernel, by decide +kernel, by decide,
    noneWaits_of _ ⟨rfl, rfl, rfl, rfl⟩, rfl, by decide, by decide, by decide, rfl⟩

theorem test_authorise_replaces_its_own_entry :
    shows (.authorise 1 authoriseBytes) (authorised [none, some { entry with plan := 1 }]) (fun t =>
      t.account.places == [none, some entry]
        && t.svl.transmit.map Reply.payload == [[0, 2]]) = true := by decide +kernel

/-- O1 in AWAIT_AUTH, an import limit of 2,000 kW, and M1 IDLE. -/
def awaiting : State :=
  { (station (berthBefore .awaitAuth) (moduleIn .idle none)).onSc .o1 fun r => { r with
      declaration := some declared, target := 2400 } with
    account := { State.reset.account with limit := 2000 } }

theorem witness_AuthorisationOpensTheSession :
    (awaiting.berth .o1).sc.state = .awaitAuth ∧ (awaiting.berth .o1).sc.declaration = some declared
      ∧ declared.hull = field authoriseBytes 1 4 ∧ (∀ q, q ≠ .o1 → awaiting.waits q = false)
      ∧ (∀ x ∈ awaiting.account.places, x = none) ∧ none ∈ awaiting.account.places
      ∧ (awaiting.berth .o1).sc.target ≤ sumOfLargest8 awaiting.countedRatings
      ∧ (declared.kw : Int) ≤ (awaiting.account.limit : Int) - awaiting.claims
      ∧ 1 ≤ awaiting.spare :=
  ⟨rfl, rfl, by decide +kernel, everyOutlet ⟨fun h => absurd rfl h, fun _ => rfl, fun _ => rfl,
    fun _ => rfl⟩, by decide, by decide, by decide +kernel, by decide +kernel, by decide +kernel⟩

theorem test_authorise_opens_the_session :
    shows (.authorise 1 authoriseBytes) awaiting (fun t => (t.berth .o1).sc.state == .energising
      && (t.module .m1).state == .starting && t.account.places == State.reset.account.places) = true := by
  decide +kernel

/-- O1 in AWAIT_AUTH, its entry in the table, an import limit yet to be set, and records in the billing
queue. -/
def judged (target held : Nat) : State :=
  { (awaiting.onSc .o1 fun r => { r with target := target, waitingSince := some (stampAt 10) }) with
    account := { awaiting.account with places := some entry :: List.replicate 7 none, limit := 0 }
    metering := (atBoundary held).metering }

/-- O2 waits too, with its own entry. -/
def judgedTwo : State :=
  { (judged 2400 0).onSc .o2 fun _ => { (awaiting.berth .o1).sc with
      waitingSince := some (stampAt 20) } with
    account := { awaiting.account with
      places := some entry :: some { entry with outlet := .outlet .o2 } :: List.replicate 6 none
      limit := 0 } }

theorem witness_EvaluationPassesDecide :
    field [0x0B, 0xB8] 0 2 = 3000 ∧ (3000 : Nat) ≤ 60000
      ∧ (3000 : Nat) ≠ (judged 2400 0).account.limit
      ∧ (judged 2400 0).svl.inProgress = none ∧ (judged 2400 0).passDue = false
      ∧ ((judged 2400 0).berth .o1).sc.state = .awaitAuth
      ∧ ((judged 2400 0).berth .o1).sc.declaration = some declared
      ∧ (∀ q, q ≠ .o1 → (judged 2400 0).waits q = false)
      ∧ sumOfLargest8 (judged 3001 0).countedRatings < ((judged 3001 0).berth .o1).sc.target
      ∧ ((judged 3000 0).berth .o1).sc.target ≤ sumOfLargest8 (judged 3000 0).countedRatings
      ∧ (∀ x ∈ awaiting.account.places, x = none)
      ∧ some entry ∈ (judged 2400 0).account.places ∧ entry.hull = declared.hull
      ∧ (1799 : Int) - (judged 2400 0).claims < declared.kw
      ∧ (declared.kw : Int) ≤ 1800 - (judged 2400 0).claims
      ∧ (judged 2400 96).spare < 1 ∧ 1 ≤ (judged 2400 95).spare
      ∧ ((judged 2400 0).berth .o1).sc.session = none
      ∧ (judged 2400 0).account.places[0]? = some (some entry) :=
  ⟨by decide +kernel, by decide, by decide, rfl, by decide +kernel, rfl, rfl,
    everyOutlet ⟨fun h => absurd rfl h, fun _ => rfl, fun _ => rfl, fun _ => rfl⟩,
    by decide +kernel, by decide +kernel, by decide, by decide, rfl, by decide +kernel,
    by decide +kernel, by decide +kernel, by decide +kernel, rfl, rfl⟩

theorem witness_EvaluationPassesDecide_two :
    (judgedTwo.berth .o2).sc.state = .awaitAuth
      ∧ (judgedTwo.berth .o2).sc.declaration = some declared
      ∧ judgedTwo.waits .o3 = false ∧ judgedTwo.waits .o4 = false
      ∧ (judgedTwo.berth .o1).sc.waitingSince = some (stampAt 10)
      ∧ (judgedTwo.berth .o2).sc.waitingSince = some (stampAt 20)
      ∧ elapsed judgedTwo.tb.run 20 < elapsed judgedTwo.tb.run 10
      ∧ (judgedTwo.berth .o2).sc.target ≤ sumOfLargest8 judgedTwo.countedRatings
      ∧ some { entry with outlet := .outlet .o2 } ∈ judgedTwo.account.places
      ∧ judgedTwo.account.places[0]? = some (some entry)
      ∧ (3000 : Int) - judgedTwo.claims - declared.kw < declared.kw := by decide +kernel

theorem test_the_longer_wait_is_served_first :
    shows (.setImportLimit 1 [0x0B, 0xB8]) judgedTwo (fun t =>
      (t.berth .o1).sc.state == .energising && (t.berth .o2).sc.waiting == some .budget) = true := by
  decide +kernel

theorem test_waiting_for_a_billing_entry :
    shows (.setImportLimit 1 [0x0B, 0xB8]) (judged 2400 96) (fun t =>
      (t.berth .o1).sc.waiting == some .billingSpace) = true := by decide +kernel

/-- O1 TRIPPED with what a reset asks for. -/
def resettable : State := holding.onMu .o1 fun m => { m with shore := .reset 0 }

theorem witness_EndAndResetRequests :
    (1 : Byte) = BitVec.ofNat 8 (Outlet.number .o1)
      ∧ ((before .tripped).berth .o1).sc.session = none
      ∧ (awaiting.berth .o1).sc.state = .awaitAuth
      ∧ ((inState .energising).berth .o1).sc.state = .energising
      ∧ (inState .energising).keptOpen .o1 ∧ (inState .closing).passDue = false
      ∧ ((inState .closing).berth .o1).sc.state = .closing
      ∧ ((inState .parallelIn).berth .o1).sc.state = .parallelIn
      ∧ (inState .parallelIn).NoEntryCause .o1
      ∧ ((inState .shoreSupply).berth .o1).sc.state = .shoreSupply
      ∧ ((inState .shoreSupply).berth .o1).anyClosed = false
      ∧ ((inState .opening).berth .o1).sc.state = .opening
      ∧ (resettable.berth .o1).sc.state = .tripped
      ∧ (resettable.berth .o1).sc.session.isSome = true
      ∧ (resettable.berth .o1).lines.pilotClosed = true
      ∧ (resettable.berth .o1).sl.scpPresent = true ∧ (resettable.berth .o1).sl.stopShown = false
      ∧ resettable.grid.point.live = true ∧ (resettable.berth .o1).lines.breakerClosed = false
      ∧ (resettable.berth .o1).mu.shore.live = false :=
  ⟨rfl, rfl, rfl, rfl, keptOpen_of_module _ rfl (by decide), rfl, rfl, rfl,
    noEntryCause _ rfl rfl rfl, rfl, by decide, rfl, rfl, rfl, rfl, by decide, by decide, rfl, rfl,
    rfl⟩

/-- The same with Sn and Pn live. -/
def resettableLive : State := holding.onMu .o1 fun m =>
  { m with shore := { PointState.reset 0 with live := true }
           ship := { PointState.reset 0 with live := true } }

theorem witness_EndAndResetRequests_closesAndGoesOn :
    ((bare .energising).berth .o1).sc.state = .energising
      ∧ ((bare .energising).berth .o1).lines.breakerClosed = false
      ∧ (bare .energising).assigned .o1 = 0
      ∧ ((bare .energising).berth .o1).sc.session = some session
      ∧ ((bare .energising).berth .o1).mt.isSome = true
      ∧ resettableLive.mayReset .o1 = true
      ∧ (resettableLive.berth .o1).declaresParallel = true
      ∧ (resettableLive.berth .o1).sc.target ≤ resettableLive.capacity .o1
          + (if (resettableLive.berth .o1).mp.hold.isSome then
              resettableLive.pool.sum fun m => if m.inStateAt .held .o1 then m.effective else 0 else 0)
      ∧ (resettableLive.berth .o1).mu.shore.live = true
      ∧ (resettableLive.berth .o1).mu.ship.live = true := by decide +kernel

/-- Log entry 30: the reply names ENERGISING, and the outlet is in SYNCHRONISING. -/
theorem test_reset_with_live_buses_goes_on :
    shows (.resetOutlet 1 [1]) resettableLive (fun t => (t.berth .o1).sc.state == .synchronising)
        = true
      ∧ answers (.resetOutlet 1 [1]) resettableLive [0, 3] = true := by decide +kernel

/-- R98: with no module and the breaker open the session closes at once. -/
theorem test_end_session_closes_at_once :
    shows (.endSession 1 [1]) (bare .energising) (fun t =>
        (t.berth .o1).sc.state == .cableProven && (t.berth .o1).sc.session.isNone) = true
      ∧ answers (.endSession 1 [1]) (bare .energising) [0, 1] = true := by decide +kernel

theorem test_reset_rejoins_the_held_module :
    shows (.resetOutlet 1 [1]) resettable (fun t => (t.berth .o1).sc.state == .energising
      && (t.module .m1).state == .running) = true := by decide +kernel

theorem test_end_session_of_a_ramp_in :
    shows (.endSession 1 [1]) (inState .parallelIn) (fun t =>
        (t.berth .o1).sc.state == .parallelOut) = true
      ∧ answers (.endSession 1 [1]) State.reset [3] = true := by decide +kernel

/-- O1 in a state with an import limit. -/
def limited (limit : Nat) : State :=
  { inState .shoreSupply with account := { State.reset.account with limit := limit } }

theorem witness_SetCapChangesTheClaim :
    (0x07D0 : Nat) = (0x07 : Byte).toNat * 256 + (0xD0 : Byte).toNat
      ∧ (State.reset.berth .o1).sc.session = none
      ∧ ((limited 2000).berth .o1).sc.session = some session
      ∧ ((2000 : Nat) : Int) ≤ session.claim + max 0 (((limited 2000).account.limit : Int)
          - (limited 2000).claims)
      ∧ (session.claim : Int) + max 0 (((limited 1999).account.limit : Int)
          - (limited 1999).claims) < (2000 : Nat)
      ∧ (limited 2000).noneWaits ∧ (limited 2000).passDue = false
      ∧ ((limited 2000).berth .o1).sc.state ≠ .parallelIn :=
  ⟨rfl, rfl, rfl, by decide +kernel, by decide +kernel, noneWaits_of _ ⟨rfl, rfl, rfl, rfl⟩, rfl,
    by decide⟩

theorem test_cap_up_to_the_budget :
    shows (.setCap 1 [1, 0x07, 0xD0]) (limited 2000) (fun t =>
        (t.berth .o1).sc.session.any fun x => x.claim == 2000) = true
      ∧ answers (.setCap 1 [1, 0x07, 0xD0]) (limited 1999) [4] = true := by decide +kernel

theorem witness_FlushReleaseAndRounding :
    (State.reset.berth .o1).mt = none ∧ ((atBoundary 94).berth .o1).mt = some meter
      ∧ 1 ≤ (atBoundary 94).spare ∧ (atBoundary 95).spare < 1
      ∧ (atBoundary 94).metering.sequence - 1 < field [0, 0, 0x01, 0xF4] 0 4
      ∧ field [0, 0, 0x01, 0xF3] 0 4 ≤ (atBoundary 94).metering.sequence - 1
      ∧ (atBoundary 94).noneWaits ∧ (atBoundary 94).passDue = false :=
  ⟨rfl, rfl, by decide +kernel, by decide +kernel, by decide +kernel, by decide +kernel,
    noneWaits_of _ ⟨rfl, rfl, rfl, rfl⟩, rfl⟩

theorem test_flush_and_release :
    shows (.flushInterval 1 [1]) (atBoundary 94) (fun t => t.metering.queue.length == 95) = true
      ∧ shows (.releaseBilling 1 [0, 0, 0, 1]) (atBoundary 94) (fun t =>
        t.metering.queue == []) = true := by decide +kernel

theorem witness_FlushReleaseAndRounding_rounding :
    ({ Energy.zero with accumulator := 7 }).ResidualFits .round
      ∧ ({ Energy.zero with residual := 3599999999 }).ResidualFits .truncate
      ∧ ({ Energy.zero with residual := -1800000000 }).ResidualFits .round := by
  refine ⟨⟨?_, ?_⟩, ⟨?_, ?_⟩, ⟨?_, ?_⟩⟩ <;> decide

/-! ### Faults, events and invariants -/

theorem witness_FaultRequests :
    [(0 : Byte), 0, 0, 1].length = 4
      ∧ BitVec.ofNat 32 (field [0x1F, 0xFF, 0xFF, 0xFF] 0 4) &&& 0xE0000000 = 0
      ∧ BitVec.ofNat 32 (field [0x20, 0, 0, 0] 0 4) &&& 0xE0000000 ≠ 0
      ∧ [(0 : Byte), 0, 0, 0, 2].length = 5 ∧ State.reset.svl.inProgress = none := by
  decide +kernel

theorem test_mask_beyond_the_kinds_is_refused :
    answers (.clearFaults 1 [0x20, 0, 0, 0]) State.reset [2] = true := by decide +kernel

theorem witness_FaultsAndEvents :
    FaultKind.restart.code ≤ 11 ∧ 11 < FaultKind.closeFail.code
      ∧ State.reset.fe.enables &&& FaultKind.closeFail.bit ≠ 0
      ∧ ({ FaultUnit.reset with enables := 0 }).enables &&& FaultKind.closeFail.bit = 0
      ∧ State.reset.fe.queue.length < 32
      ∧ 32 ≤ (List.replicate 32 (State.reset.eventNow .ppsJump .station none)).length := by
  decide +kernel

theorem test_event_33_marks_the_newest :
    (({ FaultUnit.reset with
        queue := List.replicate 32 (State.reset.eventNow .ppsJump .station none) }).offer
      (State.reset.eventNow .billingLow .station none)).queue.getLast?.map
        (fun e : EventRecord => (e.kind, e.lost)) = some (.ppsJump, true) := by decide +kernel

/-- O1 in SYNCHRONISING with the settings of paragraph 4.7. -/
def synchronising : Berth :=
  { berthIn .synchronising with
    sc := { (berthIn .synchronising).sc with
      settings := { OutletRecord.reset.settings with nominalVolts := 6600 } } }

/-- Record C of paragraph 4.7. -/
def recordC : PairRecord :=
  { fS := 60080, vS := 6640, fP := 60000, vP := 6580, period := 16666, stamp := stampAt 1000
    theta := -36 }

theorem witness_SynchroniserSchedulesTheCoincidence :
    (80 : Nat) = recordC.fS - recordC.fP ∧ ((36 : Nat) : Int) = (3600 - recordC.theta) % 3600
      ∧ (125000 : Nat) = 36 * 2500000 / (9 * 80)
      ∧ synchronising.sc.state = .synchronising ∧ synchronising.declaresParallel = true
      ∧ synchronising.sc.target ≤ 2400 ∧ synchronising.sy.close = .watching
      ∧ synchronising.lines.breakerClosed = false ∧ synchronising.sy.openDrive = false
      ∧ synchronising.nominalFreq * 98 ≤ recordC.fP * 100
      ∧ recordC.fP * 100 ≤ synchronising.nominalFreq * 102
      ∧ synchronising.nominalVolts * 90 ≤ recordC.vP * 100
      ∧ recordC.vP * 100 ≤ synchronising.nominalVolts * 110
      ∧ recordC.fP + synchronising.sy.settings.smin ≤ recordC.fS
      ∧ recordC.fS ≤ recordC.fP + synchronising.sy.settings.smax
      ∧ ((recordC.vS : Int) - recordC.vP).natAbs
        ≤ synchronising.nominalVolts * synchronising.sy.settings.dVpct / 100
      ∧ synchronising.sy.tc * 1000 ≤ 125000
      ∧ 125000 - synchronising.sy.tc * 1000 < 1000000000 / recordC.fP
      ∧ ¬ synchronising.sc.target ≤ 2399 := by decide +kernel

theorem test_record_c_schedules :
    (synchronising.syPair 2400 recordC).sy.close
      = .scheduled { due := 6000, theta := -36, slip := 80, toGo := 36, delay := 5000 }
      ∧ (synchronising.syPair 2399 recordC).sy.close = .watching := by decide +kernel

theorem witness_IdleStepsAndInapplicableCommands_inapplicable :
    State.reset.tb.state ≠ .xo ∧ State.reset.tb.ppsFrom = none ∧ State.reset.pool.unit = none
      ∧ (tbIn fun t => { t with state := .xo }).tb.state ≠ .qualifying
      ∧ (State.reset.module .m1).state ≠ .stopping ∧ (State.reset.berth .o1).mp.hold = none
      ∧ (State.reset.berth .o1).sy.close ≠ .inFlight
      ∧ (State.reset.berth .o1).lines.breakerClosed = false
      ∧ ((inState .shoreSupply).berth .o1).lines.breakerClosed = true
      ∧ ((inState .shoreSupply).berth .o1).lines.pilotClosed = true
      ∧ (inState .shoreSupply).gridWatch.since = none
      ∧ (State.reset.berth .o1).sl.activity = .quiet ∧ State.reset.svl.receive = .hunting
      ∧ State.reset.svl.inProgress = none := by decide

theorem witness_BillingQueueStaysInOrder : BillingInv State.reset where
  ascending := .nil
  below := by decide
  room := by decide

/-- The blocks of an outlet with its session agree. -/
theorem berthInv_shoreSupply : BerthInv (berthIn .shoreSupply) where
  session := by decide
  noSession := by decide
  meter := rfl
  declared := by decide
  waitsDeclared := by decide
  scheduled := fun _ h => by cases h
  inFlight := by decide
  output := by decide
  mode := rfl
  pSetAbsent := by decide
  pSetBound := by decide
  drive := by decide

/-- The blocks of an outlet at supply-on agree. -/
theorem berthInv_reset : BerthInv Berth.reset where
  session := by decide
  noSession := by decide
  meter := rfl
  declared := by decide
  waitsDeclared := by decide
  scheduled := fun _ h => by cases h
  inFlight := by decide
  output := by decide
  mode := rfl
  pSetAbsent := by decide
  pSetBound := by decide
  drive := by decide

/-- O1 in SHORE_SUPPLY at the targets of its ship. -/
def supplying : State :=
  { (inState .shoreSupply).onRg .o1 fun g => { g with freqTarget := 60000 } with
    pending := [.rgUpdate .o1] }

theorem witness_OutletBlocksStayTogether :
    OutletsInv supplying
      ∧ (∀ o, (supplying.berth o).rg.mode ≠ .off → TargetsInBand (supplying.berth o))
      ∧ (supplying.berth .o1).rg.mode ≠ .off :=
  ⟨everyOutlet ⟨{ berthInv_shoreSupply with pSetAbsent := by decide, pSetBound := by decide },
      berthInv_reset, berthInv_reset, berthInv_reset⟩,
    everyOutlet ⟨fun _ => ⟨by decide, by decide, by decide, by decide⟩, fun h => absurd rfl h,
      fun h => absurd rfl h, fun h => absurd rfl h⟩, by decide⟩

theorem witness_EnergyIsConserved :
    EnergyInv (inState .shoreSupply) ∧ ((inState .shoreSupply).berth .o1).mt = some meter := by
  refine ⟨everyOutlet ⟨?_, ?_, ?_, ?_⟩, rfl⟩ <;> intro m h <;> cases h
  exact ⟨⟨rfl, by decide, by decide⟩, rfl, by decide, by decide⟩

theorem witness_BoundsAndFlagsStand :
    EventInv State.reset ∧ ClockInv State.reset ∧ State.reset.fe.flags ≠ 0 := by
  unfold EventInv ClockInv
  decide

theorem witness_BoundsAndFlagsStand_claims :
    shows (.setCap 1 [1, 0x07, 0xD0]) (limited 2000) (fun t =>
      decide ((limited 2000).claims < t.claims)) = true := by decide +kernel

theorem witness_SessionsCloseOpenAndBilled :
    ((contacted (bare .windDown)).berth .o1).sc.session.isSome = true
      ∧ ((contacted (bare .windDown)).berth .o1).mt = some meter
      ∧ shows (.breakerFeedbackOpen .o1) (contacted (bare .windDown)) (fun t =>
        (t.berth .o1).sc.session == none) = true := by decide +kernel

end Sys2Proof.Tests
end

