-- ==== Sys2Proof/Proofs/Synchro.lean ====
section
/-! PROOFS. The synchroniser at a pair record (R61 to R64): each of its judgements as the inequalities of its
rule, the schedule it works out, and from them the close that it schedules. -/

namespace Sys2Proof.Machine

/-! ### The judgements of a pair record -/

theorem Berth.evaluates_iff (b : Berth) (capacity : Nat) :
    b.evaluates capacity = true ↔
      b.sc.state = .synchronising ∧ b.declaresParallel = true ∧ b.sc.target ≤ capacity
      ∧ b.sy.close = .watching ∧ b.lines.breakerClosed = false ∧ b.sy.openDrive = false := by
  simp [Berth.evaluates, and_assoc]

theorem Berth.shipBusFit_iff (b : Berth) (r : PairRecord) :
    b.shipBusFit r = true ↔
      b.nominalFreq * 98 ≤ r.fP * 100 ∧ r.fP * 100 ≤ b.nominalFreq * 102
      ∧ b.nominalVolts * 90 ≤ r.vP * 100 ∧ r.vP * 100 ≤ b.nominalVolts * 110 := by
  simp [Berth.shipBusFit, and_assoc]

theorem SyncSettings.slipFit_iff (y : SyncSettings) (r : PairRecord) :
    y.slipFit r = true ↔ r.fP + 1 ≤ r.fS ∧ r.fP + y.smin ≤ r.fS ∧ r.fS ≤ r.fP + y.smax := by
  simp [SyncSettings.slipFit, and_assoc]

theorem Berth.voltageFit_iff (b : Berth) (r : PairRecord) :
    b.voltageFit r = true ↔
      ((r.vS : Int) - r.vP).natAbs ≤ b.nominalVolts * b.sy.settings.dVpct / 100 := by
  simp [Berth.voltageFit]

/-! ### The schedule -/

/-- The angle to go is the only one that the remainder of R63 allows. -/
theorem eq_angleToGo {theta : Int} {toGo : Nat} (h : (toGo : Int) = (3600 - theta) % 3600) :
    toGo = angleToGo theta := by
  simp [angleToGo, ← h]

/-- The window of R64: the command's time lies ahead, by less than one cycle of the ship's bus. -/
def InCloseWindow (tc t0 fP : Nat) : Prop := tc * 1000 ≤ t0 ∧ t0 - tc * 1000 < 1000000000 / fP

/-- The plan of a record with the given slip, angle to go and time to coincidence (R64). -/
def planOf (tc : Nat) (r : PairRecord) (slip toGo t0 : Nat) : Schedule :=
  { due := r.stamp.run + BitVec.ofNat 64 (t0 - tc * 1000), theta := r.theta
    slip := slip, toGo := toGo, delay := t0 - tc * 1000 }

section
variable {tc slip toGo t0 : Nat} {r : PairRecord}
  (hslip : slip = r.fS - r.fP) (htoGo : toGo = angleToGo r.theta)
  (ht0 : t0 = timeToCoincidence toGo slip)
include hslip htoGo ht0

theorem scheduleOf_inWindow (hw : InCloseWindow tc t0 r.fP) :
    scheduleOf tc r = some (planOf tc r slip toGo t0) := by
  subst hslip htoGo ht0
  exact if_pos hw

theorem scheduleOf_outsideWindow (hw : ¬ InCloseWindow tc t0 r.fP) : scheduleOf tc r = none := by
  subst hslip htoGo ht0
  exact if_neg hw

end

/-! ### A pair record taken -/

/-- A pair record passes R61 and R62. -/
def Berth.Passes (b : Berth) (capacity : Nat) (r : PairRecord) : Prop :=
  b.evaluates capacity = true ∧ b.shipBusFit r = true ∧ b.sy.settings.slipFit r = true
    ∧ b.voltageFit r = true

theorem Berth.syPair_scheduled {b : Berth} {capacity : Nat} {r : PairRecord} {plan : Schedule}
    (h : b.Passes capacity r) (hplan : scheduleOf b.sy.tc r = some plan) :
    b.syPair capacity r = { b with sy := { b.sy with close := .scheduled plan } } := by
  obtain ⟨hev, hbus, hslip, hvolts⟩ := h
  simp [Berth.syPair, hev, hbus, hslip, hvolts, hplan]

theorem Berth.syPair_unscheduled {b : Berth} {capacity : Nat} {r : PairRecord}
    (h : b.Passes capacity r → scheduleOf b.sy.tc r = none) : b.syPair capacity r = b := by
  unfold Berth.syPair
  split
  next hall =>
    have hpass : b.Passes capacity r := by simpa [Berth.Passes, and_assoc] using hall
    rw [h hpass]
  next => rfl

end Sys2Proof.Machine

namespace Sys2Proof.Proofs

open Machine

/-- Settles O54: the conditions are those of R61 and R62, by the `iff` of each judgement, and the window of
R64, in which alone a record has a schedule. -/
theorem synchroniserSchedulesTheCoincidence :
    Obligations.SynchroniserSchedulesTheCoincidence := by
  intro b capacity r slip toGo t0 hslip htoGo ht0 fits hfits
  have htoGo := eq_angleToGo htoGo
  have fits_iff : fits ↔ b.Passes capacity r ∧ InCloseWindow b.sy.tc t0 r.fP := by
    simp only [hfits, Berth.Passes, InCloseWindow, Berth.evaluates_iff, Berth.shipBusFit_iff,
      SyncSettings.slipFit_iff, Berth.voltageFit_iff, and_assoc]
  constructor
  · intro plan hplan hfit
    obtain ⟨hpass, hwindow⟩ := fits_iff.mp hfit
    subst hplan
    exact Berth.syPair_scheduled hpass (scheduleOf_inWindow hslip htoGo ht0 hwindow)
  · intro hnot
    refine Berth.syPair_unscheduled fun hpass => scheduleOf_outsideWindow hslip htoGo ht0 ?_
    exact fun hwindow => hnot (fits_iff.mpr ⟨hpass, hwindow⟩)

end Sys2Proof.Proofs
end

