-- ==== Sys2Proof/Proofs/FaultEvents.lean ====
section
/-! PROOFS. Faults raised and events offered (R159 to R165): which kinds are reported, what an offer makes of a
free and of a full queue, and what FE takes of a raised fault. -/

namespace Sys2Proof.Machine

/-! ### The reported kinds (R161) -/

theorem tripKinds_and_bit {k : FaultKind} : k.code ≤ 11 → tripKinds &&& k.bit = k.bit := by
  cases k <;> decide

theorem tripKinds_and_bit_of_other {k : FaultKind} : 11 < k.code → tripKinds &&& k.bit = 0 := by
  cases k <;> decide

theorem otherKinds_and_bit {k : FaultKind} : 11 < k.code → otherKinds &&& k.bit = k.bit := by
  cases k <;> decide

theorem FaultKind.bit_ne_zero (k : FaultKind) : k.bit ≠ 0 := by cases k <;> decide

theorem FaultUnit.reported_and (u : FaultUnit) (x : BitVec 32) :
    u.reported &&& x = (tripKinds &&& x) ||| (u.enables &&& (otherKinds &&& x)) := by
  ext i
  simp [FaultUnit.reported, Bool.and_or_distrib_right, Bool.and_assoc]

theorem FaultUnit.reports_of_trip (u : FaultUnit) {k : FaultKind} (h : k.code ≤ 11) :
    u.reports k = true := by
  have hne : u.reported &&& k.bit ≠ 0 := by
    rw [u.reported_and, tripKinds_and_bit h]
    exact fun hzero => k.bit_ne_zero (BitVec.or_eq_zero_iff.mp hzero).1
  simpa [FaultUnit.reports] using hne

theorem FaultUnit.reports_iff_of_other (u : FaultUnit) {k : FaultKind} (h : 11 < k.code) :
    u.reports k = true ↔ u.enables &&& k.bit ≠ 0 := by
  simp [FaultUnit.reports, u.reported_and, tripKinds_and_bit_of_other h, otherKinds_and_bit h]

theorem FaultUnit.reports_iff (u : FaultUnit) (k : FaultKind) :
    u.reports k = true ↔ k.code ≤ 11 ∨ u.enables &&& k.bit ≠ 0 := by
  by_cases h : k.code ≤ 11
  · simp [h, u.reports_of_trip h]
  · simp only [h, false_or, u.reports_iff_of_other (not_le.mp h)]

/-! ### An event offered (R164, R165) -/

theorem FaultUnit.offer_of_room {u : FaultUnit} (h : u.queue.length < 32) (e : EventRecord) :
    u.offer e = { u with queue := u.queue ++ [e] } := if_pos h

theorem FaultUnit.offer_of_full {u : FaultUnit} {before : List EventRecord} {last : EventRecord}
    (hq : u.queue = before ++ [last]) (h : 32 ≤ u.queue.length) (e : EventRecord) :
    u.offer e = { u with queue := before ++ [{ last with lost := true }] } := by
  unfold FaultUnit.offer
  rw [if_neg h.not_gt, hq, List.dropLast_concat, List.getLast?_concat]
  rfl

/-- What an offer makes of the queue depends on the queue alone. -/
theorem FaultUnit.offer_queue_congr {u v : FaultUnit} (h : u.queue = v.queue) (e : EventRecord) :
    (u.offer e).queue = (v.offer e).queue := by
  unfold FaultUnit.offer
  rw [h]
  split <;> rfl

/-! ### A fault taken (R159, R162, R163) -/

theorem State.raise_fe (s : State) (k : FaultKind) (src : Source) (d : Option Nat) :
    (s.raise k src d).fe = s.fe.take k (s.eventNow (.fault k) src d) := rfl

theorem FaultUnit.take_of_reports {u : FaultUnit} {k : FaultKind} (h : u.reports k = true)
    (e : EventRecord) :
    u.take k e = ({ u with
      flags := u.flags ||| k.bit, sinceClear := true
      capture := some { kind := k, source := e.source, seconds := e.seconds, millis := e.millis } }
        : FaultUnit).offer e := if_pos h

/-- A fault of a kind that is not reported changes nothing but its flag and fault-since-clear. -/
theorem FaultUnit.take_of_not_reports {u : FaultUnit} {k : FaultKind} (h : ¬ u.reports k = true)
    (e : EventRecord) :
    u.take k e = { u with flags := u.flags ||| k.bit, sinceClear := true } := if_neg h

end Sys2Proof.Machine

namespace Sys2Proof.Proofs

open Machine

/-- Settles O53: a raised fault is taken by whether its kind is reported, which is the statement's case
split on the class and the enable; an event offered, by whether the queue has room, a full queue having a
newest record. -/
theorem faultsAndEvents : Obligations.FaultsAndEvents := by
  constructor
  · rintro s k src d e rfl
    refine ⟨s.fe.take_flags k _, s.fe.take_sinceClear k _, fun hreported => ?_, fun hother hoff => ?_⟩
    · rw [State.raise_fe, FaultUnit.take_of_reports ((s.fe.reports_iff k).mpr hreported)]
      refine ⟨FaultUnit.offer_capture _ _, FaultUnit.offer_queue_congr ?_ _⟩
      rfl
    · have hnot : ¬ s.fe.reports k = true := fun h => (s.fe.reports_iff_of_other hother).mp h hoff
      rw [State.raise_fe, FaultUnit.take_of_not_reports hnot]
      exact ⟨rfl, rfl⟩
  · intro u e
    refine ⟨fun hroom => FaultUnit.offer_of_room hroom e, fun hfull => ?_⟩
    have hne : u.queue ≠ [] := List.ne_nil_of_length_pos (by omega)
    have hq := (List.dropLast_append_getLast hne).symm
    exact ⟨_, _, hq, FaultUnit.offer_of_full hq hfull e⟩

end Sys2Proof.Proofs
end

