-- ==== Sys2Proof/Proofs/Keeps.lean ====
section
/-! PROOFS. What every operation keeps, said once for all the invariants: an outlet's blocks agree
(`Berth.Sound`), a meter follows another's energy (`Meter.Follows`), and the relation `Keeps` between the
states before and after a sequence of operations. -/

namespace Sys2Proof.Machine

/-! ### An outlet whose blocks agree -/

/-- The blocks of an outlet agree, and the targets of RG lie within their bands outside OFF. -/
structure Berth.Sound (b : Berth) : Prop where
  inv : BerthInv b
  targets : b.rg.mode ≠ .off → TargetsInBand b

/-- Every outlet is sound. -/
def State.Sound (s : State) : Prop := ∀ o, (s.berth o).Sound

/-- What an outlet's blocks must hold for it to be sound after a change to a state: less than soundness,
as SY's close and MT's meter may be ahead of the state. -/
structure Berth.MayMove (b : Berth) (new : OutletState) : Prop where
  session : new.inSession = true → b.sc.session.isSome = true
  noSession : new.beforeSession = true → b.sc.session = none
  meter : b.mt.isSome = b.sc.session.isSome
  declared : b.sc.session.isSome = true → b.sc.declaration.isSome = true
  waitsDeclared : new = .awaitAuth → b.sc.declaration.isSome = true
  inFlight : b.sy.close = .inFlight → new = .closing ∨ new = .tripped
  output : b.sy.closeOutput = true → b.sy.close = .inFlight
  pSetAbsent : b.rg.mode ≠ .power → b.rg.pSet = 0
  pSetBound : b.rg.pSet ≤ 25000
  drive : b.pr.openDrive = true ∨ b.pr.postTripFrom.isSome = true →
    b.sc.state = .tripped ∨ new = .tripped ∨ (new = .windDown ∧ b.lines.breakerClosed = true)
  targets : b.rg.mode ≠ .off → TargetsInBand b
  leavesOff : new.mode = .track ∨ new.mode = .power → b.rg.mode ≠ .off

theorem intoBand_mem {band : Nat × Nat} (h : band.1 ≤ band.2) (x : Int) :
    band.1 ≤ intoBand band x ∧ intoBand band x ≤ band.2 := by
  unfold intoBand clampInt
  split
  · omega
  · split <;> omega

theorem freqBand_le (n : Nat) : (freqBand n).1 ≤ (freqBand n).2 := by
  simp only [freqBand]; omega

theorem voltBand_le (n : Nat) : (voltBand n).1 ≤ (voltBand n).2 := by
  simp only [voltBand]; omega

/-- R46: targets worked out afresh lie within their bands. -/
theorem Berth.withTargets_inBand (b : Berth) (f v : Int) : TargetsInBand (b.withTargets f v) :=
  ⟨(intoBand_mem (freqBand_le _) f).1, (intoBand_mem (freqBand_le _) f).2,
    (intoBand_mem (voltBand_le _) v).1, (intoBand_mem (voltBand_le _) v).2⟩

/-- Targets in band rest on RG's targets, the declaration and the nominal voltage alone. -/
theorem TargetsInBand.congr {b c : Berth} (h : TargetsInBand b)
    (freq : c.rg.freqTarget = b.rg.freqTarget) (volt : c.rg.voltTarget = b.rg.voltTarget)
    (declaration : c.sc.declaration = b.sc.declaration)
    (nominal : c.sc.settings.nominalVolts = b.sc.settings.nominalVolts) : TargetsInBand c := by
  have hf : c.nominalFreq = b.nominalFreq := by unfold Berth.nominalFreq; rw [declaration]
  have hv : c.nominalVolts = b.nominalVolts := nominal
  obtain ⟨h1, h2, h3, h4⟩ := h
  constructor <;> simpa only [hf, hv, freq, volt]

/-- The entry to a mode other than OFF leaves the targets in band, where TRACK and POWER find them so. -/
theorem Berth.entryTargets_inBand (b : Berth) {mode : RgMode} (hmode : mode ≠ .off)
    (h : mode = .track ∨ mode = .power → TargetsInBand b) :
    TargetsInBand (b.entryTargets mode) := by
  cases mode with
  | off => exact absurd rfl hmode
  | free => exact b.withTargets_inBand _ _
  | track =>
    simp only [Berth.entryTargets]
    split
    · split
      · exact h (.inl rfl)
      · exact b.withTargets_inBand _ _
    · exact h (.inl rfl)
  | power =>
    simp only [Berth.entryTargets]
    split
    · exact b.withTargets_inBand _ _
    · exact h (.inr rfl)
  | island => exact b.withTargets_inBand _ _

theorem Berth.enterMode_inBand (b : Berth) (now : RunCount) {mode : RgMode} (pSet : Nat)
    (hmode : mode ≠ .off) (held : b.rg.mode ≠ .off → TargetsInBand b)
    (leavesOff : mode = .track ∨ mode = .power → b.rg.mode ≠ .off) :
    TargetsInBand (b.enterMode now mode pSet) := by
  unfold Berth.enterMode
  split
  · rename_i h; exact held (h ▸ hmode)
  · refine Berth.entryTargets_inBand _ hmode fun h => ?_
    have hon := leavesOff h
    refine (held hon).congr ?_ ?_ rfl rfl <;> simp only [RefGen.fromOff, if_neg hon]

/-- After an entry P_set is 0 outside POWER and within its range. -/
theorem Berth.enterMode_pSet (b : Berth) (now : RunCount) (mode : RgMode) (pSet : Nat)
    (absent : b.rg.mode ≠ .power → b.rg.pSet = 0) (bound : b.rg.pSet ≤ 25000) :
    (mode ≠ .power → (b.enterMode now mode pSet).rg.pSet = 0)
      ∧ (b.enterMode now mode pSet).rg.pSet ≤ 25000 := by
  unfold Berth.enterMode
  split
  · rename_i h; subst h; exact ⟨absent, bound⟩
  · split
    · exact ⟨fun _ => rfl, Nat.zero_le _⟩
    · rw [Berth.entryTargets_pSet]
      by_cases h : mode = .power
      · subst h; exact ⟨fun h => absurd rfl h, by simp⟩
      · simp [h]

theorem Synchroniser.closeTakesState_close (y : Synchroniser) (new : OutletState) :
    (y.closeTakesState new).close
      = if y.close = .inFlight ∧ new ≠ .tripped then .inFlight else .watching := by
  unfold Synchroniser.closeTakesState
  split
  next h => simp [h]
  next h => simp [h]
  next h => by_cases hn : new = .tripped <;> simp [h, hn, Synchroniser.endClose]

theorem Synchroniser.closeTakesState_output (y : Synchroniser) (new : OutletState)
    (h : y.closeOutput = true → y.close = .inFlight) :
    (y.closeTakesState new).closeOutput = true → (y.closeTakesState new).close = .inFlight := by
  unfold Synchroniser.closeTakesState
  split
  next hc => simpa [hc] using h
  next hc => simp only [hc] at h; simpa using h
  next hc => split <;> simp [hc, Synchroniser.endClose]

@[simp] theorem Synchroniser.takeState_close (y : Synchroniser) (new : OutletState) (dead : Bool)
    (now : RunCount) : (y.takeState new dead now).close = (y.closeTakesState new).close := rfl

@[simp] theorem Synchroniser.takeState_closeOutput (y : Synchroniser) (new : OutletState) (dead : Bool)
    (now : RunCount) :
    (y.takeState new dead now).closeOutput = (y.closeTakesState new).closeOutput := rfl

/-- Table 5-3: only CABLE_PROVEN, AWAIT_AUTH and DORMANT come before a session, and RG is in OFF there. -/
theorem OutletState.mode_of_beforeSession {st : OutletState} (h : st.beforeSession = true) :
    st.mode = .off := by cases st <;> simp_all [OutletState.beforeSession, OutletState.mode]

/-- A change of state leaves an outlet sound. -/
theorem Berth.MayMove.takeState {b : Berth} {new : OutletState} (h : b.MayMove new) (pSet : Nat)
    (now : TimeStamp) (short : Bool) : (b.takeState new pSet now short).Sound := by
  have hlines := b.takeState_breaker new pSet now short
  obtain ⟨habsent, hbound⟩ := b.enterMode_pSet now.run new.mode pSet h.pSetAbsent h.pSetBound
  have hsession : (b.takeState new pSet now short).sc.session = b.sc.session := by
    rw [Berth.takeState_sc]; rfl
  have hstate : (b.takeState new pSet now short).sc.state = new := by rw [Berth.takeState_sc]; rfl
  have hdecl : (b.takeState new pSet now short).sc.declaration
      = if new == .dormant || new == .cableProven then none else b.sc.declaration := by
    rw [Berth.takeState_sc]; rfl
  constructor
  · constructor
    · rw [hstate, hsession]; exact h.session
    · rw [hstate, hsession]; exact h.noSession
    · rw [Berth.takeState_mt, hsession]; exact h.meter
    · rw [hsession, hdecl]
      intro hs
      split
      · rename_i hc
        have : new.beforeSession = true := by
          simp only [Bool.or_eq_true, beq_iff_eq] at hc; rcases hc with rfl | rfl <;> rfl
        rw [h.noSession this] at hs; cases hs
      · exact h.declared hs
    · rw [hstate, hdecl]
      rintro rfl
      exact h.waitsDeclared rfl
    · intro plan
      rw [Berth.takeState_sy, Synchroniser.takeState_close, Synchroniser.closeTakesState_close]
      split <;> exact nofun
    · rw [Berth.takeState_sy, Synchroniser.takeState_close, Synchroniser.closeTakesState_close, hstate]
      split
      · rename_i hc
        exact fun _ => (h.inFlight hc.1).resolve_right hc.2
      · exact nofun
    · rw [Berth.takeState_sy]
      exact Synchroniser.closeTakesState_output _ _ h.output
    · rw [Berth.takeState_rg, Berth.enterMode_mode, hstate]
    · rw [Berth.takeState_rg, Berth.enterMode_mode]; exact habsent
    · rw [Berth.takeState_rg]; exact hbound
    · rw [Berth.takeState_pr, hstate, hlines]
      intro hd
      by_cases ht : b.sc.state = .tripped
      · have hdrive : (new = .windDown ∧ b.lines.breakerClosed = true) := by
          by_contra hne
          rw [Protection.takeState, if_pos ht] at hd
          obtain ⟨hw, hc, _⟩ | ⟨_, h1, h2, _⟩ := Protection.leaveTripped_drive
            (b.pr.watchesTakeState b.sc.state new) new b.lines.breakerClosed
          · exact hne ⟨hw, hc⟩
          · rw [h1, h2] at hd; simp at hd
        exact .inr hdrive
      · obtain ⟨h1, h2, _⟩ := Protection.takeState_drive b.pr b.sc.state new b.lines.breakerClosed ht
        rw [h1, h2] at hd
        exact (h.drive hd).resolve_left ht
  · rw [Berth.takeState_rg, Berth.enterMode_mode]
    intro hmode
    have hband := b.enterMode_inBand now.run pSet hmode h.targets h.leavesOff
    rw [Berth.enterMode_rest] at hband
    refine hband.congr ?_ ?_ ?_ ?_
    · rw [Berth.takeState_rg]
    · rw [Berth.takeState_rg]
    · rw [hdecl, if_neg]
      intro hc
      refine hmode (OutletState.mode_of_beforeSession ?_)
      simp only [Bool.or_eq_true, beq_iff_eq] at hc; rcases hc with rfl | rfl <;> rfl
    · rw [Berth.takeState_sc]; rfl

/-- A sound outlet may change to a state that its session, its close in flight and PR's drive allow. -/
theorem Berth.Sound.mayMove {b : Berth} (h : b.Sound) {new : OutletState}
    (session : new.inSession = true → b.sc.session.isSome = true)
    (noSession : new.beforeSession = true → b.sc.session = none)
    (waitsDeclared : new = .awaitAuth → b.sc.declaration.isSome = true)
    (closing : b.sc.state = .closing → new = .closing ∨ new = .tripped ∨ b.sy.close ≠ .inFlight)
    (windDown : b.sc.state = .windDown →
      new = .windDown ∨ new = .tripped ∨ b.lines.breakerClosed = false)
    (leavesOff : new.mode = .track ∨ new.mode = .power → b.sc.state.mode ≠ .off) :
    b.MayMove new := by
  obtain ⟨hinv, htargets⟩ := h
  refine ⟨session, noSession, hinv.meter, hinv.declared, waitsDeclared, fun hc => ?_, hinv.output,
    hinv.pSetAbsent, hinv.pSetBound, fun hd => ?_, htargets, fun hm => hinv.mode ▸ leavesOff hm⟩
  · obtain h | h | h := closing (hinv.inFlight hc)
    · exact .inl h
    · exact .inr h
    · exact absurd hc h
  · refine (hinv.drive hd).imp_right fun ⟨hw, hclosed⟩ => ?_
    obtain h | h | h := windDown hw
    · exact .inr ⟨h, hclosed⟩
    · exact .inl h
    · rw [hclosed] at h; cases h

/-! ### Meters (R147) -/

/-- The energy of both directions is conserved, the residuals within the range of a rounding mode. -/
def Meter.Fits (mode : Rounding) (m : Meter) : Prop :=
  (m.imported.Conserved ∧ m.imported.ResidualFits mode)
    ∧ (m.exported.Conserved ∧ m.exported.ResidualFits mode)

/-- A meter follows another: of the same session, its energy conserved where the other's was. -/
structure Meter.Follows (m m' : Meter) : Prop where
  session : m'.session = m.session
  fits : ∀ mode, m.Fits mode → m'.Fits mode

theorem Meter.Follows.refl (m : Meter) : m.Follows m := ⟨rfl, fun _ h => h⟩

theorem Meter.Follows.trans {a b c : Meter} (h : a.Follows b) (g : b.Follows c) : a.Follows c :=
  ⟨g.session.trans h.session, fun mode x => g.fits mode (h.fits mode x)⟩

/-- A meter of the same session and the same energies follows. -/
theorem Meter.Follows.of_same {m m' : Meter} (session : m'.session = m.session)
    (imported : m'.imported = m.imported) (exported : m'.exported = m.exported) : m.Follows m' :=
  ⟨session, fun mode h => by unfold Meter.Fits; rwa [imported, exported]⟩

theorem Energy.Conserved.add {e : Energy} (h : e.Conserved) (n : Nat) : (e.add n).Conserved := by
  unfold Energy.Conserved at *
  simp only [Energy.add]
  push_cast
  omega

theorem Energy.ResidualFits.add {e : Energy} {mode : Rounding} (h : e.ResidualFits mode) (n : Nat) :
    (e.add n).ResidualFits mode := h

/-- The rounding step carries a residual within its mode's range, and bills the rest (R147). -/
theorem Energy.close_fits {e : Energy} {mode : Rounding} (h : e.ResidualFits mode) :
    (e.close mode).ResidualFits mode := by
  cases mode <;>
    simp only [Energy.ResidualFits, Energy.close, Energy.wattHours, microjoulesPerWh] at h ⊢ <;> omega

theorem Energy.Conserved.close {e : Energy} (h : e.Conserved) (mode : Rounding) :
    (e.close mode).Conserved := by
  unfold Energy.Conserved at *
  simp only [Energy.close]
  push_cast
  linarith

/-- R141: a power record adds to one direction's accumulator and total alike. -/
theorem Meter.takePower_follows (m : Meter) (r : PowerRecord) : m.Follows (m.takePower r) := by
  have hgap : (m.endGap r.stamp.run).session = m.session
      ∧ (m.endGap r.stamp.run).imported = m.imported
      ∧ (m.endGap r.stamp.run).exported = m.exported := by
    unfold Meter.endGap; split <;> exact ⟨rfl, rfl, rfl⟩
  obtain ⟨hs, hi, he⟩ := hgap
  refine ⟨hs, fun mode h => ?_⟩
  obtain ⟨⟨hic, hir⟩, hec, her⟩ := h
  simp only [Meter.Fits, Meter.takePower, hi, he]
  constructor
  · split
    · exact ⟨hic.add _, hir.add _⟩
    · exact ⟨hic, hir⟩
  · split
    · exact ⟨hec.add _, her.add _⟩
    · exact ⟨hec, her⟩

theorem Meter.endGap_follows (m : Meter) (now : RunCount) : m.Follows (m.endGap now) := by
  unfold Meter.endGap; split <;> exact .of_same rfl rfl rfl

theorem Meter.countTrip_follows (m : Meter) : m.Follows m.countTrip := .of_same rfl rfl rfl

theorem Meter.countClose_follows (m : Meter) : m.Follows m.countClose := .of_same rfl rfl rfl

/-! ### What an outlet keeps -/

/-- What an operation keeps of an outlet: soundness (where `P` holds), the session, a claim no greater, a
feedback not newly closed, and the meter's session and energy. -/
structure Berth.Keeps (P : Prop) (b c : Berth) : Prop where
  sound : P → b.Sound → c.Sound
  session : c.sc.session.isSome = b.sc.session.isSome
  claim : c.claim ≤ b.claim
  breaker : c.lines.breakerClosed = true → b.lines.breakerClosed = true
  meter : ∃ g : Meter → Meter, c.mt = b.mt.map g ∧ ∀ m : Meter, m.Follows (g m)

theorem Berth.Keeps.refl (P : Prop) (b : Berth) : b.Keeps P b :=
  ⟨fun _ h => h, rfl, le_rfl, fun h => h, id, by simp, fun m => .refl m⟩

theorem Berth.Keeps.trans {P : Prop} {a b c : Berth} (h : a.Keeps P b) (g : b.Keeps P c) :
    a.Keeps P c := by
  obtain ⟨f, hf, hfm⟩ := h.meter
  obtain ⟨k, hk, hkm⟩ := g.meter
  refine ⟨fun p x => g.sound p (h.sound p x), g.session.trans h.session, g.claim.trans h.claim,
    fun x => h.breaker (g.breaker x), k ∘ f, ?_, fun m => (hfm m).trans (hkm (f m))⟩
  rw [hk, hf, Option.map_map]

/-- An outlet whose session, lines and meter stand. -/
theorem Berth.Keeps.of_same {P : Prop} {b c : Berth} (sound : P → b.Sound → c.Sound)
    (session : c.sc.session = b.sc.session) (lines : c.lines = b.lines) (meter : c.mt = b.mt) :
    b.Keeps P c :=
  ⟨sound, by rw [session], by unfold Berth.claim; rw [session], by rw [lines]; exact id, id,
    by rw [meter]; simp, fun m => .refl m⟩

/-- SY's close state is that of the outlet's state (R65, R66). -/
structure Synchroniser.Fits (y : Synchroniser) (st : OutletState) : Prop where
  scheduled : ∀ plan, y.close = .scheduled plan → st = .synchronising
  inFlight : y.close = .inFlight → st = .closing
  output : y.closeOutput = true → y.close = .inFlight

/-- RG's mode and power setpoint are those of the outlet's state (R43, R55). -/
structure RefGen.Fits (g : RefGen) (st : OutletState) : Prop where
  mode : g.mode = st.mode
  pSetAbsent : g.mode ≠ .power → g.pSet = 0
  pSetBound : g.pSet ≤ 25000

/-- PR's drive and post-trip time stand where the outlet's state lets them (R106, R107). -/
def Protection.Fits (p : Protection) (st : OutletState) (closed : Bool) : Prop :=
  p.openDrive = true ∨ p.postTripFrom.isSome = true →
    st = .tripped ∨ (st = .windDown ∧ closed = true)

theorem Berth.Sound.sy {b : Berth} (h : b.Sound) : b.sy.Fits b.sc.state :=
  ⟨h.inv.scheduled, h.inv.inFlight, h.inv.output⟩

theorem Berth.Sound.rg {b : Berth} (h : b.Sound) : b.rg.Fits b.sc.state :=
  ⟨h.inv.mode, h.inv.pSetAbsent, h.inv.pSetBound⟩

theorem Berth.Sound.pr {b : Berth} (h : b.Sound) : b.pr.Fits b.sc.state b.lines.breakerClosed :=
  h.inv.drive

/-- The same outlet with a synchroniser that fits its state. -/
theorem Berth.Sound.withSy {b : Berth} (h : b.Sound) {y : Synchroniser} (hy : y.Fits b.sc.state) :
    ({ b with sy := y } : Berth).Sound :=
  ⟨{ h.inv with scheduled := hy.scheduled, inFlight := hy.inFlight, output := hy.output }, fun hm =>
    (h.targets hm).congr rfl rfl rfl rfl⟩

/-- The same outlet with a protection that fits its state. -/
theorem Berth.Sound.withPr {b : Berth} (h : b.Sound) {p : Protection}
    (hp : p.Fits b.sc.state b.lines.breakerClosed) : ({ b with pr := p } : Berth).Sound :=
  ⟨{ h.inv with drive := hp }, fun hm => (h.targets hm).congr rfl rfl rfl rfl⟩

/-- The same outlet with a reference generator that fits its state, its targets in band. -/
theorem Berth.Sound.withRg {b : Berth} (h : b.Sound) {g : RefGen} (hg : g.Fits b.sc.state)
    (ht : g.mode ≠ .off → TargetsInBand { b with rg := g }) : ({ b with rg := g } : Berth).Sound :=
  ⟨{ h.inv with mode := hg.mode, pSetAbsent := hg.pSetAbsent, pSetBound := hg.pSetBound }, ht⟩

/-- Soundness rests on these fields alone. -/
theorem Berth.Sound.congr {b c : Berth} (h : b.Sound) (state : c.sc.state = b.sc.state)
    (session : c.sc.session.isSome = b.sc.session.isSome)
    (declaration : c.sc.declaration = b.sc.declaration)
    (nominal : c.sc.settings.nominalVolts = b.sc.settings.nominalVolts)
    (breaker : c.lines.breakerClosed = b.lines.breakerClosed) (meter : c.mt.isSome = b.mt.isSome)
    (rg : c.rg = b.rg) (close : c.sy.close = b.sy.close)
    (output : c.sy.closeOutput = b.sy.closeOutput) (drive : c.pr.openDrive = b.pr.openDrive)
    (postTrip : c.pr.postTripFrom = b.pr.postTripFrom) : c.Sound := by
  have hsession : c.sc.session = none ↔ b.sc.session = none := by
    rw [← Option.not_isSome_iff_eq_none, session, Option.not_isSome_iff_eq_none]
  obtain ⟨h, ht⟩ := h
  refine ⟨⟨?_, ?_, ?_, ?_, ?_, ?_, ?_, ?_, ?_, ?_, ?_, ?_⟩, ?_⟩
  · rw [state, session]; exact h.session
  · rw [state, hsession]; exact h.noSession
  · rw [meter, session]; exact h.meter
  · rw [session, declaration]; exact h.declared
  · rw [state, declaration]; exact h.waitsDeclared
  · rw [close, state]; exact h.scheduled
  · rw [close, state]; exact h.inFlight
  · rw [output, close]; exact h.output
  · rw [rg, state]; exact h.mode
  · rw [rg]; exact h.pSetAbsent
  · rw [rg]; exact h.pSetBound
  · rw [drive, postTrip, state, breaker]; exact h.drive
  · rw [rg]; exact fun hm => (ht hm).congr (by rw [rg]) (by rw [rg]) declaration nominal

/-- An outlet that is the same but for its part of the pool. -/
theorem SameButPool.keeps {b c : Berth} (P : Prop) (h : SameButPool b c) : b.Keeps P c := by
  obtain ⟨hsc, hlines, _, hrg, hsy, hpr, _, hmt⟩ := h
  refine .of_same (fun _ hb => hb.congr ?_ ?_ ?_ ?_ ?_ ?_ hrg ?_ ?_ ?_ ?_) (by rw [hsc]) hlines hmt <;>
    simp only [hsc, hlines, hsy, hpr, hmt]

/-! ### The books: sessions, claims and the billing queue -/

theorem State.claims_eq (s : State) : s.claims = (s.berth .o1).claim + (s.berth .o2).claim
    + (s.berth .o3).claim + (s.berth .o4).claim := by
  simp [State.claims, Quad.toList, State.berth, Quad.get]

theorem State.openSessions_eq (s : State) : s.openSessions = (s.berth .o1).mt.isSome.toNat
    + (s.berth .o2).mt.isSome.toNat + (s.berth .o3).mt.isSome.toNat + (s.berth .o4).mt.isSome.toNat := by
  have h : ∀ o : Option Meter, o.isSome = true ∨ o.isSome = false := fun o => by cases o <;> simp
  simp only [State.openSessions, Quad.toList, State.berth, Quad.get, List.filter_cons, List.filter_nil]
  rcases h s.berths.o1.mt with h1 | h1 <;> rcases h s.berths.o2.mt with h2 | h2 <;>
    rcases h s.berths.o3.mt with h3 | h3 <;> rcases h s.berths.o4.mt with h4 | h4 <;>
    simp [h1, h2, h3, h4]

theorem State.claims_le_of_berths {s t : State} (h : ∀ o, (t.berth o).claim ≤ (s.berth o).claim) :
    t.claims ≤ s.claims := by
  rw [State.claims_eq, State.claims_eq]
  have h1 := h .o1; have h2 := h .o2; have h3 := h .o3; have h4 := h .o4
  omega

theorem State.openSessions_congr {s t : State}
    (h : ∀ o, (t.berth o).mt.isSome = (s.berth o).mt.isSome) : t.openSessions = s.openSessions := by
  simp only [State.openSessions_eq, h]

/-- The outlet serves a session whose meter is that of session `n`. -/
def State.Serves (s : State) (o : Outlet) (n : Nat) : Prop :=
  (s.berth o).sc.session.isSome = true ∧ ∃ m, (s.berth o).mt = some m ∧ m.session = n

/-- Session `n` of the outlet has been billed: its SESSION_END record is in the billing queue (R152). -/
def State.Billed (s : State) (o : Outlet) (n : Nat) : Prop :=
  ∃ r ∈ s.metering.queue, r.reason = .sessionEnd ∧ r.outlet = o ∧ r.session = n ∧ r.part.isSome = true

/-- Without a session the outlet has no meter, and its feedback is open (R98). -/
def State.ClosedOpen (s : State) (o : Outlet) : Prop :=
  (s.berth o).sc.session = none → (s.berth o).mt = none ∧ (s.berth o).lines.breakerClosed = false

/-- Session `n` of the outlet is still served, or has been billed with its breaker open. -/
def State.Owes (s : State) (o : Outlet) (n : Nat) : Prop :=
  s.Serves o n ∨ (s.ClosedOpen o ∧ s.Billed o n)

/-- What every operation keeps beside the outlets: the bound of the event queue, the range of the sub-second
count, the flags that are set and the queue of waiting commands. -/
structure Standing (s t : State) : Prop where
  events : EventInv s → EventInv t
  flags : s.fe.flags &&& t.fe.flags = s.fe.flags
  pending : t.pending = s.pending
  clock : ClockInv s → ClockInv t

theorem and_eq_left_trans {a b c : BitVec 32} (h : a &&& b = a) (g : b &&& c = b) : a &&& c = a :=
  calc a &&& c = (a &&& b) &&& c := by rw [h]
    _ = a &&& (b &&& c) := BitVec.and_assoc _ _ _
    _ = a := by rw [g, h]

theorem Standing.trans {s t u : State} (h : Standing s t) (g : Standing t u) : Standing s u :=
  ⟨fun x => g.events (h.events x), and_eq_left_trans h.flags g.flags, g.pending.trans h.pending,
    fun x => g.clock (h.clock x)⟩

theorem Standing.of_same {s t : State} (fe : t.fe = s.fe) (pending : t.pending = s.pending)
    (tb : t.tb = s.tb) : Standing s t :=
  ⟨by unfold EventInv; rw [fe]; exact id, by rw [fe, BitVec.and_self], pending,
    by unfold ClockInv; rw [tb]; exact id⟩

theorem Standing.raise (s : State) (k : FaultKind) (src : Source) (d : Option Nat) :
    Standing s (s.raise k src d) := by
  refine ⟨FaultUnit.take_length _ _ _, ?_, rfl, id⟩
  have : (s.raise k src d).fe.flags = s.fe.flags ||| k.bit := FaultUnit.take_flags _ _ _
  rw [this]
  ext i; simp; exact Or.inl

theorem Standing.report (s : State) (k : EventKind) (src : Source) (d : Option Nat) :
    Standing s (s.report k src d) := by
  refine ⟨FaultUnit.offer_length _ _, ?_, rfl, id⟩
  have : (s.report k src d).fe.flags = s.fe.flags := FaultUnit.offer_flags _ _
  rw [this, BitVec.and_self]

/-- What a sequence of operations keeps, from any state: the outlets sound (where `P` holds), the billing
queue in order, the energies conserved, the claims no greater beyond the import limit, and no session
ended unbilled. -/
structure Keeps (P : Prop) (s t : State) : Prop where
  sound : P → s.Sound → t.Sound
  billing : BillingInv s → BillingInv t
  energy : EnergyInv s → EnergyInv t
  limit : t.account.limit = s.account.limit
  claims : t.claims ≤ s.claims ∨ t.claims ≤ t.account.limit
  owes : ∀ o n, s.Owes o n → t.Owes o n
  standing : Standing s t

theorem Keeps.refl (P : Prop) (s : State) : Keeps P s s :=
  ⟨fun _ h => h, id, id, rfl, .inl le_rfl, fun _ _ h => h, .of_same rfl rfl rfl⟩

theorem Keeps.trans {P : Prop} {s t u : State} (h : Keeps P s t) (g : Keeps P t u) : Keeps P s u := by
  refine ⟨fun p x => g.sound p (h.sound p x), fun x => g.billing (h.billing x),
    fun x => g.energy (h.energy x), g.limit.trans h.limit, ?_, fun o n x => g.owes o n (h.owes o n x),
    h.standing.trans g.standing⟩
  have hg := g.claims
  have hh := h.claims
  have hl := g.limit
  omega

theorem BillingInv.of_same {s t : State} (h : BillingInv s) (metering : t.metering = s.metering)
    (sessions : t.openSessions ≤ s.openSessions) : BillingInv t := by
  obtain ⟨h1, h2, h3⟩ := h
  exact ⟨by rwa [metering], by rwa [metering], by rw [metering]; omega⟩

theorem State.ClosedOpen.keeps {P : Prop} {s t : State} {o : Outlet} (h : s.ClosedOpen o)
    (k : (s.berth o).Keeps P (t.berth o)) : t.ClosedOpen o := by
  intro hn
  have hs : (s.berth o).sc.session = none := by
    have := k.session
    rw [hn] at this
    simpa using this.symm
  obtain ⟨hm, hb⟩ := h hs
  obtain ⟨g, hg, _⟩ := k.meter
  refine ⟨by rw [hg, hm]; rfl, ?_⟩
  by_contra hc
  have := k.breaker (by simpa using hc)
  rw [hb] at this; cases this

theorem State.Serves.keeps {P : Prop} {s t : State} {o : Outlet} {n : Nat} (h : s.Serves o n)
    (k : (s.berth o).Keeps P (t.berth o)) : t.Serves o n := by
  obtain ⟨hs, m, hm, hn⟩ := h
  obtain ⟨g, hg, hf⟩ := k.meter
  exact ⟨k.session.trans hs, g m, by rw [hg, hm]; rfl, (hf m).session.trans hn⟩

/-- Operations on the outlets alone, each of which keeps its outlet. -/
theorem Keeps.of_berths {P : Prop} {s t : State} (metering : t.metering = s.metering)
    (limit : t.account.limit = s.account.limit) (standing : Standing s t)
    (h : ∀ o, (s.berth o).Keeps P (t.berth o)) : Keeps P s t where
  sound p hs o := (h o).sound p (hs o)
  billing hb := hb.of_same metering (le_of_eq (State.openSessions_congr fun o => by
    obtain ⟨g, hg, _⟩ := (h o).meter; rw [hg, Option.isSome_map]))
  energy he o m hm := by
    obtain ⟨g, hg, hf⟩ := (h o).meter
    rw [hg, Option.map_eq_some_iff] at hm
    obtain ⟨m', hm', rfl⟩ := hm
    rw [metering]
    exact (hf m').fits _ (he o m' hm')
  limit := limit
  claims := .inl (State.claims_le_of_berths fun o => (h o).claim)
  owes o n := by
    rintro (hs | ⟨hc, r, hr, hrest⟩)
    · exact .inl (hs.keeps (h o))
    · exact .inr ⟨hc.keeps (h o), r, by rwa [metering], hrest⟩
  standing := standing

/-- A change of one outlet that keeps it. -/
theorem Keeps.onBerth {P : Prop} {s : State} {o : Outlet} {f : Berth → Berth}
    (h : (s.berth o).Keeps P (f (s.berth o))) : Keeps P s (s.onBerth o f) := by
  refine .of_berths rfl rfl (.of_same rfl rfl rfl) fun p => ?_
  by_cases hp : p = o
  · subst hp; rwa [State.berth_onBerth_self]
  · rw [State.berth_onBerth_ne _ _ hp]; exact .refl _ _

/-- Operations of the module pool keep everything. -/
theorem PoolOnly.keeps {P : Prop} {s t : State} (h : PoolOnly s t) : Keeps P s t :=
  .of_berths h.metering (by rw [h.account]) (.of_same h.fe h.pending h.tb) fun o =>
    (h.berth o).keeps P

/-- Changes outside the outlets, the billing queue and the import limit keep everything. -/
theorem Keeps.of_same {P : Prop} {s t : State} (berths : t.berths = s.berths)
    (metering : t.metering = s.metering) (limit : t.account.limit = s.account.limit)
    (standing : Standing s t) : Keeps P s t :=
  .of_berths metering limit standing fun o => by
    have : t.berth o = s.berth o := by unfold State.berth; rw [berths]
    rw [this]; exact .refl _ _

end Sys2Proof.Machine
end

