-- ==== Sys2Proof/Proofs/KeepsSession.lean ====
section
/-! PROOFS. What the session controller's operations keep (`Keeps`): changes of state, trips, the close of a
session, and the judgements that a change of capacity or of the generator table calls for. -/

namespace Sys2Proof.Machine

/-! ### Updates of one block -/

theorem Keeps.raise (P : Prop) (s : State) (k : FaultKind) (src : Source) (d : Option Nat) :
    Keeps P s (s.raise k src d) := .of_same rfl rfl rfl (.raise _ _ _ _)

theorem Keeps.report (P : Prop) (s : State) (k : EventKind) (src : Source) (d : Option Nat) :
    Keeps P s (s.report k src d) := .of_same rfl rfl rfl (.report _ _ _ _)

theorem Keeps.reportState (P : Prop) (s : State) (o : Outlet) (new : OutletState) :
    Keeps P s (s.reportState o new) := by
  unfold State.reportState
  split
  · exact .report _ _ _ _ _
  · exact .refl _ _

theorem Keeps.setPass (P : Prop) (s : State) (due : Bool) : Keeps P s { s with passDue := due } :=
  .of_same rfl rfl rfl (.of_same rfl rfl rfl)

/-- A change of SC's record that keeps state, session and declaration. -/
theorem Keeps.onSc {P : Prop} {s : State} {o : Outlet} {f : OutletRecord → OutletRecord}
    (state : (f (s.berth o).sc).state = (s.berth o).sc.state)
    (session : (f (s.berth o).sc).session = (s.berth o).sc.session)
    (declaration : (f (s.berth o).sc).declaration = (s.berth o).sc.declaration)
    (settings : (f (s.berth o).sc).settings = (s.berth o).sc.settings) :
    Keeps P s (s.onSc o f) :=
  .onBerth (.of_same (fun _ h => h.congr state (by rw [session]) declaration (by rw [settings]) rfl rfl
    rfl rfl rfl rfl rfl) session rfl rfl)

/-- A change of SL alone. -/
theorem Keeps.sl {P : Prop} {s : State} {o : Outlet} {f : Berth → Berth}
    (hf : ∀ b, f b = { b with sl := (f b).sl }) : Keeps P s (s.onBerth o f) := by
  refine .onBerth ?_
  rw [hf]
  exact .of_same (fun _ h => h.congr rfl rfl rfl rfl rfl rfl rfl rfl rfl rfl rfl) rfl rfl rfl

theorem Keeps.onSl {P : Prop} (s : State) (o : Outlet) (f : ShipLink → ShipLink) :
    Keeps P s (s.onSl o f) := .sl fun _ => rfl

/-- A change of MU alone. -/
theorem Keeps.onMu {P : Prop} (s : State) (o : Outlet) (f : Measures → Measures) :
    Keeps P s (s.onMu o f) :=
  .onBerth (.of_same (fun _ h => h.congr rfl rfl rfl rfl rfl rfl rfl rfl rfl rfl rfl) rfl rfl rfl)

/-- A change of SY that fits the outlet's state. -/
theorem Keeps.onSy {P : Prop} {s : State} {o : Outlet} {f : Synchroniser → Synchroniser}
    (h : P → (s.berth o).Sound → (f (s.berth o).sy).Fits (s.berth o).sc.state) :
    Keeps P s (s.onSy o f) :=
  .onBerth (.of_same (fun p hb => hb.withSy (h p hb)) rfl rfl rfl)

/-- A change of PR that fits the outlet's state. -/
theorem Keeps.onPr {P : Prop} {s : State} {o : Outlet} {f : Protection → Protection}
    (h : P → (s.berth o).Sound →
      (f (s.berth o).pr).Fits (s.berth o).sc.state (s.berth o).lines.breakerClosed) :
    Keeps P s (s.onPr o f) :=
  .onBerth (.of_same (fun p hb => hb.withPr (h p hb)) rfl rfl rfl)

/-- A change of RG that keeps its mode and targets, P_set within its range. -/
theorem Keeps.onRg {P : Prop} {s : State} {o : Outlet} {f : RefGen → RefGen}
    (mode : (f (s.berth o).rg).mode = (s.berth o).rg.mode)
    (freq : (f (s.berth o).rg).freqTarget = (s.berth o).rg.freqTarget)
    (volt : (f (s.berth o).rg).voltTarget = (s.berth o).rg.voltTarget)
    (pSet : P → (s.berth o).Sound → ((f (s.berth o).rg).mode ≠ .power → (f (s.berth o).rg).pSet = 0)
      ∧ (f (s.berth o).rg).pSet ≤ 25000) :
    Keeps P s (s.onRg o f) :=
  .onBerth (.of_same (fun p hb => hb.withRg
    ⟨mode.trans hb.inv.mode, (pSet p hb).1, (pSet p hb).2⟩
    fun hm => (hb.targets (mode ▸ hm)).congr freq volt rfl rfl) rfl rfl rfl)

/-- A change of an outlet's meter that follows it. -/
theorem Keeps.onMt {P : Prop} {s : State} {o : Outlet} {f : Meter → Meter} (h : ∀ m : Meter, m.Follows (f m)) :
    Keeps P s (s.onMt o f) := by
  refine .onBerth ⟨fun _ hb => ?_, rfl, le_rfl, id, f, rfl, h⟩
  exact hb.congr rfl rfl rfl rfl rfl (Option.isSome_map) rfl rfl rfl rfl rfl

/-! ### A change of state -/

theorem Berth.takeState_keeps {P : Prop} {b : Berth} {new : OutletState} (pSet : Nat) (now : TimeStamp)
    (short : Bool) (h : P → b.Sound → b.MayMove new) : b.Keeps P (b.takeState new pSet now short) := by
  have hsession : (b.takeState new pSet now short).sc.session = b.sc.session := by
    rw [Berth.takeState_sc]; rfl
  refine ⟨fun p hb => (h p hb).takeState _ _ _, by rw [hsession], by unfold Berth.claim; rw [hsession],
    by rw [Berth.takeState_breaker]; exact id, id, by rw [Berth.takeState_mt]; simp, fun m => .refl m⟩

theorem State.moveTo_keeps {P : Prop} {s : State} {o : Outlet} {new : OutletState} (pSet : Nat)
    (h : P → (s.berth o).Sound → (s.berth o).MayMove new) : Keeps P s (s.moveTo o new pSet) := by
  unfold State.moveTo
  exact ((Keeps.onBerth (Berth.takeState_keeps _ _ _ h)).trans
    (State.poolTakesState_poolOnly _ _ _ _).keeps).trans (.reportState _ _ _ _)

/-- A trip is open to every sound outlet (R106). -/
theorem Berth.Sound.mayTrip {b : Berth} (h : b.Sound) : b.MayMove .tripped :=
  h.mayMove nofun nofun nofun (fun _ => .inr (.inl rfl)) (fun _ => .inr (.inl rfl))
    (by simp [OutletState.mode])

theorem Protection.fits_tripped (p : Protection) (closed : Bool) : p.Fits .tripped closed :=
  fun _ => .inl rfl

theorem State.trip_keeps {P : Prop} (s : State) (o : Outlet) (c : Cause) : Keeps P s (s.trip o c) := by
  unfold State.trip
  have moved := State.moveTo_keeps (P := P) (s := s) (o := o) (new := .tripped) 0
    fun _ h => h.mayTrip
  refine (((moved.trans ?_).trans (.onPr fun _ _ => ?_)).trans (.raise _ _ _ _ _)).trans
    (.onMt Meter.countTrip_follows)
  · exact .onSc rfl rfl rfl rfl
  · simp only [State.berth_onSc_self, State.moveTo_state]
    exact Protection.fits_tripped _ _

theorem State.laterCause_keeps {P : Prop} (s : State) (o : Outlet) (c : Cause) :
    Keeps P s (s.laterCause o c) := by
  unfold State.laterCause
  split
  · exact .refl _ _
  · exact (Keeps.raise _ _ _ _ _).trans (.onPr fun _ h => h.pr)

theorem State.complete_keeps {P : Prop} (s : State) (o : Outlet) (c : Cause) :
    Keeps P s (s.complete o c) := by
  unfold State.complete
  dsimp only
  split
  · exact State.trip_keeps _ _ _
  · split
    · exact State.laterCause_keeps _ _ _
    · exact .refl _ _

theorem State.enter_keeps {P : Prop} {s : State} {o : Outlet} {new : OutletState} (pSet : Nat)
    (h : P → (s.berth o).Sound → (s.berth o).MayMove new) : Keeps P s (s.enter o new pSet) := by
  unfold State.enter
  dsimp only
  split
  · exact (State.moveTo_keeps _ h).trans (State.trip_keeps _ _ _)
  · exact State.moveTo_keeps _ h

/-- A change between two states of a session other than CLOSING and WIND_DOWN, to no mode of TRACK or POWER
from OFF. -/
theorem Berth.Sound.mayGoOn {b : Berth} (h : b.Sound) {new : OutletState}
    (session : b.sc.session.isSome = true) (hnew : new.beforeSession = false)
    (closing : b.sc.state ≠ .closing) (windDown : b.sc.state ≠ .windDown)
    (leavesOff : new.mode = .track ∨ new.mode = .power → b.sc.state.mode ≠ .off) : b.MayMove new :=
  h.mayMove (fun _ => session) (fun hb => by rw [hnew] at hb; cases hb) (by rintro rfl; cases hnew)
    (fun hc => absurd hc closing) (fun hw => absurd hw windDown) leavesOff

/-! ### The close of a session (R98, R152) -/

theorem Metering.queue_append_ascending {s : State} (h : BillingInv s) {r : BillingRecord}
    (hr : r.sequence = s.metering.sequence) :
    ((s.metering.queue ++ [r]).map BillingRecord.sequence).Pairwise (· < ·)
      ∧ ∀ x ∈ s.metering.queue ++ [r], x.sequence < s.metering.sequence + 1 := by
  constructor
  · rw [List.map_append, List.pairwise_append]
    refine ⟨h.ascending, by simp, fun a ha b hb => ?_⟩
    obtain ⟨x, hx, rfl⟩ := List.mem_map.mp ha
    simp only [List.map_cons, List.map_nil, List.mem_singleton] at hb
    rw [hb, hr]
    exact h.below x hx
  · intro x hx
    rcases List.mem_append.mp hx with hx | hx
    · exact Nat.lt_succ_of_lt (h.below x hx)
    · rw [List.mem_singleton.mp hx, hr]; exact Nat.lt_succ_self _

@[simp] theorem State.store_queue (s : State) (r : BillingRecord) :
    (s.store r).metering.queue = s.metering.queue ++ [r] := by
  unfold State.store; dsimp only; split <;> rfl

@[simp] theorem State.store_sequence (s : State) (r : BillingRecord) :
    (s.store r).metering.sequence = s.metering.sequence + 1 := by
  unfold State.store; dsimp only; split <;> rfl

@[simp] theorem State.store_rounding (s : State) (r : BillingRecord) :
    (s.store r).metering.rounding = s.metering.rounding := by
  unfold State.store; dsimp only; split <;> rfl

@[simp] theorem State.store_berths (s : State) (r : BillingRecord) : (s.store r).berths = s.berths := by
  unfold State.store; dsimp only; split <;> rfl

@[simp] theorem State.store_account (s : State) (r : BillingRecord) :
    (s.store r).account = s.account := by
  unfold State.store; dsimp only; split <;> rfl

theorem State.store_standing (s : State) (r : BillingRecord) : Standing s (s.store r) := by
  unfold State.store
  dsimp only
  split
  · exact ⟨(Standing.report s .billingLow .station _).events,
      (Standing.report s .billingLow .station _).flags, rfl, id⟩
  · exact .of_same rfl rfl rfl

@[simp] theorem State.berth_store (s : State) (r : BillingRecord) (o : Outlet) :
    (s.store r).berth o = s.berth o := by unfold State.berth; rw [State.store_berths]

/-- The record that a close of the open interval stores (R148). -/
def State.closingRecord (s : State) (o : Outlet) (m : Meter) (reason : ClosingReason) : BillingRecord :=
  s.intervalRecord o (m.splitGap s.tb.run) reason

/-- The meter with its next interval opened after a close (R146, R147). -/
def State.nextMeter (s : State) (m : Meter) : Meter :=
  { m.splitGap s.tb.run with
    imported := (m.splitGap s.tb.run).imported.close s.metering.rounding
    exported := (m.splitGap s.tb.run).exported.close s.metering.rounding
    interval := s.newInterval false }

theorem State.closeInterval_of_none {s : State} {o : Outlet} (h : (s.berth o).mt = none)
    (reason : ClosingReason) : s.closeInterval o reason = s := by
  unfold State.closeInterval; rw [h]

/-- What the close of an outlet's open interval comes to. -/
theorem State.closeInterval_of_some {s : State} {o : Outlet} {m : Meter} (h : (s.berth o).mt = some m)
    (reason : ClosingReason) : s.closeInterval o reason
      = (s.store (s.closingRecord o m reason)).onBerth o fun b =>
          { b with mt := if reason = .sessionEnd then none else some (s.nextMeter m) } := by
  unfold State.closeInterval; rw [h]; rfl

theorem Meter.splitGap_follows (m : Meter) (now : RunCount) : m.Follows (m.splitGap now) := by
  unfold Meter.splitGap; split <;> exact .of_same rfl rfl rfl

theorem State.nextMeter_fits (s : State) {m : Meter} (h : m.Fits s.metering.rounding) :
    (s.nextMeter m).Fits s.metering.rounding := by
  obtain ⟨⟨hic, hir⟩, hec, her⟩ := (m.splitGap_follows s.tb.run).fits _ h
  exact ⟨⟨hic.close _, Energy.close_fits hir⟩, hec.close _, Energy.close_fits her⟩

theorem State.nextMeter_session (s : State) (m : Meter) : (s.nextMeter m).session = m.session :=
  (m.splitGap_follows s.tb.run).session

@[simp] theorem State.closingRecord_sequence (s : State) (o : Outlet) (m : Meter)
    (reason : ClosingReason) : (s.closingRecord o m reason).sequence = s.metering.sequence := rfl

@[simp] theorem State.closingRecord_reason (s : State) (o : Outlet) (m : Meter)
    (reason : ClosingReason) : (s.closingRecord o m reason).reason = reason := rfl

@[simp] theorem State.closingRecord_outlet (s : State) (o : Outlet) (m : Meter)
    (reason : ClosingReason) : (s.closingRecord o m reason).outlet = o := rfl

@[simp] theorem State.closingRecord_session (s : State) (o : Outlet) (m : Meter)
    (reason : ClosingReason) : (s.closingRecord o m reason).session = m.session :=
  (m.splitGap_follows s.tb.run).session

/-- What is kept but for soundness, and soundness. -/
theorem Keeps.withSound {P : Prop} {s t : State} (h : Keeps False s t)
    (sound : P → s.Sound → t.Sound) : Keeps P s t :=
  ⟨sound, h.billing, h.energy, h.limit, h.claims, h.owes, h.standing⟩

/-- A change of state at an outlet that may make it, the other outlets sound. -/
theorem State.moveTo_sound {s : State} {o : Outlet} {new : OutletState} (pSet : Nat)
    (others : ∀ p, p ≠ o → (s.berth p).Sound) (h : (s.berth o).MayMove new) :
    (s.moveTo o new pSet).Sound := by
  intro p
  by_cases hp : p = o
  · subst hp
    exact ((s.moveTo_berth_self p new pSet).keeps True).sound trivial (h.takeState _ _ _)
  · exact ((s.moveTo_berth_ne new pSet hp).keeps True).sound trivial (others p hp)

theorem State.enter_sound {s : State} {o : Outlet} {new : OutletState} (pSet : Nat)
    (others : ∀ p, p ≠ o → (s.berth p).Sound) (h : (s.berth o).MayMove new) :
    (s.enter o new pSet).Sound := by
  have moved := State.moveTo_sound pSet others h
  unfold State.enter
  dsimp only
  split
  · exact (State.trip_keeps (P := True) _ _ _).sound trivial moved
  · exact moved

/-- The open sessions where one outlet alone has changed. -/
theorem State.openSessions_replace {s t : State} {o : Outlet}
    (others : ∀ p, p ≠ o → (t.berth p).mt.isSome = (s.berth p).mt.isSome) :
    t.openSessions + (s.berth o).mt.isSome.toNat = s.openSessions + (t.berth o).mt.isSome.toNat := by
  rw [State.openSessions_eq, State.openSessions_eq]
  have h1 := others .o1
  have h2 := others .o2
  have h3 := others .o3
  have h4 := others .o4
  cases o <;> simp only [ne_eq, reduceCtorEq, not_false_eq_true, forall_const, not_true_eq_false,
    false_implies] at h1 h2 h3 h4 <;> simp only [h1, h2, h3, h4] <;> omega

/-- The claims where one outlet alone has changed. -/
theorem State.claims_replace {s t : State} {o : Outlet}
    (others : ∀ p, p ≠ o → (t.berth p).claim = (s.berth p).claim) :
    t.claims + (s.berth o).claim = s.claims + (t.berth o).claim := by
  rw [State.claims_eq, State.claims_eq]
  have h1 := others .o1
  have h2 := others .o2
  have h3 := others .o3
  have h4 := others .o4
  cases o <;> simp only [ne_eq, reduceCtorEq, not_false_eq_true, forall_const, not_true_eq_false,
    false_implies] at h1 h2 h3 h4 <;> simp only [h1, h2, h3, h4] <;> omega

theorem State.openSessions_erase {s t : State} {o : Outlet} (h : (s.berth o).mt.isSome = true)
    (ho : (t.berth o).mt = none) (others : ∀ p, p ≠ o → (t.berth p).mt = (s.berth p).mt) :
    t.openSessions + 1 = s.openSessions := by
  have := State.openSessions_replace (s := s) (t := t) (o := o) fun p hp => by rw [others p hp]
  rw [h, ho] at this
  exact this

/-- The state with an outlet's last interval closed and its session discarded (R98, R152). -/
def State.settleSession (s : State) (o : Outlet) : State :=
  (s.closeInterval o .sessionEnd).onSc o fun r => { r with session := none }

theorem State.settleSession_berth_ne {s : State} {o p : Outlet} (h : p ≠ o) :
    (s.settleSession o).berth p = s.berth p := by
  unfold State.settleSession
  rw [State.berth_onSc_ne _ _ h]
  cases hm : (s.berth o).mt with
  | none => rw [State.closeInterval_of_none hm]
  | some m =>
    rw [State.closeInterval_of_some hm, State.berth_onBerth_ne _ _ h, State.berth_store]

theorem State.settleSession_berth_self (s : State) (o : Outlet) :
    (s.settleSession o).berth o
      = { s.berth o with sc := { (s.berth o).sc with session := none }, mt := none } := by
  unfold State.settleSession
  rw [State.berth_onSc_self]
  cases hm : (s.berth o).mt with
  | none => rw [State.closeInterval_of_none hm, ← hm]
  | some m =>
    rw [State.closeInterval_of_some hm, State.berth_onBerth_self, State.berth_store, if_pos rfl]

theorem State.settleSession_account (s : State) (o : Outlet) :
    (s.settleSession o).account = s.account := by
  unfold State.settleSession
  rw [State.onSc_account]
  cases hm : (s.berth o).mt with
  | none => rw [State.closeInterval_of_none hm]
  | some m => rw [State.closeInterval_of_some hm, State.onBerth_account, State.store_account]

theorem State.settleSession_metering {s : State} {o : Outlet} {m : Meter}
    (h : (s.berth o).mt = some m) :
    (s.settleSession o).metering = (s.store (s.closingRecord o m .sessionEnd)).metering := by
  unfold State.settleSession
  rw [State.onSc_metering, State.closeInterval_of_some h, State.onBerth_metering]

theorem State.settleSession_rounding (s : State) (o : Outlet) :
    (s.settleSession o).metering.rounding = s.metering.rounding := by
  cases hm : (s.berth o).mt with
  | none => unfold State.settleSession; rw [State.onSc_metering, State.closeInterval_of_none hm]
  | some m => rw [State.settleSession_metering hm, State.store_rounding]

theorem State.settleSession_standing (s : State) (o : Outlet) : Standing s (s.settleSession o) := by
  unfold State.settleSession
  refine Standing.trans ?_ (.of_same rfl rfl rfl)
  cases hm : (s.berth o).mt with
  | none => rw [State.closeInterval_of_none hm]; exact .of_same rfl rfl rfl
  | some m =>
    rw [State.closeInterval_of_some hm]
    exact (s.store_standing _).trans (.of_same rfl rfl rfl)

/-- The billing queue only grows at the close of a session. -/
theorem State.settleSession_queue_sub {s : State} {o : Outlet} {r : BillingRecord}
    (h : r ∈ s.metering.queue) : r ∈ (s.settleSession o).metering.queue := by
  cases hm : (s.berth o).mt with
  | none =>
    unfold State.settleSession
    rwa [State.onSc_metering, State.closeInterval_of_none hm]
  | some m =>
    rw [State.settleSession_metering hm, State.store_queue]
    exact List.mem_append_left _ h

/-- The last interval's record takes the room of the session, and bills it (R98, R152, R153). -/
theorem State.settleSession_keeps {s : State} {o : Outlet} (hopen : (s.berth o).lines.breakerClosed = false) :
    Keeps False s (s.settleSession o) where
  sound := False.elim
  billing hb := by
    cases hm : (s.berth o).mt with
    | none =>
      unfold State.settleSession
      rw [State.closeInterval_of_none hm]
      exact hb.of_same rfl (le_of_eq (State.openSessions_congr fun p => by rw [State.mt_onSc]))
    | some m =>
      obtain ⟨hasc, hbelow⟩ := Metering.queue_append_ascending hb
        (State.closingRecord_sequence s o m .sessionEnd)
      have hsessions := State.openSessions_erase (t := s.settleSession o) (by rw [hm]; rfl)
        (by rw [State.settleSession_berth_self]) fun p hp => by rw [State.settleSession_berth_ne hp]
      have hroom := hb.room
      constructor
      · rwa [State.settleSession_metering hm, State.store_queue]
      · rwa [State.settleSession_metering hm, State.store_queue, State.store_sequence]
      · rw [State.settleSession_metering hm, State.store_queue, List.length_append,
          List.length_singleton]
        omega
  energy he p m hm := by
    rw [State.settleSession_rounding]
    by_cases hp : p = o
    · subst hp; rw [State.settleSession_berth_self] at hm; cases hm
    · rw [State.settleSession_berth_ne hp] at hm; exact he p m hm
  limit := by rw [State.settleSession_account]
  standing := s.settleSession_standing o
  claims := .inl <| State.claims_le_of_berths fun p => by
    by_cases hp : p = o
    · subst hp; rw [State.settleSession_berth_self]; exact Nat.zero_le _
    · rw [State.settleSession_berth_ne hp]
  owes p n := by
    by_cases hp : p = o
    · subst hp
      have closed : (s.settleSession p).ClosedOpen p := fun _ => by
        rw [State.settleSession_berth_self]; exact ⟨rfl, hopen⟩
      rintro (⟨_, m, hm, rfl⟩ | ⟨_, r, hr, hrest⟩)
      · refine .inr ⟨closed, s.closingRecord p m .sessionEnd, ?_, rfl, rfl, by simp, rfl⟩
        rw [State.settleSession_metering hm, State.store_queue]
        exact List.mem_append_right _ (List.mem_singleton_self _)
      · exact .inr ⟨closed, r, State.settleSession_queue_sub hr, hrest⟩
    · have hb := State.settleSession_berth_ne (s := s) hp
      rintro (h | ⟨hc, r, hr, hrest⟩)
      · exact .inl (by unfold State.Serves; rwa [hb])
      · exact .inr ⟨by unfold State.ClosedOpen; rwa [hb], r, State.settleSession_queue_sub hr, hrest⟩

/-- An outlet whose session has been settled in WIND_DOWN may go to CABLE_PROVEN or DORMANT (R98). -/
theorem Berth.Sound.settled_mayMove {b : Berth} (h : b.Sound) (state : b.sc.state = .windDown)
    (breaker : b.lines.breakerClosed = false) {new : OutletState}
    (hnew : new = .cableProven ∨ new = .dormant) :
    ({ b with sc := { b.sc with session := none }, mt := none } : Berth).MayMove new where
  session := by rcases hnew with rfl | rfl <;> exact nofun
  noSession _ := rfl
  meter := rfl
  declared := nofun
  waitsDeclared := by rcases hnew with rfl | rfl <;> exact nofun
  inFlight hc := by have := h.inv.inFlight hc; rw [state] at this; cases this
  output := h.inv.output
  pSetAbsent := h.inv.pSetAbsent
  pSetBound := h.inv.pSetBound
  drive hd := by
    rcases h.inv.drive hd with ht | ⟨_, hc⟩
    · exact .inl ht
    · rw [breaker] at hc; cases hc
  targets hm := (h.targets hm).congr rfl rfl rfl rfl
  leavesOff := by rcases hnew with rfl | rfl <;> simp [OutletState.mode]

/-- What `mayClose` says: WIND_DOWN, no module assigned, the feedback open. -/
theorem State.mayClose_iff (s : State) (o : Outlet) : s.mayClose o = true ↔
    (s.berth o).sc.state = .windDown ∧ s.assigned o = 0 ∧ (s.berth o).lines.breakerClosed = false := by
  simp [State.mayClose, and_assoc]

theorem State.tryClose_keeps {P : Prop} (s : State) (o : Outlet) : Keeps P s (s.tryClose o) := by
  unfold State.tryClose
  split
  · exact .refl _ _
  · split
    · rename_i x _ hmay
      obtain ⟨hstate, _, hopen⟩ := (s.mayClose_iff o).mp hmay
      have settled := (State.settleSession_keeps hopen).trans
        (.report False _ .sessionClose (.outlet o) (some x.number))
      refine Keeps.withSound ((settled.trans (State.moveTo_keeps 0 False.elim)).trans
        (.setPass _ _ _)) fun _ hs => ?_
      refine (Keeps.setPass True _ true).sound trivial (State.moveTo_sound 0 (fun p hp => ?_) ?_)
      · rw [State.berth_report]
        show ((s.settleSession o).berth p).Sound
        rw [State.settleSession_berth_ne hp]
        exact hs p
      · rw [State.berth_report]
        show ((s.settleSession o).berth o).MayMove _
        rw [State.settleSession_berth_self]
        refine (hs o).settled_mayMove hstate hopen ?_
        split
        · exact .inl rfl
        · exact .inr rfl
    · exact .refl _ _

/-- An outlet with a session and no close in flight may enter WIND_DOWN. -/
theorem Berth.Sound.mayWindDown {b : Berth} (h : b.Sound) (session : b.sc.session.isSome = true)
    (close : b.sc.state = .closing → b.sy.close ≠ .inFlight) : b.MayMove .windDown :=
  h.mayMove (fun _ => session) nofun nofun (fun hc => .inr (.inr (close hc))) (fun _ => .inl rfl)
    (by simp [OutletState.mode])

theorem State.windDown_keeps {P : Prop} {s : State} {o : Outlet}
    (h : P → (s.berth o).Sound → (s.berth o).MayMove .windDown) : Keeps P s (s.windDown o) :=
  (State.moveTo_keeps 0 h).trans (State.tryClose_keeps _ _)

/-! ### Judgements -/

/-- A change from a state of a session other than CLOSING and WIND_DOWN. -/
theorem Berth.Sound.mayGoOn_from {b : Berth} (h : b.Sound) {old new : OutletState}
    (state : b.sc.state = old) (hold : old.inSession = true ∧ old ≠ .closing ∧ old ≠ .windDown)
    (hnew : new.beforeSession = false)
    (leavesOff : new.mode = .track ∨ new.mode = .power → old.mode ≠ .off) : b.MayMove new := by
  subst state
  exact h.mayGoOn (h.inv.session hold.1) hnew hold.2.1 hold.2.2 leavesOff

theorem State.judgeGenerators_keeps {P : Prop} (s : State) (o : Outlet) :
    Keeps P s (s.judgeGenerators o) := by
  unfold State.judgeGenerators
  dsimp only
  split
  · rename_i h
    exact State.enter_keeps _ fun _ hb => hb.mayGoOn_from h.1 (by decide) rfl (by decide)
  · split
    · rename_i h
      refine Keeps.trans (t := if (s.berth o).sc.returnAwaited then s
        else s.report .unplannedParallel (.outlet o)) ?_ (State.enter_keeps _ fun _ hb => ?_)
      · split
        · exact .refl _ _
        · exact .report _ _ _ _ _
      · refine hb.mayGoOn_from (old := .shoreSupply) ?_ (by decide) rfl (by decide)
        split
        · exact h.1
        · exact h.1
    · exact .refl _ _

theorem State.enterJudged_keeps {P : Prop} {s : State} {o : Outlet} {new : OutletState} (pSet : Nat)
    (h : P → (s.berth o).Sound → (s.berth o).MayMove new) : Keeps P s (s.enterJudged o new pSet) :=
  (State.enter_keeps pSet h).trans (State.judgeGenerators_keeps _ _)

theorem State.requestReturn_keeps {P : Prop} (s : State) (o : Outlet) :
    Keeps P s (s.requestReturn o) := by
  unfold State.requestReturn
  split
  · exact .refl _ _
  · refine Keeps.trans ?_ (State.judgeGenerators_keeps _ _)
    exact .onSc rfl rfl rfl rfl

/-- SY with a close just issued is ahead of an outlet in ENERGISING or SYNCHRONISING, which may enter
CLOSING (R66, R74). -/
theorem Berth.Sound.issued_mayMove {b : Berth} (h : b.Sound)
    (state : b.sc.state = .energising ∨ b.sc.state = .synchronising) (now : TimeStamp)
    (plan : Option Schedule) : ({ b with sy := b.sy.issue now plan } : Berth).MayMove .closing where
  session _ := h.inv.session (by rcases state with h | h <;> rw [h] <;> rfl)
  noSession := nofun
  meter := h.inv.meter
  declared := h.inv.declared
  waitsDeclared := nofun
  inFlight _ := .inl rfl
  output _ := rfl
  pSetAbsent := h.inv.pSetAbsent
  pSetBound := h.inv.pSetBound
  drive hd := by
    rcases h.inv.drive hd with ht | ⟨hw, _⟩
    · exact .inl ht
    · rcases state with h | h <;> rw [h] at hw <;> cases hw
  targets hm := (h.targets hm).congr rfl rfl rfl rfl
  leavesOff _ := by
    rw [h.inv.mode]
    rcases state with h | h <;> rw [h] <;> exact nofun

theorem State.issueClose_keeps {P : Prop} {s : State} {o : Outlet} (plan : Option Schedule)
    (h : P → (s.berth o).Sound →
      (s.berth o).sc.state = .energising ∨ (s.berth o).sc.state = .synchronising) :
    Keeps P s (s.issueClose o plan) := by
  unfold State.issueClose
  refine Keeps.withSound ((Keeps.onSy False.elim).trans (State.enter_keeps 0 False.elim))
    fun p hs => State.enter_sound 0 (fun q hq => ?_) ?_
  · rw [State.berth_onSy_ne _ _ hq]; exact hs q
  · rw [State.berth_onSy_self]
    exact (hs o).issued_mayMove (h p (hs o)) _ _

theorem OutletState.keepsDeadTime_iff {st : OutletState} :
    st.keepsDeadTime = true ↔ st = .energising ∨ st = .synchronising := by
  cases st <;> simp [OutletState.keepsDeadTime]

theorem State.tryDeadBus_keeps {P : Prop} (s : State) (o : Outlet) : Keeps P s (s.tryDeadBus o) := by
  unfold State.tryDeadBus
  split
  · rename_i h
    simp only [Berth.deadBusReady, Bool.and_eq_true, and_assoc] at h
    exact State.issueClose_keeps _ fun _ _ => OutletState.keepsDeadTime_iff.mp h.1
  · exact .refl _ _

theorem State.judgeEnergising_keeps {P : Prop} (s : State) (o : Outlet) :
    Keeps P s (s.judgeEnergising o) := by
  unfold State.judgeEnergising
  dsimp only
  split
  · rename_i h
    exact State.enter_keeps _ fun _ hb => hb.mayGoOn_from h.1 (by decide) rfl (by decide)
  · exact .refl _ _

/-- A schedule that a short capacity cancels leaves SY fit (R65). -/
theorem Berth.syCapacity_fits {b : Berth} (h : b.sy.Fits b.sc.state) (c : Nat) :
    (b.syCapacity c).sy.Fits b.sc.state := by
  unfold Berth.syCapacity
  split
  · rename_i hc
    split
    · refine ⟨nofun, nofun, fun ho => ?_⟩
      have := h.output ho
      rw [hc] at this; cases this
    · exact h
  · exact h
  · exact h

theorem State.capacityChanged_keeps {P : Prop} (s : State) (o : Outlet) :
    Keeps P s (s.capacityChanged o) := by
  unfold State.capacityChanged
  refine ((Keeps.trans ?_ (State.servePool_poolOnly _ _).keeps).trans
    (State.tryDeadBus_keeps _ _)).trans (State.judgeEnergising_keeps _ _)
  refine .onBerth (.of_same (fun _ hb => ?_) ?_ ?_ ?_)
  · refine (hb.withSy (Berth.syCapacity_fits hb.sy (s.capacity o))).congr ?_ ?_ ?_ ?_ ?_ ?_ ?_ ?_ ?_ ?_ ?_ <;>
      rw [Berth.syCapacity_rest] <;> rfl
  all_goals rw [Berth.syCapacity_rest]; rfl

end Sys2Proof.Machine
end

