-- ==== Sys2Proof/Proofs/KeepsBlocks.lean ====
section
/-! PROOFS. What the operations of the meter, the measurement unit, the module lines and the breaker lines
keep (`Keeps`). -/

namespace Sys2Proof.Machine

/-! ### Intervals (R146, R149, R150, R153) -/

theorem State.spare_eq (s : State) (h : 1 ≤ s.spare) :
    s.metering.queue.length + s.openSessions + 1 ≤ 96 := by
  unfold State.spare State.freeEntries at h
  omega

/-- An interval that closes while its session goes on takes an entry to spare. -/
theorem State.closeInterval_keeps {P : Prop} {s : State} (o : Outlet) {reason : ClosingReason}
    (hreason : reason ≠ .sessionEnd) (hspare : 1 ≤ s.spare) :
    Keeps P s (s.closeInterval o reason) := by
  cases hm : (s.berth o).mt with
  | none => rw [State.closeInterval_of_none hm]; exact .refl _ _
  | some m =>
    rw [State.closeInterval_of_some hm]
    simp only [if_neg hreason]
    have hother : ∀ p, p ≠ o → ((s.store (s.closingRecord o m reason)).onBerth o fun b =>
        { b with mt := some (s.nextMeter m) }).berth p = s.berth p := fun p hp => by
      rw [State.berth_onBerth_ne _ _ hp, State.berth_store]
    have hself : ((s.store (s.closingRecord o m reason)).onBerth o fun b =>
        { b with mt := some (s.nextMeter m) }).berth o
          = { s.berth o with mt := some (s.nextMeter m) } := by
      rw [State.berth_onBerth_self, State.berth_store]
    refine ⟨fun _ hs p => ?_, fun hb => ?_, fun he p m' hm' => ?_, by simp, .inl ?_, fun p n => ?_,
      (s.store_standing _).trans (.of_same rfl rfl rfl)⟩
    · by_cases hp : p = o
      · subst hp
        rw [hself]
        exact (hs p).congr rfl rfl rfl rfl rfl (by rw [hm]; rfl) rfl rfl rfl rfl rfl
      · rw [hother p hp]; exact hs p
    · have hroom := State.spare_eq s hspare
      obtain ⟨hasc, hbelow⟩ := Metering.queue_append_ascending hb
        (State.closingRecord_sequence s o m reason)
      refine ⟨by simpa using hasc, by simpa using hbelow, ?_⟩
      rw [State.openSessions_congr (s := s) fun p => ?_]
      · simp only [State.onBerth_metering, State.store_queue, List.length_append,
          List.length_singleton]
        omega
      · by_cases hp : p = o
        · subst hp; rw [hself, hm]; rfl
        · rw [hother p hp]
    · simp only [State.onBerth_metering, State.store_rounding]
      by_cases hp : p = o
      · subst hp
        rw [hself] at hm'
        obtain rfl := Option.some.inj hm'
        exact State.nextMeter_fits s (he p m hm)
      · rw [hother p hp] at hm'; exact he p m' hm'
    · refine State.claims_le_of_berths fun p => ?_
      by_cases hp : p = o
      · subst hp; rw [hself]; exact le_rfl
      · rw [hother p hp]
    · have hserves : s.Serves p n → State.Serves ((s.store (s.closingRecord o m reason)).onBerth o
          fun b => { b with mt := some (s.nextMeter m) }) p n := by
        unfold State.Serves
        by_cases hp : p = o
        · subst hp
          rw [hself]
          rintro ⟨hs, m', hm', hn⟩
          rw [hm] at hm'
          obtain rfl := Option.some.inj hm'
          exact ⟨hs, _, rfl, (State.nextMeter_session s m).trans hn⟩
        · rw [hother p hp]; exact id
      rintro (h | ⟨hc, r, hr, hrest⟩)
      · exact .inl (hserves h)
      · refine .inr ⟨?_, r, by simp [hr], hrest⟩
        unfold State.ClosedOpen at hc ⊢
        by_cases hp : p = o
        · subst hp
          rw [hself]
          intro hn
          rw [(hc hn).1] at hm
          cases hm
        · rwa [hother p hp]

/-- A fold of operations that each keep. -/
theorem Keeps.foldl {α : Type} {P : Prop} (f : State → α → State) (h : ∀ s a, Keeps P s (f s a))
    (l : List α) (s : State) : Keeps P s (l.foldl f s) := by
  induction l generalizing s with
  | nil => exact .refl _ _
  | cons a l ih => exact (h s a).trans (ih _)

/-- A change of the open interval alone follows the meter. -/
theorem Meter.Follows.interval (m : Meter) (i : Interval) : m.Follows { m with interval := i } :=
  .of_same rfl rfl rfl

theorem State.serveBoundary_keeps {P : Prop} (s : State) (o : Outlet) :
    Keeps P s (s.serveBoundary o) := by
  unfold State.serveBoundary
  split
  · rename_i h; exact State.closeInterval_keeps o (by decide) h
  · exact .onMt fun m => .interval m _

theorem State.serveTimeStep_keeps {P : Prop} (s : State) (o : Outlet) :
    Keeps P s (s.serveTimeStep o) := by
  unfold State.serveTimeStep
  split
  · rename_i h; exact State.closeInterval_keeps o (by decide) h
  · exact .onMt fun m => .interval m _

theorem State.meterTick_keeps {P : Prop} (s : State) : Keeps P s s.meterTick := by
  unfold State.meterTick
  split
  · exact .foldl _ State.serveBoundary_keeps _ _
  · exact .refl _ _

theorem State.meterTimeStep_keeps {P : Prop} (s : State) : Keeps P s s.meterTimeStep :=
  .foldl _ State.serveTimeStep_keeps _ _

theorem State.noteQuality_keeps {P : Prop} (s : State) : Keeps P s s.noteQuality :=
  .foldl _ (fun _ _ => .onMt fun m => .interval m _) _ _

/-! ### Records of the measurement unit -/

theorem State.noteClip_keeps {P : Prop} (s : State) (o : Outlet) (clipped : Bool) :
    Keeps P s (s.noteClip o clipped) := by
  unfold State.noteClip
  dsimp only
  split
  · exact (Keeps.raise _ _ _ _ _).trans (.onMu _ _ _)
  · exact .refl _ _

theorem State.mpPower_keeps {P : Prop} (s : State) (o : Outlet) (r : PowerRecord) :
    Keeps P s (s.mpPower o r) := by
  unfold State.mpPower
  dsimp only
  have judged := (State.judgeWatches_poolOnly s o r.s).keeps (P := P)
  split
  · exact (((judged.trans (State.beginVoluntary_poolOnly _ _ _).keeps).trans
      (State.shareLoad_poolOnly _ _ _).keeps).trans (State.tidyWatches_poolOnly _ _).keeps).trans
      (State.capacityChanged_keeps _ _)
  · exact judged.trans (State.shareLoad_poolOnly _ _ _).keeps

/-- A change of PR's counts and watches alone, the drive and the post-trip time standing. -/
theorem Keeps.prOnly {P : Prop} {s : State} {o : Outlet} {f : Berth → Berth}
    (h : ∃ p, f (s.berth o) = { s.berth o with pr := p } ∧ p.openDrive = (s.berth o).pr.openDrive
      ∧ p.postTripFrom = (s.berth o).pr.postTripFrom) : Keeps P s (s.onBerth o f) := by
  obtain ⟨p, hf, hd, ht⟩ := h
  refine .onBerth ?_
  rw [hf]
  exact .of_same (fun _ hb => hb.congr rfl rfl rfl rfl rfl rfl rfl rfl rfl hd ht) rfl rfl rfl

theorem State.prPower_keeps {P : Prop} (s : State) (o : Outlet) (r : PowerRecord) :
    Keeps P s (s.prPower o r) := by
  have judged : Keeps P s (s.onBerth o fun b =>
      (b.countOverload (s.capacity o) r).judgeCapacityWatches (s.capacity o) s.tb.run) := by
    refine .prOnly ?_
    unfold Berth.countOverload Berth.judgeCapacityWatches
    split <;> exact ⟨_, rfl, rfl, rfl⟩
  unfold State.prPower
  dsimp only
  split
  · exact judged.trans (State.complete_keeps _ _ _)
  · exact judged

theorem Account.judgeImport_limit (a : Account) (sum : Int) (now : RunCount) :
    (a.judgeImport sum now).limit = a.limit := by unfold Account.judgeImport; split <;> rfl

theorem State.scPower_keeps {P : Prop} (s : State) (o : Outlet) (r : PowerRecord) :
    Keeps P s (s.scPower o r) := by
  unfold State.scPower
  refine Keeps.trans (t := { s with account := s.account.judgeImport s.importSum s.tb.run })
    (.of_same rfl rfl (Account.judgeImport_limit _ _ _) (.of_same rfl rfl rfl)) (.onBerth ?_)
  exact .of_same (fun _ hb => hb.congr rfl rfl rfl rfl rfl rfl rfl rfl rfl rfl rfl) rfl rfl rfl

/-- A change of RG that keeps mode and P_set, and either the targets or has worked them out afresh. -/
theorem Berth.Sound.retarget {b : Berth} (h : b.Sound) {g : RefGen} (mode : g.mode = b.rg.mode)
    (pSet : g.pSet = b.rg.pSet)
    (targets : (g.freqTarget = b.rg.freqTarget ∧ g.voltTarget = b.rg.voltTarget)
      ∨ TargetsInBand { b with rg := g }) : ({ b with rg := g } : Berth).Sound := by
  refine h.withRg ⟨mode.trans h.inv.mode, fun hm => ?_, by rw [pSet]; exact h.inv.pSetBound⟩
    fun hm => ?_
  · rw [pSet]; exact h.inv.pSetAbsent (mode ▸ hm)
  · rcases targets with ⟨hf, hv⟩ | ht
    · exact (h.targets (mode ▸ hm)).congr hf hv rfl rfl
    · exact ht

/-- Targets worked out afresh keep an outlet. -/
theorem Berth.withTargets_keeps {P : Prop} (b : Berth) (f v : Int) : b.Keeps P (b.withTargets f v) :=
  .of_same (fun _ hb => hb.retarget (g := (b.withTargets f v).rg) rfl rfl
    (.inr (b.withTargets_inBand f v))) rfl rfl rfl

theorem Berth.powerLoop_keeps {P : Prop} (b : Berth) (c : Nat) (r : PowerRecord) :
    b.Keeps P (b.powerLoop c r) := by
  have moved : ∀ delta : Int, b.Keeps P { b with rg := { b.rg with delta } } := fun delta =>
    .of_same (fun _ hb => hb.retarget rfl rfl (.inl ⟨rfl, rfl⟩)) rfl rfl rfl
  unfold Berth.powerLoop
  dsimp only
  split
  · split
    · exact .refl _ _
    · split
      · exact (moved _).trans (Berth.withTargets_keeps _ _ _)
      · exact moved _
  · exact .refl _ _

theorem State.takePower_keeps {P : Prop} (s : State) (o : Outlet) (r : PowerRecord) :
    Keeps P s (s.takePower o r) := by
  unfold State.takePower
  have kept : Keeps P s ((s.onMu o fun m => { m with power := some r }).noteClip o r.clipped) :=
    (Keeps.onMu _ _ _).trans (State.noteClip_keeps _ _ _)
  exact ((((kept.trans (.onMt fun m => m.takePower_follows r)).trans
    (.onBerth (Berth.powerLoop_keeps _ _ _))).trans (State.mpPower_keeps _ _ _)).trans
    (State.prPower_keeps _ _ _)).trans (State.scPower_keeps _ _ _)

/-- RG's part of a pair record. -/
theorem Berth.rgPair_keeps {P : Prop} (b : Berth) (r : PairRecord) : b.Keeps P (b.rgPair r) := by
  have taken : b.Keeps P
      { b with rg := { b.rg with recordTime := some r.stamp.run, holding := false } } :=
    .of_same (fun _ hb => hb.retarget rfl rfl (.inl ⟨rfl, rfl⟩)) rfl rfl rfl
  unfold Berth.rgPair
  dsimp only
  split
  · exact taken.trans (Berth.withTargets_keeps _ _ _)
  · exact taken.trans (Berth.withTargets_keeps _ _ _)
  all_goals exact .refl _ _

/-- SY's part of a pair record: a schedule is made in SYNCHRONISING alone (R61). -/
theorem Berth.syPair_keeps {P : Prop} (b : Berth) (c : Nat) (r : PairRecord) :
    b.Keeps P (b.syPair c r) := by
  unfold Berth.syPair
  split
  · rename_i h
    simp only [Bool.and_eq_true, and_assoc] at h
    obtain ⟨hstate, -, -, hclose, -⟩ := (b.evaluates_iff c).mp h.1
    split
    · refine .of_same (fun _ hb => hb.withSy ⟨fun _ _ => hstate, nofun, fun ho => ?_⟩) rfl rfl rfl
      have := hb.inv.output ho
      rw [hclose] at this; cases this
    · exact .refl _ _
  · exact .refl _ _

theorem State.takePair_keeps {P : Prop} (s : State) (o : Outlet) : Keeps P s (s.takePair o) := by
  unfold State.takePair
  split
  · exact .refl _ _
  · refine .onBerth ((Berth.Keeps.trans ?_ (Berth.rgPair_keeps _ _)).trans (Berth.syPair_keeps _ _ _))
    exact .of_same (fun _ hb => hb.congr rfl rfl rfl rfl rfl rfl rfl rfl rfl rfl rfl) rfl rfl rfl

theorem State.prShip_keeps {P : Prop} (s : State) (o : Outlet) (r : Phasor) :
    Keeps P s (s.prShip o r) := by
  have judged : Keeps P s (s.onBerth o fun b => b.prShipRecord r) := by
    refine .prOnly ?_
    unfold Berth.prShipRecord
    split
    · exact ⟨_, rfl, rfl, rfl⟩
    · exact ⟨_, rfl, rfl, rfl⟩
  unfold State.prShip
  dsimp only
  split
  · exact judged.trans (State.complete_keeps _ _ _)
  · exact judged

theorem Berth.syShipRecord_keeps {P : Prop} (b : Berth) (now : RunCount) :
    b.Keeps P (b.syShipRecord now) := by
  have kept : ∀ y : Synchroniser, y.close = b.sy.close → y.closeOutput = b.sy.closeOutput →
      b.Keeps P { b with sy := y } := fun y hc ho =>
    .of_same (fun _ hb => hb.congr rfl rfl rfl rfl rfl rfl rfl hc ho rfl rfl) rfl rfl rfl
  unfold Berth.syShipRecord
  split
  · split
    · exact kept _ rfl rfl
    · exact kept _ rfl rfl
  · exact .refl _ _

theorem State.judgeBuses_keeps {P : Prop} (s : State) (o : Outlet) : Keeps P s (s.judgeBuses o) :=
  (State.tryDeadBus_keeps _ _).trans (State.judgeEnergising_keeps _ _)

theorem State.takeShoreRecord_keeps {P : Prop} (s : State) (o : Outlet) (v : LineVoltages)
    (c : Option CyclePower) : Keeps P s (s.takeShoreRecord o v c) := by
  unfold State.takeShoreRecord
  split
  · exact .refl _ _
  · rename_i r _
    have judged : Keeps P s ((s.noteClip o r.clipped).judgeBuses o) :=
      (State.noteClip_keeps _ _ _).trans (State.judgeBuses_keeps _ _)
    dsimp only
    split
    · split
      · exact judged
      · exact judged.trans (State.takePower_keeps _ _ _)
    · exact judged

theorem State.takeShipRecord_keeps {P : Prop} (s : State) (o : Outlet) (v : LineVoltages)
    (c : Option CyclePower) : Keeps P s (s.takeShipRecord o v c) := by
  unfold State.takeShipRecord
  split
  · exact .refl _ _
  · rename_i r _
    have judged : Keeps P s ((((s.noteClip o r.clipped).prShip o r).onBerth o fun b =>
        b.syShipRecord s.tb.run).judgeBuses o) :=
      (((State.noteClip_keeps _ _ _).trans (State.prShip_keeps _ _ _)).trans
        (.onBerth (Berth.syShipRecord_keeps _ _))).trans (State.judgeBuses_keeps _ _)
    dsimp only
    split
    · exact (judged.trans (State.takePair_keeps _ _)).trans (State.takePower_keeps _ _ _)
    · exact judged

theorem State.setPoint_keeps {P : Prop} (s : State) (pt : MeasPoint) (p : PointState) :
    Keeps P s (s.setPoint pt p) := by
  cases pt with
  | grid => exact .of_same rfl rfl rfl (.of_same rfl rfl rfl)
  | shore o => exact .onMu s o fun m => { m with shore := p }
  | ship o => exact .onMu s o fun m => { m with ship := p }

theorem State.takeRecord_keeps {P : Prop} (s : State) (pt : MeasPoint) (v : LineVoltages)
    (c : Option CyclePower) : Keeps P s (s.takeRecord pt v c) := by
  cases pt with
  | grid => exact .of_same rfl rfl rfl (.of_same rfl rfl rfl)
  | shore o => exact State.takeShoreRecord_keeps _ _ _ _
  | ship o => exact State.takeShipRecord_keeps _ _ _ _

/-! ### Module lines -/

theorem State.leaveUnit_keeps {P : Prop} (s : State) (m : ModuleNo) : Keeps P s (s.leaveUnit m) := by
  unfold State.leaveUnit
  split
  · exact (State.freeUnit_poolOnly _).keeps
  · exact .refl _ _

theorem Keeps.onMp {P : Prop} (s : State) (o : Outlet) (f : OutletPool → OutletPool) :
    Keeps P s (s.onMp o f) := (PoolOnly.onMp _ _ _).keeps

theorem Keeps.onModule {P : Prop} (s : State) (m : ModuleNo) (f : Module → Module) :
    Keeps P s (s.onModule m f) := (PoolOnly.onModule _ _ _).keeps

theorem Keeps.changeModule {P : Prop} (s : State) (m : ModuleNo) (f : Module → Module) :
    Keeps P s (s.changeModule m f) := (PoolOnly.changeModule _ _ _).keeps

theorem State.arbitrate_keeps {P : Prop} (s : State) : Keeps P s s.arbitrate :=
  (State.arbitrate_poolOnly _).keeps

theorem State.servePool_keeps {P : Prop} (s : State) (o : Outlet) : Keeps P s (s.servePool o) :=
  (State.servePool_poolOnly _ _).keeps

theorem State.moduleLeft_keeps {P : Prop} (s : State) (outlet : Option Outlet) (wasRunning : Bool) :
    Keeps P s (s.moduleLeft outlet wasRunning) := by
  unfold State.moduleLeft
  split
  · exact State.arbitrate_keeps _
  · refine Keeps.trans ?_ (State.arbitrate_keeps _)
    refine Keeps.trans ?_ (State.tryClose_keeps _ _)
    split
    · exact State.capacityChanged_keeps _ _
    · exact State.servePool_keeps _ _

theorem State.ariseReplace_keeps {P : Prop} (s : State) (o : Outlet) : Keeps P s (s.ariseReplace o) := by
  unfold State.ariseReplace
  split
  · exact .onMp _ _ _
  · exact .refl _ _

theorem State.moduleFaulted_keeps {P : Prop} (s : State) (m : ModuleNo) (code : Option Nat) :
    Keeps P s (s.moduleFaulted m code) := by
  have faulted : Keeps P s (((s.changeModule m fun x => x.toFaulted code).raise .moduleFault
      (.module m) code).leaveUnit m) :=
    ((Keeps.changeModule _ _ _).trans (.raise _ _ _ _ _)).trans (State.leaveUnit_keeps _ _)
  unfold State.moduleFaulted
  dsimp only
  refine Keeps.trans ?_ (State.moduleLeft_keeps _ _ _)
  split
  · exact faulted.trans (State.ariseReplace_keeps _ _)
  · exact faulted

theorem State.startFailed_keeps {P : Prop} (s : State) (m : ModuleNo) (code : Option Nat) :
    Keeps P s (s.startFailed m code) := by
  unfold State.startFailed
  split
  · exact .refl _ _
  · split
    · refine Keeps.trans ?_ (State.servePool_keeps _ _)
      have failed : Keeps P s (((s.changeModule m fun x => x.toFaulted code).raise .moduleStartFail
          (.module m) code).freeUnit) :=
        ((Keeps.changeModule _ _ _).trans (.raise _ _ _ _ _)).trans (State.freeUnit_poolOnly _).keeps
      split
      · exact failed.trans (.onMp _ _ _)
      · exact failed
    · exact .refl _ _

theorem State.startComplete_keeps {P : Prop} (s : State) (m : ModuleNo) :
    Keeps P s (s.startComplete m) := by
  unfold State.startComplete
  dsimp only
  have started := (Keeps.changeModule (P := P) s m fun x =>
    { x with state := .running, precharged := false, busForming := false }).trans
    (State.leaveUnit_keeps _ m)
  split
  · exact (started.trans (State.capacityChanged_keeps _ _)).trans (State.arbitrate_keeps _)
  · exact started.trans (State.arbitrate_keeps _)

theorem State.stopComplete_keeps {P : Prop} (s : State) (m : ModuleNo) :
    Keeps P s (s.stopComplete m) :=
  ((Keeps.changeModule _ _ _).trans (State.leaveUnit_keeps _ _)).trans (State.moduleLeft_keeps _ _ _)

theorem State.recover_keeps {P : Prop} (s : State) (m : ModuleNo) : Keeps P s (s.recover m) := by
  unfold State.recover
  split
  · exact (Keeps.changeModule _ _ _).trans (State.arbitrate_keeps _)
  · exact (Keeps.changeModule _ _ _).trans (.raise _ _ _ _ _)

theorem State.stoppingReport_keeps {P : Prop} (s : State) (m : ModuleNo) (r : ModuleReport) :
    Keeps P s (s.stoppingReport m r) := by
  unfold State.stoppingReport
  dsimp only
  split
  · split
    · exact State.stopComplete_keeps _ _
    · exact .refl _ _
  · split
    · exact .onModule _ _ _
    · exact .refl _ _

theorem State.judgeReport_keeps {P : Prop} (s : State) (m : ModuleNo) (r : ModuleReport) :
    Keeps P s (s.judgeReport m r) := by
  unfold State.judgeReport
  dsimp only
  split
  case h_3 => split <;> [exact State.recover_keeps _ _; exact .refl _ _]
  case h_8 => exact .onModule _ _ _
  case h_9 => split <;> [exact State.startComplete_keeps _ _; exact State.startFailed_keeps _ _ _]
  case h_12 => split <;> [exact State.stoppingReport_keeps _ _ _; exact State.moduleFaulted_keeps _ _ _]
  case h_13 => split <;> [exact State.stoppingReport_keeps _ _ _; exact State.moduleFaulted_keeps _ _ _]
  case h_5 => exact State.startFailed_keeps _ _ _
  case h_10 => exact State.stoppingReport_keeps _ _ _
  case h_11 => exact State.stoppingReport_keeps _ _ _
  case h_17 => exact State.moduleFaulted_keeps _ _ _
  case h_18 => exact State.moduleFaulted_keeps _ _ _
  all_goals exact .refl _ _

theorem State.copyReport_keeps {P : Prop} (s : State) (m : ModuleNo) (r : ModuleReport) :
    Keeps P s (s.copyReport m r) := by
  unfold State.copyReport
  dsimp only
  split
  · split
    · exact .onModule _ _ _
    · refine (Keeps.onModule s m fun y => y.copyReport r s.tb.run).trans ?_
      unfold State.ratingChanged
      split
      · exact State.capacityChanged_keeps _ _
      · exact State.servePool_keeps _ _
      all_goals exact .refl _ _
  · exact .onModule _ _ _

/-! ### Breaker lines -/

theorem State.closeConfirmed_keeps {P : Prop} {s : State} {o : Outlet} (kind : CloseKind)
    (h : P → (s.berth o).Sound → (s.berth o).sc.state = .closing ∧ (s.berth o).sy.close ≠ .inFlight) :
    Keeps P s (s.closeConfirmed o kind) := by
  have may : ∀ new : OutletState, new.beforeSession = false → P → (s.berth o).Sound →
      (s.berth o).MayMove new := fun new hnew p hb => by
    obtain ⟨hstate, hclose⟩ := h p hb
    refine hb.mayMove (fun _ => hb.inv.session (by rw [hstate]; rfl))
      (fun hn => by rw [hnew] at hn; cases hn) (by rintro rfl; cases hnew)
      (fun _ => .inr (.inr hclose)) (fun hw => by rw [hstate] at hw; cases hw)
      (fun _ => by rw [hstate]; exact nofun)
  unfold State.closeConfirmed
  dsimp only
  split
  · exact State.enterJudged_keeps _ (may _ rfl)
  · exact State.enter_keeps _ (may _ rfl)
  · exact State.enterJudged_keeps _ (may _ rfl)
  · have entered := State.enter_keeps (P := P) (new := .shoreSupply) 0 (may _ rfl)
    split
    · exact entered.trans (State.requestReturn_keeps _ _)
    · exact entered

theorem Synchroniser.confirm_close (y : Synchroniser) (now : RunCount) :
    (y.confirm now).close = .watching ∧ (y.confirm now).closeOutput = false := by
  unfold Synchroniser.confirm; split <;> exact ⟨rfl, rfl⟩

/-- A synchroniser without a close in flight or planned fits every state. -/
theorem Synchroniser.fits_watching {y : Synchroniser} (close : y.close = .watching)
    (output : y.closeOutput = false) (st : OutletState) : y.Fits st := by
  constructor <;> simp [close, output]

theorem State.confirmClose_keeps {P : Prop} {s : State} {o : Outlet}
    (h : P → (s.berth o).sc.state = .closing) : Keeps P s (s.confirmClose o) := by
  obtain ⟨hclose, houtput⟩ := (s.berth o).sy.confirm_close s.tb.run
  have confirmed : Keeps P s (s.onSy o fun y => y.confirm s.tb.run) :=
    .onSy fun _ _ => Synchroniser.fits_watching hclose houtput _
  have told : ∀ t : State, (t = s.onSy o fun y => y.confirm s.tb.run)
      ∨ (∃ m, t = (s.onSy o fun y => y.confirm s.tb.run).report .closeTimeOdd (.outlet o) (some m)) →
      Keeps P s ((t.onMt o Meter.countClose).closeConfirmed o (s.berth o).sy.kindInFlight) := by
    rintro t (rfl | ⟨m, rfl⟩)
    · refine (confirmed.trans (.onMt Meter.countClose_follows)).trans
        (State.closeConfirmed_keeps _ fun p _ => ?_)
      simp [State.onMt, h p, hclose]
    · refine ((confirmed.trans (.report _ _ _ _ _)).trans (.onMt Meter.countClose_follows)).trans
        (State.closeConfirmed_keeps _ fun p _ => ?_)
      simp [State.onMt, h p, hclose]
  unfold State.confirmClose
  dsimp only
  split
  · exact told _ (.inr ⟨_, rfl⟩)
  · exact told _ (.inl rfl)

theorem Synchroniser.Fits.takeUnwanted {y : Synchroniser} {st : OutletState} (h : y.Fits st)
    (now : RunCount) : (y.takeUnwanted now).Fits st := by
  have hcases : (y.takeUnwanted now).close = .watching
      ∨ (y.takeUnwanted now).close = y.close := by
    unfold Synchroniser.takeUnwanted
    dsimp only
    split
    · exact .inl rfl
    · exact .inr rfl
  have hsched : ∀ plan, y.close = .scheduled plan → (y.takeUnwanted now).close = .watching :=
    fun plan hp => by unfold Synchroniser.takeUnwanted; simp only [hp]
  constructor
  · intro plan hp
    rcases hcases with hc | hc
    · rw [hc] at hp; cases hp
    · rw [hc] at hp
      have := hsched plan hp
      rw [hc, hp] at this; cases this
  · intro hp
    rcases hcases with hc | hc
    · rw [hc] at hp; cases hp
    · exact h.inFlight (hc ▸ hp)
  · intro ho
    have hf := h.output ho
    unfold Synchroniser.takeUnwanted
    simp only [hf]

theorem State.unwantedClosure_keeps {P : Prop} (s : State) (o : Outlet) :
    Keeps P s (s.unwantedClosure o) :=
  (Keeps.onSy fun _ hb => hb.sy.takeUnwanted _).trans (.raise _ _ _ _ _)

theorem State.closureInTripped_keeps {P : Prop} {s : State} {o : Outlet}
    (h : (s.berth o).sc.state = .tripped) : Keeps P s (s.closureInTripped o) := by
  have driven : Keeps P s (s.onPr o fun p => p.closedInTripped s.tb.run) :=
    .onPr fun _ _ => by rw [h]; exact Protection.fits_tripped _ _
  unfold State.closureInTripped
  dsimp only
  split
  · exact driven.trans (State.complete_keeps _ _ _)
  · exact driven

theorem State.takeClosed_keeps {P : Prop} (s : State) (o : Outlet)
    (h : P → (s.berth o).sy.close = .inFlight → (s.berth o).sc.state = .closing) :
    Keeps P s (s.takeClosed o) := by
  unfold State.takeClosed
  dsimp only
  split
  · rename_i hc; exact State.confirmClose_keeps fun p => h p hc
  · split
    · exact State.unwantedClosure_keeps _ _
    · split
      · rename_i ht; exact State.closureInTripped_keeps ht
      · exact .refl _ _

theorem State.afterOpen_keeps {P : Prop} {s : State} {o : Outlet} : Keeps P s (s.afterOpen o) := by
  unfold State.afterOpen
  dsimp only
  split
  · rename_i h
    exact State.windDown_keeps fun _ hb => hb.mayWindDown (hb.inv.session (by rw [h]; rfl))
      fun hc => by rw [h] at hc; cases hc
  · exact State.tryClose_keeps _ _
  · rename_i h
    split
    · exact .refl _ _
    · rename_i hs
      refine State.moveTo_keeps _ fun _ hb => hb.mayMove ?_ ?_ ?_ ?_ ?_ ?_
      · split <;> exact nofun
      · exact fun _ => by simpa using hs
      · split <;> exact nofun
      · exact fun hc => by rw [h] at hc; cases hc
      · exact fun hc => by rw [h] at hc; cases hc
      · split <;> simp [OutletState.mode]
  · exact State.tryDeadBus_keeps _ _
  · exact State.tryDeadBus_keeps _ _
  all_goals exact .refl _ _

theorem State.closeFailed_keeps {P : Prop} {s : State} {o : Outlet}
    (h : P → (s.berth o).sc.state = .closing ∧ (s.berth o).sy.close ≠ .inFlight) :
    Keeps P s (s.closeFailed o) := by
  have may : ∀ new : OutletState, new.beforeSession = false → P → (s.berth o).Sound →
      (s.berth o).MayMove new := fun new hnew p hb => by
    obtain ⟨hstate, hclose⟩ := h p
    refine hb.mayMove (fun _ => hb.inv.session (by rw [hstate]; rfl))
      (fun hn => by rw [hnew] at hn; cases hn) (by rintro rfl; cases hnew)
      (fun _ => .inr (.inr hclose)) (fun hw => by rw [hstate] at hw; cases hw)
      (fun _ => by rw [hstate]; exact nofun)
  have back : Keeps P s (s.moveTo o .synchronising) := State.moveTo_keeps _ (may _ rfl)
  have wound : ∀ k : FaultKind,
      Keeps P s (((s.moveTo o .synchronising).raise k (.outlet o)).windDown o) := fun k => by
    refine (back.trans (.raise _ _ _ _ _)).trans (State.windDown_keeps fun _ hb => ?_)
    have hstate : (((s.moveTo o .synchronising).raise k (.outlet o)).berth o).sc.state
        = .synchronising := by rw [State.berth_raise, State.moveTo_state]
    exact hb.mayWindDown (hb.inv.session (by rw [hstate]; rfl)) fun hc => by rw [hstate] at hc; cases hc
  unfold State.closeFailed
  dsimp only
  split
  · exact State.windDown_keeps (may _ rfl)
  · split
    · exact wound _
    · split
      · exact wound _
      · exact back

theorem State.pilotOpened_keeps {P : Prop} (s : State) (o : Outlet) : Keeps P s (s.pilotOpened o) := by
  have wind : ∀ {t : State}, (t.berth o).sc.state = .energising ∨ (t.berth o).sc.state = .synchronising →
      Keeps P t (t.windDown o) := fun {t} h => State.windDown_keeps fun _ hb =>
    hb.mayWindDown (hb.inv.session (by rcases h with h | h <;> rw [h] <;> rfl))
      fun hc => by rcases h with h | h <;> rw [h] at hc <;> cases hc
  have dorm : ∀ old : OutletState, (s.berth o).sc.state = old → old.beforeSession = true →
      Keeps P s (s.moveTo o .dormant) := fun old h hold => State.moveTo_keeps _ fun _ hb =>
    hb.mayMove nofun (fun _ => hb.inv.noSession (by rw [h]; exact hold)) nofun
      (fun hc => by rw [hc] at h; subst h; cases hold)
      (fun hc => by rw [hc] at h; subst h; cases hold) (by simp [OutletState.mode])
  unfold State.pilotOpened
  dsimp only
  split
  case h_4 h => exact dorm _ h rfl
  case h_5 h => exact dorm _ h rfl
  case h_6 h => exact wind (.inl h)
  case h_7 h => exact wind (.inr h)
  case h_12 h =>
    split
    · rename_i hs
      refine (State.complete_keeps _ _ _).trans (State.windDown_keeps fun _ hb => ?_)
      have htold : ((s.complete o .pilotOpen).berth o).sc = (s.berth o).sc := by
        unfold State.complete
        dsimp only
        rw [if_neg (by rw [h]; decide)]
        split
        · unfold State.laterCause
          split
          · rfl
          · rw [State.berth_onPr_self, State.berth_raise]
        · rfl
      exact hb.mayWindDown (by rw [htold]; exact hs) fun hc => by rw [htold, h] at hc; cases hc
    · exact State.complete_keeps _ _ _
  case h_8 | h_9 | h_10 | h_11 => exact State.complete_keeps _ _ _
  all_goals exact .refl _ _

end Sys2Proof.Machine
end

