-- ==== Sys2Proof/Proofs/KeepsLink.lean ====
section
/-! PROOFS. What the operations of the ship link, and of the requests of the ship's stations, keep
(`Keeps`). -/

namespace Sys2Proof.Machine

/-! ### The leader's own operations -/

theorem State.resume_keeps {P : Prop} (s : State) (o : Outlet) : Keeps P s (s.resume o) :=
  .sl fun _ => Berth.resume_rest _ _

theorem State.noteHeld_keeps {P : Prop} (s : State) (o : Outlet) (held : Bool) :
    Keeps P s (s.noteHeld o held) := .onSl _ _ _

theorem State.sendEnlisted_keeps {P : Prop} (s : State) (o : Outlet) (a : Nat) (e : Enlistment) :
    Keeps P s (s.sendEnlisted o a e) := .onSl _ _ _

theorem State.handLoss_keeps {P : Prop} (s : State) (o : Outlet) (k : Option StationKind) :
    Keeps P s (s.handLoss o k) := by
  unfold State.handLoss
  split
  · exact State.complete_keeps _ _ _
  · exact (Keeps.onSl _ _ _).trans (State.judgeGenerators_keeps _ _)
  all_goals exact .refl _ _

theorem State.miss_keeps {P : Prop} (s : State) (o : Outlet) (a : Nat) (checked : Bool) :
    Keeps P s (s.miss o a checked) := by
  unfold State.miss
  split
  · exact .refl _ _
  · dsimp only
    split
    · exact (Keeps.onSl _ _ _).trans (State.handLoss_keeps _ _ _)
    · exact .onSl _ _ _

theorem State.makeDuplicate_keeps {P : Prop} (s : State) (o : Outlet) (e : Station) :
    Keeps P s (s.makeDuplicate o e) :=
  ((Keeps.onSl _ _ _).trans (.raise _ _ _ _ _)).trans (State.handLoss_keeps _ _ _)

theorem State.refuseStation_keeps {P : Prop} (s : State) (o : Outlet) (a : Nat) :
    Keeps P s (s.refuseStation o a) :=
  ((Keeps.report _ _ _ _ _).trans (.onSl _ _ _)).trans (State.sendEnlisted_keeps _ _ _ _)

theorem State.foundShared_keeps {P : Prop} (s : State) (o : Outlet) (a : Nat) :
    Keeps P s (s.foundShared o a) := by
  unfold State.foundShared
  dsimp only
  split
  · split
    · exact State.sendEnlisted_keeps _ _ _ _
    · exact (State.makeDuplicate_keeps _ _ _).trans (State.sendEnlisted_keeps _ _ _ _)
  · split
    · exact State.refuseStation_keeps _ _ _
    · exact ((Keeps.onSl _ _ _).trans (.raise _ _ _ _ _)).trans (State.sendEnlisted_keeps _ _ _ _)

theorem State.countCollision_keeps {P : Prop} (s : State) (o : Outlet) (src : Option Nat) :
    Keeps P s (s.countCollision o src) := by
  unfold State.countCollision
  split
  · exact .refl _ _
  · dsimp only
    split
    · exact ((Keeps.onSl _ _ _).trans (.onSl _ _ _)).trans (State.foundShared_keeps _ _ _)
    · exact .onSl _ _ _

theorem State.collision_keeps {P : Prop} (s : State) (o : Outlet) (src : Option Nat) :
    Keeps P s (s.collision o src) := by
  unfold State.collision
  dsimp only
  split
  · exact State.countCollision_keeps _ _ _
  · exact (State.countCollision_keeps _ _ _).trans (State.resume_keeps _ _)

theorem State.noAnswer_keeps {P : Prop} (s : State) (o : Outlet) : Keeps P s (s.noAnswer o) := by
  refine .sl fun b => ?_
  dsimp only
  split
  · rw [Berth.beginCycle_rest]
  all_goals rfl

theorem State.enlistStation_keeps {P : Prop} (s : State) (o : Outlet) (a : Nat) (k : StationKind)
    (id : BitVec 32) : Keeps P s (s.enlistStation o a k id) := by
  unfold State.enlistStation
  refine Keeps.trans ?_ (State.sendEnlisted_keeps _ _ _ _)
  split
  · exact (Keeps.onSl _ _ _).trans (.onSc rfl rfl rfl rfl)
  · exact .onSl _ _ _

theorem State.answer_keeps {P : Prop} (s : State) (o : Outlet) (a : Nat) (k : StationKind)
    (id : BitVec 32) : Keeps P s (s.answer o a k id) := by
  unfold State.answer
  refine (Keeps.onSl s o ShipLink.settleCount).trans ?_
  dsimp only
  split
  · split
    · exact State.enlistStation_keeps _ _ _ _ _
    · exact State.refuseStation_keeps _ _ _
  · split
    · exact State.sendEnlisted_keeps _ _ _ _
    · split
      · split
        · exact .sl fun _ => rfl
        · exact State.sendEnlisted_keeps _ _ _ _
      · exact (State.makeDuplicate_keeps _ _ _).trans (State.sendEnlisted_keeps _ _ _ _)

/-! ### The SCP's requests -/

/-- An outlet in CABLE_PROVEN, where RG is in OFF and no session is open, may hold a new declaration. -/
theorem Berth.Sound.declare {b : Berth} (h : b.Sound) (state : b.sc.state = .cableProven)
    {r : OutletRecord} (hstate : r.state = b.sc.state) (hsession : r.session = b.sc.session) :
    ({ b with sc := r } : Berth).Sound := by
  have hmode : b.rg.mode = .off := by rw [h.inv.mode, state]; rfl
  have hnone : b.sc.session = none := h.inv.noSession (by rw [state]; rfl)
  refine ⟨{ h.inv with
    session := fun hs => ?_, noSession := fun _ => hsession.trans hnone
    meter := by show b.mt.isSome = _; rw [hsession]; exact h.inv.meter
    declared := fun hs => ?_, waitsDeclared := fun hs => ?_
    scheduled := fun p hp => hstate.trans (h.inv.scheduled p hp)
    inFlight := fun hp => hstate.trans (h.inv.inFlight hp)
    mode := by rw [hstate]; exact h.inv.mode
    drive := fun hd => by rw [hstate]; exact h.inv.drive hd }, fun hm => absurd hmode hm⟩
  · rw [hstate, state] at hs; cases hs
  · rw [hsession, hnone] at hs; cases hs
  · rw [hstate, state] at hs; cases hs

theorem State.takeConnect_keeps {P : Prop} {s : State} {o : Outlet} (d : Option Declaration)
    (state : (s.berth o).sc.state = .cableProven) : Keeps P s (s.takeConnect o d) := by
  unfold State.takeConnect
  split
  · rename_i d' _
    have held : Keeps P s (s.onSc o fun r =>
        { r with declaration := some d', target := capacityTarget d'.kva s.account.headroom
                 denial := none, deny := false }) :=
      .onBerth (.of_same (fun _ hb => hb.declare state rfl rfl) rfl rfl rfl)
    refine (held.trans (State.moveTo_keeps 0 fun _ hb => ?_)).trans (.setPass _ _ _)
    have hstate : (((s.onSc o fun r =>
        { r with declaration := some d', target := capacityTarget d'.kva s.account.headroom
                 denial := none, deny := false }).berth o)).sc.state = .cableProven := by
      rw [State.berth_onSc_self]; exact state
    exact hb.mayMove nofun (fun _ => hb.inv.noSession (by rw [hstate]; rfl))
      (fun _ => by rw [State.berth_onSc_self]; rfl) (fun hc => by rw [hstate] at hc; cases hc)
      (fun hc => by rw [hstate] at hc; cases hc) (by simp [OutletState.mode])
  · exact .onSc rfl rfl rfl rfl

theorem State.shipConnect_keeps {P : Prop} (s : State) (o : Outlet) (d : Option Declaration) :
    Keeps P s (s.shipConnect o d) := by
  unfold State.shipConnect
  split
  · rename_i h
    refine Keeps.trans ?_ (State.takeConnect_keeps d (by rw [State.berth_onSc_self]; exact h))
    exact .onSc rfl rfl rfl rfl
  · exact .refl _ _

/-- An outlet in ENERGISING or SYNCHRONISING winds down. -/
theorem State.windDown_early_keeps {P : Prop} {s : State} {o : Outlet}
    (h : (s.berth o).sc.state = .energising ∨ (s.berth o).sc.state = .synchronising) :
    Keeps P s (s.windDown o) :=
  State.windDown_keeps fun _ hb =>
    hb.mayWindDown (hb.inv.session (by rcases h with h | h <;> rw [h] <;> rfl))
      fun hc => by rcases h with h | h <;> rw [h] at hc <;> cases hc

/-- AWAIT_AUTH falls back to CABLE_PROVEN. -/
theorem State.moveTo_proven_keeps {P : Prop} {s : State} {o : Outlet}
    (h : (s.berth o).sc.state = .awaitAuth) : Keeps P s (s.moveTo o .cableProven) :=
  State.moveTo_keeps 0 fun _ hb =>
    hb.mayMove nofun (fun _ => hb.inv.noSession (by rw [h]; rfl)) nofun
      (fun hc => by rw [h] at hc; cases hc) (fun hc => by rw [h] at hc; cases hc)
      (by simp [OutletState.mode])

/-- PARALLEL_IN gives way to PARALLEL_OUT. -/
theorem State.enter_parallelOut_keeps {P : Prop} {s : State} {o : Outlet}
    (h : (s.berth o).sc.state = .parallelIn) : Keeps P s (s.enter o .parallelOut) :=
  State.enter_keeps 0 fun _ hb => hb.mayGoOn_from h (by decide) rfl (by decide)

theorem State.shipCancel_keeps {P : Prop} (s : State) (o : Outlet) : Keeps P s (s.shipCancel o) := by
  unfold State.shipCancel
  split
  case h_1 h => exact State.moveTo_proven_keeps h
  case h_2 h => exact State.windDown_early_keeps (.inl h)
  case h_3 h => exact State.windDown_early_keeps (.inr h)
  case h_4 => exact .onSc rfl rfl rfl rfl
  case h_5 h => exact State.enter_parallelOut_keeps h
  case h_6 => exact State.requestReturn_keeps _ _
  all_goals exact .refl _ _

theorem State.shipReturn_keeps {P : Prop} (s : State) (o : Outlet) : Keeps P s (s.shipReturn o) := by
  unfold State.shipReturn
  split
  case h_1 h => exact State.enter_parallelOut_keeps h
  case h_2 => exact State.requestReturn_keeps _ _
  all_goals exact .refl _ _

/-- A step taken only under a condition. -/
theorem Keeps.thenIf {P : Prop} {s t u : State} (c : Prop) [Decidable c] (h : Keeps P s t)
    (g : Keeps P t u) : Keeps P s (if c then u else t) := by
  split
  · exact h.trans g
  · exact h

theorem State.takeScpStatus_keeps {P : Prop} (s : State) (o : Outlet) (st : ShipStatus) :
    Keeps P s (s.takeScpStatus o st) := by
  unfold State.takeScpStatus
  refine .thenIf _ (.thenIf _ (.thenIf _ ?_ (State.shipConnect_keeps _ _ _))
    (State.shipCancel_keeps _ _)) (State.shipReturn_keeps _ _)
  exact .onSc rfl rfl rfl rfl

/-! ### Replies and frames -/

theorem State.goodReply_keeps {P : Prop} (s : State) (o : Outlet) (a : Nat) (st : ShipStatus) :
    Keeps P s (s.goodReply o a st) :=
  .thenIf _ (.thenIf _ (.onSl _ _ _) (State.complete_keeps _ _ _)) (State.takeScpStatus_keeps _ _ _)

theorem State.reply_keeps {P : Prop} (s : State) (o : Outlet) (f : LeaderFrame) (h : Heard) :
    Keeps P s (s.reply o f h) := by
  have missed : ∀ a checked, Keeps P s ((s.miss o a checked).resume o) := fun a checked =>
    (State.miss_keeps _ _ _ _).trans (State.resume_keeps _ _)
  have replied : ∀ src a st, Keeps P s
      (if src = a then (s.goodReply o a st).resume o else (s.miss o a false).resume o) :=
    fun src a st => by
      split
      · exact (State.goodReply_keeps _ _ _ _).trans (State.resume_keeps _ _)
      · exact missed _ _
  have answered : ∀ src k id, Keeps P s
      (if 1 ≤ src ∧ src ≤ 30 then s.answer o src k id else s.noAnswer o) := fun src k id => by
    split
    · exact State.answer_keeps _ _ _ _ _
    · exact State.noAnswer_keeps _ _
  unfold State.reply
  split
  · exact answered _ _ _
  · exact answered _ _ _
  · exact State.collision_keeps _ _ _
  · exact State.collision_keeps _ _ _
  · exact State.noAnswer_keeps _ _
  · exact State.noAnswer_keeps _ _
  · exact replied _ _ _
  · exact replied _ _ _
  · exact missed _ _
  · exact missed _ _
  · exact missed _ _
  · exact missed _ _
  all_goals exact .refl _ _

theorem State.takeGenerators_keeps {P : Prop} (s : State) (o : Outlet) (items : List GenItem) :
    Keeps P s (s.takeGenerators o items) := by
  unfold State.takeGenerators
  dsimp only
  split
  · exact .onSl _ _ _
  · exact (Keeps.onSl _ _ _).trans (State.judgeGenerators_keeps _ _)

theorem State.cutFrame_keeps {P : Prop} (s : State) (o : Outlet) (cut : LineCut) :
    Keeps P s (s.cutFrame o cut) := by
  unfold State.cutFrame
  split
  · unfold State.cutReply
    split
    · exact State.miss_keeps _ _ _ _
    · exact State.miss_keeps _ _ _ _
    · exact State.countCollision_keeps _ _ _
    · exact State.countCollision_keeps _ _ _
    all_goals exact .refl _ _
  · exact .onSl _ _ _
  all_goals exact .refl _ _

end Sys2Proof.Machine
end

