-- ==== Sys2Proof/Proofs/Passes.lean ====
section
/-! PROOFS. What the evaluation passes at the end of a step keep (`Opens`), and what a whole command keeps
(`Commits`): a pass may open a session and so replace what an outlet holds, but it ends none. -/

namespace Sys2Proof.Machine

/-! ### Evaluation passes -/

/-- What a sequence of evaluations keeps. -/
structure Opens (s t : State) : Prop where
  sound : s.Sound → t.Sound
  billing : BillingInv s → BillingInv t
  energy : EnergyInv s → EnergyInv t
  limit : t.account.limit = s.account.limit
  claims : t.claims ≤ s.claims ∨ t.claims ≤ t.account.limit
  standing : Standing s t
  metering : t.metering = s.metering
  ends : ∀ o, (t.berth o).sc.session = none → (s.berth o).sc.session = none
    ∧ (t.berth o).mt = (s.berth o).mt
    ∧ (t.berth o).lines.breakerClosed = (s.berth o).lines.breakerClosed

theorem Opens.refl (s : State) : Opens s s :=
  ⟨id, id, id, rfl, .inl le_rfl, .of_same rfl rfl rfl, rfl, fun _ h => ⟨h, rfl, rfl⟩⟩

theorem Opens.trans {s t u : State} (h : Opens s t) (g : Opens t u) : Opens s u := by
  refine ⟨fun x => g.sound (h.sound x), fun x => g.billing (h.billing x),
    fun x => g.energy (h.energy x), g.limit.trans h.limit, ?_, h.standing.trans g.standing,
    g.metering.trans h.metering, fun o hn => ?_⟩
  · have hg := g.claims
    have hh := h.claims
    have hl := g.limit
    omega
  · obtain ⟨g1, g2, g3⟩ := g.ends o hn
    obtain ⟨h1, h2, h3⟩ := h.ends o g1
    exact ⟨h1, g2.trans h2, g3.trans h3⟩

/-- What keeps everything, and sessions, meters and breaker feedbacks as they are. -/
theorem Keeps.opens {s t : State} (h : Keeps s.Sound s t) (metering : t.metering = s.metering)
    (same : ∀ o, (t.berth o).sc.session = (s.berth o).sc.session
      ∧ (t.berth o).mt = (s.berth o).mt
      ∧ (t.berth o).lines.breakerClosed = (s.berth o).lines.breakerClosed) : Opens s t :=
  ⟨fun x => h.sound x x, h.billing, h.energy, h.limit, h.claims, h.standing, metering,
    fun o hn => by obtain ⟨hs, hm, hb⟩ := same o; exact ⟨hs ▸ hn, hm, hb⟩⟩

theorem Opens.foldl {α : Type} (f : State → α → State) (h : ∀ s a, Opens s (f s a))
    (l : List α) (s : State) : Opens s (l.foldl f s) := by
  induction l generalizing s with
  | nil => exact .refl _
  | cons a l ih => exact (h s a).trans (ih _)

theorem State.moveTo_session (s : State) (o p : Outlet) (new : OutletState) (pSet : Nat) :
    ((s.moveTo o new pSet).berth p).sc.session = (s.berth p).sc.session
      ∧ ((s.moveTo o new pSet).berth p).mt = (s.berth p).mt
      ∧ ((s.moveTo o new pSet).berth p).lines.breakerClosed = (s.berth p).lines.breakerClosed := by
  by_cases hp : p = o
  · subst hp
    have h := s.moveTo_berth_self p new pSet
    rw [h.sc, h.mt, h.lines, Berth.takeState_sc, Berth.takeState_mt, Berth.takeState_breaker]
    exact ⟨rfl, rfl, rfl⟩
  · have h := s.moveTo_berth_ne new pSet hp
    rw [h.sc, h.mt, h.lines]
    exact ⟨rfl, rfl, rfl⟩

theorem State.onSc_session {s : State} {o : Outlet} {f : OutletRecord → OutletRecord}
    (h : (f (s.berth o).sc).session = (s.berth o).sc.session) (p : Outlet) :
    ((s.onSc o f).berth p).sc.session = (s.berth p).sc.session
      ∧ ((s.onSc o f).berth p).mt = (s.berth p).mt
      ∧ ((s.onSc o f).berth p).lines.breakerClosed = (s.berth p).lines.breakerClosed := by
  refine ⟨?_, by rw [State.mt_onSc], by rw [State.lines_onSc]⟩
  by_cases hp : p = o
  · subst hp; rw [State.berth_onSc_self]; exact h
  · rw [State.berth_onSc_ne _ _ hp]

theorem State.keepWaiting_opens (s : State) (o : Outlet) (w : WaitingReason) :
    Opens s (s.keepWaiting o w) :=
  Keeps.opens (.onSc rfl rfl rfl rfl) rfl (State.onSc_session rfl)

theorem State.refuseWaiting_opens {s : State} {o : Outlet} (h : (s.berth o).sc.state = .awaitAuth) :
    Opens s (s.refuseWaiting o) := by
  have moved : Opens s (s.moveTo o .cableProven) :=
    Keeps.opens (State.moveTo_proven_keeps h) (State.moveTo_metering _ _ _ _) fun p =>
      s.moveTo_session o p _ _
  exact moved.trans (Keeps.opens (.onSc rfl rfl rfl rfl) rfl (State.onSc_session rfl))

/-- The session that an outlet's declaration opens (R89). -/
def State.sessionFor (s : State) (d : Declaration) (place : Nat) : Session :=
  { number := s.account.sessionCounter, hull := d.hull, plan := s.account.planAt place
    claim := d.kw, opened := s.now }

/-- The state with an outlet's session and meter opened, before the outlet enters ENERGISING (R89). -/
def State.fillSession (s : State) (o : Outlet) (d : Declaration) (place : Nat) : State :=
  ((({ s with account := { s.account with
          places := s.account.places.set place none
          sessionCounter := nextSession s.account.sessionCounter } } : State).onSc o fun r =>
      { r with session := some (s.sessionFor d place) }).openMeter o (s.sessionFor d place)).onMu o
    fun m => { m with clipReported := false }

theorem State.openSession_eq (s : State) (o : Outlet) (d : Declaration) (place : Nat) :
    s.openSession o d place = ((s.fillSession o d place).moveTo o .energising).report .sessionOpen
      (.outlet o) (some s.account.sessionCounter) := rfl

/-- The meter of a session that opens (R140). -/
def State.firstMeter (s : State) (d : Declaration) (place : Nat) : Meter :=
  s.newMeter (s.sessionFor d place)

theorem State.fillSession_berth_self (s : State) (o : Outlet) (d : Declaration) (place : Nat) :
    (s.fillSession o d place).berth o = { s.berth o with
      sc := { (s.berth o).sc with session := some (s.sessionFor d place) }
      mu := { (s.berth o).mu with clipReported := false }
      mt := some (s.firstMeter d place) } := by
  cases o <;> rfl

theorem State.fillSession_berth_ne (s : State) {o p : Outlet} (d : Declaration) (place : Nat)
    (h : p ≠ o) : (s.fillSession o d place).berth p = s.berth p := by
  unfold State.fillSession State.openMeter
  rw [State.berth_onMu_ne _ _ h, State.berth_onBerth_ne _ _ h, State.berth_onSc_ne _ _ h]
  rfl

theorem Energy.zero_fits (mode : Rounding) :
    Energy.zero.Conserved ∧ Energy.zero.ResidualFits mode := by
  cases mode <;> simp [Energy.Conserved, Energy.ResidualFits, Energy.zero]

/-- An outlet in AWAIT_AUTH whose session has been opened may enter ENERGISING (R89). -/
theorem Berth.Sound.filled_mayMove {b : Berth} (h : b.Sound) (state : b.sc.state = .awaitAuth)
    (x : Session) (m : Meter) (mu : Measures) :
    ({ b with sc := { b.sc with session := some x }, mu, mt := some m } : Berth).MayMove
      .energising where
  session _ := rfl
  noSession := nofun
  meter := rfl
  declared _ := h.inv.waitsDeclared state
  waitsDeclared := nofun
  inFlight hc := by have := h.inv.inFlight hc; rw [state] at this; cases this
  output := h.inv.output
  pSetAbsent := h.inv.pSetAbsent
  pSetBound := h.inv.pSetBound
  drive hd := by
    rcases h.inv.drive hd with ht | ⟨hw, _⟩
    · exact .inl ht
    · rw [state] at hw; cases hw
  targets hm := (h.targets hm).congr rfl rfl rfl rfl
  leavesOff := by simp [OutletState.mode]

theorem State.openSession_opens {s : State} {o : Outlet} {d : Declaration} {place : Nat}
    (state : (s.berth o).sc.state = .awaitAuth) (budget : (d.kw : Int) ≤ s.remaining)
    (spare : 1 ≤ s.spare) : Opens s (s.openSession o d place) := by
  have hself := s.fillSession_berth_self o d place
  have hother := fun p (hp : p ≠ o) => s.fillSession_berth_ne d place hp
  have rest : Keeps False (s.fillSession o d place) (s.openSession o d place) := by
    rw [State.openSession_eq]
    exact (State.moveTo_keeps 0 False.elim).trans (.report _ _ _ _ _)
  have hsessions : (s.fillSession o d place).openSessions ≤ s.openSessions + 1 := by
    have := State.openSessions_replace (s := s) (t := s.fillSession o d place) (o := o)
      fun p hp => by rw [hother p hp]
    have hle := Bool.toNat_le ((s.fillSession o d place).berth o).mt.isSome
    omega
  refine ⟨fun hs => ?_, fun hb => rest.billing ?_, fun he => rest.energy ?_, rest.limit, ?_,
    Standing.trans (t := s.fillSession o d place) (.of_same rfl rfl rfl) rest.standing, ?_, fun p hn => ?_⟩
  · rw [State.openSession_eq]
    refine (Keeps.report True _ _ _ _).sound trivial (State.moveTo_sound 0 (fun p hp => ?_) ?_)
    · rw [hother p hp]; exact hs p
    · rw [hself]; exact (hs o).filled_mayMove state _ _ _
  · have hroom := State.spare_eq s spare
    refine ⟨hb.ascending, hb.below, ?_⟩
    have : (s.fillSession o d place).metering = s.metering := rfl
    rw [this]
    omega
  · intro p m hm
    by_cases hp : p = o
    · subst hp
      rw [hself] at hm
      obtain rfl := Option.some.inj hm
      exact ⟨Energy.zero_fits _, Energy.zero_fits _⟩
    · rw [hother p hp] at hm; exact he p m hm
  · have hclaims := State.claims_replace (s := s) (t := s.fillSession o d place) (o := o)
      fun p hp => by rw [hother p hp]
    have hclaim : ((s.fillSession o d place).berth o).claim = d.kw := by rw [hself]; rfl
    have hlimit : (s.fillSession o d place).account.limit = s.account.limit := rfl
    have hrest := rest.claims
    have hl := rest.limit
    unfold State.remaining at budget
    right
    omega
  · rw [State.openSession_eq]
    show ((s.fillSession o d place).moveTo o .energising).metering = _
    rw [State.moveTo_metering]
    rfl
  · rw [State.openSession_eq, State.berth_report] at hn ⊢
    obtain ⟨hs, hm, hl⟩ := (s.fillSession o d place).moveTo_session o p .energising 0
    rw [hs] at hn
    rw [hm, hl]
    by_cases hp : p = o
    · subst hp; rw [hself] at hn; cases hn
    · rw [hother p hp] at hn ⊢; exact ⟨hn, rfl, rfl⟩

theorem State.evaluate_opens (s : State) (o : Outlet) : Opens s (s.evaluate o) := by
  unfold State.evaluate
  dsimp only
  split
  · rename_i d hstate _
    have hstate := of_decide_eq_true hstate
    split
    · exact State.refuseWaiting_opens hstate
    · split
      · exact State.keepWaiting_opens _ _ _
      · split
        · exact State.keepWaiting_opens _ _ _
        · split
          · exact State.keepWaiting_opens _ _ _
          · exact State.openSession_opens hstate (by omega) (by omega)
  · exact .refl _

theorem Opens.setPass (s : State) (due : Bool) : Opens s { s with passDue := due } :=
  Keeps.opens (.setPass _ _ _) rfl fun _ => ⟨rfl, rfl, rfl⟩

theorem State.passes_opens (n : Nat) (s : State) : Opens s (s.passes n) := by
  induction n generalizing s with
  | zero => exact .setPass _ _
  | succ n ih =>
    unfold State.passes
    split
    · exact ((Opens.setPass s false).trans (.foldl _ State.evaluate_opens _ _)).trans (ih _)
    · exact .refl _

theorem State.settle_opens (s : State) : Opens s s.settle := State.passes_opens _ _

/-- A change outside the outlets, the billing queue and the import limit. -/
theorem Opens.of_same {s t : State} (berths : t.berths = s.berths) (metering : t.metering = s.metering)
    (limit : t.account.limit = s.account.limit) (standing : Standing s t) : Opens s t :=
  Keeps.opens (.of_same berths metering limit standing) metering fun o => by
    have : t.berth o = s.berth o := by unfold State.berth; rw [berths]
    rw [this]; exact ⟨rfl, rfl, rfl⟩

/-! ### Commands -/

/-- What every command keeps. -/
structure Holds (s t : State) : Prop where
  sound : s.Sound → t.Sound
  billing : BillingInv s → BillingInv t
  energy : EnergyInv s → EnergyInv t
  events : EventInv s → EventInv t
  clock : ClockInv s → ClockInv t
  pending : t.pending = s.pending
  claims : t.claims ≤ s.claims ∨ t.claims ≤ t.account.limit

/-- A session that ends, ends with its breaker open, and billed (R98, R152). -/
def EndsBilled (s t : State) : Prop :=
  ∀ o m, (s.berth o).sc.session.isSome = true → (s.berth o).mt = some m →
    (t.berth o).sc.session = none →
    (t.berth o).lines.breakerClosed = false ∧ (t.berth o).mt = none ∧ t.Billed o m.session

/-- What every command but SUPPLY_ON and CLEAR_FAULTS keeps. -/
structure Commits (s t : State) : Prop extends Holds s t where
  flags : s.fe.flags &&& t.fe.flags = s.fe.flags
  ends : EndsBilled s t

theorem State.Owes.endsBilled {t : State} {o : Outlet} {n : Nat} (h : t.Owes o n)
    (hn : (t.berth o).sc.session = none) :
    (t.berth o).lines.breakerClosed = false ∧ (t.berth o).mt = none ∧ t.Billed o n := by
  rcases h with ⟨hs, _⟩ | ⟨hc, hb⟩
  · rw [hn] at hs; cases hs
  · obtain ⟨hm, hopen⟩ := hc hn
    exact ⟨hopen, hm, hb⟩

theorem Keeps.commits {s t : State} (h : Keeps s.Sound s t) : Commits s t where
  sound x := h.sound x x
  billing := h.billing
  energy := h.energy
  events := h.standing.events
  clock := h.standing.clock
  pending := h.standing.pending
  claims := h.claims
  flags := h.standing.flags
  ends o m hs hm hn := (h.owes o m.session (.inl ⟨hs, m, hm, rfl⟩)).endsBilled hn

theorem Commits.refl (s : State) : Commits s s := (Keeps.refl _ s).commits

/-- A command's operations, followed by evaluation passes. -/
theorem Commits.thenOpens {s t u : State} (h : Commits s t) (g : Opens t u) : Commits s u where
  sound x := g.sound (h.sound x)
  billing x := g.billing (h.billing x)
  energy x := g.energy (h.energy x)
  events x := g.standing.events (h.events x)
  clock x := g.standing.clock (h.clock x)
  pending := g.standing.pending.trans h.pending
  claims := by
    have hg := g.claims
    have hh := h.claims
    have hl := g.limit
    omega
  flags := and_eq_left_trans h.flags g.standing.flags
  ends o m hs hm hn := by
    obtain ⟨hsession, hmt, hlines⟩ := g.ends o hn
    obtain ⟨hopen, hnone, r, hr⟩ := h.ends o m hs hm hsession
    exact ⟨hlines.trans hopen, hmt.trans hnone, r, by rw [g.metering]; exact hr⟩

theorem Commits.settle {s t : State} (h : Commits s t) : Commits s t.settle :=
  h.thenOpens (State.settle_opens t)

/-- Operations after a change outside the outlets. -/
theorem Commits.before {s t u : State} (first : Commits s t)
    (berths : t.berths = s.berths) (h : Commits t u) : Commits s u where
  sound x := h.sound (first.sound x)
  billing x := h.billing (first.billing x)
  energy x := h.energy (first.energy x)
  events x := h.events (first.events x)
  clock x := h.clock (first.clock x)
  pending := h.pending.trans first.pending
  claims := by
    have : t.claims = s.claims := by unfold State.claims; rw [berths]
    have := h.claims
    omega
  flags := and_eq_left_trans first.flags h.flags
  ends o m hs hm hn := by
    have hb : t.berth o = s.berth o := by unfold State.berth; rw [berths]
    exact h.ends o m (by rwa [hb]) (by rwa [hb]) hn

/-- A change outside the outlets and the billing queue, the flags standing. -/
theorem Commits.of_same {s t : State} (berths : t.berths = s.berths) (metering : t.metering = s.metering)
    (events : EventInv s → EventInv t) (clock : ClockInv s → ClockInv t)
    (pending : t.pending = s.pending) (flags : s.fe.flags &&& t.fe.flags = s.fe.flags) :
    Commits s t := by
  have hb : ∀ o, t.berth o = s.berth o := fun o => by unfold State.berth; rw [berths]
  refine ⟨⟨fun hs o => by rw [hb]; exact hs o, fun h => ?_, fun h o m => ?_, events, clock, pending,
    .inl ?_⟩, flags, fun o m hs _ hn => ?_⟩
  · exact h.of_same metering (le_of_eq (State.openSessions_congr fun o => by rw [hb]))
  · rw [hb, metering]; exact h o m
  · exact State.claims_le_of_berths fun o => by rw [hb]
  · rw [hb] at hn; rw [hn] at hs; cases hs

/-- A good frame taken as a request keeps what its judgement keeps, and one turned away everything. -/
theorem State.request_commits {s : State} (kind tag : Byte) {judge : State → Verdict}
    (h : Commits s (judge s).1) : Commits s (s.request kind tag judge) := by
  unfold State.request
  split
  · exact .of_same rfl rfl id id rfl BitVec.and_self
  · exact h.thenOpens (.of_same rfl rfl rfl (.of_same rfl rfl rfl))

end Sys2Proof.Machine
end

