-- ==== Sys2Proof/Proofs/Commands.lean ====
section
/-! PROOFS. What every command keeps (`Commits`): one lemma per group of commands, and the rules of the whole
machine that follow. -/

namespace Sys2Proof.Machine

/-- An outcome's next state. -/
theorem next_inj {a t : State} {p : State → Prop}
    (h : Host.Outcome.next a = (.next t : Host.Outcome State Fault Refusal)) (g : p a) : p t := by
  cases h; exact g

/-- A command that acts under a condition alone. -/
theorem Commits.thenIf {s t : State} (c : Prop) [Decidable c] (h : c → Commits s t) :
    Commits s (if c then t else s) := by
  split
  · rename_i hc; exact h hc
  · exact .refl _

/-! ### The timebase -/

/-- A change of the timebase that keeps the range of the sub-second count. -/
theorem Keeps.onTb {P : Prop} {s : State} {tb : Timebase} (h : ClockInv s → tb.subSecond < 1000000) :
    Keeps P s { s with tb := tb } :=
  .of_same rfl rfl rfl ⟨id, BitVec.and_self, rfl, h⟩

theorem State.deliverTick_keeps {P : Prop} (s : State) : Keeps P s s.deliverTick :=
  Keeps.trans (t := { s with account := s.account.expire s.tb.seconds.toNat })
    (.of_same rfl rfl rfl (.of_same rfl rfl rfl)) (State.meterTick_keeps _)

theorem State.secondCompletes_keeps {P : Prop} (s : State) : Keeps P s s.secondCompletes :=
  (Keeps.onTb (tb := s.tb.completeSecond) fun _ => Nat.zero_lt_succ _).trans
    (State.deliverTick_keeps _)

theorem execQualificationWindowEnd_commits {s t : State} {count : Nat}
    (h : execQualificationWindowEnd count s = .next t) : Commits s t := by
  refine next_inj h (.thenIf _ fun _ => Keeps.commits ?_)
  have timed : ∀ tb : Timebase, tb.subSecond = s.tb.subSecond →
      Keeps s.Sound s { s with tb := tb } := fun tb hs => .onTb fun hc => hs.symm ▸ hc
  dsimp only
  split
  · exact (timed (s.tb.window count).enterXo rfl).trans (State.noteQuality_keeps _)
  · split
    · split
      · exact (timed (s.tb.window count).failXo rfl).trans (.raise _ _ _ _ _)
      · exact timed (s.tb.window count).failXo rfl
    · exact timed (s.tb.window count) rfl

theorem execXoCheck_commits {s t : State} {count : Nat} (h : execXoCheck count s = .next t) :
    Commits s t := by
  refine next_inj h (.thenIf _ fun _ => Keeps.commits ?_)
  have timed : ∀ tb : Timebase, tb.subSecond = s.tb.subSecond →
      Keeps s.Sound s { s with tb := tb } := fun tb hs => .onTb fun hc => hs.symm ▸ hc
  generalize (if windowPasses count then 0 else s.tb.fails + 1) = fails
  dsimp only
  split
  · exact ((timed { s.tb with checkFrom := s.tb.run, fails }.failXo rfl).trans
      (.raise _ _ _ _ _)).trans (State.noteQuality_keeps _)
  · exact timed { s.tb with checkFrom := s.tb.run, fails } rfl

theorem execRetryTimeExpiry_commits {s t : State} (h : execRetryTimeExpiry s = .next t) :
    Commits s t := next_inj h (.thenIf _ fun _ =>
    (Keeps.onTb (tb := s.tb.beginAttempt false) id).commits)

theorem State.align_keeps {P : Prop} (s : State) : Keeps P s s.align := by
  unfold State.align
  split
  · exact State.secondCompletes_keeps _
  · exact .onTb (tb := { s.tb with subSecond := 0 }) fun _ => Nat.zero_lt_succ _

theorem execPpsPulse_commits {s t : State} (h : execPpsPulse s = .next t) : Commits s t := by
  refine next_inj h ?_
  have jumped : Keeps s.Sound s s.reportJump := by
    unfold State.reportJump
    split
    · exact .report _ _ _ _ _
    · exact .refl _ _
  have locked : Keeps s.Sound s ({ s.reportJump with tb := s.tb.lock } : State).noteQuality :=
    (jumped.trans (.of_same (t := { s.reportJump with tb := s.tb.lock }) rfl rfl rfl
      ⟨id, BitVec.and_self, rfl, fun hc => ?_⟩)).trans (State.noteQuality_keeps _)
  · split
    · exact .refl _
    · split
      · exact (Keeps.report _ _ _ _ _).commits
      · exact (locked.trans (State.align_keeps _)).commits
  · unfold State.reportJump at hc
    split at hc
    · exact hc
    · exact hc

theorem execPpsTimeExpiry_commits {s t : State} (h : execPpsTimeExpiry s = .next t) :
    Commits s t :=
  next_inj h (.thenIf _ fun _ => Keeps.commits <|
    ((Keeps.onTb (tb := { s.tb with pps := .lost, ppsFrom := none }) id).trans
      (.raise _ _ _ _ _)).trans (State.noteQuality_keeps _))

/-! ### The measuring points and the modules -/

theorem State.takeRecord_commits (s : State) (pt : MeasPoint) (p : PointState) (v : LineVoltages)
    (c : Option CyclePower) : Commits s ((s.setPoint pt p).takeRecord pt v c).settle :=
  ((State.setPoint_keeps _ _ _).trans (State.takeRecord_keeps _ _ _ _)).commits.settle

theorem execZeroCrossing_commits {s t : State} {pt : MeasPoint} {v : LineVoltages} {c : CyclePower}
    (h : execZeroCrossing pt v c s = .next t) : Commits s t := by
  refine next_inj h ?_
  split
  · exact State.takeRecord_commits _ _ _ _ _
  · exact (State.setPoint_keeps _ _ _).commits

theorem execModuleLineLoss_commits {s t : State} {m : ModuleNo}
    (h : execModuleLineLoss m s = .next t) : Commits s t := by
  have lost : Keeps s.Sound s ((s.raise .moduleLinkLost (.module m)).onModule m fun y =>
      { y with lineLost := true }) := (Keeps.raise _ _ _ _ _).trans (.onModule _ _ _)
  refine next_inj h ?_
  dsimp only
  split
  · exact .refl _
  · split
    · exact (lost.trans (State.startFailed_keeps _ _ _)).commits.settle
    all_goals first
      | exact (lost.trans (State.moduleFaulted_keeps _ _ _)).commits.settle
      | exact lost.commits

theorem State.sendCommand_keeps {P : Prop} (s : State) (m : ModuleNo) : Keeps P s (s.sendCommand m) := by
  unfold State.sendCommand
  split
  · exact .onModule _ _ _
  · exact .refl _ _

theorem execCommandRecord_commits {s t : State} (h : execCommandRecord s = .next t) :
    Commits s t := by
  refine next_inj h (Keeps.commits
    ((Keeps.foldl State.sendCommand State.sendCommand_keeps ModuleNo.all s).trans ?_))
  exact .of_same rfl rfl rfl (.of_same rfl rfl rfl)

theorem execStartTimeExpiry_commits {s t : State} (h : execStartTimeExpiry s = .next t) :
    Commits s t := by
  refine next_inj h ?_
  split
  · exact (State.startFailed_keeps _ _ _).commits.settle
  · exact .refl _

theorem execHoldTimeExpiry_commits {s t : State} {o : Outlet} (h : execHoldTimeExpiry o s = .next t) :
    Commits s t :=
  next_inj h (.thenIf _ fun _ =>
    ((State.stopModules_poolOnly _ _ _).keeps.trans (.onMp _ _ _)).commits.settle)

theorem execGrowWatchComplete_commits {s t : State} {o : Outlet}
    (h : execGrowWatchComplete o s = .next t) : Commits s t :=
  next_inj h (.thenIf _ fun _ =>
    ((Keeps.onMp _ _ _).trans (State.servePool_keeps _ _)).commits.settle)

theorem execShrinkWatchComplete_commits {s t : State} {o : Outlet}
    (h : execShrinkWatchComplete o s = .next t) : Commits s t := by
  refine next_inj h (.thenIf _ fun _ => ?_)
  split
  · exact (Keeps.onMp _ _ _).commits
  · exact (Keeps.onMp _ _ _).commits

/-! ### RG, SY and the breaker lines -/

theorem RefGen.update_rest (g : RefGen) (n : Nat) : (g.update n).mode = g.mode
    ∧ (g.update n).pSet = g.pSet ∧ (g.update n).freqTarget = g.freqTarget
    ∧ (g.update n).voltTarget = g.voltTarget := by
  unfold RefGen.update; split <;> exact ⟨rfl, rfl, rfl, rfl⟩

theorem execRgUpdate_commits {s t : State} {o : Outlet} (h : execRgUpdate o s = .next t) :
    Commits s t := by
  obtain ⟨hmode, hpset, hfreq, hvolt⟩ :=
    (s.berth o).rg.update_rest (s.berth o).nominalVolts
  exact next_inj h (Keeps.onBerth (.of_same (fun _ hb =>
    hb.retarget (g := { (s.berth o).rg.update (s.berth o).nominalVolts with updateFrom := s.tb.run })
      hmode hpset (.inl ⟨hfreq, hvolt⟩)) rfl rfl rfl)).commits

theorem execHoldingTimeout_commits {s t : State} {o : Outlet} (h : execHoldingTimeout o s = .next t) :
    Commits s t :=
  next_inj h (.thenIf _ fun _ => (Keeps.onRg rfl rfl rfl fun _ hb =>
    ⟨hb.inv.pSetAbsent, hb.inv.pSetBound⟩).commits)

theorem execDueInstant_commits {s t : State} {o : Outlet} (h : execDueInstant o s = .next t) :
    Commits s t := by
  refine next_inj h ?_
  split
  · rename_i plan hp
    exact (State.issueClose_keeps _ fun _ hb => .inr (hb.inv.scheduled _ hp)).commits.settle
  all_goals exact .refl _

theorem execConfirmationTimeExpiry_commits {s t : State} {o : Outlet}
    (h : execConfirmationTimeExpiry o s = .next t) : Commits s t := by
  refine next_inj h (.thenIf _ fun hf => Commits.settle (Keeps.commits ?_))
  refine ((Keeps.onSy fun _ _ => ?_).trans (.raise _ _ _ _ _)).trans
    (State.closeFailed_keeps fun hs => ?_)
  · exact Synchroniser.fits_watching rfl rfl _
  · rw [State.berth_raise, State.berth_onSy_self]
    exact ⟨(hs o).inv.inFlight hf, nofun⟩

/-- A feedback that closes keeps the outlets sound: PR's drive runs on in TRIPPED, and in WIND_DOWN there was
none with the feedback open. -/
theorem Berth.Sound.contact {b : Berth} (h : b.Sound) (l : Lines)
    (opened : b.lines.breakerClosed = false) : ({ b with lines := l } : Berth).Sound :=
  have drive : b.pr.openDrive = true ∨ b.pr.postTripFrom.isSome = true → b.sc.state = .tripped :=
    fun hd => (h.inv.drive hd).resolve_right fun ⟨_, hc⟩ => by rw [opened] at hc; cases hc
  ⟨{ h.inv with drive := fun hd => .inl (drive hd) }, fun hm => (h.targets hm).congr rfl rfl rfl rfl⟩

/-- A feedback that closes, and what follows. -/
theorem State.contact_commits {s u : State} {o : Outlet} (opened : (s.berth o).lines.breakerClosed = false)
    (h : Keeps s.Sound (s.contact o) u) : Commits s u := by
  have hmt : ∀ p, ((s.contact o).berth p).mt = (s.berth p).mt
      ∧ ((s.contact o).berth p).sc = (s.berth p).sc := fun p => by
    by_cases hp : p = o
    · subst hp; unfold State.contact State.onLines; rw [State.berth_onBerth_self]; exact ⟨rfl, rfl⟩
    · unfold State.contact State.onLines; rw [State.berth_onBerth_ne _ _ hp]; exact ⟨rfl, rfl⟩
  have hclaims : (s.contact o).claims ≤ s.claims := State.claims_le_of_berths fun p => by
    unfold Berth.claim; rw [(hmt p).2]
  refine ⟨⟨fun hs => h.sound hs fun p => ?_, fun hb => h.billing (hb.of_same rfl ?_),
    fun he => h.energy fun p m hm => he p m ((hmt p).1 ▸ hm), h.standing.events, h.standing.clock,
    h.standing.pending, ?_⟩, h.standing.flags, fun p m hs hm hn => ?_⟩
  · by_cases hp : p = o
    · subst hp
      unfold State.contact State.onLines
      rw [State.berth_onBerth_self]
      exact (hs p).contact _ opened
    · unfold State.contact State.onLines
      rw [State.berth_onBerth_ne _ _ hp]
      exact hs p
  · exact le_of_eq (State.openSessions_congr fun p => by rw [(hmt p).1])
  · have := h.claims
    omega
  · refine (h.owes p m.session (.inl ⟨?_, m, ?_, rfl⟩)).endsBilled hn
    · rw [(hmt p).2]; exact hs
    · rw [(hmt p).1]; exact hm

theorem execBreakerFeedbackClosed_commits {s t : State} {o : Outlet}
    (h : execBreakerFeedbackClosed o s = .next t) : Commits s t := by
  refine next_inj h ?_
  split
  · exact .refl _
  · rename_i hopen
    refine Commits.settle (State.contact_commits (o := o) (by simpa using hopen)
      (State.takeClosed_keeps _ _ fun hs hc => ?_))
    unfold State.contact State.onLines at hc ⊢
    rw [State.berth_onBerth_self] at hc ⊢
    exact (hs o).inv.inFlight hc

theorem Protection.takeOpen_fits {p : Protection} {st : OutletState} (h : p.Fits st true) :
    (p.takeOpen st).Fits st false := by
  unfold Protection.takeOpen
  split
  · rintro (hd | hd) <;> cases hd
  · rename_i hw
    have ht : ∀ q : Protection, (q.openDrive = true ∨ q.postTripFrom.isSome = true →
        p.openDrive = true ∨ p.postTripFrom.isSome = true) → q.Fits st false := fun q hq hd => by
      rcases h (hq hd) with ht | ⟨hw', _⟩
      · exact .inl ht
      · exact absurd hw' hw
    dsimp only
    split
    · refine ht _ fun hd => ?_
      split at hd
      · exact hd.imp nofun id
      · exact hd
    · refine ht _ fun hd => ?_
      split at hd
      · exact hd.imp nofun id
      · exact hd

/-- The outlet with its feedback open and an open measurement gap ended (R142). -/
def Berth.parted (b : Berth) (now : RunCount) : Berth :=
  { b with lines := { b.lines with breakerClosed := false }, mt := b.mt.map fun m => m.endGap now }

theorem State.berth_parted_self (s : State) (o : Outlet) :
    (s.parted o).berth o = (s.berth o).parted s.tb.run := by
  cases o <;> rfl

theorem State.parted_eq (s : State) (o : Outlet) :
    s.parted o = s.onBerth o fun b => b.parted s.tb.run := by cases o <;> rfl

theorem State.parted_releaseDrives (s : State) (o : Outlet) :
    (s.parted o).onBerth o Berth.releaseDrives
      = s.onBerth o fun b => (b.parted s.tb.run).releaseDrives := by cases o <;> rfl

/-- The opening of a feedback outside WIND_DOWN. -/
theorem Berth.parted_keeps {P : Prop} {b : Berth} (now : RunCount) (h : b.sc.state ≠ .windDown) :
    b.Keeps P (b.parted now) := by
  refine ⟨fun _ hb => ⟨{ hb.inv with meter := ?_, drive := fun hd => ?_ },
    fun hm => (hb.targets hm).congr rfl rfl rfl rfl⟩, rfl, le_rfl, nofun, _, rfl,
    fun m => m.endGap_follows now⟩
  · show (b.mt.map _).isSome = _
    rw [Option.isSome_map]; exact hb.inv.meter
  · rcases hb.inv.drive hd with ht | ⟨hw, _⟩
    · exact .inl ht
    · exact absurd hw h

/-- The opening of a feedback, and the release of the drives that it ends (R71, R107). -/
theorem Berth.parted_releaseDrives_keeps {P : Prop} {b : Berth} (now : RunCount)
    (closed : b.lines.breakerClosed = true) : b.Keeps P (b.parted now).releaseDrives := by
  refine ⟨fun _ hb => ⟨{ hb.inv with
      meter := ?_, drive := ?_, scheduled := ?_, inFlight := ?_, output := ?_ },
    fun hm => (hb.targets hm).congr rfl rfl rfl rfl⟩, rfl, le_rfl, nofun, _, rfl,
    fun m => m.endGap_follows now⟩
  · show (b.mt.map _).isSome = _
    rw [Option.isSome_map]; exact hb.inv.meter
  · intro plan hp
    unfold Berth.releaseDrives at hp
    dsimp only at hp
    split at hp <;> exact hb.inv.scheduled plan hp
  · intro hp
    unfold Berth.releaseDrives at hp
    dsimp only at hp
    split at hp <;> exact hb.inv.inFlight hp
  · unfold Berth.releaseDrives
    dsimp only
    split <;> exact hb.inv.output
  · exact Protection.takeOpen_fits (closed ▸ hb.pr)

theorem execBreakerFeedbackOpen_commits {s t : State} {o : Outlet}
    (h : execBreakerFeedbackOpen o s = .next t) : Commits s t := by
  refine next_inj h (.thenIf _ fun hclosed => Commits.settle (Keeps.commits ?_))
  show Keeps s.Sound s ((s.parted o).takeOpen o)
  unfold State.takeOpen
  dsimp only
  split
  · rename_i hc
    simp only [Bool.and_eq_true] at hc
    refine Keeps.trans ?_ (State.complete_keeps _ _ _)
    rw [State.parted_eq]
    refine .onBerth (Berth.parted_keeps _ fun hw => ?_)
    rw [State.berth_parted_self] at hc
    have : (s.berth o).sc.state.breakerClosed = true := hc.1
    rw [hw] at this; cases this
  · rw [State.parted_releaseDrives]
    exact (Keeps.onBerth (Berth.parted_releaseDrives_keeps _ hclosed)).trans State.afterOpen_keeps

theorem execOpenDriveFailTime_commits {s t : State} {o : Outlet}
    (h : execOpenDriveFailTime o s = .next t) : Commits s t := by
  refine next_inj h (.thenIf _ fun _ => Keeps.commits ?_)
  have timed : Keeps s.Sound s (s.onSy o fun y => { y with driveFrom := none }) :=
    .onSy fun _ hb => ⟨hb.sy.scheduled, hb.sy.inFlight, hb.sy.output⟩
  dsimp only
  split
  · exact timed.trans (.raise _ _ _ _ _)
  · exact timed

theorem execDeadTimeComplete_commits {s t : State} {o : Outlet}
    (h : execDeadTimeComplete o s = .next t) : Commits s t :=
  next_inj h (.thenIf _ fun _ => Commits.settle (Keeps.commits
    ((Keeps.onSy fun _ hb => ⟨hb.sy.scheduled, hb.sy.inFlight, hb.sy.output⟩).trans
      (State.tryDeadBus_keeps _ _))))

/-- A change of the lines that leaves the breaker feedback. -/
theorem Keeps.onLines {P : Prop} {s : State} {o : Outlet} {f : Lines → Lines}
    (breaker : (f (s.berth o).lines).breakerClosed = (s.berth o).lines.breakerClosed) :
    Keeps P s (s.onLines o f) :=
  .onBerth ⟨fun _ hb => hb.congr rfl rfl rfl rfl breaker rfl rfl rfl rfl rfl rfl, rfl, le_rfl,
    fun hc => breaker ▸ hc, id, by simp, fun m => .refl m⟩

theorem execPilotLoopClosed_commits {s t : State} {o : Outlet}
    (h : execPilotLoopClosed o s = .next t) : Commits s t := by
  refine next_inj h ?_
  have closed : Keeps s.Sound s (s.onLines o fun l => { l with pilotClosed := true }) := .onLines rfl
  dsimp only
  split
  · exact .refl _
  · split
    · rename_i hst
      refine (closed.trans (State.moveTo_keeps 0 fun _ hb => ?_)).commits.settle
      have hd : ((s.onLines o fun l => { l with pilotClosed := true }).berth o).sc.state
          = .dormant := by unfold State.onLines; rw [State.berth_onBerth_self]; exact hst
      exact hb.mayMove nofun (fun _ => hb.inv.noSession (by rw [hd]; rfl)) nofun
        (fun hc => by rw [hd] at hc; cases hc) (fun hc => by rw [hd] at hc; cases hc)
        (by simp [OutletState.mode])
    · exact closed.commits

theorem execPilotLoopOpen_commits {s t : State} {o : Outlet} (h : execPilotLoopOpen o s = .next t) :
    Commits s t :=
  next_inj h (.thenIf _ fun _ => Commits.settle (Keeps.commits
    ((Keeps.onLines rfl).trans (State.pilotOpened_keeps _ _))))

end Sys2Proof.Machine
end

