-- ==== Sys2Proof/Proofs/TimedCommands.lean ====
section
/-! PROOFS. What the timed commands of SC, PR and MT, and those of the ship link, keep (`Commits`). -/

namespace Sys2Proof.Machine

/-! ### The timed commands -/

theorem execImportWatchComplete_commits {s t : State} (h : execImportWatchComplete s = .next t) :
    Commits s t := by
  refine next_inj h (.thenIf _ fun _ => Keeps.commits (Keeps.trans
    (t := { s with account := { s.account with importFrom := none, importReported := true } })
    (.of_same rfl rfl rfl (.of_same rfl rfl rfl)) (.report _ _ _ _ _)))

theorem execCapWatchComplete_commits {s t : State} {o : Outlet}
    (h : execCapWatchComplete o s = .next t) : Commits s t :=
  next_inj h (.thenIf _ fun _ => Keeps.commits
    ((Keeps.onSc (f := fun r => { r with capFrom := none, capReported := true }) rfl rfl rfl rfl).trans
      (.report _ _ _ _ _)))

theorem execEnergiseTimeExpiry_commits {s t : State} {o : Outlet}
    (h : execEnergiseTimeExpiry o s = .next t) : Commits s t :=
  next_inj h (.thenIf _ fun hc => Commits.settle (Keeps.commits ((Keeps.raise _ _ _ _ _).trans
    (State.windDown_early_keeps (.inl (by rw [State.berth_raise]; exact hc.1))))))

theorem execSyncTimeExpiry_commits {s t : State} {o : Outlet}
    (h : execSyncTimeExpiry o s = .next t) : Commits s t := by
  refine next_inj h (.thenIf _ fun _ => ?_)
  split
  · rename_i hc
    exact Commits.settle (Keeps.commits ((Keeps.raise _ _ _ _ _).trans
      (State.windDown_early_keeps (.inr (by rw [State.berth_raise]; exact hc)))))
  · exact (Keeps.onSc rfl rfl rfl rfl).commits

/-- P_set written by SC stays absent outside POWER, and within its range (R55). -/
theorem RefGen.writePSet_fits (g : RefGen) (n : Nat) :
    ((g.writePSet n).mode ≠ .power → (g.writePSet n).pSet = 0) ∧ (g.writePSet n).pSet ≤ 25000 := by
  unfold RefGen.writePSet
  dsimp only
  split
  · rename_i h; exact ⟨fun hm => absurd h hm, by omega⟩
  · exact ⟨fun _ => rfl, by omega⟩

/-- SC writes P_set at the outlet. -/
theorem Keeps.writePSet {P : Prop} (s : State) (o : Outlet) (n : RefGen → Nat) :
    Keeps P s (s.onRg o fun g => g.writePSet (n g)) :=
  .onRg rfl rfl rfl fun _ _ => RefGen.writePSet_fits _ _

theorem execRampInTick_commits {s t : State} {o : Outlet} (h : execRampInTick o s = .next t) :
    Commits s t := by
  refine next_inj h (.thenIf _ fun _ => Keeps.commits ?_)
  have ticked : Keeps s.Sound s (s.onSc o fun r => { r with rampFrom := some s.tb.run }) :=
    .onSc rfl rfl rfl rfl
  dsimp only
  split
  · exact ticked.trans (.writePSet _ _ _)
  · exact ticked

theorem State.abortRampIn_commits {s : State} {o : Outlet} (h : (s.berth o).sc.state = .parallelIn) :
    Commits s (s.abortRampIn o).settle :=
  Commits.settle (Keeps.commits ((Keeps.raise _ _ _ _ _).trans
    (State.enter_parallelOut_keeps (by rw [State.berth_raise]; exact h))))

theorem execReturnWaitExpiry_commits {s t : State} {o : Outlet}
    (h : execReturnWaitExpiry o s = .next t) : Commits s t :=
  next_inj h (.thenIf _ fun _ => Keeps.commits
    ((Keeps.onSc (f := fun r => { r with returnFrom := none }) rfl rfl rfl rfl).trans
      (.report _ _ _ _ _)))

theorem execRampOutTick_commits {s t : State} {o : Outlet} (h : execRampOutTick o s = .next t) :
    Commits s t :=
  next_inj h (.thenIf _ fun _ => Keeps.commits
    ((Keeps.onSc (f := fun r => { r with rampFrom := some s.tb.run }) rfl rfl rfl rfl).trans
      (.writePSet _ _ _)))

theorem State.openBreaker_keeps {P : Prop} {s : State} {o : Outlet}
    (h : (s.berth o).sc.state = .parallelOut) : Keeps P s (s.openBreaker o) :=
  State.moveTo_keeps 0 fun _ hb => hb.mayGoOn_from h (by decide) rfl (by decide)

theorem execRampOutTimeout_commits {s t : State} {o : Outlet}
    (h : execRampOutTimeout o s = .next t) : Commits s t :=
  next_inj h (.thenIf _ fun hc => Commits.settle (Keeps.commits ((Keeps.raise _ _ _ _ _).trans
    (State.openBreaker_keeps (by rw [State.berth_raise]; exact hc.1)))))

theorem execOpenTimeExpiry_commits {s t : State} {o : Outlet} (h : execOpenTimeExpiry o s = .next t) :
    Commits s t := by
  refine next_inj h (.thenIf _ fun _ => Keeps.commits ?_)
  have timed : Keeps s.Sound s (s.onSc o fun r => { r with openFrom := none }) := .onSc rfl rfl rfl rfl
  dsimp only
  split
  · exact timed.trans (.raise _ _ _ _ _)
  · exact timed

theorem execPostTripTimeExpiry_commits {s t : State} {o : Outlet}
    (h : execPostTripTimeExpiry o s = .next t) : Commits s t := by
  refine next_inj h (.thenIf _ fun hrun => Keeps.commits ?_)
  split
  · exact (Keeps.onPr fun _ hb _ => hb.pr (.inr hrun)).trans (.raise _ _ _ _ _)
  · exact .onPr fun _ _ hd => by simp at hd

/-- A watch of protection completes. -/
theorem State.watch_commits {s : State} {o : Outlet} {f : Protection → Protection} (c : Cause)
    (h : ∀ p, (f p).openDrive = p.openDrive ∧ (f p).postTripFrom = p.postTripFrom) :
    Commits s ((s.onPr o f).complete o c).settle := by
  refine Commits.settle (Keeps.commits (Keeps.trans (.onPr fun _ hb => ?_) (State.complete_keeps _ _ _)))
  obtain ⟨hd, ht⟩ := h (s.berth o).pr
  unfold Protection.Fits
  rw [hd, ht]
  exact hb.pr

theorem execGridWatchComplete_commits {s t : State} (h : execGridWatchComplete s = .next t) :
    Commits s t := by
  refine next_inj h (.thenIf _ fun _ => Commits.settle (Keeps.commits (Keeps.trans
    (t := { s with gridWatch := { s.gridWatch with standing := true } }) ?_
    (Keeps.foldl _ (fun _ _ => State.complete_keeps _ _ _) _ _))))
  exact .of_same rfl rfl rfl (.of_same rfl rfl rfl)

/-! ### The ship link -/

theorem execLeaderFrameSent_commits {s t : State} {o : Outlet} {held : Bool}
    (h : execLeaderFrameSent o held s = .next t) : Commits s t := by
  refine next_inj h ?_
  split
  · split
    case h_6 | h_7 => exact ((State.noteHeld_keeps _ _ _).trans (State.resume_keeps _ _)).commits
    all_goals exact (Keeps.onSl _ _ _).commits
  all_goals exact .refl _

theorem execReplyWindowClose_commits {s t : State} {o : Outlet} {held : Bool}
    (h : execReplyWindowClose o held s = .next t) : Commits s t := by
  refine next_inj h ?_
  split
  · exact ((State.noteHeld_keeps _ _ _).trans (State.reply_keeps _ _ _ _)).commits.settle
  all_goals exact .refl _

theorem State.hear_commits (s : State) (o : Outlet) (held : Bool) (h : Heard) :
    Commits s (s.hear o held h) := by
  unfold State.hear
  split
  · exact ((State.noteHeld_keeps _ _ _).trans (State.reply_keeps _ _ _ _)).commits.settle
  · exact (Keeps.onSl _ _ _).commits
  all_goals exact .refl _

theorem execLinkCycle_commits {s t : State} {o : Outlet} {held : Bool}
    (h : execLinkCycle o held s = .next t) : Commits s t :=
  next_inj h (.thenIf _ fun _ => Keeps.commits
    ((State.noteHeld_keeps _ _ _).trans (.sl fun _ => Berth.beginCycle_rest _ _)))

theorem execSlotEnd_commits {s t : State} {o : Outlet} {held : Bool} {frame : ShipFrame}
    (h : execSlotEnd o held frame s = .next t) : Commits s t := by
  refine next_inj h ?_
  split
  · exact .thenIf _ fun _ => (Keeps.onSl _ _ _).commits
  all_goals exact State.hear_commits _ _ _ _

theorem execShipSlotExpiry_commits {s t : State} {o : Outlet}
    (h : execShipSlotExpiry o s = .next t) : Commits s t := by
  refine next_inj h ?_
  split
  · exact (Keeps.onSl _ _ _).commits
  all_goals exact .refl _

theorem execGenStatus_commits {s t : State} {o : Outlet} {held : Bool} {frame : ShipFrame}
    (h : execGenStatus o held frame s = .next t) : Commits s t := by
  refine next_inj h ?_
  split
  · exact .thenIf _ fun _ => (State.takeGenerators_keeps _ _ _).commits.settle
  · exact State.hear_commits _ _ _ _

theorem execGeneratorStale_commits {s t : State} {o : Outlet} {n : Nat}
    (h : execGeneratorStale o n s = .next t) : Commits s t := by
  refine next_inj h ?_
  split
  · exact (Keeps.onSl _ _ _).commits
  · exact ((Keeps.onSl _ _ _).trans (State.judgeGenerators_keeps _ _)).commits.settle

theorem execLineDominant_commits {s t : State} {line : StuckLine}
    (h : execLineDominant line s = .next t) : Commits s t :=
  next_inj h (.thenIf _ fun _ => Commits.settle (Keeps.commits
    (((State.cutFrame_keeps _ _ _).trans (.onSl _ _ _)).trans (.raise _ _ _ _ _))))

theorem execStuckMissTick_commits {s t : State} {o : Outlet} (h : execStuckMissTick o s = .next t) :
    Commits s t :=
  next_inj h (.thenIf _ fun _ => Commits.settle (Keeps.commits
    ((Keeps.onSl _ _ _).trans (.foldl _ (fun _ _ => State.miss_keeps _ _ _ _) _ _))))

theorem execStuckLook_commits {s t : State} {o : Outlet} {dominant held : Bool}
    (h : execStuckLook o dominant held s = .next t) : Commits s t := by
  refine next_inj h (.thenIf _ fun _ => Keeps.commits ?_)
  have looked : Keeps s.Sound s ((s.onSl o fun l => { l with lookFrom := s.tb.run }).noteHeld o held) :=
    (Keeps.onSl _ _ _).trans (State.noteHeld_keeps _ _ _)
  dsimp only
  split
  · exact looked
  · split
    · exact looked.trans (.onSl _ _ _)
    · exact looked.trans (.sl fun _ => Berth.beginCycle_rest _ _)

theorem Meter.Follows.gap (m : Meter) (g : Option RunCount) : m.Follows { m with gapFrom := g } :=
  .of_same rfl rfl rfl

theorem execGapOpens_commits {s t : State} {o : Outlet} (h : execGapOpens o s = .next t) :
    Commits s t :=
  next_inj h (.thenIf _ fun _ => (Keeps.onMt fun m => .gap m _).commits)

/-! ### The warm restart -/

theorem Protection.restart_drive (p : Protection) (tripped : Bool) (now : RunCount) :
    (p.restart tripped now).openDrive = false
      ∧ ((p.restart tripped now).postTripFrom.isSome = true → tripped = true) := by
  cases tripped <;> exact ⟨rfl, by simp [Protection.restart]⟩

/-- The state after a warm restart is TRIPPED, or without a session (R103). -/
theorem Berth.afterRestart_cases (b : Berth) : b.afterRestart = .tripped
    ∨ (b.sc.session = none ∧ (b.afterRestart = .cableProven ∨ b.afterRestart = .dormant)) := by
  unfold Berth.afterRestart
  split
  · exact .inl rfl
  · rename_i h
    refine .inr ⟨by simpa using fun hs => h (.inl hs), ?_⟩
    split
    · exact .inl rfl
    · exact .inr rfl

theorem Berth.restart_sound {b : Berth} (h : b.Sound) (now : TimeStamp) (tripHold : Nat) :
    (b.restart now tripHold).Sound := by
  obtain ⟨hdrive, htime⟩ := b.pr.restart_drive (b.afterRestart == .tripped) now.run
  have hstate := b.afterRestart_cases
  have hnot : b.afterRestart.inSession = true → False := fun hs => by
    rcases hstate with h | ⟨_, h | h⟩ <;> rw [h] at hs <;> cases hs
  refine ⟨⟨fun hs => (hnot hs).elim, fun hb => ?_, h.inv.meter, fun hs => ?_, fun hw => ?_, ?_, ?_, ?_,
    ?_, fun _ => rfl, Nat.zero_le _, ?_⟩, fun hm => absurd rfl hm⟩
  · rcases hstate with ht | ⟨hn, _⟩
    · have : b.afterRestart.beforeSession = true := hb
      rw [ht] at this; cases this
    · exact hn
  · show (if b.sc.session.isSome then b.sc.declaration else none).isSome = true
    have hs : b.sc.session.isSome = true := hs
    rw [if_pos hs]
    exact h.inv.declared hs
  · have : b.afterRestart = .awaitAuth := hw
    rcases hstate with ht | ⟨_, ht | ht⟩ <;> rw [ht] at this <;> cases this
  · exact fun _ hp => nomatch hp
  · exact fun hp => nomatch hp
  · exact fun hp => nomatch hp
  · show RgMode.off = b.afterRestart.mode
    rcases hstate with ht | ⟨_, ht | ht⟩ <;> rw [ht] <;> rfl
  · rintro (hd | hd)
    · have : (b.pr.restart (b.afterRestart == .tripped) now.run).openDrive = true := hd
      rw [hdrive] at this; cases this
    · exact .inl (eq_of_beq (htime hd))

theorem Berth.restart_keeps {P : Prop} (b : Berth) (now : TimeStamp) (tripHold : Nat) :
    b.Keeps P (b.restart now tripHold) :=
  ⟨fun _ hb => Berth.restart_sound hb _ _, rfl, le_rfl, id, id, by simp [Berth.restart], fun m => .refl m⟩

theorem State.restartBlocks_keeps {P : Prop} (s : State) : Keeps P s s.restartBlocks := by
  refine .of_berths rfl rfl ⟨fun _ => by show [_].length ≤ 32; simp, ?_, rfl, id⟩
    fun o => ?_
  · show s.fe.flags &&& (s.fe.flags ||| FaultKind.restart.bit) = s.fe.flags
    ext i; simp; exact Or.inl
  · cases o <;> exact Berth.restart_keeps _ _ _

theorem State.warmRestart_keeps {P : Prop} (s : State) : Keeps P s s.warmRestart := by
  refine (State.restartBlocks_keeps s).trans (.foldl _ (fun t o => ?_) _ _)
  unfold State.reportRestart
  dsimp only
  have told : Keeps P t (if (s.berth o).sc.state = (t.berth o).sc.state then t
      else t.reportState o (t.berth o).sc.state) := by
    split
    · exact .refl _ _
    · exact .reportState _ _ _ _
  split
  · exact (told.trans (.raise _ _ _ _ _)).trans (.onMt Meter.countTrip_follows)
  · exact told

theorem execReplySent_commits {s t : State} (h : execReplySent s = .next t) : Commits s t := by
  refine next_inj h ?_
  split
  · exact .refl _
  · rename_i r rest _
    have sent : Keeps s.Sound s { s with svl := s.svl.sent r rest } :=
      .of_same rfl rfl rfl (.of_same rfl rfl rfl)
    dsimp only
    split
    · exact (sent.trans (State.warmRestart_keeps _)).commits
    · exact sent.commits

end Sys2Proof.Machine
end

