-- ==== Sys2Proof/Proofs/WholeMachine.lean ====
section
/-! PROOFS. What the requests and the commands of the lines keep, and with it the rules of the whole machine. -/

namespace Sys2Proof.Machine

/-! ### Requests -/

/-- A payload of the wrong length is refused, and changes nothing. -/
theorem ofLength_commits {s : State} {n : Nat} {p : List Byte} {judge : Verdict}
    (h : Commits s judge.1) : Commits s (ofLength n p s judge).1 := by
  unfold ofLength
  split
  · exact h
  · exact .refl _

theorem ofOutlet_commits {s : State} {p : List Byte} {judge : Outlet → Verdict}
    (h : ∀ o, Commits s (judge o).1) : Commits s (ofOutlet p s judge).1 := by
  unfold ofOutlet
  split
  · exact h _
  · exact .refl _

theorem ofModule_commits {s : State} {p : List Byte} {judge : ModuleNo → Verdict}
    (h : ∀ m, Commits s (judge m).1) : Commits s (ofModule p s judge).1 := by
  unfold ofModule
  split
  · exact h _
  · exact .refl _

/-- A change outside the outlets, the billing queue and the import limit. -/
theorem Commits.aside {s t : State} (berths : t.berths = s.berths) (metering : t.metering = s.metering)
    (fe : t.fe = s.fe) (pending : t.pending = s.pending) (tb : t.tb = s.tb) : Commits s t :=
  .of_same berths metering (by unfold EventInv; rw [fe]; exact id)
    (by unfold ClockInv; rw [tb]; exact id) pending (by rw [fe, BitVec.and_self])

/-- A change of the meter's settings and queue that keeps the queue's order and room. -/
theorem Commits.onMetering {s : State} {m : Metering}
    (billing : BillingInv s → BillingInv { s with metering := m })
    (energy : EnergyInv s → EnergyInv { s with metering := m }) :
    Commits s { s with metering := m } :=
  ⟨⟨id, billing, energy, id, id, rfl, .inl le_rfl⟩, BitVec.and_self, fun o _ hs _ hn => by
    have hn : (s.berth o).sc.session = none := hn
    rw [hn] at hs; cases hs⟩

/-- With no session open there is no meter. -/
theorem State.no_meter {s : State} (h : s.openSessions = 0) (o : Outlet) : (s.berth o).mt = none := by
  rw [State.openSessions_eq] at h
  rw [← Option.not_isSome_iff_eq_none]
  intro hs
  cases o <;> rw [hs] at h <;> simp at h

theorem StationChange.writeTime_subSecond (c : StationChange) (t : Timebase) :
    (c.writeTime t).subSecond = t.subSecond := by
  have hxo : ∀ (u : Timebase) on, (u.writeXoUse on).subSecond = u.subSecond := fun u on => by
    unfold Timebase.writeXoUse
    dsimp only
    split
    · rfl
    · split
      · split <;> rfl
      · rfl
  have hpps : ∀ (u : Timebase) on, (u.writePpsUse on).subSecond = u.subSecond := fun u on => by
    unfold Timebase.writePpsUse
    dsimp only
    split
    · rfl
    · split <;> rfl
  unfold StationChange.writeTime
  cases c.xoUse <;> cases c.ppsUse
  · rfl
  · exact hpps _ _
  · exact hxo _ _
  · exact (hpps _ _).trans (hxo _ _)

/-- The rounding mode changes with no session open alone (R175). -/
theorem StationChange.rounding_of_allowed {c : StationChange} {s : State}
    (h : ¬(0 < s.openSessions ∧ c.needsNoSession s = true)) :
    s.openSessions = 0 ∨ (c.rounding.map roundingOf).getD s.metering.rounding = s.metering.rounding := by
  by_cases hs : s.openSessions = 0
  · exact .inl hs
  · refine .inr ?_
    have hno : c.needsNoSession s = false := by
      rw [← Bool.not_eq_true]; exact fun hn => h ⟨Nat.pos_of_ne_zero hs, hn⟩
    simp only [StationChange.needsNoSession, Bool.or_eq_false_iff] at hno
    have hr := hno.2
    unfold changes at hr
    cases hc : c.rounding.map roundingOf with
    | none => rfl
    | some x => rw [hc] at hr; simpa using hr

theorem judgeConfigureStation_commits (s : State) (p : List Byte) :
    Commits s (judgeConfigureStation p s).1 := by
  refine ofLength_commits ?_
  dsimp only
  split
  · exact .refl _
  · split
    · exact .refl _
    · rename_i hallowed
      refine Commits.before (t := { s with
          tb := (StationChange.read p).writeTime s.tb
          grid := { s.grid with nominal := (StationChange.read p).gridNominal.getD s.grid.nominal }
          pool := { s.pool with
            tripHold := (StationChange.read p).tripHold.getD s.pool.tripHold }
          account := { s.account with
            headroom := (StationChange.read p).headroom.getD s.account.headroom }
          metering := { s.metering with
            length := (StationChange.read p).length.getD s.metering.length
            rounding := ((StationChange.read p).rounding.map roundingOf).getD s.metering.rounding } })
        ?_ rfl (State.noteQuality_keeps _).commits
      refine ⟨⟨id, fun hb => ⟨hb.ascending, hb.below, hb.room⟩, fun he o m hm => ?_, id, fun hc => ?_,
        rfl, .inl le_rfl⟩, BitVec.and_self, fun o _ hs _ hn => ?_⟩
      · rcases StationChange.rounding_of_allowed hallowed with hz | hr
        · have : (s.berth o).mt = some m := hm
          rw [State.no_meter hz] at this; cases this
        · show m.Fits _
          rw [hr]
          exact he o m hm
      · unfold ClockInv at hc ⊢
        rw [StationChange.writeTime_subSecond]
        exact hc
      · have hn : (s.berth o).sc.session = none := hn
        rw [hn] at hs; cases hs

theorem judgeSetTime_commits (s : State) (p : List Byte) : Commits s (judgeSetTime p s).1 :=
  ofLength_commits (Keeps.commits (((Keeps.onTb (tb := { s.tb with
    seconds := BitVec.ofNat 32 (field p 0 4), timeUnset := false }) id).trans
      (State.meterTimeStep_keeps _)).trans (State.noteQuality_keeps _)))

theorem State.setLimit_commits (s : State) (limit : Nat) : Commits s (s.setLimit limit) := by
  unfold State.setLimit
  refine Commits.settle ?_
  have set : Commits s { s with account := { s.account with limit }
                                passDue := s.passDue || decide (limit ≠ s.account.limit) } :=
    .aside rfl rfl rfl rfl rfl
  dsimp only
  split
  · exact set.before rfl (Keeps.raise _ _ _ _ _).commits
  · exact set

theorem judgeSetImportLimit_commits (s : State) (p : List Byte) :
    Commits s (judgeSetImportLimit p s).1 := by
  refine ofLength_commits ?_
  split
  · exact .refl _
  · exact State.setLimit_commits _ _

theorem judgeSetBands_commits (s : State) (p : List Byte) : Commits s (judgeSetBands p s).1 := by
  refine ofLength_commits ?_
  split
  · exact .refl _
  · split
    · exact .refl _
    · exact .onMetering (fun hb => ⟨hb.ascending, hb.below, hb.room⟩) id

theorem State.changeByRequest_commits (s : State) (m : ModuleNo) (f : Module → Module) :
    Commits s (s.changeByRequest m f).1 :=
  ((Keeps.changeModule _ _ _).trans (State.arbitrate_keeps _)).commits.settle

theorem judgeDeclareModule_commits (s : State) (p : List Byte) :
    Commits s (judgeDeclareModule p s).1 := by
  refine ofLength_commits (ofModule_commits fun m => ?_)
  dsimp only
  split
  · exact .refl _
  · split
    · exact State.changeByRequest_commits _ _ _
    · exact State.changeByRequest_commits _ _ _
    all_goals exact .refl _

theorem judgeUnlockModule_commits (s : State) (p : List Byte) :
    Commits s (judgeUnlockModule p s).1 := by
  refine ofLength_commits (ofModule_commits fun m => ?_)
  split
  · exact State.changeByRequest_commits _ _ _
  all_goals exact .refl _

theorem judgeWithdrawModule_commits (s : State) (p : List Byte) :
    Commits s (judgeWithdrawModule p s).1 := by
  refine ofLength_commits (ofModule_commits fun m => ?_)
  split
  case h_1 | h_2 | h_3 => exact State.changeByRequest_commits _ _ _
  all_goals exact .refl _

/-- The settings of an outlet in DORMANT or CABLE_PROVEN, where RG is in OFF, may be written (R178). -/
theorem OutletChange.apply_keeps {P : Prop} (c : OutletChange) {b : Berth}
    (h : b.sc.state.configurable = true) : b.Keeps P (c.apply b) := by
  refine ⟨fun _ hb => ⟨{ hb.inv with }, fun hm => ?_⟩, rfl, le_rfl, id, id, by simp [OutletChange.apply],
    fun m => .refl m⟩
  have hmode : b.sc.state.mode = .off := by
    cases hs : b.sc.state <;> rw [hs] at h <;> first | rfl | cases h
  exact absurd (hb.inv.mode.trans hmode) hm

theorem judgeConfigureOutlet_commits (s : State) (p : List Byte) :
    Commits s (judgeConfigureOutlet p s).1 := by
  refine ofLength_commits (ofOutlet_commits fun o => ?_)
  generalize OutletChange.read p = c
  rw [apply_ite Prod.fst, apply_ite Prod.fst]
  split
  · exact .refl _
  · split
    · exact .refl _
    · rename_i h
      exact (Keeps.onBerth (OutletChange.apply_keeps c (by simpa using h))).commits

theorem judgeAuthorise_commits (s : State) (p : List Byte) : Commits s (judgeAuthorise p s).1 := by
  refine ofLength_commits ?_
  split
  · rename_i outlet _ _
    generalize readAuthEntry p outlet = e
    dsimp only
    split
    · exact .refl _
    · rename_i place _
      exact Commits.settle (t := { s.setPlace place (some e) with passDue := true })
        (.aside rfl rfl rfl rfl rfl)
  · exact .refl _

theorem judgeRevoke_commits (s : State) (p : List Byte) : Commits s (judgeRevoke p s).1 := by
  refine ofLength_commits ?_
  split
  · exact .refl _
  · split
    · exact .refl _
    · exact .aside rfl rfl rfl rfl rfl

theorem State.endSession_keeps {P : Prop} {s t : State} {o : Outlet} (h : s.endSession o = some t) :
    Keeps P s t := by
  unfold State.endSession at h
  dsimp only at h
  split at h
  case h_3 hst => cases h; exact State.moveTo_proven_keeps hst
  case h_4 hst => cases h; exact State.windDown_early_keeps (.inl hst)
  case h_5 hst => cases h; exact State.windDown_early_keeps (.inr hst)
  case h_6 => cases h; exact .onSc rfl rfl rfl rfl
  case h_7 hst => cases h; exact State.enter_parallelOut_keeps hst
  case h_8 => cases h; exact State.requestReturn_keeps _ _
  case h_9 | h_10 | h_11 => cases h; exact .refl _ _
  case h_12 hst =>
    split at h
    · rename_i hs
      cases h
      exact State.windDown_keeps fun _ hb => hb.mayWindDown hs fun hc => by rw [hst] at hc; cases hc
    · cases h
  all_goals cases h

theorem judgeEndSession_commits (s : State) (p : List Byte) : Commits s (judgeEndSession p s).1 := by
  refine ofLength_commits (ofOutlet_commits fun o => ?_)
  split
  · exact .refl _
  · rename_i h; exact (State.endSession_keeps h).commits.settle

theorem State.resetOutlet_commits {s : State} {o : Outlet} (h : s.mayReset o = true) :
    Commits s (s.resetOutlet o) := by
  simp only [State.mayReset, Bool.and_eq_true, beq_iff_eq, and_assoc] at h
  obtain ⟨hst, hs, -⟩ := h
  refine Commits.settle (Keeps.commits (Keeps.trans (State.moveTo_keeps 0 fun _ hb => ?_)
    (State.capacityChanged_keeps _ _)))
  exact hb.mayGoOn hs rfl (by rw [hst]; exact nofun) (by rw [hst]; exact nofun)
    (by simp [OutletState.mode])

theorem judgeResetOutlet_commits (s : State) (p : List Byte) :
    Commits s (judgeResetOutlet p s).1 := by
  refine ofLength_commits (ofOutlet_commits fun o => ?_)
  split
  · rename_i h; exact State.resetOutlet_commits h
  · exact .refl _

theorem Berth.setClaim_sound {b : Berth} (h : b.Sound) (claim : Nat) : (b.setClaim claim).Sound := by
  have hrg : (b.setClaim claim).rg.mode = b.rg.mode
      ∧ (b.setClaim claim).rg.freqTarget = b.rg.freqTarget
      ∧ (b.setClaim claim).rg.voltTarget = b.rg.voltTarget
      ∧ ((b.setClaim claim).rg.mode ≠ .power → (b.setClaim claim).rg.pSet = 0)
      ∧ (b.setClaim claim).rg.pSet ≤ 25000 := by
    unfold Berth.setClaim
    dsimp only
    split
    · exact ⟨rfl, rfl, rfl, RefGen.writePSet_fits _ _⟩
    · exact ⟨rfl, rfl, rfl, h.inv.pSetAbsent, h.inv.pSetBound⟩
  obtain ⟨hmode, hfreq, hvolt, habsent, hbound⟩ := hrg
  have hsession : (b.sc.session.map fun x => { x with claim }).isSome = b.sc.session.isSome :=
    Option.isSome_map
  refine ⟨{ h.inv with
    session := fun hs => hsession.trans (h.inv.session hs)
    noSession := fun hs => by
      show b.sc.session.map _ = none
      rw [h.inv.noSession hs]; rfl
    meter := h.inv.meter.trans hsession.symm
    declared := fun hs => h.inv.declared (hsession ▸ hs)
    mode := hmode.trans h.inv.mode, pSetAbsent := habsent, pSetBound := hbound }, fun hm => ?_⟩
  exact (h.targets (hmode ▸ hm)).congr hfreq hvolt rfl rfl

theorem State.setCap_commits {s : State} {o : Outlet} {claim : Nat}
    (room : (claim : Int) ≤ s.claimRoom o) (session : (s.berth o).sc.session.isNone = false) :
    Commits s (s.setCap o claim) := by
  unfold State.setCap
  refine Commits.settle ?_
  have hother : ∀ p, p ≠ o → (s.onBerth o fun b => b.setClaim claim).berth p = s.berth p :=
    fun p hp => State.berth_onBerth_ne _ _ hp
  have hmt : ∀ p, ((s.onBerth o fun b => b.setClaim claim).berth p).mt = (s.berth p).mt := fun p => by
    by_cases hp : p = o
    · subst hp; rw [State.berth_onBerth_self]; rfl
    · rw [hother p hp]
  have hclaim : ((s.onBerth o fun b => b.setClaim claim).berth o).claim = claim := by
    rw [State.berth_onBerth_self]
    unfold Berth.setClaim Berth.claim
    cases hx : (s.berth o).sc.session with
    | none => rw [hx] at session; cases session
    | some x => rfl
  refine ⟨⟨fun hs p => ?_, fun hb => hb.of_same rfl (le_of_eq (State.openSessions_congr fun p => ?_)),
    fun he p m hm => he p m ((hmt p) ▸ hm), id, id, rfl, ?_⟩, BitVec.and_self, fun p _ hs _ hn => ?_⟩
  · show ((s.onBerth o fun b => b.setClaim claim).berth p).Sound
    by_cases hp : p = o
    · subst hp; rw [State.berth_onBerth_self]; exact Berth.setClaim_sound (hs p) _
    · rw [hother p hp]; exact hs p
  · exact congrArg Option.isSome (hmt p)
  · have h := State.claims_replace (s := s) (t := s.onBerth o fun b => b.setClaim claim) (o := o)
      fun p hp => by rw [hother p hp]
    rw [hclaim] at h
    unfold State.claimRoom State.remaining at room
    show (s.onBerth o fun b => b.setClaim claim).claims ≤ _
      ∨ (s.onBerth o fun b => b.setClaim claim).claims ≤ s.account.limit
    omega
  · have hn : ((s.onBerth o fun b => b.setClaim claim).berth p).sc.session = none := hn
    by_cases hp : p = o
    · subst hp
      rw [State.berth_onBerth_self] at hn
      have : (s.berth p).sc.session.map (fun x => { x with claim }) = none := hn
      rw [Option.map_eq_none_iff] at this
      rw [this] at hs; cases hs
    · rw [hother p hp] at hn; rw [hn] at hs; cases hs

theorem judgeSetCap_commits (s : State) (p : List Byte) : Commits s (judgeSetCap p s).1 := by
  refine ofLength_commits (ofOutlet_commits fun o => ?_)
  dsimp only
  split
  · exact .refl _
  · split
    · exact .refl _
    · rename_i hs hroom
      exact State.setCap_commits (not_lt.mp hroom) (Bool.eq_false_of_not_eq_true hs)

theorem Berth.setTrim_keeps {P : Prop} (b : Berth) (trim : Int) : b.Keeps P (b.setTrim trim) := by
  have stored : b.Keeps P { b with rg := { b.rg with islandTrim := trim } } :=
    .of_same (fun _ hb => hb.retarget rfl rfl (.inl ⟨rfl, rfl⟩)) rfl rfl rfl
  unfold Berth.setTrim
  dsimp only
  split
  · exact stored.trans (Berth.withTargets_keeps _ _ _)
  · exact stored

theorem judgeSetIslandTrim_commits (s : State) (p : List Byte) :
    Commits s (judgeSetIslandTrim p s).1 :=
  ofLength_commits (ofOutlet_commits fun o => show Commits s (s.onBerth o fun b =>
      b.setTrim (clampInt (-50) 50 (signedField p 1 1))) from
    (Keeps.onBerth (Berth.setTrim_keeps _ _)).commits)

theorem judgeReleaseBilling_commits (s : State) (p : List Byte) :
    Commits s (judgeReleaseBilling p s).1 := by
  refine ofLength_commits ?_
  dsimp only
  split
  · exact .refl _
  · refine Commits.settle (Commits.before (t := { s with metering := s.metering.release (field p 0 4) })
      (.onMetering (fun hb => ⟨?_, ?_, ?_⟩) id) rfl (.aside rfl rfl rfl rfl rfl))
    · exact hb.ascending.sublist (List.Sublist.map _ List.filter_sublist)
    · exact fun r hr => hb.below r (List.mem_of_mem_filter hr)
    · have := hb.room
      have hle : (s.metering.release (field p 0 4)).queue.length ≤ s.metering.queue.length :=
        List.length_filter_le _ _
      have hsame : State.openSessions { s with metering := s.metering.release (field p 0 4) }
          = s.openSessions := rfl
      dsimp only
      omega

theorem judgeFlushInterval_commits (s : State) (p : List Byte) :
    Commits s (judgeFlushInterval p s).1 := by
  refine ofLength_commits (ofOutlet_commits fun o => ?_)
  split
  · exact .refl _
  · split
    · exact .refl _
    · exact (State.closeInterval_keeps o (by decide) (by omega)).commits

theorem judgeReadEvents_commits (s : State) (p : List Byte) : Commits s (judgeReadEvents p s).1 :=
  ofLength_commits (.of_same rfl rfl
    (fun h => le_trans (show (s.fe.queue.drop 8).length ≤ _ by simp) h) id rfl BitVec.and_self)

theorem judgeSetReporting_commits (s : State) (p : List Byte) :
    Commits s (judgeSetReporting p s).1 :=
  ofLength_commits (.of_same rfl rfl id id rfl BitVec.and_self)

/-- A request judged without effect. -/
theorem ofLength_accept_commits (s : State) (n : Nat) (p results : List Byte) :
    Commits s (ofLength n p s (accept s results)).1 := ofLength_commits (.refl _)

theorem ofOutlet_accept_commits (s : State) (n : Nat) (p : List Byte) (results : Outlet → List Byte) :
    Commits s (ofLength n p s (ofOutlet p s fun o => accept s (results o))).1 :=
  ofLength_commits (ofOutlet_commits fun _ => .refl _)

end Sys2Proof.Machine
end

