-- ==== Sys2Proof/Proofs/Invariants.lean ====
section
/-! PROOFS. Supply-on, the dispatch over the commands, and the rules of the whole machine (O55 to O60). -/

namespace Sys2Proof.Machine

/-! ### Supply-on and CLEAR_FAULTS -/

theorem Berth.reset_sound : Berth.reset.Sound :=
  ⟨by constructor <;> simp [Berth.reset, OutletRecord.reset, RefGen.reset, Synchroniser.reset,
      Protection.reset, OutletState.inSession, OutletState.mode], fun h => absurd rfl h⟩

theorem State.reset_berth (o : Outlet) : State.reset.berth o = Berth.reset := by cases o <;> rfl

/-- At supply-on every outlet is that of reset with its lines as read. -/
theorem State.powered_berth (high : Bool) (closed : Quad Bool) (pending : List Instr) (o : Outlet) :
    ∃ l, (State.powered high closed pending).berth o = { Berth.reset with lines := l } := by
  cases o <;> exact ⟨_, rfl⟩

theorem State.reset_queue : State.reset.metering.queue = [] := rfl

theorem State.powered_metering (high : Bool) (closed : Quad Bool) (pending : List Instr) :
    (State.powered high closed pending).metering = State.reset.metering := rfl

theorem State.powered_noSessions (high : Bool) (closed : Quad Bool) (pending : List Instr) :
    (State.powered high closed pending).openSessions = 0 := rfl

theorem State.powered_holds (s : State) (high : Bool) (closed : Quad Bool) :
    Holds s (State.powered high closed s.pending) := by
  refine ⟨fun _ o => ?_, fun _ => ⟨?_, ?_, ?_⟩, fun _ o m hm => ?_, fun _ => ?_, fun _ => ?_, rfl, ?_⟩
  · obtain ⟨l, hl⟩ := State.powered_berth high closed s.pending o
    rw [hl]
    exact Berth.reset_sound.contact l rfl
  · rw [State.powered_metering, State.reset_queue]; exact .nil
  · rw [State.powered_metering, State.reset_queue]; exact List.forall_mem_nil _
  · rw [State.powered_metering, State.powered_noSessions, State.reset_queue]; exact Nat.zero_le _
  · obtain ⟨l, hl⟩ := State.powered_berth high closed s.pending o
    rw [hl] at hm; cases hm
  · exact (by decide : State.reset.fe.queue.length ≤ 32)
  · exact (by decide : State.reset.tb.subSecond < 1000000)
  · exact .inl (Nat.zero_le _)

/-- Operations after what every command keeps. -/
theorem Holds.thenKeeps {s t u : State} (h : Holds s t) (g : Keeps True t u)
    (hl : t.account.limit = u.account.limit) : Holds s u where
  sound x := g.sound trivial (h.sound x)
  billing x := g.billing (h.billing x)
  energy x := g.energy (h.energy x)
  events x := g.standing.events (h.events x)
  clock x := g.standing.clock (h.clock x)
  pending := g.standing.pending.trans h.pending
  claims := by
    have hg := g.claims
    have hh := h.claims
    omega

theorem execSupplyOn_holds {s t : State} {high : Bool} {closed : Quad Bool}
    (h : execSupplyOn high closed s = .next t) : Holds s t := by
  have fold : Keeps True (State.powered high closed s.pending)
      ((Outlet.all.filter closed.get).foldl State.unwantedClosure
        (State.powered high closed s.pending)) :=
    .foldl _ (fun _ _ => State.unwantedClosure_keeps _ _) _ _
  exact next_inj h ((State.powered_holds s high closed).thenKeeps fold fold.limit.symm)

/-- A command that changes FE's flags and SVL alone. -/
theorem clearFaults_holds {s t : State} (berths : t.berths = s.berths)
    (metering : t.metering = s.metering) (queue : t.fe.queue = s.fe.queue)
    (pending : t.pending = s.pending) (tb : t.tb = s.tb) : Holds s t ∧ EndsBilled s t := by
  have hb : ∀ o, t.berth o = s.berth o := fun o => by unfold State.berth; rw [berths]
  refine ⟨⟨fun hs o => by rw [hb]; exact hs o, fun h => ?_, fun h o m => ?_, ?_, ?_, pending, .inl ?_⟩,
    fun o m hs _ hn => ?_⟩
  · exact h.of_same metering (le_of_eq (State.openSessions_congr fun o => by rw [hb]))
  · rw [hb, metering]; exact h o m
  · unfold EventInv; rw [queue]; exact id
  · unfold ClockInv; rw [tb]; exact id
  · exact State.claims_le_of_berths fun o => by rw [hb]
  · rw [hb] at hn; rw [hn] at hs; cases hs

theorem execClearFaults_holds {s t : State} {tag : Byte} {p : List Byte}
    (h : execClearFaults tag p s = .next t) : Holds s t ∧ EndsBilled s t := by
  refine next_inj (p := fun t => Holds s t ∧ EndsBilled s t) h ?_
  unfold State.request
  split
  · exact clearFaults_holds rfl rfl rfl rfl rfl
  · unfold judgeClearFaults ofLength
    dsimp only
    split
    · split <;> exact clearFaults_holds rfl rfl rfl rfl rfl
    · exact clearFaults_holds rfl rfl rfl rfl rfl

/-! ### Every command -/

/-- What every command but SUPPLY_ON and CLEAR_FAULTS keeps. -/
theorem exec_commits {c : Instr} {s t : State} (supply : ∀ high closed, c ≠ .supplyOn high closed)
    (clear : ∀ tag p, c ≠ .clearFaults tag p) (h : exec c s = .next t) : Commits s t := by
  cases c with
  | supplyOn high closed => exact absurd rfl (supply _ _)
  | clearFaults tag p => exact absurd rfl (clear _ _)
  | resetInput => exact next_inj h (State.warmRestart_keeps _).commits
  | qualificationWindowEnd count => exact execQualificationWindowEnd_commits h
  | xoCheck count => exact execXoCheck_commits h
  | retryTimeExpiry => exact execRetryTimeExpiry_commits h
  | oneSecondTick => exact next_inj h (State.secondCompletes_keeps _).commits
  | ppsPulse => exact execPpsPulse_commits h
  | ppsTimeExpiry => exact execPpsTimeExpiry_commits h
  | zeroCrossing pt v c => exact execZeroCrossing_commits h
  | voltageOnlyCadence pt v => exact next_inj h (.thenIf _ fun _ => State.takeRecord_commits _ _ _ _ _)
  | cycleLapse pt v => exact next_inj h (.thenIf _ fun _ => State.takeRecord_commits _ _ _ _ _)
  | moduleReport m r =>
    refine next_inj h ?_
    split
    · exact .refl _
    · exact ((State.copyReport_keeps _ _ _).trans (State.judgeReport_keeps _ _ _)).commits.settle
  | moduleLineLoss m => exact execModuleLineLoss_commits h
  | commandRecord => exact execCommandRecord_commits h
  | startTimeExpiry => exact execStartTimeExpiry_commits h
  | stopCurrentTimeout m => exact next_inj h (.thenIf _ fun _ => (Keeps.onModule _ _ _).commits)
  | stopTimeExpiry m =>
    exact next_inj h (.thenIf _ fun _ => (State.moduleFaulted_keeps _ _ _).commits.settle)
  | holdTimeExpiry o => exact execHoldTimeExpiry_commits h
  | growWatchComplete o => exact execGrowWatchComplete_commits h
  | shrinkWatchComplete o => exact execShrinkWatchComplete_commits h
  | rgUpdate o => exact execRgUpdate_commits h
  | holdingTimeout o => exact execHoldingTimeout_commits h
  | dueInstant o => exact execDueInstant_commits h
  | confirmationTimeExpiry o => exact execConfirmationTimeExpiry_commits h
  | breakerFeedbackClosed o => exact execBreakerFeedbackClosed_commits h
  | breakerFeedbackOpen o => exact execBreakerFeedbackOpen_commits h
  | openDriveFailTime o => exact execOpenDriveFailTime_commits h
  | deadTimeComplete o => exact execDeadTimeComplete_commits h
  | pilotLoopClosed o => exact execPilotLoopClosed_commits h
  | pilotLoopOpen o => exact execPilotLoopOpen_commits h
  | importWatchComplete => exact execImportWatchComplete_commits h
  | capWatchComplete o => exact execCapWatchComplete_commits h
  | energiseTimeExpiry o => exact execEnergiseTimeExpiry_commits h
  | syncTimeExpiry o => exact execSyncTimeExpiry_commits h
  | rampInTick o => exact execRampInTick_commits h
  | capacityShortExpiry o =>
    exact next_inj h (.thenIf _ fun hc => State.abortRampIn_commits hc.1)
  | rampInLimitExpiry o => exact next_inj h (.thenIf _ fun hc => State.abortRampIn_commits hc.1)
  | returnWaitExpiry o => exact execReturnWaitExpiry_commits h
  | rampOutTick o => exact execRampOutTick_commits h
  | unloadedComplete o =>
    exact next_inj h (.thenIf _ fun hc => (State.openBreaker_keeps hc.1).commits.settle)
  | rampOutTimeout o => exact execRampOutTimeout_commits h
  | openTimeExpiry o => exact execOpenTimeExpiry_commits h
  | postTripTimeExpiry o => exact execPostTripTimeExpiry_commits h
  | voltageWatchComplete o =>
    exact next_inj h (.thenIf _ fun _ => State.watch_commits _ fun _ => ⟨rfl, rfl⟩)
  | capacityWatchComplete o =>
    exact next_inj h (.thenIf _ fun _ => State.watch_commits _ fun _ => ⟨rfl, rfl⟩)
  | reverseWatchComplete o =>
    exact next_inj h (.thenIf _ fun _ => State.watch_commits _ fun _ => ⟨rfl, rfl⟩)
  | gridWatchComplete => exact execGridWatchComplete_commits h
  | wakeTimeExpiry o => exact next_inj h (.thenIf _ fun _ => (Keeps.onSl _ _ _).commits)
  | replyWindowClose o held => exact execReplyWindowClose_commits h
  | present o held frame => exact next_inj h (State.hear_commits _ _ _ _)
  | status o held frame => exact next_inj h (State.hear_commits _ _ _ _)
  | badFrame o held src => exact next_inj h (State.hear_commits _ _ _ _)
  | incompleteFrame o held src => exact next_inj h (State.hear_commits _ _ _ _)
  | linkCycle o held => exact execLinkCycle_commits h
  | slotEnd o held frame => exact execSlotEnd_commits h
  | shipSlotExpiry o => exact execShipSlotExpiry_commits h
  | genStatus o held frame => exact execGenStatus_commits h
  | generatorStale o n => exact execGeneratorStale_commits h
  | lineDominant line => exact execLineDominant_commits h
  | stuckMissTick o => exact execStuckMissTick_commits h
  | stuckLook o dominant held => exact execStuckLook_commits h
  | gapOpens o => exact execGapOpens_commits h
  | idleGap next => exact next_inj h (.thenIf _ fun _ => .aside rfl rfl rfl rfl rfl)
  | receiveDiscard cause =>
    refine next_inj h (.thenIf _ fun _ => ?_)
    split <;> exact .aside rfl rfl rfl rfl rfl
  | crcError => exact next_inj h (.aside rfl rfl rfl rfl rfl)
  | busy kind tag => exact next_inj h (.thenIf _ fun _ => .aside rfl rfl rfl rfl rfl)
  | replySent => exact execReplySent_commits h
  | unknownRequest kind tag => exact next_inj h (State.request_commits _ _ (.refl _))
  | configureStation tag p =>
    exact next_inj h (State.request_commits _ _ (judgeConfigureStation_commits _ _))
  | readStation tag p => exact next_inj h (State.request_commits _ _ (ofLength_accept_commits _ _ _ _))
  | readTime tag p => exact next_inj h (State.request_commits _ _ (ofLength_accept_commits _ _ _ _))
  | setTime tag p => exact next_inj h (State.request_commits _ _ (judgeSetTime_commits _ _))
  | setImportLimit tag p =>
    exact next_inj h (State.request_commits _ _ (judgeSetImportLimit_commits _ _))
  | setBands tag p => exact next_inj h (State.request_commits _ _ (judgeSetBands_commits _ _))
  | restart tag p => exact next_inj h (State.request_commits _ _ (ofLength_accept_commits _ _ _ _))
  | declareModule tag p =>
    exact next_inj h (State.request_commits _ _ (judgeDeclareModule_commits _ _))
  | unlockModule tag p => exact next_inj h (State.request_commits _ _ (judgeUnlockModule_commits _ _))
  | withdrawModule tag p =>
    exact next_inj h (State.request_commits _ _ (judgeWithdrawModule_commits _ _))
  | readModules tag p => exact next_inj h (State.request_commits _ _ (ofLength_accept_commits _ _ _ _))
  | configureOutlet tag p =>
    exact next_inj h (State.request_commits _ _ (judgeConfigureOutlet_commits _ _))
  | readOutlet tag p => exact next_inj h (State.request_commits _ _ (ofOutlet_accept_commits _ _ _ _))
  | authorise tag p => exact next_inj h (State.request_commits _ _ (judgeAuthorise_commits _ _))
  | revoke tag p => exact next_inj h (State.request_commits _ _ (judgeRevoke_commits _ _))
  | readAuthorisations tag p =>
    exact next_inj h (State.request_commits _ _ (ofLength_accept_commits _ _ _ _))
  | endSession tag p => exact next_inj h (State.request_commits _ _ (judgeEndSession_commits _ _))
  | resetOutlet tag p => exact next_inj h (State.request_commits _ _ (judgeResetOutlet_commits _ _))
  | setCap tag p => exact next_inj h (State.request_commits _ _ (judgeSetCap_commits _ _))
  | setIslandTrim tag p =>
    exact next_inj h (State.request_commits _ _ (judgeSetIslandTrim_commits _ _))
  | readStations tag p =>
    exact next_inj h (State.request_commits _ _ (ofOutlet_accept_commits _ _ _ _))
  | readGenerators tag p =>
    exact next_inj h (State.request_commits _ _ (ofOutlet_accept_commits _ _ _ _))
  | readMeters tag p => exact next_inj h (State.request_commits _ _ (ofOutlet_accept_commits _ _ _ _))
  | readBilling tag p => exact next_inj h (State.request_commits _ _ (ofLength_accept_commits _ _ _ _))
  | releaseBilling tag p =>
    exact next_inj h (State.request_commits _ _ (judgeReleaseBilling_commits _ _))
  | flushInterval tag p =>
    exact next_inj h (State.request_commits _ _ (judgeFlushInterval_commits _ _))
  | readEvents tag p => exact next_inj h (State.request_commits _ _ (judgeReadEvents_commits _ _))
  | readFaults tag p => exact next_inj h (State.request_commits _ _ (ofLength_accept_commits _ _ _ _))
  | setReporting tag p =>
    exact next_inj h (State.request_commits _ _ (judgeSetReporting_commits _ _))
  | syncByte => exact next_inj h (.aside rfl rfl rfl rfl rfl)
  | leaderFrameSent o held => exact execLeaderFrameSent_commits h

/-- What every command keeps. -/
theorem exec_holds {c : Instr} {s t : State} (h : exec c s = .next t) : Holds s t := by
  by_cases supply : ∃ high closed, c = .supplyOn high closed
  · obtain ⟨high, closed, rfl⟩ := supply
    exact execSupplyOn_holds h
  · by_cases clear : ∃ tag p, c = .clearFaults tag p
    · obtain ⟨tag, p, rfl⟩ := clear
      exact (execClearFaults_holds h).1
    · exact (exec_commits (fun _ _ hc => supply ⟨_, _, hc⟩) (fun _ _ hc => clear ⟨_, _, hc⟩) h).toHolds

/-! ### Steps -/

/-- What every step keeps of the outlets, the billing queue, the meters, the event queue and the clock. -/
structure StepKeeps (s t : State) : Prop where
  sound : s.Sound → t.Sound
  billing : BillingInv s → BillingInv t
  energy : EnergyInv s → EnergyInv t
  events : EventInv s → EventInv t
  clock : ClockInv s → ClockInv t

/-- A change of the queue of waiting commands and the clock alone. -/
theorem StepKeeps.aside {s t : State} (berths : t.berths = s.berths) (metering : t.metering = s.metering)
    (fe : t.fe = s.fe) (clock : ClockInv s → ClockInv t) : StepKeeps s t := by
  have hb : ∀ o, t.berth o = s.berth o := fun o => by unfold State.berth; rw [berths]
  refine ⟨fun hs o => by rw [hb]; exact hs o, fun h => ?_, fun h o m => ?_, ?_, clock⟩
  · exact h.of_same metering (le_of_eq (State.openSessions_congr fun o => by rw [hb]))
  · rw [hb, metering]; exact h o m
  · unfold EventInv; rw [fe]; exact id

theorem StepKeeps.trans {s t u : State} (h : StepKeeps s t) (g : StepKeeps t u) : StepKeeps s u :=
  ⟨fun x => g.sound (h.sound x), fun x => g.billing (h.billing x), fun x => g.energy (h.energy x),
    fun x => g.events (h.events x), fun x => g.clock (h.clock x)⟩

theorem State.idle_stepKeeps (s : State) : StepKeeps s s.idle := by
  unfold State.idle
  split
  · exact .aside rfl rfl rfl id
  · unfold State.microsecond
    split
    · exact .aside rfl rfl rfl id
    · refine .aside rfl rfl rfl fun hc => ?_
      unfold ClockInv at hc ⊢
      dsimp only
      omega

theorem step_stepKeeps {s t : State} (h : step s = .next t) : StepKeeps s t := by
  unfold step at h
  split at h
  · cases h; exact State.idle_stepKeeps s
  · rename_i c rest _
    have kept := exec_holds h
    exact (StepKeeps.aside (s := s) (t := { s with pending := rest }) rfl rfl rfl id).trans
      ⟨kept.sound, kept.billing, kept.energy, kept.events, kept.clock⟩

end Sys2Proof.Machine

namespace Sys2Proof.Proofs

open Machine

/-- Settles O55: every operation that stores a record finds an entry to spare, or ends a session with it. -/
theorem billingQueueStaysInOrder : Obligations.BillingQueueStaysInOrder :=
  fun _ _ hs h => (step_stepKeeps h).billing hs

/-- Settles O56: soundness of the outlets (`Berth.Sound`) is kept by every operation, and by every change of
state that the outlet may make (`Berth.MayMove`). -/
theorem outletBlocksStayTogether : Obligations.OutletBlocksStayTogether := by
  intro s t hinv htargets h
  have sound : t.Sound := (step_stepKeeps h).sound fun o => ⟨hinv o, htargets o⟩
  exact ⟨fun o => (sound o).inv, fun o => (sound o).targets⟩

/-- Settles O57: every change of a meter follows its energies (`Meter.Follows`, `State.nextMeter_fits`). -/
theorem energyIsConserved : Obligations.EnergyIsConserved :=
  fun _ _ hs h => (step_stepKeeps h).energy hs

/-- Settles O58. -/
theorem boundsAndFlagsStand : Obligations.BoundsAndFlagsStand :=
  ⟨fun _ _ hs h => (step_stepKeeps h).events hs, fun _ _ hs h => (step_stepKeeps h).clock hs,
    fun _ _ _ supply clear h => (exec_commits supply clear h).flags, fun _ _ _ h => (exec_holds h).claims⟩

/-- Settles O59: a session that is served is served still, or has been billed with its breaker open
(`State.Owes`). -/
theorem sessionsCloseOpenAndBilled : Obligations.SessionsCloseOpenAndBilled := by
  intro c s t o m supply hs hm h hn
  have ends : EndsBilled s t := by
    by_cases clear : ∃ tag p, c = .clearFaults tag p
    · obtain ⟨tag, p, rfl⟩ := clear
      exact (execClearFaults_holds h).2
    · exact (exec_commits supply (fun _ _ hc => clear ⟨_, _, hc⟩) h).ends
  exact ends o m hs hm hn

/-- Settles O60. -/
theorem resetMeetsTheInvariants : Obligations.ResetMeetsTheInvariants := by
  have sound : State.reset.Sound := fun o => by rw [State.reset_berth]; exact Berth.reset_sound
  refine ⟨⟨by rw [State.reset_queue]; exact .nil,
    by rw [State.reset_queue]; exact List.forall_mem_nil _, by decide⟩, fun o => (sound o).inv, fun o => (sound o).targets,
    fun o m hm => ?_, ?_, ?_⟩
  · rw [State.reset_berth] at hm; cases hm
  · exact (by decide : State.reset.fe.queue.length ≤ 32)
  · exact (by decide : State.reset.tb.subSecond < 1000000)

end Sys2Proof.Proofs
end

