-- ==== Sys2Proof/Proofs/Queue.lean ====
section
/-! PROOFS. The machine's own steps (O1 to O4): a command's evaluation pass is made within it, and commands
that do not apply change nothing. -/

namespace Sys2Proof.Machine

/-! ### The call for an evaluation pass -/

/-- No evaluation pass is due after the passes of a step (R88). -/
@[simp] theorem State.settle_passDue (s : State) : s.settle.passDue = false := by
  have passes : ∀ n (t : State), (t.passes n).passDue = false := fun n => by
    induction n with
    | zero => exact fun _ => rfl
    | succ n ih =>
      intro t
      unfold State.passes
      split
      · exact ih _
      · rename_i h; simpa using h
  exact passes _ _

theorem passDue_foldl {α : Type} (f : State → α → State) (h : ∀ s a, (f s a).passDue = s.passDue)
    (l : List α) (s : State) : (l.foldl f s).passDue = s.passDue := by
  induction l generalizing s with
  | nil => rfl
  | cons a l ih => exact (ih _).trans (h _ _)

@[simp] theorem State.noteQuality_passDue (s : State) : s.noteQuality.passDue = s.passDue :=
  passDue_foldl (fun t o => t.onMt o fun m => { m with interval := m.interval.see s.tb.quality })
    (fun _ _ => rfl) _ _

@[simp] theorem State.store_passDue (s : State) (r : BillingRecord) :
    (s.store r).passDue = s.passDue := by unfold State.store; dsimp only; split <;> rfl

@[simp] theorem State.closeInterval_passDue (s : State) (o : Outlet) (r : ClosingReason) :
    (s.closeInterval o r).passDue = s.passDue := by
  cases hm : (s.berth o).mt with
  | none => rw [State.closeInterval_of_none hm]
  | some m => rw [State.closeInterval_of_some hm, State.onBerth_passDue, State.store_passDue]

@[simp] theorem State.meterTick_passDue (s : State) : s.meterTick.passDue = s.passDue := by
  unfold State.meterTick
  split
  · refine passDue_foldl _ (fun t o => ?_) _ _
    unfold State.serveBoundary
    split
    · exact State.closeInterval_passDue _ _ _
    · rfl
  · rfl

@[simp] theorem State.meterTimeStep_passDue (s : State) : s.meterTimeStep.passDue = s.passDue := by
  refine passDue_foldl _ (fun t o => ?_) _ _
  unfold State.serveTimeStep
  split
  · exact State.closeInterval_passDue _ _ _
  · rfl

@[simp] theorem State.secondCompletes_passDue (s : State) : s.secondCompletes.passDue = s.passDue :=
  State.meterTick_passDue _

@[simp] theorem State.align_passDue (s : State) : s.align.passDue = s.passDue := by
  unfold State.align
  split
  · exact State.secondCompletes_passDue _
  · rfl

theorem State.warmRestart_passDue (s : State) : s.warmRestart.passDue = false := by
  refine (passDue_foldl _ (fun t o => ?_) _ _).trans rfl
  unfold State.reportRestart
  dsimp only
  split
  · show State.passDue (if _ then _ else _) = _
    split <;> simp
  · split <;> simp

/-- A command calls for no evaluation pass that it does not make: none is due after it where none was due
before. -/
def KeepsNoPass (s t : State) : Prop := s.passDue = false → t.passDue = false

theorem KeepsNoPass.settle (s t : State) : KeepsNoPass s t.settle := fun _ => State.settle_passDue t

theorem KeepsNoPass.of_eq {s t : State} (h : t.passDue = s.passDue) : KeepsNoPass s t := h.trans

theorem KeepsNoPass.refl (s : State) : KeepsNoPass s s := id

theorem KeepsNoPass.next {s a t : State}
    (h : Host.Outcome.next a = (.next t : Host.Outcome State Fault Refusal)) (g : KeepsNoPass s a) :
    KeepsNoPass s t := next_inj h g

/-- A command that acts under a condition alone. -/
theorem KeepsNoPass.thenIf {s t : State} (c : Prop) [Decidable c] (h : KeepsNoPass s t) :
    KeepsNoPass s (if c then t else s) := by
  split
  · exact h
  · exact id

theorem State.request_noPass {s : State} (kind tag : Byte) {judge : State → Verdict}
    (h : KeepsNoPass s (judge s).1) : KeepsNoPass s (s.request kind tag judge) := by
  unfold State.request
  split
  · exact id
  · exact h

theorem ofLength_noPass {s : State} {n : Nat} {p : List Byte} {judge : Verdict}
    (h : KeepsNoPass s judge.1) : KeepsNoPass s (ofLength n p s judge).1 := by
  unfold ofLength
  split
  · exact h
  · exact id

theorem ofOutlet_noPass {s : State} {p : List Byte} {judge : Outlet → Verdict}
    (h : ∀ o, KeepsNoPass s (judge o).1) : KeepsNoPass s (ofOutlet p s judge).1 := by
  unfold ofOutlet
  split
  · exact h _
  · exact id

theorem ofModule_noPass {s : State} {p : List Byte} {judge : ModuleNo → Verdict}
    (h : ∀ m, KeepsNoPass s (judge m).1) : KeepsNoPass s (ofModule p s judge).1 := by
  unfold ofModule
  split
  · exact h _
  · exact id

theorem State.hear_noPass (s : State) (o : Outlet) (held : Bool) (h : Heard) :
    KeepsNoPass s (s.hear o held h) := by
  unfold State.hear
  split
  · exact .settle _ _
  all_goals exact id

/-- What every command but the requests leaves of the call for a pass. -/
theorem exec_noPass {c : Instr} {s t : State} (h : exec c s = .next t) : KeepsNoPass s t := by
  cases c with
  | supplyOn high closed =>
    refine KeepsNoPass.next h fun _ => ?_
    exact (passDue_foldl State.unwantedClosure (fun _ _ => rfl) _ _).trans rfl
  | resetInput => exact KeepsNoPass.next h fun _ => State.warmRestart_passDue s
  | qualificationWindowEnd count =>
    refine KeepsNoPass.next h (.thenIf _ ?_)
    dsimp only
    split
    · exact .of_eq (State.noteQuality_passDue _)
    · split
      · split <;> exact id
      · exact id
  | xoCheck count =>
    refine KeepsNoPass.next h (.thenIf _ ?_)
    generalize (if windowPasses count then 0 else s.tb.fails + 1) = fails
    dsimp only
    split
    · exact .of_eq (State.noteQuality_passDue _)
    · exact id
  | retryTimeExpiry => exact KeepsNoPass.next h (.thenIf _ id)
  | oneSecondTick => exact KeepsNoPass.next h (.of_eq (State.secondCompletes_passDue _))
  | ppsPulse =>
    refine KeepsNoPass.next h ?_
    split
    · exact id
    · split
      · exact id
      · refine .of_eq ((State.align_passDue _).trans ((State.noteQuality_passDue _).trans ?_))
        unfold State.reportJump
        split <;> rfl
  | ppsTimeExpiry =>
    exact KeepsNoPass.next h (.thenIf _ (.of_eq (State.noteQuality_passDue _)))
  | zeroCrossing pt v c =>
    refine KeepsNoPass.next h ?_
    split
    · exact .settle _ _
    · cases pt <;> exact id
  | voltageOnlyCadence pt v => exact KeepsNoPass.next h (.thenIf _ (.settle _ _))
  | cycleLapse pt v => exact KeepsNoPass.next h (.thenIf _ (.settle _ _))
  | moduleReport m r =>
    refine KeepsNoPass.next h ?_
    split
    · exact id
    · exact .settle _ _
  | moduleLineLoss m =>
    refine KeepsNoPass.next h ?_
    dsimp only
    split
    · exact id
    · split <;> first | exact .settle _ _ | exact id
  | commandRecord =>
    refine KeepsNoPass.next h (.of_eq (passDue_foldl _ (fun t m => ?_) _ _))
    unfold State.sendCommand
    split <;> rfl
  | startTimeExpiry =>
    refine KeepsNoPass.next h ?_
    split
    · exact .settle _ _
    · exact id
  | stopCurrentTimeout m => exact KeepsNoPass.next h (.thenIf _ id)
  | stopTimeExpiry m => exact KeepsNoPass.next h (.thenIf _ (.settle _ _))
  | holdTimeExpiry o => exact KeepsNoPass.next h (.thenIf _ (.settle _ _))
  | growWatchComplete o => exact KeepsNoPass.next h (.thenIf _ (.settle _ _))
  | shrinkWatchComplete o =>
    refine KeepsNoPass.next h (.thenIf _ ?_)
    split <;> exact id
  | rgUpdate o => exact KeepsNoPass.next h id
  | holdingTimeout o => exact KeepsNoPass.next h (.thenIf _ id)
  | dueInstant o =>
    refine KeepsNoPass.next h ?_
    split
    · exact .settle _ _
    all_goals exact id
  | confirmationTimeExpiry o => exact KeepsNoPass.next h (.thenIf _ (.settle _ _))
  | breakerFeedbackClosed o =>
    refine KeepsNoPass.next h ?_
    split
    · exact id
    · exact .settle _ _
  | breakerFeedbackOpen o => exact KeepsNoPass.next h (.thenIf _ (.settle _ _))
  | openDriveFailTime o =>
    refine KeepsNoPass.next h (.thenIf _ ?_)
    dsimp only
    split <;> exact id
  | deadTimeComplete o => exact KeepsNoPass.next h (.thenIf _ (.settle _ _))
  | pilotLoopClosed o =>
    refine KeepsNoPass.next h ?_
    dsimp only
    split
    · exact id
    · split
      · exact .settle _ _
      · exact id
  | pilotLoopOpen o => exact KeepsNoPass.next h (.thenIf _ (.settle _ _))
  | importWatchComplete => exact KeepsNoPass.next h (.thenIf _ id)
  | capWatchComplete o => exact KeepsNoPass.next h (.thenIf _ id)
  | energiseTimeExpiry o => exact KeepsNoPass.next h (.thenIf _ (.settle _ _))
  | syncTimeExpiry o =>
    refine KeepsNoPass.next h (.thenIf _ ?_)
    split
    · exact .settle _ _
    · exact id
  | rampInTick o =>
    refine KeepsNoPass.next h (.thenIf _ ?_)
    dsimp only
    split <;> exact id
  | capacityShortExpiry o => exact KeepsNoPass.next h (.thenIf _ (.settle _ _))
  | rampInLimitExpiry o => exact KeepsNoPass.next h (.thenIf _ (.settle _ _))
  | returnWaitExpiry o => exact KeepsNoPass.next h (.thenIf _ id)
  | rampOutTick o => exact KeepsNoPass.next h (.thenIf _ id)
  | unloadedComplete o => exact KeepsNoPass.next h (.thenIf _ (.settle _ _))
  | rampOutTimeout o => exact KeepsNoPass.next h (.thenIf _ (.settle _ _))
  | openTimeExpiry o =>
    refine KeepsNoPass.next h (.thenIf _ ?_)
    dsimp only
    split <;> exact id
  | postTripTimeExpiry o =>
    refine KeepsNoPass.next h (.thenIf _ ?_)
    split <;> exact id
  | voltageWatchComplete o => exact KeepsNoPass.next h (.thenIf _ (.settle _ _))
  | capacityWatchComplete o => exact KeepsNoPass.next h (.thenIf _ (.settle _ _))
  | reverseWatchComplete o => exact KeepsNoPass.next h (.thenIf _ (.settle _ _))
  | gridWatchComplete => exact KeepsNoPass.next h (.thenIf _ (.settle _ _))
  | wakeTimeExpiry o => exact KeepsNoPass.next h (.thenIf _ id)
  | replyWindowClose o held =>
    refine KeepsNoPass.next h ?_
    split
    · exact .settle _ _
    all_goals exact id
  | present o held frame => exact KeepsNoPass.next h (State.hear_noPass _ _ _ _)
  | status o held frame => exact KeepsNoPass.next h (State.hear_noPass _ _ _ _)
  | badFrame o held src => exact KeepsNoPass.next h (State.hear_noPass _ _ _ _)
  | incompleteFrame o held src => exact KeepsNoPass.next h (State.hear_noPass _ _ _ _)
  | linkCycle o held => exact KeepsNoPass.next h (.thenIf _ id)
  | slotEnd o held frame =>
    refine KeepsNoPass.next h ?_
    split
    · exact .thenIf _ id
    all_goals exact State.hear_noPass _ _ _ _
  | shipSlotExpiry o =>
    refine KeepsNoPass.next h ?_
    split <;> exact id
  | genStatus o held frame =>
    refine KeepsNoPass.next h ?_
    split
    · exact .thenIf _ (.settle _ _)
    · exact State.hear_noPass _ _ _ _
  | generatorStale o n =>
    refine KeepsNoPass.next h ?_
    split
    · exact id
    · exact .settle _ _
  | lineDominant line => exact KeepsNoPass.next h (.thenIf _ (.settle _ _))
  | stuckMissTick o => exact KeepsNoPass.next h (.thenIf _ (.settle _ _))
  | stuckLook o dominant held =>
    refine KeepsNoPass.next h (.thenIf _ ?_)
    dsimp only
    split
    · exact id
    · split <;> exact id
  | gapOpens o => exact KeepsNoPass.next h (.thenIf _ id)
  | idleGap next => exact KeepsNoPass.next h (.thenIf _ id)
  | receiveDiscard cause =>
    refine KeepsNoPass.next h (.thenIf _ ?_)
    split <;> exact id
  | crcError => exact KeepsNoPass.next h id
  | busy kind tag => exact KeepsNoPass.next h (.thenIf _ id)
  | replySent =>
    refine KeepsNoPass.next h ?_
    split
    · exact id
    · dsimp only
      split
      · exact fun _ => State.warmRestart_passDue _
      · exact id
  | unknownRequest kind tag => exact KeepsNoPass.next h (State.request_noPass _ _ id)
  | configureStation tag p =>
    refine KeepsNoPass.next h (State.request_noPass _ _ (ofLength_noPass ?_))
    dsimp only
    split
    · exact id
    · split
      · exact id
      · exact .of_eq (State.noteQuality_passDue _)
  | readStation tag p => exact KeepsNoPass.next h (State.request_noPass _ _ (ofLength_noPass id))
  | readTime tag p => exact KeepsNoPass.next h (State.request_noPass _ _ (ofLength_noPass id))
  | setTime tag p =>
    exact KeepsNoPass.next h (State.request_noPass _ _ (ofLength_noPass
      (.of_eq ((State.noteQuality_passDue _).trans (State.meterTimeStep_passDue _)))))
  | setImportLimit tag p =>
    refine KeepsNoPass.next h (State.request_noPass _ _ (ofLength_noPass ?_))
    split
    · exact id
    · exact .settle _ _
  | setBands tag p =>
    refine KeepsNoPass.next h (State.request_noPass _ _ (ofLength_noPass ?_))
    split
    · exact id
    · split <;> exact id
  | restart tag p => exact KeepsNoPass.next h (State.request_noPass _ _ (ofLength_noPass id))
  | declareModule tag p =>
    refine KeepsNoPass.next h (State.request_noPass _ _ (ofLength_noPass
      (ofModule_noPass fun m => ?_)))
    dsimp only
    split
    · exact id
    · split <;> first | exact .settle _ _ | exact id
  | unlockModule tag p =>
    refine KeepsNoPass.next h (State.request_noPass _ _ (ofLength_noPass
      (ofModule_noPass fun m => ?_)))
    split <;> first | exact .settle _ _ | exact id
  | withdrawModule tag p =>
    refine KeepsNoPass.next h (State.request_noPass _ _ (ofLength_noPass
      (ofModule_noPass fun m => ?_)))
    split <;> first | exact .settle _ _ | exact id
  | readModules tag p => exact KeepsNoPass.next h (State.request_noPass _ _ (ofLength_noPass id))
  | configureOutlet tag p =>
    refine KeepsNoPass.next h (State.request_noPass _ _ (ofLength_noPass
      (ofOutlet_noPass fun o => ?_)))
    generalize OutletChange.read p = c
    rw [apply_ite Prod.fst, apply_ite Prod.fst]
    split
    · exact id
    · split <;> exact id
  | readOutlet tag p =>
    exact KeepsNoPass.next h (State.request_noPass _ _ (ofLength_noPass (ofOutlet_noPass fun _ => id)))
  | authorise tag p =>
    refine KeepsNoPass.next h (State.request_noPass _ _ (ofLength_noPass ?_))
    split
    · rename_i outlet _ _
      generalize readAuthEntry p outlet = e
      dsimp only
      split
      · exact id
      · rename_i place _
        exact .settle s { s.setPlace place (some e) with passDue := true }
    · exact id
  | revoke tag p =>
    refine KeepsNoPass.next h (State.request_noPass _ _ (ofLength_noPass ?_))
    split
    · exact id
    · split <;> exact id
  | readAuthorisations tag p =>
    exact KeepsNoPass.next h (State.request_noPass _ _ (ofLength_noPass id))
  | endSession tag p =>
    refine KeepsNoPass.next h (State.request_noPass _ _ (ofLength_noPass
      (ofOutlet_noPass fun o => ?_)))
    split
    · exact id
    · exact .settle _ _
  | resetOutlet tag p =>
    refine KeepsNoPass.next h (State.request_noPass _ _ (ofLength_noPass
      (ofOutlet_noPass fun o => ?_)))
    split
    · exact .settle _ _
    · exact id
  | setCap tag p =>
    refine KeepsNoPass.next h (State.request_noPass _ _ (ofLength_noPass
      (ofOutlet_noPass fun o => ?_)))
    dsimp only
    split
    · exact id
    · split
      · exact id
      · exact .settle _ _
  | setIslandTrim tag p =>
    exact KeepsNoPass.next h (State.request_noPass _ _ (ofLength_noPass (ofOutlet_noPass fun _ => id)))
  | readStations tag p =>
    exact KeepsNoPass.next h (State.request_noPass _ _ (ofLength_noPass (ofOutlet_noPass fun _ => id)))
  | readGenerators tag p =>
    exact KeepsNoPass.next h (State.request_noPass _ _ (ofLength_noPass (ofOutlet_noPass fun _ => id)))
  | readMeters tag p =>
    exact KeepsNoPass.next h (State.request_noPass _ _ (ofLength_noPass (ofOutlet_noPass fun _ => id)))
  | readBilling tag p => exact KeepsNoPass.next h (State.request_noPass _ _ (ofLength_noPass id))
  | releaseBilling tag p =>
    refine KeepsNoPass.next h (State.request_noPass _ _ (ofLength_noPass ?_))
    dsimp only
    split
    · exact id
    · exact .settle _ _
  | flushInterval tag p =>
    refine KeepsNoPass.next h (State.request_noPass _ _ (ofLength_noPass
      (ofOutlet_noPass fun o => ?_)))
    split
    · exact id
    · split
      · exact id
      · exact .of_eq (State.closeInterval_passDue _ _ _)
  | readEvents tag p => exact KeepsNoPass.next h (State.request_noPass _ _ (ofLength_noPass id))
  | readFaults tag p => exact KeepsNoPass.next h (State.request_noPass _ _ (ofLength_noPass id))
  | clearFaults tag p =>
    refine KeepsNoPass.next h (State.request_noPass _ _ (ofLength_noPass ?_))
    dsimp only
    split <;> exact id
  | setReporting tag p => exact KeepsNoPass.next h (State.request_noPass _ _ (ofLength_noPass id))
  | syncByte => exact KeepsNoPass.next h id
  | leaderFrameSent o held =>
    refine KeepsNoPass.next h ?_
    split
    · split <;> exact id
    all_goals exact id

/-- Every command answers a next state. -/
theorem exec_isNext (c : Instr) (s : State) : ∃ t, exec c s = .next t := by
  cases c <;> exact ⟨_, rfl⟩

end Sys2Proof.Machine

namespace Sys2Proof.Proofs

open Machine

/-- Settles O1. -/
theorem stepRunsFrontCommand : Obligations.StepRunsFrontCommand := by
  intro c rest s h
  unfold step
  rw [h]

/-- Settles O2: the outcome is a next state by the command's own definition, and what it keeps is said by
`exec_holds` and `exec_noPass`. -/
theorem everyCommandAnswersAndKeepsTheQueue : Obligations.EveryCommandAnswersAndKeepsTheQueue := by
  intro c s
  obtain ⟨t, h⟩ := exec_isNext c s
  exact ⟨t, h, (exec_holds h).pending, exec_noPass h⟩

end Sys2Proof.Proofs
end

