-- ==== Sys2Proof/Proofs/OwnSteps.lean ====
section
/-! PROOFS. The values at supply-on (O4), idle steps and commands that do not apply (O3). -/

namespace Sys2Proof.Proofs

open Machine

/-- Settles O4: block by block, as `State.reset` gives them. -/
theorem resetHoldsTheSupplyOnValues : Obligations.ResetHoldsTheSupplyOnValues := by
  refine ⟨by decide, fun pt => ?_, fun o => ?_, fun m => ?_, by decide, fun o => ?_, fun o => ?_,
    fun o => ?_, fun o => ?_, rfl, by decide, by decide, by decide, by decide⟩
  · cases pt with
    | grid => exact ⟨rfl, rfl, rfl, rfl⟩
    | shore o => cases o <;> exact ⟨rfl, rfl, rfl, rfl⟩
    | ship o => cases o <;> exact ⟨rfl, rfl, rfl, rfl⟩
  · rw [State.reset_berth]; exact ⟨rfl, rfl, rfl⟩
  · have : State.reset.module m = .reset := by cases m <;> rfl
    rw [this]; repeat' constructor
  all_goals rw [State.reset_berth]; repeat' constructor

/-- An idle step of the part (log entry 2). -/
theorem step_idle {s : State} (h : s.pending = []) : step s = .next s.idle := by
  unfold step; rw [h]

/-- A state in which a command's condition does not hold is left as it is. -/
theorem next_ite_of_not {c : Prop} [Decidable c] (h : ¬c) (s t : State) :
    (Host.Outcome.next (if c then t else s) : Host.Outcome State Fault Refusal) = .next s := by
  rw [if_neg h]

theorem hear_quiet {s : State} {o : Outlet} (h : (s.berth o).sl.activity = .quiet) (held : Bool)
    (hd : Heard) : s.hear o held hd = s := by unfold State.hear; rw [h]

/-- Settles O3: each command is a case of its own condition. -/
theorem idleStepsAndInapplicableCommands : Obligations.IdleStepsAndInapplicableCommands := by
  refine ⟨fun s hs => ⟨fun c rest hd => ?_, fun hd ht => ?_, fun hd ht => ?_⟩, fun o m held n s => ?_⟩
  · rw [step_idle hs, State.idle, hd]
  · rw [step_idle hs, State.idle, hd]
    simp only [State.microsecond, if_neg (not_le.mpr ht)]
  · rw [step_idle hs, State.idle, hd]
    simp only [State.microsecond, if_pos ht]
  · refine ⟨fun h => next_ite_of_not h _ _, fun h => next_ite_of_not h _ _,
      fun h => next_ite_of_not (fun c => h c.1) _ _, fun h => next_ite_of_not (fun c => by simp [h] at c) _ _,
      fun pt v => ⟨fun h => next_ite_of_not (fun c => h (by simpa using c)) _ _, fun h => next_ite_of_not ?_ _ _⟩,
      fun h => by show Host.Outcome.next _ = _; rw [h],
      fun h => ⟨next_ite_of_not h _ _, next_ite_of_not (fun c => h c.1) _ _⟩,
      fun h => next_ite_of_not ?_ _ _, fun h => next_ite_of_not ?_ _ _, fun h => next_ite_of_not ?_ _ _,
      fun h => next_ite_of_not ?_ _ _, fun h => ?_, fun h => next_ite_of_not h _ _, fun h => ?_,
      fun h => ⟨next_ite_of_not ?_ _ _, next_ite_of_not ?_ _ _⟩, fun h => next_ite_of_not ?_ _ _,
      fun h => next_ite_of_not ?_ _ _, fun h => ?_, fun h => next_ite_of_not ?_ _ _,
      fun h => next_ite_of_not ?_ _ _, fun h => next_ite_of_not ?_ _ _,
      fun h => next_ite_of_not (fun c => h c.1) _ _, fun h => next_ite_of_not ?_ _ _,
      fun h => ⟨next_ite_of_not h _ _, next_ite_of_not (fun c => h c.1) _ _,
        next_ite_of_not (fun c => h c.1) _ _⟩, fun h => next_ite_of_not (fun c => h c.1) _ _,
      fun h => ⟨next_ite_of_not h _ _, next_ite_of_not (fun c => h c.1) _ _,
        next_ite_of_not (fun c => h c.1) _ _⟩, fun h => next_ite_of_not (fun c => h c.1) _ _,
      fun h => next_ite_of_not ?_ _ _, fun h => next_ite_of_not ?_ _ _,
      fun h => next_ite_of_not ?_ _ _, fun h => next_ite_of_not ?_ _ _, fun h => next_ite_of_not ?_ _ _,
      fun h => next_ite_of_not h _ _, fun h => ?_, fun h => next_ite_of_not (fun c => h c.1) _ _,
      fun h => ⟨next_ite_of_not h _ _, fun d => next_ite_of_not h _ _⟩,
      fun h h' cut => next_ite_of_not (not_or.mpr ⟨h, h'⟩) _ _,
      fun h => ⟨fun b => next_ite_of_not ?_ _ _, fun c => next_ite_of_not ?_ _ _⟩,
      fun h kind tag => next_ite_of_not ?_ _ _⟩
    case refine_4.refine_5 => simp [RefGen.awaitsPair, h]
    case refine_4.refine_6 =>
      show Host.Outcome.next _ = _
      split
      · exact absurd ‹_› (h _)
      all_goals rfl
    case refine_4.refine_7 => exact congrArg Host.Outcome.next (if_pos h)
    case refine_4.refine_12 => exact congrArg Host.Outcome.next (if_pos h)
    case refine_4.refine_22 =>
      have heard : ∀ hd, s.hear o held hd = s := hear_quiet h held
      refine ⟨?_, ?_, ?_, fun f => ⟨congrArg _ (heard _), congrArg _ (heard _), ?_, ?_⟩,
        fun src => congrArg _ (heard _), fun src => congrArg _ (heard _)⟩
      · show Host.Outcome.next _ = _; rw [h]
      · show Host.Outcome.next _ = _; rw [h]
      · show Host.Outcome.next _ = _; rw [h]
      · show Host.Outcome.next _ = _
        rw [h]
        exact congrArg _ (heard _)
      · show Host.Outcome.next _ = _
        rw [h]
        exact congrArg _ (heard _)
    all_goals simp [h]

end Sys2Proof.Proofs
end


-- ==== Sys2Proof/Proofs/Timebase.lean ====
section
/-! PROOFS. The timebase: qualification and the crystal check (R1 to R4), the one-second tick (R6), and
pulses (R10, R11). -/

namespace Sys2Proof.Machine

open Sys2Proof

/-! ### Meters alone change -/

/-- Nothing changes but the session meters, the billing queue and FE's event queue. -/
structure Metered (s t : State) : Prop where
  rest : t = { s with metering := t.metering, fe := t.fe, berths := t.berths }
  berth : ∀ o, t.berth o = { s.berth o with mt := (t.berth o).mt }
  noFault : NoFault s t

theorem Metered.refl (s : State) : Metered s s := ⟨rfl, fun _ => rfl, .refl _⟩

theorem Metered.trans {s t u : State} (h : Metered s t) (g : Metered t u) : Metered s u where
  rest := g.rest.trans
    (congrArg (fun x : State => { x with metering := u.metering, fe := u.fe, berths := u.berths })
      h.rest)
  berth o := (g.berth o).trans (congrArg (fun b : Berth => { b with mt := (u.berth o).mt }) (h.berth o))
  noFault := h.noFault.trans g.noFault

theorem Metered.tb {s t : State} (h : Metered s t) : t.tb = s.tb := by rw [h.rest]

theorem Metered.account {s t : State} (h : Metered s t) : t.account = s.account := by rw [h.rest]

theorem Metered.foldl {α : Type} (f : State → α → State) (h : ∀ s a, Metered s (f s a)) (l : List α)
    (s : State) : Metered s (l.foldl f s) := by
  induction l generalizing s with
  | nil => exact .refl s
  | cons a l ih => exact (h s a).trans (ih _)

/-- A change of one outlet's meter. -/
theorem Metered.onBerth (s : State) (o : Outlet) (f : Berth → Berth)
    (hf : ∀ b, f b = { b with mt := (f b).mt }) : Metered s (s.onBerth o f) where
  rest := rfl
  berth p := by
    by_cases e : p = o
    · subst e; rw [State.berth_onBerth_self]; exact hf _
    · rw [State.berth_onBerth_ne _ _ e]
  noFault := ⟨rfl, rfl, rfl⟩

theorem Metered.onMt (s : State) (o : Outlet) (f : Meter → Meter) : Metered s (s.onMt o f) :=
  .onBerth s o _ fun _ => rfl

theorem Metered.store (s : State) (r : BillingRecord) : Metered s (s.store r) where
  rest := by unfold State.store; dsimp only; split <;> rfl
  berth o := by unfold State.berth; rw [State.store_berths]
  noFault := by
    unfold State.store
    dsimp only
    split
    · exact ⟨FaultUnit.offer_flags _ _, FaultUnit.offer_sinceClear _ _, FaultUnit.offer_capture _ _⟩
    · exact ⟨rfl, rfl, rfl⟩

theorem State.closeInterval_metered (s : State) (o : Outlet) (r : ClosingReason) :
    Metered s (s.closeInterval o r) := by
  unfold State.closeInterval
  split
  · exact .refl s
  · exact (Metered.store s _).trans (.onBerth _ o _ fun _ => rfl)

theorem State.serveBoundary_metered (s : State) (o : Outlet) : Metered s (s.serveBoundary o) := by
  unfold State.serveBoundary
  split
  · exact s.closeInterval_metered o _
  · exact .onMt s o _

theorem State.serveTimeStep_metered (s : State) (o : Outlet) : Metered s (s.serveTimeStep o) := by
  unfold State.serveTimeStep
  split
  · exact s.closeInterval_metered o _
  · exact .onMt s o _

theorem State.meterTick_metered (s : State) : Metered s s.meterTick := by
  unfold State.meterTick
  split
  · exact .foldl _ State.serveBoundary_metered _ _
  · exact .refl s

theorem State.meterTick_of_no_boundary {s : State} (h : s.atBoundary = false) : s.meterTick = s :=
  if_neg (by simp [h])

theorem Metered.atBoundary {s t : State} (h : Metered s t)
    (hl : t.metering.length = s.metering.length) : t.atBoundary = s.atBoundary := by
  simp only [State.atBoundary, h.tb, hl]

theorem State.meterTick_length (s : State) : s.meterTick.metering.length = s.metering.length := by
  have one (u : State) (o : Outlet) :
      (u.serveBoundary o).metering.length = u.metering.length := by
    unfold State.serveBoundary State.closeInterval
    split
    · split
      · rfl
      · unfold State.store; dsimp only; split <;> rfl
    · rfl
  have all (l : List Outlet) (u : State) :
      (l.foldl State.serveBoundary u).metering.length = u.metering.length := by
    induction l generalizing u with
    | nil => rfl
    | cons o l ih => exact (ih _).trans (one u o)
  unfold State.meterTick
  split
  · exact all _ _
  · rfl

/-! ### The clock quality is noted -/

/-- The same change of every outlet's meter. -/
theorem State.foldl_onMt (l : List Outlet) (hl : l.Nodup) (f : Meter → Meter) (s : State) :
    (∃ bs, l.foldl (fun t o => t.onMt o f) s = { s with berths := bs })
    ∧ ∀ p, (l.foldl (fun t o => t.onMt o f) s).berth p
        = if p ∈ l then { s.berth p with mt := (s.berth p).mt.map f } else s.berth p := by
  induction l generalizing s with
  | nil => exact ⟨⟨s.berths, rfl⟩, fun p => (if_neg (by simp)).symm⟩
  | cons o l ih =>
    obtain ⟨hne, hnd⟩ := List.nodup_cons.mp hl
    obtain ⟨⟨bs, hb⟩, hp⟩ := ih hnd (s.onMt o f)
    refine ⟨⟨bs, hb⟩, fun p => ?_⟩
    rw [List.foldl_cons, hp]
    by_cases e : p = o
    · subst e
      rw [if_neg hne, if_pos List.mem_cons_self, State.berth_onMt_self]
    · rw [State.berth_onMt_ne _ _ e]; simp [e]

theorem State.noteQuality_rest (s : State) : ∃ bs, s.noteQuality = { s with berths := bs } :=
  (State.foldl_onMt Outlet.all (by decide) _ s).1

theorem State.noteQuality_berth (s : State) (o : Outlet) :
    s.noteQuality.berth o = { s.berth o with mt := (s.berth o).mt.map fun m =>
      { m with interval := m.interval.see s.tb.quality } } := by
  have h := (State.foldl_onMt Outlet.all (by decide)
    (fun m : Meter => { m with interval := m.interval.see s.tb.quality }) s).2 o
  rwa [if_pos (by cases o <;> decide)] at h

/-- The quality noted after a change of TB and of FE alone. -/
theorem MetersSee.noteQuality {s t : State} (h : t.berths = s.berths) : MetersSee s t.noteQuality := by
  intro o
  have hb : t.berth o = s.berth o := by unfold State.berth; rw [h]
  have htb : t.noteQuality.tb = t.tb := by obtain ⟨bs, e⟩ := t.noteQuality_rest; rw [e]
  rw [State.noteQuality_berth, hb, htb]
  rfl

/-- Noting the quality changes meters alone. -/
theorem State.noteQuality_metered (s : State) : Metered s s.noteQuality :=
  .foldl _ (fun t o => .onMt t o _) _ _

/-! ### Ticks and pulses -/

/-- What is not expired at a tick (R83). -/
theorem AuthEntry.not_expired (e : AuthEntry) (n : Nat) :
    (!e.expired n) = e.expiry.all fun x => decide (n ≤ x) := by
  unfold AuthEntry.expired
  cases e.expiry with
  | none => rfl
  | some x =>
    show (!decide (x < n)) = decide (n ≤ x)
    rw [← decide_not, decide_eq_decide]; exact Nat.not_lt

theorem Account.expire_eq (a : Account) (n : Nat) :
    a.expire n = { a with places := a.places.map (Option.filter fun e =>
      e.expiry.all fun x => decide (n ≤ x)) } := by
  unfold Account.expire
  simp only [AuthEntry.not_expired]

/-- The state in which MT takes the tick. -/
def State.ticked (s : State) : State :=
  { s with tb := s.tb.completeSecond, account := s.account.expire (s.tb.seconds + 1).toNat }

theorem State.secondCompletes_eq (s : State) : s.secondCompletes = s.ticked.meterTick := rfl

/-- An accepted pulse (R10). -/
theorem execPpsPulse_accepted {s : State} (hoff : s.tb.pps ≠ .off)
    (h : ∀ last, s.tb.lastPulse = some last → 500000 ≤ (s.tb.run - last).toNat) :
    exec .ppsPulse s
      = .next ({ s.reportJump with tb := s.tb.lock } : State).noteQuality.align := by
  have hsoon : s.tb.pulseTooSoon = false := by
    unfold Timebase.pulseTooSoon elapsed
    split
    · next last e => exact decide_eq_false (by have := h last e; omega)
    · rfl
  show Host.Outcome.next _ = _
  rw [if_neg hoff, if_neg (by simp [hsoon])]

theorem State.reportJump_eq (s : State) :
    s.reportJump = { s with fe := if 100000 ≤ s.tb.subSecond ∧ s.tb.subSecond < 900000 then
      (s.report .ppsJump .station (some (s.tb.subSecond / 1000))).fe else s.fe } := by
  unfold State.reportJump Timebase.millis
  by_cases h : 100000 ≤ s.tb.subSecond ∧ s.tb.subSecond < 900000
  · rw [if_pos h, if_pos (by omega)]; rfl
  · rw [if_neg h, if_neg (by omega)]

/-- The state in which an accepted pulse aligns the second. -/
def State.pulsed (s : State) : State := ({ s.reportJump with tb := s.tb.lock } : State).noteQuality

theorem State.pulsed_rest (s : State) :
    ∃ bs, s.pulsed = { s with
      tb := s.tb.lock, berths := bs
      fe := if 100000 ≤ s.tb.subSecond ∧ s.tb.subSecond < 900000 then
        (s.report .ppsJump .station (some (s.tb.subSecond / 1000))).fe else s.fe } := by
  obtain ⟨bs, e⟩ := ({ s.reportJump with tb := s.tb.lock } : State).noteQuality_rest
  exact ⟨bs, by rw [State.pulsed, e, State.reportJump_eq]⟩

theorem State.reportJump_berths (s : State) : s.reportJump.berths = s.berths := by
  rw [State.reportJump_eq]

theorem State.pulsed_metersSee (s : State) : MetersSee s s.pulsed :=
  .noteQuality s.reportJump_berths

theorem State.reportJump_noFault (s : State) : NoFault s s.reportJump := by
  unfold State.reportJump
  split
  · exact ⟨FaultUnit.offer_flags _ _, FaultUnit.offer_sinceClear _ _, FaultUnit.offer_capture _ _⟩
  · exact .refl s

theorem State.pulsed_noFault (s : State) : NoFault s s.pulsed :=
  have h : NoFault s ({ s.reportJump with tb := s.tb.lock } : State) :=
    ⟨s.reportJump_noFault.flags, s.reportJump_noFault.sinceClear, s.reportJump_noFault.capture⟩
  h.trans (State.noteQuality_metered _).noFault

theorem MetersSee.berth {s t : State} (h : MetersSee s t) (o : Outlet) :
    t.berth o = { s.berth o with mt := (t.berth o).mt } := by rw [h o]

theorem exec_ppsPulse_eq {s : State} (hoff : s.tb.pps ≠ .off)
    (h : ∀ last, s.tb.lastPulse = some last → 500000 ≤ (s.tb.run - last).toNat) :
    exec .ppsPulse s = .next s.pulsed.align := execPpsPulse_accepted hoff h

/-- What an accepted pulse comes to in either half of the second. -/
theorem State.pulsed_align_early {s : State} (h : s.tb.subSecond < 500000) :
    s.pulsed.align = { s.pulsed with tb := { s.tb.lock with subSecond := 0 } } := by
  obtain ⟨bs, e⟩ := s.pulsed_rest
  unfold State.align
  rw [if_neg (by rw [e]; exact Nat.not_le.mpr h), e]

theorem State.pulsed_align_late {s : State} (h : 500000 ≤ s.tb.subSecond) :
    s.pulsed.align = s.pulsed.secondCompletes := by
  obtain ⟨bs, e⟩ := s.pulsed_rest
  unfold State.align
  rw [if_pos (by rw [e]; exact h)]

end Sys2Proof.Machine

namespace Sys2Proof.Proofs

open Machine

/-- Settles O5, by the branches of a window and of a check. -/
theorem qualificationAndCrystalCheck : Obligations.QualificationAndCrystalCheck := by
  refine ⟨fun n s hs => ?_, fun n s hs => ?_, fun s hs hr => ?_⟩
  · refine ⟨_, rfl, fun passes hp => ?_⟩
    have hw : (s.tb.window n).passes = passes := by
      subst hp; simp [Timebase.window, windowPasses]
    simp only [hs, if_true, hw]
    refine ⟨fun h3 => ?_, fun h3 h20 => ?_, fun h3 h20 => ?_⟩
    · rw [if_pos h3]
      obtain ⟨bs, e⟩ := ({ s with tb := (s.tb.window n).enterXo } : State).noteQuality_rest
      exact ⟨by rw [e], by rw [e]; rfl, .noteQuality rfl⟩
    · rw [if_neg h3, if_pos (show 20 ≤ (s.tb.window n).windows from h20)]
      show _ ∧ _ ∧ _
      have hf : (s.tb.window n).firstAttempt = s.tb.firstAttempt := rfl
      rw [hf]
      by_cases hfirst : s.tb.firstAttempt = true
      · rw [if_pos hfirst, if_pos hfirst]; exact ⟨rfl, rfl, rfl⟩
      · rw [if_neg hfirst, if_neg hfirst]; exact ⟨rfl, rfl, rfl⟩
    · rw [if_neg h3, if_neg (show ¬ 20 ≤ (s.tb.window n).windows from Nat.not_le.mpr h20)]
      subst hp
      simp [Timebase.window, windowPasses, hs]
  · refine ⟨_, rfl, fun fails hf => ?_⟩
    have hw : (if windowPasses n then 0 else s.tb.fails + 1) = fails := by
      subst hf; simp [windowPasses]
    simp only [hs, if_true, hw]
    refine ⟨fun h2 => ?_, fun h2 => ?_⟩
    · rw [if_neg (by omega)]
    · rw [if_pos h2]
      refine ⟨?_, ?_, ?_, .noteQuality rfl⟩
      · obtain ⟨bs, e⟩ := State.noteQuality_rest _
        exact e.trans (by rw [e]; rfl)
      · exact (State.noteQuality_metered _).tb.trans (by simp [Timebase.failXo])
      · obtain ⟨bs, e⟩ := State.noteQuality_rest _
        rw [e]; rfl
  · show Host.Outcome.next _ = _
    rw [if_pos ⟨hs, hr⟩]
    rfl

/-- Settles O6, from what MT does at a tick and the two halves of an accepted pulse's second. -/
theorem ticksAndPulses : Obligations.TicksAndPulses := by
  refine ⟨fun s => ?_, fun s h => ?_, fun s last hoff hl h => ?_, fun s hoff h => ?_, fun s hp hf => ?_⟩
  · have hm : Metered s.ticked s.ticked.meterTick := s.ticked.meterTick_metered
    refine ⟨_, rfl, ?_, hm.tb, hm.account.trans (Account.expire_eq _ _), hm.berth,
      ⟨hm.noFault.flags, hm.noFault.sinceClear, hm.noFault.capture⟩, fun hb => ?_⟩
    · rw [State.secondCompletes_eq, hm.tb, hm.account]; exact hm.rest
    · have hb' : s.ticked.atBoundary = false :=
        (hm.atBoundary s.ticked.meterTick_length).symm.trans hb
      have e : s.secondCompletes = s.ticked := State.meterTick_of_no_boundary hb'
      rw [e]
      exact ⟨rfl, rfl, rfl⟩
  · show Host.Outcome.next _ = _
    rw [if_pos h]
  · show Host.Outcome.next _ = _
    rw [if_neg hoff, if_pos]
    · rfl
    · simp only [Timebase.pulseTooSoon, hl, elapsed]; exact decide_eq_true h
  · obtain ⟨bs, e⟩ := s.pulsed_rest
    have hsee := s.pulsed_metersSee
    refine ⟨_, exec_ppsPulse_eq hoff h, ?_⟩
    by_cases hlate : 500000 ≤ s.tb.subSecond
    · rw [State.pulsed_align_late hlate, State.secondCompletes_eq]
      have hm : Metered s.pulsed.ticked s.pulsed.ticked.meterTick := State.meterTick_metered _
      refine ⟨?_, ?_, ?_, ?_, fun h => absurd hlate (Nat.not_le.mpr h), fun _ => ⟨?_, s.pulsed, ?_⟩⟩
      · exact hm.rest.trans (by rw [hm.tb, hm.account, State.ticked, e])
      · rw [hm.tb, if_pos hlate, State.ticked, e]; rfl
      · exact fun o => (hm.berth o).trans
          (congrArg (fun b : Berth => { b with mt := (s.pulsed.ticked.meterTick.berth o).mt })
            (hsee.berth o))
      · exact s.pulsed_noFault.trans ⟨hm.noFault.flags, hm.noFault.sinceClear, hm.noFault.capture⟩
      · rw [hm.account, State.ticked, e]; exact Account.expire_eq _ _
      · refine ⟨e.trans ?_, ?_, rfl⟩
        · rw [e]
          simp [show 100000 ≤ s.tb.subSecond by omega, Timebase.lock]
        · exact hsee
    · have hearly := Nat.not_le.mp hlate
      rw [State.pulsed_align_early hearly]
      refine ⟨?_, ?_, fun o => hsee.berth o, ⟨?_, ?_, ?_⟩, fun _ => ⟨?_, ?_, ?_⟩,
        fun h => absurd h hlate⟩
      · rw [e]
      · rw [if_neg hlate]; rfl
      · exact s.pulsed_noFault.flags
      · exact s.pulsed_noFault.sinceClear
      · exact s.pulsed_noFault.capture
      · rw [e]
      · intro o
        refine (hsee o).trans ?_
        rw [show s.pulsed.tb = s.tb.lock by rw [e]]
        rfl
      · rw [e]
        simp [show s.tb.subSecond < 900000 by omega]
  · refine ⟨_, rfl, ?_⟩
    rw [if_pos ⟨hp, hf⟩]
    obtain ⟨bs, e⟩ := (({ s with tb := { s.tb with pps := .lost, ppsFrom := none } } :
      State).raise .ppsLost .station).noteQuality_rest
    exact ⟨by rw [e]; rfl, by rw [e]; rfl, by rw [e]; rfl, .noteQuality rfl⟩

end Sys2Proof.Proofs
end


-- ==== Sys2Proof/Proofs/Outcomes.lean ====
section
/-! PROOFS. What entries to states, trips and the passes of a step's end come to: the shape of their frames,
the fault flags they leave, and the blocks of the outlet they handle. -/

namespace Sys2Proof.Machine

open Sys2Proof

/-! ### Frames -/

/-- The frame of updates of one outlet that open no session and store no record. -/
theorem Acts.frame {o : Outlet} {ms : List ModuleNo} {kinds : List FaultKind} {s t : State}
    (h : Acts ⟨[o], ms, false, false, kinds⟩ s t) :
    Elsewhere [o] ms s t ∧ KeepsAccount s t ∧ t.metering = s.metering :=
  ⟨h.elsewhere, h.keepsAccount rfl, h.metering rfl⟩

/-- A change of a waiting outlet's berth that leaves it waiting or not. -/
theorem KeepsAccount.trans {s t u : State} (h : KeepsAccount s t) (g : KeepsAccount t u) :
    KeepsAccount s u := fun n => by
  obtain ⟨n', e⟩ := h n
  obtain ⟨n'', e'⟩ := g n'
  exact ⟨n'', e'.trans e⟩

theorem KeepsAccount.of_states {s t : State} (account : t.account = s.account)
    (state : ∀ o, (t.berth o).sc.state = (s.berth o).sc.state) : KeepsAccount s t := fun n =>
  ⟨fun o => by have := n o; unfold State.waits at *; rwa [state], account⟩

/-- A change of one outlet's berth that keeps its state. -/
theorem KeepsAccount.onBerth {s : State} {o : Outlet} {f : Berth → Berth}
    (h : (f (s.berth o)).sc.state = (s.berth o).sc.state) : KeepsAccount s (s.onBerth o f) :=
  .of_states rfl fun p => by
    by_cases e : p = o
    · subst e; rw [State.berth_onBerth_self, h]
    · rw [State.berth_onBerth_ne _ _ e]

/-! ### Faults -/

theorem NoFault.of_fe {s t : State} (h : t.fe = s.fe) : NoFault s t :=
  ⟨by rw [h], by rw [h], by rw [h]⟩

theorem State.raise_raised (s : State) (k : FaultKind) (src : Source) (d : Option Nat) :
    Raised k s (s.raise k src d) := ⟨FaultUnit.take_flags _ _ _, FaultUnit.take_sinceClear _ _ _⟩

theorem Raised.after {k : FaultKind} {s t u : State} (h : Raised k s t) (g : NoFault t u) :
    Raised k s u := ⟨g.flags.trans h.flags, g.sinceClear.trans h.sinceClear⟩

theorem Raised.before {k : FaultKind} {s t u : State} (h : NoFault s t) (g : Raised k t u) :
    Raised k s u := ⟨by rw [g.flags, h.flags], g.sinceClear⟩

theorem State.moveTo_noFault (s : State) (o : Outlet) (new : OutletState) (pSet : Nat) :
    NoFault s (s.moveTo o new pSet) :=
  (State.moveTo_acts (x := ⟨[o], [], true, false, []⟩) s o new pSet List.mem_cons_self
    (.inr rfl)).noFault rfl

theorem State.settle_noFault (s : State) : NoFault s s.settle :=
  (State.settle_acts ⟨[], [], false, false, []⟩ s).noFault rfl

/-- R106: a trip raises its cause's fault alone. -/
theorem State.trip_raised (s : State) (o : Outlet) (c : Cause) : Raised c.fault s (s.trip o c) := by
  have moved : NoFault s (((s.moveTo o .tripped).onSc o fun r => { r with firstCause := some c }).onPr o
      fun p => p.trip s.tb.run) := by
    obtain ⟨h1, h2, h3⟩ := s.moveTo_noFault o .tripped 0
    exact ⟨h1, h2, h3⟩
  exact .before moved ((State.raise_raised _ c.fault (.outlet o) none).after ⟨rfl, rfl, rfl⟩)

/-- A trip and the passes of the step's end, as updates of the outlet. -/
theorem State.trip_settle_acts (s : State) (o : Outlet) (c : Cause) :
    Acts ⟨[o], [], false, false, [c.fault]⟩ s (s.trip o c).settle :=
  (State.trip_acts s o c List.mem_cons_self List.mem_cons_self).trans (State.settle_acts _ _)

/-! ### The passes of a step's end -/

theorem State.settle_of_no_pass {s : State} (h : s.passDue = false) : s.settle = s := by
  unfold State.settle State.passes
  rw [h]; rfl

/-- An outlet that does not wait is left by the passes as it was. -/
theorem State.settle_berth {s : State} {o : Outlet} (h : (s.berth o).sc.state ≠ .awaitAuth) :
    SameButPool (s.berth o) (s.settle.berth o) :=
  (State.settle_acts ⟨[], [], false, false, []⟩ s).berth o List.not_mem_nil
    (by unfold State.waits; exact beq_eq_false_iff_ne.mpr h)

/-! ### Entries to states (R105, R109, R115) -/

/-- The cause that trips an outlet at its entry to a state, judged before the entry. -/
def Berth.causeEntering (b : Berth) (new : OutletState) (standing : Bool) : Option Cause :=
  if new = .closing ∨ new.breakerClosed = true then
    match b.levelCause with
    | some c => some c
    | none => if new.breakerClosed && standing then some .gridLoss else none
  else none

/-- The level conditions of an outlet rest on its pilot loop and its link. -/
theorem Berth.levelCause_congr {b c : Berth} (pilot : c.lines.pilotClosed = b.lines.pilotClosed)
    (sl : c.sl = b.sl) : c.levelCause = b.levelCause := by
  unfold Berth.levelCause
  rw [pilot, sl]

theorem State.moveTo_sl {s : State} {o : Outlet} {new : OutletState} (pSet : Nat)
    (hd : (s.berth o).sc.state ≠ .dormant) (hn : new ≠ .dormant) :
    ((s.moveTo o new pSet).berth o).sl = (s.berth o).sl := by
  rw [(s.moveTo_berth_self o new pSet).sl, Berth.takeState_sl _ _ _ _ _ hd hn]

theorem State.moveTo_lines {s : State} {o : Outlet} {new : OutletState} (pSet : Nat)
    (hd : (s.berth o).sc.state ≠ .dormant) (hn : new ≠ .dormant) :
    ((s.moveTo o new pSet).berth o).lines = (s.berth o).lines := by
  rw [(s.moveTo_berth_self o new pSet).lines, Berth.takeState_lines _ _ _ _ _ hd hn]

/-- The entry is judged as it would have been before it. -/
theorem State.moveTo_entryCause {s : State} {o : Outlet} {new : OutletState} (pSet : Nat)
    (hd : (s.berth o).sc.state ≠ .dormant) (hn : new ≠ .dormant) :
    ((s.moveTo o new pSet).berth o).entryCause (s.moveTo o new pSet).gridWatch.standing
      = (s.berth o).causeEntering new s.gridWatch.standing := by
  have hl : ((s.moveTo o new pSet).berth o).levelCause = (s.berth o).levelCause :=
    Berth.levelCause_congr (by rw [State.moveTo_lines pSet hd hn]) (State.moveTo_sl pSet hd hn)
  unfold Berth.entryCause Berth.causeEntering
  rw [State.moveTo_state, State.moveTo_gridWatch]
  revert hl
  generalize ((s.moveTo o new pSet).berth o).levelCause = cause
  rintro rfl
  cases (s.berth o).levelCause <;> rfl

theorem State.enter_of_none {s : State} {o : Outlet} {new : OutletState} {pSet : Nat}
    (hd : (s.berth o).sc.state ≠ .dormant) (hn : new ≠ .dormant)
    (h : (s.berth o).causeEntering new s.gridWatch.standing = none) :
    s.enter o new pSet = s.moveTo o new pSet := by
  unfold State.enter
  dsimp only
  rw [State.moveTo_entryCause pSet hd hn, h]

theorem State.enter_of_some {s : State} {o : Outlet} {new : OutletState} {pSet : Nat} {c : Cause}
    (hd : (s.berth o).sc.state ≠ .dormant) (hn : new ≠ .dormant)
    (h : (s.berth o).causeEntering new s.gridWatch.standing = some c) :
    s.enter o new pSet = (s.moveTo o new pSet).trip o c := by
  unfold State.enter
  dsimp only
  rw [State.moveTo_entryCause pSet hd hn, h]

/-- A closing outlet is judged by its level conditions alone. -/
theorem Berth.causeEntering_closing (b : Berth) (standing : Bool) :
    b.causeEntering .closing standing = b.levelCause := by
  unfold Berth.causeEntering
  rw [if_pos (.inl rfl)]
  cases b.levelCause <;> rfl

/-- A state that is neither CLOSING nor breaker-closed is entered without a judgement. -/
theorem Berth.causeEntering_none (b : Berth) (standing : Bool) {new : OutletState}
    (hc : new ≠ .closing) (hb : new.breakerClosed = false) : b.causeEntering new standing = none := by
  unfold Berth.causeEntering
  rw [if_neg (by simp [hc, hb])]

theorem Berth.levelCause_none_iff (b : Berth) :
    b.levelCause = none
      ↔ b.lines.pilotClosed = true ∧ b.sl.stopShown = false ∧ b.sl.scpPresent = true := by
  unfold Berth.levelCause
  cases b.lines.pilotClosed <;> cases b.sl.stopShown <;> cases b.sl.scpPresent <;> simp

theorem State.NoEntryCause.entering {s : State} {o : Outlet} (h : s.NoEntryCause o)
    (new : OutletState) : (s.berth o).causeEntering new s.gridWatch.standing = none := by
  unfold Berth.causeEntering
  rw [(Berth.levelCause_none_iff _).mpr ⟨h.pilot, h.stop, h.scp⟩, h.grid]
  simp

/-- An entry between request states that trips comes to the trip (R105). -/
theorem State.enter_tripped {s : State} {o : Outlet} {new : OutletState} (pSet : Nat) {c : Cause}
    (hd : (s.berth o).sc.state ≠ .dormant) (ht : (s.berth o).sc.state ≠ .tripped)
    (hn : new.requests = true) (h : (s.berth o).causeEntering new s.gridWatch.standing = some c) :
    Tripped o c s (s.enter o new pSet) := by
  have hnd : new ≠ .dormant := by rintro rfl; cases hn
  have hnc : new ≠ .cableProven := by rintro rfl; cases hn
  rw [State.enter_of_some hd hnd h]
  have hb := s.moveTo_berth_self o new pSet
  have hold : (s.moveTo o new pSet).pool.tripHold = s.pool.tripHold :=
    (State.moveTo_acts (x := ⟨[o], [], true, false, []⟩) s o new pSet List.mem_cons_self
      (.inr rfl)).station.tripHold
  refine (State.trip_tripped _ o c).before ?_ ?_ ?_ ?_ (by rw [State.moveTo_tb]) hold
    fun m _ hi => s.module_moveTo_requests o new pSet m hn ht hi
  · rw [hb.sc, Berth.takeState_sc]; rfl
  · rw [hb.sc, Berth.takeState_sc]; simp [OutletRecord.takeState, hnd, hnc]
  · rw [hb.sc, Berth.takeState_sc]; simp [OutletRecord.takeState, hnd, hnc]
  · rw [hb.mt, Berth.takeState_mt]

/-! ### The synchroniser through changes of state and trips -/

/-- The ship's bus is dead and the declaration DEAD_BUS, as SY asks at a change of state. -/
def Berth.shipDead (b : Berth) : Bool := !b.mu.ship.live && b.declaresDeadBus

theorem State.moveTo_sy (s : State) (o : Outlet) (new : OutletState) (pSet : Nat) :
    ((s.moveTo o new pSet).berth o).sy
      = (s.berth o).sy.takeState new (s.berth o).shipDead s.tb.run := by
  rw [(s.moveTo_berth_self o new pSet).sy, Berth.takeState_sy]; rfl

theorem State.trip_sy (s : State) (o : Outlet) (c : Cause) :
    ((s.trip o c).berth o).sy = (s.berth o).sy.takeState .tripped (s.berth o).shipDead s.tb.run := by
  rw [← s.moveTo_sy o .tripped 0]
  unfold State.trip
  simp

/-- R70: a trip ends a close in flight. -/
theorem Synchroniser.takeState_tripped_inFlight {y : Synchroniser} (dead : Bool) (now : RunCount)
    (h : y.close = .inFlight) :
    (y.takeState .tripped dead now).closeOutput = false
      ∧ (y.takeState .tripped dead now).record
          = y.record.map fun c => { c with outcome := .ended } := by
  unfold Synchroniser.takeState Synchroniser.closeTakesState
  rw [h]
  exact ⟨rfl, rfl⟩

/-- A change of state other than a trip leaves a close in flight. -/
theorem Synchroniser.closeTakesState_inFlight {y : Synchroniser} {new : OutletState}
    (h : y.close = .inFlight) (hn : new ≠ .tripped) : y.closeTakesState new = y := by
  unfold Synchroniser.closeTakesState
  rw [h]
  exact if_neg hn

theorem Synchroniser.closeTakesState_watching {y : Synchroniser} (new : OutletState)
    (h : y.close = .watching) : y.closeTakesState new = y := by
  unfold Synchroniser.closeTakesState
  rw [h]

/-! ### What keeps a session open -/

/-- What an outlet's module that is not IDLE keeps open stays so over a change of state. -/
theorem State.keptOpen.of_same {s t : State} {o : Outlet} (h : s.keptOpen o)
    (breaker : (t.berth o).lines.breakerClosed = (s.berth o).lines.breakerClosed)
    (module : ∀ m, (s.module m).outlet = some o → (s.module m).state ≠ .idle →
      (t.module m).outlet = some o ∧ (t.module m).state ≠ .idle) : t.keptOpen o := by
  rcases h with h | ⟨m, ho, hi⟩
  · exact .inl (breaker.trans h)
  · exact .inr ⟨m, module m ho hi⟩

theorem State.keptOpen.moveTo {s : State} {o : Outlet} (h : s.keptOpen o) (new : OutletState)
    (pSet : Nat) : (s.moveTo o new pSet).keptOpen o :=
  h.of_same (by rw [(s.moveTo_berth_self o new pSet).lines, Berth.takeState_breaker]) fun m ho hi => by
    obtain ⟨e, hi'⟩ := s.module_moveTo_outlet o new pSet m hi
    exact ⟨e.trans ho, hi'⟩

end Sys2Proof.Machine
end


-- ==== Sys2Proof/Proofs/Closing.lean ====
section
/-! PROOFS. Closes of the coupling breaker: how one is issued and how it fails (R66, R69, R74, R91). -/

namespace Sys2Proof.Machine

open Sys2Proof

/-- The outlet's blocks after a change of state and the passes of the step's end. -/
theorem State.moveTo_settle_berth (s : State) (o : Outlet) {new : OutletState} (pSet : Nat)
    (hn : new ≠ .awaitAuth) :
    SameButPool
      ((s.berth o).takeState new pSet s.now (decide (s.capacity o < (s.berth o).sc.target)))
      ((s.moveTo o new pSet).settle.berth o) :=
  (s.moveTo_berth_self o new pSet).trans (State.settle_berth (by rw [State.moveTo_state]; exact hn))

/-- The state in which SY has issued a close. -/
def State.issued (s : State) (o : Outlet) (plan : Option Schedule) : State :=
  s.onSy o fun y => y.issue s.now plan

theorem State.issueClose_eq (s : State) (o : Outlet) (plan : Option Schedule) :
    s.issueClose o plan = (s.issued o plan).enter o .closing := rfl

theorem State.issued_acts {x : Scope} (s : State) (o : Outlet) (plan : Option Schedule)
    (h : o ∈ x.outlets) : Acts x s (s.issued o plan) := Acts.onSy s o _ h rfl

theorem State.issued_berth (s : State) (o : Outlet) (plan : Option Schedule) :
    (s.issued o plan).berth o = { s.berth o with sy := (s.berth o).sy.issue s.now plan } :=
  State.berth_onBerth_self _ _ _

/-- What an issued close comes to where nothing trips the outlet at its entry to CLOSING (R66). -/
structure Issues (o : Outlet) (plan : Option Schedule) (s t : State) : Prop where
  sc : (t.berth o).sc
    = (s.berth o).sc.takeState .closing s.now (decide (s.capacity o < (s.berth o).sc.target))
  mode : (t.berth o).rg.mode = .track
  mt : (t.berth o).mt = (s.berth o).mt
  sy : (t.berth o).sy = { (s.berth o).sy.issue s.now plan with deadFrom := none, deadComplete := false }
  acts : ∀ x : Scope, o ∈ x.outlets → Acts x s t

theorem State.issueClose_issues {s : State} {o : Outlet} (plan : Option Schedule)
    (hd : (s.berth o).sc.state ≠ .dormant) (h : (s.berth o).levelCause = none) :
    Issues o plan s (s.issueClose o plan).settle := by
  have he : s.issueClose o plan = (s.issued o plan).moveTo o .closing := by
    rw [State.issueClose_eq]
    refine State.enter_of_none (by rw [State.issued_berth]; exact hd) (by decide) ?_
    rw [State.issued_berth, Berth.causeEntering_closing]
    exact h
  rw [he]
  have hb := (s.issued o plan).moveTo_settle_berth o (new := .closing) 0 (by decide)
  rw [State.issued_berth] at hb
  constructor
  · rw [hb.sc, Berth.takeState_sc]; rfl
  · rw [hb.rg, Berth.takeState_rg, Berth.enterMode_mode]; rfl
  · rw [hb.mt, Berth.takeState_mt]
  · rw [hb.sy, Berth.takeState_sy]
    simp [Synchroniser.takeState, OutletState.keepsDeadTime,
      Synchroniser.closeTakesState_inFlight (new := .closing)
        (show ((s.berth o).sy.issue s.now plan).close = .inFlight from rfl) (by decide)]
  · exact fun x hx => ((s.issued_acts o plan hx).trans
      (State.moveTo_acts _ _ _ _ hx (.inl (by decide)))).trans (State.settle_acts x _)

/-- And where a level condition trips the outlet there (R70, R105, R109). -/
theorem State.issueClose_tripped {s : State} {o : Outlet} (plan : Option Schedule) {c : Cause}
    (hd : (s.berth o).sc.state ≠ .dormant) (ht : (s.berth o).sc.state ≠ .tripped)
    (h : (s.berth o).levelCause = some c) :
    Tripped o c s (s.issueClose o plan).settle
      ∧ ((s.issueClose o plan).settle.berth o).sy.closeOutput = false
      ∧ ((s.issueClose o plan).settle.berth o).sy.record
          = some { (s.berth o).sy.newRecord s.now plan with outcome := .ended }
      ∧ Acts ⟨[o], [], false, false, entryKinds⟩ s (s.issueClose o plan).settle := by
  have hcause : ((s.issued o plan).berth o).causeEntering .closing (s.issued o plan).gridWatch.standing
      = some c := by
    rw [State.issued_berth, Berth.causeEntering_closing]
    exact h
  have hd' : ((s.issued o plan).berth o).sc.state ≠ .dormant := by rw [State.issued_berth]; exact hd
  have ht' : ((s.issued o plan).berth o).sc.state ≠ .tripped := by rw [State.issued_berth]; exact ht
  have tripped : Tripped o c s (s.issueClose o plan) := by
    refine (State.enter_tripped 0 hd' ht' rfl hcause).before ?_ ?_ ?_ ?_ rfl rfl fun _ _ _ => rfl <;>
      rw [State.issued_berth]
  have hsy : ((s.issueClose o plan).settle.berth o).sy
      = ((s.issueClose o plan).berth o).sy :=
    (State.settle_berth (by rw [tripped.state]; decide)).sy
  have hy : ((s.issued o plan).moveTo o .closing |>.berth o).sy.close = .inFlight
      ∧ ((s.issued o plan).moveTo o .closing |>.berth o).sy.record
        = some ((s.berth o).sy.newRecord s.now plan) := by
    rw [State.moveTo_sy, State.issued_berth]
    simp only [Synchroniser.takeState]
    rw [Synchroniser.closeTakesState_inFlight rfl (by decide)]
    exact ⟨rfl, rfl⟩
  have hended := Synchroniser.takeState_tripped_inFlight
    (((s.issued o plan).moveTo o .closing).berth o).shipDead ((s.issued o plan).moveTo o .closing).tb.run
    hy.1
  have hentered : s.issueClose o plan = ((s.issued o plan).moveTo o .closing).trip o c :=
    State.enter_of_some hd' (by decide) hcause
  refine ⟨tripped.after (State.settle_acts ⟨[], [], false, false, []⟩ _) List.not_mem_nil rfl, ?_, ?_, ?_⟩
  · rw [hsy, hentered, State.trip_sy]; exact hended.1
  · rw [hsy, hentered, State.trip_sy, hended.2, hy.2]; rfl
  · exact (State.issueClose_acts _ _ _ List.mem_cons_self fun _ h => h).trans (State.settle_acts _ _)

/-! ### A close that fails (R69, R91, R92) -/

/-- The state in which SY has taken the failure of its close. -/
def State.failed (s : State) (o : Outlet) : State :=
  (s.onSy o Synchroniser.fail).raise .closeFail (.outlet o)

theorem State.failed_berth (s : State) (o : Outlet) :
    (s.failed o).berth o = { s.berth o with sy := (s.berth o).sy.fail } := by
  unfold State.failed
  rw [State.berth_raise]
  exact State.berth_onBerth_self _ _ _

theorem State.failed_raised (s : State) (o : Outlet) : Raised .closeFail s (s.failed o) :=
  .before (t := s.onSy o Synchroniser.fail) ⟨rfl, rfl, rfl⟩ (State.raise_raised _ _ _ _)

theorem State.failed_acts {x : Scope} (s : State) (o : Outlet) (h : o ∈ x.outlets)
    (hk : .closeFail ∈ x.kinds) : Acts x s (s.failed o) :=
  (Acts.onSy s o _ h rfl).trans (.raise _ _ _ _ _ hk)

theorem execConfirmationTimeExpiry_eq {s : State} {o : Outlet} (h : (s.berth o).sy.close = .inFlight) :
    exec (.confirmationTimeExpiry o) s = .next ((s.failed o).closeFailed o).settle := by
  show Host.Outcome.next _ = _
  rw [if_pos h]
  rfl

theorem State.keptOpen.failed {s : State} {o : Outlet} (h : s.keptOpen o) : (s.failed o).keptOpen o :=
  h.of_same (by rw [State.failed_berth]) fun _ ho hi => ⟨ho, hi⟩

/-- A synchroniser that watches goes back to SYNCHRONISING (R73). -/
theorem Synchroniser.takeState_back {y : Synchroniser} {dead : Bool} {now : RunCount}
    (h : y.close = .watching) :
    y.takeState .synchronising dead now
      = { y with deadFrom := if dead then some now else none, deadComplete := false } := by
  unfold Synchroniser.takeState
  rw [Synchroniser.closeTakesState_watching .synchronising h]
  rfl

/-- The end of a session by a wind-down from the failed close. -/
theorem State.failed_windDown {s : State} {o : Outlet} (h : s.keptOpen o) :
    WindsDown o s ((s.failed o).windDown o).settle :=
  (State.windDown_settle_windsDown _ o h.failed).before (by rw [State.failed_berth])
    (by rw [State.failed_berth]) rfl fun _ _ _ => rfl

/-- The outlet goes back to SYNCHRONISING and a further fault winds it down. -/
def State.backAndRaised (s : State) (o : Outlet) (k : FaultKind) : State :=
  ((s.failed o).moveTo o .synchronising).raise k (.outlet o)

theorem State.backAndRaised_windDown {s : State} {o : Outlet} (k : FaultKind) (h : s.keptOpen o)
    (ht : (s.berth o).sc.state ≠ .tripped) :
    WindsDown o s ((s.backAndRaised o k).windDown o).settle
      ∧ ((s.backAndRaised o k).windDown o).settle.fe.flags
          = s.fe.flags ||| FaultKind.closeFail.bit ||| k.bit
      ∧ Acts ⟨[o], [], false, false, [.closeFail, k]⟩ s ((s.backAndRaised o k).windDown o).settle := by
  have hb := (s.failed o).moveTo_berth_self o .synchronising 0
  rw [State.failed_berth] at hb
  have hkept : (s.backAndRaised o k).keptOpen o := (h.failed.moveTo .synchronising 0)
  have hflags : (s.backAndRaised o k).fe.flags = s.fe.flags ||| FaultKind.closeFail.bit ||| k.bit := by
    rw [← (s.failed_raised o).flags, ← ((s.failed o).moveTo_noFault o .synchronising 0).flags]
    exact FaultUnit.take_flags _ _ _
  refine ⟨?_, ?_, ?_⟩
  · refine (State.windDown_settle_windsDown _ o hkept).before ?_ ?_ ?_ fun m _ hi => ?_
    · show (((s.failed o).moveTo o .synchronising).berth o).sc.session = _
      rw [hb.sc, Berth.takeState_sc]; rfl
    · show (((s.failed o).moveTo o .synchronising).berth o).mt = _
      rw [hb.mt, Berth.takeState_mt]
    · show ((s.failed o).moveTo o .synchronising).tb.run = _
      rw [State.moveTo_tb]; rfl
    · exact (s.failed o).module_moveTo_requests o .synchronising 0 m rfl
        (by rw [State.failed_berth]; exact ht) hi
  · rw [State.windDown_eq_moveTo _ o hkept, (State.settle_noFault _).flags,
      (State.moveTo_noFault _ _ _ _).flags, hflags]
  · rw [State.windDown_eq_moveTo _ o hkept]
    have hmem : o ∈ (⟨[o], [], false, false, [.closeFail, k]⟩ : Scope).outlets := List.mem_cons_self
    exact ((((s.failed_acts o hmem List.mem_cons_self).trans
      (State.moveTo_acts _ _ _ _ hmem (.inl (by decide)))).trans
      (.raise _ _ _ _ _ (List.mem_cons_of_mem _ List.mem_cons_self))).trans
      (State.moveTo_acts _ _ _ _ hmem (.inl (by decide)))).trans (State.settle_acts _ _)

end Sys2Proof.Machine

namespace Sys2Proof.Proofs

open Machine

/-- Settles O7, by the level condition at the entry to CLOSING. -/
theorem dueInstantIssuesTheClose : Obligations.DueInstantIssuesTheClose := by
  intro o s plan hplan hstate
  have hexec : exec (.dueInstant o) s = .next (s.issueClose o (some plan)).settle := by
    show Host.Outcome.next _ = _
    rw [hplan]
  refine ⟨fun hc => ⟨_, hexec, ?_⟩, fun c hc => ⟨_, hexec, ?_⟩⟩
  · have h := State.issueClose_issues (some plan) (by rw [hstate]; decide) hc
    have ha := h.acts ⟨[o], [], false, false, []⟩ List.mem_cons_self
    obtain ⟨helse, hacc, hmet⟩ := ha.frame
    rw [h.sc, h.sy]
    exact ⟨rfl, rfl, rfl, h.mt, h.mode, rfl, rfl, rfl, rfl, rfl, helse, hacc, ha.noFault rfl, hmet⟩
  · obtain ⟨htrip, hout, hrec, ha⟩ := State.issueClose_tripped (some plan)
      (by rw [hstate]; decide) (by rw [hstate]; decide) hc
    obtain ⟨helse, hacc, hmet⟩ := ha.frame
    exact ⟨htrip, hout, ⟨_, hrec, rfl⟩, helse, hacc, hmet⟩

/-- Settles O8, by the conditions that send the outlet on from a failed close. -/
theorem confirmationTimeExpiryFailsTheClose : Obligations.ConfirmationTimeExpiryFailsTheClose := by
  intro o s hclose hstate
  have hexec := execConfirmationTimeExpiry_eq hclose
  have hb := s.failed_berth o
  have hmem : ∀ kinds, o ∈ (⟨[o], [], false, false, kinds⟩ : Scope).outlets := fun _ => List.mem_cons_self
  have hnt : (s.berth o).sc.state ≠ .tripped := by rw [hstate]; decide
  refine ⟨fun hend hatt hsync => ⟨_, hexec, ?_⟩, fun hk hend => ⟨_, hexec, ?_⟩,
    fun hk hend hatt => ⟨_, hexec, ?_⟩, fun hk hend hatt hsync => ⟨_, hexec, ?_⟩⟩
  · have hgo : (s.failed o).closeFailed o = (s.failed o).moveTo o .synchronising := by
      simp only [State.closeFailed, hb, hend, hsync]
      rw [if_neg (by simp), if_neg (by simpa [Synchroniser.fail] using by omega), if_neg (by simp)]
    have hm := (s.failed o).moveTo_settle_berth o (new := .synchronising) 0 (by decide)
    rw [hb] at hm
    have ha : Acts ⟨[o], [], false, false, [.closeFail]⟩ s
        ((s.failed o).moveTo o .synchronising).settle :=
      ((s.failed_acts o (hmem _) List.mem_cons_self).trans
        (State.moveTo_acts _ _ _ _ (hmem _) (.inl (by decide)))).trans (State.settle_acts _ _)
    obtain ⟨helse, hacc, hmet⟩ := ha.frame
    rw [hgo, hm.sc, hm.rg, hm.sy, hm.mt, Berth.takeState_sc, Berth.takeState_rg, Berth.takeState_sy,
      Berth.takeState_mt, Berth.enterMode_mode, Synchroniser.takeState_back rfl]
    refine ⟨rfl, rfl, rfl, rfl, rfl, rfl, rfl, rfl, ?_, rfl, ?_, helse, hacc, hmet⟩
    · show (if (!(s.berth o).mu.ship.live && (s.berth o).declaresDeadBus) = true then
        some s.tb.run else none) = _
      cases (s.berth o).mu.ship.live <;> cases (s.berth o).declaresDeadBus <;> rfl
    · exact ((s.failed_raised o).after (State.moveTo_noFault _ _ _ _)).after (State.settle_noFault _)
  · have hgo : (s.failed o).closeFailed o = (s.failed o).windDown o := by
      simp only [State.closeFailed, hb, hend, if_true]
    rw [hgo]
    have hw := State.windDown_eq_moveTo _ o hk.failed
    have ha : Acts ⟨[o], [], false, false, [.closeFail]⟩ s ((s.failed o).windDown o).settle := by
      rw [hw]
      exact ((s.failed_acts o (hmem _) List.mem_cons_self).trans
        (State.moveTo_acts _ _ _ _ (hmem _) (.inl (by decide)))).trans (State.settle_acts _ _)
    refine ⟨State.failed_windDown hk, ?_, ha.frame⟩
    rw [hw]
    exact ((s.failed_raised o).after (State.moveTo_noFault _ _ _ _)).after (State.settle_noFault _)
  · have hgo : (s.failed o).closeFailed o = (s.backAndRaised o .handoverAbort).windDown o := by
      simp only [State.closeFailed, hb, hend]
      rw [if_neg (by simp), if_pos (by simpa [Synchroniser.fail] using hatt)]
      rfl
    rw [hgo]
    obtain ⟨hw, hf, ha⟩ := State.backAndRaised_windDown .handoverAbort hk hnt
    exact ⟨hw, hf, ha.frame⟩
  · have hgo : (s.failed o).closeFailed o = (s.backAndRaised o .syncTimeout).windDown o := by
      simp only [State.closeFailed, hb, hend, hsync]
      rw [if_neg (by simp), if_neg (by simpa [Synchroniser.fail] using by omega), if_pos trivial]
      rfl
    rw [hgo]
    obtain ⟨hw, hf, ha⟩ := State.backAndRaised_windDown .syncTimeout hk hnt
    exact ⟨hw, hf, ha.frame⟩

end Sys2Proof.Proofs
end


-- ==== Sys2Proof/Proofs/Confirming.lean ====
section
/-! PROOFS. The breaker feedback's change to closed: a close confirmed, an unwanted closure, and a closure in
TRIPPED (R67, R71, R92, R107). -/

namespace Sys2Proof.Machine

open Sys2Proof

/-! ### A confirmed close (R67, R92, R140) -/

/-- The state in which SY has confirmed its close and MT has counted it. -/
def State.confirmed (s : State) (o : Outlet) : State :=
  (match (s.berth o).sy.oddTime s.tb.run with
    | some m => (s.onSy o fun y => y.confirm s.tb.run).report .closeTimeOdd (.outlet o) (some m)
    | none => s.onSy o fun y => y.confirm s.tb.run).onMt o Meter.countClose

theorem State.confirmClose_eq (s : State) (o : Outlet) :
    s.confirmClose o = (s.confirmed o).closeConfirmed o (s.berth o).sy.kindInFlight := rfl

theorem State.confirmed_berth (s : State) (o : Outlet) :
    (s.confirmed o).berth o = { s.berth o with
      sy := (s.berth o).sy.confirm s.tb.run, mt := (s.berth o).mt.map Meter.countClose } := by
  unfold State.confirmed
  rw [State.berth_onMt_self]
  split
  · rw [State.berth_report, State.berth_onSy_self]
  · rw [State.berth_onSy_self]

theorem State.confirmed_tb (s : State) (o : Outlet) : (s.confirmed o).tb = s.tb := by
  unfold State.confirmed; split <;> rfl

theorem State.confirmed_gridWatch (s : State) (o : Outlet) :
    (s.confirmed o).gridWatch = s.gridWatch := by unfold State.confirmed; split <;> rfl

theorem State.confirmed_acts {x : Scope} (s : State) (o : Outlet) (h : o ∈ x.outlets) :
    Acts x s (s.confirmed o) := by
  unfold State.confirmed
  refine Acts.trans ?_ (Acts.onMt _ _ _ h)
  have hy : Acts x s (s.onSy o fun y => y.confirm s.tb.run) :=
    Acts.onSy _ _ _ h (Synchroniser.confirm_settings _ _)
  split
  · exact hy.trans (.report _ _ _ _ _)
  · exact hy

/-! ### Judgements of the generator table that find nothing (R93, R95) -/

theorem State.judgeGenerators_of_not {s : State} {o : Outlet}
    (hin : (s.berth o).sc.state = .parallelIn → (s.berth o).rampedIn = false)
    (hsupply : (s.berth o).sc.state = .shoreSupply → (s.berth o).anyClosed = false) :
    s.judgeGenerators o = s := by
  unfold State.judgeGenerators
  dsimp only
  rw [if_neg (by rintro ⟨h, g⟩; rw [hin h] at g; cases g),
    if_neg (by rintro ⟨h, g⟩; rw [hsupply h] at g; cases g)]

/-- The ramp-in reads the declaration and the generator table. -/
theorem Berth.rampedIn_congr {b c : Berth} (declaration : c.sc.declaration = b.sc.declaration)
    (sl : c.sl = b.sl) : c.rampedIn = b.rampedIn := by
  unfold Berth.rampedIn
  rw [declaration, sl]

theorem Berth.anyClosed_congr {b c : Berth} (sl : c.sl = b.sl) : c.anyClosed = b.anyClosed := by
  unfold Berth.anyClosed; rw [sl]

theorem State.moveTo_declaration {s : State} {o : Outlet} {new : OutletState} (pSet : Nat)
    (hd : new ≠ .dormant) (hc : new ≠ .cableProven) :
    ((s.moveTo o new pSet).berth o).sc.declaration = (s.berth o).sc.declaration := by
  rw [(s.moveTo_berth_self o new pSet).sc, Berth.takeState_sc]
  simp [OutletRecord.takeState, hd, hc]

/-! ### The confirmed close goes on (Table 5-6) -/

/-- The state that a confirmed close leads to (Table 5-6, R92). -/
def confirmedState : CloseKind → Bool → OutletState
  | .synchronised, false => .parallelIn
  | .synchronised, true => .parallelOut
  | .deadBus, _ => .shoreSupply

/-- The P_set that SC writes at the confirmation of a close (R92). -/
def Berth.confirmedSetpoint (b : Berth) : CloseKind → Nat
  | .synchronised => b.confirmedPSet
  | .deadBus => 0

/-- A return awaited, as `requestReturn` writes it (R95). -/
def OutletRecord.awaitReturn (r : OutletRecord) (now : RunCount) : OutletRecord :=
  { r with returnAwaited := true, prepareReturn := true, returnFrom := some now }

/-- SC's record after the confirmation of a close: that of the change of state, and where the session is
being ended a dead-bus close awaits the return. -/
def OutletRecord.afterClose (r : OutletRecord) (kind : CloseKind) (ending : Bool) (now : RunCount) :
    OutletRecord :=
  if kind = .deadBus ∧ ending = true ∧ r.returnAwaited = false then r.awaitReturn now else r

theorem State.requestReturn_of_not {s : State} {o : Outlet} (hs : (s.berth o).sc.state = .shoreSupply)
    (hg : (s.berth o).anyClosed = false) :
    s.requestReturn o = if (s.berth o).sc.returnAwaited then s
      else s.onSc o fun r => r.awaitReturn s.tb.run := by
  unfold State.requestReturn
  split
  · rfl
  · refine State.judgeGenerators_of_not (fun h => ?_) (fun _ => ?_)
    · rw [State.berth_onSc_self] at h
      have h' : (s.berth o).sc.state = .parallelIn := h
      rw [hs] at h'; cases h'
    · rw [State.berth_onSc_self]; exact hg

/-- R92: what the confirmation of a close comes to where nothing trips the outlet at its entry and the
generator table calls for nothing further. -/
theorem State.closeConfirmed_goesOn {s : State} {o : Outlet} {kind : CloseKind}
    (hstate : (s.berth o).sc.state = .closing) (hcause : s.NoEntryCause o)
    (hramp : kind = .synchronised → (s.berth o).sc.endRequested = true ∨ (s.berth o).rampedIn = false)
    (hclosed : kind = .deadBus → (s.berth o).anyClosed = false) {new : OutletState} {p : Nat}
    (hnew : new = confirmedState kind (s.berth o).sc.endRequested)
    (hp : p = (s.berth o).confirmedSetpoint kind) :
    (∀ b, b = (s.moveTo o new p).berth o →
      (s.closeConfirmed o kind).berth o
        = { b with sc := b.sc.afterClose kind (s.berth o).sc.endRequested s.tb.run })
    ∧ ∀ x : Scope, o ∈ x.outlets → Acts x s (s.closeConfirmed o kind) := by
  have hd : (s.berth o).sc.state ≠ .dormant := by rw [hstate]; decide
  have henter (new : OutletState) (p : Nat) (hn : new ≠ .dormant) :
      s.enter o new p = s.moveTo o new p := State.enter_of_none hd hn (hcause.entering new)
  have hmove (x : Scope) (h : o ∈ x.outlets) (new : OutletState) (p : Nat) (hn : new ≠ .awaitAuth) :
      Acts x s (s.moveTo o new p) := State.moveTo_acts s o new p h (.inl hn)
  cases kind with
  | synchronised =>
    cases hend : (s.berth o).sc.endRequested with
    | true =>
      have e : s.closeConfirmed o .synchronised = s.moveTo o new p := by
        rw [hnew, hp, hend, ← henter _ _ (by decide)]
        simp only [State.closeConfirmed, hend]
        rfl
      rw [e]
      refine ⟨?_, fun x h => hmove x h _ _ (by rw [hnew, hend]; decide)⟩
      rintro b rfl
      rfl
    | false =>
      have hr : (s.berth o).rampedIn = false := (hramp rfl).resolve_left (by rw [hend]; simp)
      have hj : (s.moveTo o .parallelIn p).judgeGenerators o = s.moveTo o .parallelIn p := by
        refine State.judgeGenerators_of_not (fun _ => ?_) (fun h => ?_)
        · rw [Berth.rampedIn_congr (State.moveTo_declaration p (by decide) (by decide))
            (State.moveTo_sl p hd (by decide)), hr]
        · rw [State.moveTo_state] at h; cases h
      have e : s.closeConfirmed o .synchronised = s.moveTo o new p := by
        rw [hnew, hend]
        simp only [State.closeConfirmed, hend, State.enterJudged]
        rw [henter _ _ (by decide), ← show p = (s.berth o).confirmedPSet from hp]
        exact hj
      rw [e]
      refine ⟨?_, fun x h => hmove x h _ _ (by rw [hnew, hend]; decide)⟩
      rintro b rfl
      rfl
  | deadBus =>
    have hnew' : new = .shoreSupply := hnew
    have hp' : p = 0 := hp
    subst hnew' hp'
    have hg : ((s.moveTo o .shoreSupply).berth o).anyClosed = false := by
      rw [Berth.anyClosed_congr (State.moveTo_sl 0 hd (by decide)), hclosed rfl]
    cases hend : (s.berth o).sc.endRequested with
    | false =>
      have hj : (s.moveTo o .shoreSupply).judgeGenerators o = s.moveTo o .shoreSupply := by
        refine State.judgeGenerators_of_not (fun h => ?_) (fun _ => hg)
        rw [State.moveTo_state] at h; cases h
      have e : s.closeConfirmed o .deadBus = s.moveTo o .shoreSupply := by
        simp only [State.closeConfirmed, hend, State.enterJudged]
        rw [henter _ _ (by decide)]
        exact hj
      rw [e]
      refine ⟨?_, fun x h => hmove x h _ _ (by decide)⟩
      rintro b rfl
      rfl
    | true =>
      have e : s.closeConfirmed o .deadBus
          = if ((s.moveTo o .shoreSupply).berth o).sc.returnAwaited then s.moveTo o .shoreSupply
            else (s.moveTo o .shoreSupply).onSc o fun r => r.awaitReturn s.tb.run := by
        simp only [State.closeConfirmed, hend]
        rw [henter _ _ (by decide), if_pos (State.moveTo_state _ _ _ _),
          State.requestReturn_of_not (State.moveTo_state _ _ _ _) hg, State.moveTo_tb]
      rw [e]
      by_cases hret : ((s.moveTo o .shoreSupply).berth o).sc.returnAwaited = true
      · rw [if_pos hret]
        refine ⟨?_, fun x h => hmove x h _ _ (by decide)⟩
        rintro b rfl
        unfold OutletRecord.afterClose
        rw [if_neg (by rw [hret]; simp)]
      · rw [if_neg hret]
        refine ⟨?_, fun x h => (hmove x h _ _ (by decide)).trans (Acts.onSc _ _ _ h rfl rfl)⟩
        rintro b rfl
        rw [State.berth_onSc_self]
        unfold OutletRecord.afterClose
        rw [if_pos ⟨rfl, rfl, by simpa using hret⟩]

/-! ### The contact -/

theorem State.contact_berth (s : State) (o : Outlet) :
    (s.contact o).berth o = { s.berth o with
      lines := { (s.berth o).lines with breakerClosed := true, closedAt := some s.tb.run } } :=
  State.berth_onBerth_self _ _ _

theorem State.contact_keepsAccount (s : State) (o : Outlet) : KeepsAccount s (s.contact o) :=
  .onBerth rfl

theorem execBreakerFeedbackClosed_eq {s : State} {o : Outlet}
    (h : (s.berth o).lines.breakerClosed = false) :
    exec (.breakerFeedbackClosed o) s = .next ((s.contact o).takeClosed o).settle := by
  show Host.Outcome.next _ = _
  rw [if_neg (by rw [h]; simp)]
  rfl

/-- R44: the setpoint at the entry to a mode from another. -/
theorem Berth.enterMode_pSet_eq {b : Berth} {now : RunCount} {mode : RgMode} {pSet : Nat}
    (h : b.rg.mode ≠ mode) (ho : mode ≠ .off) :
    (b.enterMode now mode pSet).rg.pSet = if mode = .power then min pSet 25000 else 0 := by
  unfold Berth.enterMode
  rw [if_neg h, if_neg ho]
  simp

/-- SY after a confirmed close and the change of state that it leads to. -/
theorem Synchroniser.confirm_takeState {y : Synchroniser} {now : RunCount} {dead : Bool}
    {new : OutletState} (hk : new.keepsDeadTime = false) :
    (y.confirm now).takeState new dead now
      = { y.confirm now with deadFrom := none, deadComplete := false } := by
  have he : new ≠ .energising := by rintro rfl; cases hk
  unfold Synchroniser.takeState
  rw [Synchroniser.closeTakesState_watching new (Synchroniser.confirm_close y now).1, hk]
  simp [he]

end Sys2Proof.Machine

namespace Sys2Proof.Proofs

open Machine

/-- Settles O9, from the confirmation of the close and the change of state that it leads to. -/
theorem feedbackClosedConfirmsTheClose : Obligations.FeedbackClosedConfirmsTheClose := by
  intro o s c hopen hclose hstate hrec hmode hcause hramp hgen
  have hexec := execBreakerFeedbackClosed_eq hopen
  have hcb := s.contact_berth o
  have htake : (s.contact o).takeClosed o
      = ((s.contact o).confirmed o).closeConfirmed o c.kind := by
    unfold State.takeClosed
    rw [if_pos (by rw [hcb]; exact hclose), State.confirmClose_eq, hcb]
    simp only [Synchroniser.kindInFlight, hrec]
  have hb : ((s.contact o).confirmed o).berth o = { (s.contact o).berth o with
      sy := (s.berth o).sy.confirm s.tb.run, mt := (s.berth o).mt.map Meter.countClose } := by
    rw [State.confirmed_berth, hcb]; rfl
  rw [hcb] at hb
  generalize hu : (s.contact o).confirmed o = u at htake hb
  have hrun : u.tb = s.tb := by rw [← hu, State.confirmed_tb]; rfl
  have hgrid : u.gridWatch = s.gridWatch := by rw [← hu, State.confirmed_gridWatch]; rfl
  have hacts (x : Scope) (h : o ∈ x.outlets) : Acts x (s.contact o) u :=
    hu ▸ State.confirmed_acts _ o h
  obtain ⟨hgo, hga⟩ := State.closeConfirmed_goesOn (s := u) (o := o) (kind := c.kind)
    (by rw [hb]; exact hstate)
    ⟨by rw [hb]; exact hcause.pilot, by rw [hb]; exact hcause.stop, by rw [hb]; exact hcause.scp,
      by rw [hgrid]; exact hcause.grid⟩
    (by rw [hb]; exact hramp) (by rw [hb]; exact hgen) rfl rfl
  generalize hnew : confirmedState c.kind (u.berth o).sc.endRequested = new at hgo
  generalize hp : (u.berth o).confirmedSetpoint c.kind = p at hgo
  have hend : (u.berth o).sc.endRequested = (s.berth o).sc.endRequested := by rw [hb]
  have hm := u.moveTo_berth_self o new p
  have hgo := hgo _ rfl
  have hst : ((u.closeConfirmed o c.kind).berth o).sc.state ≠ .awaitAuth := by
    rw [hgo]
    have : ((u.moveTo o new p).berth o).sc.state ≠ .awaitAuth := by
      rw [State.moveTo_state, ← hnew]
      cases c.kind <;> cases (u.berth o).sc.endRequested <;> decide
    unfold OutletRecord.afterClose
    split <;> exact this
  have hset := State.settle_berth hst
  have ha : Acts ⟨[o], [], false, false, []⟩ (s.contact o) (u.closeConfirmed o c.kind).settle :=
    ((hacts _ List.mem_cons_self).trans (hga _ List.mem_cons_self)).trans (State.settle_acts _ _)
  obtain ⟨helse, hacc, hmet⟩ := ha.frame
  have hsc : ((u.closeConfirmed o c.kind).settle.berth o).sc
      = ((s.berth o).sc.takeState new u.now (decide (u.capacity o < (s.berth o).sc.target))).afterClose
          c.kind (s.berth o).sc.endRequested s.tb.run := by
    rw [hset.sc, hgo, hrun, ← hend]
    show OutletRecord.afterClose ((u.moveTo o new p).berth o).sc _ _ _ = _
    rw [hm.sc, Berth.takeState_sc, hb]
  have hrg : ((u.closeConfirmed o c.kind).settle.berth o).rg
      = ((u.berth o).enterMode u.tb.run new.mode p).rg := by
    rw [hset.rg, hgo]
    show ((u.moveTo o new p).berth o).rg = _
    rw [hm.rg, Berth.takeState_rg]; rfl
  have hkeep : new.keepsDeadTime = false := by
    rw [← hnew]; cases c.kind <;> cases (u.berth o).sc.endRequested <;> rfl
  have hsy : ((u.closeConfirmed o c.kind).settle.berth o).sy
      = { (s.berth o).sy.confirm s.tb.run with deadFrom := none, deadComplete := false } := by
    rw [hset.sy, hgo]
    show ((u.moveTo o new p).berth o).sy = _
    rw [State.moveTo_sy, hb, hrun, Synchroniser.confirm_takeState hkeep]
  have hmt : ((u.closeConfirmed o c.kind).settle.berth o).mt = (s.berth o).mt.map Meter.countClose := by
    rw [hset.mt, hgo]
    show ((u.moveTo o new p).berth o).mt = _
    rw [hm.mt, Berth.takeState_mt, hb]
  have hnewmode : (s.berth o).rg.mode ≠ new.mode ∧ new.mode ≠ .off := by
    rw [hmode, ← hnew]; cases c.kind <;> cases (u.berth o).sc.endRequested <;> decide
  have hps := Berth.enterMode_pSet_eq (b := u.berth o) (now := u.tb.run) (pSet := p)
    (by rw [hb]; exact hnewmode.1) hnewmode.2
  refine ⟨_, hexec, ?_⟩
  rw [htake, hsc, hrg, hsy, hmt, hps, Berth.enterMode_mode]
  have hconf : (s.berth o).sy.confirm s.tb.run = { (s.berth o).sy with
      closeOutput := false, close := .watching, record := some (c.confirm s.tb.run)
      tc := if (s.berth o).sy.settings.adapt && isClosingTime (c.measure s.tb.run) then
        (3 * c.tc + c.measure s.tb.run + 2) / 4 else (s.berth o).sy.tc } := by
    unfold Synchroniser.confirm; rw [hrec]
  rw [hend] at hnew
  have hpset : p = match c.kind with
      | .synchronised => (s.berth o).confirmedPSet
      | .deadBus => 0 := by
    rw [← hp, hb]; cases c.kind <;> rfl
  refine ⟨?_, ?_, ?_, ?_, ?_, ?_, ?_, ?_, ?_, ?_, rfl, helse,
    (s.contact_keepsAccount o).trans hacc, ⟨(ha.noFault rfl).flags, (ha.noFault rfl).sinceClear,
      (ha.noFault rfl).capture⟩, hmet⟩
  · rw [← hnew]
    unfold OutletRecord.afterClose
    split <;> cases c.kind <;> cases (s.berth o).sc.endRequested <;> rfl
  · unfold OutletRecord.afterClose
    split <;> simp [OutletRecord.takeState, OutletRecord.awaitReturn, hstate]
  · intro hk he hr
    unfold OutletRecord.afterClose
    rw [if_pos ⟨hk, he, by simp [OutletRecord.takeState, hr, hstate]⟩]
    exact ⟨rfl, rfl, rfl⟩
  · intro hk
    unfold OutletRecord.afterClose
    rw [if_neg (by rintro ⟨h1, h2, _⟩; rcases hk with h | h <;> simp_all)]
    simp [OutletRecord.takeState, hstate]
  · rw [← hnew]; cases c.kind <;> cases (s.berth o).sc.endRequested <;> rfl
  · rw [← hnew, hpset]
    cases c.kind <;> cases (s.berth o).sc.endRequested <;> cases hpow : (s.berth o).mu.power <;>
      simp [confirmedState, OutletState.mode, Berth.confirmedPSet, hpow, kilowatts]
  · rw [hconf]
  · rw [hconf]
  · rintro ms rfl
    rw [hconf]
    refine ⟨rfl, if_congr ?_ rfl rfl⟩
    rw [Bool.and_eq_true]
    exact and_congr Iff.rfl decide_eq_true_iff
  · rw [← hnew]
    unfold OutletRecord.afterClose
    split <;> rfl

end Sys2Proof.Proofs
end


-- ==== Sys2Proof/Proofs/SessionEnds.lean ====
section
/-! PROOFS. The close of a session (R98, R152): in WIND_DOWN once no module is assigned and the feedback shows
open, and at once where WIND_DOWN is entered so. -/

namespace Sys2Proof.Machine

open Sys2Proof

/-! ### No module comes to an outlet that asks for none -/

theorem State.winner_entry {s : State} {l : List Outlet} {o : Outlet} {e : PendingEntry}
    (h : s.winner l = some (o, e)) : (s.berth o).mp.entry = some e := by
  induction l generalizing o e with
  | nil => cases h
  | cons p l ih =>
    unfold State.winner at h
    split at h
    · next e₁ o₁ e₂ h₁ h₂ =>
      split at h
      · cases h; exact ih h₂
      · cases h; exact h₁
    · next e₁ h₁ h₂ => cases h; exact h₁
    · exact ih h

/-- Arbitration assigns no module to an outlet without an entry (R34). -/
theorem State.arbitrate_outlet {s : State} {o : Outlet} (he : (s.berth o).mp.entry = none) {m : ModuleNo}
    (h : (s.arbitrate.module m).outlet = some o) : (s.module m).outlet = some o := by
  unfold State.arbitrate at h
  split at h
  · next p e _ hw =>
    split at h
    · exact h
    · next n _ =>
      rw [State.module_judgeNeed] at h
      by_cases hn : m = n
      · subst hn
        rw [State.module_startModule_self] at h
        have hp : p = o := by cases h; rfl
        subst hp
        rw [State.winner_entry hw] at he
        cases he
      · rw [State.module_startModule_ne _ _ _ hn] at h
        exact h
  · exact h

theorem State.tidyWatches_entry (s : State) (o p : Outlet) :
    ((s.tidyWatches o).berth p).mp.entry = (s.berth p).mp.entry := by
  unfold State.tidyWatches
  by_cases h : p = o
  · subst h; simp only [State.berth_onMp_self]
  · rw [State.berth_onMp_ne _ _ h, State.berth_onMp_ne _ _ h]

theorem State.servePool_outlet {s : State} {o : Outlet} (hr : (s.berth o).sc.state.requests = false)
    {m : ModuleNo} (h : ((s.servePool o).module m).outlet = some o) : (s.module m).outlet = some o := by
  have he : ((s.judgeNeed o).berth o).mp.entry = none := by
    unfold State.judgeNeed
    rw [State.tidyWatches_entry, hr, if_pos (by decide), State.berth_onMp_self]
    rfl
  have := State.arbitrate_outlet he h
  rwa [State.module_judgeNeed] at this

theorem State.assigned_eq_zero {s : State} {o : Outlet} :
    s.assigned o = 0 ↔ ∀ m, (s.module m).outlet ≠ some o := by
  unfold State.assigned
  rw [List.length_eq_zero_iff, List.eq_nil_iff_forall_not_mem]
  simp only [Pool.mem_which, Module.assignedTo, beq_iff_eq]
  rfl

theorem State.stopModules_outlet (s : State) (o : Outlet) (states : List ModuleState) (m : ModuleNo) :
    ((s.stopModules o states).module m).outlet = (s.module m).outlet := by
  rw [State.module_stopModules]; split <;> rfl

theorem State.endStarts_outlet (s : State) (o : Outlet) (m : ModuleNo) :
    ((s.endStarts o).module m).outlet = (s.module m).outlet := by
  rw [State.module_endStarts]; split <;> rfl

/-- An outlet without a module is given none on its way into WIND_DOWN. -/
theorem State.assigned_moveTo_windDown {s : State} {o : Outlet} (pSet : Nat) (h : s.assigned o = 0) :
    (s.moveTo o .windDown pSet).assigned o = 0 := by
  rw [State.assigned_eq_zero] at h ⊢
  intro m hm
  rw [State.module_moveTo] at hm
  unfold State.poolTakesState at hm
  rw [if_neg (by decide)] at hm
  have hm := State.servePool_outlet (by
    split
    · rw [State.sc_onMp]
      rw [((State.endStarts_poolOnly _ o).berth o |>.trans
        ((State.stopModules_poolOnly _ o _).berth o)).sc, State.berth_onBerth_self, Berth.takeState_sc]
      rfl
    · rw [((State.endStarts_poolOnly _ o).berth o |>.trans
        ((State.stopModules_poolOnly _ o _).berth o)).sc, State.berth_onBerth_self, Berth.takeState_sc]
      rfl) hm
  have hstop (t : State) : (((t.endStarts o).stopModules o [.running, .held]).module m).outlet
      = (t.module m).outlet :=
    (State.stopModules_outlet _ o _ m).trans (State.endStarts_outlet t o m)
  refine h m ?_
  split at hm
  · rw [State.module_onMp, hstop] at hm; exact hm
  · rw [hstop] at hm; exact hm

/-! ### The close of a session -/

/-- The state that a session's close leads to (R98). -/
def Berth.restState (b : Berth) : OutletState := if b.lines.pilotClosed then .cableProven else .dormant

theorem Berth.restState_ne (b : Berth) :
    b.restState ≠ .awaitAuth ∧ b.restState ≠ .windDown ∧ b.restState ≠ .tripped
      ∧ (b.restState = .dormant ∨ b.restState = .cableProven) := by
  unfold Berth.restState
  split <;> simp

/-- The state right after the session's record and events, before the change of state. -/
def State.ended (s : State) (o : Outlet) (x : Session) : State :=
  (s.settleSession o).report .sessionClose (.outlet o) (some x.number)

theorem State.ended_berth (s : State) (o : Outlet) (x : Session) :
    (s.ended o x).berth o
      = { s.berth o with sc := { (s.berth o).sc with session := none }, mt := none } := by
  unfold State.ended
  rw [State.berth_report, State.settleSession_berth_self]

theorem State.tryClose_eq {s : State} {o : Outlet} {x : Session}
    (hx : (s.berth o).sc.session = some x) (hc : s.mayClose o = true) :
    s.tryClose o = { (s.ended o x).moveTo o (s.berth o).restState with passDue := true } := by
  unfold State.tryClose
  rw [hx]
  dsimp only
  rw [if_pos hc]
  rfl

theorem State.tryClose_of_not {s : State} {o : Outlet} (hc : s.mayClose o = false) :
    s.tryClose o = s := by
  unfold State.tryClose
  split
  · rfl
  · rw [if_neg (by rw [hc]; simp)]

/-- R98, R152: the close of a session and the passes of the step's end. -/
theorem State.tryClose_settle_closes {s : State} {o : Outlet} {x : Session} {m : Meter}
    (hx : (s.berth o).sc.session = some x) (hm : (s.berth o).mt = some m) (hc : s.mayClose o = true) :
    SessionCloses o x s (s.tryClose o).settle
      ∧ SameButPool ((({ s.berth o with
            sc := { (s.berth o).sc with session := none }, mt := none } : Berth).takeState
              (s.berth o).restState 0 s.now
              (decide ((s.ended o x).capacity o < (s.berth o).sc.target))))
          ((s.tryClose o).settle.berth o)
      ∧ Acts ⟨[o], [], false, true, []⟩ s (s.tryClose o).settle := by
  obtain ⟨hna, -, -, hrest⟩ := (s.berth o).restState_ne
  have hnow : (s.ended o x).now = s.now := by
    have : (s.ended o x).tb = s.tb := by
      unfold State.ended State.settleSession
      rw [State.report_tb, State.onSc_tb, State.closeInterval_of_some hm, State.onBerth_tb]
      exact (Metered.store s _).tb
    unfold State.now; rw [this]
  have hmoved := (s.ended o x).moveTo_berth_self o (s.berth o).restState 0
  rw [State.ended_berth, hnow] at hmoved
  have hset : SameButPool (((s.ended o x).moveTo o (s.berth o).restState).berth o)
      ((s.tryClose o).settle.berth o) := by
    rw [State.tryClose_eq hx hc]
    refine State.settle_berth (s := { (s.ended o x).moveTo o (s.berth o).restState with
      passDue := true }) ?_
    show (((s.ended o x).moveTo o (s.berth o).restState).berth o).sc.state ≠ _
    rw [State.moveTo_state]; exact hna
  have hb := hmoved.trans hset
  have hmet : (s.tryClose o).settle.metering = (s.store (s.closingRecord o m .sessionEnd)).metering := by
    rw [(State.settle_acts ⟨[], [], false, false, []⟩ _).metering rfl, State.tryClose_eq hx hc]
    show ((s.ended o x).moveTo o _).metering = _
    rw [State.moveTo_metering, ← State.settleSession_metering hm]
    rfl
  refine ⟨⟨?_, ?_, ?_, ?_, ?_, ⟨s.closingRecord o m .sessionEnd, ?_, rfl, rfl, rfl, rfl, ?_⟩, ?_⟩, hb, ?_⟩
  · rw [hb.sc, Berth.takeState_sc]; rfl
  · rw [hb.mt, Berth.takeState_mt]
  · rw [hb.sc, Berth.takeState_sc]; rfl
  · rw [hb.sc, Berth.takeState_sc]
    rcases hrest with h | h <;> simp [OutletRecord.takeState, h]
  · rw [hb.sc, Berth.takeState_sc]
    rcases hrest with h | h <;> simp [OutletRecord.takeState, h]
  · rw [hmet, State.store_queue]
  · intro m' hm'
    rw [hm] at hm'
    cases hm'
    unfold State.closingRecord State.intervalRecord Meter.splitGap
    dsimp only
    split <;> rfl
  · rw [hmet, State.store_sequence]
  · exact (State.tryClose_acts _ _ List.mem_cons_self rfl).trans (State.settle_acts _ _)

/-- What came before a session's close without touching what it keeps. -/
theorem SessionCloses.before {o : Outlet} {x : Session} {s u t : State} (h : SessionCloses o x u t)
    (pilot : (u.berth o).lines.pilotClosed = (s.berth o).lines.pilotClosed)
    (meter : (u.berth o).mt = (s.berth o).mt) (metering : u.metering = s.metering) :
    SessionCloses o x s t := by
  obtain ⟨r, hq, h1, h2, h3, h4, h5⟩ := h.record
  rw [metering] at hq h3
  exact ⟨h.session, h.meter, by rw [← pilot]; exact h.state, h.declaration, h.target,
    ⟨r, hq, h1, h2, h3, h4, by rw [← meter]; exact h5⟩, by rw [← metering]; exact h.sequence⟩

/-- R98: an outlet that nothing keeps open closes its session as it enters WIND_DOWN. -/
theorem State.windDown_settle_closes {s : State} {o : Outlet} {x : Session}
    (hx : (s.berth o).sc.session = some x) (hm : (s.berth o).mt.isSome = true)
    (hopen : (s.berth o).lines.breakerClosed = false) (hassigned : s.assigned o = 0) :
    SessionCloses o x s (s.windDown o).settle
      ∧ Acts ⟨[o], [], false, true, []⟩ s (s.windDown o).settle := by
  obtain ⟨m, hm⟩ := Option.isSome_iff_exists.mp hm
  have hb := s.moveTo_berth_self o .windDown 0
  have hx' : ((s.moveTo o .windDown).berth o).sc.session = some x := by
    rw [hb.sc, Berth.takeState_sc]; exact hx
  have hm' : ((s.moveTo o .windDown).berth o).mt = some m := by rw [hb.mt, Berth.takeState_mt, hm]
  have hc : (s.moveTo o .windDown).mayClose o = true := by
    unfold State.mayClose
    dsimp only
    rw [State.moveTo_state, State.assigned_moveTo_windDown 0 hassigned, hb.lines,
      Berth.takeState_breaker, hopen]
    rfl
  obtain ⟨h, -, ha⟩ := State.tryClose_settle_closes hx' hm' hc
  have hmoved : Acts ⟨[o], [], false, true, []⟩ s (s.moveTo o .windDown) :=
    State.moveTo_acts _ _ _ _ List.mem_cons_self (.inl (by decide))
  exact ⟨h.before (by rw [hb.lines, Berth.takeState_pilot]) (hm'.trans hm.symm)
    (State.moveTo_metering _ _ _ _), hmoved.trans ha⟩

end Sys2Proof.Machine
end


-- ==== Sys2Proof/Proofs/Feedback.lean ====
section
/-! PROOFS. Changes of the breaker feedback without a close in flight: unasked closures, and openings by
state (R71, R97, R98, R99, R107, R108, R116). -/

namespace Sys2Proof.Machine

open Sys2Proof

/-- Two changes of an outlet's berth that agree on it. -/
theorem State.onBerth_congr {s : State} {o : Outlet} {f g : Berth → Berth}
    (h : f (s.berth o) = g (s.berth o)) : s.onBerth o f = s.onBerth o g := by
  unfold State.berth at h
  unfold State.onBerth
  rw [h]

/-- R71: an unwanted closure without a close in flight. -/
theorem Synchroniser.takeUnwanted_eq {y : Synchroniser} (now : RunCount) (h : y.close ≠ .inFlight) :
    y.takeUnwanted now = { y with
      openDrive := true, driveFrom := some now, deadFrom := none, deadComplete := false
      close := .watching, record := y.record.map fun c => c.late now } := by
  have hc : (y.takeUnwanted now).close = .watching := by
    cases hy : y.close with
    | watching => simp only [Synchroniser.takeUnwanted, hy]
    | scheduled plan => simp only [Synchroniser.takeUnwanted, hy]
    | inFlight => exact absurd hy h
  rw [← hc]
  rfl

/-! ### The opening -/

/-- Outside WIND_DOWN and TRIPPED the opening releases a drive that outlasted its time alone (R107). -/
theorem Protection.takeOpen_of_ne (p : Protection) {st : OutletState} (hw : st ≠ .windDown)
    (ht : st ≠ .tripped) :
    p.takeOpen st = if p.breakerFail then { p with openDrive := false, breakerFail := false } else p := by
  unfold Protection.takeOpen
  rw [if_neg hw]
  exact if_neg ht

theorem State.parted_berth (s : State) (o : Outlet) :
    (s.parted o).berth o = { s.berth o with
      lines := { (s.berth o).lines with breakerClosed := false }
      mt := (s.berth o).mt.map fun m => m.endGap s.tb.run } := by
  unfold State.parted
  rw [State.berth_onMt_self, State.berth_onLines_self]

theorem State.parted_keepsAccount (s : State) (o : Outlet) : KeepsAccount s (s.parted o) :=
  (KeepsAccount.onBerth rfl).trans (.onBerth rfl)

theorem State.parted_noFault (s : State) (o : Outlet) : NoFault s (s.parted o) := ⟨rfl, rfl, rfl⟩

theorem execBreakerFeedbackOpen_eq {s : State} {o : Outlet}
    (h : (s.berth o).lines.breakerClosed = true) :
    exec (.breakerFeedbackOpen o) s = .next ((s.parted o).takeOpen o).settle := by
  show Host.Outcome.next _ = _
  rw [if_pos h]
  rfl

/-- The state in which SY, SC and PR have released the drives that the opening ends. -/
def State.released (s : State) (o : Outlet) : State := (s.parted o).onBerth o Berth.releaseDrives

theorem State.released_berth (s : State) (o : Outlet) :
    (s.released o).berth o = { (s.parted o).berth o with
      sy := if (s.berth o).sy.openDrive then (s.berth o).sy.releaseDrive else (s.berth o).sy
      sc := { (s.berth o).sc with openDrive := false }
      pr := (s.berth o).pr.takeOpen (s.berth o).sc.state } := by
  unfold State.released
  rw [State.berth_onBerth_self, State.parted_berth]
  rfl

theorem State.takeOpen_of_not {s : State} {o : Outlet}
    (h : (s.berth o).sc.state.breakerClosed = false) :
    (s.parted o).takeOpen o = (s.released o).afterOpen o := by
  unfold State.takeOpen
  dsimp only
  rw [if_neg (by rw [State.parted_berth, h]; simp)]
  rfl

theorem State.released_acts {x : Scope} (s : State) (o : Outlet) (h : o ∈ x.outlets) :
    Acts x (s.parted o) (s.released o) :=
  Acts.onBerth_keep _ _ _ h rfl (Berth.releaseDrives_inputs _)

/-- What the opening makes of the conditions of a dead-bus close (R74). -/
theorem State.released_deadBusReady {s : State} {o : Outlet}
    (h : (s.berth o).sc.state.keepsDeadTime = true) :
    ((s.released o).berth o).deadBusReady ((s.released o).capacity o) = true
      ↔ (s.berth o).declaresDeadBus = true ∧ (s.berth o).sy.deadComplete = true
        ∧ (s.berth o).sc.target ≤ s.capacity o ∧ (s.berth o).mu.shore.live = true
        ∧ (s.berth o).sy.close = .watching := by
  have hcap : (s.released o).capacity o = s.capacity o := rfl
  have hdead : ((s.released o).berth o).sy.deadComplete = (s.berth o).sy.deadComplete
      ∧ ((s.released o).berth o).sy.close = (s.berth o).sy.close
      ∧ ((s.released o).berth o).sy.openDrive = false := by
    rw [State.released_berth]
    dsimp only
    split
    · exact ⟨rfl, rfl, rfl⟩
    · next hd => exact ⟨rfl, rfl, by simpa using hd⟩
  have hdecl : ((s.released o).berth o).declaresDeadBus = (s.berth o).declaresDeadBus := by
    rw [State.released_berth]; rfl
  have hrest : ((s.released o).berth o).sc.state = (s.berth o).sc.state
      ∧ ((s.released o).berth o).sc.target = (s.berth o).sc.target
      ∧ ((s.released o).berth o).mu.shore.live = (s.berth o).mu.shore.live
      ∧ ((s.released o).berth o).lines.breakerClosed = false := by
    rw [State.released_berth, State.parted_berth]
    exact ⟨rfl, rfl, rfl, rfl⟩
  unfold Berth.deadBusReady
  rw [hcap, hdead.1, hdead.2.1, hdead.2.2, hdecl, hrest.1, hrest.2.1, hrest.2.2.1, hrest.2.2.2, h]
  simp [and_assoc]

theorem State.released_levelCause (s : State) (o : Outlet) :
    ((s.released o).berth o).levelCause = (s.berth o).levelCause :=
  Berth.levelCause_congr (by rw [State.released_berth, State.parted_berth])
    (by rw [State.released_berth, State.parted_berth])

/-- What the opening leaves for a trip or a wind-down to keep. -/
theorem State.released_kept (s : State) (o : Outlet) :
    ((s.released o).berth o).sc.session = ((s.parted o).berth o).sc.session
      ∧ ((s.released o).berth o).sc.declaration = ((s.parted o).berth o).sc.declaration
      ∧ ((s.released o).berth o).sc.target = ((s.parted o).berth o).sc.target
      ∧ ((s.released o).berth o).mt = ((s.parted o).berth o).mt := by
  rw [State.released_berth, State.parted_berth]
  exact ⟨rfl, rfl, rfl, rfl⟩

theorem State.keptOpen.released {s : State} {o : Outlet} (h : (s.parted o).keptOpen o) :
    (s.released o).keptOpen o :=
  h.of_same (by rw [State.released_berth]) fun _ ho hi => ⟨ho, hi⟩

end Sys2Proof.Machine

namespace Sys2Proof.Proofs

open Machine

/-- Settles O10, by what a closure comes to in each state. -/
theorem feedbackClosedUnaskedDrivesTheBreakerOpen :
    Obligations.FeedbackClosedUnaskedDrivesTheBreakerOpen := by
  intro o s hpass hopen hclose
  have hexec := execBreakerFeedbackClosed_eq hopen
  have hcb := s.contact_berth o
  have hpass' : (s.contact o).passDue = false := hpass
  have hnot : ¬ ((s.contact o).berth o).sy.close = .inFlight := by rw [hcb]; exact hclose
  have hstate : ((s.contact o).berth o).sc.state = (s.berth o).sc.state := by rw [hcb]
  refine ⟨fun hu => ?_, fun ht hg => ?_, fun hu ht => ?_⟩
  · have htake : (s.contact o).takeClosed o = (s.contact o).unwantedClosure o := by
      unfold State.takeClosed
      rw [if_neg hnot, if_pos (by rw [hstate]; exact hu)]
    rw [htake, State.settle_of_no_pass (s := (s.contact o).unwantedClosure o) hpass'] at hexec
    have hsy : ((s.contact o).unwantedClosure o).berth o = { (s.contact o).berth o with
        sy := ((s.contact o).berth o).sy.takeUnwanted s.tb.run } := by
      unfold State.unwantedClosure
      rw [State.berth_raise]
      exact State.berth_onSy_self _ _ _
    refine ⟨_, hexec, rfl, ⟨FaultUnit.take_flags _ _ _, FaultUnit.take_sinceClear _ _ _⟩,
      fun p hp => ?_, ?_, ?_⟩
    · unfold State.unwantedClosure
      rw [State.berth_raise, State.berth_onSy_ne _ _ hp]
      exact State.berth_onBerth_ne _ _ hp
    · rw [hsy]
    · rw [hsy, hcb]
      show (s.berth o).sy.takeUnwanted s.tb.run = _
      rw [Synchroniser.takeUnwanted_eq s.tb.run hclose]
      rfl
  · have htake : (s.contact o).takeClosed o = (s.contact o).closureInTripped o := by
      unfold State.takeClosed
      rw [if_neg hnot, if_neg (by rw [hstate, ht]; decide), if_pos (by rw [hstate, ht])]
    have hdriven : (s.contact o).closureInTripped o
        = (s.contact o).onPr o fun p => p.closedInTripped s.tb.run := by
      unfold State.closureInTripped
      exact if_neg (by rw [show (s.contact o).gridWatch.standing = false from hg]; simp)
    rw [hexec, htake, hdriven,
      State.settle_of_no_pass (s := (s.contact o).onPr o fun p => p.closedInTripped s.tb.run) hpass']
    rfl
  · have htake : (s.contact o).takeClosed o = s.contact o := by
      unfold State.takeClosed
      rw [if_neg hnot, if_neg (by rw [hstate, hu]; simp), if_neg (by rw [hstate]; exact ht)]
    rw [hexec, htake, State.settle_of_no_pass hpass']

/-- Settles O11, by the states in which the breaker opens. -/
theorem feedbackOpenIsTaken : Obligations.FeedbackOpenIsTaken := by
  intro o s hclosed
  have hexec := execBreakerFeedbackOpen_eq hclosed
  have hpb := s.parted_berth o
  have hrb := s.released_berth o
  have hmem : ∀ bills kinds, o ∈ (⟨[o], [], false, bills, kinds⟩ : Scope).outlets :=
    fun _ _ => List.mem_cons_self
  have hacc := s.parted_keepsAccount o
  have hquiet {t : State} (h : NoFault (s.parted o) t) : NoFault s t := (s.parted_noFault o).trans h
  have hstate : ((s.released o).berth o).sc.state = (s.berth o).sc.state := by rw [hrb]
  refine ⟨fun hst hout => ?_, fun hst hk => ?_, fun x hst has hx hm => ?_, fun hst has hpass => ?_,
    fun hst hx hpass => ?_, fun hst hx => ?_, fun hst ready hready => ?_⟩
  · have htake : (s.parted o).takeOpen o = (s.parted o).trip o .unexpectedOpen := by
      have ho : ((s.parted o).berth o).openOutput = false := by rw [hpb]; exact hout
      have hb : ((s.parted o).berth o).sc.state = (s.berth o).sc.state := by rw [hpb]
      unfold State.takeOpen
      dsimp only
      rw [if_pos (by rw [ho, hb, hst]; rfl)]
      unfold State.complete
      dsimp only
      rw [hb, if_pos (by revert hst; cases (s.berth o).sc.state <;> decide)]
    rw [htake] at hexec
    obtain ⟨helse, hacct, hmet⟩ := ((s.parted o).trip_settle_acts o .unexpectedOpen).frame
    exact ⟨_, hexec, State.trip_settle_tripped _ _ _, helse, hacc.trans hacct, hmet,
      ((State.trip_raised _ o .unexpectedOpen).after (State.settle_noFault _)).before
        (s.parted_noFault o)⟩
  · have hgo : (s.released o).afterOpen o = (s.released o).windDown o := by
      simp only [State.afterOpen, hstate, hst]
    rw [State.takeOpen_of_not (by rw [hst]; rfl), hgo] at hexec
    have hk' := State.keptOpen.released hk
    have hmoved := State.windDown_eq_moveTo _ o hk'
    have ha : Acts ⟨[o], [], false, false, []⟩ (s.parted o) ((s.released o).windDown o).settle := by
      rw [hmoved]
      exact ((s.released_acts o (hmem _ _)).trans
        (State.moveTo_acts _ _ _ _ (hmem _ _) (.inl (by decide)))).trans (State.settle_acts _ _)
    obtain ⟨helse, hacct, hmet⟩ := ha.frame
    refine ⟨_, hexec, (State.windDown_settle_windsDown _ o hk').before (s.released_kept o).1
      (s.released_kept o).2.2.2 rfl fun _ _ _ => rfl, ?_, helse, hacc.trans hacct, hmet,
      hquiet (ha.noFault rfl)⟩
    rw [hmoved, ((s.released o).moveTo_settle_berth o (new := .windDown) 0 (by decide)).sc,
      Berth.takeState_sc, hrb]
    rfl
  · have hgo : (s.released o).afterOpen o = (s.released o).tryClose o := by
      simp only [State.afterOpen, hstate, hst]
    rw [State.takeOpen_of_not (by rw [hst]; rfl), hgo] at hexec
    obtain ⟨m, hm⟩ := Option.isSome_iff_exists.mp hm
    have hmay : (s.released o).mayClose o = true := by
      unfold State.mayClose
      dsimp only
      rw [hstate, hst, show (s.released o).assigned o = s.assigned o from rfl, has, hrb, hpb]
      rfl
    obtain ⟨h, hb, ha⟩ := State.tryClose_settle_closes (s := s.released o) (o := o) (x := x)
      (m := m.endGap s.tb.run) (by rw [hrb]; exact hx) (by rw [hrb, hpb, hm]; rfl) hmay
    have hacts : Acts ⟨[o], [], false, true, []⟩ (s.parted o) ((s.released o).tryClose o).settle :=
      (s.released_acts o (hmem _ _)).trans ha
    have hpr : (((s.released o).tryClose o).settle.berth o).pr
        = (s.berth o).pr.release.takeState .windDown ((s.released o).berth o).restState
            ((s.released o).berth o).lines.breakerClosed := by
      rw [hb.pr, Berth.takeState_pr, hrb, hst]; rfl
    obtain ⟨hdrive, hpost, -, -⟩ := Protection.takeState_drive (s.berth o).pr.release .windDown
      ((s.released o).berth o).restState ((s.released o).berth o).lines.breakerClosed (by decide)
    refine ⟨_, hexec, h.before (by rw [hrb]) (s.released_kept o).2.2.2 rfl, ?_, ?_, hacts.elsewhere,
      hacc.trans (hacts.keepsAccount rfl), hquiet (hacts.noFault rfl)⟩
    · rw [hpr, hdrive]; rfl
    · rw [hpr, hpost]; rfl
  · have hgo : (s.released o).afterOpen o = (s.released o).tryClose o := by
      simp only [State.afterOpen, hstate, hst]
    have hmay : (s.released o).mayClose o = false := by
      unfold State.mayClose
      dsimp only
      rw [show (s.released o).assigned o = s.assigned o from rfl,
        decide_eq_false (Nat.pos_iff_ne_zero.mp has)]
      simp
    rw [hexec, State.takeOpen_of_not (by rw [hst]; rfl), hgo, State.tryClose_of_not hmay,
      State.settle_of_no_pass (s := s.released o) hpass]
    refine congrArg Host.Outcome.next (State.onBerth_congr ?_)
    have hst' : ((s.parted o).berth o).sc.state = .windDown := by rw [hpb]; exact hst
    unfold Berth.releaseDrives
    rw [hst']
    rfl
  · have hgo : (s.released o).afterOpen o = s.released o := by
      have hx' : ((s.released o).berth o).sc.session.isSome = true := by rw [hrb]; exact hx
      simp only [State.afterOpen, hstate, hst]
      rw [if_pos hx']
    rw [hexec, State.takeOpen_of_not (by rw [hst]; rfl), hgo,
      State.settle_of_no_pass (s := s.released o) hpass]
    refine congrArg Host.Outcome.next (State.onBerth_congr ?_)
    have hst' : ((s.parted o).berth o).sc.state = .tripped := by rw [hpb]; exact hst
    unfold Berth.releaseDrives Protection.takeOpen
    rw [hst']
    cases hf : ((s.parted o).berth o).pr.breakerFail <;>
      simp [Protection.clearWatches, Synchroniser.releaseDrive, hf]
  · have hgo : (s.released o).afterOpen o
        = (s.released o).moveTo o (if (s.berth o).lines.pilotClosed then .cableProven else .dormant) := by
      have hx' : ((s.released o).berth o).sc.session.isSome = false := by rw [hrb, hx]; rfl
      have hl : ((s.released o).berth o).lines.pilotClosed = (s.berth o).lines.pilotClosed := by
        rw [hrb, hpb]
      simp only [State.afterOpen, hstate, hst, hl]
      rw [if_neg (by rw [hx']; simp)]
    rw [State.takeOpen_of_not (by rw [hst]; rfl), hgo] at hexec
    generalize hnew : (if (s.berth o).lines.pilotClosed then OutletState.cableProven else .dormant)
      = new at hexec
    have hna : new ≠ .awaitAuth := by rw [← hnew]; split <;> decide
    have ha : Acts ⟨[o], [], false, false, []⟩ (s.parted o) ((s.released o).moveTo o new).settle :=
      ((s.released_acts o (hmem _ _)).trans (State.moveTo_acts _ _ _ _ (hmem _ _) (.inl hna))).trans
        (State.settle_acts _ _)
    obtain ⟨helse, hacct, hmet⟩ := ha.frame
    refine ⟨_, hexec, ?_, helse, hacc.trans hacct, hmet, hquiet (ha.noFault rfl)⟩
    rw [((s.released o).moveTo_settle_berth o 0 hna).sc, Berth.takeState_sc]
    rfl
  · have hkeeps : (s.berth o).sc.state.keepsDeadTime = true := by
      rcases hst with h | h <;> rw [h] <;> rfl
    have hnot : (s.berth o).sc.state.breakerClosed = false := by
      rcases hst with h | h <;> rw [h] <;> rfl
    have hgo : (s.released o).afterOpen o = (s.released o).tryDeadBus o := by
      rcases hst with h | h <;> simp only [State.afterOpen, hstate, h]
    rw [State.takeOpen_of_not hnot, hgo] at hexec
    have hiff := State.released_deadBusReady hkeeps
    have hd : ((s.released o).berth o).sc.state ≠ .dormant
        ∧ ((s.released o).berth o).sc.state ≠ .tripped := by
      rw [hstate]; rcases hst with h | h <;> rw [h] <;> decide
    have hissue (h : ready) : (s.released o).tryDeadBus o = (s.released o).issueClose o none :=
      if_pos (hiff.mpr (hready ▸ h))
    refine ⟨fun h hc => ?_, fun c h hc => ?_, fun h hpass => ?_⟩
    · rw [hissue h] at hexec
      have hi := State.issueClose_issues (s := s.released o) none hd.1
        (by rw [State.released_levelCause]; exact hc)
      have ha : Acts ⟨[o], [], false, false, []⟩ (s.parted o) ((s.released o).issueClose o none).settle :=
        (s.released_acts o (hmem _ _)).trans (hi.acts _ (hmem _ _))
      obtain ⟨helse, hacct, hmet⟩ := ha.frame
      have hopen : ((s.released o).berth o).sy.openDrive = false := by
        rw [hrb]; dsimp only; split
        · rfl
        · next hd => simpa using hd
      have hrec : ((s.released o).berth o).sy.tc = (s.berth o).sy.tc
          ∧ ((s.released o).berth o).sy.attempts = (s.berth o).sy.attempts := by
        rw [hrb]; dsimp only; split <;> exact ⟨rfl, rfl⟩
      refine ⟨_, hexec, ?_, hi.mode, ?_, ?_, ?_, ?_, ?_, ?_, helse, hacc.trans hacct,
        hquiet (ha.noFault rfl), hmet⟩
      · rw [hi.sc]; rfl
      · rw [hi.sc, hrb]; rfl
      · rw [hi.mt, hrb]
      · rw [hi.sy]; rfl
      · rw [hi.sy]; rfl
      · rw [hi.sy]; exact hopen
      · rw [hi.sy]
        simp only [Synchroniser.issue, Synchroniser.newRecord, hrec]
        rfl
    · rw [hissue h] at hexec
      obtain ⟨htrip, hout, -, ha⟩ := State.issueClose_tripped (s := s.released o) none hd.1 hd.2
        (by rw [State.released_levelCause]; exact hc)
      obtain ⟨hs, hdecl, htarget, hmt⟩ := s.released_kept o
      obtain ⟨helse, hacct, hmet⟩ := ((s.released_acts o (hmem _ _)).trans ha).frame
      exact ⟨_, hexec, htrip.before hs hdecl htarget hmt rfl rfl fun _ _ _ => rfl, hout, helse,
        hacc.trans hacct, hmet⟩
    · have hno : (s.released o).tryDeadBus o = s.released o :=
        if_neg fun g => h (hready ▸ hiff.mp g)
      rw [hexec, hno, State.settle_of_no_pass (s := s.released o) hpass]
      refine congrArg Host.Outcome.next (State.onBerth_congr ?_)
      have hst' : ((s.parted o).berth o).sc.state = (s.berth o).sc.state := by rw [hpb]
      unfold Berth.releaseDrives
      rw [hst', Protection.takeOpen_of_ne _ (by rcases hst with h | h <;> rw [h] <;> decide)
        (by rcases hst with h | h <;> rw [h] <;> decide)]
      rfl

end Sys2Proof.Proofs
end


-- ==== Sys2Proof/Proofs/Restarts.lean ====
section
/-! PROOFS. Supply-on and the warm restart (R71, R170, R181, R182). -/

namespace Sys2Proof.Machine

open Sys2Proof

/-! ### FE with room in its queue -/

theorem FaultUnit.take_of_room {u : FaultUnit} {k : FaultKind} (e : EventRecord)
    (reported : u.reports k = true) (h : u.queue.length < 32) :
    u.take k e = { u with
      flags := u.flags ||| k.bit, sinceClear := true
      capture := some { kind := k, source := e.source, seconds := e.seconds, millis := e.millis }
      queue := u.queue ++ [e] } := by
  rw [FaultUnit.take_of_reports reported]
  rw [FaultUnit.offer_of_room (by exact h)]

/-! ### Supply-on (R71, R102) -/

theorem State.unwantedClosure_eq (s : State) (o : Outlet) :
    s.unwantedClosure o = { s.onSy o (fun y => y.takeUnwanted s.tb.run) with
      fe := s.fe.take .breakerLate (s.eventNow (.fault .breakerLate) (.outlet o) none) } := rfl

/-- What the unwanted closures of a list of outlets come to at the outlets. -/
theorem State.foldl_unwantedClosure (l : List Outlet) (hl : l.Nodup) (s : State) :
    (∃ fe bs, l.foldl State.unwantedClosure s = { s with fe := fe, berths := bs })
    ∧ ∀ o, (l.foldl State.unwantedClosure s).berth o
        = if o ∈ l then { s.berth o with sy := (s.berth o).sy.takeUnwanted s.tb.run } else s.berth o := by
  induction l generalizing s with
  | nil => exact ⟨⟨s.fe, s.berths, rfl⟩, fun _ => (if_neg List.not_mem_nil).symm⟩
  | cons p l ih =>
    obtain ⟨hp, hn⟩ := List.nodup_cons.mp hl
    obtain ⟨⟨fe, bs, hrest⟩, hb⟩ := ih hn (s.unwantedClosure p)
    refine ⟨⟨fe, bs, hrest⟩, fun o => ?_⟩
    rw [List.foldl_cons, hb]
    have hne (h : o ≠ p) : (s.unwantedClosure p).berth o = s.berth o :=
      State.berth_onSy_ne s (fun y => y.takeUnwanted s.tb.run) h
    have hself : (s.unwantedClosure p).berth p
        = { s.berth p with sy := (s.berth p).sy.takeUnwanted s.tb.run } :=
      State.berth_onSy_self s p fun y => y.takeUnwanted s.tb.run
    by_cases h : o = p
    · subst h
      rw [if_neg hp, if_pos List.mem_cons_self, hself]
    · rw [hne h]
      simp [h]
      rfl

/-- What they come to in FE, with room in its queue. -/
theorem State.foldl_unwantedClosure_fe (l : List Outlet) (s : State)
    (room : s.fe.queue.length + l.length ≤ 32) (reported : s.fe.reports .breakerLate = true) :
    (l.foldl State.unwantedClosure s).fe = { s.fe with
      flags := s.fe.flags ||| (if l.isEmpty then 0 else FaultKind.breakerLate.bit)
      sinceClear := s.fe.sinceClear || !l.isEmpty
      capture := (l.foldl State.unwantedClosure s).fe.capture
      queue := s.fe.queue ++ l.map fun o =>
        s.eventNow (.fault .breakerLate) (.outlet o) none } := by
  induction l generalizing s with
  | nil => simp
  | cons p l ih =>
    rw [List.length_cons] at room
    have htake : (s.unwantedClosure p).fe = { s.fe with
        flags := s.fe.flags ||| FaultKind.breakerLate.bit, sinceClear := true
        capture := (s.unwantedClosure p).fe.capture
        queue := s.fe.queue ++ [s.eventNow (.fault .breakerLate) (.outlet p) none] } := by
      rw [State.unwantedClosure_eq]
      dsimp only
      rw [FaultUnit.take_of_room _ reported (by omega)]
    have h := ih (s.unwantedClosure p)
      (by rw [htake]; simp only [List.length_append, List.length_cons, List.length_nil]; omega)
      (by rw [htake]; exact reported)
    have hnow (o : Outlet) : (s.unwantedClosure p).eventNow (.fault .breakerLate) (.outlet o) none
        = s.eventNow (.fault .breakerLate) (.outlet o) none := rfl
    rw [List.foldl_cons, h, htake]
    cases l <;> simp [BitVec.or_assoc, hnow]

/-- At supply-on every outlet is that of reset, its feedback as read. -/
theorem State.powered_berth_eq (high : Bool) (closed : Quad Bool) (pending : List Instr) (o : Outlet) :
    (State.powered high closed pending).berth o = { Berth.reset with
      lines := { Berth.reset.lines with
        breakerClosed := closed.get o, closedAt := if closed.get o then some 0 else none } } := by
  cases o <;> rfl

/-! ### The warm restart -/

theorem State.restartBlocks_berth (s : State) (o : Outlet) :
    s.restartBlocks.berth o = (s.berth o).restart s.now s.pool.tripHold := by cases o <;> rfl

/-- Every record of a table changed. -/
theorem Dozen.get_foldl_set {α : Type} (f : α → α) (l : List ModuleNo) (hl : l.Nodup) (d : Dozen α)
    (m : ModuleNo) :
    (l.foldl (fun d n => d.set n (f (d.get n))) d).get m = if m ∈ l then f (d.get m) else d.get m := by
  induction l generalizing d with
  | nil => exact (if_neg List.not_mem_nil).symm
  | cons n l ih =>
    obtain ⟨hn, hl⟩ := List.nodup_cons.mp hl
    rw [List.foldl_cons, ih hl]
    by_cases h : m = n
    · subst h
      rw [if_neg hn, if_pos List.mem_cons_self, Dozen.get_set_self]
    · rw [Dozen.get_set_ne _ _ h]
      simp [h]

theorem State.restartBlocks_module (s : State) (m : ModuleNo) :
    s.restartBlocks.module m = (s.module m).restart s.pool.tripHold s.tb.run := by
  have h := Dozen.get_foldl_set (fun x : Module => x.restart s.pool.tripHold s.tb.run) ModuleNo.all
    ModuleNo.all_nodup s.pool.modules m
  rwa [if_pos (by cases m <;> decide)] at h

/-- R41: a module at a warm restart. -/
theorem Module.restart_restarted (s : State) (m : Module) :
    ModuleRestarted s m (m.restart s.pool.tripHold s.tb.run) := by
  refine ⟨fun h => ?_, fun h hh => ?_, fun h hh => ?_, fun h1 h2 h3 => ?_⟩
  · unfold Module.restart; rw [h]; rfl
  · unfold Module.restart
    rcases h with h | h <;> rw [h] <;> exact if_neg hh
  · unfold Module.restart
    rcases h with h | h <;> rw [h] <;> exact if_pos hh
  · unfold Module.restart
    cases hs : m.state <;> simp_all

/-! ### The reports of the outlets at a warm restart -/

/-- An outlet's reports, by the states before and after the restart. -/
def State.outletReports (s : State) (old new : OutletState) (o : Outlet) : List EventRecord :=
  (if s.fe.outletEvents = true ∧ new ≠ old then [s.eventNow .outletState (.outlet o) (some new.code)]
    else [])
  ++ (if new = .tripped then [s.eventNow (.fault .restart) (.outlet o) none] else [])

/-- The berth of an outlet that a restart has tripped or not. -/
def Berth.countRestart (b : Berth) : Berth :=
  if b.sc.state = .tripped then { b with mt := b.mt.map Meter.countTrip } else b

theorem Berth.countRestart_eq (b : Berth) : b.countRestart = { b with
    mt := if b.sc.state = .tripped then b.mt.map Meter.countTrip else b.mt } := by
  unfold Berth.countRestart
  split <;> rfl

/-- A change of an outlet's berth into itself. -/
theorem State.onBerth_unchanged {s : State} {o : Outlet} {f : Berth → Berth}
    (h : f (s.berth o) = s.berth o) : s.onBerth o f = s := by
  unfold State.onBerth State.berth at *
  rw [h]
  cases o <;> rfl

/-- The capture after the restart's trip of an outlet. -/
def State.captureRestart (s : State) (c : Option Capture) (o : Outlet) : Option Capture :=
  if (s.berth o).sc.state = .tripped then
    some { kind := .restart, source := .outlet o, seconds := s.tb.seconds, millis := s.tb.subSecond / 1000 }
  else c

/-- One outlet's reports (R117, R170), with room in FE's queue and the station's RESTART already taken. -/
theorem State.reportRestart_eq {before s : State} {o : Outlet} (room : s.fe.queue.length + 2 ≤ 32)
    (flagged : s.fe.flags ||| FaultKind.restart.bit = s.fe.flags) (since : s.fe.sinceClear = true) :
    before.reportRestart s o = { s.onBerth o Berth.countRestart with
      fe := { s.fe with
        capture := s.captureRestart s.fe.capture o
        queue := s.fe.queue ++ s.outletReports (before.berth o).sc.state (s.berth o).sc.state o } } := by
  have hrep := s.fe.reports_of_trip (k := .restart) (by decide)
  unfold State.reportRestart State.outletReports State.captureRestart
  dsimp only
  have told : (if (before.berth o).sc.state = (s.berth o).sc.state then s
      else s.reportState o (s.berth o).sc.state)
      = { s with fe := { s.fe with queue := s.fe.queue ++
          if s.fe.outletEvents = true ∧ (s.berth o).sc.state ≠ (before.berth o).sc.state then
            [s.eventNow .outletState (.outlet o) (some (s.berth o).sc.state.code)] else [] } } := by
    by_cases h : (before.berth o).sc.state = (s.berth o).sc.state
    · rw [if_pos h, if_neg (fun c => c.2 h.symm), List.append_nil]
    · rw [if_neg h]
      unfold State.reportState
      by_cases he : s.fe.outletEvents = true
      · rw [if_pos he, if_pos ⟨he, Ne.symm h⟩]
        unfold State.report
        rw [FaultUnit.offer_of_room (by omega)]
      · rw [if_neg he, if_neg (fun c => he c.1), List.append_nil]
  rw [told]
  by_cases h : (s.berth o).sc.state = .tripped
  · rw [if_pos h, if_pos h, if_pos h]
    generalize hev : (if s.fe.outletEvents = true ∧ (s.berth o).sc.state ≠ (before.berth o).sc.state then
      [s.eventNow .outletState (.outlet o) (some (s.berth o).sc.state.code)] else []) = events
    have hlen : events.length ≤ 1 := by rw [← hev]; split <;> simp
    unfold State.raise
    dsimp only
    rw [FaultUnit.take_of_room _ (FaultUnit.reports_of_trip _ (by decide))
      (by simp only [List.length_append]; omega)]
    have hb : s.onBerth o Berth.countRestart = s.onMt o Meter.countTrip :=
      State.onBerth_congr (by unfold Berth.countRestart; rw [if_pos h])
    rw [hb, flagged, since, List.append_assoc]
    rfl
  · have hb : s.onBerth o Berth.countRestart = s :=
      State.onBerth_unchanged (by unfold Berth.countRestart; rw [if_neg h])
    rw [if_neg h, if_neg h, if_neg h, List.append_nil, hb]

/-- The last of a list that meets a condition decides. -/
theorem foldl_last {α β : Type} (p : α → Bool) (f : α → β) (l : List α) (c : Option β) :
    l.foldl (fun c a => if p a then some (f a) else c) c
      = ((l.filter p).getLast?.map f).or c := by
  induction l generalizing c with
  | nil => rfl
  | cons a l ih =>
    rw [List.foldl_cons, ih]
    by_cases h : p a = true
    · rw [if_pos h, List.filter_cons_of_pos h]
      cases hl : l.filter p with
      | nil => rfl
      | cons b m => simp [List.getLast?_cons]
    · rw [if_neg h, List.filter_cons_of_neg h]

theorem Berth.countRestart_sc (b : Berth) : b.countRestart.sc = b.sc := by
  rw [Berth.countRestart_eq]

/-- The reports of a list of outlets, with room for two events each. -/
theorem State.foldl_reportRestart (before : State) (l : List Outlet) (hl : l.Nodup) (s : State)
    (room : s.fe.queue.length + 2 * l.length ≤ 32)
    (flagged : s.fe.flags ||| FaultKind.restart.bit = s.fe.flags) (since : s.fe.sinceClear = true) :
    (∃ fe bs, l.foldl before.reportRestart s = { s with fe := fe, berths := bs })
    ∧ (∀ o, (l.foldl before.reportRestart s).berth o
        = if o ∈ l then (s.berth o).countRestart else s.berth o)
    ∧ (l.foldl before.reportRestart s).fe = { s.fe with
        capture := l.foldl s.captureRestart s.fe.capture
        queue := s.fe.queue ++ l.flatMap fun o =>
          s.outletReports (before.berth o).sc.state (s.berth o).sc.state o } := by
  induction l generalizing s with
  | nil => exact ⟨⟨s.fe, s.berths, rfl⟩, fun _ => (if_neg List.not_mem_nil).symm, by simp⟩
  | cons p l ih =>
    obtain ⟨hp, hn⟩ := List.nodup_cons.mp hl
    rw [List.length_cons] at room
    have he := State.reportRestart_eq (before := before) (o := p) (by omega) flagged since
    generalize hone : before.reportRestart s p = t at he
    have htb : t.tb = s.tb := by rw [he]; rfl
    have hbne (o : Outlet) (h : o ≠ p) : t.berth o = s.berth o := by
      rw [he]; exact State.berth_onBerth_ne _ _ h
    have hbself : t.berth p = (s.berth p).countRestart := by rw [he]; exact State.berth_onBerth_self _ _ _
    have hst (o : Outlet) : (t.berth o).sc = (s.berth o).sc := by
      by_cases h : o = p
      · subst h; rw [hbself, Berth.countRestart_sc]
      · rw [hbne o h]
    have hlen : (s.outletReports (before.berth p).sc.state (s.berth p).sc.state p).length ≤ 2 := by
      unfold State.outletReports
      rw [List.length_append]
      have (c : Prop) [Decidable c] (e : EventRecord) : (if c then [e] else []).length ≤ 1 := by
        split <;> simp
      exact Nat.add_le_add (this _ _) (this _ _)
    obtain ⟨⟨fe, bs, hrest⟩, hb, hfe⟩ := ih hn t
      (by rw [he]; simp only [List.length_append]; omega) (by rw [he]; exact flagged)
      (by rw [he]; exact since)
    have hreports : (fun o => t.outletReports (before.berth o).sc.state (t.berth o).sc.state o)
        = fun o => s.outletReports (before.berth o).sc.state (s.berth o).sc.state o := by
      funext o
      have hout : t.fe.outletEvents = s.fe.outletEvents := by rw [he]
      have hev : t.eventNow = s.eventNow := by unfold State.eventNow; rw [htb]
      unfold State.outletReports
      rw [hst, hout, hev]
    have hcap : t.captureRestart = s.captureRestart := by
      funext c o
      unfold State.captureRestart
      rw [hst, htb]
    rw [hreports, hcap] at hfe
    refine ⟨⟨fe, bs, by rw [List.foldl_cons, hone, hrest, he]; rfl⟩, fun o => ?_, ?_⟩
    · rw [List.foldl_cons, hone, hb]
      by_cases h : o = p
      · subst h; rw [if_neg hp, if_pos List.mem_cons_self, hbself]
      · rw [hbne o h]; simp [h]
    · rw [List.foldl_cons, hone, hfe, he]
      simp [List.append_assoc]

/-- What the reports make of the part's tables at a warm restart. -/
theorem State.warmRestart_eq (s : State) :
    (∃ fe bs, s.warmRestart = { s.restartBlocks with fe := fe, berths := bs })
    ∧ (∀ o, s.warmRestart.berth o = ((s.berth o).restart s.now s.pool.tripHold).countRestart)
    ∧ s.warmRestart.fe = { s.restartBlocks.fe with
        capture := Outlet.all.foldl s.restartBlocks.captureRestart s.fe.capture
        queue := s.eventNow (.fault .restart) .station none :: Outlet.all.flatMap fun o =>
          s.outletReports (s.berth o).sc.state (s.berth o).afterRestart o } := by
  obtain ⟨hrest, hb, hfe⟩ := State.foldl_reportRestart s Outlet.all (by decide) s.restartBlocks
    (by show 1 + 2 * 4 ≤ 32; decide)
    (by show s.fe.flags ||| FaultKind.restart.bit ||| FaultKind.restart.bit
          = s.fe.flags ||| FaultKind.restart.bit
        rw [BitVec.or_assoc, BitVec.or_self]) rfl
  refine ⟨hrest, fun o => ?_, hfe.trans ?_⟩
  · refine (hb o).trans ?_
    rw [if_pos (by cases o <;> decide), State.restartBlocks_berth]
  · have hst : (fun o => s.restartBlocks.outletReports (s.berth o).sc.state
        (s.restartBlocks.berth o).sc.state o)
        = fun o => s.outletReports (s.berth o).sc.state (s.berth o).afterRestart o := by
      funext o
      rw [State.restartBlocks_berth]
      rfl
    rw [hst]
    rfl

/-- R138: SL at a warm restart into a state. -/
theorem ShipLink.restart_facts (l : ShipLink) (new : OutletState) (wake : LinkWake) (now : RunCount) :
    (l.restart (new != .dormant) wake now).state = (if new = .dormant then .unpowered else .waking)
      ∧ (l.restart (new != .dormant) wake now).stations = []
      ∧ (l.restart (new != .dormant) wake now).generators = []
      ∧ (l.restart (new != .dormant) wake now).collisions = 0
      ∧ (l.restart (new != .dormant) wake now).activity = .quiet := by
  cases new <;> exact ⟨rfl, rfl, rfl, rfl, rfl⟩

/-- Every outlet at a warm restart (R103, R117). -/
theorem Berth.restart_restarted (s : State) (b : Berth) :
    OutletRestarted s b (b.restart s.now s.pool.tripHold).countRestart := by
  rw [Berth.countRestart_eq]
  have hafter : b.afterRestart = if b.sc.session.isSome = true ∨ b.lines.breakerClosed = true then .tripped
      else if b.lines.pilotClosed = true then .cableProven else .dormant := rfl
  have hsy : (b.sy.restart).record = if b.sy.close = .inFlight then
      b.sy.record.map (fun r => { r with outcome := .ended }) else b.sy.record := by
    unfold Synchroniser.restart
    cases h : b.sy.close <;> simp [Synchroniser.endClose]
  have hsettings : b.sy.restart.settings = b.sy.settings ∧ b.sy.restart.tc = b.sy.tc
      ∧ b.sy.restart.attempts = b.sy.attempts := by
    unfold Synchroniser.restart
    cases h : b.sy.close <;> exact ⟨rfl, rfl, rfl⟩
  have hlink := b.sl.restart_facts b.afterRestart b.sc.settings.linkWake s.tb.run
  refine
    { state := hafter, session := rfl, declaration := rfl, target := rfl, cause := rfl
      openDrive := rfl, requests := ⟨rfl, rfl⟩, reasons := ⟨rfl, rfl⟩, notices := ⟨rfl, rfl⟩
      times := by repeat' constructor
      entered := fun h => if_neg h, settings := rfl, lines := rfl, measures := rfl
      pool := ⟨rfl, rfl, rfl, rfl, rfl⟩, hold := ?_, references := rfl
      close := ⟨rfl, rfl, rfl, rfl, rfl, rfl⟩, synchroniser := hsettings, record := hsy
      protection := ?_, link := hlink, meter := rfl }
  · show (if b.sc.session.isSome && decide (s.pool.tripHold ≠ 0) then _ else _) = _
    simp
    rfl
  · show b.pr.restart (b.afterRestart == .tripped) s.tb.run = _
    unfold Protection.restart
    simp only [beq_iff_eq]
    rfl

/-- R181: a warm restart of the part. -/
theorem State.warmRestart_restarted (s : State) : Restarted s s.warmRestart := by
  obtain ⟨⟨fe, bs, hrest⟩, hb, hfe⟩ := s.warmRestart_eq
  have hstate (o : Outlet) : (s.warmRestart.berth o).sc.state = (s.berth o).afterRestart := by
    rw [hb, Berth.countRestart_sc]; rfl
  constructor
  case module =>
    intro m
    have : s.warmRestart.module m = s.restartBlocks.module m := by
      show s.warmRestart.pool.modules.get m = _
      rw [hrest]; rfl
    rw [this, State.restartBlocks_module]
    exact Module.restart_restarted s _
  case queue =>
    have hreports : (fun o => s.outletReports (s.berth o).sc.state (s.berth o).afterRestart o)
        = s.restartReports s.warmRestart := by
      funext o
      unfold State.restartReports
      rw [hstate]
      rfl
    rw [hfe, hreports]
  case capture =>
    rw [hfe]
    have hfold := foldl_last (fun o => (s.warmRestart.berth o).sc.state == .tripped)
      (fun o => ({ kind := .restart, source := .outlet o, seconds := s.tb.seconds
                   millis := s.tb.subSecond / 1000 } : Capture)) Outlet.all s.fe.capture
    have hsame : s.restartBlocks.captureRestart = fun c o =>
        if ((s.warmRestart.berth o).sc.state == .tripped) = true then
          some ({ kind := .restart, source := .outlet o, seconds := s.tb.seconds
                  millis := s.tb.subSecond / 1000 } : Capture) else c := by
      funext c o
      unfold State.captureRestart
      rw [State.restartBlocks_berth, hstate]
      simp only [beq_iff_eq]
      rfl
    dsimp only
    rw [hsame, hfold]
    unfold State.restartCapture
    cases (Outlet.all.filter fun o => (s.warmRestart.berth o).sc.state == .tripped).getLast? <;> rfl
  case flags => rw [hfe]; rfl
  case sinceClear => rw [hfe]; rfl
  case reporting => rw [hfe]; exact ⟨rfl, rfl, rfl⟩
  case outlet => exact fun o => hb o ▸ Berth.restart_restarted s _
  all_goals rw [hrest]; rfl

end Sys2Proof.Machine

namespace Sys2Proof.Proofs

open Machine

/-- Settles O12, from the unwanted closures of the outlets whose feedback reads closed. -/
theorem supplyOnStartsThePart : Obligations.SupplyOnStartsThePart := by
  intro high closed s
  have hnodup : (Outlet.all.filter closed.get).Nodup := List.Nodup.filter _ (by decide)
  have hlen : (Outlet.all.filter closed.get).length ≤ 4 := List.length_filter_le _ _
  have hfe0 : (State.powered high closed s.pending).fe = FaultUnit.reset := rfl
  obtain ⟨⟨fe, bs, hrest⟩, hb⟩ := State.foldl_unwantedClosure _ hnodup
    (State.powered high closed s.pending)
  have hfe := State.foldl_unwantedClosure_fe (Outlet.all.filter closed.get)
    (State.powered high closed s.pending)
    (by rw [hfe0]; show 1 + _ ≤ 32; omega) (by rw [hfe0]; decide)
  refine ⟨_, rfl, ?_, fun o => ?_, ?_, ?_, ?_, ?_, ?_, ?_⟩
  · rw [hrest]; rfl
  · rw [hb, State.powered_berth_eq]
    have hmem : o ∈ Outlet.all.filter closed.get ↔ closed.get o = true := by
      rw [List.mem_filter]
      exact ⟨And.right, fun h => ⟨by cases o <;> decide, h⟩⟩
    by_cases h : closed.get o = true
    · rw [if_pos (hmem.mpr h), if_pos h, h]; rfl
    · have hopen : closed.get o = false := by simpa using h
      rw [if_neg (fun c => h (hmem.mp c)), if_neg h, hopen]
      rfl
  · rw [hfe, hfe0]
    have hany : (Outlet.all.filter closed.get).isEmpty = !Outlet.all.any closed.get := by
      rw [Bool.eq_iff_iff]
      simp [List.isEmpty_iff, List.filter_eq_nil_iff]
    rw [hany]
    cases Outlet.all.any closed.get <;> rfl
  · rw [hfe, hfe0]; rfl
  · rw [hfe, hfe0]
  · rw [hfe, hfe0]; rfl
  · rw [hfe, hfe0]; rfl
  · rw [hfe, hfe0, List.map_append, List.map_map]; rfl

/-- Settles O13, from the blocks' own restarts and the reports that follow them. -/
theorem warmRestart : Obligations.WarmRestart := by
  refine ⟨fun s => ⟨_, rfl, s.warmRestart_restarted⟩, fun s r rest body frame htr hbody hframe => ?_,
    fun s h => ?_⟩
  · have hfr : r.frame = frame := by subst hbody hframe; rfl
    have hrestarts : r.restarts = true ↔ r.answers = true ∧ r.kind = 0x87 ∧ r.payload = [0] := by
      unfold Reply.restarts
      simp only [Bool.and_eq_true, beq_iff_eq, and_assoc]
      rfl
    refine ⟨fun ha hk hp => ⟨({ s with svl := s.svl.sent r rest } : State).warmRestart, ?_, ?_⟩,
      fun hn => ?_⟩
    · show Host.Outcome.next _ = _
      rw [htr]
      dsimp only
      rw [if_pos (hrestarts.mpr ⟨ha, hk, hp⟩)]
    · have h := State.warmRestart_restarted { s with svl := s.svl.sent r rest }
      exact { h with
        svl := by rw [h.svl, ← hfr]; rfl
        module := fun m => { h.module m with }
        outlet := fun o => { h.outlet o with } }
    · show Host.Outcome.next _ = _
      rw [htr]
      dsimp only
      rw [if_neg (fun c => hn (hrestarts.mp c)), ← hfr]
      rfl
  · show Host.Outcome.next _ = _
    rw [h]

end Sys2Proof.Proofs
end

