-- ==== Sys2Proof/Proofs/Requests.lean ====
section
/-! PROOFS. How a request is taken, judged and answered: what every judgement leaves of SVL, the checks of the
length, the outlet and the module, and the receiving of frames. -/

namespace Sys2Proof.Machine

/-! ### The fields of short payloads -/

theorem field_one (b : Byte) (rest : List Byte) : field (b :: rest) 0 1 = b.toNat := by
  simp [field, beValue]

theorem field_two (a b c : Byte) : field [a, b, c] 1 2 = b.toNat * 256 + c.toNat := by
  simp [field, beValue]

theorem Outlet.ofNumber_none {n : Nat} (h : n < 1 ∨ 4 < n) : Outlet.ofNumber n = none := by
  unfold Outlet.ofNumber
  split <;> first | rfl | omega

theorem ModuleNo.ofNumber_none {n : Nat} (h : n < 1 ∨ 12 < n) : ModuleNo.ofNumber n = none := by
  unfold ModuleNo.ofNumber
  split <;> first | rfl | omega

theorem outletField_none {p : List Byte} (h : ∀ b rest, p = b :: rest → b.toNat < 1 ∨ 4 < b.toNat) :
    outletField p = none := by
  cases p with
  | nil => rfl
  | cons b rest =>
    have hb := h b rest rfl
    unfold outletField
    rw [field_one]
    exact Outlet.ofNumber_none hb

theorem moduleField_none {p : List Byte} (h : ∀ b rest, p = b :: rest → b.toNat < 1 ∨ 12 < b.toNat) :
    moduleField p = none := by
  cases p with
  | nil => rfl
  | cons b rest =>
    have hb := h b rest rfl
    unfold moduleField
    rw [field_one]
    exact ModuleNo.ofNumber_none hb

theorem outletField_number (o : Outlet) (rest : List Byte) :
    outletField (BitVec.ofNat 8 o.number :: rest) = some o := by
  unfold outletField
  rw [field_one]
  cases o <;> rfl

theorem moduleField_number (m : ModuleNo) (rest : List Byte) :
    moduleField (BitVec.ofNat 8 m.number :: rest) = some m := by
  unfold moduleField
  rw [field_one]
  cases m <;> rfl

/-! ### The checks of R174 -/

theorem ofLength_of_eq {n : Nat} {p : List Byte} (s : State) (v : Verdict) (h : p.length = n) :
    ofLength n p s v = v := if_pos h

theorem ofLength_of_ne {n : Nat} {p : List Byte} (s : State) (v : Verdict) (h : p.length ≠ n) :
    ofLength n p s v = refuse s .badLength := if_neg h

theorem ofOutlet_of_some {p : List Byte} {o : Outlet} (s : State) (judge : Outlet → Verdict)
    (h : outletField p = some o) : ofOutlet p s judge = judge o := by
  unfold ofOutlet; rw [h]

theorem ofOutlet_of_none {p : List Byte} (s : State) (judge : Outlet → Verdict)
    (h : outletField p = none) : ofOutlet p s judge = refuse s .refusedRange := by
  unfold ofOutlet; rw [h]

theorem ofModule_of_some {p : List Byte} {m : ModuleNo} (s : State) (judge : ModuleNo → Verdict)
    (h : moduleField p = some m) : ofModule p s judge = judge m := by
  unfold ofModule; rw [h]

theorem ofModule_of_none {p : List Byte} (s : State) (judge : ModuleNo → Verdict)
    (h : moduleField p = none) : ofModule p s judge = refuse s .refusedRange := by
  unfold ofModule; rw [h]

/-- A request that names an outlet, of the right length. -/
theorem ofLength_ofOutlet {n : Nat} {p : List Byte} {o : Outlet} {s : State} {judge : Outlet → Verdict}
    (h : p.length = n) (ho : outletField p = some o) :
    ofLength n p s (ofOutlet p s judge) = judge o :=
  (ofLength_of_eq _ _ h).trans (ofOutlet_of_some _ _ ho)

/-- A request that names a module, of the right length. -/
theorem ofLength_ofModule {n : Nat} {p : List Byte} {m : ModuleNo} {s : State}
    {judge : ModuleNo → Verdict} (h : p.length = n) (hm : moduleField p = some m) :
    ofLength n p s (ofModule p s judge) = judge m :=
  (ofLength_of_eq _ _ h).trans (ofModule_of_some _ _ hm)

/-! ### Taking and turning away -/

/-- A request taken: the state that it leaves owes its reply. -/
theorem State.request_answered {s : State} {kind tag : Byte} {judge : State → Verdict} {v : Verdict}
    (free : s.svl.inProgress = none) (h : judge s = v) :
    s.request kind tag judge = v.1.answered kind tag v.2 := by
  unfold State.request
  rw [if_neg (by rw [free]; exact nofun), h]
  rfl

theorem State.request_turnedAway {s : State} {kind tag : Byte} {judge : State → Verdict}
    (busy : s.svl.inProgress.isSome = true) : s.request kind tag judge = s.turnedAway kind tag := by
  unfold State.request
  rw [if_pos busy]
  unfold State.turnedAway SupervisoryLink.turnAway SupervisoryLink.busyOwed
  split <;> rfl

/-- What every judgement of a request leaves of SVL, and the form of the reply (R174). -/
structure Answers (s : State) (v : Verdict) : Prop where
  svl : v.1.svl = s.svl
  reply : ∃ (status : Byte) (results : List Byte), v.2 = status :: results ∧ status.toNat ≤ 6

theorem Answers.refuse {s : State} {status : Status} (h : status ≠ .busy) :
    Answers s (refuse s status) :=
  ⟨rfl, status.byte, [], rfl, by cases status <;> first | decide | exact absurd rfl h⟩

theorem Answers.accept {s t : State} {results : List Byte} (h : t.svl = s.svl) :
    Answers s (accept t results) := ⟨h, _, _, rfl, by decide⟩

theorem Answers.ofLength {s : State} {n : Nat} {p : List Byte} {v : Verdict} (h : Answers s v) :
    Answers s (ofLength n p s v) := by
  unfold Machine.ofLength
  split
  · exact h
  · exact .refuse (by decide)

theorem Answers.ofOutlet {s : State} {p : List Byte} {judge : Outlet → Verdict}
    (h : ∀ o, Answers s (judge o)) : Answers s (ofOutlet p s judge) := by
  unfold Machine.ofOutlet
  split
  · exact h _
  · exact .refuse (by decide)

theorem Answers.ofModule {s : State} {p : List Byte} {judge : ModuleNo → Verdict}
    (h : ∀ m, Answers s (judge m)) : Answers s (ofModule p s judge) := by
  unfold Machine.ofModule
  split
  · exact h _
  · exact .refuse (by decide)

/-! ### What the judgements leave of SVL -/

theorem State.settle_svl (s : State) : s.settle.svl = s.svl :=
  (State.settle_acts ⟨[], [], false, false, []⟩ s).station.svl

theorem State.meterTimeStep_metered (s : State) : Metered s s.meterTimeStep :=
  .foldl _ State.serveTimeStep_metered _ _

theorem Metered.svl {s t : State} (h : Metered s t) : t.svl = s.svl := by rw [h.rest]

theorem State.setSeconds_svl (s : State) (seconds : BitVec 32) : (s.setSeconds seconds).svl = s.svl :=
  (State.noteQuality_metered _).svl.trans (State.meterTimeStep_metered _).svl

theorem State.setLimit_svl (s : State) (limit : Nat) : (s.setLimit limit).svl = s.svl := by
  unfold State.setLimit
  rw [State.settle_svl]
  split <;> rfl

theorem State.changeByRequest_answers (s : State) (m : ModuleNo) (f : Module → Module) :
    Answers s (s.changeByRequest m f) := by
  refine .accept ?_
  rw [State.settle_svl]
  exact (State.arbitrate_acts ⟨[], [m], false, false, []⟩ _).station.svl.trans
    (State.changeModule_acts (x := ⟨[], [m], false, false, []⟩) f
      (.inl List.mem_cons_self)).station.svl

theorem State.endSession_svl {s t : State} {o : Outlet} (h : s.endSession o = some t) :
    t.svl = s.svl := by
  have ho : o ∈ [o] := List.mem_cons_self
  have scope : Acts ⟨[o], [], false, true, entryKinds⟩ s t := by
    unfold State.endSession at h
    dsimp only at h
    split at h
    case h_3 => cases h; exact State.moveTo_acts _ _ _ _ ho (.inl (by decide))
    case h_4 | h_5 => cases h; exact State.windDown_acts _ _ ho rfl
    case h_6 => cases h; exact Acts.onSc _ _ _ ho rfl rfl
    case h_7 => cases h; exact State.enter_acts _ _ _ _ ho (.inl (by decide)) (fun _ => id)
    case h_8 => cases h; exact State.requestReturn_acts _ _ ho (fun _ => id)
    case h_9 | h_10 | h_11 => cases h; exact .refl _ _
    case h_12 =>
      split at h
      · cases h; exact State.windDown_acts _ _ ho rfl
      · cases h
    all_goals cases h
  exact scope.station.svl

theorem State.resetOutlet_svl (s : State) (o : Outlet) : (s.resetOutlet o).svl = s.svl := by
  unfold State.resetOutlet
  rw [State.settle_svl]
  have ho : o ∈ [o] := List.mem_cons_self
  exact ((State.moveTo_acts (x := ⟨[o], [], false, true, entryKinds⟩) s o _ 0 ho
    (.inl (by decide))).trans (State.capacityChanged_acts _ _ ho (fun _ => id))).station.svl

/-! ### Each request's judgement -/

/-- The kinds of the requests that name an outlet, and nothing else that could be out of range before it. -/
def kindsOfOutlet : List Byte := [0x20, 0x21, 0x25, 0x26, 0x27, 0x28, 0x30, 0x31, 0x40, 0x43]

/-- The kinds of the requests that name a module. -/
def kindsOfModule : List Byte := [0x10, 0x11, 0x12]

/-- A command that is a request is judged: what the judgement leaves and answers, and its refusals by length,
outlet and module (R174). -/
structure Judges (kind : Byte) (p : List Byte) (s : State) (v : Verdict) : Prop where
  answers : Answers s v
  length : ∀ n, payloadLength kind p = some n → p.length ≠ n → v = refuse s .badLength
  outlet : payloadLength kind p = some p.length → kind ∈ kindsOfOutlet → outletField p = none →
    v = refuse s .refusedRange
  module : payloadLength kind p = some p.length → kind ∈ kindsOfModule → moduleField p = none →
    v = refuse s .refusedRange

theorem Judges.fixed {kind : Byte} {p : List Byte} {s : State} {v : Verdict} (n : Nat)
    (length : payloadLength kind p = some n) (noOutlet : kind ∉ kindsOfOutlet)
    (noModule : kind ∉ kindsOfModule) (h : Answers s v) : Judges kind p s (ofLength n p s v) where
  answers := h.ofLength
  length k hk hp := ofLength_of_ne _ _ (by rw [length] at hk; cases hk; exact hp)
  outlet _ hk := absurd hk noOutlet
  module _ hk := absurd hk noModule

theorem Judges.ofOutlet {kind : Byte} {p : List Byte} {s : State} {judge : Outlet → Verdict} (n : Nat)
    (length : payloadLength kind p = some n) (noModule : kind ∉ kindsOfModule)
    (h : ∀ o, Answers s (judge o)) : Judges kind p s (ofLength n p s (ofOutlet p s judge)) where
  answers := (Answers.ofOutlet h).ofLength
  length k hk hp := ofLength_of_ne _ _ (by rw [length] at hk; cases hk; exact hp)
  outlet hk _ ho := (ofLength_of_eq _ _ (by rw [length] at hk; cases hk; rfl)).trans
    (ofOutlet_of_none _ _ ho)
  module _ hk := absurd hk noModule

theorem Judges.ofModule {kind : Byte} {p : List Byte} {s : State} {judge : ModuleNo → Verdict} (n : Nat)
    (length : payloadLength kind p = some n) (noOutlet : kind ∉ kindsOfOutlet)
    (h : ∀ m, Answers s (judge m)) : Judges kind p s (ofLength n p s (ofModule p s judge)) where
  answers := (Answers.ofModule h).ofLength
  length k hk hp := ofLength_of_ne _ _ (by rw [length] at hk; cases hk; exact hp)
  outlet _ hk := absurd hk noOutlet
  module hk _ ho := (ofLength_of_eq _ _ (by rw [length] at hk; cases hk; rfl)).trans
    (ofModule_of_none _ _ ho)

theorem payloadLength_setBands (p : List Byte) :
    payloadLength 0x04 p = some (1 + 3 * field p 0 1) := by
  cases p with
  | nil => rfl
  | cons b rest => rw [field_one]; rfl

/-- A kind that no request has gives its payload no length. -/
theorem payloadLength_unknown {kind : Byte} (h : isUnknownKind kind = true) :
    payloadLength kind [] = none := by
  unfold payloadLength
  split
  case h_31 => rfl
  all_goals
    rename_i hk
    simp [isUnknownKind, requestCommand, hk] at h

theorem judgeConfigureStation_judges (p : List Byte) (s : State) :
    Judges 0x01 p s (judgeConfigureStation p s) := by
  refine .fixed 12 rfl (by decide) (by decide) ?_
  dsimp only
  split
  · exact .refuse (by decide)
  · split
    · exact .refuse (by decide)
    · exact .accept (State.noteQuality_metered _).svl

theorem judgeSetImportLimit_judges (p : List Byte) (s : State) :
    Judges 0x03 p s (judgeSetImportLimit p s) := by
  refine .fixed 2 rfl (by decide) (by decide) ?_
  split
  · exact .refuse (by decide)
  · exact .accept (State.setLimit_svl _ _)

theorem judgeSetBands_judges (p : List Byte) (s : State) : Judges 0x04 p s (judgeSetBands p s) := by
  refine .fixed _ (payloadLength_setBands p) (by decide) (by decide) ?_
  split
  · exact .refuse (by decide)
  · split
    · exact .refuse (by decide)
    · exact .accept rfl

theorem judgeDeclareModule_judges (p : List Byte) (s : State) :
    Judges 0x10 p s (judgeDeclareModule p s) := by
  refine .ofModule 3 rfl (by decide) fun m => ?_
  dsimp only
  split
  · exact .refuse (by decide)
  · split
    · exact State.changeByRequest_answers _ _ _
    · exact State.changeByRequest_answers _ _ _
    all_goals exact .refuse (by decide)

theorem judgeWithdrawModule_judges (p : List Byte) (s : State) :
    Judges 0x11 p s (judgeWithdrawModule p s) := by
  refine .ofModule 1 rfl (by decide) fun m => ?_
  split
  case h_1 | h_2 | h_3 => exact State.changeByRequest_answers _ _ _
  all_goals exact .refuse (by decide)

theorem judgeUnlockModule_judges (p : List Byte) (s : State) :
    Judges 0x12 p s (judgeUnlockModule p s) := by
  refine .ofModule 1 rfl (by decide) fun m => ?_
  split
  · exact State.changeByRequest_answers _ _ _
  all_goals exact .refuse (by decide)

theorem judgeConfigureOutlet_judges (p : List Byte) (s : State) :
    Judges 0x20 p s (judgeConfigureOutlet p s) := by
  refine .ofOutlet 25 rfl (by decide) fun o => ?_
  dsimp only
  split
  · exact .refuse (by decide)
  · split
    · exact .refuse (by decide)
    · exact .accept rfl

theorem judgeAuthorise_judges (p : List Byte) (s : State) :
    Judges 0x22 p s (judgeAuthorise p s) := by
  refine .fixed 11 rfl (by decide) (by decide) ?_
  split
  · rename_i outlet _ _
    generalize readAuthEntry p outlet = e
    dsimp only
    split
    · exact .refuse (by decide)
    · exact .accept (State.settle_svl _)
  · exact .refuse (by decide)

theorem judgeRevoke_judges (p : List Byte) (s : State) : Judges 0x23 p s (judgeRevoke p s) := by
  refine .fixed 5 rfl (by decide) (by decide) ?_
  split
  · exact .refuse (by decide)
  · split
    · exact .refuse (by decide)
    · exact .accept rfl

theorem judgeEndSession_judges (p : List Byte) (s : State) :
    Judges 0x25 p s (judgeEndSession p s) := by
  refine .ofOutlet 1 rfl (by decide) fun o => ?_
  split
  · exact .refuse (by decide)
  · rename_i h
    exact .accept ((State.settle_svl _).trans (State.endSession_svl h))

theorem judgeResetOutlet_judges (p : List Byte) (s : State) :
    Judges 0x26 p s (judgeResetOutlet p s) := by
  refine .ofOutlet 1 rfl (by decide) fun o => ?_
  split
  · exact .accept (State.resetOutlet_svl _ _)
  · exact .refuse (by decide)

theorem judgeSetCap_judges (p : List Byte) (s : State) : Judges 0x27 p s (judgeSetCap p s) := by
  refine .ofOutlet 3 rfl (by decide) fun o => ?_
  dsimp only
  split
  · exact .refuse (by decide)
  · split
    · exact .refuse (by decide)
    · exact ⟨State.settle_svl _, _, _, rfl, by split <;> decide⟩

theorem judgeSetIslandTrim_judges (p : List Byte) (s : State) :
    Judges 0x28 p s (judgeSetIslandTrim p s) :=
  .ofOutlet 2 rfl (by decide) fun _ => ⟨rfl, _, _, rfl, by split <;> decide⟩

theorem judgeReleaseBilling_judges (p : List Byte) (s : State) :
    Judges 0x42 p s (judgeReleaseBilling p s) := by
  refine .fixed 4 rfl (by decide) (by decide) ?_
  dsimp only
  split
  · exact .refuse (by decide)
  · exact .accept (State.settle_svl _)

theorem judgeFlushInterval_judges (p : List Byte) (s : State) :
    Judges 0x43 p s (judgeFlushInterval p s) := by
  refine .ofOutlet 1 rfl (by decide) fun o => ?_
  split
  · exact .refuse (by decide)
  · split
    · exact .refuse (by decide)
    · exact .accept (State.closeInterval_metered _ _ _).svl

theorem judgeClearFaults_judges (p : List Byte) (s : State) :
    Judges 0x52 p s (judgeClearFaults p s) := by
  refine .fixed 4 rfl (by decide) (by decide) ?_
  dsimp only
  split
  · exact .refuse (by decide)
  · exact .accept rfl

/-- Every command that is a request is taken as one, and judged by what its kind says. -/
theorem exec_request {i : Instr} {kind tag : Byte} {p : List Byte} (h : i.request = some (kind, tag, p))
    (s : State) : ∃ judge, exec i s = .next (s.request kind tag judge)
      ∧ Answers s (judge s) ∧ (i.wellFormed = true → Judges kind p s (judge s)) := by
  suffices hj : ∃ judge, exec i s = .next (s.request kind tag judge)
      ∧ (Judges kind p s (judge s) ∨ (Answers s (judge s) ∧ p = [] ∧ i = .unknownRequest kind tag)) by
    obtain ⟨judge, he, hj | ⟨ha, rfl, rfl⟩⟩ := hj
    · exact ⟨judge, he, hj.answers, fun _ => hj⟩
    · refine ⟨judge, he, ha, fun hw => ?_⟩
      have hnone : payloadLength kind [] = none := payloadLength_unknown hw
      have absent {P : Prop} {n : Nat} (hn : payloadLength kind [] = some n) : P := by
        rw [hnone] at hn; cases hn
      exact ⟨ha, fun n hn => absent hn, absent, absent⟩
  cases i
  case unknownRequest kind' tag' =>
    cases h
    exact ⟨_, rfl, .inr ⟨.refuse (by decide), rfl, rfl⟩⟩
  case configureStation => cases h; exact ⟨_, rfl, .inl (judgeConfigureStation_judges _ _)⟩
  case setImportLimit => cases h; exact ⟨_, rfl, .inl (judgeSetImportLimit_judges _ _)⟩
  case setBands => cases h; exact ⟨_, rfl, .inl (judgeSetBands_judges _ _)⟩
  case declareModule => cases h; exact ⟨_, rfl, .inl (judgeDeclareModule_judges _ _)⟩
  case withdrawModule => cases h; exact ⟨_, rfl, .inl (judgeWithdrawModule_judges _ _)⟩
  case unlockModule => cases h; exact ⟨_, rfl, .inl (judgeUnlockModule_judges _ _)⟩
  case configureOutlet => cases h; exact ⟨_, rfl, .inl (judgeConfigureOutlet_judges _ _)⟩
  case authorise => cases h; exact ⟨_, rfl, .inl (judgeAuthorise_judges _ _)⟩
  case revoke => cases h; exact ⟨_, rfl, .inl (judgeRevoke_judges _ _)⟩
  case endSession => cases h; exact ⟨_, rfl, .inl (judgeEndSession_judges _ _)⟩
  case resetOutlet => cases h; exact ⟨_, rfl, .inl (judgeResetOutlet_judges _ _)⟩
  case setCap => cases h; exact ⟨_, rfl, .inl (judgeSetCap_judges _ _)⟩
  case setIslandTrim => cases h; exact ⟨_, rfl, .inl (judgeSetIslandTrim_judges _ _)⟩
  case releaseBilling => cases h; exact ⟨_, rfl, .inl (judgeReleaseBilling_judges _ _)⟩
  case flushInterval => cases h; exact ⟨_, rfl, .inl (judgeFlushInterval_judges _ _)⟩
  case clearFaults => cases h; exact ⟨_, rfl, .inl (judgeClearFaults_judges _ _)⟩
  case setTime =>
    cases h
    exact ⟨_, rfl, .inl (.fixed 4 rfl (by decide) (by decide) (.accept (State.setSeconds_svl _ _)))⟩
  case setReporting =>
    cases h
    exact ⟨_, rfl, .inl (.fixed 5 rfl (by decide) (by decide) (.accept rfl))⟩
  case readStation | readTime | restart | readModules | readAuthorisations | readBilling | readEvents
      | readFaults =>
    cases h
    exact ⟨_, rfl, .inl (.fixed 0 rfl (by decide) (by decide) (.accept rfl))⟩
  case readOutlet | readStations | readGenerators | readMeters =>
    cases h
    exact ⟨_, rfl, .inl (.ofOutlet 1 rfl (by decide) fun _ => .accept rfl)⟩
  all_goals cases h

end Sys2Proof.Machine
namespace Sys2Proof.Proofs

open Machine

/-- Settles O39: receiving by the state of SVL; a request by the judgement of its kind. -/
theorem requestsAndReceiving : Obligations.RequestsAndReceiving := by
  refine ⟨fun s => ⟨fun receiving => ⟨fun next => ?_, fun cause hc => ?_, ?_⟩, fun hunting => ?_, rfl⟩,
    fun i kind tag p s hi => ⟨fun free => ?_, fun busy => ?_⟩,
    fun kind tag s => ⟨fun busy => ?_, fun free => ?_⟩⟩
  · show Host.Outcome.next _ = _
    rw [if_pos receiving]
    unfold SupervisoryLink.examine
    by_cases hn : next = 0xA5
    · rw [if_pos hn, if_pos hn, if_pos hn, hn]; rfl
    · rw [if_neg hn, if_neg hn, if_neg hn]; rfl
  · show Host.Outcome.next _ = _
    rw [if_pos receiving]
    rcases hc with rfl | ⟨b, rfl, hb⟩
    · rfl
    · have hlength : isFrameLength b = false := by
        unfold isFrameLength
        rw [decide_eq_false_iff_not]
        omega
      dsimp only
      rw [hlength]
      rfl
  · show execSyncByte s = _
    unfold execSyncByte
    rw [receiving]
    rfl
  · show execSyncByte s = _
    unfold execSyncByte
    rw [hunting]
    rfl
  · obtain ⟨judge, he, ha, -⟩ := exec_request hi s
    obtain ⟨status, results, hv, hle⟩ := ha.reply
    rw [State.request_answered free rfl] at he
    refine ⟨(judge s).1, status, results, hv ▸ he, ha.svl, ?_, hle⟩
    exact (exec_holds he).pending
  · obtain ⟨judge, he, -⟩ := exec_request hi s
    rw [he, State.request_turnedAway busy]
  · show Host.Outcome.next _ = _
    rw [if_pos busy]
    exact congrArg _ (State.request_turnedAway (judge := fun t => refuse t .busy) busy ▸
      by unfold State.request; rw [if_pos busy])
  · exact congrArg _ (State.request_answered free rfl)

/-- Settles O40: the refusals by the checks of length, outlet and module; the reads, each with its results. -/
theorem refusalsAndReads : Obligations.RefusalsAndReads := by
  refine ⟨fun i kind tag p n s hw hi hn free => ?_, fun tag s free => ?_⟩
  · obtain ⟨judge, he, -, hj⟩ := exec_request hi s
    have hj := hj hw
    have refused {status : Status} (h : judge s = refuse s status) :
        exec i s = .next (s.answered kind tag [status.byte]) := by
      rw [he, State.request_answered free h]; rfl
    refine ⟨fun hp => refused (hj.length n hn hp), fun hp hk hb => refused (status := .refusedRange) ?_,
      fun hp hk hb => refused (status := .refusedRange) ?_⟩
    · exact hj.outlet (hp ▸ hn) hk (outletField_none hb)
    · exact hj.module (hp ▸ hn) hk (moduleField_none hb)
  · have answered {kind : Byte} {judge : State → Verdict} {t : State} {results : List Byte}
        (h : judge s = accept t results) :
        Host.Outcome.next (s.request kind tag judge)
          = (.next (t.answered kind tag (0 :: results)) : Host.Outcome State Fault Refusal) :=
      congrArg _ (State.request_answered free h)
    have named (o : Outlet) {b : Byte} (hb : b = BitVec.ofNat 8 o.number) {judge : Outlet → Verdict} :
        ofLength 1 [b] s (ofOutlet [b] s judge) = judge o :=
      ofLength_ofOutlet rfl (hb ▸ outletField_number o [])
    refine ⟨answered rfl, answered rfl, answered rfl, answered rfl, answered rfl, answered rfl, ?_,
      fun o b hb => ⟨answered (named o hb), fun held => answered (named o hb), answered (named o hb),
        answered (named o hb)⟩⟩
    have held : s.fe.takeEvents.queue.length = s.fe.queue.length - 8 := List.length_drop
    exact held ▸ answered (t := { s with fe := s.fe.takeEvents }) rfl

end Sys2Proof.Proofs
end

