-- ==== Sys2Proof/Proofs/Settings.lean ====
section
/-! PROOFS. The requests that write settings, authorisations, claims and faults (O45, O46, O50, O52). -/

namespace Sys2Proof.Machine

/-- A request that is taken, with what its judgement comes to. -/
theorem State.request_next {s : State} {kind tag : Byte} {judge : State → Verdict} {v : Verdict}
    (free : s.svl.inProgress = none) (h : judge s = v) :
    (.next (s.request kind tag judge) : Host.Outcome State Fault Refusal)
      = .next (v.1.answered kind tag v.2) :=
  congrArg Host.Outcome.next (State.request_answered free h)

/-! ### Evaluation passes with no outlet waiting -/

theorem State.waitingOutlets_nil {s : State} (h : s.noneWaits) : s.waitingOutlets = [] := by
  have hfilter : (Outlet.all.filter fun o => (s.berth o).sc.state == .awaitAuth) = [] :=
    List.filter_eq_nil_iff.mpr fun o _ => by have := h o; unfold State.waits at this; rw [this]; decide
  unfold State.waitingOutlets
  rw [hfilter]
  rfl

/-- With no outlet waiting a pass decides nothing. -/
theorem State.settle_of_noneWaits {s : State} (h : s.noneWaits) :
    s.settle = { s with passDue := false } := by
  have hpass : s.pass = { s with passDue := false } := by
    unfold State.pass; rw [State.waitingOutlets_nil h]; rfl
  unfold State.settle
  cases hd : s.passDue with
  | false => unfold State.passes; rw [hd]; cases s; cases hd; rfl
  | true => unfold State.passes; rw [hd, hpass]; unfold State.passes; rfl

/-! ### Outlet settings and trim -/

theorem clampInt_eq (lo hi x : Int) (h : lo ≤ hi) : clampInt lo hi x = max lo (min hi x) := by
  unfold clampInt
  split
  · omega
  · split <;> omega

theorem intoBand_inside {band : Nat × Nat} {x : Int} (low : (band.1 : Int) ≤ x)
    (high : x ≤ (band.2 : Int)) : intoBand band x = x.toNat ∧ outsideBand band x = false := by
  unfold intoBand clampInt outsideBand
  rw [if_neg (by omega), if_neg (by omega)]
  exact ⟨rfl, decide_eq_false (by omega)⟩

/-- The targets of ISLAND with a trim within its range lie inside both bands, so that they are not clamped
(R46, R56). -/
theorem Berth.islandTargets_eq {b : Berth} (low : -50 ≤ b.rg.islandTrim) (high : b.rg.islandTrim ≤ 50) :
    b.islandTargets = { b with rg := { b.rg with
      freqTarget := b.nominalFreq, clamped := false
      voltTarget := ((b.nominalVolts : Int) * (1000 + b.rg.islandTrim) / 1000).toNat } } := by
  obtain ⟨hfreq, hfreqIn⟩ := intoBand_inside (band := freqBand b.nominalFreq) (x := b.nominalFreq)
    (by simp only [freqBand]; omega) (by simp only [freqBand]; omega)
  have hvolt : (b.nominalVolts : Int) * 950 ≤ b.nominalVolts * (1000 + b.rg.islandTrim)
      ∧ (b.nominalVolts : Int) * (1000 + b.rg.islandTrim) ≤ b.nominalVolts * 1050 :=
    ⟨Int.mul_le_mul_of_nonneg_left (by omega) (by omega),
      Int.mul_le_mul_of_nonneg_left (by omega) (by omega)⟩
  obtain ⟨hvoltTo, hvoltIn⟩ := intoBand_inside (band := voltBand b.nominalVolts)
    (x := (b.nominalVolts : Int) * (1000 + b.rg.islandTrim) / 1000)
    (by simp only [voltBand]; omega) (by simp only [voltBand]; omega)
  unfold Berth.islandTargets Berth.withTargets
  dsimp only
  rw [hfreq, hfreqIn, hvoltTo, hvoltIn]
  rfl

theorem OutletState.configurable_iff (st : OutletState) :
    st.configurable = true ↔ st = .dormant ∨ st = .cableProven := by
  cases st <;> simp [OutletState.configurable]

theorem OutletState.not_configurable {st : OutletState} (h : st ≠ .dormant) (g : st ≠ .cableProven) :
    st.configurable = false := by
  rw [← Bool.not_eq_true, OutletState.configurable_iff]
  exact fun hs => hs.elim h g

theorem signed_one {x : Int} (low : -128 ≤ x) (high : x < 128) : signed 1 x = [BitVec.ofInt 8 x] := by
  unfold signed
  rw [if_pos (by constructor <;> norm_num <;> omega)]
  unfold beDigits beDigits
  refine congrArg (· :: []) (BitVec.eq_of_toNat_eq ?_)
  rw [BitVec.toNat_ofNat, BitVec.toNat_ofInt]
  norm_num
  omega

/-! ### The authorisation table -/

theorem findPlace_eq {same : Option AuthEntry → Bool} {hull : Nat} {outlet : AuthOutlet}
    (h : ∀ x, same x = x.any fun e => e.hull == hull && e.outlet == outlet)
    (places : List (Option AuthEntry)) : findPlace places hull outlet = places.findIdx? same := by
  unfold findPlace
  refine congrArg (fun f => List.findIdx? f places) (funext fun x => ?_)
  rw [h x]
  cases x <;> rfl

/-- The first place of a list at which a test holds. -/
theorem findIdx?_of_first {α : Type} {l : List α} {f : α → Bool} {n : Nat} {x : α} (hx : l[n]? = some x)
    (here : f x = true) (before : ∀ k y, k < n → l[k]? = some y → f y = false) :
    l.findIdx? f = some n := by
  obtain ⟨hn, hg⟩ := List.getElem?_eq_some_iff.mp hx
  refine List.findIdx?_eq_some_iff_getElem.mpr ⟨hn, hg ▸ here, fun k hk => ?_⟩
  rw [Bool.not_eq_true]
  exact before k _ hk (List.getElem?_eq_getElem _)

theorem findIdx?_of_any {α : Type} {l : List α} {f : α → Bool} {n : Nat} (here : l[n]?.any f = true)
    (before : ∀ k, k < n → l[k]?.any f = false) : l.findIdx? f = some n := by
  cases hx : l[n]? with
  | none => rw [hx] at here; cases here
  | some x =>
    rw [hx] at here
    exact findIdx?_of_first hx here fun k y hk hy => by have := before k hk; rwa [hy] at this

theorem findIdx?_of_not_any {α : Type} {l : List α} {f : α → Bool} (h : l.any f = false) :
    l.findIdx? f = none :=
  List.findIdx?_eq_none_iff.mpr fun x hx => by
    rw [← Bool.not_eq_true]
    exact fun hf => by rw [List.any_eq_true.mpr ⟨x, hx, hf⟩] at h; cases h

/-! ### The claim -/

theorem State.setClaim_eq {s : State} {o : Outlet} {x : Session} {claim : Nat}
    (hx : (s.berth o).sc.session = some x) (h : claim ≤ 20000)
    (hmode : (s.berth o).rg.mode = .power ∨ (s.berth o).sc.state ≠ .parallelIn) :
    (s.berth o).setClaim claim = { s.berth o with
      sc := { (s.berth o).sc with session := some { x with claim := claim } }
      rg := { (s.berth o).rg with pSet :=
        if (s.berth o).sc.state = .parallelIn then min (s.berth o).rg.pSet claim
        else (s.berth o).rg.pSet } } := by
  have hrg : (if (s.berth o).sc.state = .parallelIn ∧ claim < (s.berth o).rg.pSet then
      (s.berth o).rg.writePSet claim else (s.berth o).rg)
      = { (s.berth o).rg with pSet :=
        if (s.berth o).sc.state = .parallelIn then min (s.berth o).rg.pSet claim
        else (s.berth o).rg.pSet } := by
    unfold RefGen.writePSet
    by_cases hs : (s.berth o).sc.state = .parallelIn
    · have hm : (s.berth o).rg.mode = .power := hmode.resolve_right (fun h => h hs)
      rw [if_pos hs, if_pos hm]
      by_cases hp : claim < (s.berth o).rg.pSet
      · rw [if_pos ⟨hs, hp⟩, min_eq_left (by omega : claim ≤ 25000), min_eq_right (by omega)]
      · rw [if_neg (fun h => hp h.2), min_eq_left (by omega)]
    · rw [if_neg hs, if_neg (fun h => hs h.1)]
  unfold Berth.setClaim
  rw [hx, hrg]
  rfl

end Sys2Proof.Machine

namespace Sys2Proof.Proofs

open Machine

/-- Settles O52: the mask judged, and the flags and enables that result. -/
theorem faultRequests : Obligations.FaultRequests := by
  intro tag p s free
  refine ⟨fun hp mask flags u hm hf hu => ?_, fun hp u hu => ?_⟩
  · have judged : judgeClearFaults p s = if mask &&& 0xE0000000 ≠ 0 then refuse s .refusedRange
        else accept { s with fe := u } (flagResults u) := by
      subst hm hf hu
      exact ofLength_of_eq _ _ hp
    refine ⟨fun hmask => ?_, fun hmask => ?_⟩
    · refine (State.request_next free (judged.trans (if_neg (not_not.mpr hmask)))).trans ?_
      rw [hu]
      rfl
    · exact State.request_next free (judged.trans (if_pos hmask))
  · have hidem : u.enables &&& otherKinds = u.enables := by
      rw [hu]
      show BitVec.ofNat 32 (field p 0 4) &&& otherKinds &&& otherKinds = _
      rw [BitVec.and_assoc, BitVec.and_self]
      rfl
    have hresults : reportingSettings u = unsigned 4 u.enables.toNat
        ++ unsigned 1 (u.outletEvents.toNat + 2 * u.reportOff.toNat) := by
      unfold reportingSettings
      rw [hidem]
      rfl
    have hset : s.fe.setReporting (BitVec.ofNat 32 (field p 0 4)) (field p 4 1) = u := by
      rw [hu]
      unfold FaultUnit.setReporting bitOf
      rw [pow_zero, pow_one, Nat.div_one]
      rfl
    have judged : judgeSetReporting p s = accept { s with fe := u } (reportingSettings u) := by
      rw [← hset]
      exact ofLength_of_eq _ _ hp
    refine (State.request_next free judged).trans ?_
    rw [hresults]
    rfl

/-- Settles O45: each setting written, and the trim with the targets of ISLAND. -/
theorem outletSettingsAndTrim : Obligations.OutletSettingsAndTrim := by
  refine ⟨fun tag p o s c hp ho hc free => ?_, fun tag x b o s trim hb htrim free => ?_⟩
  · have judged : judgeConfigureOutlet p s =
        if !(presenceWordFits p && c.inRange (s.berth o).sy.settings) then refuse s .refusedRange
        else if !(s.berth o).sc.state.configurable then refuse s .refusedState
        else accept (s.onBerth o c.apply) (outletSettings ((s.onBerth o c.apply).berth o)) :=
      hc ▸ ofLength_ofOutlet hp ho
    refine ⟨fun ⟨hword, hrange⟩ => ?_, fun hbad => ?_⟩
    · rw [if_neg (by rw [hrange, presenceWordFits, decide_eq_true hword]; decide)] at judged
      refine ⟨fun hstate t ht => ?_, fun hd hcp => ?_⟩
      · rw [if_neg (by rw [(OutletState.configurable_iff _).mpr hstate]; decide)] at judged
        subst ht
        exact State.request_next free judged
      · rw [if_pos (by rw [OutletState.not_configurable hd hcp]; rfl)] at judged
        exact State.request_next free judged
    · refine State.request_next free (judged.trans (if_pos ?_))
      rw [Bool.not_eq_true', ← Bool.not_eq_true, Bool.and_eq_true, presenceWordFits, decide_eq_true_eq]
      exact hbad
  · have hsigned : signedField [b, x] 1 1 = x.toInt := by
      unfold signedField
      have : field [b, x] 1 1 = x.toNat := by simp [field, beValue]
      rw [this, BitVec.toInt_eq_toNat_cond]
      dsimp only
      split <;> split <;> omega
    have hclamp : clampInt (-50) 50 (signedField [b, x] 1 1) = trim := by
      rw [hsigned, clampInt_eq _ _ _ (by decide), htrim]
    have hrange : -50 ≤ trim ∧ trim ≤ 50 := by omega
    have judged : judgeSetIslandTrim [b, x] s = (s.onBerth o fun c => c.setTrim trim,
        (if trim = x.toInt then Status.ok else .clamped).byte :: signed 1 trim) := by
      rw [← hclamp, ← hsigned]
      exact ofLength_ofOutlet rfl (hb ▸ outletField_number o [x])
    have hbytes : (if trim = x.toInt then Status.ok else Status.clamped).byte :: signed 1 trim
        = [if trim = x.toInt then 0 else 1, BitVec.ofInt 8 trim] := by
      rw [signed_one (by omega) (by omega)]
      split <;> rfl
    have hset : ∀ c : Berth, c.setTrim trim = { c with rg :=
        if c.rg.mode = .island then
          { c.rg with
            islandTrim := trim, freqTarget := c.nominalFreq, clamped := false
            voltTarget := ((c.nominalVolts : Int) * (1000 + trim) / 1000).toNat }
        else { c.rg with islandTrim := trim } } := fun c => by
      unfold Berth.setTrim
      dsimp only
      split
      · exact Berth.islandTargets_eq (b := { c with rg := { c.rg with islandTrim := trim } })
          hrange.1 hrange.2
      · rfl
    refine (State.request_next free judged).trans ?_
    rw [hbytes, funext hset]

/-- Settles O46: the place that the table gives an entry, and the place that holds one. -/
theorem authorisationTable : Obligations.AuthorisationTable := by
  intro tag p outlet s same houtlet free hsame
  have hfind : findPlace s.account.places (field p 1 4) outlet = s.account.places.findIdx? same :=
    findPlace_eq hsame _
  refine ⟨fun e hp hrange he => ?_, fun hp => ?_⟩
  · have hentry : readAuthEntry p outlet = e := he.symm
    have hplace : placeFor s.account.places (readAuthEntry p outlet)
        = (s.account.places.findIdx? same).orElse fun _ => emptyPlace s.account.places :=
      congrArg (fun x => Option.orElse x fun _ => emptyPlace s.account.places) hfind
    refine ⟨fun n hn hw hpass hcases => ?_, fun hany hfull => ?_⟩
    · have htaken : placeFor s.account.places (readAuthEntry p outlet) = some n := by
        rw [hplace]
        rcases hcases with ⟨here, before⟩ | ⟨hany, here, before⟩
        · rw [findIdx?_of_any here before]; rfl
        · rw [findIdx?_of_not_any hany]
          refine findIdx?_of_first here rfl fun k y hk hy => ?_
          cases y with
          | none => exact absurd hy (before k hk)
          | some _ => rfl
      have judged : judgeAuthorise p s = accept { s.setPlace n (some e) with passDue := true }.settle
          (unsigned 1 (n + 1)) := by
        refine (ofLength_of_eq _ _ hp).trans ?_
        rw [houtlet, hrange]
        dsimp only
        rw [htaken, hentry]
      have hnone : State.noneWaits { s.setPlace n (some e) with passDue := true } := hw
      rw [State.settle_of_noneWaits hnone] at judged
      refine (State.request_next free judged).trans ?_
      rw [← hpass]
      rfl
    · have htaken : placeFor s.account.places (readAuthEntry p outlet) = none := by
        rw [hplace, findIdx?_of_not_any hany]
        exact List.findIdx?_eq_none_iff.mpr fun x hx => by
          cases x with
          | none => exact absurd hx hfull
          | some _ => rfl
      have judged : judgeAuthorise p s = refuse s .refusedSpace := by
        refine (ofLength_of_eq _ _ hp).trans ?_
        rw [houtlet, hrange]
        dsimp only
        rw [htaken]
      exact State.request_next free judged
  · refine ⟨fun n here before => ?_, fun hany => ?_⟩
    · have judged : judgeRevoke p s = accept (s.setPlace n none) [] := by
        refine (ofLength_of_eq _ _ hp).trans ?_
        rw [houtlet]
        dsimp only
        rw [hfind, findIdx?_of_any here before]
      exact State.request_next free judged
    · have judged : judgeRevoke p s = refuse s .refusedRange := by
        refine (ofLength_of_eq _ _ hp).trans ?_
        rw [houtlet]
        dsimp only
        rw [hfind, findIdx?_of_not_any hany]
      exact State.request_next free judged

/-- Settles O50: the room of the claim, and the claim that is written. -/
theorem setCapChangesTheClaim : Obligations.SetCapChangesTheClaim := by
  intro tag b hi lo o s asked claim hb hasked hclaim free
  have hfield : field [b, hi, lo] 1 2 = asked := (field_two b hi lo).trans hasked.symm
  have judged : judgeSetCap [b, hi, lo] s =
      if (s.berth o).sc.session.isNone then refuse s .refusedState
      else if s.claimRoom o < claim then refuse s .refusedSpace
      else (s.setCap o claim, (if claim = asked then Status.ok else .clamped).byte
        :: unsigned 2 claim ++ signed 4 (s.setCap o claim).remaining) := by
    rw [hclaim, ← hfield]
    exact ofLength_ofOutlet rfl (hb ▸ outletField_number o [hi, lo])
  refine ⟨fun hnone => ?_, fun x hx => ?_⟩
  · exact State.request_next free (judged.trans (if_pos (by rw [hnone]; rfl)))
  · have hheld : (s.berth o).claim = x.claim := by unfold Berth.claim; rw [hx]
    rw [if_neg (by rw [hx]; exact nofun)] at judged
    have hroom : s.claimRoom o = x.claim + max 0 ((s.account.limit : Int) - s.claims) := by
      unfold State.claimRoom; rw [hheld]; rfl
    rw [hroom] at judged
    refine ⟨fun hover => State.request_next free (judged.trans (if_pos hover)),
      fun hfits hw hpass hmode t ht => ?_⟩
    rw [if_neg (not_lt.mpr hfits)] at judged
    have hset : s.setCap o claim = t := by
      have hnone : State.noneWaits { s.onBerth o fun c => c.setClaim claim with
          passDue := s.passDue || decide (claim < (s.berth o).claim) } := fun q => by
        show (((s.onBerth o fun c => c.setClaim claim).berth q).sc.state == .awaitAuth) = false
        by_cases hq : q = o
        · subst hq; rw [State.berth_onBerth_self]; exact hw q
        · rw [State.berth_onBerth_ne _ _ hq]; exact hw q
      refine (State.settle_of_noneWaits hnone).trans ?_
      rw [ht]
      refine Eq.trans ?_ (State.onBerth_congr (f := fun c => c.setClaim claim)
        (State.setClaim_eq hx (hclaim ▸ Nat.min_le_right _ _) hmode))
      show { s.onBerth o fun c => c.setClaim claim with passDue := false } = _
      rw [← hpass]
      rfl
    have hclaims : t.claims + x.claim = s.claims + claim := by
      have h := State.claims_replace (s := s) (t := t) (o := o) fun p hp => by
        rw [ht, State.berth_onBerth_ne _ _ hp]
      rw [hheld] at h
      rw [h, ht, State.berth_onBerth_self]
      rfl
    have hremaining : t.remaining = (s.account.limit : Int) - s.claims + x.claim - claim := by
      have hlimit : t.account = s.account := by rw [ht]; rfl
      unfold State.remaining
      rw [hlimit]
      omega
    refine (State.request_next free judged).trans ?_
    rw [hset, hremaining]
    dsimp only
    split <;> rfl

end Sys2Proof.Proofs
end

