-- ==== Sys2Proof/Proofs/Intervals.lean ====
section
/-! PROOFS. The closing of open intervals in the order of their starts, at a boundary tick and at a time step, and
the requests of the meter (O42, O43, O51). -/

namespace Sys2Proof.Machine

/-! ### Oldest first (R88, R149) -/

/-- The order in which values are taken: the older first, of equal ages that of lower rank. -/
def TakenBefore {α : Type} (age rank : α → Nat) (a b : α) : Prop :=
  age b < age a ∨ (age b = age a ∧ rank a < rank b)

theorem TakenBefore.trans {α : Type} {age rank : α → Nat} {a b c : α} (h : TakenBefore age rank a b)
    (g : TakenBefore age rank b c) : TakenBefore age rank a c := by
  unfold TakenBefore at *; omega

theorem insertByAge_perm {α : Type} (age : α → Nat) (a : α) (l : List α) :
    (insertByAge age a l).Perm (a :: l) := by
  induction l with
  | nil => exact .refl _
  | cons b l ih =>
    unfold insertByAge
    split
    · exact .refl _
    · exact (ih.cons b).trans (.swap a b l)

theorem sortByAge_perm {α : Type} (age : α → Nat) (l : List α) : (sortByAge age l).Perm l := by
  induction l with
  | nil => exact .refl _
  | cons a l ih => exact (insertByAge_perm age a _).trans (ih.cons a)

theorem insertByAge_ordered {α : Type} {age rank : α → Nat} {a : α} {l : List α}
    (hl : l.Pairwise (TakenBefore age rank)) (ha : ∀ b ∈ l, rank a < rank b) :
    (insertByAge age a l).Pairwise (TakenBefore age rank) := by
  induction l with
  | nil => exact List.pairwise_singleton _ _
  | cons b l ih =>
    obtain ⟨hb, hl'⟩ := List.pairwise_cons.mp hl
    unfold insertByAge
    split
    · rename_i hage
      have hab : TakenBefore age rank a b := by
        have := ha b List.mem_cons_self; unfold TakenBefore; omega
      refine List.pairwise_cons.mpr ⟨fun c hc => ?_, hl⟩
      rcases List.mem_cons.mp hc with rfl | hc
      · exact hab
      · exact hab.trans (hb c hc)
    · rename_i hage
      refine List.pairwise_cons.mpr ⟨fun c hc => ?_, ih hl' fun c hc => ha c (List.mem_cons_of_mem _ hc)⟩
      rcases List.mem_cons.mp ((insertByAge_perm age a l).mem_iff.mp hc) with rfl | hc
      · exact .inl (Nat.lt_of_not_le hage)
      · exact hb c hc

theorem sortByAge_ordered {α : Type} {age rank : α → Nat} {l : List α}
    (hl : l.Pairwise fun a b => rank a < rank b) : (sortByAge age l).Pairwise (TakenBefore age rank) := by
  induction l with
  | nil => exact .nil
  | cons a l ih =>
    obtain ⟨ha, hl⟩ := List.pairwise_cons.mp hl
    exact insertByAge_ordered (ih hl) fun b hb => ha b ((sortByAge_perm age l).mem_iff.mp hb)

/-- A value that comes before one of the first k is one of them. -/
theorem mem_take_of_takenBefore {α : Type} {age rank : α → Nat} {l : List α} {k : Nat} {a b : α}
    (hl : l.Pairwise (TakenBefore age rank)) (ha : a ∈ l.take k) (hb : b ∈ l)
    (h : TakenBefore age rank b a) : b ∈ l.take k := by
  rw [← List.take_append_drop k l] at hl hb
  rcases List.mem_append.mp hb with hb | hb
  · exact hb
  · have := (List.pairwise_append.mp hl).2.2 a ha b hb
    unfold TakenBefore at this h
    omega

theorem Outlet.filter_ordered (f : Outlet → Bool) :
    (Outlet.all.filter f).Pairwise fun a b => a.number < b.number :=
  List.Pairwise.filter f (by decide)

/-- How long ago an outlet's open interval began; 0 without one. -/
def State.intervalAge (s : State) (o : Outlet) : Nat :=
  (s.berth o).mt.elim 0 fun m => elapsed s.tb.run m.interval.start.run

theorem State.servingOrder_eq (s : State) : s.servingOrder
    = sortByAge s.intervalAge (Outlet.all.filter fun o => (s.berth o).mt.isSome) := by
  unfold State.servingOrder
  refine congrArg (fun f => sortByAge f _) (funext fun o => ?_)
  unfold State.intervalAge
  cases (s.berth o).mt <;> rfl

theorem State.servingOrder_ordered (s : State) :
    s.servingOrder.Pairwise (TakenBefore s.intervalAge Outlet.number) := by
  rw [State.servingOrder_eq]
  exact sortByAge_ordered (Outlet.filter_ordered _)

theorem State.mem_servingOrder {s : State} {o : Outlet} :
    o ∈ s.servingOrder ↔ (s.berth o).mt.isSome = true := by
  unfold State.servingOrder
  rw [(sortByAge_perm _ _).mem_iff, List.mem_filter]
  exact and_iff_right (by cases o <;> decide)

theorem State.servingOrder_nodup (s : State) : s.servingOrder.Nodup :=
  (sortByAge_perm _ _).nodup_iff.mpr (List.Nodup.filter _ (by decide))

theorem State.servingOrder_length (s : State) : s.servingOrder.length = s.openSessions := by
  unfold State.servingOrder
  rw [(sortByAge_perm _ _).length_eq, State.openSessions_eq]
  unfold Outlet.all
  cases h1 : (s.berth .o1).mt.isSome <;> cases h2 : (s.berth .o2).mt.isSome <;>
    cases h3 : (s.berth .o3).mt.isSome <;> cases h4 : (s.berth .o4).mt.isSome <;>
    simp [h1, h2, h3, h4]

/-! ### Serving the open intervals -/

/-- An open interval closes with an entry to spare, and is left open otherwise. -/
def State.serve (reason : ClosingReason) (leave : Meter → Meter) (s : State) (o : Outlet) : State :=
  if 1 ≤ s.spare then s.closeInterval o reason else s.onMt o leave

theorem Metered.serve (reason : ClosingReason) (leave : Meter → Meter) (s : State) (o : Outlet) :
    Metered s (s.serve reason leave o) := by
  unfold State.serve
  split
  · exact s.closeInterval_metered o _
  · exact .onMt s o _

/-- What serving the open intervals of a list in its order comes to, `rs` the records stored. -/
structure Served (reason : ClosingReason) (leave : Meter → Meter) (l : List Outlet) (s t : State)
    (rs : List BillingRecord) : Prop where
  metering : t.metering = { s.metering with
    queue := s.metering.queue ++ rs, sequence := s.metering.sequence + rs.length
    lowArmed := t.metering.lowArmed }
  count : rs.length = min l.length s.spare.toNat
  sequences : rs.map BillingRecord.sequence = (List.range rs.length).map (s.metering.sequence + ·)
  outlets : rs.map BillingRecord.outlet = l.take rs.length
  stored : ∀ o m, (s.berth o).mt = some m → o ∈ l.take rs.length →
    (∃ r ∈ rs, ∃ n, r = { s.closingRecord o m reason with sequence := n })
      ∧ (t.berth o).mt = some (s.nextMeter m)
  left : ∀ o m, (s.berth o).mt = some m → o ∈ l → o ∉ l.take rs.length →
    (t.berth o).mt = some (leave m)
  records : ∀ r ∈ rs, r.reason = reason ∧ r.part = none
  others : ∀ o, o ∉ l → t.berth o = s.berth o
  full : s.spare < 1 → t.metering = s.metering ∧ t.fe = s.fe

/-- What a record and the next meter of a close rest on, beside the sequence counter. -/
theorem State.closingRecord_congr {s t : State} (tb : t.tb = s.tb)
    (rounding : t.metering.rounding = s.metering.rounding)
    (length : t.metering.length = s.metering.length) (o : Outlet) (m : Meter) (reason : ClosingReason) :
    t.closingRecord o m reason
      = { s.closingRecord o m reason with sequence := t.metering.sequence } := by
  unfold State.closingRecord State.intervalRecord
  rw [tb, rounding, length]

theorem State.nextMeter_congr {s t : State} (tb : t.tb = s.tb)
    (rounding : t.metering.rounding = s.metering.rounding)
    (bands : t.metering.bands = s.metering.bands) (m : Meter) : t.nextMeter m = s.nextMeter m := by
  unfold State.nextMeter State.newInterval State.bandNow State.now
  rw [tb, rounding, bands]

theorem State.store_metering (s : State) (r : BillingRecord) : (s.store r).metering = { s.metering with
    queue := s.metering.queue ++ [r], sequence := s.metering.sequence + 1
    lowArmed := (s.store r).metering.lowArmed } := by
  unfold State.store; dsimp only; split <;> rfl

theorem State.closeInterval_metering {s : State} {o : Outlet} {m : Meter} (h : (s.berth o).mt = some m)
    (reason : ClosingReason) : (s.closeInterval o reason).metering = { s.metering with
      queue := s.metering.queue ++ [s.closingRecord o m reason]
      sequence := s.metering.sequence + 1
      lowArmed := (s.closeInterval o reason).metering.lowArmed } := by
  rw [State.closeInterval_of_some h]
  exact s.store_metering _

theorem State.closeInterval_berth_self {s : State} {o : Outlet} {m : Meter}
    (h : (s.berth o).mt = some m) {reason : ClosingReason} (hr : reason ≠ .sessionEnd) :
    (s.closeInterval o reason).berth o = { s.berth o with mt := some (s.nextMeter m) } := by
  rw [State.closeInterval_of_some h, State.berth_onBerth_self, State.berth_store, if_neg hr]

theorem State.closeInterval_berth_ne {s : State} {o p : Outlet} (h : p ≠ o) (reason : ClosingReason) :
    (s.closeInterval o reason).berth p = s.berth p := by
  cases hm : (s.berth o).mt with
  | none => rw [State.closeInterval_of_none hm]
  | some m => rw [State.closeInterval_of_some hm, State.berth_onBerth_ne _ _ h, State.berth_store]

/-- An interval that closes while its session goes on takes one entry to spare. -/
theorem State.closeInterval_spare {s : State} {o : Outlet} {m : Meter} (h : (s.berth o).mt = some m)
    {reason : ClosingReason} (hr : reason ≠ .sessionEnd) (hs : 1 ≤ s.spare) :
    (s.closeInterval o reason).spare = s.spare - 1 := by
  have hopen : (s.closeInterval o reason).openSessions = s.openSessions :=
    State.openSessions_congr fun p => by
      by_cases hp : p = o
      · subst hp; rw [State.closeInterval_berth_self h hr, h]; rfl
      · rw [State.closeInterval_berth_ne hp]
  have hqueue : (s.closeInterval o reason).metering.queue.length = s.metering.queue.length + 1 := by
    rw [State.closeInterval_metering h, List.length_append, List.length_singleton]
  have := s.spare_eq hs
  unfold State.spare State.freeEntries
  rw [hopen, hqueue]
  omega

theorem State.onMt_spare (s : State) (o : Outlet) (f : Meter → Meter) :
    (s.onMt o f).spare = s.spare := by
  have hopen : (s.onMt o f).openSessions = s.openSessions := State.openSessions_congr fun p => by
    by_cases hp : p = o
    · subst hp; rw [State.berth_onMt_self]; simp
    · rw [State.berth_onMt_ne _ _ hp]
  unfold State.spare State.freeEntries
  rw [hopen, State.onMt_metering]

theorem Served.cons_stored {reason : ClosingReason} {leave : Meter → Meter} {o : Outlet}
    {l : List Outlet} {s t : State} {m : Meter} {rs : List BillingRecord} (hr : reason ≠ .sessionEnd)
    (ho : o ∉ l) (hm : (s.berth o).mt = some m) (hs : 1 ≤ s.spare)
    (h : Served reason leave l (s.closeInterval o reason) t rs) :
    Served reason leave (o :: l) s t (s.closingRecord o m reason :: rs) := by
  have hmeter := State.closeInterval_metering hm reason
  have hspare := State.closeInterval_spare hm hr hs
  have htb : (s.closeInterval o reason).tb = s.tb := (s.closeInterval_metered o reason).tb
  have hround : (s.closeInterval o reason).metering.rounding = s.metering.rounding := by rw [hmeter]
  have hlen : (s.closeInterval o reason).metering.length = s.metering.length := by rw [hmeter]
  have hbands : (s.closeInterval o reason).metering.bands = s.metering.bands := by rw [hmeter]
  have hseq : (s.closeInterval o reason).metering.sequence = s.metering.sequence + 1 := by rw [hmeter]
  have hmt : ∀ p, p ≠ o → ((s.closeInterval o reason).berth p).mt = (s.berth p).mt :=
    fun p hp => by rw [State.closeInterval_berth_ne hp]
  refine ⟨?_, ?_, ?_, ?_, fun p n hp hin => ?_, fun p n hp hin hout => ?_, fun r hin => ?_,
    fun p hp => ?_, fun hfull => absurd hs (by omega)⟩
  · rw [h.metering, hmeter]
    simp only [List.append_assoc, List.singleton_append, List.length_cons, Nat.add_assoc,
      Nat.add_comm 1]
  · rw [List.length_cons, List.length_cons, h.count, hspare]
    omega
  · rw [List.map_cons, h.sequences, hseq, List.length_cons, List.range_succ_eq_map, List.map_cons,
      List.map_map]
    refine congrArg₂ _ rfl (List.map_congr_left fun k _ => ?_)
    show s.metering.sequence + 1 + k = s.metering.sequence + (k + 1)
    omega
  · rw [List.map_cons, h.outlets, List.length_cons, List.take_succ_cons]
    rfl
  · rw [List.length_cons, List.take_succ_cons] at hin
    by_cases hpo : p = o
    · subst hpo
      rw [hm] at hp
      cases hp
      refine ⟨⟨_, List.mem_cons_self, _, rfl⟩, ?_⟩
      rw [h.others p ho, State.closeInterval_berth_self hm hr]
    · obtain ⟨⟨r, hrs, k, hk⟩, hnext⟩ := h.stored p n ((hmt p hpo).trans hp)
        ((List.mem_cons.mp hin).resolve_left hpo)
      refine ⟨⟨r, List.mem_cons_of_mem _ hrs, k, ?_⟩, ?_⟩
      · rw [hk, State.closingRecord_congr htb hround hlen]
      · rw [hnext, State.nextMeter_congr htb hround hbands]
  · rw [List.length_cons, List.take_succ_cons] at hout
    have hpo : p ≠ o := fun e => hout (e ▸ List.mem_cons_self)
    exact h.left p n ((hmt p hpo).trans hp) ((List.mem_cons.mp hin).resolve_left hpo)
      fun hin => hout (List.mem_cons_of_mem _ hin)
  · rcases List.mem_cons.mp hin with rfl | hin
    · exact ⟨rfl, if_neg hr⟩
    · exact h.records r hin
  · rw [h.others p fun hin => hp (List.mem_cons_of_mem _ hin),
      State.closeInterval_berth_ne fun e => hp (List.mem_cons.mpr (.inl e))]

theorem Served.cons_left {reason : ClosingReason} {leave : Meter → Meter} {o : Outlet}
    {l : List Outlet} {s t : State} {m : Meter} {rs : List BillingRecord}
    (ho : o ∉ l) (hm : (s.berth o).mt = some m) (hs : ¬1 ≤ s.spare)
    (h : Served reason leave l (s.onMt o leave) t rs) : Served reason leave (o :: l) s t rs := by
  have hspare := s.onMt_spare o leave
  have hnil : rs = [] := List.length_eq_zero_iff.mp (by rw [h.count, hspare]; omega)
  subst hnil
  have hmt : ∀ p, p ≠ o → ((s.onMt o leave).berth p).mt = (s.berth p).mt :=
    fun p hp => by rw [State.berth_onMt_ne _ _ hp]
  refine ⟨h.metering, ?_, rfl, rfl, fun p n _ hin => absurd hin List.not_mem_nil,
    fun p n hp hin _ => ?_, fun r hin => absurd hin List.not_mem_nil, fun p hp => ?_, fun _ => ?_⟩
  · rw [List.length_nil]; omega
  · by_cases hpo : p = o
    · subst hpo
      rw [hm] at hp
      cases hp
      rw [h.others p ho, State.berth_onMt_self, hm]
      rfl
    · exact h.left p n ((hmt p hpo).trans hp) ((List.mem_cons.mp hin).resolve_left hpo)
        List.not_mem_nil
  · rw [h.others p fun hin => hp (List.mem_cons_of_mem _ hin),
      State.berth_onMt_ne _ _ fun e => hp (List.mem_cons.mpr (.inl e))]
  · exact h.full (by rw [hspare]; omega)

/-- The open intervals of a list are closed in its order, as long as there is an entry to spare. -/
theorem State.foldl_serve {reason : ClosingReason} (hr : reason ≠ .sessionEnd) (leave : Meter → Meter)
    {l : List Outlet} (hl : l.Nodup) {s : State} (hm : ∀ o ∈ l, (s.berth o).mt.isSome = true) :
    ∃ rs, Served reason leave l s (l.foldl (State.serve reason leave) s) rs := by
  induction l generalizing s with
  | nil =>
    exact ⟨[], by simp, by simp, rfl, rfl, fun _ _ _ h => absurd h List.not_mem_nil,
      fun _ _ _ h => absurd h List.not_mem_nil, fun _ h => absurd h List.not_mem_nil, fun _ _ => rfl, fun _ => ⟨rfl, rfl⟩⟩
  | cons o l ih =>
    obtain ⟨ho, hl⟩ := List.nodup_cons.mp hl
    obtain ⟨m, hom⟩ := Option.isSome_iff_exists.mp (hm o List.mem_cons_self)
    have hrest : ∀ p ∈ l, ((s.serve reason leave o).berth p).mt.isSome = true := fun p hp => by
      have hpo : p ≠ o := fun e => ho (e ▸ hp)
      unfold State.serve
      split
      · rw [State.closeInterval_berth_ne hpo]; exact hm p (List.mem_cons_of_mem _ hp)
      · rw [State.berth_onMt_ne _ _ hpo]; exact hm p (List.mem_cons_of_mem _ hp)
    obtain ⟨rs, h⟩ := ih hl hrest
    rw [List.foldl_cons]
    by_cases hs : 1 ≤ s.spare
    · have e : s.serve reason leave o = s.closeInterval o reason := if_pos hs
      rw [e] at h ⊢
      exact ⟨_, h.cons_stored hr ho hom hs⟩
    · have e : s.serve reason leave o = s.onMt o leave := if_neg hs
      rw [e] at h ⊢
      exact ⟨_, h.cons_left ho hom hs⟩

/-! ### What the records and the next intervals show -/

theorem Meter.splitGap_interval (m : Meter) (now : RunCount) :
    (m.splitGap now).interval.start = m.interval.start
      ∧ (m.splitGap now).interval.band = m.interval.band
      ∧ (m.splitGap now).interval.worst = m.interval.worst := by
  unfold Meter.splitGap
  split <;> exact ⟨rfl, rfl, rfl⟩

theorem State.closingRecord_start (s : State) (o : Outlet) (m : Meter) (reason : ClosingReason) :
    (s.closingRecord o m reason).start = m.interval.start := (m.splitGap_interval _).1

theorem State.closingRecord_band (s : State) (o : Outlet) (m : Meter) (reason : ClosingReason) :
    (s.closingRecord o m reason).band = m.interval.band := (m.splitGap_interval _).2.1

theorem State.closingRecord_quality (s : State) (o : Outlet) (m : Meter) (reason : ClosingReason) :
    (s.closingRecord o m reason).quality = m.interval.worst := (m.splitGap_interval _).2.2

theorem State.closingRecord_duration (s : State) (o : Outlet) (m : Meter) (reason : ClosingReason) :
    (s.closingRecord o m reason).duration
      = (elapsed s.tb.run m.interval.start.run + 500000) / 1000000 :=
  congrArg (fun x : TimeStamp => (elapsed s.tb.run x.run + 500000) / 1000000)
    (s.closingRecord_start o m reason)

section
variable {reason : ClosingReason} {leave : Meter → Meter} {l : List Outlet} {s t : State}
  {rs : List BillingRecord}

theorem Served.mem_iff (h : Served reason leave l s t rs) {o : Outlet} :
    (∃ r ∈ rs, r.outlet = o) ↔ o ∈ l.take rs.length := by
  rw [← h.outlets, List.mem_map]

/-- The record of an outlet served. -/
theorem Served.record (h : Served reason leave l s t rs) {o : Outlet} {m : Meter}
    (hm : (s.berth o).mt = some m) (ho : o ∈ l.take rs.length) :
    ∃ r ∈ rs, r.outlet = o ∧ r.session = m.session ∧ r.start = m.interval.start
      ∧ r.duration = (elapsed s.tb.run m.interval.start.run + 500000) / 1000000
      ∧ r.band = m.interval.band ∧ r.quality = m.interval.worst := by
  obtain ⟨⟨r, hr, n, rfl⟩, -⟩ := h.stored o m hm ho
  exact ⟨_, hr, rfl, s.closingRecord_session o m reason, s.closingRecord_start o m reason,
    s.closingRecord_duration o m reason, s.closingRecord_band o m reason,
    s.closingRecord_quality o m reason⟩

/-- The interval of earlier start is served first, of equal ones that of the lower outlet. -/
theorem Served.first (h : Served reason leave l s t rs)
    (order : l.Pairwise (TakenBefore s.intervalAge Outlet.number)) {o q : Outlet} {m n : Meter}
    (hm : (s.berth o).mt = some m) (hn : (s.berth q).mt = some n) (hq : q ∈ l)
    (before : elapsed s.tb.run m.interval.start.run < elapsed s.tb.run n.interval.start.run
      ∨ (elapsed s.tb.run m.interval.start.run = elapsed s.tb.run n.interval.start.run
        ∧ q.number < o.number))
    (ho : ∃ r ∈ rs, r.outlet = o) : ∃ r ∈ rs, r.outlet = q := by
  rw [h.mem_iff] at ho ⊢
  refine mem_take_of_takenBefore order ho hq ?_
  unfold TakenBefore State.intervalAge
  rw [hm, hn]
  exact before

theorem Served.outlets_nodup (h : Served reason leave l s t rs) (hl : l.Nodup) :
    (rs.map BillingRecord.outlet).Nodup := by
  rw [h.outlets]
  exact hl.sublist (List.take_sublist _ _)

end

/-- The band in force does not change while intervals are served. -/
theorem State.serve_bandNow (reason : ClosingReason) (leave : Meter → Meter) (s : State) (o : Outlet) :
    (s.serve reason leave o).bandNow = s.bandNow := by
  have hbands : (s.serve reason leave o).metering.bands = s.metering.bands := by
    unfold State.serve
    split
    · cases hm : (s.berth o).mt with
      | none => rw [State.closeInterval_of_none hm]
      | some m => rw [State.closeInterval_metering hm]
    · rfl
  unfold State.bandNow
  rw [(Metered.serve reason leave s o).tb, hbands]

theorem State.foldl_serve_band {reason : ClosingReason} (leave : Nat → Meter → Meter)
    {f : State → Outlet → State} (hf : ∀ u o, f u o = u.serve reason (leave u.bandNow) o)
    (l : List Outlet) {s u : State} (h : u.bandNow = s.bandNow) :
    l.foldl f u = l.foldl (State.serve reason (leave s.bandNow)) u := by
  induction l generalizing u with
  | nil => rfl
  | cons o l ih =>
    rw [List.foldl_cons, List.foldl_cons, hf, h]
    exact ih ((u.serve_bandNow _ _ o).trans h)

/-- The open intervals at a boundary tick (R149). -/
theorem State.meterTick_served {s : State} (h : s.atBoundary = true) : ∃ rs,
    Served .boundary (fun m => { m with interval := m.interval.extend s.bandNow }) s.servingOrder s
      s.meterTick rs := by
  have e : s.meterTick = s.servingOrder.foldl (State.serve .boundary
      fun m => { m with interval := m.interval.extend s.bandNow }) s :=
    (if_pos h).trans (State.foldl_serve_band
      (fun band m => { m with interval := m.interval.extend band }) (fun _ _ => rfl) _ rfl)
  rw [e]
  exact State.foldl_serve (by decide) _ s.servingOrder_nodup fun o ho => State.mem_servingOrder.mp ho

/-- The open intervals at a time step (R150). -/
theorem State.meterTimeStep_served (s : State) : ∃ rs,
    Served .timeSet (fun m => { m with interval := m.interval.timeStep s.bandNow }) s.servingOrder s
      s.meterTimeStep rs := by
  have e : s.meterTimeStep = s.servingOrder.foldl (State.serve .timeSet
      fun m => { m with interval := m.interval.timeStep s.bandNow }) s :=
    State.foldl_serve_band (fun band m => { m with interval := m.interval.timeStep band })
      (fun _ _ => rfl) _ rfl
  rw [e]
  exact State.foldl_serve (by decide) _ s.servingOrder_nodup fun o ho => State.mem_servingOrder.mp ho

theorem Interval.judgeBand_eq (i : Interval) (band : Nat) : i.judgeBand band = { i with
    flags := { i.flags with bandMixed := i.flags.bandMixed || decide (band ≠ i.band) } } := by
  unfold Interval.judgeBand
  by_cases h : band = i.band
  · rw [if_neg (not_not.mpr h), decide_eq_false (not_not.mpr h), Bool.or_false]
  · rw [if_pos h, decide_eq_true h, Bool.or_true]

end Sys2Proof.Machine
end

