-- ==== Sys2Proof/Proofs/Boundaries.lean ====
section
/-! PROOFS. Band tables, boundaries, time steps and the requests of the meter (O42, O43, O51). -/

namespace Sys2Proof.Machine

/-! ### Band tables (R144) -/

theorem insertBand_perm (e : BandEntry) (l : List BandEntry) : (insertBand e l).Perm (e :: l) := by
  induction l with
  | nil => exact .refl _
  | cons f l ih =>
    unfold insertBand
    split
    · exact .refl _
    · exact (ih.cons f).trans (.swap e f l)

theorem sortBands_perm (l : List BandEntry) : (sortBands l).Perm l := by
  induction l with
  | nil => exact .refl _
  | cons e l ih => exact (insertBand_perm e _).trans (ih.cons e)

theorem insertBand_sorted {e : BandEntry} {l : List BandEntry}
    (h : l.Pairwise fun a b => a.minute ≤ b.minute) :
    (insertBand e l).Pairwise fun a b => a.minute ≤ b.minute := by
  induction l with
  | nil => exact List.pairwise_singleton _ _
  | cons f l ih =>
    obtain ⟨hf, hl⟩ := List.pairwise_cons.mp h
    unfold insertBand
    split
    · rename_i hef
      refine List.pairwise_cons.mpr ⟨fun c hc => ?_, h⟩
      rcases List.mem_cons.mp hc with rfl | hc
      · exact hef
      · exact hef.trans (hf c hc)
    · rename_i hef
      refine List.pairwise_cons.mpr ⟨fun c hc => ?_, ih hl⟩
      rcases List.mem_cons.mp ((insertBand_perm e l).mem_iff.mp hc) with rfl | hc
      · exact (Nat.lt_of_not_le hef).le
      · exact hf c hc

theorem sortBands_sorted (l : List BandEntry) :
    (sortBands l).Pairwise fun a b => a.minute ≤ b.minute := by
  induction l with
  | nil => exact .nil
  | cons e l ih => exact insertBand_sorted ih

/-- Of a table in ascending order no two start minutes are equal exactly when neighbours differ. -/
theorem distinctMinutes_iff {l : List BandEntry} (h : l.Pairwise fun a b => a.minute ≤ b.minute) :
    distinctMinutes l = true ↔ l.Pairwise fun a b => a.minute < b.minute := by
  induction l with
  | nil => simp [distinctMinutes]
  | cons a l ih =>
    obtain ⟨ha, hl⟩ := List.pairwise_cons.mp h
    cases l with
    | nil => simp [distinctMinutes]
    | cons b l =>
      rw [distinctMinutes, Bool.and_eq_true, ih hl, List.pairwise_cons (a := a), bne_iff_ne]
      refine and_congr_left fun hsorted => ⟨fun hne c hc => ?_, fun hlt => (hlt b List.mem_cons_self).ne⟩
      have hab := lt_of_le_of_ne (ha b List.mem_cons_self) hne
      rcases List.mem_cons.mp hc with rfl | hc
      · exact hab
      · exact hab.trans ((List.pairwise_cons.mp hsorted).1 c hc)

theorem ascending_iff_nodup {l : List BandEntry} (h : l.Pairwise fun a b => a.minute ≤ b.minute) :
    (l.Pairwise fun a b => a.minute < b.minute) ↔ (l.map BandEntry.minute).Nodup := by
  rw [List.Nodup, List.pairwise_map]
  exact ⟨fun g => g.imp fun hab => hab.ne, fun g => (h.and g).imp fun hab => lt_of_le_of_ne hab.1 hab.2⟩

theorem bandsInRange_iff (length count : Nat) (l : List BandEntry) :
    bandsInRange length count l = true ↔
      count ≤ 8 ∧ (∀ e ∈ l, e.minute ≤ 1439 ∧ e.minute % length = 0 ∧ e.band ≤ 7)
        ∧ (l.map BandEntry.minute).Nodup := by
  unfold bandsInRange
  rw [Bool.and_eq_true, Bool.and_eq_true, decide_eq_true_eq, List.all_eq_true,
    distinctMinutes_iff (sortBands_sorted l), ascending_iff_nodup (sortBands_sorted l),
    ((sortBands_perm l).map BandEntry.minute).nodup_iff, and_assoc]
  simp only [Bool.and_eq_true, decide_eq_true_eq, beq_iff_eq, and_assoc]

/-- The last entry of an ascending table is its greatest. -/
theorem getLast?_of_greatest {l : List BandEntry} (h : l.Pairwise fun a b => a.minute < b.minute)
    {e : BandEntry} (he : e ∈ l) (greatest : ∀ f ∈ l, f.minute ≤ e.minute) : l.getLast? = some e := by
  obtain ⟨init, last, rfl⟩ := List.eq_nil_or_concat l |>.resolve_left (List.ne_nil_of_mem he)
  rw [List.concat_eq_append] at *
  rw [List.getLast?_append, List.getLast?_singleton]
  rcases List.mem_append.mp he with hi | hl
  · have := (List.pairwise_append.mp h).2.2 e hi last List.mem_cons_self
    have := greatest last (by simp)
    omega
  · rw [List.mem_singleton.mp hl]; rfl

theorem bandAt_of_last {l : List BandEntry} {minute : Nat} {e : BandEntry}
    (h : lastStarted minute l = some e) : bandAt l minute = e.band := by unfold bandAt; rw [h]

theorem bandAt_of_none {l : List BandEntry} {minute : Nat} {e : BandEntry}
    (h : lastStarted minute l = none) (hl : l.getLast? = some e) : bandAt l minute = e.band := by
  unfold bandAt; rw [h, hl]

/-! ### SET_TIME (R7, R150) -/

/-- The state with the time set, before MT takes its notice. -/
def State.withSeconds (s : State) (seconds : BitVec 32) : State :=
  { s with tb := { s.tb with seconds, timeUnset := false } }

theorem State.setSeconds_eq (s : State) (seconds : BitVec 32) :
    s.setSeconds seconds = (s.withSeconds seconds).meterTimeStep.noteQuality := rfl

theorem State.onMt_of_none {s : State} {o : Outlet} (h : (s.berth o).mt = none) (f : Meter → Meter) :
    s.onMt o f = s := by
  refine State.onBerth_unchanged ?_
  rw [h]
  show { s.berth o with mt := none } = _
  rw [← h]

/-- With no session open MT notes neither a time step nor a clock quality. -/
theorem State.setSeconds_of_no_session {s : State} (h : s.openSessions = 0) (seconds : BitVec 32) :
    s.setSeconds seconds = s.withSeconds seconds := by
  have hmt : ∀ o, ((s.withSeconds seconds).berth o).mt = none := State.no_meter h
  have hstep : (s.withSeconds seconds).meterTimeStep = s.withSeconds seconds := by
    have : (s.withSeconds seconds).servingOrder = [] :=
      List.length_eq_zero_iff.mp ((State.servingOrder_length _).trans h)
    unfold State.meterTimeStep
    rw [this]
    rfl
  rw [State.setSeconds_eq, hstep]
  unfold State.noteQuality Outlet.all
  simp only [List.foldl_cons, List.foldl_nil, State.onMt_of_none (hmt _)]

theorem ClockQuality.worse_self (q : ClockQuality) : q.worse q = q := if_neg (Nat.lt_irrefl _)

theorem State.noteQuality_metering (s : State) : s.noteQuality.metering = s.metering := by
  obtain ⟨bs, e⟩ := s.noteQuality_rest
  rw [e]

theorem State.noteQuality_mt (s : State) (o : Outlet) : (s.noteQuality.berth o).mt
    = (s.berth o).mt.map fun m => { m with interval := m.interval.see s.tb.quality } := by
  rw [State.noteQuality_berth]

/-- A lowered limit raises OVER_BUDGET; with no outlet waiting nothing else follows (R85). -/
theorem State.setLimit_of_noneWaits {s : State} (hw : s.noneWaits) (hpass : s.passDue = false)
    (limit : Nat) : s.setLimit limit
      = if limit < s.claims then
          State.raise { s with account := { s.account with limit } } .overBudget .station
        else { s with account := { s.account with limit } } := by
  unfold State.setLimit
  dsimp only
  by_cases h : limit < s.claims
  · rw [if_pos h, if_pos h]
    refine (State.settle_of_noneWaits (by exact hw)).trans ?_
    show State.raise { s with account := { s.account with limit }, passDue := false } _ _ = _
    rw [← hpass]
  · rw [if_neg h, if_neg h]
    refine (State.settle_of_noneWaits (by exact hw)).trans ?_
    rw [← hpass]

/-! ### The requests of the meter -/

theorem State.nextMeter_energy (s : State) (m : Meter) :
    (s.nextMeter m).imported = m.imported.close s.metering.rounding
      ∧ (s.nextMeter m).exported = m.exported.close s.metering.rounding := by
  unfold State.nextMeter Meter.splitGap
  split <;> exact ⟨rfl, rfl⟩

theorem State.closingRecord_energy (s : State) (o : Outlet) (m : Meter) (reason : ClosingReason) :
    (s.closingRecord o m reason).importWh = m.imported.wattHours s.metering.rounding
      ∧ (s.closingRecord o m reason).exportWh = m.exported.wattHours s.metering.rounding := by
  unfold State.closingRecord Meter.splitGap
  split <;> exact ⟨rfl, rfl⟩

theorem State.closingRecord_plan_hull (s : State) (o : Outlet) (m : Meter) (reason : ClosingReason) :
    (s.closingRecord o m reason).plan = m.plan ∧ (s.closingRecord o m reason).hull = m.hull := by
  unfold State.closingRecord Meter.splitGap
  split <;> exact ⟨rfl, rfl⟩

theorem State.closingRecord_gap (s : State) (o : Outlet) {m : Meter} (h : m.gapFrom = none)
    (reason : ClosingReason) :
    (s.closingRecord o m reason).gapSeconds = m.interval.gapMillis / 1000 := by
  unfold State.closingRecord Meter.splitGap
  rw [h]
  rfl

/-- The rounding step carries what it does not bill (R147). -/
theorem Energy.wattHours_close (e : Energy) (mode : Rounding) :
    (e.wattHours mode : Int) * 3600000000 + (e.close mode).residual = e.accumulator + e.residual := by
  simp only [Energy.close, microjoulesPerWh]
  push_cast
  ring

end Sys2Proof.Machine

namespace Sys2Proof.Proofs

open Machine

/-- Settles O43: the intervals served at the tick, and the band tables. -/
theorem boundariesAndBands : Obligations.BoundariesAndBands := by
  refine ⟨fun s t ht hb => ?_, fun l minute hl => ⟨fun hn => ?_, fun e he hle hmax => ?_,
    fun e he hafter hmax => ?_⟩, bandsInRange_iff⟩
  · have ht : s.ticked.meterTick = t := by cases ht; rfl
    have hm := s.ticked.meterTick_metered
    have hboundary : s.ticked.atBoundary = true := by
      rw [← hm.atBoundary s.ticked.meterTick_length, ht, hb]
    obtain ⟨rs, h⟩ := State.meterTick_served hboundary
    rw [ht] at h hm
    have horder := s.ticked.servingOrder_ordered
    have hband : t.bandNow = s.ticked.bandNow := by
      unfold State.bandNow; rw [hm.tb, h.metering]
    have hnow : t.now = s.ticked.now := by unfold State.now; rw [hm.tb]
    have hcount : rs.length = min s.openSessions s.spare.toNat := by
      rw [h.count, State.servingOrder_length]; rfl
    refine ⟨rs, h.metering, hcount, h.sequences, h.outlets_nodup s.ticked.servingOrder_nodup, h.records,
      fun o m ho => ?_, fun o q m n ho hq hbefore => ?_, fun hroom o ho => ?_, h.full⟩
    · have hin : o ∈ s.ticked.servingOrder :=
        State.mem_servingOrder.mpr (Option.isSome_iff_exists.mpr ⟨m, ho⟩)
      by_cases htaken : o ∈ s.ticked.servingOrder.take rs.length
      · obtain ⟨r, hr, ho', hsession, hstart, hdur, hbd, hq⟩ := h.record ho htaken
        refine .inl ⟨r, hr, ho', hsession, hstart, hdur, hbd, hq, _, (h.stored o m ho htaken).2, ?_⟩
        rw [hnow, hband, hm.tb]
        rfl
      · refine .inr ⟨fun r hr he => htaken (h.mem_iff.mp ⟨r, hr, he⟩), ?_⟩
        rw [h.left o m ho hin htaken, hband]
        unfold Interval.extend
        rw [Interval.judgeBand_eq]
    · exact h.first horder ho hq
        (State.mem_servingOrder.mpr (Option.isSome_iff_exists.mpr ⟨n, hq⟩)) hbefore
    · rw [h.mem_iff, List.take_of_length_le (by rw [State.servingOrder_length, hcount]; show s.openSessions ≤ _; omega)]
      exact State.mem_servingOrder.mpr ho
  · rw [hn]; rfl
  · refine bandAt_of_last (getLast?_of_greatest (hl.filter _) (List.mem_filter.mpr ⟨he, ?_⟩) fun f hf => ?_)
    · exact decide_eq_true hle
    · obtain ⟨hf, hfle⟩ := List.mem_filter.mp hf
      exact hmax f hf (of_decide_eq_true hfle)
  · refine bandAt_of_none ?_ (getLast?_of_greatest hl he hmax)
    unfold lastStarted
    rw [List.filter_eq_nil_iff.mpr fun f hf => by simpa using hafter f hf]
    rfl

/-- Settles O42: each request by what its judgement comes to. -/
theorem stationWrites : Obligations.StationWrites := by
  intro tag p s free
  refine ⟨fun hp hno t ht => ?_, fun hp u hu => ?_, fun hp hle hw hpass u t hu ht => ?_,
    fun hp hover => ?_, fun hp => ⟨fun hrange => ⟨fun hno => ?_, fun hopen => ?_⟩, fun hbad => ?_⟩,
    fun hp => ?_⟩
  · have judged : judgeSetTime p s = accept t (timeBytes t.now) := by
      rw [ht]
      refine (ofLength_of_eq _ _ hp).trans ?_
      rw [State.setSeconds_of_no_session hno]
      rfl
    exact State.request_next free judged
  · have hu : s.withSeconds (BitVec.ofNat 32 (field p 0 4)) = u := hu.symm
    obtain ⟨rs, h⟩ := u.meterTimeStep_served
    have hstep := u.meterTimeStep_metered
    have hm : Metered u u.meterTimeStep.noteQuality := hstep.trans (State.noteQuality_metered _)
    have judged : judgeSetTime p s = accept u.meterTimeStep.noteQuality
        (timeBytes u.meterTimeStep.noteQuality.now) := by
      rw [← hu]
      exact ofLength_of_eq _ _ hp
    have hberth : ∀ o, u.berth o = s.berth o := fun o => by rw [← hu]; rfl
    have hrun : u.tb.run = s.tb.run := by rw [← hu]; rfl
    have hmetering : u.metering = s.metering := by rw [← hu]; rfl
    have hopen : u.openSessions = s.openSessions := by rw [← hu]; rfl
    have hspare : u.spare = s.spare := by rw [← hu]; rfl
    have hfe : u.fe = s.fe := by rw [← hu]; rfl
    have hunset : u.tb.timeUnset = false := by rw [← hu]; rfl
    refine ⟨u.meterTimeStep.noteQuality, rs, State.request_next free judged, hm.rest, ?_, fun o => ?_, ?_, ?_, ?_,
      h.outlets_nodup u.servingOrder_nodup, h.records, fun o m ho => ?_, fun o q m n ho hq hbefore => ?_⟩
    · exact ⟨hm.noFault.flags.trans (congrArg _ hfe), hm.noFault.sinceClear.trans (congrArg _ hfe),
        hm.noFault.capture.trans (congrArg _ hfe)⟩
    · rw [← hberth o]; exact hm.berth o
    · rw [State.noteQuality_metering, ← hmetering]; exact h.metering
    · rw [h.count, State.servingOrder_length, hopen, hspare]
    · rw [← hmetering]; exact h.sequences
    · rw [← hberth o] at ho
      have hin : o ∈ u.servingOrder :=
        State.mem_servingOrder.mpr (Option.isSome_iff_exists.mpr ⟨m, ho⟩)
      rw [← hrun]
      by_cases htaken : o ∈ u.servingOrder.take rs.length
      · obtain ⟨r, hr, ho', hsession, hstart, hdur, hbd, hq⟩ := h.record ho htaken
        refine .inl ⟨r, hr, ho', hsession, hstart, hdur, hbd, hq,
          { u.nextMeter m with
            interval := (u.newInterval false).see u.meterTimeStep.tb.quality }, ?_, ?_⟩
        · rw [State.noteQuality_mt, (h.stored o m ho htaken).2]; rfl
        · rw [hstep.tb]
          show (u.newInterval false).see u.tb.quality = _
          unfold Interval.see State.newInterval
          rw [ClockQuality.worse_self, hunset]
      · refine .inr ⟨fun r hr he => htaken (h.mem_iff.mp ⟨r, hr, he⟩), ?_⟩
        rw [State.noteQuality_mt, h.left o m ho hin htaken, hstep.tb, Option.map_some]
        unfold Interval.timeStep Interval.see
        rw [Interval.judgeBand_eq]
    · rw [← hberth o] at ho
      rw [← hberth q] at hq
      rw [← hrun] at hbefore
      exact h.first u.servingOrder_ordered ho hq
        (State.mem_servingOrder.mpr (Option.isSome_iff_exists.mpr ⟨n, hq⟩)) hbefore
  · have judged : judgeSetImportLimit p s = accept t (budgetResults t) := by
      have : s.setLimit (field p 0 2) = t := by
        rw [State.setLimit_of_noneWaits hw hpass, ht, hu]
      refine (ofLength_of_eq _ _ hp).trans ((if_neg (Nat.not_lt.mpr hle)).trans ?_)
      rw [this]
    exact State.request_next free judged
  · have judged : judgeSetImportLimit p s = refuse s .refusedRange :=
      (ofLength_of_eq _ _ hp).trans (if_pos hover)
    exact State.request_next free judged
  · have judged : judgeSetBands p s = accept { s with metering := { s.metering with
        bands := sortBands (readBands (field p 0 1) p) } } [] :=
      (ofLength_of_eq _ _ hp).trans ((if_neg (by rw [hrange]; decide)).trans
        (if_neg (by omega)))
    refine ⟨_, State.request_next free judged, sortBands_perm _, ?_⟩
    rw [ascending_iff_nodup (sortBands_sorted _), ((sortBands_perm _).map _).nodup_iff]
    exact ((bandsInRange_iff _ _ _).mp hrange).2.2
  · have judged : judgeSetBands p s = refuse s .refusedState :=
      (ofLength_of_eq _ _ hp).trans ((if_neg (by rw [hrange]; decide)).trans (if_pos hopen))
    exact State.request_next free judged
  · have judged : judgeSetBands p s = refuse s .refusedRange :=
      (ofLength_of_eq _ _ hp).trans (if_pos (by rw [hbad]; rfl))
    exact State.request_next free judged
  · have judged : judgeRestart p s = accept s [] := ofLength_of_eq _ _ (hp ▸ rfl)
    exact State.request_next free judged

/-- Settles O51: the flush by the close of the interval, the release by the records it keeps, and the rounding
step by its arithmetic. -/
theorem flushReleaseAndRounding : Obligations.FlushReleaseAndRounding := by
  refine ⟨⟨fun tag b o s hb free => ?_, fun tag p s n hp hn free => ?_⟩, fun e mode hfits => ?_⟩
  · have judged : judgeFlushInterval [b] s = if (s.berth o).mt.isNone then refuse s .refusedState
        else if s.spare < 1 then refuse s .refusedSpace
        else accept (s.closeInterval o .flush) (unsigned 4 s.metering.sequence) :=
      ofLength_ofOutlet rfl (hb ▸ outletField_number o [])
    refine ⟨fun hnone => ?_, fun m hm => ?_⟩
    · exact State.request_next free (judged.trans (if_pos (by rw [hnone]; rfl)))
    · rw [if_neg (by rw [hm]; exact nofun)] at judged
      refine ⟨fun hfull => State.request_next free (judged.trans (if_pos hfull)), fun hroom => ?_⟩
      rw [if_neg (by omega)] at judged
      obtain ⟨himp, hexp⟩ := s.nextMeter_energy m
      obtain ⟨himpWh, hexpWh⟩ := s.closingRecord_energy o m .flush
      obtain ⟨hplan, hhull⟩ := s.closingRecord_plan_hull o m .flush
      have hmetered := s.closeInterval_metered o .flush
      refine ⟨_, s.closingRecord o m .flush, s.nextMeter m, State.request_next free judged,
        hmetered.rest, s.closeInterval_metering hm _, fun p hp => s.closeInterval_berth_ne hp _,
        s.closeInterval_berth_self hm (by decide), hmetered.noFault, rfl, s.closingRecord_session _ _ _,
        rfl, hplan, hhull, s.closingRecord_start _ _ _, s.closingRecord_duration _ _ _,
        s.closingRecord_band _ _ _, s.closingRecord_quality _ _ _, rfl, rfl,
        fun hgap => s.closingRecord_gap o hgap _, ?_, ?_, ?_, ?_, ?_, ?_, rfl, rfl, rfl, rfl⟩
      · rw [himp, himpWh]; rfl
      · rw [hexp, hexpWh]; rfl
      all_goals first | rw [himp]; rfl | rw [hexp]; rfl
  · have judged : judgeReleaseBilling p s = if s.metering.sequence - 1 < n then refuse s .refusedRange
        else accept (State.settle { s with
            metering := s.metering.release n
            passDue := s.passDue || decide (0 < s.metering.released n) })
          (unsigned 1 (s.metering.released n)) := by
      rw [hn]
      exact ofLength_of_eq _ _ hp
    refine ⟨fun hover => State.request_next free (judged.trans (if_pos hover)),
      fun hle hw hpass kept hkept => ?_⟩
    rw [if_neg (Nat.not_lt.mpr hle), State.settle_of_noneWaits (by exact hw)] at judged
    refine ⟨(s.metering.release n).lowArmed, (State.request_next free judged).trans ?_, fun ha => ?_,
      fun hlt => ?_⟩
    · rw [hkept, ← hpass]; rfl
    · show (s.metering.lowArmed || _) = true
      rw [ha, Bool.true_or]
    · rw [hkept] at hlt ⊢
      show (s.metering.lowArmed || (decide _ && decide _)) = true ↔ _
      rw [decide_eq_true hlt, Bool.true_and, Bool.or_eq_true, decide_eq_true_eq]
  · have hclose := Energy.close_fits hfits
    refine ⟨rfl, rfl, rfl, e.wattHours_close mode, fun h => ?_, fun h => ?_⟩
    · subst h; exact hclose
    · subst h; exact hclose

end Sys2Proof.Proofs
end

