-- ==== Sys2Proof/Proofs/StationAndModules.lean ====
section
/-! PROOFS. CONFIGURE_STATION and the requests of the modules (O41, O44). -/

namespace Sys2Proof.Machine

/-! ### The settings of TB (R1, R8, R9) -/

theorem Timebase.writeXoUse_same (t : Timebase) : t.writeXoUse t.xoUse = t := if_pos rfl

theorem Timebase.writePpsUse_same (t : Timebase) : t.writePpsUse t.ppsUse = t := if_pos rfl

/-- The setting of the crystal that results: the one held where none is carried. -/
def StationChange.xoUseOn (c : StationChange) (t : Timebase) : Bool := c.xoUse.elim t.xoUse (· == 1)

def StationChange.ppsUseOn (c : StationChange) (t : Timebase) : Bool := c.ppsUse.elim t.ppsUse (· == 1)

theorem Timebase.writeXoUse_kept (t : Timebase) (on : Bool) : (t.writeXoUse on).run = t.run
    ∧ (t.writeXoUse on).seconds = t.seconds ∧ (t.writeXoUse on).subSecond = t.subSecond
    ∧ (t.writeXoUse on).timeUnset = t.timeUnset ∧ (t.writeXoUse on).lastPulse = t.lastPulse
    ∧ (t.writeXoUse on).offset = t.offset ∧ (t.writeXoUse on).xoUse = on
    ∧ (t.writeXoUse on).ppsUse = t.ppsUse ∧ (t.writeXoUse on).pps = t.pps
    ∧ (t.writeXoUse on).ppsFrom = t.ppsFrom := by
  unfold Timebase.writeXoUse
  dsimp only
  split
  · exact ⟨rfl, rfl, rfl, rfl, rfl, rfl, rfl, rfl, rfl, rfl⟩
  · split
    · split <;> exact ⟨rfl, rfl, rfl, rfl, rfl, rfl, rfl, rfl, rfl, rfl⟩
    · exact ⟨rfl, rfl, rfl, rfl, rfl, rfl, rfl, rfl, rfl, rfl⟩

/-- What TB does at a change of the crystal's use (R1). -/
theorem Timebase.writeXoUse_off {t : Timebase} (h : t.xoUse = true) :
    (t.writeXoUse false).state = .irc ∧ (t.writeXoUse false).retryFrom = none
      ∧ (t.writeXoUse false).passes = 0 := by
  unfold Timebase.writeXoUse
  rw [if_neg (by rw [h]; decide), if_neg (by decide)]
  exact ⟨rfl, rfl, rfl⟩

theorem Timebase.writeXoUse_on {t : Timebase} (h : t.xoUse = false) (hs : t.state = .irc) :
    (t.writeXoUse true).state = .qualifying ∧ (t.writeXoUse true).firstAttempt = true
      ∧ (t.writeXoUse true).windows = 0 ∧ (t.writeXoUse true).passes = 0
      ∧ (t.writeXoUse true).windowFrom = t.run := by
  unfold Timebase.writeXoUse
  rw [if_neg (by rw [h]; decide), if_pos rfl, if_pos hs]
  exact ⟨rfl, rfl, rfl, rfl, rfl⟩

/-- PPS use touches the PPS alone (R9). -/
theorem Timebase.writePpsUse_eq (t : Timebase) (on : Bool) : t.writePpsUse on = { t with
    ppsUse := on
    pps := if on = t.ppsUse then t.pps else if on then .waiting else .off
    ppsFrom := if on = t.ppsUse then t.ppsFrom else if on then some t.run else none } := by
  unfold Timebase.writePpsUse
  dsimp only
  by_cases h : on = t.ppsUse
  · rw [if_pos h, if_pos h, if_pos h]
  · rw [if_neg h, if_neg h, if_neg h]
    split <;> rfl

theorem StationChange.writeTime_eq (c : StationChange) (t : Timebase) : c.writeTime t =
    { (t.writeXoUse (c.xoUseOn t)).writePpsUse (c.ppsUseOn t) with
      offset := c.offset.getD t.offset } := by
  unfold StationChange.writeTime StationChange.xoUseOn StationChange.ppsUseOn
  cases c.xoUse with
  | none =>
    cases c.ppsUse with
    | none =>
      dsimp only [Option.elim]
      rw [Timebase.writeXoUse_same, Timebase.writePpsUse_same]
    | some n =>
      dsimp only [Option.elim]
      rw [Timebase.writeXoUse_same, Timebase.writePpsUse_eq]
  | some k =>
    obtain ⟨-, -, -, -, -, hoffset, -, hpps, -, -⟩ := t.writeXoUse_kept (k == 1)
    cases c.ppsUse with
    | none =>
      dsimp only [Option.elim]
      rw [← hpps, Timebase.writePpsUse_same, hoffset]
    | some n =>
      dsimp only [Option.elim]
      rw [Timebase.writePpsUse_eq]
      dsimp only
      rw [hoffset]

/-- What CONFIGURE_STATION leaves of TB, and what it writes (R1, R8, R9). -/
theorem StationChange.writeTime_kept (c : StationChange) (t : Timebase) :
    (c.writeTime t).run = t.run ∧ (c.writeTime t).seconds = t.seconds
      ∧ (c.writeTime t).subSecond = t.subSecond ∧ (c.writeTime t).timeUnset = t.timeUnset
      ∧ (c.writeTime t).lastPulse = t.lastPulse ∧ (c.writeTime t).offset = c.offset.getD t.offset
      ∧ (c.writeTime t).xoUse = c.xoUseOn t ∧ (c.writeTime t).ppsUse = c.ppsUseOn t := by
  obtain ⟨hrun, hseconds, hsub, hunset, hpulse, -, hxo, -, -, -⟩ := t.writeXoUse_kept (c.xoUseOn t)
  rw [c.writeTime_eq, Timebase.writePpsUse_eq]
  exact ⟨hrun, hseconds, hsub, hunset, hpulse, rfl, hxo, rfl⟩

/-- The state of the crystal after CONFIGURE_STATION is that after its own setting (R1). -/
theorem StationChange.writeTime_crystal (c : StationChange) (t : Timebase) :
    (c.writeTime t).state = (t.writeXoUse (c.xoUseOn t)).state
      ∧ (c.writeTime t).retryFrom = (t.writeXoUse (c.xoUseOn t)).retryFrom
      ∧ (c.writeTime t).passes = (t.writeXoUse (c.xoUseOn t)).passes
      ∧ (c.writeTime t).windows = (t.writeXoUse (c.xoUseOn t)).windows
      ∧ (c.writeTime t).firstAttempt = (t.writeXoUse (c.xoUseOn t)).firstAttempt
      ∧ (c.writeTime t).windowFrom = (t.writeXoUse (c.xoUseOn t)).windowFrom := by
  rw [c.writeTime_eq, Timebase.writePpsUse_eq]
  exact ⟨rfl, rfl, rfl, rfl, rfl, rfl⟩

/-- The PPS after CONFIGURE_STATION (R9). -/
theorem StationChange.writeTime_pps (c : StationChange) (t : Timebase) :
    (c.writeTime t).pps = (if c.ppsUseOn t = t.ppsUse then t.pps
        else if c.ppsUseOn t then .waiting else .off)
      ∧ (c.writeTime t).ppsFrom = (if c.ppsUseOn t = t.ppsUse then t.ppsFrom
        else if c.ppsUseOn t then some t.run else none) := by
  obtain ⟨hrun, -, -, -, -, -, -, hppsUse, hpps, hfrom⟩ := t.writeXoUse_kept (c.xoUseOn t)
  rw [c.writeTime_eq, Timebase.writePpsUse_eq]
  dsimp only
  rw [hppsUse, hpps, hfrom, hrun]
  exact ⟨rfl, rfl⟩

/-- CONFIGURE_STATION writes the settings, and the meters note the clock quality (R175). -/
theorem StationChange.apply_rest (c : StationChange) (s : State) : ∃ bs, c.apply s = { s with
    tb := c.writeTime s.tb
    grid := { s.grid with nominal := c.gridNominal.getD s.grid.nominal }
    pool := { s.pool with tripHold := c.tripHold.getD s.pool.tripHold }
    account := { s.account with headroom := c.headroom.getD s.account.headroom }
    metering := { s.metering with
      length := c.length.getD s.metering.length
      rounding := (c.rounding.map roundingOf).getD s.metering.rounding }
    berths := bs } := State.noteQuality_rest _

/-! ### Module requests with no request pending -/

theorem isRating_iff (n : Nat) : isRating n = true ↔ 500 ≤ n ∧ n ≤ 4000 ∧ n % 10 = 0 := by
  unfold isRating within
  rw [Bool.and_eq_true, decide_eq_true_eq, beq_iff_eq, and_assoc]

/-- With no entry of an outlet arbitration starts nothing (R34). -/
theorem State.arbitrate_of_no_entry {s : State} (h : ∀ q, (s.berth q).mp.entry = none) :
    s.arbitrate = s := by
  unfold State.arbitrate
  split
  · next o e _ hw =>
    have := State.winner_entry hw
    rw [h o] at this
    cases this
  · rfl

/-- A request of a module taken, with no request pending and no outlet waiting (R31, R177). -/
theorem State.changeByRequest_quiet {s : State} (entries : ∀ q, (s.berth q).mp.entry = none)
    (hw : s.noneWaits) (hpass : s.passDue = false) (m : ModuleNo) (f : Module → Module) :
    s.changeByRequest m f = accept (s.onModule m f) (moduleRecord m ((s.onModule m f).module m)) := by
  have hset : ((s.changeModule m f).arbitrate).settle = s.onModule m f := by
    rw [State.arbitrate_of_no_entry (by exact entries), State.settle_of_noneWaits (by exact hw)]
    show { s.onModule m f with passDue := false } = _
    rw [← hpass]
    rfl
  unfold State.changeByRequest
  rw [hset]

end Sys2Proof.Machine

namespace Sys2Proof.Proofs

open Machine

/-- Settles O41: the settings judged, and TB's by the crystal and the PPS. -/
theorem configureStationWritesTheSettings : Obligations.ConfigureStationWritesTheSettings := by
  intro tag p s c hp hc free
  have judged : judgeConfigureStation p s =
      if !c.inRange s.metering.bands then refuse s .refusedRange
      else if 0 < s.openSessions ∧ c.needsNoSession s then refuse s .refusedState
      else accept (c.apply s) (stationSettings (c.apply s)) :=
    hc ▸ ofLength_of_eq _ _ hp
  refine ⟨fun hrange hallowed => ?_, fun hbad => ?_, fun hrange hopen hneeds => ?_⟩
  · rw [if_neg (by rw [hrange]; decide), if_neg] at judged
    · have htb : (c.apply s).tb = c.writeTime s.tb := (State.noteQuality_metered _).tb
      obtain ⟨hrun, hseconds, hsub, hunset, hpulse, hoffset, hxo, hpps⟩ := c.writeTime_kept s.tb
      obtain ⟨hstate, hretry, hpasses, hwindows, hfirst, hfrom⟩ := c.writeTime_crystal s.tb
      obtain ⟨hppsState, hppsFrom⟩ := c.writeTime_pps s.tb
      refine ⟨c.apply s, State.request_next free judged, ?_, MetersSee.noteQuality rfl, ?_⟩
      · obtain ⟨bs, e⟩ := c.apply_rest s
        rw [e]
        cases c.rounding <;> rfl
      · rw [htb]
        refine ⟨hrun, hseconds, hsub, hunset, hpulse, hoffset, ?_, ?_, fun hon hoff => ?_,
          fun hoff hon hirc => ?_, fun hsame => ?_, fun hoff hon => ?_, fun hon hoff => ?_,
          fun hsame => ?_⟩
        · rw [hxo]; unfold StationChange.xoUseOn; cases c.xoUse <;> rfl
        · rw [hpps]; unfold StationChange.ppsUseOn; cases c.ppsUse <;> rfl
        · rw [hxo] at hoff
          rw [hstate, hretry, hpasses, hoff]
          exact Timebase.writeXoUse_off hon
        · rw [hxo] at hon
          rw [hstate, hfirst, hwindows, hpasses, hfrom, hon]
          exact Timebase.writeXoUse_on hoff hirc
        · rw [hxo] at hsame
          rw [hstate, hsame, Timebase.writeXoUse_same]
        · rw [hpps] at hon
          rw [hppsState, hppsFrom, hon, hoff]
          exact ⟨rfl, rfl⟩
        · rw [hpps] at hoff
          rw [hppsState, hppsFrom, hon, hoff]
          exact ⟨rfl, rfl⟩
        · rw [hpps] at hsame
          rw [hppsState, hppsFrom, if_pos hsame, if_pos hsame]
          exact ⟨rfl, rfl⟩
    · rintro ⟨hopen, hneeds⟩
      rcases hallowed with h | h
      · omega
      · rw [h] at hneeds; cases hneeds
  · exact State.request_next free (judged.trans (if_pos (by rw [hbad]; rfl)))
  · exact State.request_next free (judged.trans ((if_neg (by rw [hrange]; decide)).trans
      (if_pos ⟨hopen, hneeds⟩)))

/-- Settles O44: the module's state decides, with no request pending. -/
theorem moduleRequests : Obligations.ModuleRequests := by
  intro tag m b hi lo s hb free
  have named (rest : List Byte) : moduleField (b :: rest) = some m := hb ▸ moduleField_number m rest
  have unlock : judgeUnlockModule [b] s = _ := ofLength_ofModule rfl (named [])
  have withdraw : judgeWithdrawModule [b] s = _ := ofLength_ofModule rfl (named [])
  have declare : judgeDeclareModule [b, hi, lo] s = _ := ofLength_ofModule rfl (named [hi, lo])
  dsimp only at declare
  rw [field_two] at declare
  refine ⟨fun rating hr hlow hhigh hten => ?_, fun rating hr hout => ?_, fun hst => ?_,
    fun hidle hfaulted hlocked => ?_, fun entries hw hpass => ⟨fun t ht hst => ?_, fun t ht hst => ?_⟩⟩
  · rw [← hr, if_neg (by rw [(isRating_iff rating).mpr ⟨hlow, hhigh, hten⟩]; decide)] at declare
    refine ⟨fun hoff hidle => ?_, fun entries hw hpass f t ht hcases => ?_⟩
    · refine State.request_next free (v := refuse s .refusedState) (declare.trans ?_)
      cases hs : (s.module m).state <;> first | rfl | exact absurd hs hoff | exact absurd hs hidle
    · subst ht
      refine State.request_next free (v := accept _ _) (declare.trans ?_)
      rcases hcases with ⟨hs, rfl⟩ | ⟨hs, rfl⟩
      · rw [hs]
        exact State.changeByRequest_quiet entries hw hpass m _
      · rw [hs]
        exact State.changeByRequest_quiet entries hw hpass m _
  · rw [← hr, if_pos] at declare
    · exact State.request_next free declare
    · rw [Bool.not_eq_true', ← Bool.not_eq_true, isRating_iff]
      omega
  · refine State.request_next free (v := refuse s .refusedState) (unlock.trans ?_)
    cases hs : (s.module m).state <;> first | rfl | exact absurd hs hst
  · refine State.request_next free (v := refuse s .refusedState) (withdraw.trans ?_)
    cases hs : (s.module m).state <;>
      first | rfl | exact absurd hs hidle | exact absurd hs hfaulted | exact absurd hs hlocked
  · subst ht
    refine State.request_next free (v := accept _ _) (unlock.trans ?_)
    rw [hst]
    exact State.changeByRequest_quiet entries hw hpass m _
  · subst ht
    refine State.request_next free (v := accept _ _) (withdraw.trans ?_)
    rcases hst with hst | hst | hst <;> rw [hst] <;>
      exact State.changeByRequest_quiet entries hw hpass m _

end Sys2Proof.Proofs
end

