-- ==== Sys2Proof/Proofs/Frames.lean ====
section
/-! PROOFS. The frames of both links, read back from their bytes (O14). -/

namespace Sys2Proof.Machine

/-! ### Field lengths (R183) -/

theorem beDigits_length (width value : Nat) : (beDigits width value).length = width := by
  induction width generalizing value with
  | zero => rfl
  | succ w ih => unfold beDigits; rw [List.length_cons, ih]

theorem unsigned_length (width value : Nat) : (unsigned width value).length = width := by
  unfold unsigned
  split
  · exact beDigits_length _ _
  · exact Vector.length_toList

theorem ifThere_length {α : Type} {width : Nat} {a : Option α} {f : α → List Byte}
    (h : ∀ x, (f x).length = width) : (ifThere width a f).length = width := by
  unfold ifThere
  split
  · exact h _
  · exact List.length_replicate

theorem ShoreState.bytes_length (r : ShoreState) : r.bytes.length = 6 := by
  unfold ShoreState.bytes flagByte
  simp only [List.length_append, unsigned_length]
  rw [ifThere_length fun x => by cases x <;> exact unsigned_length _ _]

theorem LeaderFrame.payload_length (f : LeaderFrame) : f.parts.2.2.length ≤ 24 := by
  cases f with
  | rollCall mark => exact (unsigned_length _ _).trans_le (by decide)
  | enlisted a r => exact (unsigned_length _ _).trans_le (by decide)
  | attentionQuery => exact Nat.zero_le _
  | slotGrant a => exact Nat.zero_le _
  | poll a shore =>
    cases shore with
    | none => exact Nat.zero_le _
    | some r => exact r.bytes_length.trans_le (by decide)

/-! ### The supervisory link (R172, R184) -/

/-- The bytes of a frame with a payload that it can carry come to its request where their check bytes are right,
and to CRC_ERROR where they are not. -/
theorem commandOfFrame_frame (held : Bool) {kind tag : Byte} {p : List Byte} (hp : p.length ≤ 240)
    {check : List Byte} (hc : check.length = 2) :
    commandOfFrame held (0xA5 :: BitVec.ofNat 8 (p.length + 2) :: kind :: tag :: (p ++ check))
      = if crc16Bytes (crc16 (BitVec.ofNat 8 (p.length + 2) :: kind :: tag :: p)) ≠ check
        then some .crcError else some (requestCommand held kind tag p) := by
  have hlen : (BitVec.ofNat 8 (p.length + 2)).toNat = p.length + 2 := by
    rw [BitVec.toNat_ofNat]; omega
  have htake : (kind :: tag :: (p ++ check)).take (p.length + 2) = kind :: tag :: p := by simp
  have hdrop : (kind :: tag :: (p ++ check)).drop (p.length + 2) = check := by simp
  unfold commandOfFrame
  dsimp only
  rw [if_neg (by decide), hlen, if_neg (by omega), if_neg (by simp [hc]), htake, hdrop]

theorem supervisoryFrame_eq (kind tag : Byte) (p : List Byte) : supervisoryFrame kind tag p
    = 0xA5 :: BitVec.ofNat 8 (p.length + 2) :: kind :: tag :: (p
      ++ crc16Bytes (crc16 (BitVec.ofNat 8 (p.length + 2) :: kind :: tag :: p))) := rfl

/-- The request that any well-formed command is, is read back as the command (R184). -/
theorem requestReads (i : Instr) : Laws.RequestReads.Statement i := by
  cases i
  case readStations tag p => exact Laws.RequestReads.readStations tag p
  case unknownRequest kind tag => exact Laws.RequestReads.unknownRequest kind tag
  case configureStation | readStation | setImportLimit | setBands | setTime | readTime | restart
      | declareModule | withdrawModule | unlockModule | readModules | configureOutlet | readOutlet
      | authorise | revoke | readAuthorisations | endSession | resetOutlet | setCap | setIslandTrim
      | readGenerators | readMeters | readBilling | releaseBilling | flushInterval | readEvents
      | readFaults | clearFaults | setReporting =>
    exact Laws.requestReads_of_some rfl (fun _ _ => rfl) fun h => of_decide_eq_true h
  all_goals exact Laws.requestReads_of_none rfl

/-! ### The ship link (R121, R122, R186) -/

/-- The command of a good frame by its kind (R186). -/
def goodShipFrame (o : Outlet) (held : Bool) (kind : Byte) (f : ShipFrame) : Instr :=
  match kind.toNat with
  | 4 => .present o held f
  | 6 => .status o held f
  | 8 => .slotEnd o held f
  | 9 => .genStatus o held f
  | _ => .present o held { f with payload := [] }

/-- The header of a ship's frame: destination, source, kind and length. -/
theorem shipFrame_bytes (f : ShipFrame) (kind : Byte) : f.bytes kind
    = BitVec.ofNat 8 f.dst :: BitVec.ofNat 8 f.src :: kind :: BitVec.ofNat 8 f.payload.length
      :: (f.payload ++ [crc8 (BitVec.ofNat 8 f.dst :: BitVec.ofNat 8 f.src :: kind
        :: BitVec.ofNat 8 f.payload.length :: f.payload)]) := rfl

theorem shipFrame_wellFormed (f : ShipFrame) :
    f.wellFormed = true ↔ f.dst < 256 ∧ f.src < 256 ∧ f.payload.length ≤ 24 := by
  simp only [ShipFrame.wellFormed, Bool.and_eq_true, decide_eq_true_eq, and_assoc]

theorem toNat_ofNat_byte {n : Nat} (h : n < 256) : (BitVec.ofNat 8 n).toNat = n := by
  rw [BitVec.toNat_ofNat]; omega

section
variable {f : ShipFrame} (h : f.wellFormed = true) (o : Outlet) (held : Bool) (kind : Byte)
include h

/-- A whole frame, its check byte right or not. -/
theorem shipCommand_whole (check : Byte) :
    shipCommand o held (BitVec.ofNat 8 f.dst :: BitVec.ofNat 8 f.src :: kind
        :: BitVec.ofNat 8 f.payload.length :: (f.payload ++ [check]))
      = if [crc8 (BitVec.ofNat 8 f.dst :: BitVec.ofNat 8 f.src :: kind
          :: BitVec.ofNat 8 f.payload.length :: f.payload)] ≠ [check]
        then .badFrame o held f.src else goodShipFrame o held kind f := by
  obtain ⟨hdst, hsrc, hp⟩ := (shipFrame_wellFormed f).mp h
  have hlen := toNat_ofNat_byte (n := f.payload.length) (by omega)
  have htake : (f.payload ++ [check]).take f.payload.length = f.payload := by simp
  have hdrop : ((f.payload ++ [check]).drop f.payload.length).take 1 = [check] := by simp
  unfold shipCommand
  dsimp only
  rw [hlen, if_neg (by simp; omega), htake, hdrop, toNat_ofNat_byte hsrc, toNat_ofNat_byte hdst]
  split <;> rfl

theorem shipCommand_good : shipCommand o held (f.bytes kind) = goodShipFrame o held kind f := by
  rw [shipFrame_bytes, shipCommand_whole h]
  exact if_neg (not_not.mpr rfl)

theorem shipCommand_bad {check : Byte} (hc : [check] ≠ (f.bytes kind).drop ((f.bytes kind).length - 1)) :
    shipCommand o held ((f.bytes kind).take ((f.bytes kind).length - 1) ++ [check])
      = .badFrame o held f.src := by
  have hlength : (f.bytes kind).length - 1 = f.payload.length + 4 := by
    rw [shipFrame_bytes]; simp
  rw [hlength, shipFrame_bytes] at hc ⊢
  have htake : ∀ x : Byte, (f.payload ++ [x]).take f.payload.length = f.payload := by simp
  have hdrop : ∀ x : Byte, (f.payload ++ [x]).drop f.payload.length = [x] := by simp
  simp only [List.drop_succ_cons, hdrop] at hc
  simp only [List.take_succ_cons, htake, List.cons_append]
  rw [shipCommand_whole h]
  exact if_pos hc.symm

theorem shipCommand_short {n : Nat} (hn : n < (f.bytes kind).length) :
    shipCommand o held ((f.bytes kind).take n)
      = .incompleteFrame o held (if n < 2 then none else some f.src) := by
  obtain ⟨-, hsrc, hp⟩ := (shipFrame_wellFormed f).mp h
  have hlen := toNat_ofNat_byte (n := f.payload.length) (by omega)
  have hlength : (f.bytes kind).length = f.payload.length + 5 := by
    rw [shipFrame_bytes]; simp
  rw [hlength] at hn
  rw [shipFrame_bytes]
  match n with
  | 0 | 1 => rfl
  | 2 | 3 =>
    simp only [List.take_succ_cons, List.take_zero]
    unfold shipCommand
    dsimp only
    rw [toNat_ofNat_byte hsrc]
    rfl
  | n + 4 =>
    simp only [List.take_succ_cons]
    unfold shipCommand
    dsimp only
    rw [hlen, if_pos (.inr (by rw [List.length_take]; omega)), toNat_ofNat_byte hsrc,
      if_neg (by omega)]

end

/-- What holds of the frame of every kind that a station sends. -/
theorem shipFrame_reads {o : Outlet} {held : Bool} {f : ShipFrame} {kind : Byte} {i : Instr}
    (h : f.wellFormed = true) (hi : goodShipFrame o held kind f = i) :
    shipCommand o held (f.bytes kind) = i
      ∧ (∀ check : Byte, [check] ≠ (f.bytes kind).drop ((f.bytes kind).length - 1) →
          ∃ src : Byte, (f.bytes kind)[1]? = some src
            ∧ shipCommand o held ((f.bytes kind).take ((f.bytes kind).length - 1) ++ [check])
              = .badFrame o held src.toNat)
      ∧ (∀ n, n < (f.bytes kind).length →
          shipCommand o held ((f.bytes kind).take n)
            = .incompleteFrame o held
              (if n < 2 then none else (f.bytes kind)[1]?.map BitVec.toNat)) := by
  obtain ⟨-, hsrc, -⟩ := (shipFrame_wellFormed f).mp h
  have hsource : (f.bytes kind)[1]? = some (BitVec.ofNat 8 f.src) := rfl
  refine ⟨(shipCommand_good h o held kind).trans hi, fun check hc => ⟨_, hsource, ?_⟩, fun n hn => ?_⟩
  · rw [shipCommand_bad h o held kind hc, toNat_ofNat_byte hsrc]
  · rw [shipCommand_short h o held kind hn, hsource, Option.map_some, toNat_ofNat_byte hsrc]

end Sys2Proof.Machine

namespace Sys2Proof.Proofs

open Machine

/-- Settles O14: the frames of both links by their bytes, and those of the leader by their parts. -/
theorem framesDecodeAndCarryTheirChecks : Obligations.FramesDecodeAndCarryTheirChecks := by
  refine ⟨fun i held bytes hw hshows hb => ?_, fun i o held bytes hw hb => ?_, fun f => ?_⟩
  · obtain ⟨⟨kind, tag, p⟩, hr, rfl⟩ := Option.map_eq_some_iff.mp hb
    obtain ⟨hread, hp⟩ := requestReads i held kind tag p hr hw hshows
    rw [supervisoryFrame_eq]
    refine ⟨?_, fun check hc hne => ?_⟩
    · rw [commandOfFrame_frame held hp rfl, if_neg (not_not.mpr rfl), hread]
    · generalize hright : crc16Bytes (crc16 (BitVec.ofNat 8 (p.length + 2) :: kind :: tag :: p)) = right
        at hne ⊢
      have hlength : (0xA5 :: BitVec.ofNat 8 (p.length + 2) :: kind :: tag :: (p ++ right)).length - 2
          = p.length + 4 := by rw [← hright]; simp [crc16Bytes]
      rw [hlength] at hne ⊢
      simp only [List.drop_succ_cons, List.take_succ_cons, List.take_left', List.drop_left',
        List.cons_append] at hne ⊢
      rw [commandOfFrame_frame held hp hc, hright]
      exact if_pos hne.symm
  · cases i
    case present o' held' f => cases hb; exact shipFrame_reads hw rfl
    case status o' held' f => cases hb; exact shipFrame_reads hw rfl
    case slotEnd o' held' f => cases hb; exact shipFrame_reads hw rfl
    case genStatus o' held' f => cases hb; exact shipFrame_reads hw rfl
    all_goals cases hb
  · refine ⟨_, _, _, f.parts.2.2, rfl, toNat_ofNat_byte ?_, f.payload_length, fun a ha => ?_, fun ha => ?_⟩
    · have := f.payload_length; omega
    · rcases ha with ⟨r, rfl⟩ | ⟨r, rfl⟩ | rfl <;> rfl
    · rcases ha with ⟨mark, rfl⟩ | rfl <;> rfl

end Sys2Proof.Proofs
end

