-- ==== Sys2Proof/Proofs/Measuring.lean ====
section
/-! PROOFS. What the taking of a record leaves as it was, and the records of a cycle (O15, O16). -/

namespace Sys2Proof.Machine

/-! ### What a record of an outlet's point leaves -/

/-- Updates that put no outlet into AWAIT_AUTH leave an outlet that does not wait not waiting. -/
theorem Acts.notWaiting {x : Scope} {s t : State} (h : Acts x s t) (hx : x.connects = false)
    {p : Outlet} (hw : s.waits p = false) : t.waits p = false := by
  induction h with
  | trans _ _ ih1 ih2 => exact ih2 hx (ih1 hx hw)
  | onBerth x s o f touched connects =>
    by_cases e : p = o
    · subst e
      unfold State.waits
      rw [State.berth_onBerth_self]
      by_cases g : (f (s.berth p)).sc.state = .awaitAuth
      · have := connects hx g; rw [hw] at this; cases this
      · simpa using g
    · unfold State.waits at hw ⊢
      rwa [State.berth_onBerth_ne _ _ e]
  | onMp x s o f =>
    unfold State.waits at hw ⊢
    rwa [State.sc_onMp]
  | wait o w _ ih => exact ih hx hw
  | _ => exact hw

/-- What the taking of a record at an outlet leaves as it was: the station but for the import watch, the points,
and every other outlet that does not wait. -/
structure TakesRecord (o : Outlet) (s t : State) : Prop where
  station : SameStation
    { s with account := { s.account with importFrom := t.account.importFrom
                                         importReported := t.account.importReported } } t
  berth : ∀ p, p ≠ o → s.waits p = false → SameButPool (s.berth p) (t.berth p)
  shore : ∀ p, (t.berth p).mu.shore = (s.berth p).mu.shore
  ship : ∀ p, (t.berth p).mu.ship = (s.berth p).mu.ship
  waits : s.waits o = false → t.waits o = false

theorem TakesRecord.refl (o : Outlet) (s : State) : TakesRecord o s s :=
  ⟨.refl _, fun _ _ _ => .refl _, fun _ => rfl, fun _ => rfl, id⟩

theorem TakesRecord.trans {o : Outlet} {s t u : State} (h : TakesRecord o s t)
    (g : TakesRecord o t u) : TakesRecord o s u where
  station :=
    { tb := g.station.tb.trans h.station.tb
      grid := g.station.grid.trans h.station.grid
      gridWatch := g.station.gridWatch.trans h.station.gridWatch
      svl := g.station.svl.trans h.station.svl
      pending := g.station.pending.trans h.station.pending
      tripHold := g.station.tripHold.trans h.station.tripHold
      commandFrom := g.station.commandFrom.trans h.station.commandFrom
      limit := g.station.limit.trans h.station.limit
      headroom := g.station.headroom.trans h.station.headroom
      importFrom := rfl
      importReported := rfl
      length := g.station.length.trans h.station.length
      rounding := g.station.rounding.trans h.station.rounding
      bands := g.station.bands.trans h.station.bands
      enables := g.station.enables.trans h.station.enables
      outletEvents := g.station.outletEvents.trans h.station.outletEvents
      reportOff := g.station.reportOff.trans h.station.reportOff }
  berth p hp hw := by
    have hfirst := h.berth p hp hw
    refine hfirst.trans (g.berth p hp ?_)
    unfold State.waits at hw ⊢
    rwa [hfirst.sc]
  shore p := (g.shore p).trans (h.shore p)
  ship p := (g.ship p).trans (h.ship p)
  waits hw := g.waits (h.waits hw)

/-- Updates within a scope of the outlet alone. -/
theorem Acts.takesRecord {x : Scope} {o : Outlet} {s t : State} (h : Acts x s t)
    (ho : x.outlets = [o]) (hx : x.connects = false) : TakesRecord o s t where
  station :=
    { tb := h.station.tb, grid := h.station.grid, gridWatch := h.station.gridWatch
      svl := h.station.svl, pending := h.station.pending, tripHold := h.station.tripHold
      commandFrom := h.station.commandFrom, limit := h.station.limit
      headroom := h.station.headroom, importFrom := rfl, importReported := rfl
      length := h.station.length, rounding := h.station.rounding, bands := h.station.bands
      enables := h.station.enables, outletEvents := h.station.outletEvents
      reportOff := h.station.reportOff }
  berth p hp hw := h.berth p (by rw [ho]; simpa using hp) hw
  shore p := (h.inputs p).shore
  ship p := (h.inputs p).ship
  waits hw := h.notWaiting hx hw

/-- A change of the outlet's own berth that keeps its points. -/
theorem TakesRecord.onBerth {s : State} {o : Outlet} {f : Berth → Berth}
    (state : (f (s.berth o)).sc.state = (s.berth o).sc.state)
    (shore : (f (s.berth o)).mu.shore = (s.berth o).mu.shore)
    (ship : (f (s.berth o)).mu.ship = (s.berth o).mu.ship) : TakesRecord o s (s.onBerth o f) where
  station := by constructor <;> rfl
  berth p hp _ := by rw [State.berth_onBerth_ne _ _ hp]; exact .refl _
  shore p := by
    by_cases hp : p = o
    · subst hp; rw [State.berth_onBerth_self]; exact shore
    · rw [State.berth_onBerth_ne _ _ hp]
  ship p := by
    by_cases hp : p = o
    · subst hp; rw [State.berth_onBerth_self]; exact ship
    · rw [State.berth_onBerth_ne _ _ hp]
  waits hw := by
    unfold State.waits at hw ⊢
    rwa [State.berth_onBerth_self, state]

/-- The fault kinds that a record of an outlet may raise. -/
def recordKinds : List FaultKind :=
  [.pilotOpen, .shipStop, .scpLost, .gridLoss, .measurementClip, .overload, .busFrequency]

/-- The updates that a record of an outlet may make. -/
abbrev recordScope (o : Outlet) : Scope := ⟨[o], [], false, false, recordKinds⟩

theorem entryKinds_record : ∀ k ∈ entryKinds, k ∈ recordKinds := by decide

section
variable (s : State) (o : Outlet)

theorem State.noteClip_record (clipped : Bool) : Acts (recordScope o) s (s.noteClip o clipped) :=
  s.noteClip_acts o clipped List.mem_cons_self (show _ ∈ recordKinds by decide)

theorem State.judgeBuses_record : Acts (recordScope o) s (s.judgeBuses o) :=
  s.judgeBuses_acts o List.mem_cons_self entryKinds_record

theorem State.prShip_record (r : Phasor) : Acts (recordScope o) s (s.prShip o r) :=
  s.prShip_acts o r List.mem_cons_self (show _ ∈ recordKinds by decide)

theorem State.mpPower_record (r : PowerRecord) : Acts (recordScope o) s (s.mpPower o r) :=
  s.mpPower_acts o r List.mem_cons_self entryKinds_record

theorem State.prPower_record (r : PowerRecord) : Acts (recordScope o) s (s.prPower o r) :=
  s.prPower_acts o r List.mem_cons_self (show _ ∈ recordKinds by decide)

theorem State.syShipRecord_record (now : RunCount) :
    Acts (recordScope o) s (s.onBerth o fun b => b.syShipRecord now) :=
  Acts.onBerth_keep _ _ _ List.mem_cons_self (by rw [Berth.syShipRecord_rest]) (by
    rw [Berth.syShipRecord_rest]
    have : ((s.berth o).syShipRecord now).sy.settings = (s.berth o).sy.settings := by
      unfold Berth.syShipRecord
      split
      · split <;> rfl
      · rfl
    exact ⟨rfl, rfl, rfl, rfl, rfl, rfl, rfl, rfl, rfl, rfl, this, rfl⟩)

/-- What the blocks judge by a record of Pn before the records of its cycle are made. -/
def State.judgeShip (r : Phasor) : State :=
  (((s.noteClip o r.clipped).prShip o r).onBerth o fun b => b.syShipRecord s.tb.run).judgeBuses o

/-- What the blocks judge by a record of Sn before the power record of its cycle is made. -/
def State.judgeShore (r : Phasor) : State := (s.noteClip o r.clipped).judgeBuses o

theorem State.judgeShip_record (r : Phasor) : Acts (recordScope o) s (s.judgeShip o r) :=
  (((s.noteClip_record o r.clipped).trans (State.prShip_record _ o r)).trans
    (State.syShipRecord_record _ o _)).trans (State.judgeBuses_record _ o)

theorem State.judgeShore_record (r : Phasor) : Acts (recordScope o) s (s.judgeShore o r) :=
  (s.noteClip_record o r.clipped).trans (State.judgeBuses_record _ o)

theorem State.scPower_takes (r : PowerRecord) : TakesRecord o s (s.scPower o r) := by
  unfold State.scPower
  dsimp only
  refine TakesRecord.trans (t := { s with account := s.account.judgeImport s.importSum s.tb.run })
    ⟨?_, fun _ _ _ => .refl _, fun _ => rfl, fun _ => rfl, id⟩ (.onBerth rfl rfl rfl)
  unfold Account.judgeImport
  split <;> exact .refl _

theorem State.takePower_takes (r : PowerRecord) : TakesRecord o s (s.takePower o r) := by
  unfold State.takePower
  dsimp only
  refine .trans (.trans (.trans (.trans (.trans (.trans
    (TakesRecord.onBerth (f := fun b => { b with mu := { b.mu with power := some r } }) rfl rfl rfl)
    ((State.noteClip_record _ o _).takesRecord rfl rfl)) (.onBerth rfl rfl rfl)) (.onBerth ?_ ?_ ?_))
    ((State.mpPower_record _ o r).takesRecord rfl rfl)) ((State.prPower_record _ o r).takesRecord rfl rfl))
    (State.scPower_takes _ o r)
  all_goals rw [Berth.powerLoop_rest]

theorem State.takePair_takes : TakesRecord o s (s.takePair o) := by
  unfold State.takePair
  split
  · exact .refl _ _
  · refine .onBerth ?_ ?_ ?_ <;> (dsimp only; rw [Berth.syPair_rest, Berth.rgPair_rest])

variable {s o} in
/-- A record of Pn of no cycle. -/
theorem State.takeShipRecord_of_none {r : Phasor} (hr : (s.berth o).mu.ship.record = some r)
    {c : Option CyclePower} (h : r.cycle = none ∨ c = none) (v : LineVoltages) :
    s.takeShipRecord o v c = s.judgeShip o r := by
  unfold State.takeShipRecord
  rw [hr]
  dsimp only
  split
  · rename_i hf
    rcases h with h | h
    · rw [h] at hf; cases hf
    · cases h
  · rfl

variable {s o} in
/-- A record of Pn that ends a cycle. -/
theorem State.takeShipRecord_of_cycle {r : Phasor} (hr : (s.berth o).mu.ship.record = some r)
    {f : CycleFields} (hf : r.cycle = some f) (v : LineVoltages) (c : CyclePower) :
    s.takeShipRecord o v (some c)
      = ((s.judgeShip o r).takePair o).takePower o (powerRecord c v f.period s.now) := by
  unfold State.takeShipRecord
  rw [hr]
  dsimp only
  rw [hf]
  rfl

variable {s o} in
/-- A record of Sn that makes no power record. -/
theorem State.takeShoreRecord_of_none {r : Phasor} (hr : (s.berth o).mu.shore.record = some r)
    {c : Option CyclePower} (h : r.cycle = none ∨ c = none ∨ (s.berth o).mu.ship.live = true)
    (v : LineVoltages) : s.takeShoreRecord o v c = s.judgeShore o r := by
  unfold State.takeShoreRecord
  rw [hr]
  dsimp only
  split
  · rename_i hf
    rcases h with h | h | h
    · rw [h] at hf; cases hf
    · cases h
    · exact if_pos h
  · rfl

variable {s o} in
/-- A record of Sn that ends a cycle while Pn is dead. -/
theorem State.takeShoreRecord_of_cycle {r : Phasor} (hr : (s.berth o).mu.shore.record = some r)
    {f : CycleFields} (hf : r.cycle = some f) (dead : (s.berth o).mu.ship.live = false)
    (v : LineVoltages) (c : CyclePower) : s.takeShoreRecord o v (some c)
      = (s.judgeShore o r).takePower o (powerRecord c v f.period s.now) := by
  unfold State.takeShoreRecord
  rw [hr]
  dsimp only
  rw [hf]
  exact if_neg (by rw [dead]; decide)

theorem State.takeShoreRecord_takes (v : LineVoltages) (c : Option CyclePower) :
    TakesRecord o s (s.takeShoreRecord o v c) := by
  cases hr : (s.berth o).mu.shore.record with
  | none => unfold State.takeShoreRecord; rw [hr]; exact .refl _ _
  | some r =>
    by_cases h : r.cycle = none ∨ c = none ∨ (s.berth o).mu.ship.live = true
    · rw [State.takeShoreRecord_of_none hr h]
      exact (s.judgeShore_record o r).takesRecord rfl rfl
    · rw [not_or, not_or] at h
      obtain ⟨hf, hc, hlive⟩ := h
      obtain ⟨f, hf⟩ := Option.ne_none_iff_exists'.mp hf
      obtain ⟨power, rfl⟩ := Option.ne_none_iff_exists'.mp hc
      rw [State.takeShoreRecord_of_cycle hr hf (by simpa using hlive)]
      exact ((s.judgeShore_record o r).takesRecord rfl rfl).trans (State.takePower_takes _ _ _)

theorem State.takeShipRecord_takes (v : LineVoltages) (c : Option CyclePower) :
    TakesRecord o s (s.takeShipRecord o v c) := by
  cases hr : (s.berth o).mu.ship.record with
  | none => unfold State.takeShipRecord; rw [hr]; exact .refl _ _
  | some r =>
    by_cases h : r.cycle = none ∨ c = none
    · rw [State.takeShipRecord_of_none hr h]
      exact (s.judgeShip_record o r).takesRecord rfl rfl
    · rw [not_or] at h
      obtain ⟨hf, hc⟩ := h
      obtain ⟨f, hf⟩ := Option.ne_none_iff_exists'.mp hf
      obtain ⟨power, rfl⟩ := Option.ne_none_iff_exists'.mp hc
      rw [State.takeShipRecord_of_cycle hr hf]
      exact (((s.judgeShip_record o r).takesRecord rfl rfl).trans (State.takePair_takes _ _)).trans
        (State.takePower_takes _ _ _)

end

theorem State.settle_takes (s : State) (o : Outlet) : TakesRecord o s s.settle :=
  (State.settle_acts (recordScope o) s).takesRecord rfl rfl

/-! ### The frame of a measuring point -/

theorem State.setPoint_same (s : State) (pt : MeasPoint) : s.setPoint pt (s.point pt) = s := by
  cases pt with
  | grid => rfl
  | shore o =>
    exact State.onBerth_unchanged
      (f := fun b => { b with mu := { b.mu with shore := (s.berth o).mu.shore } }) rfl
  | ship o =>
    exact State.onBerth_unchanged
      (f := fun b => { b with mu := { b.mu with ship := (s.berth o).mu.ship } }) rfl

theorem State.point_setPoint_self (s : State) (pt : MeasPoint) (p : PointState) :
    (s.setPoint pt p).point pt = p := by
  cases pt with
  | grid => rfl
  | shore o =>
    show ((s.onMu o fun m => { m with shore := p }).berth o).mu.shore = p
    rw [State.berth_onMu_self]
  | ship o =>
    show ((s.onMu o fun m => { m with ship := p }).berth o).mu.ship = p
    rw [State.berth_onMu_self]

theorem State.point_setPoint_ne (s : State) {pt q : MeasPoint} (p : PointState) (h : q ≠ pt) :
    (s.setPoint pt p).point q = s.point q := by
  have onMu (o r : Outlet) (f : Measures → Measures) :
      ((s.onMu o f).berth r).mu = if r = o then f (s.berth r).mu else (s.berth r).mu := by
    by_cases hr : r = o
    · subst hr; rw [State.berth_onMu_self, if_pos rfl]
    · rw [State.berth_onMu_ne _ _ hr, if_neg hr]
  cases pt with
  | grid => cases q <;> first | exact absurd rfl h | rfl
  | shore o =>
    cases q with
    | grid => rfl
    | shore r =>
      show ((s.onMu o _).berth r).mu.shore = _
      rw [onMu, if_neg fun e => h (by rw [e])]; rfl
    | ship r =>
      show ((s.onMu o _).berth r).mu.ship = _
      rw [onMu]; split <;> rfl
  | ship o =>
    cases q with
    | grid => rfl
    | shore r =>
      show ((s.onMu o _).berth r).mu.shore = _
      rw [onMu]; split <;> rfl
    | ship r =>
      show ((s.onMu o _).berth r).mu.ship = _
      rw [onMu, if_neg fun e => h (by rw [e])]; rfl

theorem TakesRecord.point {o : Outlet} {s t : State} (h : TakesRecord o s t) (q : MeasPoint) :
    t.point q = s.point q := by
  cases q with
  | grid => exact congrArg (fun g => g.point) h.station.grid
  | shore p => exact h.shore p
  | ship p => exact h.ship p

/-- The frame of a record taken at a point of an outlet. -/
theorem TakesRecord.frame {o : Outlet} {pt : MeasPoint} {p : PointState} {s t : State}
    (h : TakesRecord o (s.setPoint pt p) t) (hpt : pt = .shore o ∨ pt = .ship o) :
    MeasuredFrame pt s t := by
  have hset : ∃ f : Measures → Measures, s.setPoint pt p = s.onMu o f := by
    rcases hpt with rfl | rfl
    · exact ⟨fun m => { m with shore := p }, rfl⟩
    · exact ⟨fun m => { m with ship := p }, rfl⟩
  obtain ⟨f, hf⟩ := hset
  have hst := h.station
  rw [hf] at hst
  have hgrid : t.grid = s.grid := hst.grid
  have hwatch : t.gridWatch = s.gridWatch := hst.gridWatch
  refine ⟨fun q hq => (h.point q).trans (s.point_setPoint_ne p hq), ?_, fun hg => ?_,
    fun _ => ⟨hgrid, hwatch⟩, fun q hshore hship hw => ?_⟩
  · exact
      { tb := hst.tb, grid := rfl, gridWatch := rfl, svl := hst.svl, pending := hst.pending
        tripHold := hst.tripHold, commandFrom := hst.commandFrom, limit := hst.limit
        headroom := hst.headroom, importFrom := rfl, importReported := rfl, length := hst.length
        rounding := hst.rounding, bands := hst.bands, enables := hst.enables
        outletEvents := hst.outletEvents, reportOff := hst.reportOff }
  · rcases hpt with rfl | rfl <;> cases hg
  · have hq : q ≠ o := fun e => by
      rcases hpt with rfl | rfl
      · exact hshore (by rw [e])
      · exact hship (by rw [e])
    have hsame : (s.setPoint pt p).berth q = s.berth q := by rw [hf, State.berth_onMu_ne _ _ hq]
    rw [← hsame]
    refine h.berth q hq ?_
    unfold State.waits at hw ⊢
    rwa [hsame]

/-- A record held at a point and taken by the blocks leaves the rest as it was, the passes of the step's end
made. -/
theorem State.takeRecord_frame (s : State) (pt : MeasPoint) (p : PointState) (v : LineVoltages)
    (c : Option CyclePower) :
    MeasuredFrame pt s ((s.setPoint pt p).takeRecord pt v c).settle
      ∧ ((s.setPoint pt p).takeRecord pt v c).settle.point pt = p := by
  cases pt with
  | shore o =>
    have h := ((s.setPoint (.shore o) p).takeShoreRecord_takes o v c).trans (State.settle_takes _ o)
    exact ⟨h.frame (.inl rfl), (h.point _).trans (s.point_setPoint_self _ p)⟩
  | ship o =>
    have h := ((s.setPoint (.ship o) p).takeShipRecord_takes o v c).trans (State.settle_takes _ o)
    exact ⟨h.frame (.inr rfl), (h.point _).trans (s.point_setPoint_self _ p)⟩
  | grid =>
    obtain ⟨u, hu⟩ : ∃ u, u = (s.setPoint .grid p).takeGridRecord := ⟨_, rfl⟩
    show MeasuredFrame .grid s (State.settle (s.setPoint .grid p).takeGridRecord)
      ∧ (State.settle (s.setPoint .grid p).takeGridRecord).grid.point = p
    rw [← hu]
    have h := State.settle_acts ⟨[], [], false, false, []⟩ u
    have hst := h.station
    have hgrid : u.settle.grid = { s.grid with point := p } := hst.grid.trans (by rw [hu]; rfl)
    refine ⟨⟨fun q hq => ?_, ?_, fun _ hpass => ?_, fun hne => absurd rfl hne, fun q _ _ hw => ?_⟩, by
      rw [hgrid]⟩
    · cases q with
      | grid => exact absurd rfl hq
      | shore o => exact (h.inputs o).shore.trans (by rw [hu]; rfl)
      | ship o => exact (h.inputs o).ship.trans (by rw [hu]; rfl)
    · subst hu
      exact
        { tb := hst.tb, grid := rfl, gridWatch := rfl, svl := hst.svl, pending := hst.pending
          tripHold := hst.tripHold, commandFrom := hst.commandFrom, limit := hst.limit
          headroom := hst.headroom, importFrom := rfl, importReported := rfl, length := hst.length
          rounding := hst.rounding, bands := hst.bands, enables := hst.enables
          outletEvents := hst.outletEvents, reportOff := hst.reportOff }
    · have hquiet : u.settle = u := State.settle_of_no_pass (by rw [hu]; exact hpass)
      rw [hquiet, hu]
      rfl
    · subst hu
      exact h.berth q List.not_mem_nil hw

/-! ### The records of a point (R13, R14, R17) -/

theorem PointState.cross_early {p : PointState} {last : TimeStamp} (hp : p.cycle = some last)
    {now : TimeStamp} (h : elapsed now.run last.run < 14286) (nominal : Nat) (v : LineVoltages) :
    p.cross nominal now v = (p, false) := by
  unfold PointState.cross
  rw [hp]
  exact if_pos h

theorem PointState.cross_of_none {p : PointState} (hp : p.cycle = none) (nominal : Nat)
    (now : TimeStamp) (v : LineVoltages) :
    p.cross nominal now v = ({ p with cycle := if p.live then some now else none }, false) := by
  unfold PointState.cross
  rw [hp]

section
variable {p : PointState} {last now : TimeStamp} {nominal : Nat} {v : LineVoltages}

/-- A crossing that ends a cycle at a live voltage. -/
theorem PointState.cross_live (hp : p.cycle = some last) (low : 14286 ≤ elapsed now.run last.run)
    (high : elapsed now.run last.run ≤ 25000) (live : liveThreshold nominal ≤ recordVolts v) :
    p.cross nominal now v
      = ({ p.hold nominal (phasor now (some (cycleFields (elapsed now.run last.run))) v) with
          cycle := some now }, true) := by
  unfold PointState.cross
  rw [hp]
  dsimp only
  rw [if_neg (by omega), if_neg (by omega), if_pos live]

/-- A crossing that ends a cycle at a dead voltage. -/
theorem PointState.cross_dead (hp : p.cycle = some last) (low : 14286 ≤ elapsed now.run last.run)
    (high : elapsed now.run last.run ≤ 25000) (dead : recordVolts v < liveThreshold nominal) :
    p.cross nominal now v = (p.voltageOnly nominal now v, true) := by
  unfold PointState.cross
  rw [hp]
  dsimp only
  rw [if_neg (by omega), if_neg (by omega), if_neg (by omega)]

end

/-- A crossing whose record is made and taken. -/
theorem execZeroCrossing_recorded {s : State} {pt : MeasPoint} {v : LineVoltages} {c : CyclePower}
    {p : PointState} (h : (s.point pt).cross (s.nominalAt pt) s.now v = (p, true)) :
    exec (.zeroCrossing pt v c) s
      = .next ((s.setPoint pt p).takeRecord pt v (some c)).settle := by
  show execZeroCrossing pt v c s = _
  unfold execZeroCrossing
  rw [h]
  rfl

theorem execZeroCrossing_silent {s : State} {pt : MeasPoint} {v : LineVoltages} {c : CyclePower}
    {p : PointState} (h : (s.point pt).cross (s.nominalAt pt) s.now v = (p, false)) :
    exec (.zeroCrossing pt v c) s = .next (s.setPoint pt p) := by
  show execZeroCrossing pt v c s = _
  unfold execZeroCrossing
  rw [h]
  rfl

end Sys2Proof.Machine

namespace Sys2Proof.Proofs

open Machine

/-- Settles O15: the crossing by the cycle in progress, the cadence and the lapse. -/
theorem measuringPointRecords : Obligations.MeasuringPointRecords := by
  refine ⟨fun pt v c s => ⟨fun hnone => ?_, fun last hlast => ⟨fun hearly => ?_, fun low high => ?_⟩⟩,
    fun pt v s i hi => ?_⟩
  · exact execZeroCrossing_silent (PointState.cross_of_none hnone _ _ _)
  · rw [execZeroCrossing_silent (PointState.cross_early hlast hearly _ _), State.setPoint_same]
  · by_cases hlive : liveThreshold (s.nominalAt pt) ≤ recordVolts v
    · obtain ⟨hframe, hpoint⟩ := s.takeRecord_frame pt ({ (s.point pt).hold (s.nominalAt pt) (phasor s.now
        (some (cycleFields (elapsed s.tb.run last.run))) v) with cycle := some s.now }) v (some c)
      refine ⟨_, execZeroCrossing_recorded (PointState.cross_live hlast low high hlive), hframe,
        fun _ => hpoint.trans ?_, fun hdead => absurd hlive (Nat.not_le.mpr hdead)⟩
      show (⟨_, decide (liveThreshold (s.nominalAt pt) ≤ recordVolts v), _, _⟩ : PointState) = _
      rw [decide_eq_true hlive]
      rfl
    · have hdead := Nat.lt_of_not_le hlive
      obtain ⟨hframe, hpoint⟩ := s.takeRecord_frame pt
        ((s.point pt).voltageOnly (s.nominalAt pt) s.now v) v (some c)
      refine ⟨_, execZeroCrossing_recorded (PointState.cross_dead hlast low high hdead), hframe,
        fun h => absurd h hlive, fun _ => hpoint.trans ?_⟩
      show (⟨_, decide (liveThreshold (s.nominalAt pt) ≤ recordVolts v), _, _⟩ : PointState) = _
      rw [decide_eq_false hlive]
      rfl
  · obtain ⟨hframe, hpoint⟩ := s.takeRecord_frame pt
      ((s.point pt).voltageOnly (s.nominalAt pt) s.now v) v none
    refine ⟨_, ?_, hframe, hpoint⟩
    rcases hi with ⟨rfl, hnone⟩ | ⟨rfl, hsome⟩
    · show Host.Outcome.next _ = _
      rw [if_pos (by rw [hnone]; rfl)]
    · show Host.Outcome.next _ = _
      rw [if_pos (Option.isSome_iff_ne_none.mpr hsome)]

end Sys2Proof.Proofs
end

