-- ==== Sys2Proof/Proofs/CycleRecords.lean ====
section
/-! PROOFS. The power and pair records of a cycle, and what MT adds of them (O16). -/

namespace Sys2Proof.Machine

/-! ### What leaves a meter's energies, gap and interval as they were -/

/-- What a meter holds beside its session and its counts of closes and trips. -/
def Meter.measured (m : Meter) : Energy × Energy × Option RunCount × Option RunCount × Interval :=
  (m.imported, m.exported, m.lastRecord, m.gapFrom, m.interval)

/-- What an outlet's meter has measured. -/
def State.measured (s : State) (o : Outlet) :
    Option (Energy × Energy × Option RunCount × Option RunCount × Interval) :=
  (s.berth o).mt.map Meter.measured

theorem SameButPool.measured {s t : State} {o : Outlet} (h : SameButPool (s.berth o) (t.berth o)) :
    t.measured o = s.measured o := by unfold State.measured; rw [h.mt]

section
variable (s : State) (o : Outlet)

theorem State.onBerth_measured {s : State} {o : Outlet} {f : Berth → Berth}
    (h : (f (s.berth o)).mt = (s.berth o).mt) : (s.onBerth o f).measured o = s.measured o := by
  unfold State.measured
  rw [State.berth_onBerth_self, h]

theorem State.moveTo_measured (new : OutletState) (pSet : Nat) :
    (s.moveTo o new pSet).measured o = s.measured o := by
  unfold State.measured
  rw [(s.moveTo_berth_self o new pSet).mt, Berth.takeState_mt]

theorem State.trip_measured (c : Cause) : (s.trip o c).measured o = s.measured o := by
  unfold State.trip
  dsimp only
  have hcount : ∀ u : State, (u.onMt o Meter.countTrip).measured o = u.measured o := fun u => by
    unfold State.measured
    rw [State.berth_onMt_self, Option.map_map]
    rfl
  rw [hcount]
  exact (State.onBerth_measured (f := fun b => { b with pr := b.pr.trip s.tb.run }) rfl).trans
    ((State.onBerth_measured (f := fun b => { b with sc := { b.sc with firstCause := some c } })
      rfl).trans (s.moveTo_measured o _ _))

theorem State.complete_measured (c : Cause) : (s.complete o c).measured o = s.measured o := by
  unfold State.complete
  dsimp only
  split
  · exact s.trip_measured o c
  · split
    · unfold State.laterCause
      split
      · rfl
      · exact State.onBerth_measured rfl
    · rfl

theorem State.enter_measured (new : OutletState) (pSet : Nat) :
    (s.enter o new pSet).measured o = s.measured o := by
  unfold State.enter
  dsimp only
  split
  · exact (State.trip_measured _ o _).trans (s.moveTo_measured o _ _)
  · exact s.moveTo_measured o _ _

theorem State.judgeBuses_measured : (s.judgeBuses o).measured o = s.measured o := by
  have hdead : ∀ u : State, (u.tryDeadBus o).measured o = u.measured o := fun u => by
    unfold State.tryDeadBus
    split
    · exact (State.enter_measured _ o _ _).trans (State.onBerth_measured rfl)
    · rfl
  have henergise : ∀ u : State, (u.judgeEnergising o).measured o = u.measured o := fun u => by
    unfold State.judgeEnergising
    dsimp only
    split
    · exact State.enter_measured _ o _ _
    · rfl
  exact (henergise _).trans (hdead _)

theorem State.capacityChanged_measured : (s.capacityChanged o).measured o = s.measured o := by
  refine (State.judgeBuses_measured _ o).trans
    (((State.servePool_poolOnly _ o).berth o).measured.trans (State.onBerth_measured ?_))
  show ((s.berth o).syCapacity (s.capacity o)).mt = _
  rw [Berth.syCapacity_rest]

theorem State.mpPower_measured (r : PowerRecord) : (s.mpPower o r).measured o = s.measured o := by
  have hjudged := ((s.judgeWatches_poolOnly o r.s).berth o).measured
  unfold State.mpPower
  dsimp only
  split
  · exact (State.capacityChanged_measured _ o).trans
      ((((State.beginVoluntary_poolOnly _ o _).trans (State.shareLoad_poolOnly _ o r)).trans
        (State.tidyWatches_poolOnly _ o)).berth o).measured |>.trans hjudged
  · exact ((State.shareLoad_poolOnly _ o r).berth o).measured.trans hjudged

theorem State.prPower_measured (r : PowerRecord) : (s.prPower o r).measured o = s.measured o := by
  have hjudged : (s.onBerth o fun b => (b.countOverload (s.capacity o) r).judgeCapacityWatches
      (s.capacity o) s.tb.run).measured o = s.measured o := State.onBerth_measured (by
    show ((s.berth o).countOverload (s.capacity o) r).mt = _
    rw [Berth.countOverload_rest])
  unfold State.prPower
  dsimp only
  split
  · exact (State.complete_measured _ o _).trans hjudged
  · exact hjudged

theorem State.scPower_measured (r : PowerRecord) : (s.scPower o r).measured o = s.measured o :=
  State.onBerth_measured (s := { s with account := s.account.judgeImport s.importSum s.tb.run })
    (f := fun b => b.judgeLoad (s.capacity o) r s.tb.run) rfl

theorem State.noteClip_measured (clipped : Bool) :
    (s.noteClip o clipped).measured o = s.measured o := by
  unfold State.noteClip
  dsimp only
  split
  · exact State.onBerth_measured (s := s.raise .measurementClip (.outlet o))
      (f := fun b => { b with mu := { b.mu with clipReported := true } }) rfl
  · rfl

theorem State.judgeShore_measured (r : Phasor) : (s.judgeShore o r).measured o = s.measured o :=
  (State.judgeBuses_measured _ o).trans (s.noteClip_measured o _)

theorem State.judgeShip_measured (r : Phasor) : (s.judgeShip o r).measured o = s.measured o := by
  have hguard : ∀ u : State, (u.prShip o r).measured o = u.measured o := fun u => by
    have hjudged : (u.onBerth o fun b => b.prShipRecord r).measured o = u.measured o :=
      State.onBerth_measured (by rw [Berth.prShipRecord_rest])
    unfold State.prShip
    dsimp only
    split
    · exact (State.complete_measured _ o _).trans hjudged
    · exact hjudged
  exact (State.judgeBuses_measured _ o).trans ((State.onBerth_measured (by
    rw [Berth.syShipRecord_rest])).trans ((hguard _).trans (s.noteClip_measured o _)))

theorem State.takePair_measured : (s.takePair o).measured o = s.measured o := by
  unfold State.takePair
  split
  · rfl
  · exact State.onBerth_measured (by dsimp only; rw [Berth.syPair_rest, Berth.rgPair_rest])

/-! ### The power record taken (R16, R141, R142) -/

/-- What a meter makes of a power record rests on what it has measured. -/
theorem Meter.takePower_congr {m n : Meter} (h : m.measured = n.measured) (r : PowerRecord) :
    (m.takePower r).measured = (n.takePower r).measured := by
  obtain ⟨himp, hexp, hlast, hgap, hint⟩ := (by simpa [Meter.measured] using h :
    m.imported = n.imported ∧ m.exported = n.exported ∧ m.lastRecord = n.lastRecord
      ∧ m.gapFrom = n.gapFrom ∧ m.interval = n.interval)
  unfold Meter.measured Meter.takePower Meter.endGap
  rw [hgap]
  cases n.gapFrom <;> simp only [himp, hexp, hint, hgap]

/-- A power record is kept, and MT alone takes its energy. -/
theorem State.takePower_holds (r : PowerRecord) :
    ((s.takePower o r).berth o).mu.power = some r
      ∧ ((s.takePower o r).berth o).mu.pair = (s.berth o).mu.pair
      ∧ ∀ m : Meter, s.measured o = some m.measured →
          (s.takePower o r).measured o = some (m.takePower r).measured := by
  unfold State.takePower
  dsimp only
  generalize hkept : (s.onMu o fun m => { m with power := some r }).noteClip o r.clipped = kept
  generalize hmet : kept.onMt o (fun m => m.takePower r) = metered
  generalize hloop : metered.onBerth o (fun b => b.powerLoop (s.capacity o) r) = looped
  have hclip := ((s.onMu o fun m => { m with power := some r }).noteClip_record o r.clipped).inputs o
  rw [hkept, State.berth_onMu_self] at hclip
  have hkeptMeter : kept.measured o = s.measured o := by
    rw [← hkept, State.noteClip_measured]
    exact State.onBerth_measured (f := fun b => { b with mu := { b.mu with power := some r } }) rfl
  have hmu : (looped.berth o).mu = (kept.berth o).mu := by
    rw [← hloop, State.berth_onBerth_self, Berth.powerLoop_rest, ← hmet, State.berth_onMt_self]
  have hlast : SameInputs (looped.berth o)
      ((((looped.mpPower o r).prPower o r).scPower o r).berth o) := by
    refine (((looped.mpPower_record o r).inputs o).trans
      ((State.prPower_record _ o r).inputs o)).trans ?_
    unfold State.scPower
    rw [State.berth_onBerth_self]
    exact ⟨rfl, rfl, rfl, rfl, rfl, rfl, rfl, rfl, rfl, rfl, rfl, rfl⟩
  refine ⟨hlast.power.trans ((congrArg (fun m => m.power) hmu).trans hclip.power),
    hlast.pair.trans ((congrArg (fun m => m.pair) hmu).trans hclip.pair), ?_⟩
  intro m hm
  rw [← hkeptMeter] at hm
  obtain ⟨k, hk, hkm⟩ := Option.map_eq_some_iff.mp hm
  have hmetered : metered.measured o = some (m.takePower r).measured := by
    unfold State.measured
    rw [← hmet, State.berth_onMt_self, hk]
    exact congrArg some (Meter.takePower_congr hkm r)
  have hlooped : looped.measured o = metered.measured o := by
    rw [← hloop]
    exact State.onBerth_measured (by rw [Berth.powerLoop_rest])
  rw [State.scPower_measured, State.prPower_measured, State.mpPower_measured, hlooped, hmetered]

end

/-! ### The records of a cycle -/

/-- What the end of a cycle of the reference point makes: the power record kept, and MT's share of it (R16, R141,
R142), the passes of the step's end made. -/
theorem State.powerMade {s u : State} {o : Outlet} (r : PowerRecord) (taken : TakesRecord o s u)
    (same : u.measured o = s.measured o) (hw : s.waits o = false) :
    ((u.takePower o r).settle.berth o).mu.power = some r
      ∧ ((u.takePower o r).settle.berth o).mu.pair = (u.berth o).mu.pair
      ∧ ∀ m, (s.berth o).mt = some m → ∃ m', ((u.takePower o r).settle.berth o).mt = some m'
          ∧ m'.measured = (m.takePower r).measured := by
  have hquiet : ((u.takePower o r).berth o).sc.state ≠ .awaitAuth := by
    have := (u.takePower_takes o r).waits (taken.waits hw)
    exact beq_eq_false_iff_ne.mp this
  have hsettle := State.settle_berth hquiet
  obtain ⟨hpower, hpair, hmeter⟩ := u.takePower_holds o r
  refine ⟨by rw [hsettle.mu]; exact hpower, by rw [hsettle.mu]; exact hpair, fun m hm => ?_⟩
  have h := hmeter m (by rw [same]; unfold State.measured; rw [hm]; rfl)
  rw [← hsettle.measured] at h
  exact Option.map_eq_some_iff.mp h

/-- What MT makes of a power record (R141, R142). -/
theorem Meter.takePower_shows (m : Meter) (r : PowerRecord) {m' : Meter}
    (h : m'.measured = (m.takePower r).measured) :
    m'.imported = { m.imported with
        accumulator := m.imported.accumulator + (if 0 < r.p then r.p.natAbs * r.period else 0)
        total := m.imported.total + (if 0 < r.p then r.p.natAbs * r.period else 0) }
      ∧ m'.exported = { m.exported with
        accumulator := m.exported.accumulator + (if r.p < 0 then r.p.natAbs * r.period else 0)
        total := m.exported.total + (if r.p < 0 then r.p.natAbs * r.period else 0) }
      ∧ m'.lastRecord = some r.stamp.run ∧ m'.gapFrom = none
      ∧ m'.interval.gapMillis = m.interval.gapMillis
        + m.gapFrom.elim 0 fun since => elapsed r.stamp.run since / 1000 := by
  obtain ⟨himp, hexp, hlast, hgap, hint⟩ := (by simpa [Meter.measured] using h :
    m'.imported = (m.takePower r).imported ∧ m'.exported = (m.takePower r).exported
      ∧ m'.lastRecord = (m.takePower r).lastRecord ∧ m'.gapFrom = (m.takePower r).gapFrom
      ∧ m'.interval = (m.takePower r).interval)
  rw [himp, hexp, hlast, hgap, hint]
  have hend : (m.endGap r.stamp.run).imported = m.imported ∧ (m.endGap r.stamp.run).exported = m.exported
      ∧ (m.endGap r.stamp.run).gapFrom = none
      ∧ (m.endGap r.stamp.run).interval.gapMillis = m.interval.gapMillis
        + m.gapFrom.elim 0 fun since => elapsed r.stamp.run since / 1000 := by
    unfold Meter.endGap
    cases hg : m.gapFrom with
    | none => exact ⟨rfl, rfl, hg, rfl⟩
    | some since => exact ⟨rfl, rfl, rfl, rfl⟩
  obtain ⟨himp, hexp, hgap, hmillis⟩ := hend
  refine ⟨?_, ?_, rfl, hgap, ?_⟩
  · show (if 0 < r.p then (m.endGap r.stamp.run).imported.add _ else (m.endGap r.stamp.run).imported) = _
    rw [himp]
    split <;> rfl
  · show (if r.p < 0 then (m.endGap r.stamp.run).exported.add _ else (m.endGap r.stamp.run).exported) = _
    rw [hexp]
    split <;> rfl
  · rw [← hmillis]
    unfold Meter.takePower
    dsimp only
    split <;> rfl

/-- The point after the end of a cycle at a live voltage. -/
def PointState.cycled (p : PointState) (nominal : Nat) (now last : TimeStamp) (v : LineVoltages) :
    PointState :=
  { p.hold nominal (phasor now (some (cycleFields (elapsed now.run last.run))) v) with
    cycle := some now }

theorem PointState.cross_cycled {p : PointState} {last now : TimeStamp} {nominal : Nat}
    {v : LineVoltages} (hp : p.cycle = some last) (low : 14286 ≤ elapsed now.run last.run)
    (high : elapsed now.run last.run ≤ 25000) (live : liveThreshold nominal ≤ recordVolts v) :
    p.cross nominal now v = (p.cycled nominal now last v, true) :=
  PointState.cross_live hp low high live

theorem State.setPoint_waits (s : State) (pt : MeasPoint) (p : PointState) (o : Outlet) :
    (s.setPoint pt p).waits o = s.waits o := by
  have onMu (q : Outlet) (f : Measures → Measures) : (s.onMu q f).waits o = s.waits o := by
    unfold State.waits
    by_cases h : o = q
    · subst h; rw [State.berth_onMu_self]
    · rw [State.berth_onMu_ne _ _ h]
  cases pt with
  | grid => rfl
  | shore q => exact onMu q _
  | ship q => exact onMu q _

theorem State.setPoint_mt (s : State) (pt : MeasPoint) (p : PointState) (o : Outlet) :
    ((s.setPoint pt p).berth o).mt = (s.berth o).mt := by
  have onMu (q : Outlet) (f : Measures → Measures) :
      ((s.onMu q f).berth o).mt = (s.berth o).mt := by
    by_cases h : o = q
    · subst h; rw [State.berth_onMu_self]
    · rw [State.berth_onMu_ne _ _ h]
  cases pt with
  | grid => rfl
  | shore q => exact onMu q _
  | ship q => exact onMu q _

section
variable {s : State} {o : Outlet} {pt : MeasPoint} {v : LineVoltages} (c : CyclePower)
  {last : TimeStamp}

/-- The end of a cycle of Pn, or of Sn while Pn is dead, makes the power record (R16). -/
theorem exec_zeroCrossing_power (hw : s.waits o = false)
    (hpt : pt = .ship o ∨ (pt = .shore o ∧ (s.berth o).mu.ship.live = false))
    (hlast : (s.point pt).cycle = some last) (low : 14286 ≤ elapsed s.tb.run last.run)
    (high : elapsed s.tb.run last.run ≤ 25000)
    (live : s.nominalAt pt / 10 ≤ min 15000 ((v.v12 + v.v23 + v.v31) / 3)) :
    ∃ t, exec (.zeroCrossing pt v c) s = .next t
      ∧ (t.berth o).mu.power = some (powerRecord c v (elapsed s.tb.run last.run) s.now)
      ∧ ∀ m, (s.berth o).mt = some m → ∃ m', (t.berth o).mt = some m'
        ∧ m'.measured
          = (m.takePower (powerRecord c v (elapsed s.tb.run last.run) s.now)).measured := by
  obtain ⟨p, hp⟩ : ∃ p, p = (s.point pt).cycled (s.nominalAt pt) s.now last v := ⟨_, rfl⟩
  have hrun : exec (.zeroCrossing pt v c) s
      = .next ((s.setPoint pt p).takeRecord pt v (some c)).settle := by
    rw [hp]
    exact execZeroCrossing_recorded (PointState.cross_cycled hlast low high live)
  have hpoint := s.point_setPoint_self pt p
  have hnow : (s.setPoint pt p).now = s.now := by cases pt <;> rfl
  have hwaits : (s.setPoint pt p).waits o = false := (s.setPoint_waits pt p o).trans hw
  have hrecord : p.record = some (phasor s.now (some (cycleFields (elapsed s.tb.run last.run))) v) := by
    rw [hp]; rfl
  refine ⟨_, hrun, ?_⟩
  rw [← s.setPoint_mt pt p o, ← hnow]
  generalize hheld : s.setPoint pt p = held at *
  rcases hpt with rfl | ⟨rfl, hdead⟩
  · have hr : (held.berth o).mu.ship.record
        = some (phasor s.now (some (cycleFields (elapsed s.tb.run last.run))) v) :=
      (congrArg PointState.record hpoint).trans hrecord
    have e : held.takeRecord (.ship o) v (some c) = _ := State.takeShipRecord_of_cycle hr rfl v c
    rw [e]
    obtain ⟨hpower, -, hmeter⟩ := State.powerMade _
      (((held.judgeShip_record o _).takesRecord rfl rfl).trans (State.takePair_takes _ o))
      ((State.takePair_measured _ o).trans (held.judgeShip_measured o _)) hwaits
    exact ⟨hpower, hmeter⟩
  · have hr : (held.berth o).mu.shore.record
        = some (phasor s.now (some (cycleFields (elapsed s.tb.run last.run))) v) :=
      (congrArg PointState.record hpoint).trans hrecord
    have hship : (held.berth o).mu.ship.live = false := by
      have := s.point_setPoint_ne (pt := .shore o) (q := .ship o) p nofun
      rw [hheld] at this
      exact (congrArg PointState.live this).trans hdead
    have e : held.takeRecord (.shore o) v (some c) = _ :=
      State.takeShoreRecord_of_cycle hr rfl hship v c
    rw [e]
    obtain ⟨hpower, -, hmeter⟩ := State.powerMade _ ((held.judgeShore_record o _).takesRecord rfl rfl)
      (held.judgeShore_measured o _) hwaits
    exact ⟨hpower, hmeter⟩

theorem State.takePair_pair {r : PairRecord} (h : (s.berth o).mu.pairRecord = some r) :
    ((s.takePair o).berth o).mu.pair = some r := by
  unfold State.takePair
  rw [h]
  dsimp only
  rw [State.berth_onBerth_self, Berth.syPair_rest, Berth.rgPair_rest]

theorem Measures.pairRecord_of {m : Measures} {rp rs : Phasor} {cp cs : CycleFields}
    {lastS : TimeStamp} (hrp : m.ship.record = some rp) (hcp : rp.cycle = some cp)
    (hrs : m.shore.record = some rs) (hcs : rs.cycle = some cs) (hlast : m.shore.cycle = some lastS) :
    m.pairRecord = some { fS := cs.freq, vS := rs.voltage, fP := cp.freq, vP := rp.voltage
                          period := cp.period, stamp := rp.stamp
                          theta := pairAngle (elapsed rp.stamp.run lastS.run) cs.period } := by
  unfold Measures.pairRecord
  rw [hrp, hrs, hlast]
  dsimp only
  rw [hcp, hcs]

/-- The end of a cycle of Pn, with a cycle record of Sn and a cycle of it in progress, makes the pair record
(R15). -/
theorem exec_zeroCrossing_pair {rs : Phasor} {cs : CycleFields} {lastS : TimeStamp}
    (hw : s.waits o = false) (hlast : (s.berth o).mu.ship.cycle = some last)
    (low : 14286 ≤ elapsed s.tb.run last.run) (high : elapsed s.tb.run last.run ≤ 25000)
    (live : (s.berth o).nominalVolts / 10 ≤ min 15000 ((v.v12 + v.v23 + v.v31) / 3))
    (hrs : (s.berth o).mu.shore.record = some rs) (hcs : rs.cycle = some cs)
    (hlastS : (s.berth o).mu.shore.cycle = some lastS) :
    ∃ t, exec (.zeroCrossing (.ship o) v c) s = .next t
      ∧ (t.berth o).mu.pair = some
        { fS := cs.freq, vS := rs.voltage, fP := 1000000000 / elapsed s.tb.run last.run
          vP := min 15000 ((v.v12 + v.v23 + v.v31) / 3), period := elapsed s.tb.run last.run
          stamp := s.now, theta := pairAngle (elapsed s.tb.run lastS.run) cs.period } := by
  obtain ⟨p, hp⟩ : ∃ p, p = (s.point (.ship o)).cycled (s.nominalAt (.ship o)) s.now last v :=
    ⟨_, rfl⟩
  have hrun : exec (.zeroCrossing (.ship o) v c) s
      = .next ((s.setPoint (.ship o) p).takeRecord (.ship o) v (some c)).settle := by
    rw [hp]
    exact execZeroCrossing_recorded (PointState.cross_cycled hlast low high live)
  refine ⟨_, hrun, ?_⟩
  have hpoint := s.point_setPoint_self (.ship o) p
  have hshore := s.point_setPoint_ne (pt := .ship o) (q := .shore o) p nofun
  have hwaits : (s.setPoint (.ship o) p).waits o = false := (s.setPoint_waits _ p o).trans hw
  have hrecord : p.record = some (phasor s.now (some (cycleFields (elapsed s.tb.run last.run))) v) := by
    rw [hp]; rfl
  generalize s.setPoint (.ship o) p = held at *
  have hr : (held.berth o).mu.ship.record
      = some (phasor s.now (some (cycleFields (elapsed s.tb.run last.run))) v) :=
    (congrArg PointState.record hpoint).trans hrecord
  have e : held.takeRecord (.ship o) v (some c) = _ := State.takeShipRecord_of_cycle hr rfl v c
  rw [e]
  have hjudged := held.judgeShip_record o (phasor s.now (some (cycleFields (elapsed s.tb.run last.run))) v)
  have hkept := hjudged.inputs o
  obtain ⟨-, hpair, -⟩ := State.powerMade (powerRecord c v (cycleFields (elapsed s.tb.run last.run)).period
      held.now) ((hjudged.takesRecord rfl rfl).trans (State.takePair_takes _ o))
    ((State.takePair_measured _ o).trans (held.judgeShip_measured o _)) hwaits
  have hshipRecord := (congrArg PointState.record hkept.ship).trans hr
  have hshoreRecord := ((congrArg PointState.record hkept.shore).trans
    (congrArg PointState.record hshore)).trans hrs
  have hshoreCycle := ((congrArg PointState.cycle hkept.shore).trans
    (congrArg PointState.cycle hshore)).trans hlastS
  have hmade := Measures.pairRecord_of hshipRecord rfl hshoreRecord hcs hshoreCycle
  exact hpair.trans (State.takePair_pair hmade)

end

theorem pairAngle_range (deltaT period : Nat) : -1800 ≤ pairAngle deltaT period
    ∧ pairAngle deltaT period ≤ 1799
    ∧ ∃ k : Int, pairAngle deltaT period + 3600 * k = ((deltaT * 3600 / period : Nat) : Int) := by
  unfold pairAngle
  dsimp only
  generalize deltaT * 3600 / period = n
  split
  · exact ⟨by omega, by omega, (n / 3600 : Nat), by omega⟩
  · exact ⟨by omega, by omega, (n / 3600 : Nat) + 1, by omega⟩

end Sys2Proof.Machine

namespace Sys2Proof.Proofs

open Machine

/-- Settles O16: the power record of the reference point's cycle, and the pair record of a cycle of Pn. -/
theorem cyclesMakePowerAndPairRecords : Obligations.CyclesMakePowerAndPairRecords := by
  refine ⟨fun o pt v c s last watts vars p va hw hpt hlast low high live hwatts hvars hva hp => ?_,
    fun o v c s last lastS rs cs hw hlast low high live hrs hcs hlastS => ?_⟩
  · obtain ⟨r, hr⟩ : ∃ r, r = powerRecord c v (elapsed s.tb.run last.run) s.now := ⟨_, rfl⟩
    obtain ⟨t, ht, hpower, hmeter⟩ : ∃ t, exec (.zeroCrossing pt v c) s = .next t
        ∧ (t.berth o).mu.power = some r
        ∧ ∀ m, (s.berth o).mt = some m → ∃ m', (t.berth o).mt = some m'
          ∧ m'.measured = (m.takePower r).measured := by
      rw [hr]
      exact exec_zeroCrossing_power c hw hpt hlast low high live
    have hp' : c.p = watts := hwatts.symm
    have hq' : c.q = vars := hvars.symm
    have hs' : c.s = va := (CyclePower.s_eq_rms_products c).trans hva.symm
    have hrp : r.p = p := by rw [hr, hp, ← hp']; exact saturate_eq _ _
    have hrq : r.q = max (-30000000) (min 30000000 vars) := by rw [hr, ← hq']; exact saturate_eq _ _
    refine ⟨t, r, ht, hpower, hrp, hrq, ?_, by rw [hr]; rfl, by rw [hr]; rfl,
      fun hwp hqv hle => ?_, fun m hm => ?_⟩
    · rw [← hrp, ← hs', hr]; rfl
    · have hpSame : r.p = c.p := hrp.trans (hwp.symm.trans hp'.symm)
      have hqSame : r.q = c.q := hqv.trans hq'.symm
      rw [hr] at hpSame hqSame ⊢
      show (c.clipped || v.clipped
        || decide ((powerRecord c v (elapsed s.tb.run last.run) s.now).p ≠ c.p)
        || decide ((powerRecord c v (elapsed s.tb.run last.run) s.now).q ≠ c.q)
        || decide (30000000 < c.s)) = _
      rw [decide_eq_false (not_not.mpr hpSame), decide_eq_false (not_not.mpr hqSame),
        decide_eq_false (by rw [hs']; omega), Bool.or_false, Bool.or_false, Bool.or_false]
    · obtain ⟨m', hm', hsame⟩ := hmeter m hm
      obtain ⟨himp, hexp, hrec, hgap, hmillis⟩ := m.takePower_shows r hsame
      rw [hrp] at himp hexp
      have hstamp : r.stamp.run = s.tb.run := by rw [hr]; rfl
      rw [hstamp] at hrec hmillis
      refine ⟨m', hm', himp, hexp, hrec, hgap, hmillis.trans ?_⟩
      cases m.gapFrom <;> rfl
  · obtain ⟨t, ht, hpair⟩ := exec_zeroCrossing_pair (v := v) c hw hlast low high live hrs hcs hlastS
    obtain ⟨hlow, hhigh, hmod⟩ := pairAngle_range (elapsed s.tb.run lastS.run) cs.period
    exact ⟨t, _, ht, hpair, rfl, rfl, rfl, rfl, rfl, rfl, hlow, hhigh, hmod⟩

end Sys2Proof.Proofs
end


-- ==== Sys2Proof/Proofs/PoolDuties.lean ====
section
/-! PROOFS. What the pool's judgements of needs, the arbitration and the handling of other outlets leave of
an outlet's part of the pool: its hold time, a voluntary stop that stands, and watches at zero
(`KeepsDuties`); and the command records of R20. -/

namespace Sys2Proof.Machine

open Sys2Proof

/-! ### The duties of an outlet's pool -/

/-- What is left of an outlet's part of the pool where the outlet itself is not handled. -/
structure KeepsDuties (o : Outlet) (s t : State) : Prop where
  state : (t.berth o).sc.state = (s.berth o).sc.state
  hold : (t.berth o).mp.hold = (s.berth o).mp.hold
  growFrom : (s.berth o).mp.growFrom = none → (t.berth o).mp.growFrom = none
  shrinkFrom : (s.berth o).mp.shrinkFrom = none → (t.berth o).mp.shrinkFrom = none
  voluntary : ∀ v, (s.berth o).mp.voluntary = some v → s.voluntaryStands o v = true →
    (t.berth o).mp.voluntary = some v
  module : ∀ m, (s.module m).outlet = some o → (s.module m).state ≠ .idle → t.module m = s.module m
  unit : ∀ u, s.pool.unit = some u → u.outlet = o → t.pool.unit = some u

theorem State.voluntaryStands_module {s : State} {o : Outlet} {v : VoluntaryStop}
    (h : s.voluntaryStands o v = true) :
    (s.module v.module).outlet = some o ∧ (s.module v.module).state ≠ .idle := by
  unfold State.voluntaryStands at h
  split at h
  · obtain ⟨hs, ho⟩ : (s.module v.module).state = .stopping ∧ (s.module v.module).outlet = some o := by
      simpa [Module.inStateAt] using h
    exact ⟨ho, by simp [hs]⟩
  · obtain ⟨-, hs, ho⟩ : (s.berth o).sc.state = .shoreSupply ∧ (s.module v.module).state = .running
        ∧ (s.module v.module).outlet = some o := by
      simpa [Module.inStateAt] using h
    exact ⟨ho, by simp [hs]⟩

theorem KeepsDuties.stands {o : Outlet} {s t : State} (h : KeepsDuties o s t) {v : VoluntaryStop}
    (hv : s.voluntaryStands o v = true) : t.voluntaryStands o v = true := by
  obtain ⟨ho, hi⟩ := State.voluntaryStands_module hv
  unfold State.voluntaryStands at hv ⊢
  rwa [h.module _ ho hi, h.state]

theorem KeepsDuties.refl (o : Outlet) (s : State) : KeepsDuties o s s :=
  ⟨rfl, rfl, id, id, fun _ h _ => h, fun _ _ _ => rfl, fun _ h _ => h⟩

theorem KeepsDuties.trans {o : Outlet} {s t u : State} (h : KeepsDuties o s t)
    (g : KeepsDuties o t u) : KeepsDuties o s u :=
  ⟨g.state.trans h.state, g.hold.trans h.hold, fun e => g.growFrom (h.growFrom e),
    fun e => g.shrinkFrom (h.shrinkFrom e),
    fun v e st => g.voluntary v (h.voluntary v e st) (h.stands st),
    fun m ho hi => (g.module m (by rw [h.module m ho hi]; exact ho)
      (by rw [h.module m ho hi]; exact hi)).trans (h.module m ho hi),
    fun u hu ho => g.unit u (h.unit u hu ho) ho⟩

/-- The outlet's berth is as it was, and the modules that it has. -/
theorem KeepsDuties.of_same {o : Outlet} {s t : State} (berth : t.berth o = s.berth o)
    (module : ∀ m, (s.module m).outlet = some o → (s.module m).state ≠ .idle →
      t.module m = s.module m) (unit : t.pool.unit = s.pool.unit := by rfl) : KeepsDuties o s t :=
  ⟨by rw [berth], by rw [berth], fun h => by rw [berth]; exact h, fun h => by rw [berth]; exact h,
    fun v h _ => by rw [berth]; exact h, module, fun u hu _ => unit.trans hu⟩

theorem KeepsDuties.onBerth_ne {o p : Outlet} (h : o ≠ p) (s : State) (f : Berth → Berth) :
    KeepsDuties o s (s.onBerth p f) :=
  .of_same (State.berth_onBerth_ne _ _ h) fun _ _ _ => rfl

theorem KeepsDuties.onMp_ne {o p : Outlet} (h : o ≠ p) (s : State) (f : OutletPool → OutletPool) :
    KeepsDuties o s (s.onMp p f) := .onBerth_ne h s _

/-- A change of an outlet's pool that keeps its hold time, starts no watch, and drops a voluntary stop
only where it stands no longer. -/
theorem KeepsDuties.onMp (o p : Outlet) (s : State) (f : OutletPool → OutletPool)
    (hold : (f (s.berth p).mp).hold = (s.berth p).mp.hold)
    (grow : (s.berth p).mp.growFrom = none → (f (s.berth p).mp).growFrom = none)
    (shrink : (s.berth p).mp.shrinkFrom = none → (f (s.berth p).mp).shrinkFrom = none)
    (voluntary : ∀ v, (s.berth p).mp.voluntary = some v → s.voluntaryStands p v = true →
      (f (s.berth p).mp).voluntary = some v) : KeepsDuties o s (s.onMp p f) := by
  by_cases h : o = p
  · subst h
    refine ⟨by rw [State.sc_onMp], ?_, ?_, ?_, ?_, fun _ _ _ => rfl, fun _ h _ => h⟩ <;> rw [State.berth_onMp_self]
    · exact hold
    · exact grow
    · exact shrink
    · exact voluntary
  · exact .onMp_ne h s f

theorem State.tidyWatches_duties (o p : Outlet) (s : State) : KeepsDuties o s (s.tidyWatches p) := by
  unfold State.tidyWatches
  refine KeepsDuties.trans (.onMp o p s _ rfl id id fun v hv hs => ?_) (.onMp o p _ _ rfl ?_ ?_ ?_)
  · rw [hv]; exact Option.filter_some_pos hs
  · intro h; dsimp only; split
    · exact h
    · rfl
  · intro h; dsimp only; split
    · exact h
    · rfl
  · exact fun v hv _ => hv

theorem State.judgeNeed_duties (o p : Outlet) (s : State) : KeepsDuties o s (s.judgeNeed p) := by
  unfold State.judgeNeed
  refine KeepsDuties.trans ?_ (State.tidyWatches_duties _ _ _)
  have request (cls : RequestClass) : KeepsDuties o s (s.onMp p fun q => q.request cls s.now) := by
    refine .onMp o p s _ ?_ ?_ ?_ fun v hv _ => ?_ <;> unfold OutletPool.request <;> split <;>
      first | rfl | exact id | exact hv
  split
  · exact .onMp o p s _ rfl id id fun _ h _ => h
  · split
    · split
      · exact .onMp o p s _ rfl id id fun _ h _ => h
      · split
        · exact request _
        · exact .refl _ _
    · exact .onMp o p s _ rfl id id fun _ h _ => h

theorem KeepsDuties.changeModule {o : Outlet} {s : State} {m : ModuleNo} (f : Module → Module)
    (h : (s.module m).outlet ≠ some o ∨ (s.module m).state = .idle) :
    KeepsDuties o s (s.changeModule m f) := by
  refine .of_same rfl fun n ho hi => State.module_changeModule_ne _ _ fun e => ?_
  subst e
  exact h.elim (fun h => h ho) hi

theorem KeepsDuties.startModule {s : State} {m : ModuleNo} {p : Outlet} {e : PendingEntry}
    (o : Outlet) (h : (s.module m).state = .idle) (free : s.pool.unit = none) :
    KeepsDuties o s (s.startModule m p e) :=
  (KeepsDuties.changeModule (fun r => r.begin p (s.formsBus p)) (.inr h)).trans
    ⟨rfl, rfl, id, id, fun _ h _ => h, fun _ _ _ => rfl, fun _ hu _ => by
      rw [show (s.changeModule m _).pool.unit = s.pool.unit from rfl, free] at hu
      cases hu⟩

/-! ### What the pool serves -/

/-- A change of an outlet's modules changes nothing but module records. -/
theorem State.changeModulesAt_rest (s : State) (o : Outlet) (states : List ModuleState)
    (f : Module → Module) : ∃ modules due, s.changeModulesAt o states f
      = { s with pool := { s.pool with modules := modules }, passDue := due } := by
  suffices ∀ (l : List ModuleNo) (t : State), ∃ modules due,
      l.foldl (fun t m => t.changeModule m f) t
        = { t with pool := { t.pool with modules := modules }, passDue := due } from this _ _
  intro l
  induction l with
  | nil => exact fun t => ⟨_, _, rfl⟩
  | cons m l ih =>
    intro t
    obtain ⟨modules, due, h⟩ := ih (t.changeModule m f)
    exact ⟨modules, due, h⟩

theorem State.berth_changeModulesAt (s : State) (o p : Outlet) (states : List ModuleState)
    (f : Module → Module) : (s.changeModulesAt o states f).berth p = s.berth p := by
  obtain ⟨modules, due, h⟩ := s.changeModulesAt_rest o states f
  rw [h]; rfl

theorem State.unit_changeModulesAt (s : State) (o : Outlet) (states : List ModuleState)
    (f : Module → Module) : (s.changeModulesAt o states f).pool.unit = s.pool.unit := by
  obtain ⟨modules, due, h⟩ := s.changeModulesAt_rest o states f
  rw [h]

theorem KeepsDuties.changeModulesAt {o p : Outlet} (h : o ≠ p) (s : State)
    (states : List ModuleState) (f : Module → Module) :
    KeepsDuties o s (s.changeModulesAt p states f) := by
  refine .of_same (State.berth_changeModulesAt _ _ _ _ _) (fun m ho _ => ?_)
    (State.unit_changeModulesAt _ _ _ _)
  rw [State.module_changeModulesAt, if_neg]
  simp [Module.assignedTo, ho, h]

/-- The pool's operations and those of other outlets: the duties of the outlets of a list are kept, no
module comes to IDLE, and the pre-charge unit serves the module that it served or one that was IDLE. -/
structure PoolServes (os : List Outlet) (s t : State) : Prop where
  duties : ∀ o ∈ os, KeepsDuties o s t
  idle : ∀ m, (t.module m).state = .idle → (s.module m).state = .idle
  unit : ∀ u, t.pool.unit = some u → (∃ v, s.pool.unit = some v ∧ v.module = u.module)
    ∨ (s.module u.module).state = .idle

theorem PoolServes.of_pool {os : List Outlet} {s t : State} (pool : t.pool = s.pool)
    (duties : ∀ o ∈ os, KeepsDuties o s t) : PoolServes os s t :=
  ⟨duties, fun m h => by unfold State.module at h ⊢; rwa [pool] at h,
    fun u h => .inl ⟨u, by rwa [pool] at h, rfl⟩⟩

theorem PoolServes.refl (os : List Outlet) (s : State) : PoolServes os s s :=
  .of_pool rfl fun o _ => .refl o s

theorem PoolServes.trans {os : List Outlet} {s t u : State} (h : PoolServes os s t)
    (g : PoolServes os t u) : PoolServes os s u := by
  refine ⟨fun o ho => (h.duties o ho).trans (g.duties o ho), fun m hm => h.idle m (g.idle m hm),
    fun x hx => ?_⟩
  obtain ⟨v, hv, e⟩ | hi := g.unit x hx
  · rw [← e]; exact h.unit v hv
  · exact .inr (h.idle _ hi)

theorem PoolServes.onBerth {os : List Outlet} {p : Outlet} (h : p ∉ os) (s : State)
    (f : Berth → Berth) : PoolServes os s (s.onBerth p f) :=
  .of_pool rfl fun _ ho => KeepsDuties.onBerth_ne (ne_of_mem_of_not_mem ho h) s f

theorem PoolServes.onSc {os : List Outlet} {p : Outlet} (h : p ∉ os) (s : State)
    (f : OutletRecord → OutletRecord) : PoolServes os s (s.onSc p f) := .onBerth h s _

theorem PoolServes.onMp {os : List Outlet} {p : Outlet} (h : p ∉ os) (s : State)
    (f : OutletPool → OutletPool) : PoolServes os s (s.onMp p f) := .onBerth h s _

theorem PoolServes.of_frame {os : List Outlet} {s t : State} (pool : t.pool = s.pool)
    (berths : t.berths = s.berths) : PoolServes os s t :=
  .of_pool pool fun o _ => .of_same (by unfold State.berth; rw [berths])
    (fun m _ _ => by unfold State.module; rw [pool]) (by rw [pool])

theorem State.judgeNeed_serves (os : List Outlet) (s : State) (p : Outlet) :
    PoolServes os s (s.judgeNeed p) :=
  .of_pool (State.judgeNeed_pool s p) fun o _ => State.judgeNeed_duties o p s

theorem State.arbitrate_serves (os : List Outlet) (s : State) : PoolServes os s s.arbitrate := by
  unfold State.arbitrate
  split
  · split
    · exact .refl _ _
    · rename_i p e free _ _ m hm
      have hi := s.chooseModule_idle _ _ hm
      have cleared : PoolServes os s (s.onMp p fun q => { q with entry := none }) :=
        .of_pool rfl fun o _ => .onMp o p s _ rfl id id fun _ h _ => h
      refine (cleared.trans ⟨fun o _ => KeepsDuties.startModule o hi free, fun n hn => ?_, fun u hu => ?_⟩).trans
        (State.judgeNeed_serves os _ p)
      · by_cases h : n = m
        · exact h ▸ hi
        · rwa [State.module_startModule_ne _ _ _ h] at hn
      · obtain rfl := Option.some.inj hu
        exact .inr hi
  · exact .refl _ _

theorem State.servePool_serves (os : List Outlet) (s : State) (p : Outlet) :
    PoolServes os s (s.servePool p) :=
  (State.judgeNeed_serves os s p).trans (State.arbitrate_serves os _)

theorem State.changeModulesAt_serves {os : List Outlet} {p : Outlet} (h : p ∉ os) (s : State)
    (states : List ModuleState) {f : Module → Module} (hf : ∀ x, (f x).state ≠ .idle) :
    PoolServes os s (s.changeModulesAt p states f) := by
  refine ⟨fun o ho => KeepsDuties.changeModulesAt (ne_of_mem_of_not_mem ho h) s states f, fun m hm => ?_,
    fun u hu => .inl ⟨u, by rwa [State.unit_changeModulesAt] at hu, rfl⟩⟩
  rw [State.module_changeModulesAt] at hm
  split at hm
  · exact absurd hm (hf _)
  · exact hm

theorem State.endStarts_serves {os : List Outlet} {p : Outlet} (h : p ∉ os) (s : State) :
    PoolServes os s (s.endStarts p) := by
  refine (State.changeModulesAt_serves h s [.starting] (f := fun m => m.endStart s.tb.run)
    fun x => by simp [Module.endStart]).trans
    ⟨fun o ho => ⟨rfl, rfl, id, id, fun _ h _ => h, fun _ _ _ => rfl, fun u hu hou => ?_⟩,
      fun _ h => h, fun u hu => ?_⟩
  · show Option.map _ (State.pool _).unit = some u
    rw [hu, Option.map_some, if_neg (by rw [hou]; exact ne_of_mem_of_not_mem ho h)]
  obtain ⟨v, hv, rfl⟩ := Option.map_eq_some_iff.mp hu
  refine .inl ⟨v, hv, ?_⟩
  split <;> rfl

theorem State.stopModules_serves {os : List Outlet} {p : Outlet} (h : p ∉ os) (s : State)
    (states : List ModuleState) : PoolServes os s (s.stopModules p states) :=
  State.changeModulesAt_serves h s states fun x => by simp [Module.beginStop]

theorem State.poolTakesState_serves {os : List Outlet} {p : Outlet} (h : p ∉ os) (s : State)
    (old new : OutletState) : PoolServes os s (s.poolTakesState p old new) := by
  unfold State.poolTakesState
  refine PoolServes.trans ?_ (State.servePool_serves _ _ _)
  have ended : PoolServes os s (if new.requests then s else s.endStarts p) := by
    split
    · exact .refl _ _
    · exact State.endStarts_serves h s
  generalize (if new.requests then s else s.endStarts p) = s1 at ended
  have unheld (s2 : State) (g : PoolServes os s s2) : PoolServes os s
      (if old = OutletState.tripped then s2.onMp p fun q => { q with hold := none } else s2) := by
    split
    · exact g.trans (.onMp h _ _)
    · exact g
  apply unheld
  split
  · refine ended.trans ?_
    unfold State.holdModules
    dsimp only
    split
    · exact ((State.changeModulesAt_serves h _ _ fun x => by simp).trans
        (State.stopModules_serves h _ _)).trans (.onMp h _ _)
    · exact (State.changeModulesAt_serves h _ _ fun x => by simp).trans (.onMp h _ _)
  · exact ended.trans (State.stopModules_serves h _ _)
  · split
    · refine ended.trans ?_
      unfold State.rejoinModules
      split
      · exact State.changeModulesAt_serves h _ _ fun x => by simp
      · exact .refl _ _
    · exact ended
  all_goals exact ended

theorem State.moveTo_serves {os : List Outlet} {p : Outlet} (h : p ∉ os) (s : State)
    (new : OutletState) (pSet : Nat) : PoolServes os s (s.moveTo p new pSet) := by
  unfold State.moveTo
  dsimp only
  refine PoolServes.trans ((PoolServes.onBerth h s fun b =>
    b.takeState new pSet s.now (decide (s.capacity p < (s.berth p).sc.target))).trans
      (State.poolTakesState_serves h _ (s.berth p).sc.state new)) ?_
  exact .of_frame (State.reportState_pool _ _ _) (State.reportState_berths _ _ _)

theorem State.openSession_serves {os : List Outlet} {p : Outlet} (h : p ∉ os) (s : State)
    (d : Declaration) (place : Nat) : PoolServes os s (s.openSession p d place) := by
  unfold State.openSession
  dsimp only
  let taken : State := { s with account := { s.account with
    places := s.account.places.set place none
    sessionCounter := nextSession s.account.sessionCounter } }
  have numbered : PoolServes os s taken := .of_frame rfl rfl
  exact (((numbered.trans (.onSc h _ _)).trans (.onBerth h _ _)).trans (.onBerth h _ _)).trans
    ((State.moveTo_serves h _ _ _).trans (.of_frame rfl rfl))

/-- A pass leaves the duties of the outlets that do not wait. -/
theorem State.evaluate_serves {os : List Outlet} {s : State} (h : ∀ o ∈ os, s.waits o = false)
    (p : Outlet) : PoolServes os s (s.evaluate p) := by
  unfold State.evaluate
  dsimp only
  split
  · rename_i d hst _
    have hne : p ∉ os := fun hp => by
      have := h p hp
      simp [State.waits, of_decide_eq_true hst] at this
    split
    · exact (State.moveTo_serves hne s .cableProven 0).trans (.onSc hne _ _)
    · split
      · exact .onSc hne _ _
      · split
        · exact .onSc hne _ _
        · split
          · exact .onSc hne _ _
          · exact State.openSession_serves hne _ _ _
  · exact .refl _ _

/-- Outlets that did not wait do not wait still. -/
theorem PoolServes.waits {os : List Outlet} {s t : State} (h : PoolServes os s t)
    (hw : ∀ o ∈ os, s.waits o = false) : ∀ o ∈ os, t.waits o = false := fun o ho => by
  have := hw o ho
  unfold State.waits at this ⊢
  rwa [(h.duties o ho).state]

theorem State.foldl_evaluate_serves {os : List Outlet} (l : List Outlet) {s : State}
    (h : ∀ o ∈ os, s.waits o = false) : PoolServes os s (l.foldl State.evaluate s) := by
  induction l generalizing s with
  | nil => exact .refl _ _
  | cons p l ih =>
    have first := State.evaluate_serves h p
    exact first.trans (ih (first.waits h))

theorem State.settle_serves {os : List Outlet} {s : State} (h : ∀ o ∈ os, s.waits o = false) :
    PoolServes os s s.settle := by
  unfold State.settle
  generalize 5 = n
  induction n generalizing s with
  | zero => exact .of_frame rfl rfl
  | succ n ih =>
    unfold State.passes
    split
    · have one : PoolServes os s s.pass :=
        (PoolServes.of_frame (s := s) (t := { s with passDue := false }) rfl rfl).trans
          (State.foldl_evaluate_serves _ h)
      exact one.trans (ih (one.waits h))
    · exact .refl _ _

theorem State.settle_duties {o : Outlet} {s : State} (h : s.waits o = false) :
    KeepsDuties o s s.settle :=
  (State.settle_serves (os := [o]) fun p hp => by rwa [List.mem_singleton.mp hp]).duties o
    List.mem_cons_self

/-! ### Command records (R20) -/

/-- The record with the command that Table 2-3 gives it as the one sent. -/
def Module.commanded (m : Module) (refs : Int → Option References) : Module :=
  { m with sent := (m.commandRecord refs).or m.sent }

theorem State.onModule_congr {s : State} {m : ModuleNo} {f g : Module → Module}
    (h : f (s.module m) = g (s.module m)) : s.onModule m f = s.onModule m g := by
  unfold State.module at h
  unfold State.onModule
  rw [h]

theorem State.onModule_unchanged {s : State} {m : ModuleNo} {f : Module → Module}
    (h : f (s.module m) = s.module m) : s.onModule m f = s := by
  have same : s.pool.modules.set m (s.module m) = s.pool.modules := by cases m <;> rfl
  unfold State.module at h same
  unfold State.onModule
  rw [h, same]

theorem State.sendCommand_eq (s : State) (m : ModuleNo) : s.sendCommand m
    = s.onModule m fun x => x.commanded (s.referencesFor x) := by
  unfold State.sendCommand
  split
  · rename_i c hc
    exact State.onModule_congr (by unfold Module.commanded; rw [hc]; rfl)
  · rename_i hc
    exact (State.onModule_unchanged (by unfold Module.commanded; rw [hc]; rfl)).symm

theorem State.foldl_onModule_rest (f : Module → Module) (l : List ModuleNo) (s : State) :
    ∃ modules, l.foldl (fun t m => t.onModule m f) s
      = { s with pool := { s.pool with modules := modules } } := by
  induction l generalizing s with
  | nil => exact ⟨_, rfl⟩
  | cons m l ih =>
    obtain ⟨modules, h⟩ := ih (s.onModule m f)
    exact ⟨modules, h⟩

/-- The references come from the outlets alone, so that the order of the modules does not matter. -/
theorem State.sendCommands_eq (l : List ModuleNo) (s : State) : l.foldl State.sendCommand s
    = l.foldl (fun t m => t.onModule m fun x => x.commanded (s.referencesFor x)) s := by
  suffices ∀ t : State, t.berths = s.berths → l.foldl State.sendCommand t
      = l.foldl (fun t m => t.onModule m fun x => x.commanded (s.referencesFor x)) t from this s rfl
  induction l with
  | nil => exact fun _ _ => rfl
  | cons m l ih =>
    intro t ht
    have refs : t.referencesFor = s.referencesFor := by
      unfold State.referencesFor State.berth; rw [ht]
    rw [List.foldl_cons, List.foldl_cons, State.sendCommand_eq, refs]
    exact ih _ ht

theorem ModuleNo.mem_all (m : ModuleNo) : m ∈ ModuleNo.all := by cases m <;> decide

theorem execCommandRecord_sends (s : State) : ∃ modules : Dozen Module,
    execCommandRecord s
        = .next { s with pool := { s.pool with modules := modules, commandFrom := s.tb.run } }
      ∧ ∀ m, modules.get m = (s.module m).commanded (s.referencesFor (s.module m)) := by
  obtain ⟨modules, h⟩ := State.foldl_onModule_rest (fun x => x.commanded (s.referencesFor x))
    ModuleNo.all s
  refine ⟨modules, ?_, fun m => ?_⟩
  · show Host.Outcome.next _ = _
    rw [State.sendCommands_eq, h]
  · have at_m := State.module_foldl_onModule (fun x => x.commanded (s.referencesFor x))
      ModuleNo.all ModuleNo.all_nodup s m
    rw [h, if_pos (ModuleNo.mem_all m)] at at_m
    exact at_m

theorem Module.commanded_sent {m : Module} {refs : Int → Option References} {c : CommandRecord}
    (h : m.commandRecord refs = some c) : (m.commanded refs).sent = some c := by
  unfold Module.commanded; rw [h]; rfl

end Sys2Proof.Machine

namespace Sys2Proof.Proofs
open Machine

/-- Settles O21: each module is sent the record of Table 2-3, the 5 s command STOP, NORMAL, and the hold
time's expiry stops the HELD modules. -/
theorem commandRecordsAndHolds : Obligations.CommandRecordsAndHolds := by
  refine ⟨⟨fun s => ?_, fun m s p hst hp hn => ?_⟩, fun o s hst hh => ?_⟩
  · obtain ⟨modules, he, hm⟩ := execCommandRecord_sends s
    refine ⟨_, he, rfl, fun m => ?_⟩
    have sent {c : CommandRecord}
        (h : (s.module m).commandRecord (s.referencesFor (s.module m)) = some c) :
        (modules.get m).sent = some c := by rw [hm]; exact Module.commanded_sent h
    have rest : modules.get m = { s.module m with sent := (modules.get m).sent } := by rw [hm]; rfl
    refine ⟨rest, fun h => ?_, fun h => sent ?_, fun h => sent ?_, fun h => sent ?_,
      fun o ho refs hrefs => ?_⟩
    · show (modules.get m).sent = _
      rw [hm]
      unfold Module.commanded Module.commandRecord
      rw [h]; rfl
    · unfold Module.commandRecord; rw [h]
    · unfold Module.commandRecord; rcases h with h | h <;> rw [h]
    · unfold Module.commandRecord; rw [h]
    · have href : s.referencesFor (s.module m) = refs := by
        funext share
        rw [hrefs]
        unfold State.referencesFor RefGen.references
        rw [ho]
      rw [href] at sent
      refine ⟨fun h => sent ?_, fun h => sent ?_, fun p h hp => sent ?_⟩
      · unfold Module.commandRecord; rw [h, ho]; dsimp only; split <;> rfl
      · unfold Module.commandRecord; rw [h]
      · unfold Module.commandRecord Module.stopTimeRuns; rw [h, hp]; dsimp only; split <;> rfl
  · show Host.Outcome.next _ = _
    rw [if_pos hst]
    refine congrArg _ (State.onModule_congr ?_)
    unfold Module.commandStop
    rw [hp, Option.map_some, hn]
    rfl
  · have hw : s.waits o = false := by simp [State.waits, hst]
    obtain ⟨u, hu⟩ : ∃ u, u = (s.stopModules o [.held]).onMp o fun p => { p with hold := none } :=
      ⟨_, rfl⟩
    have first : Acts ⟨[o], [], false, false, []⟩ s u := by
      rw [hu]; exact (State.stopModules_acts s o _ List.mem_cons_self).trans (.onMp _ _ _ _)
    have all := first.trans (State.settle_acts _ u)
    have hpool : PoolOnly s u := by
      rw [hu]; exact (State.stopModules_poolOnly s o _).trans (.onMp _ _ _)
    have hwu : u.waits o = false := by
      unfold State.waits at hw ⊢; rwa [(hpool.berth o).sc]
    have duties := State.settle_duties hwu
    refine ⟨u.settle, ?_, fun m ho hm => ?_, ?_, ?_, all.frame.1, all.frame.2.1, all.noFault rfl,
      all.frame.2.2⟩
    · show Host.Outcome.next _ = _
      rw [if_pos ⟨hh, hst⟩, hu]
    · have stopped : u.module m = (s.module m).beginStop s.tb.run := by
        rw [hu, State.module_onMp, State.module_stopModules, if_pos]
        simp [Module.assignedTo, ho, hm]
      rw [duties.module m (by rw [stopped]; exact ho) (by rw [stopped]; simp [Module.beginStop]), stopped]
      exact ⟨rfl, ho, rfl⟩
    · rw [duties.hold, hu, State.berth_onMp_self]
    · exact (hpool.berth o).trans ((State.settle_acts ⟨[], [], false, false, []⟩ u).berth o
        List.not_mem_nil hwu)

end Sys2Proof.Proofs
end


-- ==== Sys2Proof/Proofs/ModuleRecords.lean ====
section
/-! PROOFS. What the operations of sessions and of the pool leave of the module records: the readings
(`KeepsReadings`), and the modules under load (`KeepsLoaded`). -/

namespace Sys2Proof.Machine

open Sys2Proof

/-! ### Readings -/

/-- A module's rating and the readings of its reports (R21, R22). -/
structure SameReadings (x y : Module) : Prop where
  rating : y.rating = x.rating
  band : y.band = x.band
  power : y.power = x.power
  reportAt : y.reportAt = x.reportAt
  lineLost : y.lineLost = x.lineLost

theorem SameReadings.refl (x : Module) : SameReadings x x := ⟨rfl, rfl, rfl, rfl, rfl⟩

/-- No module's readings change. -/
def KeepsReadings (s t : State) : Prop := ∀ m, SameReadings (s.module m) (t.module m)

theorem KeepsReadings.refl (s : State) : KeepsReadings s s := fun _ => .refl _

theorem KeepsReadings.trans {s t u : State} (h : KeepsReadings s t) (g : KeepsReadings t u) :
    KeepsReadings s u := fun m =>
  ⟨(g m).rating.trans (h m).rating, (g m).band.trans (h m).band, (g m).power.trans (h m).power,
    (g m).reportAt.trans (h m).reportAt, (g m).lineLost.trans (h m).lineLost⟩

theorem KeepsReadings.of_pool {s t : State} (h : t.pool = s.pool) : KeepsReadings s t := fun m => by
  unfold State.module; rw [h]; exact .refl _

theorem SameReadings.effective {x y : Module} (h : SameReadings x y) : y.effective = x.effective := by
  unfold Module.effective; rw [h.rating, h.band]

theorem State.changeModule_readings {s : State} {m : ModuleNo} {f : Module → Module}
    (h : SameReadings (s.module m) (f (s.module m))) : KeepsReadings s (s.changeModule m f) := fun n => by
  by_cases e : n = m
  · subst e; rw [State.module_changeModule_self]; exact h
  · rw [State.module_changeModule_ne _ _ e]; exact .refl _

theorem State.changeModulesAt_readings (s : State) (o : Outlet) (states : List ModuleState)
    {f : Module → Module} (h : ∀ x, SameReadings x (f x)) :
    KeepsReadings s (s.changeModulesAt o states f) := fun m => by
  rw [State.module_changeModulesAt]
  split
  · exact h _
  · exact .refl _

theorem State.arbitrate_readings (s : State) : KeepsReadings s s.arbitrate := fun m => by
  rcases s.module_arbitrate m with h | ⟨-, o, forms, h⟩ <;> rw [h]
  · exact .refl _
  · exact ⟨rfl, rfl, rfl, rfl, rfl⟩

theorem State.servePool_readings (s : State) (o : Outlet) : KeepsReadings s (s.servePool o) :=
  (KeepsReadings.of_pool (State.judgeNeed_pool s o)).trans (State.arbitrate_readings _)

theorem State.stopModules_readings (s : State) (o : Outlet) (states : List ModuleState) :
    KeepsReadings s (s.stopModules o states) :=
  State.changeModulesAt_readings s o states fun _ => ⟨rfl, rfl, rfl, rfl, rfl⟩

theorem State.endStarts_readings (s : State) (o : Outlet) : KeepsReadings s (s.endStarts o) := fun m => by
  rw [State.module_endStarts]
  split
  · exact ⟨rfl, rfl, rfl, rfl, rfl⟩
  · exact .refl _

theorem State.holdModules_readings (s : State) (o : Outlet) : KeepsReadings s (s.holdModules o) := by
  have held := State.changeModulesAt_readings s o [.running]
    (f := fun m => { m with state := .held }) fun _ => ⟨rfl, rfl, rfl, rfl, rfl⟩
  unfold State.holdModules
  dsimp only
  split
  · exact held.trans ((State.stopModules_readings _ o _).trans (.of_pool rfl))
  · exact held.trans (.of_pool rfl)

theorem State.rejoinModules_readings (s : State) (o : Outlet) : KeepsReadings s (s.rejoinModules o) := by
  unfold State.rejoinModules
  split
  · exact State.changeModulesAt_readings s o [.held]
      (f := fun m => { m with state := .running }) fun _ => ⟨rfl, rfl, rfl, rfl, rfl⟩
  · exact .refl _

theorem State.poolTakesState_readings (s : State) (o : Outlet) (old new : OutletState) :
    KeepsReadings s (s.poolTakesState o old new) := by
  unfold State.poolTakesState
  refine KeepsReadings.trans ?_ (State.servePool_readings _ _)
  have ended : KeepsReadings s (if new.requests then s else s.endStarts o) := by
    split
    · exact .refl _
    · exact State.endStarts_readings s o
  generalize (if new.requests then s else s.endStarts o) = s1 at ended
  have unheld (s2 : State) (g : KeepsReadings s s2) : KeepsReadings s
      (if old = OutletState.tripped then s2.onMp o fun q => { q with hold := none } else s2) := by
    split
    · exact g.trans (.of_pool rfl)
    · exact g
  apply unheld
  split
  · exact ended.trans (State.holdModules_readings _ o)
  · exact ended.trans (State.stopModules_readings _ o _)
  · split
    · exact ended.trans (State.rejoinModules_readings _ o)
    · exact ended
  all_goals exact ended

theorem State.moveTo_readings (s : State) (o : Outlet) (new : OutletState) (pSet : Nat) :
    KeepsReadings s (s.moveTo o new pSet) := by
  unfold State.moveTo
  dsimp only
  refine KeepsReadings.trans ((KeepsReadings.of_pool (t := s.onBerth o fun b =>
    b.takeState new pSet s.now (decide (s.capacity o < (s.berth o).sc.target))) rfl).trans
      (State.poolTakesState_readings _ o (s.berth o).sc.state new)) ?_
  exact .of_pool (State.reportState_pool _ _ _)

theorem State.trip_readings (s : State) (o : Outlet) (c : Cause) : KeepsReadings s (s.trip o c) :=
  (State.moveTo_readings s o .tripped 0).trans (.of_pool rfl)

theorem State.enter_readings (s : State) (o : Outlet) (new : OutletState) (pSet : Nat) :
    KeepsReadings s (s.enter o new pSet) := by
  unfold State.enter
  dsimp only
  split
  · exact (State.moveTo_readings s o new pSet).trans (State.trip_readings _ o _)
  · exact State.moveTo_readings s o new pSet

theorem State.tryDeadBus_readings (s : State) (o : Outlet) : KeepsReadings s (s.tryDeadBus o) := by
  unfold State.tryDeadBus State.issueClose
  split
  · exact (KeepsReadings.of_pool (t := s.onSy o fun y => y.issue s.now none) rfl).trans
      (State.enter_readings _ o .closing 0)
  · exact .refl _

theorem State.judgeEnergising_readings (s : State) (o : Outlet) :
    KeepsReadings s (s.judgeEnergising o) := by
  unfold State.judgeEnergising
  dsimp only
  split
  · exact State.enter_readings s o .synchronising 0
  · exact .refl _

theorem State.capacityChanged_readings (s : State) (o : Outlet) :
    KeepsReadings s (s.capacityChanged o) := by
  unfold State.capacityChanged
  exact ((KeepsReadings.of_pool (by rfl)).trans (State.servePool_readings _ o)).trans
    ((State.tryDeadBus_readings _ o).trans (State.judgeEnergising_readings _ o))

theorem State.closeInterval_pool (s : State) (o : Outlet) (reason : ClosingReason) :
    (s.closeInterval o reason).pool = s.pool := by
  cases h : (s.berth o).mt with
  | none => rw [State.closeInterval_of_none h]
  | some m =>
    rw [State.closeInterval_of_some h, State.onBerth_pool]
    unfold State.store
    dsimp only
    split <;> rfl

theorem State.tryClose_readings (s : State) (o : Outlet) : KeepsReadings s (s.tryClose o) := by
  unfold State.tryClose
  split
  · exact .refl _
  · split
    · refine (KeepsReadings.of_pool (s := s) ?_).trans (State.moveTo_readings _ o _ _)
      exact State.closeInterval_pool s o _
    · exact .refl _

theorem State.evaluate_readings (s : State) (o : Outlet) : KeepsReadings s (s.evaluate o) := by
  unfold State.evaluate
  dsimp only
  split
  · rename_i d _ _
    split
    · exact (State.moveTo_readings s o .cableProven 0).trans (.of_pool rfl)
    · split
      · exact .of_pool rfl
      · split
        · exact .of_pool rfl
        · split
          · exact .of_pool rfl
          · rename_i place _ _ _
            rw [State.openSession_eq]
            exact ((KeepsReadings.of_pool (t := s.fillSession o d place) rfl).trans
              (State.moveTo_readings _ o .energising 0)).trans (.of_pool rfl)
  · exact .refl _

/-- The passes of a step's end keep what each evaluation keeps. -/
theorem State.settle_preorder {R : State → State → Prop} (refl : ∀ s, R s s)
    (trans : ∀ {s t u}, R s t → R t u → R s u) (due : ∀ s : State, R s { s with passDue := false })
    (evaluate : ∀ s o, R s (State.evaluate s o)) (s : State) : R s s.settle := by
  have fold (l : List Outlet) (s : State) : R s (l.foldl State.evaluate s) := by
    induction l generalizing s with
    | nil => exact refl s
    | cons o l ih => exact trans (evaluate s o) (ih _)
  unfold State.settle
  generalize 5 = n
  induction n generalizing s with
  | zero => exact due s
  | succ n ih =>
    unfold State.passes
    split
    · exact trans (trans (due s) (fold s.waitingOutlets _)) (ih _)
    · exact refl s

theorem State.settle_readings (s : State) : KeepsReadings s s.settle :=
  State.settle_preorder .refl .trans (fun _ => .of_pool rfl) State.evaluate_readings s

/-! ### Modules under load -/

/-- Modules that are neither IDLE nor STARTING are as they were, and no other comes to be so but by
a start that has ended. -/
def KeepsLoaded (s t : State) : Prop := ∀ m, t.module m = s.module m
  ∨ (((s.module m).state = .idle ∨ (s.module m).state = .starting)
    ∧ ((t.module m).state = .starting ∨ (t.module m).state = .stopping))

theorem KeepsLoaded.refl (s : State) : KeepsLoaded s s := fun _ => .inl rfl

theorem KeepsLoaded.of_pool {s t : State} (h : t.pool = s.pool) : KeepsLoaded s t := fun m =>
  .inl (by unfold State.module; rw [h])

theorem KeepsLoaded.trans {s t u : State} (h : KeepsLoaded s t) (g : KeepsLoaded t u) :
    KeepsLoaded s u := fun m => by
  rcases h m with e | ⟨hs, ht⟩
  · have := g m; rwa [e] at this
  · rcases g m with e | ⟨-, hu⟩
    · exact .inr ⟨hs, by rwa [e]⟩
    · exact .inr ⟨hs, hu⟩

theorem KeepsLoaded.module {s t : State} (h : KeepsLoaded s t) {m : ModuleNo}
    (hi : (s.module m).state ≠ .idle) (hs : (s.module m).state ≠ .starting) :
    t.module m = s.module m := (h m).resolve_right fun g => g.1.elim hi hs

theorem KeepsLoaded.capacity {s t : State} (h : KeepsLoaded s t) (o : Outlet) :
    t.capacity o = s.capacity o := by
  refine State.capacity_congr _ _ _ fun m => ?_
  rcases h m with e | ⟨hs, ht⟩
  · rw [e]
  · have not_running {x : Module} {st : ModuleState} (hx : x.state = st) (hne : st ≠ .running) :
        x.inStateAt .running o = false := by simp [Module.inStateAt, hx, hne]
    rw [show (s.module m).inStateAt .running o = false from
        hs.elim (not_running · (by decide)) (not_running · (by decide)),
      show (t.module m).inStateAt .running o = false from
        ht.elim (not_running · (by decide)) (not_running · (by decide))]
    simp

theorem State.arbitrate_loaded (s : State) : KeepsLoaded s s.arbitrate := fun m => by
  rcases s.module_arbitrate m with h | ⟨hi, o, forms, h⟩
  · exact .inl h
  · exact .inr ⟨.inl hi, .inl (by rw [h]; rfl)⟩

theorem State.servePool_loaded (s : State) (o : Outlet) : KeepsLoaded s (s.servePool o) :=
  (KeepsLoaded.of_pool (State.judgeNeed_pool s o)).trans (State.arbitrate_loaded _)

theorem State.endStarts_loaded (s : State) (o : Outlet) : KeepsLoaded s (s.endStarts o) := fun m => by
  rw [State.module_endStarts]
  split
  · rename_i h
    refine .inr ⟨.inr ?_, .inr rfl⟩
    obtain ⟨-, hs⟩ := Bool.and_eq_true_iff.mp h
    simpa using hs
  · exact .inl rfl

/-- Between states that neither hold, stop nor rejoin modules MP ends starts at most. -/
theorem State.poolTakesState_quiet (s : State) (o : Outlet) {old new : OutletState}
    (ho : old ≠ .tripped) (ht : new ≠ .tripped) (hw : new ≠ .windDown) :
    s.poolTakesState o old new = (if new.requests then s else s.endStarts o).servePool o := by
  unfold State.poolTakesState
  cases new <;> first | exact absurd rfl ht | exact absurd rfl hw | simp only [if_neg ho]

theorem State.moveTo_loaded (s : State) (o : Outlet) {new : OutletState} (pSet : Nat)
    (ho : (s.berth o).sc.state ≠ .tripped) (ht : new ≠ .tripped) (hw : new ≠ .windDown) :
    KeepsLoaded s (s.moveTo o new pSet) := by
  unfold State.moveTo
  dsimp only
  rw [State.poolTakesState_quiet _ o ho ht hw]
  refine ((KeepsLoaded.of_pool (s := s) (t := s.onBerth o fun b =>
    b.takeState new pSet s.now (decide (s.capacity o < (s.berth o).sc.target))) rfl).trans
      (KeepsLoaded.trans ?_ (State.servePool_loaded _ o))).trans
    (.of_pool (State.reportState_pool _ _ _))
  split
  · exact .refl _
  · exact State.endStarts_loaded _ o

theorem State.evaluate_loaded (s : State) (o : Outlet) : KeepsLoaded s (s.evaluate o) := by
  unfold State.evaluate
  dsimp only
  split
  · rename_i d hst _
    have ho : (s.berth o).sc.state ≠ .tripped := by rw [of_decide_eq_true hst]; decide
    split
    · exact (State.moveTo_loaded s o 0 ho (by decide) (by decide)).trans (.of_pool rfl)
    · split
      · exact .of_pool rfl
      · split
        · exact .of_pool rfl
        · split
          · exact .of_pool rfl
          · rename_i place _ _ _
            rw [State.openSession_eq]
            refine ((KeepsLoaded.of_pool (t := s.fillSession o d place) rfl).trans
              (State.moveTo_loaded _ o 0 ?_ (by decide) (by decide))).trans (.of_pool rfl)
            rwa [State.fillSession_berth_self]
  · exact .refl _

/-- A pass at a step's end leaves each module that is neither IDLE nor STARTING as it was. -/
theorem State.settle_loaded (s : State) : KeepsLoaded s s.settle :=
  State.settle_preorder .refl .trans (fun _ => .of_pool rfl) State.evaluate_loaded s

end Sys2Proof.Machine
end


-- ==== Sys2Proof/Proofs/ModuleReports.lean ====
section
/-! PROOFS. The reports of modules that end a stop or a fault, and the failures of modules (R21, R22, R26,
R28 to R30). -/

namespace Sys2Proof.Machine

open Sys2Proof

/-! ### A report copied -/

/-- The state with a report's readings copied into the module's record. -/
def State.copied (s : State) (m : ModuleNo) (r : ModuleReport) : State :=
  s.onModule m fun x => x.copyReport r s.tb.run

theorem State.module_copied (s : State) (m : ModuleNo) (r : ModuleReport) :
    (s.copied m r).module m = (s.module m).copyReport r s.tb.run := State.module_onModule_self _ _ _

theorem State.copied_acts {x : Scope} (s : State) (m : ModuleNo) (r : ModuleReport)
    (hm : m ∈ x.modules) : Acts x s (s.copied m r) := .onModule _ _ _ _ (.inl hm)

/-- A report of a module that neither runs nor starts changes no capacity (R23). -/
theorem State.copyReport_of_unloaded {s : State} {m : ModuleNo} (r : ModuleReport)
    (hr : (s.module m).state ≠ .running) (hs : (s.module m).state ≠ .starting) :
    s.copyReport m r = s.copied m r := by
  have unrated (t : State) (o : Outlet) : t.ratingChanged (s.module m).state o = t := by
    unfold State.ratingChanged
    split
    · exact absurd ‹_› hr
    · exact absurd ‹_› hs
    all_goals rfl
  unfold State.copyReport
  dsimp only
  split
  · split
    · rfl
    · exact unrated _ _
  · rfl

/-- A report that leaves the effective rating leaves the capacities. -/
theorem State.copyReport_of_sameRating {s : State} {m : ModuleNo} {r : ModuleReport}
    (h : s.sameRating m r) : s.copyReport m r = s.copied m r := by
  have same : ((s.copied m r).module m).effective = (s.module m).effective := by
    have hot : (r.band = .hot) = ((s.module m).band = .hot) := propext h
    rw [State.module_copied]
    unfold Module.effective Module.copyReport
    simp only [hot]
  unfold State.copyReport
  dsimp only
  split
  · exact if_pos same
  · rfl

theorem execModuleReport_declared {s : State} {m : ModuleNo} (r : ModuleReport)
    (h : (s.module m).state ≠ .offline) :
    execModuleReport m r s = .next ((s.copyReport m r).judgeReport m r).settle :=
  congrArg _ (if_neg h)

theorem Copied.of_copyReport {s : State} {m : ModuleNo} {r : ModuleReport} {x : Module}
    (h : SameReadings ((s.module m).copyReport r s.tb.run) x) : Copied r s m x :=
  ⟨h.power, h.band, h.reportAt, h.rating⟩

theorem State.onModule_onModule (s : State) (m : ModuleNo) (f g : Module → Module) :
    (s.onModule m f).onModule m g = s.onModule m fun x => g (f x) := by
  cases m <;> rfl

/-! ### Faults taken -/

/-- A fault-since-clear that stands stays. -/
theorem Acts.sinceClear {x : Scope} {s t : State} (h : Acts x s t) :
    s.fe.sinceClear = true → t.fe.sinceClear = true := by
  induction h with
  | trans _ _ ih1 ih2 => exact fun g => ih2 (ih1 g)
  | raise x s k src d h => exact fun _ => FaultUnit.take_sinceClear _ _ _
  | report x s k src d => exact fun g => (FaultUnit.offer_sinceClear _ _).trans g
  | wait _ _ _ ih => exact ih
  | _ => exact id

theorem Raised.flag_stands {k : FaultKind} {s u t : State} (h : Raised k s u)
    (stands : u.fe.flags &&& t.fe.flags = u.fe.flags) : t.fe.flags &&& k.bit = k.bit := by
  rw [h.flags] at stands
  ext i hi
  have bit := congrArg (fun f : BitVec 32 => f[i]) stands
  simp only [BitVec.getElem_and, BitVec.getElem_or] at bit ⊢
  generalize s.fe.flags[i] = f, k.bit[i] = b, t.fe.flags[i] = g at bit ⊢
  revert bit
  cases f <;> cases b <;> cases g <;> decide

/-- A module has entered FAULTED, and the fault is taken (R26, R28, R29). -/
structure FaultTaken (m : ModuleNo) (code : Option Nat) (k : FaultKind) (s t : State) : Prop where
  module : t.module m = (s.module m).toFaulted code
  flag : t.fe.flags &&& k.bit = k.bit
  sinceClear : t.fe.sinceClear = true

/-- What follows leaves the module alone: it is FAULTED, with no outlet. -/
theorem FaultTaken.of_rest {m : ModuleNo} {code : Option Nat} {k : FaultKind} {s w u t : State}
    {x : Scope} (module : u.module m = (s.module m).toFaulted code) (raised : Raised k w u)
    (rest : Acts x u t) (hx : x.modules = []) : FaultTaken m code k s t := by
  refine ⟨?_, raised.flag_stands rest.flags, rest.sinceClear raised.sinceClear⟩
  rw [← module]
  refine rest.module m ⟨by rw [hx]; exact List.not_mem_nil, ?_, fun p hp => ?_⟩
  · rw [module]; exact ModuleState.noConfusion
  · rw [module] at hp; cases hp

theorem FaultTaken.enters {m : ModuleNo} {code : Option Nat} {k : FaultKind} {s c t : State}
    {kinds : List FaultKind} (h : FaultTaken m code k c t)
    (count : (c.module m).faultCount = (s.module m).faultCount)
    (last : (c.module m).faultCode = (s.module m).faultCode)
    (acts : Acts ⟨(s.module m).outlet.toList, [m], false, true, kinds⟩ s t) :
    EntersFaulted m code k s t :=
  { state := by rw [h.module]; rfl
    outlet := by rw [h.module]; rfl
    count := by rw [h.module, ← count]; rfl
    code := by rw [h.module, ← last]; cases code <;> rfl
    flag := h.flag
    sinceClear := h.sinceClear
    elsewhere := acts.elsewhere
    account := acts.keepsAccount rfl }

theorem State.module_changeModule_raise (s : State) (m : ModuleNo) (f : Module → Module)
    (k : FaultKind) (src : Source) (d : Option Nat) :
    ((s.changeModule m f).raise k src d).module m = f (s.module m) := by
  unfold State.module
  rw [State.raise_pool]
  exact State.module_changeModule_self s m f

/-- A module's fault outside STARTING (R28, R29). -/
theorem State.moduleFaulted_taken (s : State) (m : ModuleNo) (code : Option Nat) :
    FaultTaken m code .moduleFault s (s.moduleFaulted m code).settle := by
  refine FaultTaken.of_rest (u := (s.changeModule m fun x => x.toFaulted code).raise .moduleFault
    (.module m) code) (x := ⟨(s.module m).outlet.toList, [], false, true, entryKinds⟩)
    (State.module_changeModule_raise _ _ _ _ _ _) (State.raise_raised _ _ _ _) ?_ rfl
  unfold State.moduleFaulted
  dsimp only
  refine Acts.trans (Acts.trans ?_ (State.moduleLeft_acts _ _ _ (fun o ho => ?_) rfl fun _ h => h))
    (State.settle_acts _ _)
  · split
    · exact (State.leaveUnit_acts _ _ _).trans (State.ariseReplace_acts _ _ _)
    · exact State.leaveUnit_acts _ _ _
  · simp [ho]

/-- The start that the pre-charge unit serves fails (R26); the unit serves the module no longer. -/
theorem State.startFailed_taken {s : State} {m : ModuleNo} (code : Option Nat)
    (unit : ∃ u, s.pool.unit = some u ∧ u.module = m) (hs : (s.module m).state = .starting) :
    FaultTaken m code .moduleStartFail s (s.startFailed m code).settle
      ∧ ∀ v, (s.startFailed m code).settle.pool.unit = some v → v.module ≠ m := by
  obtain ⟨u, hu, hm⟩ := unit
  obtain ⟨w, hw⟩ : ∃ w, w = (s.changeModule m fun x => x.toFaulted code).raise .moduleStartFail
    (.module m) code := ⟨_, rfl⟩
  have hmod : w.module m = (s.module m).toFaulted code := by
    rw [hw]; exact State.module_changeModule_raise _ _ _ _ _ _
  obtain ⟨v, hv, hf⟩ : ∃ v : State, (s.startFailed m code).settle = (v.servePool u.outlet).settle
      ∧ (v = w.freeUnit ∨ ∃ f, v = w.freeUnit.onMp u.outlet f) := by
    unfold State.startFailed
    rw [hu]
    dsimp only
    rw [if_pos ⟨hm, hs⟩, hw]
    refine ⟨_, rfl, ?_⟩
    split
    · exact .inr ⟨_, rfl⟩
    · exact .inl rfl
  have freed : Acts ⟨[], [], false, true, []⟩ w v ∧ v.pool.unit = none ∧ v.module m = w.module m := by
    rcases hf with rfl | ⟨f, rfl⟩
    · exact ⟨State.freeUnit_acts _ _, rfl, rfl⟩
    · exact ⟨(State.freeUnit_acts _ _).trans (.onMp _ _ _ _), rfl, rfl⟩
  obtain ⟨acts, free, same⟩ := freed
  rw [hv]
  refine ⟨.of_rest hmod (hw ▸ State.raise_raised _ _ _ _)
    ((acts.trans (State.servePool_acts _ _ _)).trans (State.settle_acts _ _)) rfl, fun x hx e => ?_⟩
  have serves : PoolServes [] v (v.servePool u.outlet).settle :=
    (State.servePool_serves _ _ _).trans (State.settle_serves fun o ho => absurd ho List.not_mem_nil)
  rcases serves.unit x hx with ⟨y, hy, -⟩ | hi
  · rw [free] at hy; cases hy
  · rw [e, same, hmod] at hi; cases hi

/-! ### The table of R21 -/

/-- The reports that the state of a module outside STARTING does not allow. -/
theorem State.judgeReport_failure {s : State} {m : ModuleNo} {r : ModuleReport}
    (h : ((s.module m).state = .idle ∧ r.state ≠ .stopped)
      ∨ (((s.module m).state = .running ∨ (s.module m).state = .held) ∧ r.state ≠ .running)
      ∨ ((s.module m).state = .stopping ∧ r.state = .fault)
      ∨ ((s.module m).state = .stopping ∧ (s.module m).endedStart = false
          ∧ (r.state = .precharging ∨ r.state = .precharged))) :
    s.judgeReport m r = s.moduleFaulted m (if r.state = .fault then r.code else none) := by
  unfold State.judgeReport
  dsimp only
  rcases h with ⟨hs, hr⟩ | ⟨hs | hs, hr⟩ | ⟨hs, hr⟩ | ⟨hs, he, hr | hr⟩
  · rw [hs]; cases h : r.state <;> first | exact absurd h hr | rfl
  · rw [hs]; cases h : r.state <;> first | exact absurd h hr | rfl
  · rw [hs]; cases h : r.state <;> first | exact absurd h hr | rfl
  · rw [hs, hr]; rfl
  · rw [hs, hr]; exact if_neg (by rw [he]; decide)
  · rw [hs, hr]; exact if_neg (by rw [he]; decide)

/-- The reports that fail a start (R26). -/
theorem State.judgeReport_startFails {s : State} {m : ModuleNo} {r : ModuleReport}
    (hs : (s.module m).state = .starting)
    (h : r.state = .fault ∨ (r.state = .running ∧ (s.module m).precharged = false)) :
    s.judgeReport m r = s.startFailed m (if r.state = .fault then r.code else none) := by
  unfold State.judgeReport
  dsimp only
  rcases h with hr | ⟨hr, hp⟩
  · rw [hs, hr]; rfl
  · rw [hs, hr]; exact if_neg (by rw [hp]; decide)

/-- The scope of what a module's line brings. -/
def lineScope (s : State) (m : ModuleNo) : Scope :=
  ⟨(s.module m).outlet.toList, [m], false, true, moduleKinds⟩

theorem lineScope_outlet {s t : State} {m : ModuleNo}
    (h : (t.module m).outlet = (s.module m).outlet) (o : Outlet) (ho : (t.module m).outlet = some o) :
    o ∈ (lineScope s m).outlets := by
  rw [h] at ho; simp [lineScope, ho]

theorem entryKinds_module : ∀ k ∈ entryKinds, k ∈ moduleKinds := fun _ h =>
  List.mem_append_right _ h

/-- A module's fault in what its line brings. -/
theorem State.moduleFaulted_enters {s c : State} {m : ModuleNo} (code : Option Nat)
    (acts : Acts (lineScope s m) s c) (outlet : (c.module m).outlet = (s.module m).outlet)
    (count : (c.module m).faultCount = (s.module m).faultCount)
    (last : (c.module m).faultCode = (s.module m).faultCode) :
    EntersFaulted m code .moduleFault s (c.moduleFaulted m code).settle :=
  (c.moduleFaulted_taken m code).enters count last
    ((acts.trans (State.moduleFaulted_acts c m code List.mem_cons_self (lineScope_outlet outlet) rfl
      (by show _ ∈ moduleKinds; decide) entryKinds_module)).trans (State.settle_acts _ _))

/-- A failed start in what a module's line or the start time brings. -/
theorem State.startFailed_enters {s c : State} {m : ModuleNo} (code : Option Nat)
    (acts : Acts (lineScope s m) s c) (unit : ∃ u, c.pool.unit = some u ∧ u.module = m)
    (starting : (c.module m).state = .starting)
    (count : (c.module m).faultCount = (s.module m).faultCount)
    (last : (c.module m).faultCode = (s.module m).faultCode) :
    EntersFaulted m code .moduleStartFail s (c.startFailed m code).settle
      ∧ ∀ v, (c.startFailed m code).settle.pool.unit = some v → v.module ≠ m := by
  obtain ⟨taken, free⟩ := State.startFailed_taken code unit starting
  exact ⟨taken.enters count last ((acts.trans (State.startFailed_acts c m code List.mem_cons_self
    (by show _ ∈ moduleKinds; decide))).trans (State.settle_acts _ _)), free⟩

/-! ### A line loss (R22) -/

/-- The state with the loss of a module's line taken. -/
def State.lineLoss (s : State) (m : ModuleNo) : State :=
  (s.raise .moduleLinkLost (.module m)).onModule m fun x => { x with lineLost := true }

theorem State.module_lineLoss (s : State) (m : ModuleNo) :
    (s.lineLoss m).module m = { s.module m with lineLost := true } :=
  State.module_onModule_self _ _ _

theorem State.lineLoss_acts (s : State) (m : ModuleNo) : Acts (lineScope s m) s (s.lineLoss m) :=
  (Acts.raise _ _ _ _ _ (by show _ ∈ moduleKinds; decide)).trans
    (.onModule _ _ _ _ (.inl List.mem_cons_self))

theorem State.lineLoss_raised (s : State) (m : ModuleNo) : Raised .moduleLinkLost s (s.lineLoss m) :=
  (State.raise_raised s _ _ _).after (.of_fe rfl)

theorem State.startFailed_unserved {s : State} {m : ModuleNo} (code : Option Nat)
    (h : ¬∃ u, s.pool.unit = some u ∧ u.module = m) : s.startFailed m code = s := by
  unfold State.startFailed
  split
  · rfl
  · rename_i u hu
    exact if_neg fun g => h ⟨u, hu, g.1⟩

theorem execModuleLineLoss_faults {s : State} {m : ModuleNo} (hl : (s.module m).lineLost = false)
    (h : (s.module m).state = .idle ∨ (s.module m).state = .running ∨ (s.module m).state = .held
      ∨ (s.module m).state = .stopping) :
    execModuleLineLoss m s = .next ((s.lineLoss m).moduleFaulted m none).settle := by
  unfold execModuleLineLoss
  dsimp only
  rcases h with h | h | h | h <;> rw [h, if_neg (by simp [hl])] <;> rfl

theorem execModuleLineLoss_starting {s : State} {m : ModuleNo} (hl : (s.module m).lineLost = false)
    (h : (s.module m).state = .starting) :
    execModuleLineLoss m s = .next ((s.lineLoss m).startFailed m none).settle := by
  unfold execModuleLineLoss
  dsimp only
  rw [h, if_neg (by simp [hl])]
  rfl

theorem execModuleLineLoss_faulty {s : State} {m : ModuleNo} (hl : (s.module m).lineLost = false)
    (h : (s.module m).state = .faulted ∨ (s.module m).state = .lockedOut) :
    execModuleLineLoss m s = .next (s.lineLoss m) := by
  unfold execModuleLineLoss
  dsimp only
  rcases h with h | h <;> rw [h, if_neg (by simp [hl])] <;> rfl

/-! ### The ends of stops and faults (R28, R30) -/

/-- No outlet has an entry in the pending list. -/
def State.noEntries (s : State) : Prop := ∀ o, (s.berth o).mp.entry = none

/-- An outlet that makes no requests is judged to have none. -/
theorem State.judgeNeed_entry_of_not {s : State} {o : Outlet}
    (h : (s.berth o).sc.state.requests = false) : ((s.judgeNeed o).berth o).mp.entry = none := by
  unfold State.judgeNeed
  rw [State.tidyWatches_entry, h, if_pos (by decide), State.berth_onMp_self]
  rfl

theorem State.judgeNeed_berth_ne {s : State} {o p : Outlet} (h : p ≠ o) :
    (s.judgeNeed o).berth p = s.berth p := by
  unfold State.judgeNeed State.tidyWatches
  rw [State.berth_onMp_ne _ _ h, State.berth_onMp_ne _ _ h]
  split
  · exact State.berth_onMp_ne _ _ h
  · split
    · split
      · exact State.berth_onMp_ne _ _ h
      · split
        · exact State.berth_onMp_ne _ _ h
        · rfl
    · exact State.berth_onMp_ne _ _ h

/-- With no entries, the need of an outlet that makes no requests starts nothing. -/
theorem State.servePool_of_noEntries {s : State} {o : Outlet} (entries : s.noEntries)
    (h : (s.berth o).sc.state.requests = false) :
    s.servePool o = s.judgeNeed o ∧ (s.judgeNeed o).noEntries := by
  have none_left : (s.judgeNeed o).noEntries := fun p => by
    by_cases e : p = o
    · subst e; exact State.judgeNeed_entry_of_not h
    · rw [State.judgeNeed_berth_ne e]; exact entries p
  exact ⟨State.arbitrate_of_no_entry none_left, none_left⟩

theorem Berth.restState_quiet (b : Berth) : b.restState.requests = false ∧ b.restState ≠ .tripped
    ∧ b.restState ≠ .windDown := by
  unfold Berth.restState; split <;> decide

theorem Berth.takeState_mp (b : Berth) (new : OutletState) (pSet : Nat) (now : TimeStamp)
    (short : Bool) : (b.takeState new pSet now short).mp = b.mp := by
  unfold Berth.takeState Berth.linkTakesState; dsimp only
  rw [Berth.enterMode_rest]; split
  · rfl
  · split <;> rfl

/-- With no entries, a change of state that makes no requests, holds, stops or rejoins no module starts
none. -/
theorem State.moveTo_of_noEntries {s : State} {o : Outlet} {new : OutletState} (pSet : Nat)
    (entries : s.noEntries) (ho : (s.berth o).sc.state ≠ .tripped) (hr : new.requests = false)
    (ht : new ≠ .tripped) (hw : new ≠ .windDown) : (s.moveTo o new pSet).noEntries
      ∧ ∀ m, (s.module m).state ≠ .starting → (s.moveTo o new pSet).module m = s.module m := by
  obtain ⟨u, hu⟩ : ∃ u, u = s.onBerth o fun b =>
    b.takeState new pSet s.now (decide (s.capacity o < (s.berth o).sc.target)) := ⟨_, rfl⟩
  have moved : s.moveTo o new pSet = ((u.endStarts o).servePool o).reportState o new := by
    unfold State.moveTo
    dsimp only
    rw [State.poolTakesState_quiet _ o ho ht hw, hr, if_neg (by decide), hu]
  have berths (p : Outlet) : (u.endStarts o).berth p = u.berth p :=
    u.berth_changeModulesAt o p [.starting] fun m => m.endStart u.tb.run
  have none_before : (u.endStarts o).noEntries := fun p => by
    rw [berths, hu]
    by_cases e : p = o
    · subst e; rw [State.berth_onBerth_self, Berth.takeState_mp]; exact entries p
    · rw [State.berth_onBerth_ne _ _ e]; exact entries p
  obtain ⟨served, none_left⟩ := State.servePool_of_noEntries (o := o) none_before (by
    rw [berths, hu, State.berth_onBerth_self, Berth.takeState_sc]; exact hr)
  rw [moved, served]
  refine ⟨fun p => ?_, fun m hm => ?_⟩
  · unfold State.berth; rw [State.reportState_berths]; exact none_left p
  · unfold State.module
    rw [State.reportState_pool]
    refine (State.module_judgeNeed _ _ _).trans ?_
    rw [State.module_endStarts, if_neg, hu]
    · rfl
    · rw [hu]
      intro h
      obtain ⟨-, hs⟩ := Bool.and_eq_true_iff.mp h
      exact hm (by simpa using hs)

/-- With no entries, a session's close starts no module. -/
theorem State.tryClose_of_noEntries {s : State} {o : Outlet} (entries : s.noEntries) :
    (s.tryClose o).noEntries
      ∧ ∀ m, (s.module m).state ≠ .starting → (s.tryClose o).module m = s.module m := by
  cases hx : (s.berth o).sc.session with
  | none => unfold State.tryClose; rw [hx]; exact ⟨entries, fun _ _ => rfl⟩
  | some x =>
    cases hc : s.mayClose o with
    | false => rw [State.tryClose_of_not hc]; exact ⟨entries, fun _ _ => rfl⟩
    | true =>
      obtain ⟨hr, ht, hw⟩ := (s.berth o).restState_quiet
      have pool : (s.ended o x).pool = s.pool := s.closeInterval_pool o .sessionEnd
      have ended_entries : (s.ended o x).noEntries := fun p => by
        by_cases e : p = o
        · subst e; rw [State.ended_berth]; exact entries p
        · unfold State.ended
          rw [State.berth_report, State.settleSession_berth_ne e]; exact entries p
      have winding : ((s.ended o x).berth o).sc.state ≠ .tripped := by
        rw [State.ended_berth]
        intro h
        have h : (s.berth o).sc.state = .tripped := h
        simp [State.mayClose, h] at hc
      obtain ⟨none_left, same⟩ := State.moveTo_of_noEntries 0 ended_entries winding hr ht hw
      rw [State.tryClose_eq hx hc]
      refine ⟨none_left, fun m hm => ?_⟩
      have hmod : (s.ended o x).module m = s.module m := by unfold State.module; rw [pool]
      exact (same m (by rwa [hmod])).trans hmod

/-- A stop that ends with no request pending, at an outlet that makes none (R28). -/
theorem State.stopComplete_of_noEntries {s : State} {m : ModuleNo} {o : Outlet}
    (ho : (s.module m).outlet = some o) (entries : s.noEntries)
    (hr : (s.berth o).sc.state.requests = false) :
    (s.stopComplete m).module m = (s.module m).toIdle := by
  obtain ⟨u, hu⟩ : ∃ u, u = (s.changeModule m Module.toIdle).leaveUnit m := ⟨_, rfl⟩
  have berths (p : Outlet) : u.berth p = s.berth p := by
    rw [hu]; unfold State.leaveUnit; split <;> rfl
  have idle : u.module m = (s.module m).toIdle := by
    rw [hu]; unfold State.leaveUnit
    split <;> exact State.module_changeModule_self _ _ _
  obtain ⟨served, none_served⟩ := State.servePool_of_noEntries (s := u) (o := o)
    (fun p => by rw [berths]; exact entries p) (by rw [berths]; exact hr)
  obtain ⟨none_closed, same⟩ := State.tryClose_of_noEntries (o := o) none_served
  have left : s.stopComplete m = (u.judgeNeed o).tryClose o := by
    unfold State.stopComplete State.moduleLeft
    rw [← hu, ho]
    dsimp only
    rw [if_neg (by decide), served, State.arbitrate_of_no_entry none_closed]
  rw [left, same m (by rw [State.module_judgeNeed, idle]; exact ModuleState.noConfusion),
    State.module_judgeNeed, idle]

end Sys2Proof.Machine

namespace Sys2Proof.Proofs
open Machine

/-- Settles O19: by the table of R21 and the entries of modules to FAULTED. -/
theorem moduleFailures : Obligations.ModuleFailures := by
  refine ⟨fun m r s hrate => ⟨fun h => ?_, fun hs unit h => ?_⟩, fun m s ho hl => ?_,
    fun m s h => ?_, fun s u hu hs => ?_, fun m s p hs hp hn => ?_⟩
  · have declared : (s.module m).state ≠ .offline := by
      rcases h with ⟨h, -⟩ | ⟨h | h, -⟩ | ⟨h, -⟩ | ⟨h, -⟩ <;> rw [h] <;> decide
    refine ⟨_, execModuleReport_declared r declared, ?_⟩
    rw [State.copyReport_of_sameRating hrate,
      State.judgeReport_failure (by rw [State.module_copied]; exact h)]
    refine State.moduleFaulted_enters _ (State.copied_acts _ _ _ List.mem_cons_self) ?_ ?_ ?_ <;>
      rw [State.module_copied] <;> rfl
  · have declared : (s.module m).state ≠ .offline := by rw [hs]; decide
    refine ⟨_, execModuleReport_declared r declared, ?_⟩
    have starting : ((s.copied m r).module m).state = .starting := by
      rw [State.module_copied]; exact hs
    rw [State.copyReport_of_sameRating hrate,
      State.judgeReport_startFails starting (by rw [State.module_copied]; exact h)]
    refine State.startFailed_enters _ (State.copied_acts _ _ _ List.mem_cons_self) unit starting ?_ ?_ <;>
      rw [State.module_copied] <;> rfl
  · have mod := s.module_lineLoss m
    have acts := s.lineLoss_acts m
    have linked {t : State} {x : Scope} (rest : Acts x (s.lineLoss m) t) :
        t.fe.flags &&& FaultKind.moduleLinkLost.bit = FaultKind.moduleLinkLost.bit :=
      (s.lineLoss_raised m).flag_stands rest.flags
    have faulty (st : (s.module m).state = .faulted ∨ (s.module m).state = .lockedOut) :
        (s.module m).state ≠ .idle ∧ (s.module m).state ≠ .running ∧ (s.module m).state ≠ .held
          ∧ (s.module m).state ≠ .stopping ∧ (s.module m).state ≠ .starting := by
      rcases st with h | h <;> rw [h] <;> decide
    obtain st | st | st : ((s.module m).state = .idle ∨ (s.module m).state = .running
        ∨ (s.module m).state = .held ∨ (s.module m).state = .stopping)
        ∨ (s.module m).state = .starting
        ∨ ((s.module m).state = .faulted ∨ (s.module m).state = .lockedOut) := by
      cases h : (s.module m).state <;> first | exact absurd h ho | simp
    · have taken := (s.lineLoss m).moduleFaulted_taken m none
      have enters := State.moduleFaulted_enters none acts (by rw [mod]) (by rw [mod]) (by rw [mod])
      refine ⟨_, execModuleLineLoss_faults hl st, by rw [taken.module, mod]; rfl,
        linked (((State.moduleFaulted_acts _ m none (x := lineScope s m) List.mem_cons_self
          (lineScope_outlet (by rw [mod])) rfl (by show _ ∈ moduleKinds; decide)
          entryKinds_module)).trans (State.settle_acts _ _)),
        enters.elsewhere, enters.account, fun _ => enters, fun h => ?_, fun h => ?_⟩
      · rcases st with g | g | g | g <;> rw [h] at g <;> cases g
      · obtain ⟨h1, h2, h3, h4, -⟩ := faulty h
        rcases st with g | g | g | g <;> contradiction
    · have rest : Acts (lineScope s m) (s.lineLoss m) ((s.lineLoss m).startFailed m none).settle :=
        (State.startFailed_acts _ m none List.mem_cons_self (by show _ ∈ moduleKinds; decide)).trans
          (State.settle_acts _ _)
      have all := acts.trans rest
      have starting : ((s.lineLoss m).module m).state = .starting := by rw [mod]; exact st
      refine ⟨_, execModuleLineLoss_starting hl st, ?_, linked rest, all.elsewhere,
        all.keepsAccount rfl, fun h => ?_, fun _ unit => (State.startFailed_enters none acts unit
          starting (by rw [mod]) (by rw [mod])).1, fun h => absurd st (faulty h).2.2.2.2⟩
      · by_cases unit : ∃ u, (s.lineLoss m).pool.unit = some u ∧ u.module = m
        · rw [(State.startFailed_taken none unit starting).1.module, mod]; rfl
        · rw [State.startFailed_unserved none unit, (State.settle_readings _ m).lineLost, mod]
      · rcases h with g | g | g | g <;> rw [st] at g <;> cases g
    · refine ⟨_, execModuleLineLoss_faulty hl st, by rw [mod], linked (.refl ⟨[], [], false, false, []⟩ _),
        acts.elsewhere, acts.keepsAccount rfl, fun h => ?_, fun h => absurd h (faulty st).2.2.2.2,
        fun _ => ⟨by rw [mod], s.lineLoss_raised m⟩⟩
      obtain ⟨h1, h2, h3, h4, -⟩ := faulty st
      rcases h with g | g | g | g <;> contradiction
  · exact congrArg _ (if_pos (by simpa using h))
  · refine ⟨_, ?_, State.startFailed_enters none (.refl _ _) ⟨u, hu, rfl⟩ hs rfl rfl⟩
    show Host.Outcome.next _ = _
    rw [hu]
  · exact ⟨_, congrArg Host.Outcome.next (if_pos ⟨hs, by unfold Module.stopTimeRuns; rw [hp]; exact hn⟩),
      State.moduleFaulted_enters none (.refl _ _) rfl rfl rfl⟩

/-- Settles O18: by the table of R21, with no request pending where a module comes to IDLE. -/
theorem stopsAndFaultsEnd : Obligations.StopsAndFaultsEnd := by
  intro m r s hpass
  refine ⟨fun p rating o hs hp hn hrate ho hr => ?_, fun p since o hs hp hn ho hr hc he hq hw => ?_,
    fun hs hr hc => ⟨fun hf he hw => ?_, fun hf => ?_⟩⟩
  all_goals
    have declared : (s.module m).state ≠ .offline := by rw [hs]; decide
    have copied : s.copyReport m r = s.copied m r :=
      State.copyReport_of_unloaded r (by rw [hs]; decide) (by rw [hs]; decide)
    have mod := s.module_copied m r
    have hs' : ((s.copied m r).module m).state = (s.module m).state := by rw [mod]; rfl
  · refine (execModuleReport_declared r declared).trans (congrArg Host.Outcome.next ?_)
    have judged : (s.copied m r).judgeReport m r = (s.copied m r).stoppingReport m r := by
      unfold State.judgeReport
      dsimp only
      rw [hs', hs]
      rcases hr with hr | hr <;> rw [hr]
    have waits : ((s.copied m r).module m).stopTimeRuns = false := by
      rw [mod]; unfold Module.stopTimeRuns Module.copyReport; rw [hp]; dsimp only; rw [hn]; rfl
    have fallen : (s.copied m r).currentFallen ((s.copied m r).module m) r.current
        = decide (r.current * 20 < rating * 1000000 / (1732 * (s.berth o).nominalVolts)) := by
      rw [mod]; unfold State.currentFallen Module.copyReport ratedCurrent; rw [hrate, ho]; rfl
    rw [copied, judged]
    unfold State.stoppingReport
    dsimp only
    rw [if_neg (by rw [waits]; decide), fallen]
    by_cases low : r.current * 20 < rating * 1000000 / (1732 * (s.berth o).nominalVolts)
    · rw [decide_eq_true low, if_pos rfl, State.settle_of_no_pass (by exact hpass), State.copied,
        State.onModule_onModule]
      refine State.onModule_congr ?_
      unfold Module.commandStop Module.copyReport
      dsimp only
      rw [if_pos low, hp, Option.map_some, hn]
      rfl
    · rw [decide_eq_false low, if_neg Bool.false_ne_true, State.settle_of_no_pass (by exact hpass)]
      refine State.onModule_congr ?_
      unfold Module.copyReport
      rw [if_neg low, hp]
  · have judged : (s.copied m r).judgeReport m r = (s.copied m r).stopComplete m := by
      unfold State.judgeReport State.stoppingReport
      dsimp only
      rw [hs', hs, hr]
      have runs : ((s.copied m r).module m).stopTimeRuns = true := by
        rw [mod]; unfold Module.stopTimeRuns Module.copyReport; rw [hp]; dsimp only; rw [hn]; rfl
      dsimp only
      rw [if_pos runs, if_pos ⟨rfl, hc⟩]
    have ho' : ((s.copied m r).module m).outlet = some o := by rw [mod]; exact ho
    have stopped := State.stopComplete_of_noEntries (s := s.copied m r) ho' he hq
    have acts : Acts ⟨[o], [m], false, true, entryKinds⟩ s (((s.copied m r).stopComplete m).settle) :=
      ((State.copied_acts s m r List.mem_cons_self).trans (State.stopComplete_acts _ m
        List.mem_cons_self (fun q hq => by rw [ho'] at hq; cases hq; exact List.mem_cons_self) rfl
        fun _ h => h)).trans (State.settle_acts _ _)
    have quiet : ((s.copied m r).stopComplete m).noneWaits :=
      (((State.copied_acts s m r (x := ⟨[o], [m], false, true, entryKinds⟩) List.mem_cons_self).trans
        (State.stopComplete_acts _ m List.mem_cons_self
        (fun q hq => by rw [ho'] at hq; cases hq; exact List.mem_cons_self) rfl
        fun _ h => h)).keepsAccount rfl hw).1
    have final : (((s.copied m r).stopComplete m).settle).module m
        = ((s.module m).copyReport r s.tb.run).toIdle := by
      rw [State.settle_of_noneWaits quiet]
      exact stopped.trans (by rw [mod])
    refine ⟨_, execModuleReport_declared r declared, ?_⟩
    rw [copied, judged, final]
    exact ⟨rfl, rfl, rfl, .of_copyReport ⟨rfl, rfl, rfl, rfl, rfl⟩, acts.elsewhere,
      acts.keepsAccount rfl⟩
  · have judged : (s.copied m r).judgeReport m r = (s.copied m r).changeModule m Module.toIdle := by
      unfold State.judgeReport
      dsimp only
      rw [hs', hs, hr]
      dsimp only
      rw [if_pos hc]
      unfold State.recover
      rw [if_pos (by rw [mod]; exact hf), State.arbitrate_of_no_entry (by exact he)]
    have acts : Acts ⟨[], [m], false, false, []⟩ s (((s.copied m r).changeModule m Module.toIdle).settle) :=
      ((State.copied_acts s m r List.mem_cons_self).trans (State.changeModule_acts _
        (.inl List.mem_cons_self))).trans (State.settle_acts _ _)
    have final : (((s.copied m r).changeModule m Module.toIdle).settle).module m
        = ((s.module m).copyReport r s.tb.run).toIdle := by
      rw [State.settle_of_noneWaits (by exact hw)]
      exact (State.module_changeModule_self _ _ _).trans (by rw [mod])
    refine ⟨_, execModuleReport_declared r declared, ?_⟩
    rw [copied, judged, final]
    exact ⟨rfl, .of_copyReport ⟨rfl, rfl, rfl, rfl, rfl⟩, acts.elsewhere, acts.keepsAccount rfl,
      acts.noFault rfl⟩
  · obtain ⟨u, hu⟩ : ∃ u, u = ((s.copied m r).changeModule m fun x =>
      { x with state := .lockedOut }).raise .moduleLockout (.module m) none := ⟨_, rfl⟩
    have judged : (s.copied m r).judgeReport m r = u := by
      unfold State.judgeReport
      dsimp only
      rw [hs', hs, hr]
      dsimp only
      rw [if_pos hc]
      unfold State.recover
      rw [if_neg (by rw [mod]; exact Nat.not_lt.mpr hf), hu]
    have locked : u.module m = { (s.module m).copyReport r s.tb.run with state := .lockedOut } := by
      rw [hu, State.module_changeModule_raise, mod]
    have acts : Acts ⟨[], [m], false, false, [.moduleLockout]⟩ s u.settle := by
      rw [hu]
      exact (((State.copied_acts s m r List.mem_cons_self).trans (State.changeModule_acts _
        (.inl List.mem_cons_self))).trans (.raise _ _ _ _ _ List.mem_cons_self)).trans
        (State.settle_acts _ _)
    have final : u.settle.module m = _ := ((State.settle_loaded u).module
      (by rw [locked]; exact ModuleState.noConfusion)
      (by rw [locked]; exact ModuleState.noConfusion)).trans locked
    refine ⟨_, execModuleReport_declared r declared, ?_⟩
    rw [copied, judged, final]
    refine ⟨rfl, rfl, .of_copyReport ⟨rfl, rfl, rfl, rfl, rfl⟩, ?_, acts.elsewhere,
      acts.keepsAccount rfl⟩
    have raised : Raised .moduleLockout s u := by
      rw [hu]; exact Raised.before (t := (s.copied m r).changeModule m fun x =>
        { x with state := .lockedOut }) (.of_fe rfl) (State.raise_raised _ _ _ _)
    exact raised.after (State.settle_noFault u)

end Sys2Proof.Proofs
end


-- ==== Sys2Proof/Proofs/Starts.lean ====
section
/-! PROOFS. Module reports in general, the completion of a start, and the needs that a changed rating
raises (R21, R25, R32, R33, R90). -/

namespace Sys2Proof.Machine

open Sys2Proof

/-! ### Readings and outlets through a report -/

theorem State.onModule_readings {s : State} {m : ModuleNo} {f : Module → Module}
    (h : SameReadings (s.module m) (f (s.module m))) : KeepsReadings s (s.onModule m f) :=
  (State.changeModule_readings h).trans fun _ => .refl _

theorem State.leaveUnit_readings (s : State) (m : ModuleNo) : KeepsReadings s (s.leaveUnit m) := by
  unfold State.leaveUnit
  split
  · exact fun _ => .refl _
  · exact .refl _

theorem State.moduleLeft_readings (s : State) (outlet : Option Outlet) (running : Bool) :
    KeepsReadings s (s.moduleLeft outlet running) := by
  unfold State.moduleLeft
  split
  · exact State.arbitrate_readings _
  · refine KeepsReadings.trans ?_ (State.arbitrate_readings _)
    refine KeepsReadings.trans ?_ (State.tryClose_readings _ _)
    split
    · exact State.capacityChanged_readings _ _
    · exact State.servePool_readings _ _

theorem State.faultRaised_readings (s : State) (m : ModuleNo) (code : Option Nat) (k : FaultKind) :
    KeepsReadings s ((s.changeModule m fun x => x.toFaulted code).raise k (.module m) code) :=
  (State.changeModule_readings ⟨rfl, rfl, rfl, rfl, rfl⟩).trans (.of_pool (State.raise_pool _ _ _ _))

theorem State.moduleFaulted_readings (s : State) (m : ModuleNo) (code : Option Nat) :
    KeepsReadings s (s.moduleFaulted m code) := by
  unfold State.moduleFaulted
  dsimp only
  refine KeepsReadings.trans ?_ (State.moduleLeft_readings _ _ _)
  have left := (s.faultRaised_readings m code .moduleFault).trans (State.leaveUnit_readings _ m)
  split
  · refine left.trans ?_
    unfold State.ariseReplace
    split
    · exact .of_pool rfl
    · exact .refl _
  · exact left

theorem State.startFailed_readings (s : State) (m : ModuleNo) (code : Option Nat) :
    KeepsReadings s (s.startFailed m code) := by
  unfold State.startFailed
  split
  · exact .refl _
  · split
    · have freed : KeepsReadings s (((s.changeModule m fun x => x.toFaulted code).raise
          .moduleStartFail (.module m) code).freeUnit) :=
        (s.faultRaised_readings m code .moduleStartFail).trans fun _ => .refl _
      dsimp only
      refine KeepsReadings.trans ?_ (State.servePool_readings _ _)
      split
      · exact freed.trans (.of_pool rfl)
      · exact freed
    · exact .refl _

theorem State.startComplete_readings (s : State) (m : ModuleNo) :
    KeepsReadings s (s.startComplete m) := by
  have started : KeepsReadings s ((s.changeModule m fun x =>
      { x with state := .running, precharged := false, busForming := false }).leaveUnit m) :=
    (State.changeModule_readings ⟨rfl, rfl, rfl, rfl, rfl⟩).trans (State.leaveUnit_readings _ m)
  unfold State.startComplete
  dsimp only
  split
  · exact (started.trans (State.capacityChanged_readings _ _)).trans (State.arbitrate_readings _)
  · exact started.trans (State.arbitrate_readings _)

theorem State.stopComplete_readings (s : State) (m : ModuleNo) :
    KeepsReadings s (s.stopComplete m) :=
  ((State.changeModule_readings (f := Module.toIdle) ⟨rfl, rfl, rfl, rfl, rfl⟩).trans
    (State.leaveUnit_readings _ m)).trans (State.moduleLeft_readings _ _ _)

theorem State.stoppingReport_readings (s : State) (m : ModuleNo) (r : ModuleReport) :
    KeepsReadings s (s.stoppingReport m r) := by
  unfold State.stoppingReport
  dsimp only
  split
  · split
    · exact s.stopComplete_readings m
    · exact .refl _
  · split
    · exact State.onModule_readings ⟨rfl, rfl, rfl, rfl, rfl⟩
    · exact .refl _

theorem State.recover_readings (s : State) (m : ModuleNo) : KeepsReadings s (s.recover m) := by
  unfold State.recover
  split
  · exact (State.changeModule_readings (f := Module.toIdle) ⟨rfl, rfl, rfl, rfl, rfl⟩).trans
      (State.arbitrate_readings _)
  · exact (State.changeModule_readings (f := fun x => { x with state := .lockedOut })
      ⟨rfl, rfl, rfl, rfl, rfl⟩).trans (.of_pool (State.raise_pool _ _ _ _))

/-- A report judged leaves the readings as they were copied. -/
theorem State.judgeReport_readings (s : State) (m : ModuleNo) (r : ModuleReport) :
    KeepsReadings s (s.judgeReport m r) := by
  unfold State.judgeReport
  dsimp only
  split
  all_goals first
    | exact .refl _
    | exact s.stoppingReport_readings m r
    | exact s.moduleFaulted_readings m _
    | exact s.startFailed_readings m _
    | exact State.onModule_readings ⟨rfl, rfl, rfl, rfl, rfl⟩
    | skip
  · split
    · exact s.recover_readings m
    · exact .refl _
  · split
    · exact s.startComplete_readings m
    · exact s.startFailed_readings m _
  all_goals
    split
    · exact s.stoppingReport_readings m r
    · exact s.moduleFaulted_readings m _

theorem State.copyReport_of_none {s : State} {m : ModuleNo} (r : ModuleReport)
    (ho : (s.module m).outlet = none) : s.copyReport m r = s.copied m r := by
  unfold State.copyReport
  dsimp only
  rw [ho]
  rfl

theorem State.copyReport_of_some {s : State} {m : ModuleNo} (r : ModuleReport) {o : Outlet}
    (ho : (s.module m).outlet = some o) : s.copyReport m r
      = if ((s.copied m r).module m).effective = (s.module m).effective then s.copied m r
        else (s.copied m r).ratingChanged (s.module m).state o := by
  unfold State.copyReport
  dsimp only
  rw [ho]
  rfl

/-- A copy of a report is the readings, and what a changed rating brings at the outlet. -/
theorem State.copyReport_cases (s : State) (m : ModuleNo) (r : ModuleReport) :
    s.copyReport m r = s.copied m r
      ∨ ∃ o, (s.module m).outlet = some o
        ∧ (((s.module m).state = .running ∧ s.copyReport m r = (s.copied m r).capacityChanged o)
          ∨ ((s.module m).state = .starting ∧ s.copyReport m r = (s.copied m r).servePool o)) := by
  cases ho : (s.module m).outlet with
  | none => exact .inl (State.copyReport_of_none r ho)
  | some o =>
    rw [State.copyReport_of_some r ho]
    split
    · exact .inl rfl
    · unfold State.ratingChanged
      split
      · exact .inr ⟨o, rfl, .inl ⟨‹_›, rfl⟩⟩
      · exact .inr ⟨o, rfl, .inr ⟨‹_›, rfl⟩⟩
      all_goals exact .inl rfl

theorem State.copyReport_readings (s : State) (m : ModuleNo) (r : ModuleReport) :
    KeepsReadings (s.copied m r) (s.copyReport m r) := by
  rcases s.copyReport_cases m r with h | ⟨o, -, ⟨-, h⟩ | ⟨-, h⟩⟩ <;> rw [h]
  · exact .refl _
  · exact State.capacityChanged_readings _ _
  · exact State.servePool_readings _ _

theorem State.module_trip (s : State) (o : Outlet) (c : Cause) (m : ModuleNo) :
    (s.trip o c).module m = (s.moveTo o .tripped).module m := by
  have : (s.trip o c).pool = (s.moveTo o .tripped).pool := rfl
  unfold State.module
  rw [this]

/-- A module that is not IDLE keeps its outlet through an entry to a state. -/
theorem State.enter_outlet (s : State) (o : Outlet) (new : OutletState) (pSet : Nat) (m : ModuleNo)
    (h : (s.module m).state ≠ .idle) :
    ((s.enter o new pSet).module m).outlet = (s.module m).outlet
      ∧ ((s.enter o new pSet).module m).state ≠ .idle := by
  obtain ⟨ho, hi⟩ := s.module_moveTo_outlet o new pSet m h
  unfold State.enter
  dsimp only
  split
  · obtain ⟨ho', hi'⟩ := (s.moveTo o new pSet).module_moveTo_outlet o .tripped 0 m hi
    rw [State.module_trip]
    exact ⟨ho'.trans ho, hi'⟩
  · exact ⟨ho, hi⟩

/-- The outlet's blocks with a change of its capacity handed to them (R23, R65, R94, R113, R114). -/
def State.capacityHanded (s : State) (o : Outlet) : State :=
  s.onBerth o fun b => ({ (b.syCapacity (s.capacity o)) with
    sc := b.sc.judgeShort (s.capacity o) s.tb.run }).judgeCapacityWatches (s.capacity o) s.tb.run

theorem State.capacityChanged_eq (s : State) (o : Outlet) : s.capacityChanged o
    = (((s.capacityHanded o).servePool o).tryDeadBus o).judgeEnergising o := rfl

theorem State.tryDeadBus_outlet (s : State) (o : Outlet) (m : ModuleNo)
    (h : (s.module m).state ≠ .idle) : ((s.tryDeadBus o).module m).outlet = (s.module m).outlet
      ∧ ((s.tryDeadBus o).module m).state ≠ .idle := by
  unfold State.tryDeadBus State.issueClose
  split
  · exact State.enter_outlet (s.onSy o fun y => y.issue s.now none) o .closing 0 m h
  · exact ⟨rfl, h⟩

theorem State.judgeEnergising_outlet (s : State) (o : Outlet) (m : ModuleNo)
    (h : (s.module m).state ≠ .idle) :
    ((s.judgeEnergising o).module m).outlet = (s.module m).outlet := by
  unfold State.judgeEnergising
  dsimp only
  split
  · exact (State.enter_outlet s o .synchronising 0 m h).1
  · rfl

theorem State.capacityChanged_outlet (s : State) (o : Outlet) (m : ModuleNo)
    (h : (s.module m).state ≠ .idle) :
    ((s.capacityChanged o).module m).outlet = (s.module m).outlet := by
  have served : ((s.capacityHanded o).servePool o).module m = s.module m :=
    State.module_servePool_of_ne_idle _ _ _ h
  obtain ⟨outlet, busy⟩ := ((s.capacityHanded o).servePool o).tryDeadBus_outlet o m
    (by rw [served]; exact h)
  rw [State.capacityChanged_eq, State.judgeEnergising_outlet _ o m busy, outlet, served]

theorem State.copyReport_outlet (s : State) (m : ModuleNo) (r : ModuleReport) :
    ((s.copyReport m r).module m).outlet = (s.module m).outlet := by
  have copied : ((s.copied m r).module m).outlet = (s.module m).outlet
      ∧ ((s.copied m r).module m).state = (s.module m).state := by
    rw [State.module_copied]; exact ⟨rfl, rfl⟩
  rcases s.copyReport_cases m r with h | ⟨o, -, ⟨hs, h⟩ | ⟨hs, h⟩⟩ <;> rw [h]
  · exact copied.1
  · exact (State.capacityChanged_outlet _ o m (by rw [copied.2, hs]; decide)).trans copied.1
  · rw [State.module_servePool_of_ne_idle _ o m (by rw [copied.2, hs]; decide)]; exact copied.1

/-- What a report brings, within the scope of the module's line. -/
theorem State.moduleReport_acts (s : State) (m : ModuleNo) (r : ModuleReport) :
    Acts (lineScope s m) s ((s.copyReport m r).judgeReport m r).settle :=
  ((State.copyReport_acts s m r List.mem_cons_self (lineScope_outlet rfl) entryKinds_module).trans
    (State.judgeReport_acts _ m r List.mem_cons_self (lineScope_outlet (s.copyReport_outlet m r)) rfl
      fun _ h => h)).trans (State.settle_acts _ _)

/-! ### Reports that the module's state expects (R21, R25) -/

/-- The reports that the module's state expects, and that change nothing else (R21). -/
def Module.expects (x : Module) (r : ModuleReport) : Prop :=
  x.state = .lockedOut
    ∨ (x.state = .idle ∧ r.state = .stopped)
    ∨ (x.state = .running ∧ r.state = .running)
    ∨ (x.state = .held ∧ r.state = .running)
    ∨ (x.state = .faulted ∧ (r.state ≠ .stopped ∨ r.code ≠ none))
    ∨ (x.state = .starting ∧ (r.state = .stopped ∨ r.state = .precharging))

theorem State.judgeReport_expected {s : State} {m : ModuleNo} {r : ModuleReport}
    (h : (s.module m).expects r) : s.judgeReport m r = s := by
  unfold State.judgeReport
  dsimp only
  rcases h with hs | ⟨hs, hr⟩ | ⟨hs, hr⟩ | ⟨hs, hr⟩ | ⟨hs, hr⟩ | ⟨hs, hr | hr⟩ <;> rw [hs]
  · rw [hr]
  · rw [hr]
  · rw [hr]
  · cases hst : r.state <;> first | rfl | skip
    exact if_neg (hr.resolve_left fun g => g hst)
  · rw [hr]
  · rw [hr]

theorem State.judgeReport_precharged {s : State} {m : ModuleNo} {r : ModuleReport}
    (hs : (s.module m).state = .starting) (hr : r.state = .precharged) :
    s.judgeReport m r = s.onModule m fun x => { x with precharged := true } := by
  unfold State.judgeReport
  dsimp only
  rw [hs, hr]

/-! ### The completion of a start (R25) -/

theorem Pool.sum_set (p : Pool) (m : ModuleNo) (x : Module) (f : Module → Nat) :
    ({ p with modules := p.modules.set m x } : Pool).sum f + f (p.modules.get m)
      = p.sum f + f x := by
  unfold Pool.sum
  cases m <;>
    simp only [Dozen.toList, Dozen.set, Dozen.get, List.map, List.foldl] <;> omega

/-- A module that comes to run at an outlet brings it its effective rating. -/
theorem State.capacity_changeModule {s : State} {m : ModuleNo} {f : Module → Module} {o : Outlet}
    (before : (s.module m).inStateAt .running o = false)
    (after : (f (s.module m)).inStateAt .running o = true) :
    (s.changeModule m f).capacity o = s.capacity o + (f (s.module m)).effective := by
  have total := s.pool.sum_set m (f (s.module m)) fun x =>
    if x.inStateAt .running o then x.effective else 0
  rw [show s.pool.modules.get m = s.module m from rfl, if_neg (by rw [before]; decide),
    if_pos after] at total
  exact total

/-- SC's judgement of ENERGISING needs none of the entry (R90, R105). -/
theorem State.judgeEnergising_eq (s : State) (o : Outlet) : s.judgeEnergising o
    = if (s.berth o).sc.state = .energising ∧ (s.berth o).declaresParallel
        ∧ (s.berth o).sc.target ≤ s.capacity o ∧ (s.berth o).mu.shore.live ∧ (s.berth o).mu.ship.live
      then s.moveTo o .synchronising else s := by
  unfold State.judgeEnergising
  dsimp only
  split
  · rename_i h
    exact State.enter_of_none (by rw [h.1]; decide) (by decide)
      (Berth.causeEntering_none _ _ (by decide) rfl)
  · rfl

theorem State.tryDeadBus_of_not {s : State} {o : Outlet} (h : (s.berth o).declaresDeadBus = false) :
    s.tryDeadBus o = s := by
  unfold State.tryDeadBus
  rw [if_neg (by simp [Berth.deadBusReady, h])]

theorem Berth.declares_congr {b c : Berth} (h : c.sc.declaration = b.sc.declaration) :
    c.declaresDeadBus = b.declaresDeadBus ∧ c.declaresParallel = b.declaresParallel := by
  unfold Berth.declaresDeadBus Berth.declaresParallel
  rw [h]
  exact ⟨rfl, rfl⟩

/-- What a capacity handed on leaves of an outlet's SC and measures. -/
theorem State.capacityHanded_berth (s : State) (o : Outlet) :
    ((s.capacityHanded o).berth o).mu = (s.berth o).mu
      ∧ ((s.capacityHanded o).berth o).sc.state = (s.berth o).sc.state
      ∧ ((s.capacityHanded o).berth o).sc.session = (s.berth o).sc.session
      ∧ ((s.capacityHanded o).berth o).sc.declaration = (s.berth o).sc.declaration
      ∧ ((s.capacityHanded o).berth o).sc.target = (s.berth o).sc.target := by
  unfold State.capacityHanded
  rw [State.berth_onBerth_self]
  refine ⟨?_, rfl, rfl, rfl, rfl⟩
  show (Berth.syCapacity (s.berth o) _).mu = _
  rw [Berth.syCapacity_rest]

/-- An outlet that takes a change of its capacity without a DEAD_BUS declaration (R90): its loads stand, and
in ENERGISING it enters SYNCHRONISING where all conditions hold. -/
theorem State.capacityChanged_parallel {s : State} {o : Outlet}
    (h : (s.berth o).declaresDeadBus = false) : KeepsLoaded s (s.capacityChanged o)
      ∧ PoolServes [] s (s.capacityChanged o)
      ∧ ((s.capacityChanged o).berth o).sc.session = (s.berth o).sc.session
      ∧ ((s.berth o).sc.state = .energising → (s.berth o).declaresParallel = true →
          ((s.capacityChanged o).berth o).sc.state =
            if (s.berth o).sc.target ≤ s.capacity o ∧ (s.berth o).mu.shore.live = true
              ∧ (s.berth o).mu.ship.live = true then .synchronising else .energising) := by
  obtain ⟨v, hv⟩ : ∃ v, v = (s.capacityHanded o).servePool o := ⟨_, rfl⟩
  have hb : SameButPool ((s.capacityHanded o).berth o) (v.berth o) := by
    rw [hv]; exact (State.servePool_poolOnly _ o).berth o
  obtain ⟨hmu, hstate, hsession, hdeclared, htarget⟩ := s.capacityHanded_berth o
  rw [← hb.sc] at hstate hsession hdeclared htarget
  obtain ⟨dead, parallel⟩ := Berth.declares_congr hdeclared
  have loaded : KeepsLoaded s v := by
    rw [hv]; exact (KeepsLoaded.of_pool (t := s.capacityHanded o) rfl).trans (State.servePool_loaded _ o)
  have serves : PoolServes [] s v := by
    rw [hv]; exact (PoolServes.onBerth List.not_mem_nil _ _).trans (State.servePool_serves _ _ _)
  have taken : s.capacityChanged o = v.judgeEnergising o := by
    rw [State.capacityChanged_eq, ← hv, State.tryDeadBus_of_not (by rw [dead]; exact h)]
  rw [taken, State.judgeEnergising_eq, hb.mu.trans hmu, hstate, htarget, loaded.capacity o, parallel]
  split
  · rename_i hc
    obtain ⟨hst, hp, enough, hshore, hship⟩ := hc
    refine ⟨loaded.trans (State.moveTo_loaded v o 0 (by rw [hstate, hst]; decide) (by decide)
        (by decide)),
      serves.trans (State.moveTo_serves List.not_mem_nil v .synchronising 0), ?_, fun _ _ => ?_⟩
    · rw [(v.moveTo_session o o .synchronising 0).1, hsession]
    · rw [if_pos ⟨enough, hshore, hship⟩, State.moveTo_state]
  · rename_i hc
    refine ⟨loaded, serves, hsession, fun he hp => ?_⟩
    rw [if_neg fun g => hc ⟨he, hp, g⟩, hstate]
    exact he

/-- A report of a STARTING module leaves its state, the loads and the outlet's blocks (R21). -/
theorem State.copyReport_starting {s : State} {m : ModuleNo} (r : ModuleReport)
    (hs : (s.module m).state = .starting) :
    (s.copyReport m r).module m = (s.module m).copyReport r s.tb.run
      ∧ KeepsLoaded (s.copied m r) (s.copyReport m r)
      ∧ ∀ o, SameButPool (s.berth o) ((s.copyReport m r).berth o) := by
  rcases s.copyReport_cases m r with h | ⟨o, -, ⟨hs', -⟩ | ⟨-, h⟩⟩
  · rw [h]
    exact ⟨State.module_copied _ _ _, .refl _, fun o => .refl _⟩
  · rw [hs] at hs'; cases hs'
  · rw [h]
    refine ⟨?_, State.servePool_loaded _ o, fun p =>
      (State.servePool_poolOnly (s.copied m r) o).berth p⟩
    rw [State.module_servePool_of_ne_idle, State.module_copied]
    rw [State.module_copied]
    show (s.module m).state ≠ .idle
    rw [hs]; decide

theorem State.module_leaveUnit (s : State) (m n : ModuleNo) :
    (s.leaveUnit m).module n = s.module n := by unfold State.leaveUnit; split <;> rfl

/-- The state with a start just completed (R25): the module runs, and the unit is free of it. -/
def State.started (s : State) (m : ModuleNo) : State :=
  (s.changeModule m fun x => { x with state := .running, precharged := false, busForming := false }
    ).leaveUnit m

theorem State.module_started (s : State) (m : ModuleNo) : (s.started m).module m
    = { s.module m with state := .running, precharged := false, busForming := false } := by
  unfold State.started
  rw [State.module_leaveUnit, State.module_changeModule_self]

theorem State.berth_started (s : State) (m : ModuleNo) (o : Outlet) :
    (s.started m).berth o = s.berth o := by
  unfold State.started State.leaveUnit; split <;> rfl

theorem State.started_unit (s : State) (m : ModuleNo) (u : Serving)
    (h : (s.started m).pool.unit = some u) : u.module ≠ m := by
  intro e
  have served : ∀ t : State, t.pool.unit = some u → t.unitServes m = true := fun t ht => by
    unfold State.unitServes; rw [ht]; exact beq_iff_eq.mpr e
  unfold State.started State.leaveUnit at h
  split at h
  · cases h
  · next hn => exact hn (served _ h)

theorem State.capacity_started {s : State} {m : ModuleNo} {o : Outlet}
    (hs : (s.module m).state = .starting) (ho : (s.module m).outlet = some o) :
    (s.started m).capacity o = s.capacity o + (s.module m).effective := by
  have left (t : State) : (t.leaveUnit m).capacity o = t.capacity o := by
    unfold State.leaveUnit; split <;> rfl
  unfold State.started
  rw [left]
  exact State.capacity_changeModule (by simp [Module.inStateAt, hs]) (by simp [Module.inStateAt, ho])

theorem State.startComplete_eq {s : State} {m : ModuleNo} {o : Outlet}
    (ho : (s.module m).outlet = some o) :
    s.startComplete m = ((s.started m).capacityChanged o).arbitrate := by
  unfold State.startComplete
  dsimp only
  rw [ho]
  rfl

theorem State.judgeReport_completes {s : State} {m : ModuleNo} {r : ModuleReport}
    (hs : (s.module m).state = .starting) (hp : (s.module m).precharged = true)
    (hr : r.state = .running) : s.judgeReport m r = s.startComplete m := by
  unfold State.judgeReport
  dsimp only
  rw [hs, hr]
  exact if_pos hp

/-! ### Needs (R32, R33) -/

theorem State.assigned_congr {s t : State} {o : Outlet}
    (h : ∀ m, (t.module m).outlet = some o ↔ (s.module m).outlet = some o) :
    t.assigned o = s.assigned o := by
  unfold State.assigned Pool.which
  congr 1
  refine List.filter_congr fun m _ => ?_
  have : t.pool.modules.get m = t.module m ∧ s.pool.modules.get m = s.module m := ⟨rfl, rfl⟩
  rw [this.1, this.2, Bool.eq_iff_iff]
  simpa [Module.assignedTo] using h m

theorem State.tidyWatches_needs (s : State) (o : Outlet) :
    ((s.tidyWatches o).berth o).mp.entry = (s.berth o).mp.entry
      ∧ ((s.tidyWatches o).berth o).mp.replaceArisen = (s.berth o).mp.replaceArisen := by
  unfold State.tidyWatches
  rw [State.berth_onMp_self, State.berth_onMp_self]
  exact ⟨rfl, rfl⟩

theorem OutletPool.request_entry (p : OutletPool) (cls : RequestClass) (now : TimeStamp) :
    (p.request cls now).entry = some (p.entry.elim { cls, arrival := now } fun e =>
      { e with cls := e.cls.higher cls }) := by
  unfold OutletPool.request
  split
  · next h => rw [h]; rfl
  · next e h => rw [h]; rfl

/-- Where the prospective capacity is short, the class whose condition holds is requested (R32, R33). -/
theorem State.judgeNeed_short {s : State} {o : Outlet} {cls : RequestClass}
    (hr : (s.berth o).sc.state.requests = true) (hs : s.prospective o < (s.berth o).sc.target)
    (ha : s.assigned o < 8) (hc : (s.berth o).mp.needClass (s.berth o).sc.state = some cls) :
    ((s.judgeNeed o).berth o).mp.entry = some ((s.berth o).mp.entry.elim
      { cls, arrival := s.now } fun e => { e with cls := e.cls.higher cls }) := by
  unfold State.judgeNeed
  dsimp only
  rw [(State.tidyWatches_needs _ o).1, hr, if_neg (by decide), if_pos hs, if_neg (by omega), hc,
    State.berth_onMp_self, OutletPool.request_entry]

/-- Where it is not, GROW alone outlasts the need (R33). -/
theorem State.judgeNeed_met {s : State} {o : Outlet}
    (hr : (s.berth o).sc.state.requests = true) (hm : (s.berth o).sc.target ≤ s.prospective o) :
    ((s.judgeNeed o).berth o).mp.replaceArisen = false
      ∧ ((s.judgeNeed o).berth o).mp.entry
        = if 8 ≤ s.assigned o then none else (s.berth o).mp.entry.filter PendingEntry.outlastsNeed := by
  unfold State.judgeNeed
  dsimp only
  rw [(State.tidyWatches_needs _ o).1, (State.tidyWatches_needs _ o).2, hr, if_neg (by decide),
    if_neg (by omega), State.berth_onMp_self]
  exact ⟨rfl, rfl⟩

theorem State.arbitrate_of_busy {s : State} {u : Serving} (h : s.pool.unit = some u) :
    s.arbitrate = s := by unfold State.arbitrate; rw [h]

/-- A request raised in place: REPLACE stays, and any other entry takes the class (R33). -/
theorem RequestClass.higher_need (a : RequestClass) {cls : RequestClass} (h : cls ≠ .grow) :
    a.higher cls = if a = .replace then .replace else cls := by
  cases a <;> cases cls <;> first | exact absurd rfl h | rfl

end Sys2Proof.Machine

namespace Sys2Proof.Proofs
open Machine

/-- Settles O17: the readings copied, the start completed, and the need judged at the new rating. -/
theorem moduleReportsAndStarts : Obligations.ModuleReportsAndStarts := by
  refine ⟨fun m r s hpass => ⟨fun h => congrArg _ (if_pos h), fun h => ?_, fun hrate h => ?_⟩,
    fun m r o s hs ho hp hr hdead => ?_, fun m r o s u serving hpass hs ho hr hu eu hne hreq ha => ?_⟩
  · have acts := s.moduleReport_acts m r
    refine ⟨_, execModuleReport_declared r h, .of_copyReport ?_, acts.elsewhere, acts.keepsAccount rfl⟩
    rw [← State.module_copied]
    exact ((s.copyReport_readings m r).trans ((State.judgeReport_readings _ m r).trans
      (State.settle_readings _))) m
  · have declared : (s.module m).state ≠ .offline := by
      rcases h with h | ⟨h, -⟩ | ⟨h, -⟩ | ⟨h, -⟩ | ⟨h, -⟩ | ⟨h, -⟩ <;> rw [h] <;> decide
    refine (execModuleReport_declared r declared).trans (congrArg Host.Outcome.next ?_)
    rw [State.copyReport_of_sameRating hrate]
    have hs' : ((s.copied m r).module m).state = (s.module m).state := by rw [State.module_copied]; rfl
    by_cases hp : (s.module m).state = .starting ∧ r.state = .precharged
    · obtain ⟨hs, hr⟩ := hp
      rw [State.judgeReport_precharged (hs'.trans hs) hr, State.settle_of_no_pass (by exact hpass),
        State.copied, State.onModule_onModule]
      refine State.onModule_congr ?_
      unfold Module.copyReport
      simp only [hs, hr, beq_self_eq_true, Bool.and_self, Bool.or_true]
    · rw [State.judgeReport_expected, State.settle_of_no_pass (by exact hpass)]
      · refine State.onModule_congr ?_
        have unready : ((s.module m).state == .starting && r.state == .precharged) = false := by
          simpa using hp
        unfold Module.copyReport
        rw [unready, Bool.or_false]
      · unfold Module.expects
        rw [hs']
        rcases h with h | h | h | h | h | ⟨hs, h | h | h⟩
        · exact .inl h
        · exact .inr (.inl h)
        · exact .inr (.inr (.inl h))
        · exact .inr (.inr (.inr (.inl h)))
        · exact .inr (.inr (.inr (.inr (.inl h))))
        · exact .inr (.inr (.inr (.inr (.inr ⟨hs, .inl h⟩))))
        · exact .inr (.inr (.inr (.inr (.inr ⟨hs, .inr h⟩))))
        · exact absurd ⟨hs, h⟩ hp
  · have acts := s.moduleReport_acts m r
    obtain ⟨mod, loaded, berth⟩ := State.copyReport_starting r hs
    obtain ⟨c, hc⟩ : ∃ c, c = s.copyReport m r := ⟨_, rfl⟩
    rw [← hc] at mod loaded berth
    have cs : (c.module m).state = .starting := by rw [mod]; exact hs
    have co : (c.module m).outlet = some o := by rw [mod]; exact ho
    have judged : c.judgeReport m r = ((c.started m).capacityChanged o).arbitrate :=
      (State.judgeReport_completes cs (by rw [mod]; exact hp) hr).trans (State.startComplete_eq co)
    have sc : ((c.started m).berth o).sc = (s.berth o).sc := by
      rw [State.berth_started]; exact (berth o).sc
    have mu : ((c.started m).berth o).mu = (s.berth o).mu := by
      rw [State.berth_started]; exact (berth o).mu
    obtain ⟨dead, parallel⟩ := Berth.declares_congr (b := s.berth o) (c := (c.started m).berth o)
      (by rw [sc])
    obtain ⟨loaded', serves, session, entered⟩ :=
      State.capacityChanged_parallel (s := c.started m) (o := o) (by rw [dead]; exact hdead)
    rw [← hc] at acts
    obtain ⟨t, ht⟩ : ∃ t, t = (c.judgeReport m r).settle := ⟨_, rfl⟩
    rw [← ht] at acts
    have full : KeepsLoaded (c.started m) t := by
      rw [ht, judged]
      exact (loaded'.trans (State.arbitrate_loaded _)).trans (State.settle_loaded _)
    have final : t.module m = (c.started m).module m :=
      full.module (by rw [State.module_started]; exact ModuleState.noConfusion)
        (by rw [State.module_started]; exact ModuleState.noConfusion)
    have scope : lineScope s m = ⟨[o], [m], false, true, moduleKinds⟩ := by
      unfold lineScope; rw [ho]; rfl
    rw [scope] at acts
    have total : t.capacity o = (c.started m).capacity o := full.capacity o
    refine ⟨t, ?_, ?_, ?_, fun u hu => ?_, ?_, acts.elsewhere, acts.keepsAccount rfl,
      fun he hpar => ?_⟩
    · rw [ht, hc]; exact execModuleReport_declared r (by rw [hs]; decide)
    · rw [final, State.module_started]
    · rw [final, State.module_started]; exact co
    · have through : PoolServes [] (c.started m) t := by
        rw [ht, judged]
        exact (serves.trans (State.arbitrate_serves _ _)).trans
          (State.settle_serves fun o ho => absurd ho List.not_mem_nil)
      rcases through.unit u hu with ⟨v, hv, e⟩ | hi
      · rw [← e]; exact State.started_unit c m v hv
      · intro e
        rw [e, State.module_started] at hi
        cases hi
    · have unrun : (s.copied m r).capacity o = s.capacity o :=
        State.capacity_congr _ _ _ fun n => by
          by_cases e : n = m
          · subst e
            rw [State.module_copied]
            simp [Module.inStateAt, Module.copyReport, hs]
          · unfold State.copied; rw [State.module_onModule_ne _ _ e]
      rw [total, State.capacity_started cs co, loaded.capacity o, unrun, final, State.module_started]
      rfl
    · rw [sc, mu, parallel] at entered
      rw [sc] at session
      have judged_state := entered he hpar
      have parts : SameButPool (((c.started m).capacityChanged o).berth o) (t.berth o) := by
        have arbitrated := (State.arbitrate_poolOnly ((c.started m).capacityChanged o)).berth o
        rw [ht, judged]
        refine arbitrated.trans (State.settle_berth ?_)
        rw [arbitrated.sc, judged_state]
        split <;> decide
      rw [parts.sc, total]
      exact ⟨session, judged_state⟩
  · have eu' : u = s.copied m r := eu
    have changed : s.copyReport m r = u.judgeNeed o := by
      rw [State.copyReport_of_some r ho, ← eu', if_neg hne, hs]
      exact State.arbitrate_of_busy (u := serving) (by rw [State.judgeNeed_pool, eu']; exact hu)
    have mod : (u.judgeNeed o).module m = (s.module m).copyReport r s.tb.run := by
      rw [State.module_judgeNeed, eu', State.module_copied]
    have expected : ((u.judgeNeed o).module m).expects r := by
      rw [mod]; exact .inr (.inr (.inr (.inr (.inr ⟨hs, hr⟩))))
    have only := State.judgeNeed_poolOnly u o
    have ub (p : Outlet) : u.berth p = s.berth p := by rw [eu']; rfl
    have assigned : u.assigned o < 8 := by
      refine lt_of_eq_of_lt (State.assigned_congr fun n => ?_) ha
      by_cases e : n = m
      · subst e; rw [eu', State.module_copied]; rfl
      · rw [eu']; unfold State.copied; rw [State.module_onModule_ne _ _ e]
    have now : u.now = s.now := by rw [eu']; rfl
    refine ⟨u.judgeNeed o, ?_, ?_, ?_, fun q hq => ?_, fun cls hshort hcls => ?_, fun hmet => ?_⟩
    · refine (execModuleReport_declared r (by rw [hs]; decide)).trans (congrArg Host.Outcome.next ?_)
      rw [changed, State.judgeReport_expected expected]
      exact State.settle_of_no_pass (by rw [State.judgeNeed_passDue, eu']; exact hpass)
    · exact only.rest.trans (by rw [State.judgeNeed_pool, State.judgeNeed_passDue])
    · rw [← ub]; exact only.berth o
    · rw [State.judgeNeed_berth_ne hq, ub]
    · have need : (u.berth o).mp.needClass (u.berth o).sc.state = some cls := by
        rw [ub]
        unfold OutletPool.needClass
        rcases hcls with ⟨rfl, h⟩ | ⟨rfl, h, hst⟩
        · rw [h]; rfl
        · rw [h, if_neg (by decide), if_pos hst]
      have cls_need : cls ≠ .grow := by rcases hcls with ⟨rfl, -⟩ | ⟨rfl, -⟩ <;> decide
      rw [State.judgeNeed_short (by rw [ub]; exact hreq) (by rw [ub]; exact hshort) assigned need, ub,
        now]
      cases (s.berth o).mp.entry with
      | none => rfl
      | some e => rw [Option.elim_some, RequestClass.higher_need e.cls cls_need]
    · obtain ⟨arisen, entry⟩ := State.judgeNeed_met (s := u) (o := o) (by rw [ub]; exact hreq)
        (by rw [ub]; exact hmet)
      refine ⟨arisen, fun e he => ?_⟩
      rw [entry, if_neg (by omega), ub, he]
      unfold PendingEntry.outlastsNeed
      by_cases hg : e.cls = .grow <;> simp [Option.filter, hg]

end Sys2Proof.Proofs
end


-- ==== Sys2Proof/Proofs/Arbitration.lean ====
section
/-! PROOFS. The winner of an arbitration and the start that it begins, and the request that a failed start
returns (R24, R26, R34). -/

namespace Sys2Proof.Machine

open Sys2Proof

/-! ### The winner (R34) -/

/-- One entry goes before another, of equal class and arrival that of the lower outlet. -/
def PendingEntry.precedes (now : RunCount) (e : PendingEntry) (o : Outlet) (f : PendingEntry)
    (p : Outlet) : Prop :=
  f.cls.rank < e.cls.rank
    ∨ (f.cls = e.cls ∧ elapsed now f.arrival.run < elapsed now e.arrival.run)
    ∨ (f.cls = e.cls ∧ elapsed now f.arrival.run = elapsed now e.arrival.run ∧ o.number < p.number)

theorem PendingEntry.precedes.not_before {now : RunCount} {e f : PendingEntry} {o p : Outlet}
    (h : e.precedes now o f p) : f.before now e = false := by
  unfold PendingEntry.before
  simp only [Bool.or_eq_false_iff, Bool.and_eq_false_imp, decide_eq_true_eq, decide_eq_false_iff_not]
  rcases h with h | ⟨h, g⟩ | ⟨h, g, -⟩
  · exact ⟨by omega, by omega⟩
  · rw [h]; exact ⟨lt_irrefl _, fun _ => by omega⟩
  · rw [h]; exact ⟨lt_irrefl _, fun _ => by omega⟩

theorem PendingEntry.precedes.before {now : RunCount} {e f : PendingEntry} {o p : Outlet}
    (h : e.precedes now o f p) (hn : p.number < o.number) : e.before now f = true := by
  unfold PendingEntry.before
  simp only [Bool.or_eq_true, Bool.and_eq_true, decide_eq_true_eq]
  rcases h with h | ⟨h, g⟩ | ⟨-, -, h⟩
  · exact .inl h
  · exact .inr ⟨by rw [h], g⟩
  · omega

theorem State.winner_mem {s : State} {l : List Outlet} {o : Outlet} {e : PendingEntry}
    (h : s.winner l = some (o, e)) : o ∈ l := by
  induction l generalizing o e with
  | nil => cases h
  | cons p l ih =>
    unfold State.winner at h
    split at h
    · next h₁ h₂ =>
      split at h
      · cases h; exact List.mem_cons_of_mem _ (ih h₂)
      · cases h; exact List.mem_cons_self
    · cases h; exact List.mem_cons_self
    · exact List.mem_cons_of_mem _ (ih h)

/-- The entry that precedes every other of a list of outlets in order of number wins (R34). -/
theorem State.winner_eq {s : State} {w : Outlet} {e : PendingEntry} {l : List Outlet}
    (ordered : l.Pairwise fun a b => a.number < b.number) (hw : w ∈ l)
    (he : (s.berth w).mp.entry = some e)
    (best : ∀ q f, q ≠ w → (s.berth q).mp.entry = some f → e.precedes s.tb.run w f q) :
    s.winner l = some (w, e) := by
  induction l with
  | nil => cases hw
  | cons q l ih =>
    obtain ⟨first, ordered⟩ := List.pairwise_cons.mp ordered
    unfold State.winner
    by_cases hq : q = w
    · subst hq
      rw [he]
      cases hrest : s.winner l with
      | none => rfl
      | some x =>
        obtain ⟨p, f⟩ := x
        have hp : p ≠ q := by
          rintro rfl
          exact lt_irrefl _ (first _ (State.winner_mem hrest))
        have := (best p f hp (State.winner_entry hrest)).not_before
        dsimp only
        rw [if_neg (by rw [this]; decide)]
    · rw [ih ordered ((List.mem_cons.mp hw).resolve_left fun h => hq h.symm)]
      cases hf : (s.berth q).mp.entry with
      | none => rfl
      | some f =>
        dsimp only
        rw [if_pos ((best q f hq hf).before (first w ((List.mem_cons.mp hw).resolve_left
          fun h => hq h.symm)))]

/-! ### The module chosen, and the start begun (R24, R35) -/

theorem State.countAt_eq_zero {s : State} {st : ModuleState} {o : Outlet} :
    s.countAt st o = 0 ↔ ∀ m, (s.module m).outlet = some o → (s.module m).state ≠ st := by
  unfold State.countAt
  rw [List.length_eq_zero_iff, List.eq_nil_iff_forall_not_mem]
  refine forall_congr' fun m => ?_
  rw [Pool.mem_which]
  show ¬(s.module m).inStateAt st o = true ↔ _
  unfold Module.inStateAt
  rw [Bool.and_eq_true, beq_iff_eq, beq_iff_eq]
  exact ⟨fun h ho hs => h ⟨hs, ho⟩, fun h ⟨hs, ho⟩ => h ho hs⟩

theorem State.mem_idleModules {s : State} {m : ModuleNo} :
    m ∈ s.idleModules ↔ (s.module m).state = .idle := by
  unfold State.idleModules
  rw [Pool.mem_which, beq_iff_eq]
  rfl

theorem State.pickModule_isSome {s : State} {better : Nat → Nat → Bool} {l : List ModuleNo}
    (h : l ≠ []) : (s.pickModule better l).isSome = true := by
  cases l with
  | nil => exact absurd rfl h
  | cons m l =>
    unfold State.pickModule
    split
    · rfl
    · split <;> rfl

/-- A module is chosen exactly where one is IDLE (R34, R35). -/
theorem State.chooseModule_isSome {s : State} {deficit : Nat} :
    (s.chooseModule deficit).isSome = true ↔ ∃ m, (s.module m).state = .idle := by
  constructor
  · intro h
    obtain ⟨m, hm⟩ := Option.isSome_iff_exists.mp h
    exact ⟨m, s.chooseModule_idle deficit m hm⟩
  · rintro ⟨m, hm⟩
    unfold State.chooseModule
    dsimp only
    split
    · exact State.pickModule_isSome (List.ne_nil_of_mem (State.mem_idleModules.mpr hm))
    · next h => exact State.pickModule_isSome fun e => h (by rw [e]; rfl)

theorem State.arbitrate_of_no_idle {s : State} (h : ∀ m, (s.module m).state ≠ .idle) :
    s.arbitrate = s := by
  unfold State.arbitrate
  split
  · split
    · rfl
    · next o e _ _ m hm => exact absurd (s.chooseModule_idle _ m hm) (h m)
  · rfl

/-- Arbitration with the unit free, a winner and a module chosen (R34). -/
theorem State.arbitrate_starts {s : State} {w : Outlet} {e : PendingEntry} {m : ModuleNo}
    (unit : s.pool.unit = none) (winner : s.winner Outlet.all = some (w, e))
    (chosen : s.chooseModule (s.deficit w e.cls) = some m) : s.arbitrate
      = ((s.onMp w fun p => { p with entry := none }).startModule m w e).judgeNeed w := by
  unfold State.arbitrate
  rw [unit, winner]
  dsimp only
  rw [chosen]

/-- A need judged with no entry brings one of now, if any (R32, R33). -/
theorem State.judgeNeed_arrival {s : State} {o : Outlet} (h : (s.berth o).mp.entry = none)
    {f : PendingEntry} (hf : ((s.judgeNeed o).berth o).mp.entry = some f) : f.arrival = s.now := by
  by_cases hr : (s.berth o).sc.state.requests = true
  · by_cases hs : s.prospective o < (s.berth o).sc.target
    · unfold State.judgeNeed at hf
      dsimp only at hf
      rw [(State.tidyWatches_needs _ o).1, hr, if_neg (by decide), if_pos hs] at hf
      split at hf
      · rw [State.berth_onMp_self] at hf; cases hf
      · split at hf
        · rw [State.berth_onMp_self, OutletPool.request_entry, h] at hf
          obtain rfl := Option.some.inj hf
          rfl
        · rw [h] at hf; cases hf
    · rw [(State.judgeNeed_met hr (not_lt.mp hs)).2, h] at hf
      split at hf <;> cases hf
  · rw [State.judgeNeed_entry_of_not (Bool.eq_false_iff.mpr hr)] at hf
    cases hf

/-- A module that comes to IDLE alone, with the unit free, starts for the winner (R24, R34). -/
theorem State.comesIdle_starts {s : State} {m : ModuleNo} {f : Module → Module} {w : Outlet}
    {e : PendingEntry} (idle : (f (s.module m)).state = .idle) (alone : ∀ n, n ≠ m → (s.module n).state ≠ .idle)
    (unit : s.pool.unit = none) (he : (s.berth w).mp.entry = some e)
    (best : ∀ q g, q ≠ w → (s.berth q).mp.entry = some g → e.precedes s.tb.run w g q) :
    (s.changeModule m f).arbitrate
      = (((s.changeModule m f).onMp w fun p => { p with entry := none }).startModule m w e).judgeNeed w := by
  refine State.arbitrate_starts unit (State.winner_eq (by decide) (by cases w <;> decide) he best) ?_
  obtain ⟨n, hn⟩ := Option.isSome_iff_exists.mp (State.chooseModule_isSome
    (s := s.changeModule m f) (deficit := (s.changeModule m f).deficit w e.cls) |>.mpr
      ⟨m, by rw [State.module_changeModule_self]; exact idle⟩)
  have hi := State.chooseModule_idle _ _ n hn
  by_cases h : n = m
  · rw [hn, h]
  · rw [State.module_changeModule_ne _ _ h] at hi
    exact absurd hi (alone n h)

theorem State.berth_startModule (s : State) (m : ModuleNo) (o q : Outlet) (e : PendingEntry) :
    (s.startModule m o e).berth q = s.berth q := rfl

/-- A start forms the bus where no voltage stands and no module of the outlet runs (Table 2-3, note a). -/
theorem State.formsBus_iff (s : State) (o : Outlet) : s.formsBus o = true
    ↔ (s.berth o).mu.shore.live = false
      ∧ ∀ n, (s.module n).outlet = some o → (s.module n).state ≠ .running := by
  unfold State.formsBus
  rw [Bool.and_eq_true, Bool.not_eq_true', decide_eq_true_eq, State.countAt_eq_zero]

/-! ### A failed start's request (R26) -/

/-- The state with a start failed: its module FAULTED, the fault raised and the unit free (R26). -/
def State.failedStart (s : State) (m : ModuleNo) : State :=
  ((s.changeModule m fun x => x.toFaulted none).raise .moduleStartFail (.module m) none).freeUnit

theorem State.module_failedStart_self (s : State) (m : ModuleNo) :
    (s.failedStart m).module m = (s.module m).toFaulted none :=
  State.module_changeModule_raise s m (fun x => x.toFaulted none) .moduleStartFail
    (.module m) none

theorem State.module_failedStart_ne (s : State) {m n : ModuleNo} (h : n ≠ m) :
    (s.failedStart m).module n = s.module n := by
  have pool : (s.failedStart m).pool.modules = (s.changeModule m fun x => x.toFaulted none).pool.modules :=
    rfl
  unfold State.module
  rw [pool]
  exact State.module_changeModule_ne s (fun x => x.toFaulted none) h

theorem execStartTimeExpiry_serving {s : State} {u : Serving} (h : s.pool.unit = some u) :
    execStartTimeExpiry s = .next (s.startFailed u.module none).settle := by
  unfold execStartTimeExpiry; rw [h]

/-- The state with the failed start's request given back where the outlet still needs the module. -/
def State.returned (s : State) (u : Serving) : State :=
  if (s.failedStart u.module).stillNeeds u.outlet u.cls then
    (s.failedStart u.module).onMp u.outlet fun p => p.giveBack u.cls u.arrival s.tb.run
  else s.failedStart u.module

theorem State.startFailed_eq {s : State} {u : Serving} (unit : s.pool.unit = some u)
    (starting : (s.module u.module).state = .starting) :
    s.startFailed u.module none = (s.returned u).servePool u.outlet := by
  unfold State.startFailed
  rw [unit]
  exact if_pos ⟨rfl, starting⟩

theorem State.module_returned (s : State) (u : Serving) (n : ModuleNo) :
    (s.returned u).module n = (s.failedStart u.module).module n := by
  unfold State.returned; split <;> rfl

/-- What the return leaves of the rest. -/
theorem State.returned_rest (s : State) (u : Serving) : (s.returned u).pool = (s.failedStart u.module).pool
    ∧ (s.returned u).fe = (s.failedStart u.module).fe
    ∧ (∀ q, q ≠ u.outlet → (s.returned u).berth q = s.berth q)
    ∧ SameButPool (s.berth u.outlet) ((s.returned u).berth u.outlet)
    ∧ (s.returned u).now = s.now := by
  unfold State.returned
  split
  · refine ⟨rfl, rfl, fun q hq => ?_, ?_, rfl⟩
    · rw [State.berth_onMp_ne _ _ hq]; rfl
    · exact (PoolOnly.onMp (s.failedStart u.module) _ _).berth u.outlet
  · exact ⟨rfl, rfl, fun _ _ => rfl, .refl _, rfl⟩

/-- The capacity of an outlet stands, and without another STARTING module is its prospective one. -/
theorem State.capacity_failedStart {s : State} {m : ModuleNo} (starting : (s.module m).state = .starting)
    (o : Outlet) : (s.failedStart m).capacity o = s.capacity o :=
  State.capacity_congr _ _ _ fun n => by
    by_cases h : n = m
    · subst h
      rw [State.module_failedStart_self]
      simp [Module.inStateAt, Module.toFaulted, starting]
    · rw [State.module_failedStart_ne s h]

theorem Pool.sum_eq_zero {p : Pool} {f : Module → Nat} (h : ∀ m, f (p.modules.get m) = 0) :
    p.sum f = 0 := by
  have terms : p.modules.toList = ModuleNo.all.map p.modules.get := rfl
  unfold Pool.sum
  rw [terms, List.map_map]
  generalize ModuleNo.all = l
  induction l with
  | nil => rfl
  | cons m l ih => rw [List.map_cons, Function.comp_apply, h m]; exact ih

theorem State.prospective_of_no_starting {s : State} {o : Outlet}
    (h : ∀ n, (s.module n).outlet = some o → (s.module n).state ≠ .starting) :
    s.prospective o = s.capacity o := by
  unfold State.prospective
  rw [Pool.sum_eq_zero, Nat.add_zero]
  intro n
  refine if_neg ?_
  show ¬(s.module n).inStateAt .starting o = true
  unfold Module.inStateAt
  rw [Bool.and_eq_true, beq_iff_eq, beq_iff_eq]
  exact fun ⟨hs, ho⟩ => h n ho hs

theorem State.mem_which_assigned {s : State} {o : Outlet} {m : ModuleNo} :
    m ∈ s.pool.which (fun x => x.assignedTo o) ↔ (s.module m).outlet = some o := by
  rw [Pool.mem_which]
  exact beq_iff_eq

/-- A module that leaves an outlet leaves it fewer. -/
theorem State.assigned_lt {s t : State} {o : Outlet} {m : ModuleNo}
    (was : (s.module m).outlet = some o) (left : (t.module m).outlet ≠ some o)
    (others : ∀ n, (t.module n).outlet = some o → (s.module n).outlet = some o) :
    t.assigned o < s.assigned o := by
  have sub : m :: t.pool.which (fun x => x.assignedTo o) ⊆ s.pool.which fun x => x.assignedTo o := by
    intro n hn
    rw [State.mem_which_assigned]
    rcases List.mem_cons.mp hn with rfl | hn
    · exact was
    · exact others n (State.mem_which_assigned.mp hn)
  exact ((List.nodup_cons.mpr ⟨fun h => left (State.mem_which_assigned.mp h),
    Pool.which_nodup _ _⟩).subperm sub).length_le

/-- What a failed start gives back to the pool of its outlet (R26). -/
theorem OutletPool.giveBack_entry (p : OutletPool) (cls : RequestClass) (arrival : TimeStamp)
    (now : RunCount) : (p.giveBack cls arrival now).entry = some (p.entry.elim { cls, arrival } fun f =>
      { cls := f.cls.higher cls, arrival := TimeStamp.earlier now f.arrival arrival }) := by
  unfold OutletPool.giveBack
  cases p.entry <;> rfl

theorem OutletPool.giveBack_arisen (p : OutletPool) (cls : RequestClass) (arrival : TimeStamp)
    (now : RunCount) : (p.giveBack cls arrival now).replaceArisen
      = (p.replaceArisen || p.entry.elim (cls == .replace) fun f => f.cls.higher cls == .replace) := by
  unfold OutletPool.giveBack
  cases p.entry <;> rfl

theorem State.returned_mp {s : State} {u : Serving} :
    ((s.returned u).berth u.outlet).mp
      = if (s.failedStart u.module).stillNeeds u.outlet u.cls then
          (s.berth u.outlet).mp.giveBack u.cls u.arrival s.tb.run
        else (s.berth u.outlet).mp := by
  unfold State.returned
  split
  · rw [State.berth_onMp_self]; rfl
  · rfl

/-- The station of an outlet whose start has failed, no other module being STARTING there. -/
structure State.OneStart (s : State) (u : Serving) : Prop where
  unit : s.pool.unit = some u
  starting : (s.module u.module).state = .starting
  outlet : (s.module u.module).outlet = some u.outlet
  alone : ∀ n, n ≠ u.module → (s.module n).outlet = some u.outlet → (s.module n).state ≠ .starting
  idle : ∀ n, (s.module n).state ≠ .idle
  room : s.assigned u.outlet ≤ 8

theorem State.module_failedStart (s : State) (m n : ModuleNo) :
    (s.failedStart m).module n = if n = m then (s.module n).toFaulted none else s.module n := by
  split
  · next e => rw [e, State.module_failedStart_self]
  · next e => exact State.module_failedStart_ne s e

theorem State.OneStart.prospective {s : State} {u : Serving} (h : s.OneStart u) :
    (s.failedStart u.module).prospective u.outlet = s.capacity u.outlet := by
  rw [State.prospective_of_no_starting, State.capacity_failedStart h.starting]
  intro n hn
  rw [State.module_failedStart] at hn ⊢
  split
  · exact ModuleState.noConfusion
  · next e => rw [if_neg e] at hn; exact h.alone n e hn

theorem State.OneStart.assigned {s : State} {u : Serving} (h : s.OneStart u) :
    (s.failedStart u.module).assigned u.outlet < 8 := by
  refine lt_of_lt_of_le (State.assigned_lt h.outlet ?_ fun n hn => ?_) h.room
  · rw [State.module_failedStart_self]; exact nofun
  · rw [State.module_failedStart] at hn
    split at hn
    · cases hn
    · exact hn

/-- Whether the outlet still needs the module (R26, log entry 32). -/
theorem State.OneStart.stillNeeds {s : State} {u : Serving} (h : s.OneStart u) :
    (s.failedStart u.module).stillNeeds u.outlet u.cls
      = ((s.berth u.outlet).sc.state.requests
        && (u.cls == .grow
          || (decide (s.capacity u.outlet < (s.berth u.outlet).sc.target)
            && (u.cls == .replace
              || ((s.berth u.outlet).mp.needClass (s.berth u.outlet).sc.state).isSome)))) := by
  unfold State.stillNeeds
  rw [h.prospective, decide_eq_true h.assigned]
  dsimp only
  rw [Bool.and_true]
  cases u.cls with
  | grow => rfl
  | replace => exact congrArg _ (Bool.and_true _).symm
  | energise => rfl

/-- The need judged after a failed start (R26, R32, R33): what comes of the pool of its outlet. -/
theorem State.OneStart.servePool {s : State} {u : Serving} (h : s.OneStart u) :
    (s.returned u).servePool u.outlet = (s.returned u).judgeNeed u.outlet
      ∧ (s.returned u).prospective u.outlet = s.capacity u.outlet
      ∧ (s.returned u).assigned u.outlet < 8
      ∧ ((s.returned u).berth u.outlet).sc = (s.berth u.outlet).sc := by
  obtain ⟨pool, -, -, berth, -⟩ := s.returned_rest u
  refine ⟨State.arbitrate_of_no_idle fun n => ?_, ?_, ?_, berth.sc⟩
  · rw [State.module_judgeNeed, State.module_returned, State.module_failedStart]
    split
    · exact ModuleState.noConfusion
    · exact h.idle n
  · rw [← h.prospective]; unfold State.prospective State.capacity; rw [pool]
  · have := h.assigned
    unfold State.assigned at this ⊢
    rwa [pool]

theorem RequestClass.higher_replace (a : RequestClass) : a.higher .replace = .replace := by
  cases a <;> rfl

/-- The pass due left out, a state whose rest stands is the one before with its pool, faults and berths. -/
theorem State.undue_of_rest {s t : State} (rest : t = { s with
      pool := t.pool, fe := t.fe, berths := t.berths, passDue := t.passDue })
    (h : s.passDue = false) : { t with passDue := false }
      = { s with pool := t.pool, fe := t.fe, berths := t.berths } := by
  rw [rest, ← h]

/-- The entry that a failed start leaves where it is given back (R26). -/
theorem State.returned_given {s : State} {u : Serving}
    (needs : (s.failedStart u.module).stillNeeds u.outlet u.cls = true) :
    ((s.returned u).berth u.outlet).mp.entry = some ((s.berth u.outlet).mp.entry.elim
        { cls := u.cls, arrival := u.arrival } fun f =>
          { cls := f.cls.higher u.cls, arrival := TimeStamp.earlier s.tb.run f.arrival u.arrival })
      ∧ ((s.returned u).berth u.outlet).mp.replaceArisen = ((s.berth u.outlet).mp.replaceArisen
          || (s.berth u.outlet).mp.entry.elim (u.cls == .replace) fun f =>
            f.cls.higher u.cls == .replace) := by
  rw [State.returned_mp, if_pos needs, OutletPool.giveBack_entry, OutletPool.giveBack_arisen]
  exact ⟨rfl, rfl⟩

/-- The arrival of the entry that a failed start leaves (R26). -/
def PendingEntry.arrivalAfter (entry : Option PendingEntry) (u : Serving) (now : RunCount) : TimeStamp :=
  entry.elim u.arrival fun f => TimeStamp.earlier now f.arrival u.arrival

/-- A need short after a failed start: the entry given back takes the class whose condition holds. -/
theorem State.OneStart.short {s : State} {u : Serving} (h : s.OneStart u)
    (hr : (s.berth u.outlet).sc.state.requests = true)
    (hs : s.capacity u.outlet < (s.berth u.outlet).sc.target)
    (needs : (s.failedStart u.module).stillNeeds u.outlet u.cls = true) {cls : RequestClass}
    (hc : ((s.returned u).berth u.outlet).mp.needClass (s.berth u.outlet).sc.state = some cls) :
    (((s.returned u).judgeNeed u.outlet).berth u.outlet).mp.entry = some
      { cls := ((s.berth u.outlet).mp.entry.elim u.cls fun f => f.cls.higher u.cls).higher cls
        arrival := PendingEntry.arrivalAfter (s.berth u.outlet).mp.entry u s.tb.run } := by
  obtain ⟨-, prospective, assigned, sc⟩ := h.servePool
  obtain ⟨entry, -⟩ := State.returned_given needs
  rw [State.judgeNeed_short (by rw [sc]; exact hr) (by rw [prospective, sc]; exact hs) assigned
    (by rw [sc]; exact hc), entry, Option.elim_some]
  unfold PendingEntry.arrivalAfter
  cases (s.berth u.outlet).mp.entry <;> rfl

end Sys2Proof.Machine

namespace Sys2Proof.Proofs
open Machine

/-- Settles O20: the winner's start, and the request that a failed start gives back. -/
theorem arbitrationOrderAndReturns : Obligations.ArbitrationOrderAndReturns := by
  refine ⟨fun tag b hi lo m w e s rating hb hr low high ten free hpass hw hs hf unit idle he best => ?_,
    fun s u o unit houtlet hs ho alone idle room hpass hw => ?_⟩
  · have named : moduleField [b, hi, lo] = some m := hb ▸ moduleField_number m [hi, lo]
    obtain ⟨f, hf'⟩ : ∃ f : Module → Module, f = fun x => x.declare rating s.tb.run := ⟨_, rfl⟩
    have declared : judgeDeclareModule [b, hi, lo] s = s.changeByRequest m f := by
      refine (ofLength_ofModule rfl named).trans ?_
      dsimp only
      rw [field_two, ← hr, if_neg (by rw [(isRating_iff rating).mpr ⟨low, high, ten⟩]; decide), hs, hf']
    have record : f (s.module m) = { s.module m with
        rating := some rating, outlet := none, trim := 0, reportAt := s.tb.run, lineLost := false
        state := .idle } := by
      rw [hf']; unfold Module.declare; dsimp only; rw [if_pos hf]
    have started := State.comesIdle_starts (s := s) (m := m) (f := f) (w := w) (e := e)
      (by rw [record]) (fun n _ => idle n) unit he best
    obtain ⟨v, hv⟩ : ∃ v, v = ((s.changeModule m f).onMp w fun p => { p with entry := none }).startModule
      m w e := ⟨_, rfl⟩
    rw [← hv] at started
    have idled : (s.changeModule m f).module m = f (s.module m) := State.module_changeModule_self s m f
    obtain ⟨forms, hforms⟩ : ∃ forms, forms = State.formsBus
      ((s.changeModule m f).onMp w fun p => { p with entry := none }) w := ⟨_, rfl⟩
    have begun : v.module m = (f (s.module m)).begin w forms := by
      rw [hv, State.module_startModule_self, State.module_onMp, idled, hforms]
    have elsewhere (n : ModuleNo) (hn : n ≠ m) : v.module n = s.module n := by
      rw [hv, State.module_startModule_ne _ _ _ hn, State.module_onMp, State.module_changeModule_ne s f hn]
    have berths (q : Outlet) : v.berth q
        = if q = w then { s.berth q with mp := { (s.berth q).mp with entry := none } } else s.berth q := by
      rw [hv, State.berth_startModule]
      split
      · next h => subst h; rw [State.berth_onMp_self]; rfl
      · next h => rw [State.berth_onMp_ne _ _ h]; rfl
    have settled : ((s.changeModule m f).arbitrate).settle = { v.judgeNeed w with passDue := false } := by
      rw [started]
      refine State.settle_of_noneWaits fun q => ?_
      have waits := hw q
      unfold State.waits at waits ⊢
      rw [((State.judgeNeed_poolOnly v w).berth q).sc, berths]
      split <;> exact waits
    refine ⟨{ v.judgeNeed w with passDue := false }, forms, ?_, ?_, ?_, ?_, ?_, fun n hn => ?_,
      fun q hq => ?_, ?_, fun g hg => ?_⟩
    · refine (State.request_next free declared).trans ?_
      unfold State.changeByRequest
      rw [settled]
      rfl
    · have only : PoolOnly s (v.judgeNeed w) := by
        rw [hv]
        exact (((PoolOnly.changeModule s m f).trans (.onMp _ _ _)).trans
          (State.startModule_poolOnly _ m w e)).trans (State.judgeNeed_poolOnly _ w)
      refine (State.undue_of_rest (s := s) (t := v.judgeNeed w) (by rw [only.rest]) hpass).trans ?_
      rw [only.fe]
    · show (v.judgeNeed w).pool.unit = _
      rw [State.judgeNeed_pool, hv]; rfl
    · show (v.judgeNeed w).module m = _
      rw [State.module_judgeNeed, begun, record]; rfl
    · rw [hforms, State.formsBus_iff]
      refine and_congr (by rw [State.mu_onMp]; rfl) (forall_congr' fun n => ?_)
      rw [State.module_onMp]
      by_cases hn : n = m
      · subst hn
        rw [idled, record, hs]
        exact ⟨fun _ _ => by decide, fun _ h => nomatch h⟩
      · rw [State.module_changeModule_ne s f hn]
    · show (v.judgeNeed w).module n = _
      rw [State.module_judgeNeed, elsewhere n hn]
    · show (v.judgeNeed w).berth q = _
      rw [State.judgeNeed_berth_ne hq, berths, if_neg hq]
    · refine SameButPool.trans ?_ ((State.judgeNeed_poolOnly v w).berth w)
      rw [berths, if_pos rfl]
      exact ⟨rfl, rfl, rfl, rfl, rfl, rfl, rfl, rfl⟩
    · have cleared : (v.berth w).mp.entry = none := by rw [berths, if_pos rfl]
      have now : v.now = s.now := by rw [hv]; rfl
      exact (State.judgeNeed_arrival cleared hg).trans now
  · subst houtlet
    have one : s.OneStart u := ⟨unit, hs, ho, alone, idle, room⟩
    obtain ⟨served, prospective, assigned, sc⟩ := one.servePool
    obtain ⟨pool, fe, others, berth, now⟩ := s.returned_rest u
    have quiet : ((s.returned u).judgeNeed u.outlet).noneWaits := fun q => by
      have waits := hw q
      unfold State.waits at waits ⊢
      rw [((State.judgeNeed_poolOnly _ _).berth q).sc]
      by_cases hq : q = u.outlet
      · subst hq; rw [sc]; exact waits
      · rw [others q hq]; exact waits
    have outcome : exec .startTimeExpiry s
        = .next { (s.returned u).judgeNeed u.outlet with passDue := false } := by
      refine (execStartTimeExpiry_serving unit).trans ?_
      rw [State.startFailed_eq unit hs, served, State.settle_of_noneWaits quiet]
    have poolOnly := State.judgeNeed_poolOnly (s.returned u) u.outlet
    have final := (poolOnly.berth u.outlet)
    refine ⟨_, outcome, ?_, ?_, ?_, fun n hn => ?_, fun q hq => ?_, berth.trans final, fun hr => ?_,
      fun hr arrival harr => ?_⟩
    · refine State.undue_of_rest ?_ hpass
      have returned : s.returned u = { s with
          pool := (s.returned u).pool, fe := (s.returned u).fe, berths := (s.returned u).berths
          passDue := (s.returned u).passDue } := by
        unfold State.returned; split <;> rfl
      rw [poolOnly.rest]
      rw [returned]
    · show ((s.returned u).judgeNeed u.outlet).pool.unit = none
      rw [State.judgeNeed_pool, pool]; rfl
    · have raised : Raised .moduleStartFail s (s.failedStart u.module) :=
        (Raised.before (s := s) (t := s.changeModule u.module fun x => x.toFaulted none) (.of_fe rfl)
          (State.raise_raised _ .moduleStartFail (.module u.module) none)).after (.of_fe rfl)
      exact raised.after (.of_fe (poolOnly.fe.trans fe))
    · show ((s.returned u).judgeNeed u.outlet).module n = _
      rw [State.module_judgeNeed, State.module_returned, State.module_failedStart, if_neg hn]
    · show ((s.returned u).judgeNeed u.outlet).berth q = _
      rw [State.judgeNeed_berth_ne hq, others q hq]
    · exact State.judgeNeed_entry_of_not (by rw [sc]; exact hr)
    · have harr : arrival = PendingEntry.arrivalAfter (s.berth u.outlet).mp.entry u s.tb.run := by
        rw [harr]
        cases (s.berth u.outlet).mp.entry <;> rfl
      have needs := one.stillNeeds
      rw [hr, Bool.true_and] at needs
      refine ⟨fun hc short => ?_, fun hc short hst => ?_, fun hc met growing => ?_,
        fun hc met none_before => ?_⟩
      · have given : (s.failedStart u.module).stillNeeds u.outlet u.cls = true := by
          rw [needs, decide_eq_true short, hc]; rfl
        have arisen : ((s.returned u).berth u.outlet).mp.replaceArisen = true := by
          rw [(State.returned_given given).2, hc]
          cases (s.berth u.outlet).mp.entry with
          | none => simp
          | some f => simp [RequestClass.higher_replace]
        refine (one.short hr short given (cls := .replace) ?_).trans ?_
        · unfold OutletPool.needClass; rw [if_pos arisen]
        · rw [RequestClass.higher_replace, harr]
      · have given : (s.failedStart u.module).stillNeeds u.outlet u.cls = true := by
          rw [needs, decide_eq_true short, hc]
          unfold OutletPool.needClass
          rw [if_pos hst]
          split <;> rfl
        have arisen := (State.returned_given given).2
        rw [hc] at arisen
        have need : ((s.returned u).berth u.outlet).mp.needClass (s.berth u.outlet).sc.state
            = some (if ((s.returned u).berth u.outlet).mp.replaceArisen then .replace else .energise) := by
          unfold OutletPool.needClass
          rw [if_pos hst]
          split <;> rfl
        have entry := one.short hr short given need
        rw [hc, ← harr] at entry
        refine ⟨_, entry, ?_⟩
        rw [arisen]
        cases he : (s.berth u.outlet).mp.entry with
        | none => cases (s.berth u.outlet).mp.replaceArisen <;> simp [RequestClass.higher, RequestClass.rank]
        | some f =>
          cases hf : f.cls <;> cases (s.berth u.outlet).mp.replaceArisen <;>
            simp [RequestClass.higher, RequestClass.rank, hf]
      · have given : (s.failedStart u.module).stillNeeds u.outlet u.cls = true := by
          rw [needs, hc]; rfl
        show (((s.returned u).judgeNeed u.outlet).berth u.outlet).mp.entry = _
        rw [(State.judgeNeed_met (s := s.returned u) (o := u.outlet) (by rw [sc]; exact hr)
          (by rw [sc, prospective]; exact met)).2, if_neg (by omega), (State.returned_given given).1, hc, harr]
        unfold PendingEntry.arrivalAfter
        cases he : (s.berth u.outlet).mp.entry with
        | none => rfl
        | some f =>
          rw [Option.elim_some, Option.elim_some, growing f he]
          rfl
      · have kept : (s.failedStart u.module).stillNeeds u.outlet u.cls = false := by
          rw [needs, decide_eq_false (not_lt.mpr met), beq_eq_false_iff_ne.mpr hc]; rfl
        show (((s.returned u).judgeNeed u.outlet).berth u.outlet).mp.entry = _
        rw [(State.judgeNeed_met (s := s.returned u) (o := u.outlet) (by rw [sc]; exact hr)
          (by rw [sc, prospective]; exact met)).2, if_neg (by omega), State.returned_mp,
          if_neg (by rw [kept]; decide), none_before]
        rfl

end Sys2Proof.Proofs
end

