-- ==== Sys2Proof/Proofs/References.lean ====
section
/-! PROOFS. The update of the reference generator and the power loop (R47 to R49, R52 to R54, R57). -/

namespace Sys2Proof.Machine

open Sys2Proof

/-- A slewed value has reached its target, or moved one whole step toward it (R47, R48). -/
theorem slew_cases (now target step : Nat) :
    slew now target step = target ∧ ((slew now target step : Nat) - (now : Int)).natAbs ≤ step
    ∨ now + step < target ∧ slew now target step = now + step
    ∨ target + step < now ∧ slew now target step + step = now := by
  unfold slew
  split <;> split <;> omega

/-- The frequency that an update leaves (R47, R57). -/
def RefGen.nextFreq (g : RefGen) : Nat :=
  if g.mode = .off then g.freqNow else slew g.freqNow (g.freqTarget * 1000) 500

/-- The voltage that an update leaves (R48, R57). -/
def RefGen.nextVolt (g : RefGen) (nominalVolts : Nat) : Nat :=
  if g.mode = .off then g.voltNow else slew g.voltNow (g.voltTarget * 1000) (nominalVolts / 20)

theorem RefGen.update_eq (g : RefGen) (nominalVolts : Nat) :
    g.update nominalVolts = { g with
      freqNow := g.nextFreq, voltNow := g.nextVolt nominalVolts
      phase := (g.phase + (g.nextFreq * 65536 + g.phaseFrac) / 1000000000) % 65536
      phaseFrac := (g.nextFreq * 65536 + g.phaseFrac) % 1000000000
      updated := if g.mode = .off then g.updated else true } := by
  unfold update nextFreq nextVolt
  by_cases off : g.mode = .off
  · simp only [if_pos off]
    rfl
  · simp only [if_neg off]
    rfl

theorem execRgUpdate_eq (o : Outlet) (s : State) (f v : Nat) (hf : f = (s.berth o).rg.nextFreq)
    (hv : v = (s.berth o).rg.nextVolt (s.berth o).nominalVolts) :
    exec (.rgUpdate o) s = .next (s.onRg o fun g => { g with
      freqNow := f, voltNow := v
      phase := (g.phase + (f * 65536 + (s.berth o).rg.phaseFrac) / 1000000000) % 65536
      phaseFrac := (f * 65536 + (s.berth o).rg.phaseFrac) % 1000000000, updateFrom := s.tb.run
      updated := if g.mode = .off then g.updated else true }) := by
  subst hf hv
  refine congrArg Host.Outcome.next (State.onBerth_congr ?_)
  rw [RefGen.update_eq]

/-- The power loop of an outlet in POWER with a capacity and a pair record (R53, R54). -/
theorem Berth.powerLoop_moves {b : Berth} {capacity : Nat} {r : PowerRecord} {pair : PairRecord}
    {delta : Int} (hpair : b.mu.pair = some pair) (power : b.rg.mode = .power)
    (some' : capacity ≠ 0)
    (hdelta : delta = clampInt (-500) 500
      (b.rg.delta + loopChange b.rg.pSet r.p capacity b.rg.gain)) :
    b.powerLoop capacity r = if delta = b.rg.delta then b
      else ({ b with rg := { b.rg with delta := delta } }).withTargets (pair.fP + delta) pair.vP := by
  subst hdelta
  unfold powerLoop
  rw [if_pos ⟨power, some'⟩]
  dsimp only
  rw [hpair]
  rfl

end Sys2Proof.Machine

namespace Sys2Proof.Proofs

open Machine

/-- Settles O23: an update slews both references and advances the phase; the loop moves Δ. -/
theorem referencesAndPowerLoop : Obligations.ReferencesAndPowerLoop := by
  refine ⟨⟨fun o s => ?_, fun o s moving recorded => ?_⟩, ?_⟩
  · refine ⟨_, _, _, execRgUpdate_eq o s _ _ rfl rfl, rfl, fun off => ?_, fun on => ?_⟩
    · exact ⟨if_pos off, if_pos off⟩
    · rw [RefGen.nextFreq, RefGen.nextVolt, if_neg on, if_neg on]
      refine ⟨slew_cases _ _ _, ?_⟩
      rintro step rfl
      exact slew_cases _ _ _
  · have awaits : (s.berth o).rg.awaitsPair = true := by
      rcases moving with h | h <;> simp [RefGen.awaitsPair, h, recorded]
    exact congrArg Host.Outcome.next (if_pos awaits)
  · intro b capacity r pair change delta hpair hchange hdelta
    have clamped : delta = clampInt (-500) 500
        (b.rg.delta + loopChange b.rg.pSet r.p capacity b.rg.gain) := by
      rw [clampInt_eq _ _ _ (by decide), hdelta, hchange]
      rfl
    refine ⟨fun power some' => ?_, fun rest => if_neg fun h => rest.elim (· h.1) h.2⟩
    rw [Berth.powerLoop_moves hpair power some' clamped]
    refine ⟨?_, fun same => if_pos same, fun moved => if_neg moved⟩
    split
    · next same => exact same.symm
    · rfl

end Sys2Proof.Proofs
end

