-- ==== Sys2Proof/Proofs/Ramps.lean ====
section
/-! PROOFS. The ramps of the power setpoint and their ends (R55, R86, R93, R94, R96). -/

namespace Sys2Proof.Machine

open Sys2Proof

/-! ### A change of state without an entry judgement -/

/-- SC's record after a change of state and the passes of the step's end. -/
theorem State.moveTo_settle_sc (s : State) (o : Outlet) {new : OutletState} (pSet : Nat)
    (hn : new ≠ .awaitAuth) :
    ((s.moveTo o new pSet).settle.berth o).sc
      = (s.berth o).sc.takeState new s.now (decide (s.capacity o < (s.berth o).sc.target)) := by
  rw [(s.moveTo_settle_berth o pSet hn).sc, Berth.takeState_sc]

theorem State.moveTo_settle_rg (s : State) (o : Outlet) {new : OutletState} (pSet : Nat)
    (hn : new ≠ .awaitAuth) :
    ((s.moveTo o new pSet).settle.berth o).rg
      = ((s.berth o).enterMode s.tb.run new.mode pSet).rg := by
  rw [(s.moveTo_settle_berth o pSet hn).rg, Berth.takeState_rg]; rfl

theorem State.moveTo_settle_mt (s : State) (o : Outlet) {new : OutletState} (pSet : Nat)
    (hn : new ≠ .awaitAuth) : ((s.moveTo o new pSet).settle.berth o).mt = (s.berth o).mt := by
  rw [(s.moveTo_settle_berth o pSet hn).mt, Berth.takeState_mt]

theorem State.moveTo_settle_acts {x : Scope} (s : State) (o : Outlet) {new : OutletState} (pSet : Nat)
    (h : o ∈ x.outlets) (hn : new ≠ .awaitAuth) : Acts x s (s.moveTo o new pSet).settle :=
  (State.moveTo_acts s o new pSet h (.inl hn)).trans (State.settle_acts _ _)

/-- R44: an entry to the mode that stands changes nothing of RG. -/
theorem Berth.enterMode_same {b : Berth} {mode : RgMode} (now : RunCount) (pSet : Nat)
    (h : b.rg.mode = mode) : b.enterMode now mode pSet = b := if_pos h

/-- R44, R45: the entry to OFF. -/
theorem Berth.enterMode_off {b : Berth} (now : RunCount) (pSet : Nat) (h : b.rg.mode ≠ .off) :
    (b.enterMode now .off pSet).rg = b.rg.enterOff (some now) := by
  unfold enterMode
  rw [if_neg h, if_pos rfl]

/-! ### The ramps -/

/-- Two changes of one berth are one change. -/
theorem State.onBerth_onBerth (s : State) (o : Outlet) (f g : Berth → Berth) :
    (s.onBerth o f).onBerth o g = s.onBerth o fun b => g (f b) := by
  unfold State.onBerth
  cases o <;> rfl

theorem RefGen.writePSet_power {g : RefGen} (pSet : Nat) (h : g.mode = .power) :
    g.writePSet pSet = { g with pSet := min pSet 25000 } := by
  unfold writePSet; rw [if_pos h]

theorem execRampInTick_eq {s : State} {o : Outlet} (hm : (s.berth o).rg.mode = .power)
    (h : (s.berth o).sc.state = .parallelIn) :
    exec (.rampInTick o) s = .next (s.onBerth o fun b => { b with
      sc := { b.sc with rampFrom := some s.tb.run }
      rg := if b.sc.target ≤ s.capacity o then
          { b.rg with pSet := min (min (b.rg.pSet + b.sc.settings.rampRate / 100) b.claim) 25000 }
        else b.rg }) := by
  refine congrArg Host.Outcome.next ((if_pos h).trans ?_)
  by_cases short : (s.berth o).sc.target ≤ s.capacity o
  · rw [if_pos short]
    unfold State.onRg State.onSc
    rw [State.onBerth_onBerth]
    refine State.onBerth_congr ?_
    dsimp only
    rw [if_pos short, RefGen.writePSet_power _ hm]
    rfl
  · rw [if_neg short]
    refine State.onBerth_congr ?_
    dsimp only
    rw [if_neg short]

theorem execRampOutTick_eq {s : State} {o : Outlet} (hm : (s.berth o).rg.mode = .power)
    (h : (s.berth o).sc.state = .parallelOut) :
    exec (.rampOutTick o) s = .next (s.onBerth o fun b => { b with
      sc := { b.sc with rampFrom := some s.tb.run }
      rg := { b.rg with pSet := min (b.rg.pSet - b.sc.settings.rampRate / 100) 25000 } }) := by
  refine congrArg Host.Outcome.next ((if_pos h).trans ?_)
  unfold State.onRg State.onSc
  rw [State.onBerth_onBerth]
  refine State.onBerth_congr ?_
  dsimp only
  rw [RefGen.writePSet_power _ hm]
  rfl

/-! ### The ramp-in is aborted -/

theorem execAbort {s : State} {o : Outlet} {i : Instr} (h : (s.berth o).sc.state = .parallelIn)
    (hi : (i = .capacityShortExpiry o ∧ (s.berth o).sc.capacityShortFrom.isSome = true)
      ∨ (i = .rampInLimitExpiry o ∧ (s.berth o).sc.rampInFrom.isSome = true)) :
    exec i s = .next (s.abortRampIn o).settle := by
  rcases hi with ⟨rfl, runs⟩ | ⟨rfl, runs⟩ <;>
    exact congrArg Host.Outcome.next (if_pos ⟨h, runs⟩)

/-- The state right after HANDOVER_ABORT has been raised. -/
def State.aborted (s : State) (o : Outlet) : State := s.raise .handoverAbort (.outlet o)

theorem State.abortRampIn_goesOn {s : State} {o : Outlet} (hs : (s.berth o).sc.state = .parallelIn)
    (hcause : s.NoEntryCause o) :
    s.abortRampIn o = (s.aborted o).moveTo o .parallelOut := by
  refine State.enter_of_none (by rw [State.berth_raise, hs]; decide) (by decide) ?_
  rw [State.berth_raise]
  exact hcause.entering .parallelOut

theorem State.abortRampIn_tripped {s : State} {o : Outlet} {c : Cause}
    (hs : (s.berth o).sc.state = .parallelIn)
    (hc : (s.berth o).causeEntering .parallelOut s.gridWatch.standing = some c) :
    Tripped o c s (s.abortRampIn o).settle
      ∧ (s.abortRampIn o).settle.fe.flags = s.fe.flags ||| FaultKind.handoverAbort.bit ||| c.fault.bit
      ∧ Acts ⟨[o], [], false, false, [.handoverAbort, c.fault]⟩ s (s.abortRampIn o).settle := by
  have enters : s.abortRampIn o = ((s.aborted o).moveTo o .parallelOut).trip o c := by
    refine State.enter_of_some (by rw [State.berth_raise, hs]; decide) (by decide) ?_
    rw [State.berth_raise]
    exact hc
  have settled := State.settle_acts ⟨[], [], false, false, []⟩ (s.abortRampIn o)
  refine ⟨?_, ?_, ?_⟩
  · have tripped := State.enter_tripped (s := s.aborted o) (o := o) (new := .parallelOut) 0 (c := c)
      (by rw [State.aborted, State.berth_raise, hs]; decide)
      (by rw [State.aborted, State.berth_raise, hs]; decide) rfl
      (by rw [State.aborted, State.berth_raise]; exact hc)
    have berth : (s.aborted o).berth o = s.berth o := State.berth_raise _ _ _ _ _
    have before : Tripped o c s (s.abortRampIn o) :=
      tripped.before (s := s) (by rw [berth]) (by rw [berth]) (by rw [berth]) (by rw [berth]) rfl rfl
        fun _ _ _ => rfl
    exact before.after settled List.not_mem_nil rfl
  · rw [(State.settle_noFault _).flags, enters, (State.trip_raised _ o c).flags,
      (State.moveTo_noFault _ _ _ _).flags, State.aborted, (State.raise_raised _ _ _ _).flags]
  · rw [enters]
    exact ((Acts.raise _ _ _ _ _ List.mem_cons_self).trans
      (State.moveTo_acts _ _ _ _ List.mem_cons_self (.inl (by decide)))).trans
        ((State.trip_acts _ o c List.mem_cons_self (by simp)).trans (State.settle_acts _ _))

/-! ### The breaker is opened -/

theorem execOpens {s : State} {o : Outlet} {i : Instr} (h : (s.berth o).sc.state = .parallelOut)
    (hi : (i = .unloadedComplete o ∧ (s.berth o).sc.unloadedFrom.isSome = true)
      ∨ (i = .rampOutTimeout o ∧ (s.berth o).sc.rampOutFrom.isSome = true)) :
    ∃ u : State, exec i s = .next (u.openBreaker o).settle
      ∧ u.berth o = s.berth o ∧ u.tb = s.tb ∧ u.pool = s.pool
      ∧ Acts ⟨[o], [], false, false, [.rampOutTimeout]⟩ s u
      ∧ (i = .unloadedComplete o → NoFault s u)
      ∧ (i = .rampOutTimeout o → Raised .rampOutTimeout s u) := by
  rcases hi with ⟨rfl, runs⟩ | ⟨rfl, runs⟩
  · exact ⟨s, congrArg Host.Outcome.next (if_pos ⟨h, runs⟩), rfl, rfl, rfl, .refl _ _,
      fun _ => ⟨rfl, rfl, rfl⟩, nofun⟩
  · exact ⟨s.raise .rampOutTimeout (.outlet o), congrArg Host.Outcome.next (if_pos ⟨h, runs⟩),
      State.berth_raise _ _ _ _ _, rfl, rfl, .raise _ _ _ _ _ List.mem_cons_self, nofun,
      fun _ => State.raise_raised _ _ _ _⟩

end Sys2Proof.Machine

namespace Sys2Proof.Proofs

open Machine

/-- Settles O29: the ticks move P_set; the abort and the end of the ramp-out are changes of state. -/
theorem rampsInAndOut : Obligations.RampsInAndOut := by
  refine ⟨fun o s power => ⟨execRampInTick_eq power, execRampOutTick_eq power⟩,
    fun o s i hs power hi => ?_, fun o s i hs power hi => ?_⟩
  · have hexec := execAbort hs hi
    refine ⟨fun none' => ⟨_, hexec, ?_⟩, fun c hc => ⟨_, hexec, ?_⟩⟩
    · have berth : (s.aborted o).berth o = s.berth o := State.berth_raise _ _ _ _ _
      have acts : Acts ⟨[o], [], false, false, [.handoverAbort]⟩ s (s.abortRampIn o).settle := by
        rw [State.abortRampIn_goesOn hs none']
        exact (Acts.raise _ _ _ _ _ List.mem_cons_self).trans
          (State.moveTo_settle_acts _ _ _ List.mem_cons_self (by decide))
      obtain ⟨elsewhere, account, metering⟩ := acts.frame
      have raised : Raised .handoverAbort s (s.abortRampIn o).settle := by
        rw [State.abortRampIn_goesOn hs none']
        exact ((State.raise_raised _ _ _ _).after (State.moveTo_noFault _ _ _ _)).after
          (State.settle_noFault _)
      refine ⟨?_, ?_, ?_, ?_, ?_, raised, elsewhere, account, metering⟩ <;>
        rw [State.abortRampIn_goesOn hs none']
      · rw [State.moveTo_settle_sc _ _ _ (by decide)]; rfl
      · rw [State.moveTo_settle_sc _ _ _ (by decide)]; rfl
      · rw [State.moveTo_settle_rg _ _ _ (by decide), berth,
          Berth.enterMode_same (mode := OutletState.parallelOut.mode) _ _ power]
      · rw [State.moveTo_settle_sc _ _ _ (by decide), berth]; rfl
      · rw [State.moveTo_settle_mt _ _ _ (by decide), berth]
    · have entering : (s.berth o).causeEntering .parallelOut s.gridWatch.standing = some c := by
        unfold Berth.causeEntering
        rw [hc]
        rfl
      obtain ⟨tripped, flags, acts⟩ := State.abortRampIn_tripped hs entering
      exact ⟨tripped, flags, acts.frame⟩
  · obtain ⟨u, hexec, berth, tb, pool, before, quiet, raised⟩ := execOpens hs hi
    have after : NoFault u (u.openBreaker o).settle :=
      (State.moveTo_noFault _ _ _ _).trans (State.settle_noFault _)
    have acts : Acts ⟨[o], [], false, false, [.rampOutTimeout]⟩ s (u.openBreaker o).settle :=
      before.trans (State.moveTo_settle_acts _ _ _ List.mem_cons_self (by decide))
    have sc : ((u.openBreaker o).settle.berth o).sc = _ := u.moveTo_settle_sc o 0 (by decide)
    have rg : ((u.openBreaker o).settle.berth o).rg = _ := u.moveTo_settle_rg o 0 (by decide)
    rw [berth] at sc
    rw [berth, tb, show OutletState.opening.mode = .off from rfl,
      Berth.enterMode_off _ _ (by rw [power]; decide)] at rg
    have loaded : KeepsLoaded s (u.openBreaker o).settle :=
      ((KeepsLoaded.of_pool pool).trans (State.moveTo_loaded u o 0 (by rw [berth, hs]; decide)
        (by decide) (by decide))).trans (State.settle_loaded _)
    refine ⟨_, hexec, ?_, ?_, ?_, ?_, ?_, ?_, ?_, fun m _ hr => ?_, fun h => (quiet h).trans after,
      fun h => (raised h).after after, acts.frame⟩
    · rw [sc]; rfl
    · rw [sc]; rfl
    · rw [sc, State.now, tb]; rfl
    · rw [rg]; rfl
    · rw [rg]; rfl
    · rw [sc]; rfl
    · exact (u.moveTo_settle_mt o 0 (by decide)).trans (by rw [berth])
    · exact loaded.module (by rw [hr]; decide) (by rw [hr]; decide)

end Sys2Proof.Proofs
end

