-- ==== Sys2Proof/Proofs/PilotLoop.lean ====
section
/-! PROOFS. Causes that complete at an outlet (R106, R108), entries to WIND_DOWN, and the changes of the
pilot loop (R79, R120, R137). -/

namespace Sys2Proof.Machine

open Sys2Proof

/-! ### A cause that completes at an outlet (Table 6-2) -/

theorem State.complete_trips {s : State} {o : Outlet} {c : Cause}
    (h : c.tripsIn (s.berth o).sc.state = true) : s.complete o c = s.trip o c := if_pos h

/-- No cause trips an outlet in TRIPPED. -/
theorem Cause.tripsIn_tripped (c : Cause) : c.tripsIn .tripped = false := by cases c <;> rfl

theorem State.complete_later {s : State} {o : Outlet} {c : Cause}
    (hs : (s.berth o).sc.state = .tripped) (closed : (s.berth o).lines.breakerClosed = true)
    (watched : c.watchedTripped = true) : s.complete o c = s.laterCause o c := by
  unfold State.complete
  dsimp only
  rw [if_neg (by rw [hs, c.tripsIn_tripped]; decide),
    if_pos (by rw [Berth.trippedClosed, hs, closed, watched]; rfl)]

/-- A cause that neither trips nor is watched changes nothing. -/
theorem State.complete_unwatched {s : State} {o : Outlet} {c : Cause}
    (h : c.tripsIn (s.berth o).sc.state = false)
    (open' : (s.berth o).trippedClosed = false ∨ c.watchedTripped = false) :
    s.complete o c = s := by
  unfold State.complete
  dsimp only
  rw [if_neg (by rw [h]; decide), if_neg (by rcases open' with e | e <;> rw [e] <;> simp)]

/-- R108: a later cause that is one already changes nothing. -/
theorem State.laterCause_again {s : State} {o : Outlet} {c : Cause}
    (h : (s.berth o).pr.laterCauses.contains c = true) : s.laterCause o c = s := if_pos h

theorem State.laterCause_new {s : State} {o : Outlet} {c : Cause}
    (h : (s.berth o).pr.laterCauses.contains c = false) :
    s.laterCause o c = (s.raise c.fault (.outlet o)).onPr o fun p =>
      { p with laterCauses := p.laterCauses ++ [c] } := if_neg (by rw [h]; decide)

/-- R108: a later cause changes nothing of its outlet but the list of later causes. -/
theorem State.laterCause_berth (s : State) (o : Outlet) (c : Cause) :
    (s.laterCause o c).berth o = { s.berth o with pr := { (s.berth o).pr with
      laterCauses := if (s.berth o).pr.laterCauses.contains c then (s.berth o).pr.laterCauses
        else (s.berth o).pr.laterCauses ++ [c] } } := by
  cases h : (s.berth o).pr.laterCauses.contains c with
  | true => rw [State.laterCause_again h]; rfl
  | false =>
    rw [State.laterCause_new h]
    unfold State.onPr
    rw [State.berth_onBerth_self, State.berth_raise]
    rfl

theorem State.laterCause_pool (s : State) (o : Outlet) (c : Cause) :
    (s.laterCause o c).pool = s.pool := by
  unfold State.laterCause; split <;> rfl

theorem State.laterCause_tb (s : State) (o : Outlet) (c : Cause) : (s.laterCause o c).tb = s.tb := by
  unfold State.laterCause; split <;> rfl

theorem State.laterCause_passDue (s : State) (o : Outlet) (c : Cause) :
    (s.laterCause o c).passDue = s.passDue := by
  unfold State.laterCause; split <;> rfl

theorem State.laterCause_raised {s : State} {o : Outlet} {c : Cause}
    (h : (s.berth o).pr.laterCauses.contains c = false) : Raised c.fault s (s.laterCause o c) := by
  rw [State.laterCause_new h]
  exact (State.raise_raised _ _ _ _).after ⟨rfl, rfl, rfl⟩

/-! ### Entries to WIND_DOWN -/

theorem State.windDown_settle_acts {x : Scope} {s : State} {o : Outlet} (h : s.keptOpen o)
    (ho : o ∈ x.outlets) : Acts x s (s.windDown o).settle := by
  rw [s.windDown_eq_moveTo o h]
  exact State.moveTo_settle_acts s o 0 ho (by decide)

theorem State.windDown_settle_noFault {s : State} {o : Outlet} (h : s.keptOpen o) :
    NoFault s (s.windDown o).settle :=
  (State.windDown_settle_acts (x := ⟨[o], [], false, false, []⟩) h List.mem_cons_self).noFault rfl

/-- R107: from TRIPPED into WIND_DOWN PR's drive runs on while the feedback shows closed. -/
theorem Protection.takeState_windDown (p : Protection) (closed : Bool) :
    (p.takeState .tripped .windDown closed).openDrive = (p.openDrive && closed)
      ∧ (p.takeState .tripped .windDown closed).postTripFrom
          = if closed then p.postTripFrom else none := by
  cases closed
  · exact ⟨(Bool.and_false _).symm, rfl⟩
  · exact ⟨(Bool.and_true _).symm, rfl⟩

theorem State.windDown_driveRunsOn {s : State} {o : Outlet} (h : s.keptOpen o)
    (hs : (s.berth o).sc.state = .tripped) :
    DriveRunsOn (s.berth o) ((s.windDown o).settle.berth o) := by
  have pr : ((s.windDown o).settle.berth o).pr
      = (s.berth o).pr.takeState .tripped .windDown (s.berth o).lines.breakerClosed := by
    rw [s.windDown_eq_moveTo o h, (s.moveTo_settle_berth o 0 (by decide)).pr, Berth.takeState_pr, hs]
  obtain ⟨drive, postTrip⟩ := (s.berth o).pr.takeState_windDown (s.berth o).lines.breakerClosed
  exact ⟨by rw [pr, drive], by rw [pr, postTrip]⟩

/-! ### The pilot loop -/

/-- The state with an outlet's pilot loop read as closed or open. -/
def State.piloted (s : State) (o : Outlet) (closed : Bool) : State :=
  s.onLines o fun l => { l with pilotClosed := closed }

theorem State.piloted_berth (s : State) (o : Outlet) (closed : Bool) :
    (s.piloted o closed).berth o
      = { s.berth o with lines := { (s.berth o).lines with pilotClosed := closed } } :=
  State.berth_onBerth_self _ _ _

theorem State.piloted_keepsAccount (s : State) (o : Outlet) (closed : Bool) :
    KeepsAccount s (s.piloted o closed) := .onBerth rfl

theorem State.piloted_noFault (s : State) (o : Outlet) (closed : Bool) :
    NoFault s (s.piloted o closed) := ⟨rfl, rfl, rfl⟩

theorem State.keptOpen.piloted {s : State} {o : Outlet} (h : s.keptOpen o) (closed : Bool) :
    (s.piloted o closed).keptOpen o :=
  h.of_same (by rw [State.piloted_berth]) fun _ ho hi => ⟨ho, hi⟩

theorem execPilotLoopOpen_eq {s : State} {o : Outlet} (h : (s.berth o).lines.pilotClosed = true) :
    exec (.pilotLoopOpen o) s = .next ((s.piloted o false).pilotOpened o).settle :=
  congrArg Host.Outcome.next (if_pos h)

/-- What the opened loop comes to, by the outlet's state (Table 5-5). -/
theorem State.pilotOpened_request {s : State} {o : Outlet}
    (h : (s.berth o).sc.state = .cableProven ∨ (s.berth o).sc.state = .awaitAuth) :
    s.pilotOpened o = s.moveTo o .dormant := by
  unfold State.pilotOpened
  rcases h with h | h <;> simp only [h]

theorem State.pilotOpened_starting {s : State} {o : Outlet}
    (h : (s.berth o).sc.state = .energising ∨ (s.berth o).sc.state = .synchronising) :
    s.pilotOpened o = s.windDown o := by
  unfold State.pilotOpened
  rcases h with h | h <;> simp only [h]

theorem State.pilotOpened_trips {s : State} {o : Outlet}
    (h : (s.berth o).sc.state = .closing ∨ (s.berth o).sc.state.breakerClosed = true) :
    s.pilotOpened o = s.trip o .pilotOpen := by
  have trips : Cause.pilotOpen.tripsIn (s.berth o).sc.state = true := by
    revert h
    cases (s.berth o).sc.state <;> decide
  rw [← State.complete_trips trips]
  unfold State.pilotOpened
  dsimp only
  split <;> rename_i hs <;> rw [hs] at trips <;> first | rfl | cases trips

theorem State.pilotOpened_tripped {s : State} {o : Outlet} (h : (s.berth o).sc.state = .tripped) :
    s.pilotOpened o = if (s.berth o).sc.session.isSome = true then
        (s.complete o .pilotOpen).windDown o else s.complete o .pilotOpen := by
  unfold State.pilotOpened
  simp only [h]

theorem State.pilotOpened_noted {s : State} {o : Outlet}
    (h : (s.berth o).sc.state = .dormant ∨ (s.berth o).sc.state = .opening
      ∨ (s.berth o).sc.state = .windDown) : s.pilotOpened o = s := by
  unfold State.pilotOpened
  rcases h with h | h | h <;> simp only [h]

/-- In TRIPPED the opened loop is at most a later cause (R108). -/
theorem State.complete_pilotOpen_tripped {s : State} {o : Outlet}
    (h : (s.berth o).sc.state = .tripped) :
    s.complete o .pilotOpen
      = if (s.berth o).lines.breakerClosed = true then s.laterCause o .pilotOpen else s := by
  split
  · next closed => exact State.complete_later h closed rfl
  · next open' =>
    exact State.complete_unwatched (by rw [h]; rfl) (.inl (by simp [Berth.trippedClosed, open']))

/-- R79, R120: DORMANT is left for CABLE_PROVEN with the link powered. -/
theorem Berth.takeState_powered {b : Berth} (pSet : Nat) (now : TimeStamp) (short : Bool)
    (h : b.sc.state = .dormant) :
    (b.takeState .cableProven pSet now short).lines = { b.lines with linkPower := true }
      ∧ (b.takeState .cableProven pSet now short).sl
          = b.sl.powerUp b.sc.settings.linkWake now.run := by
  unfold takeState linkTakesState
  dsimp only
  rw [if_neg (by decide), if_pos h, Berth.enterMode_rest]
  exact ⟨rfl, rfl⟩

/-- R79, R137: DORMANT is entered with the link unpowered. -/
theorem Berth.takeState_unpowered (b : Berth) (pSet : Nat) (now : TimeStamp) (short : Bool) :
    (b.takeState .dormant pSet now short).lines = { b.lines with linkPower := false }
      ∧ (b.takeState .dormant pSet now short).sl = b.sl.withdraw := by
  unfold takeState linkTakesState
  dsimp only
  rw [if_pos rfl, Berth.enterMode_rest]
  exact ⟨rfl, rfl⟩

end Sys2Proof.Machine

namespace Sys2Proof.Proofs

open Machine

/-- The pilot loop closes (R79, R120). -/
theorem pilotLoopClosed_taken (o : Outlet) (s : State) (open' : (s.berth o).lines.pilotClosed = false)
    (hs : (s.berth o).sc.state = .dormant) :
    ∃ t, exec (.pilotLoopClosed o) s = .next t
      ∧ (t.berth o).sc.state = .cableProven ∧ (t.berth o).sc.entered = s.now
      ∧ (t.berth o).sc.session = (s.berth o).sc.session ∧ (t.berth o).mt = (s.berth o).mt
      ∧ (t.berth o).lines = { (s.berth o).lines with pilotClosed := true, linkPower := true }
      ∧ (t.berth o).sl = { (s.berth o).sl with
          state := .waking, wakeFrom := some s.tb.run
          wakeLength := if (s.berth o).sc.settings.linkWake = .fast then 300000 else 3000000 }
      ∧ Elsewhere [o] [] (s.piloted o true) t ∧ KeepsAccount s t ∧ NoFault s t
      ∧ t.metering = s.metering := by
  have hexec : exec (.pilotLoopClosed o) s = .next ((s.piloted o true).moveTo o .cableProven).settle :=
    congrArg Host.Outcome.next ((if_neg (by rw [open']; decide)).trans (if_pos hs))
  have berth := s.piloted_berth o true
  have acts : Acts ⟨[o], [], false, false, []⟩ (s.piloted o true) _ :=
    (s.piloted o true).moveTo_settle_acts o (new := .cableProven) 0 List.mem_cons_self (by decide)
  obtain ⟨elsewhere, account, metering⟩ := acts.frame
  have same := (s.piloted o true).moveTo_settle_berth o (new := .cableProven) 0 (by decide)
  obtain ⟨lines, sl⟩ := Berth.takeState_powered (b := (s.piloted o true).berth o) 0
    (s.piloted o true).now
    (decide ((s.piloted o true).capacity o < ((s.piloted o true).berth o).sc.target))
    (by rw [berth]; exact hs)
  have sc := (s.piloted o true).moveTo_settle_sc o (new := .cableProven) 0 (by decide)
  refine ⟨_, hexec, by rw [sc]; rfl, by rw [sc]; rfl, by rw [sc, berth]; rfl,
    ((s.piloted o true).moveTo_settle_mt o 0 (by decide)).trans (by rw [berth]),
    by rw [same.lines, lines, berth], ?_, elsewhere, (s.piloted_keepsAccount o true).trans account,
    (s.piloted_noFault o true).trans (acts.noFault rfl), metering⟩
  rw [same.sl, sl, berth]
  unfold ShipLink.powerUp LinkWake.micros
  dsimp only
  cases (s.berth o).sc.settings.linkWake <;> rfl

/-- The pilot loop opens before a session (R79, R137). -/
theorem pilotLoopOpen_withdraws (o : Outlet) (s : State) (closed : (s.berth o).lines.pilotClosed = true)
    (hs : (s.berth o).sc.state = .cableProven ∨ (s.berth o).sc.state = .awaitAuth) :
    ∃ t, exec (.pilotLoopOpen o) s = .next t
      ∧ (t.berth o).sc.state = .dormant ∧ (t.berth o).sc.declaration = none
      ∧ (t.berth o).sc.target = 0 ∧ (t.berth o).sc.session = (s.berth o).sc.session
      ∧ (t.berth o).lines = { (s.berth o).lines with pilotClosed := false, linkPower := false }
      ∧ (t.berth o).sl.state = .unpowered ∧ (t.berth o).sl.stations = []
      ∧ (t.berth o).sl.generators = []
      ∧ Elsewhere [o] [] (s.piloted o false) t ∧ KeepsAccount s t ∧ NoFault s t
      ∧ t.metering = s.metering := by
  have berth := s.piloted_berth o false
  have hexec := execPilotLoopOpen_eq closed
  rw [State.pilotOpened_request (by rw [berth]; exact hs)] at hexec
  have acts : Acts ⟨[o], [], false, false, []⟩ (s.piloted o false) _ :=
    (s.piloted o false).moveTo_settle_acts o (new := .dormant) 0 List.mem_cons_self (by decide)
  obtain ⟨elsewhere, account, metering⟩ := acts.frame
  have same := (s.piloted o false).moveTo_settle_berth o (new := .dormant) 0 (by decide)
  obtain ⟨lines, sl⟩ := Berth.takeState_unpowered ((s.piloted o false).berth o) 0
    (s.piloted o false).now
    (decide ((s.piloted o false).capacity o < ((s.piloted o false).berth o).sc.target))
  have sc := (s.piloted o false).moveTo_settle_sc o (new := .dormant) 0 (by decide)
  exact ⟨_, hexec, by rw [sc]; rfl, by rw [sc]; rfl, by rw [sc]; rfl, by rw [sc, berth]; rfl,
    by rw [same.lines, lines, berth], by rw [same.sl, sl]; rfl, by rw [same.sl, sl]; rfl,
    by rw [same.sl, sl]; rfl, elsewhere, (s.piloted_keepsAccount o false).trans account,
    (s.piloted_noFault o false).trans (acts.noFault rfl), metering⟩

/-- The pilot loop opens in TRIPPED with a session (R79, R107, R108). -/
theorem pilotLoopOpen_tripped (o : Outlet) (s : State) (closed : (s.berth o).lines.pilotClosed = true)
    (hs : (s.berth o).sc.state = .tripped) (hx : (s.berth o).sc.session.isSome = true)
    (kept : s.keptOpen o) :
    ∃ t, exec (.pilotLoopOpen o) s = .next t ∧ WindsDown o (s.piloted o false) t
      ∧ Elsewhere [o] [] (s.piloted o false) t ∧ KeepsAccount s t ∧ t.metering = s.metering
      ∧ DriveRunsOn (s.berth o) (t.berth o)
      ∧ ((s.berth o).lines.breakerClosed = true →
          (s.berth o).pr.laterCauses.contains .pilotOpen = false → Raised .pilotOpen s t) := by
  have berth := s.piloted_berth o false
  have hexec := execPilotLoopOpen_eq closed
  rw [State.pilotOpened_tripped (by rw [berth]; exact hs), if_pos (by rw [berth]; exact hx)] at hexec
  have told : ∃ u, u = (s.piloted o false).complete o .pilotOpen
      ∧ Acts ⟨[o], [], false, false, [.pilotOpen]⟩ (s.piloted o false) u
      ∧ (∃ later, u.berth o = { (s.piloted o false).berth o with
          pr := { (s.berth o).pr with laterCauses := later } })
      ∧ u.pool = s.pool ∧ u.tb = s.tb
      ∧ ((s.berth o).lines.breakerClosed = true →
          (s.berth o).pr.laterCauses.contains .pilotOpen = false →
          Raised .pilotOpen s u) := by
    rw [State.complete_pilotOpen_tripped (by rw [berth]; exact hs), berth]
    split
    · next breaker =>
      refine ⟨_, rfl, State.laterCause_acts _ _ _ List.mem_cons_self List.mem_cons_self,
        ⟨(((s.piloted o false).laterCause o .pilotOpen).berth o).pr.laterCauses, ?_⟩,
        State.laterCause_pool _ _ _, State.laterCause_tb _ _ _, fun _ fresh => ?_⟩
      · rw [State.laterCause_berth, berth]
      · exact .before (s.piloted_noFault o false) (State.laterCause_raised (c := .pilotOpen)
          (by rw [berth]; exact fresh))
    · next breaker => exact ⟨_, rfl, .refl _ _, ⟨(s.berth o).pr.laterCauses, berth⟩, rfl, rfl,
        fun h => absurd h breaker⟩
  obtain ⟨u, hu, before, ⟨later, hb⟩, pool, tb, raised⟩ := told
  rw [← hu] at hexec
  have kept' : u.keptOpen o := (kept.piloted false).of_same (by rw [hb]) fun m ho hi => by
    unfold State.module at *
    rw [pool]
    exact ⟨ho, hi⟩
  obtain ⟨elsewhere, account, metering⟩ := (before.trans
    (State.windDown_settle_acts kept' List.mem_cons_self)).frame
  refine ⟨_, hexec, (State.windDown_settle_windsDown u o kept').before (by rw [hb]) (by rw [hb])
    (by rw [tb]; rfl) (fun m _ _ => by unfold State.module; rw [pool]; rfl), elsewhere,
    (s.piloted_keepsAccount o false).trans account, metering, ?_,
    fun h g => (raised h g).after (State.windDown_settle_noFault kept')⟩
  obtain ⟨drive, postTrip⟩ := State.windDown_driveRunsOn kept' (by rw [hb, berth]; exact hs)
  rw [hb, berth] at drive postTrip
  exact ⟨drive, postTrip⟩

/-- Settles O27: by the state in which the loop changes. -/
theorem pilotLoopChanges : Obligations.PilotLoopChanges := by
  constructor
  · rintro o s open' u rfl
    exact ⟨pilotLoopClosed_taken o s open', fun hs => congrArg Host.Outcome.next
      ((if_neg (by rw [open']; decide)).trans (if_neg hs))⟩
  rintro o s closed u rfl
  have berth := s.piloted_berth o false
  have hexec := execPilotLoopOpen_eq closed
  have account := s.piloted_keepsAccount o false
  refine ⟨pilotLoopOpen_withdraws o s closed, fun hs kept => ?_, fun hs => ?_,
    pilotLoopOpen_tripped o s closed, fun quiet hs none' => ?_, fun quiet hs => ?_⟩
  · rw [State.pilotOpened_starting (by rw [berth]; exact hs)] at hexec
    have acts : Acts ⟨[o], [], false, false, []⟩ _ _ :=
      State.windDown_settle_acts (kept.piloted false) List.mem_cons_self
    obtain ⟨elsewhere, account', metering⟩ := acts.frame
    exact ⟨_, hexec, State.windDown_settle_windsDown _ o (kept.piloted false), elsewhere,
      account.trans account', (s.piloted_noFault o false).trans (acts.noFault rfl), metering⟩
  · rw [State.pilotOpened_trips (by rw [berth]; exact hs)] at hexec
    obtain ⟨elsewhere, account', metering⟩ := ((s.piloted o false).trip_settle_acts o .pilotOpen).frame
    exact ⟨_, hexec, State.trip_settle_tripped _ _ _,
      .before (s.piloted_noFault o false) ((State.trip_raised _ o .pilotOpen).after
        (State.settle_noFault _)), elsewhere, account.trans account', metering⟩
  · have hs' : ((s.piloted o false).berth o).sc.state = .tripped := by rw [berth]; exact hs
    rw [State.pilotOpened_tripped hs', if_neg (by rw [berth, none']; decide),
      State.complete_pilotOpen_tripped hs', berth] at hexec
    rw [hexec]
    refine congrArg Host.Outcome.next ?_
    by_cases breaker : (s.berth o).lines.breakerClosed = true
    · rw [if_pos breaker, State.settle_of_no_pass (by rw [State.laterCause_passDue]; exact quiet)]
      cases later : (s.berth o).pr.laterCauses.contains .pilotOpen with
      | true =>
        rw [if_neg fun h => by cases h.2]
        exact State.laterCause_again (by rw [berth]; exact later)
      | false =>
        rw [if_pos ⟨breaker, rfl⟩]
        exact State.laterCause_new (by rw [berth]; exact later)
    · rw [if_neg breaker, if_neg fun h => breaker h.1]
      exact State.settle_of_no_pass quiet
  · rw [State.pilotOpened_noted (by rw [berth]; exact hs)] at hexec
    rw [hexec]
    exact congrArg Host.Outcome.next (State.settle_of_no_pass quiet)

end Sys2Proof.Proofs
end

