-- ==== Sys2Proof/Proofs/RecordStages.lean ====
section
/-! PROOFS. What the blocks make of a record, stage by stage, while no count and no stop is at its end. -/

namespace Sys2Proof.Machine

open Sys2Proof

/-! ### Changes of one outlet's own blocks -/

/-- One outlet's berth is changed, and with it FE, the supervisory link and the meters' station at most. -/
structure OwnChange (o : Outlet) (f : Berth → Berth) (s t : State) : Prop where
  berth : t.berth o = f (s.berth o)
  others : ∀ p, p ≠ o → t.berth p = s.berth p
  pool : t.pool = s.pool
  tb : t.tb = s.tb
  account : t.account = s.account
  passDue : t.passDue = s.passDue

theorem OwnChange.refl (o : Outlet) (s : State) : OwnChange o id s s :=
  ⟨rfl, fun _ _ => rfl, rfl, rfl, rfl, rfl⟩

theorem OwnChange.onBerth (s : State) (o : Outlet) (f : Berth → Berth) :
    OwnChange o f s (s.onBerth o f) :=
  ⟨State.berth_onBerth_self _ _ _, fun _ hp => State.berth_onBerth_ne _ _ hp, rfl, rfl, rfl, rfl⟩

theorem OwnChange.trans {o : Outlet} {f g : Berth → Berth} {s t u : State} (h : OwnChange o f s t)
    (k : OwnChange o g t u) : OwnChange o (fun b => g (f b)) s u :=
  ⟨k.berth.trans (congrArg g h.berth), fun p hp => (k.others p hp).trans (h.others p hp),
    k.pool.trans h.pool, k.tb.trans h.tb, k.account.trans h.account, k.passDue.trans h.passDue⟩

theorem OwnChange.raise (s : State) (o : Outlet) (k : FaultKind) (src : Source) (d : Option Nat) :
    OwnChange o id s (s.raise k src d) :=
  ⟨State.berth_raise _ _ _ _ _, fun p _ => State.berth_raise _ _ _ _ p, rfl, rfl, rfl, rfl⟩

theorem OwnChange.capacity {o : Outlet} {f : Berth → Berth} {s t : State} (h : OwnChange o f s t)
    (p : Outlet) : t.capacity p = s.capacity p := by unfold State.capacity; rw [h.pool]

theorem OwnChange.module {o : Outlet} {f : Berth → Berth} {s t : State} (h : OwnChange o f s t)
    (m : ModuleNo) : t.module m = s.module m := by unfold State.module; rw [h.pool]

/-! ### The clip notice -/

/-- A berth with its clip notice set or not. -/
def Berth.noticed (c : Bool) (b : Berth) : Berth := { b with mu := { b.mu with clipReported := c } }

theorem State.noteClip_own (s : State) (o : Outlet) (clip : Bool) :
    ∃ c, OwnChange o (Berth.noticed c) s (s.noteClip o clip) := by
  unfold State.noteClip
  dsimp only
  split
  · exact ⟨true, (OwnChange.raise s o _ _ _).trans (.onBerth _ _ _)⟩
  · exact ⟨(s.berth o).mu.clipReported, rfl, fun _ _ => rfl, rfl, rfl, rfl, rfl⟩

/-! ### A power record -/

/-- The GROW watch as a power record of an apparent power leaves it (R36). -/
def State.growAfter (s : State) (o : Outlet) (apparent : Nat) : Option RunCount :=
  if s.growAllowed o && growsAt apparent (s.capacity o) then
    some ((s.berth o).mp.growFrom.getD s.tb.run) else none

/-- The SHRINK watch as a power record of an apparent power leaves it (R37). -/
def State.shrinkAfter (s : State) (o : Outlet) (apparent : Nat) : Option RunCount :=
  if s.shrinkAllowed o && s.shrinksAt o apparent then
    some ((s.berth o).mp.shrinkFrom.getD s.tb.run) else none

theorem State.judgeWatches_eq (s : State) (o : Outlet) (apparent : Nat) :
    s.judgeWatches o apparent = s.onMp o fun p =>
      { p with growFrom := s.growAfter o apparent, shrinkFrom := s.shrinkAfter o apparent } :=
  State.onBerth_congr (f := fun b => { b with mp := { b.mp with
    growFrom := if s.growAllowed o && growsAt apparent (s.capacity o) then
      some (b.mp.growFrom.getD s.tb.run) else none
    shrinkFrom := if s.shrinkAllowed o && s.shrinksAt o apparent then
      some (b.mp.shrinkFrom.getD s.tb.run) else none } }) rfl

/-- The watches rest on the outlet's SC and MP, and on the modules. -/
theorem State.watches_congr {s t : State} {o : Outlet} (sc : (t.berth o).sc = (s.berth o).sc)
    (mp : (t.berth o).mp = (s.berth o).mp) (pool : t.pool = s.pool) (tb : t.tb = s.tb)
    (apparent : Nat) :
    t.growAfter o apparent = s.growAfter o apparent
      ∧ t.shrinkAfter o apparent = s.shrinkAfter o apparent := by
  have capacity : t.capacity o = s.capacity o := by unfold State.capacity; rw [pool]
  have grow : t.growAllowed o = s.growAllowed o := by
    unfold growAllowed assigned countAt
    dsimp only
    rw [sc, mp, pool]
  have shrink : t.shrinkAllowed o = s.shrinkAllowed o := by
    unfold shrinkAllowed countAt
    dsimp only
    rw [sc, mp, pool]
  have shrinks : t.shrinksAt o apparent = s.shrinksAt o apparent := by
    unfold shrinksAt largestRunning module
    dsimp only
    rw [capacity, sc, pool]
  unfold growAfter shrinkAfter
  rw [capacity, grow, shrink, shrinks, mp, tb]
  exact ⟨rfl, rfl⟩

/-- An outlet's berth after its power record, where no count and no deferred stop is at its end (R16, R36,
R37, R54, R87, R96, R110, R113, R114, R141). -/
def Berth.takesPower (b : Berth) (capacity : Nat) (r : PowerRecord) (now : RunCount) (clip : Bool)
    (grow shrink : Option RunCount) : Berth :=
  { b with
    mu := { b.mu with power := some r, clipReported := clip }
    mt := b.mt.map fun m => m.takePower r
    rg := (b.powerLoop capacity r).rg
    mp := { b.mp with growFrom := grow, shrinkFrom := shrink }
    pr := { b.pr with
      overload := if b.sc.state.breakerClosed then
          countRecord b.pr.overload (overloaded b.pr.tripPct capacity r.s) else b.pr.overload
      capacityFrom := if b.sc.state.breakerClosed then
          watch b.pr.capacityFrom (capacityLost capacity (some r)) now else b.pr.capacityFrom
      reverseFrom := if b.sc.state = .shoreSupply then
          watch b.pr.reverseFrom (reversed capacity (some r)) now else b.pr.reverseFrom }
    sc := (b.judgeLoad capacity r now).sc }

/-- The power loop rests on RG, the latest pair record and SC's record. -/
theorem Berth.powerLoop_congr {b c : Berth} (rg : c.rg = b.rg) (pair : c.mu.pair = b.mu.pair)
    (sc : c.sc = b.sc) (capacity : Nat) (r : PowerRecord) :
    (c.powerLoop capacity r).rg = (b.powerLoop capacity r).rg := by
  unfold powerLoop powerTargets withTargets nominalFreq nominalVolts
  dsimp only
  rw [rg, pair, sc]
  split
  · split
    · exact rg
    · cases b.mu.pair <;> rfl
  · exact rg

/-- An outlet's share of the load, worked out for its RUNNING modules (R40). -/
theorem State.shareLoad_rest (s : State) (o : Outlet) (r : PowerRecord) :
    ∃ modules, s.shareLoad o r = { s with pool := { s.pool with modules := modules } } :=
  State.foldl_onModule_rest _ _ _

theorem State.module_shareLoad (s : State) (o : Outlet) (r : PowerRecord) (m : ModuleNo) :
    (s.shareLoad o r).module m = if (s.module m).inStateAt .running o then
      (s.module m).share r.p (s.capacity o) else s.module m := by
  unfold State.shareLoad
  dsimp only
  rw [State.module_foldl_onModule _ _ (Pool.which_nodup _ _)]
  simp only [Pool.mem_which]
  rfl

theorem State.capacity_shareLoad (s : State) (o p : Outlet) (r : PowerRecord) :
    (s.shareLoad o r).capacity p = s.capacity p := by
  refine State.capacity_congr _ _ _ fun m => ?_
  rw [State.module_shareLoad]
  split <;> rfl

/-- No deferred stop can begin at a record (R37). -/
def Berth.noStopDue (b : Berth) : Prop :=
  ∀ x, b.mp.voluntary = some x → x.begun = true ∨ b.sc.state ≠ .shoreSupply

theorem State.stopDue_of_not {s : State} {o : Outlet} (h : (s.berth o).noStopDue) (apparent : Nat) :
    s.stopDue o apparent = none := by
  unfold stopDue
  split
  · next x hx =>
    refine if_neg fun g => ?_
    obtain ⟨deferred, stands, -⟩ := g
    unfold voluntaryStands at stands
    rw [deferred, if_neg (by decide)] at stands
    rcases h x hx with h | h
    · rw [deferred] at h; cases h
    · simp [h] at stands
  · rfl

/-- PR's own counts and watches at a power record (R110, R113, R114). -/
def Berth.judgedPower (b : Berth) (capacity : Nat) (r : PowerRecord) (now : RunCount) : Berth :=
  (b.countOverload capacity r).judgeCapacityWatches capacity now

theorem Berth.judgedPower_eq (b : Berth) (capacity : Nat) (r : PowerRecord) (now : RunCount) :
    b.judgedPower capacity r now = { b with pr := { b.pr with
      overload := if b.sc.state.breakerClosed then
          countRecord b.pr.overload (overloaded b.pr.tripPct capacity r.s) else b.pr.overload
      capacityFrom := if b.sc.state.breakerClosed then
          watch b.pr.capacityFrom (capacityLost capacity b.mu.power) now else b.pr.capacityFrom
      reverseFrom := if b.sc.state = .shoreSupply then
          watch b.pr.reverseFrom (reversed capacity b.mu.power) now else b.pr.reverseFrom } } := by
  unfold judgedPower countOverload judgeCapacityWatches
  cases h : b.sc.state.breakerClosed <;> simp [h]

/-- The overload count does not come to 10 at a record (R110). -/
theorem countRecord_of_lt {n : Nat} (h : n < 9) (holds : Bool) : countRecord n holds ≠ 10 := by
  unfold countRecord
  split <;> omega

/-- Table 6-2: OVERLOAD trips in the breaker-closed states. -/
theorem Cause.overload_tripsIn (st : OutletState) : Cause.overload.tripsIn st = st.breakerClosed := by
  cases st <;> rfl

theorem State.prPower_quiet {s : State} {o : Outlet} (r : PowerRecord)
    (h : (s.berth o).pr.overload < 9 ∨ (s.berth o).sc.state.breakerClosed = false) :
    s.prPower o r = s.onBerth o fun b => b.judgedPower (s.capacity o) r s.tb.run := by
  obtain ⟨j, hj⟩ : ∃ j, j = s.onBerth o fun b => b.judgedPower (s.capacity o) r s.tb.run := ⟨_, rfl⟩
  have berth : j.berth o = (s.berth o).judgedPower (s.capacity o) r s.tb.run := by
    rw [hj, State.berth_onBerth_self]
  rw [Berth.judgedPower_eq] at berth
  have prPower : s.prPower o r
      = if (j.berth o).pr.overload = 10 then j.complete o .overload else j := by rw [hj]; rfl
  rw [prPower, ← hj]
  refine ite_eq_right_iff.mpr fun full => ?_
  rcases h with few | open'
  · exfalso
    rw [berth] at full
    dsimp only at full
    split at full
    · exact countRecord_of_lt few _ full
    · omega
  · exact State.complete_unwatched (by rw [berth, Cause.overload_tripsIn]; exact open') (.inr rfl)

/-- What a power record leaves while no count and no deferred stop is at its end. -/
structure PowerTaken (o : Outlet) (r : PowerRecord) (s t : State) : Prop where
  berth : ∃ clip, t.berth o = (s.berth o).takesPower (s.capacity o) r s.tb.run clip
    (s.growAfter o r.s) (s.shrinkAfter o r.s)
  others : ∀ p, p ≠ o → t.berth p = s.berth p
  account : ∃ sum, sum = (Outlet.all.map fun q => if q = o then r.p
      else (s.berth q).mu.power.elim 0 fun x => x.p).sum
    ∧ t.account = s.account.judgeImport sum s.tb.run
  module : ∀ m, t.module m = if (s.module m).inStateAt .running o then
    (s.module m).share r.p (s.capacity o) else s.module m
  passDue : t.passDue = s.passDue

theorem State.importSum_eq (s : State) :
    s.importSum = (Outlet.all.map fun q => (s.berth q).mu.power.elim 0 fun x => x.p).sum := by
  have elim : s.importSum
      = (s.berths.toList.map fun b => b.mu.power.elim 0 fun x => x.p).foldl (· + ·) 0 :=
    congrArg (fun f => (s.berths.toList.map f).foldl (· + ·) 0)
      (funext fun b => by cases b.mu.power <;> rfl)
  rw [elim, ← List.sum_eq_foldl]
  rfl

section
variable (s : State) (o : Outlet) (r : PowerRecord)

/-- The state in which a power record has been kept, and MT and RG have taken it. -/
def State.looped : State :=
  (((s.onMu o fun m => { m with power := some r }).noteClip o r.clipped).onMt o fun m =>
    m.takePower r).onBerth o fun b => b.powerLoop (s.capacity o) r

theorem State.takePower_eq :
    s.takePower o r = (((s.looped o r).mpPower o r).prPower o r).scPower o r := rfl

/-- A berth whose MU has kept a power record, and whose MT and RG have taken it. -/
def Berth.loopedBy (c : Bool) (capacity : Nat) (r : PowerRecord) (b : Berth) : Berth :=
  { b with mu := { b.mu with power := some r, clipReported := c }
           mt := b.mt.map fun m => m.takePower r
           rg := (b.powerLoop capacity r).rg }

theorem State.looped_own : ∃ c, OwnChange o (Berth.loopedBy c (s.capacity o) r) s (s.looped o r) := by
  obtain ⟨c, noted⟩ := (s.onMu o fun m => { m with power := some r }).noteClip_own o r.clipped
  have all := (((OwnChange.onBerth s o fun b => { b with mu := { b.mu with power := some r } }).trans
    noted).trans (.onBerth _ o fun b => { b with mt := b.mt.map fun m => m.takePower r })).trans
    (.onBerth _ o fun b => b.powerLoop (s.capacity o) r)
  refine ⟨c, all.berth.trans ?_, all.others, all.pool, all.tb, all.account, all.passDue⟩
  dsimp only
  rw [Berth.powerLoop_rest, Berth.powerLoop_congr (b := s.berth o)]
  all_goals rfl

/-- The state with the watches judged by a record of an apparent power (R36, R37). -/
def State.watched (apparent : Nat) : State := s.onMp o fun p =>
  { p with growFrom := s.growAfter o apparent, shrinkFrom := s.shrinkAfter o apparent }

theorem State.judgeWatches_watched (apparent : Nat) :
    s.judgeWatches o apparent = s.watched o apparent := s.judgeWatches_eq o apparent

variable {s o r} in
theorem State.mpPower_quiet (h : (s.watched o r.s).stopDue o r.s = none) :
    s.mpPower o r = (s.watched o r.s).shareLoad o r := by
  unfold State.mpPower
  dsimp only
  rw [State.judgeWatches_watched, h]

variable {s o} in
theorem State.watched_noStopDue (h : (s.berth o).noStopDue) (apparent : Nat) :
    (s.watched o apparent).stopDue o apparent = none := by
  refine State.stopDue_of_not ?_ _
  unfold State.watched State.onMp
  rw [State.berth_onBerth_self]
  exact h

/-- A power record while no count and no deferred stop is at its end. -/
theorem State.takePower_of_none (stop : ((s.looped o r).watched o r.s).stopDue o r.s = none)
    (count : (s.berth o).pr.overload < 9 ∨ (s.berth o).sc.state.breakerClosed = false) :
    PowerTaken o r s (s.takePower o r) := by
  obtain ⟨clip, looped⟩ := s.looped_own o r
  rw [State.takePower_eq]
  generalize s.looped o r = l at *
  rw [State.mpPower_quiet stop]
  unfold State.watched
  obtain ⟨grow, shrink⟩ := State.watches_congr (s := s) (t := l) (o := o) (by rw [looped.berth]; rfl)
    (by rw [looped.berth]; rfl) looped.pool looped.tb r.s
  rw [grow, shrink]
  have watched := looped.trans (.onBerth l o fun b => { b with mp := { b.mp with
    growFrom := s.growAfter o r.s, shrinkFrom := s.shrinkAfter o r.s } })
  change OwnChange _ _ _ (l.onMp o fun p => { p with
    growFrom := s.growAfter o r.s, shrinkFrom := s.shrinkAfter o r.s }) at watched
  generalize (l.onMp o fun p => { p with
    growFrom := s.growAfter o r.s, shrinkFrom := s.shrinkAfter o r.s }) = w at *
  obtain ⟨modules, shared⟩ := w.shareLoad_rest o r
  have module := w.module_shareLoad o r
  have capacity := (w.capacity_shareLoad o o r).trans (watched.capacity o)
  generalize w.shareLoad o r = v at *
  have vberth (p : Outlet) : v.berth p = w.berth p := by rw [shared]; rfl
  have judged := State.prPower_quiet (s := v) (o := o) r (by
    rw [vberth, watched.berth]; exact count)
  rw [judged, capacity]
  have tb : v.tb = s.tb := by rw [shared]; exact watched.tb
  rw [tb]
  have own := OwnChange.onBerth v o fun b => b.judgedPower (s.capacity o) r s.tb.run
  generalize (v.onBerth o fun b => b.judgedPower (s.capacity o) r s.tb.run) = j at *
  have jberth : j.berth o = _ := own.berth.trans
    (congrArg (fun b => b.judgedPower (s.capacity o) r s.tb.run) ((vberth o).trans watched.berth))
  refine ⟨⟨clip, ?_⟩, fun p hp => ?_, ⟨j.importSum, ?_, ?_⟩, fun m => ?_, ?_⟩
  · show (State.onBerth _ o _).berth o = _
    rw [State.berth_onBerth_self]
    show (j.berth o).judgeLoad (j.capacity o) r j.tb.run = _
    rw [own.capacity, capacity, own.tb, tb, jberth, Berth.judgedPower_eq]
    rfl
  · show (State.onBerth _ o _).berth p = _
    rw [State.berth_onBerth_ne _ _ hp]
    exact (own.others p hp).trans ((vberth p).trans (watched.others p hp))
  · rw [State.importSum_eq]
    refine congrArg List.sum (List.map_congr_left fun q _ => ?_)
    by_cases hq : q = o
    · subst hq; rw [if_pos rfl, jberth, Berth.judgedPower_eq]; rfl
    · rw [if_neg hq, own.others q hq, vberth, watched.others q hq]
  · show Account.judgeImport j.account _ j.tb.run = _
    rw [own.account, own.tb, tb, shared]
    exact congrArg (fun a => Account.judgeImport a j.importSum s.tb.run) watched.account
  · show j.module m = _
    rw [own.module, module, watched.module, watched.capacity]
  · show j.passDue = _
    rw [own.passDue, shared]
    exact watched.passDue

theorem State.takePower_taken (stop : (s.berth o).noStopDue)
    (count : (s.berth o).pr.overload < 9 ∨ (s.berth o).sc.state.breakerClosed = false) :
    PowerTaken o r s (s.takePower o r) := by
  refine State.takePower_of_none s o r (State.watched_noStopDue ?_ _) count
  obtain ⟨clip, looped⟩ := s.looped_own o r
  rw [looped.berth]
  exact stop
end

end Sys2Proof.Machine
end

