-- ==== Sys2Proof/Proofs/RecordJudgements.lean ====
section
/-! PROOFS. What the blocks judge by a phasor record of Pn or Sn, and the commands that bring one. -/

namespace Sys2Proof.Machine

open Sys2Proof

/-! ### Guarding by a record of Pn -/

/-- A berth with a point of the ship's bus held. -/
def Berth.holdsShip (p : PointState) (b : Berth) : Berth := { b with mu := { b.mu with ship := p } }

/-- A berth with a point of the shore's bus held. -/
def Berth.holdsShore (p : PointState) (b : Berth) : Berth := { b with mu := { b.mu with shore := p } }

theorem State.setPoint_ship (s : State) (o : Outlet) (p : PointState) :
    OwnChange o (Berth.holdsShip p) s (s.setPoint (.ship o) p) := .onBerth s o _

theorem State.setPoint_shore (s : State) (o : Outlet) (p : PointState) :
    OwnChange o (Berth.holdsShore p) s (s.setPoint (.shore o) p) := .onBerth s o _

/-- Table 6-2: BUS_FREQUENCY trips in the breaker-closed states. -/
theorem Cause.busFrequency_tripsIn (st : OutletState) :
    Cause.busFrequency.tripsIn st = st.breakerClosed := by cases st <;> rfl

/-- A record of Pn while the frequency count is not at its end, or is not watched (R111). -/
theorem State.prShip_quiet {s : State} {o : Outlet} (r : Phasor)
    (h : (s.berth o).pr.frequency < 9 ∨ (s.berth o).watchesBus = false) :
    s.prShip o r = s.onBerth o fun b => b.prShipRecord r := by
  obtain ⟨j, hj⟩ : ∃ j, j = s.onBerth o fun b => b.prShipRecord r := ⟨_, rfl⟩
  have berth : j.berth o = (s.berth o).prShipRecord r := by rw [hj, State.berth_onBerth_self]
  have prShip : s.prShip o r
      = if (j.berth o).pr.frequency = 10 then j.complete o .busFrequency else j := by rw [hj]; rfl
  rw [prShip, ← hj]
  refine ite_eq_right_iff.mpr fun full => ?_
  by_cases watched : (s.berth o).watchesBus = true
  · exfalso
    have few := h.resolve_right (by rw [watched]; decide)
    rw [berth, Berth.prShipRecord, if_pos watched] at full
    exact countRecord_of_lt few _ full
  · rw [Bool.not_eq_true] at watched
    have same : j.berth o = s.berth o := by
      rw [berth, Berth.prShipRecord, if_neg (by rw [watched]; decide)]
    obtain ⟨open', notTripped⟩ := Bool.or_eq_false_iff.mp watched
    exact State.complete_unwatched (by rw [same, Cause.busFrequency_tripsIn, open'])
      (.inl (by rw [same]; exact notTripped))

/-- The state in which a record of Pn has been noted, and PR and SY have taken it. -/
def State.guardShip (s : State) (o : Outlet) (r : Phasor) : State :=
  ((s.noteClip o r.clipped).prShip o r).onBerth o fun b => b.syShipRecord s.tb.run

/-- A berth that has noted a record of Pn, PR and SY having taken it (R73, R111, R112). -/
def Berth.guarded (c : Bool) (r : Phasor) (now : RunCount) (b : Berth) : Berth :=
  ((b.noticed c).prShipRecord r).syShipRecord now

theorem State.guardShip_own {s : State} {o : Outlet} (r : Phasor)
    (h : (s.berth o).pr.frequency < 9 ∨ (s.berth o).watchesBus = false) :
    ∃ c, OwnChange o (Berth.guarded c r s.tb.run) s (s.guardShip o r) := by
  obtain ⟨c, noted⟩ := s.noteClip_own o r.clipped
  unfold State.guardShip
  rw [State.prShip_quiet r (by rw [noted.berth]; exact h)]
  exact ⟨c, (noted.trans (.onBerth _ o fun b => b.prShipRecord r)).trans
    (.onBerth _ o fun b => b.syShipRecord s.tb.run)⟩

section
variable (c : Bool) (r : Phasor) (now : RunCount) (b : Berth)

theorem Berth.prShipRecord_eq : b.prShipRecord r = { b with pr := { b.pr with
    frequency := if b.watchesBus then
        countRecord b.pr.frequency (outsideFrequency b.nominalFreq r) else b.pr.frequency
    voltageFrom := if b.watchesBus then
        watch b.pr.voltageFrom (outsideVoltage b.nominalVolts r) r.stamp.run
      else b.pr.voltageFrom } } := by
  unfold prShipRecord
  split <;> rfl

/-- SY keeps a dead time for the outlet (R73). -/
def Berth.keepsDeadTime : Bool := b.sc.state.keepsDeadTime && b.declaresDeadBus

theorem Berth.syShipRecord_eq : b.syShipRecord now = { b with sy := { b.sy with
    deadFrom := if b.keepsDeadTime then
        (if b.mu.ship.live then none else some (b.sy.deadFrom.getD now)) else b.sy.deadFrom
    deadComplete := if b.keepsDeadTime && b.mu.ship.live then false else b.sy.deadComplete } } := by
  unfold syShipRecord keepsDeadTime
  cases b.sc.state.keepsDeadTime && b.declaresDeadBus <;> cases b.mu.ship.live <;> rfl

/-- A record of Pn is noted by MU, PR and SY alone. -/
theorem Berth.guarded_eq : b.guarded c r now
    = { b with mu := { b.mu with clipReported := c }, pr := (b.prShipRecord r).pr
               sy := (b.syShipRecord now).sy } := by
  unfold guarded
  rw [Berth.syShipRecord_eq, Berth.prShipRecord_eq, Berth.syShipRecord_eq _ b, Berth.prShipRecord_eq _ b]
  rfl
end

/-! ### Judging the buses -/

/-- Nothing that a record of a bus makes SC and SY judge holds at an outlet (R74, R90). -/
def Berth.staysPut (b : Berth) (capacity : Nat) : Prop :=
  b.deadBusReady capacity = false
    ∧ ¬ (b.sc.state = .energising ∧ b.declaresParallel = true ∧ b.sc.target ≤ capacity
      ∧ b.mu.shore.live = true ∧ b.mu.ship.live = true)

theorem State.judgeBuses_stays {s : State} {o : Outlet} (h : (s.berth o).staysPut (s.capacity o)) :
    s.judgeBuses o = s := by
  have dead : s.tryDeadBus o = s := if_neg (by rw [h.1]; decide)
  unfold State.judgeBuses
  rw [dead, State.judgeEnergising_eq, if_neg h.2]

/-- Outside ENERGISING and SYNCHRONISING the buses are not judged (R74, R90). -/
theorem Berth.staysPut_of_not {b : Berth} (capacity : Nat) (h : b.sc.state.keepsDeadTime = false) :
    b.staysPut capacity := by
  refine ⟨by simp [deadBusReady, h], fun g => ?_⟩
  rw [g.1] at h
  cases h

/-- What the judgement of the buses comes to where no dead-bus close is ready (R90). -/
theorem State.judgeBuses_of_not_ready {s : State} {o : Outlet}
    (h : (s.berth o).deadBusReady (s.capacity o) = false) :
    s.judgeBuses o = if (s.berth o).sc.state = .energising ∧ (s.berth o).declaresParallel
        ∧ (s.berth o).sc.target ≤ s.capacity o ∧ (s.berth o).mu.shore.live
        ∧ (s.berth o).mu.ship.live then s.moveTo o .synchronising else s := by
  have dead : s.tryDeadBus o = s := if_neg (by rw [h]; decide)
  unfold State.judgeBuses
  rw [dead, State.judgeEnergising_eq]

/-- What the judgement of the buses leaves of an outlet in ENERGISING or SYNCHRONISING, as the blocks read it
at the power record that follows. -/
structure BusJudged (o : Outlet) (s u : State) : Prop where
  state : (u.berth o).sc.state = .energising ∨ (u.berth o).sc.state = .synchronising
    ∨ (u.berth o).sc.state = .closing ∨ (u.berth o).sc.state = .tripped
  capReported : (u.berth o).sc.capReported = (s.berth o).sc.capReported

theorem BusJudged.moveTo {o : Outlet} {s t : State} {new : OutletState} (pSet : Nat)
    (hn : new = .synchronising ∨ new = .closing ∨ new = .tripped)
    (h : (t.berth o).sc.capReported = (s.berth o).sc.capReported) :
    BusJudged o s (t.moveTo o new pSet) := by
  refine ⟨by rw [State.moveTo_state]; exact .inr hn, ?_⟩
  rw [(t.moveTo_berth_self o new pSet).sc, Berth.takeState_sc]
  exact h

theorem BusJudged.trip {o : Outlet} {s t : State} (c : Cause)
    (h : (t.berth o).sc.capReported = (s.berth o).sc.capReported) : BusJudged o s (t.trip o c) := by
  obtain ⟨state, reported⟩ := BusJudged.moveTo (s := s) (new := .tripped) 0 (.inr (.inr rfl)) h
  have sc : ((t.trip o c).berth o).sc = { ((t.moveTo o .tripped).berth o).sc with
      firstCause := some c } := by
    unfold State.trip
    simp
  exact ⟨by rw [sc]; exact state, by rw [sc]; exact reported⟩

theorem State.judgeBuses_judged {s : State} {o : Outlet} (h : (s.berth o).sc.state.keepsDeadTime = true) :
    BusJudged o s (s.judgeBuses o) := by
  have starting : (s.berth o).sc.state = .energising ∨ (s.berth o).sc.state = .synchronising := by
    revert h
    cases (s.berth o).sc.state <;> decide
  cases ready : (s.berth o).deadBusReady (s.capacity o) with
  | false =>
    rw [State.judgeBuses_of_not_ready ready]
    split
    · exact .moveTo 0 (.inl rfl) rfl
    · exact ⟨starting.elim .inl fun h => .inr (.inl h), rfl⟩
  | true =>
    have closes : BusJudged o s (s.tryDeadBus o) ∧ ((s.tryDeadBus o).berth o).sc.state ≠ .energising := by
      have issues : s.tryDeadBus o = (s.issued o none).enter o .closing := if_pos ready
      have issued : ((s.issued o none).berth o).sc = (s.berth o).sc := by rw [State.issued_berth]
      have awake : ((s.issued o none).berth o).sc.state ≠ .dormant := by
        rw [issued]
        rcases starting with h | h <;> rw [h] <;> decide
      rw [issues]
      cases cause : ((s.issued o none).berth o).causeEntering .closing
          (s.issued o none).gridWatch.standing with
      | none =>
        rw [State.enter_of_none awake (by decide) cause]
        exact ⟨.moveTo 0 (.inr (.inl rfl)) (by rw [issued]), by rw [State.moveTo_state]; decide⟩
      | some c =>
        rw [State.enter_of_some awake (by decide) cause]
        have judged := BusJudged.moveTo (s := s) (o := o) (t := s.issued o none) (new := .closing) 0
          (.inr (.inl rfl)) (by rw [issued])
        exact ⟨.trip c judged.capReported, by rw [(State.trip_tripped _ o c).state]; decide⟩
    obtain ⟨judged, closed⟩ := closes
    unfold State.judgeBuses
    rw [State.judgeEnergising_eq, if_neg fun h => closed h.1]
    exact judged

/-! ### The pair record of a cycle of Pn -/

/-- A berth that has taken a pair record: MU has kept it, RG and SY have taken it (R15, R51, R53, R61). -/
def Berth.pairedBy (capacity : Nat) (r : PairRecord) (b : Berth) : Berth :=
  (({ b with mu := { b.mu with pair := some r } } : Berth).rgPair r).syPair capacity r

/-- A berth after a cycle record of Pn. -/
def Berth.takesPair (capacity : Nat) (b : Berth) : Berth :=
  b.mu.pairRecord.elim b fun r => b.pairedBy capacity r

theorem State.takePair_own (s : State) (o : Outlet) :
    OwnChange o (Berth.takesPair (s.capacity o)) s (s.takePair o) := by
  unfold State.takePair
  cases h : (s.berth o).mu.pairRecord with
  | none => exact ⟨by rw [Berth.takesPair, h]; rfl, fun _ _ => rfl, rfl, rfl, rfl, rfl⟩
  | some r =>
    refine ⟨?_, fun p hp => State.berth_onBerth_ne _ _ hp, rfl, rfl, rfl, rfl⟩
    rw [Berth.takesPair, h]
    exact State.berth_onBerth_self _ _ _

theorem Berth.takesPair_rest (capacity : Nat) (b : Berth) : b.takesPair capacity
    = { b with mu := (b.takesPair capacity).mu, rg := (b.takesPair capacity).rg
               sy := { b.sy with close := (b.takesPair capacity).sy.close } } := by
  have syPair (c : Berth) (r : PairRecord) : c.syPair capacity r
      = { c with sy := { c.sy with close := (c.syPair capacity r).sy.close } } := by
    unfold Berth.syPair
    split
    · split <;> rfl
    · rfl
  unfold takesPair
  cases b.mu.pairRecord with
  | none => rfl
  | some r =>
    rw [Option.elim_some, pairedBy, syPair, Berth.rgPair_rest]

/-! ### The commands that bring a record -/

/-- A record brought at a point: the point that it leaves, and the cycle power that comes with a crossing. -/
structure Brings (s : State) (pt : MeasPoint) (v : LineVoltages) (p : PointState) (r : Phasor) :
    Prop where
  record : p.record = some r
  stamp : r.stamp = s.now
  voltage : r.voltage = recordVolts v
  clipped : r.clipped = (v.clipped || decide (15000 < meanVolts v))
  live : p.live = decide (liveThreshold (s.nominalAt pt) ≤ recordVolts v)

theorem Brings.voltageOnly (s : State) (pt : MeasPoint) (v : LineVoltages) :
    Brings s pt v ((s.point pt).voltageOnly (s.nominalAt pt) s.now v) (phasor s.now none v) :=
  ⟨rfl, rfl, rfl, rfl, rfl⟩

theorem Brings.cycled (s : State) (pt : MeasPoint) (v : LineVoltages) (last : TimeStamp) :
    Brings s pt v ((s.point pt).cycled (s.nominalAt pt) s.now last v)
      (phasor s.now (some (cycleFields (elapsed s.tb.run last.run))) v) := ⟨rfl, rfl, rfl, rfl, rfl⟩

/-- A record taken and the passes of the step's end leave the points as the record found them. -/
theorem State.takeRecord_points (s : State) (pt : MeasPoint) (p : PointState) (v : LineVoltages)
    (c : Option CyclePower) (q : MeasPoint) :
    ((s.setPoint pt p).takeRecord pt v c).settle.point q = (s.setPoint pt p).point q := by
  obtain ⟨frame, point⟩ := s.takeRecord_frame pt p v c
  by_cases h : q = pt
  · subst h; rw [point, State.point_setPoint_self]
  · rw [frame.points q h, State.point_setPoint_ne _ _ h]

/-- A command that brings a record has it taken, and the passes of the step's end made (R13, R14). -/
theorem State.BringsRecord.brings {s : State} {pt : MeasPoint} {v : LineVoltages} {i : Instr}
    (h : s.BringsRecord pt v i) : ∃ p r c, Brings s pt v p r
      ∧ exec i s = .next ((s.setPoint pt p).takeRecord pt v c).settle
      ∧ MeasuredFrame pt s ((s.setPoint pt p).takeRecord pt v c).settle := by
  rcases h with ⟨rfl, none'⟩ | ⟨rfl, some'⟩ | ⟨c, last, rfl, hlast, low, high⟩
  · exact ⟨_, _, none, .voltageOnly s pt v,
      congrArg Host.Outcome.next (if_pos (by rw [none']; rfl)), (s.takeRecord_frame _ _ _ _).1⟩
  · exact ⟨_, _, none, .voltageOnly s pt v,
      congrArg Host.Outcome.next (if_pos (Option.isSome_iff_ne_none.mpr some')),
      (s.takeRecord_frame _ _ _ _).1⟩
  · by_cases live : liveThreshold (s.nominalAt pt) ≤ recordVolts v
    · exact ⟨_, _, some c, .cycled s pt v last,
        execZeroCrossing_recorded (PointState.cross_cycled hlast low high live),
        (s.takeRecord_frame _ _ _ _).1⟩
    · exact ⟨_, _, some c, .voltageOnly s pt v,
        execZeroCrossing_recorded (PointState.cross_dead hlast low high (Nat.lt_of_not_le live)),
        (s.takeRecord_frame _ _ _ _).1⟩

/-- What a record of Pn comes to: the judgement, and at the end of a cycle its pair and power records. -/
theorem State.takeShipRecord_cases {s : State} {o : Outlet} {r : Phasor}
    (hr : (s.berth o).mu.ship.record = some r) (v : LineVoltages) (c : Option CyclePower) :
    s.takeShipRecord o v c = s.judgeShip o r
      ∨ ∃ q, s.takeShipRecord o v c = ((s.judgeShip o r).takePair o).takePower o q := by
  by_cases h : r.cycle = none ∨ c = none
  · exact .inl (State.takeShipRecord_of_none hr h v)
  · rw [not_or] at h
    obtain ⟨f, hf⟩ := Option.ne_none_iff_exists'.mp h.1
    obtain ⟨power, rfl⟩ := Option.ne_none_iff_exists'.mp h.2
    exact .inr ⟨_, State.takeShipRecord_of_cycle hr hf v power⟩

/-- What a record of Sn comes to: the judgement, and at the end of a cycle with Pn dead the power record. -/
theorem State.takeShoreRecord_cases {s : State} {o : Outlet} {r : Phasor}
    (hr : (s.berth o).mu.shore.record = some r) (v : LineVoltages) (c : Option CyclePower) :
    s.takeShoreRecord o v c = s.judgeShore o r
      ∨ ∃ q, s.takeShoreRecord o v c = (s.judgeShore o r).takePower o q := by
  by_cases h : r.cycle = none ∨ c = none ∨ (s.berth o).mu.ship.live = true
  · exact .inl (State.takeShoreRecord_of_none hr h v)
  · rw [not_or, not_or] at h
    obtain ⟨hf, hc, live⟩ := h
    obtain ⟨f, hf⟩ := Option.ne_none_iff_exists'.mp hf
    obtain ⟨power, rfl⟩ := Option.ne_none_iff_exists'.mp hc
    exact .inr ⟨_, State.takeShoreRecord_of_cycle hr hf (by simpa using live) v power⟩

end Sys2Proof.Machine
end

