-- ==== Sys2Proof/Proofs/DeadBus.lean ====
section
/-! PROOFS. Before the breaker closes: the dead time (R73, R74), and the ends of ENERGISING and
SYNCHRONISING (R90, R91). -/

namespace Sys2Proof.Machine

open Sys2Proof

/-! ### What follows the judgement of a record -/

theorem Berth.rgPair_mode (b : Berth) (r : PairRecord) : (b.rgPair r).rg.mode = b.rg.mode := by
  unfold rgPair
  dsimp only
  split <;> rfl

theorem Berth.syPair_rg (b : Berth) (capacity : Nat) (r : PairRecord) :
    (b.syPair capacity r).rg = b.rg := by rw [Berth.syPair_rest]

theorem Berth.takesPair_mode (b : Berth) (capacity : Nat) :
    (b.takesPair capacity).rg.mode = b.rg.mode := by
  unfold takesPair
  cases b.mu.pairRecord with
  | none => rfl
  | some r => rw [Option.elim_some, pairedBy, Berth.syPair_rg, Berth.rgPair_mode]

theorem Berth.powerLoop_mode (b : Berth) (capacity : Nat) (r : PowerRecord) :
    (b.powerLoop capacity r).rg.mode = b.rg.mode := by
  unfold powerLoop
  split
  · dsimp only
    split
    · rfl
    · split
      · exact Berth.withTargets_mode _ _ _
      · rfl
  · rfl

/-- What the records of a cycle leave of an outlet that carries no load: SC's record but for the load watches,
SY but for its close, RG's mode, and the points. -/
structure Unloaded (o : Outlet) (s t : State) : Prop where
  sc : ∃ cap reported unloaded, (t.berth o).sc = { (s.berth o).sc with
    capFrom := cap, capReported := reported, unloadedFrom := unloaded }
  sy : ∃ close, (t.berth o).sy = { (s.berth o).sy with close := close }
  mode : (t.berth o).rg.mode = (s.berth o).rg.mode

theorem Unloaded.refl (o : Outlet) (s : State) : Unloaded o s s := ⟨⟨_, _, _, rfl⟩, ⟨_, rfl⟩, rfl⟩

theorem Unloaded.trans {o : Outlet} {s t u : State} (h : Unloaded o s t) (g : Unloaded o t u) :
    Unloaded o s u := by
  obtain ⟨⟨a, b, c, hsc⟩, ⟨d, hsy⟩, hm⟩ := h
  obtain ⟨⟨a', b', c', gsc⟩, ⟨d', gsy⟩, gm⟩ := g
  exact ⟨⟨a', b', c', by rw [gsc, hsc]⟩, ⟨d', by rw [gsy, hsy]⟩, gm.trans hm⟩

theorem Unloaded.state {o : Outlet} {s t : State} (h : Unloaded o s t) :
    (t.berth o).sc.state = (s.berth o).sc.state := by
  obtain ⟨_, _, _, e⟩ := h.sc
  rw [e]

theorem State.takePair_unloaded (s : State) (o : Outlet) : Unloaded o s (s.takePair o) := by
  have own := (s.takePair_own o).berth
  rw [Berth.takesPair_rest] at own
  exact ⟨⟨_, _, _, by rw [own]⟩, ⟨_, by rw [own]⟩, by rw [own]; exact Berth.takesPair_mode _ _⟩

theorem State.takePower_unloaded {s : State} {o : Outlet} (q : PowerRecord)
    (h : (s.berth o).sc.state.breakerClosed = false) : Unloaded o s (s.takePower o q) := by
  have idle : (s.berth o).noStopDue := fun _ _ => .inr fun e => by rw [e] at h; cases h
  obtain ⟨clip, berth⟩ := (s.takePower_taken o q idle (.inr h)).berth
  exact ⟨⟨_, _, _, by rw [berth]; rfl⟩, ⟨_, by rw [berth]; rfl⟩,
    by rw [berth]; exact Berth.powerLoop_mode _ _ _⟩

theorem State.settle_unloaded {s : State} {o : Outlet} (h : (s.berth o).sc.state ≠ .awaitAuth) :
    Unloaded o s s.settle := by
  have same := State.settle_berth h
  exact ⟨⟨_, _, _, by rw [same.sc]⟩, ⟨_, by rw [same.sy]⟩, by rw [same.rg]⟩

/-- The rest of a step that has judged a record of an outlet that carries no load. -/
theorem Unloaded.rest {o : Outlet} {w t : State}
    (h : t = w ∨ ∃ q, t = w.takePower o q ∨ t = (w.takePair o).takePower o q)
    (open' : (w.berth o).sc.state.breakerClosed = false) (awake : (w.berth o).sc.state ≠ .awaitAuth) :
    Unloaded o w t.settle := by
  have made : Unloaded o w t := by
    rcases h with rfl | ⟨q, rfl | rfl⟩
    · exact .refl o _
    · exact State.takePower_unloaded q open'
    · exact (w.takePair_unloaded o).trans (State.takePower_unloaded q (by
        rw [(w.takePair_unloaded o).state]; exact open'))
  exact made.trans (State.settle_unloaded (by rw [made.state]; exact awake))

/-! ### The dead time -/

theorem Berth.deadBusReady_iff (b : Berth) (capacity : Nat) : b.deadBusReady capacity = true
    ↔ (b.sc.state = .energising ∨ b.sc.state = .synchronising) ∧ b.declaresDeadBus = true
      ∧ b.sy.deadComplete = true ∧ b.sc.target ≤ capacity ∧ b.mu.shore.live = true
      ∧ b.lines.breakerClosed = false ∧ b.sy.openDrive = false ∧ b.sy.close = .watching := by
  have keeps : b.sc.state.keepsDeadTime = true
      ↔ b.sc.state = .energising ∨ b.sc.state = .synchronising := by
    cases b.sc.state <;> decide
  simp only [deadBusReady, Bool.and_eq_true, keeps, decide_eq_true_eq, Bool.not_eq_true', beq_iff_eq,
    and_assoc]

/-- The state with an outlet's dead time complete. -/
def State.deadTimed (s : State) (o : Outlet) : State := s.onSy o fun y => { y with deadComplete := true }

theorem State.deadTimed_berth (s : State) (o : Outlet) :
    (s.deadTimed o).berth o
      = { s.berth o with sy := { (s.berth o).sy with deadComplete := true } } :=
  State.berth_onBerth_self _ _ _

theorem execDeadTimeComplete_eq {s : State} {o : Outlet} (h : (s.berth o).sy.deadFrom.isSome = true) :
    exec (.deadTimeComplete o) s = .next ((s.deadTimed o).tryDeadBus o).settle :=
  congrArg Host.Outcome.next (if_pos h)

theorem State.deadTimed_acts {x : Scope} (s : State) (o : Outlet) (h : o ∈ x.outlets) :
    Acts x s (s.deadTimed o) := Acts.onSy _ _ _ h rfl

/-- An outlet whose declaration is of a dead bus does not declare PARALLEL. -/
theorem Berth.declaresParallel_of_deadBus {b : Berth} (h : b.declaresDeadBus = true) :
    b.declaresParallel = false := by
  unfold declaresDeadBus at h
  unfold declaresParallel
  cases hd : b.sc.declaration with
  | none => rfl
  | some d =>
    rw [hd] at h
    simp only [beq_iff_eq] at h
    simp [h]

/-! ### A record of Pn before the breaker closes -/

/-- The outlet has not been let onto its bus (R90, R91). -/
def OutletState.starting (st : OutletState) : Prop := st = .energising ∨ st = .synchronising

theorem OutletState.starting.keeps {st : OutletState} (h : st.starting) :
    st.keepsDeadTime = true ∧ st.breakerClosed = false ∧ st ≠ .awaitAuth ∧ st ≠ .tripped
      ∧ st ≠ .dormant := by
  rcases h with rfl | rfl <;> decide

theorem Berth.watchesBus_of_starting {b : Berth} (h : b.sc.state.starting) : b.watchesBus = false := by
  unfold watchesBus trippedClosed
  rcases h with h | h <;> rw [h] <;> rfl

/-- The state in which a record of Pn has been held and noted, and PR and SY have taken it. -/
def State.guards (s : State) (o : Outlet) (p : PointState) (r : Phasor) : State :=
  (s.setPoint (.ship o) p).guardShip o r

theorem State.guards_own {s : State} {o : Outlet} (p : PointState) (r : Phasor)
    (h : (s.berth o).pr.frequency < 9 ∨ (s.berth o).watchesBus = false) :
    ∃ c, OwnChange o (fun b => (b.holdsShip p).guarded c r s.tb.run) s (s.guards o p r) := by
  have held := s.setPoint_ship o p
  obtain ⟨c, own⟩ := State.guardShip_own (s := s.setPoint (.ship o) p) (o := o) r
    (by rw [held.berth]; exact h)
  rw [held.tb] at own
  exact ⟨c, held.trans own⟩

/-- A record of Pn, taken whole: the guards, the judgement of the buses, and the records of its cycle. -/
theorem State.takeShip_judged {s : State} {o : Outlet} {p : PointState} {r : Phasor}
    (hr : p.record = some r) (v : LineVoltages) (c : Option CyclePower) :
    ∃ w, w = (s.guards o p r).judgeBuses o
      ∧ ((s.setPoint (.ship o) p).takeRecord (.ship o) v c = w
        ∨ ∃ q, (s.setPoint (.ship o) p).takeRecord (.ship o) v c = w.takePower o q
          ∨ (s.setPoint (.ship o) p).takeRecord (.ship o) v c = (w.takePair o).takePower o q) := by
  have held : ((s.setPoint (.ship o) p).berth o).mu.ship.record = some r := by
    rw [(s.setPoint_ship o p).berth]; exact hr
  refine ⟨_, rfl, ?_⟩
  rcases State.takeShipRecord_cases held v c with h | ⟨q, h⟩
  · exact .inl h
  · exact .inr ⟨q, .inr h⟩

/-- A record of Pn at which the buses judge nothing. -/
theorem State.guards_stay {s : State} {o : Outlet} {p : PointState} {r : Phasor}
    (h : ((s.guards o p r).berth o).staysPut ((s.guards o p r).capacity o)) :
    (s.guards o p r).judgeBuses o = s.guards o p r := State.judgeBuses_stays h

end Sys2Proof.Machine

namespace Sys2Proof.Proofs

open Machine

/-- The dead time completes (R73, R74). -/
theorem deadTimeComplete_taken (o : Outlet) (s : State)
    (runs : (s.berth o).sy.deadFrom.isSome = true) (ready : Prop)
    (hready : ready = (((s.berth o).sc.state = .energising ∨ (s.berth o).sc.state = .synchronising)
      ∧ (s.berth o).declaresDeadBus = true ∧ (s.berth o).sc.target ≤ s.capacity o
      ∧ (s.berth o).mu.shore.live = true ∧ (s.berth o).lines.breakerClosed = false
      ∧ (s.berth o).sy.openDrive = false ∧ (s.berth o).sy.close = .watching)) :
    (ready → (s.berth o).levelCause = none →
      ∃ t, exec (.deadTimeComplete o) s = .next t
        ∧ (t.berth o).sc.state = .closing ∧ (t.berth o).rg.mode = .track
        ∧ (t.berth o).sc.session = (s.berth o).sc.session ∧ (t.berth o).mt = (s.berth o).mt
        ∧ (t.berth o).sy.close = .inFlight ∧ (t.berth o).sy.closeOutput = true
        ∧ (t.berth o).sy.deadFrom = none
        ∧ (t.berth o).sy.record = some
            { kind := .deadBus, command := s.now, theta := none, slip := none, toGo := none
              tc := (s.berth o).sy.tc, outcome := .inFlight, measured := none
              angleError := none, attempt := (s.berth o).sy.attempts + 1 }
        ∧ Elsewhere [o] [] s t ∧ KeepsAccount s t ∧ NoFault s t ∧ t.metering = s.metering)
    ∧ (∀ c, ready → (s.berth o).levelCause = some c →
      ∃ t, exec (.deadTimeComplete o) s = .next t ∧ Tripped o c s t
        ∧ (t.berth o).sy.closeOutput = false
        ∧ Elsewhere [o] [] s t ∧ KeepsAccount s t ∧ t.metering = s.metering)
    ∧ (¬ ready → s.passDue = false →
      exec (.deadTimeComplete o) s = .next (s.onSy o fun y => { y with deadComplete := true })) := by
  have berth := s.deadTimed_berth o
  have hexec := execDeadTimeComplete_eq runs
  have conditions : ((s.deadTimed o).berth o).deadBusReady ((s.deadTimed o).capacity o) = true
      ↔ ready := by
    rw [Berth.deadBusReady_iff, berth, hready]
    exact ⟨fun ⟨a, b, _, c, d, e, f, g⟩ => ⟨a, b, c, d, e, f, g⟩,
      fun ⟨a, b, c, d, e, f, g⟩ => ⟨a, b, rfl, c, d, e, f, g⟩⟩
  have level : ((s.deadTimed o).berth o).levelCause = (s.berth o).levelCause :=
    Berth.levelCause_congr (by rw [berth]) (by rw [berth])
  have starts (h : ready) : ((s.deadTimed o).berth o).sc.state.starting := by
    rw [berth]; rw [hready] at h; exact h.1
  refine ⟨fun h hc => ?_, fun c h hc => ?_, fun h quiet => ?_⟩
  · rw [show (s.deadTimed o).tryDeadBus o = (s.deadTimed o).issueClose o none from
      if_pos (conditions.mpr h)] at hexec
    have issues := State.issueClose_issues none (starts h).keeps.2.2.2.2 (level.trans hc)
    have acts := (s.deadTimed_acts (x := ⟨[o], [], false, false, []⟩) o List.mem_cons_self).trans
      (issues.acts _ List.mem_cons_self)
    obtain ⟨elsewhere, account, metering⟩ := acts.frame
    exact ⟨_, hexec, by rw [issues.sc]; rfl, issues.mode, by rw [issues.sc, berth]; rfl,
      issues.mt.trans (by rw [berth]), by rw [issues.sy]; rfl, by rw [issues.sy]; rfl,
      by rw [issues.sy], by rw [issues.sy, berth]; rfl, elsewhere, account, acts.noFault rfl, metering⟩
  · rw [show (s.deadTimed o).tryDeadBus o = (s.deadTimed o).issueClose o none from
      if_pos (conditions.mpr h)] at hexec
    obtain ⟨tripped, output, -, acts⟩ := State.issueClose_tripped none (starts h).keeps.2.2.2.2
      (starts h).keeps.2.2.2.1 (level.trans hc)
    obtain ⟨elsewhere, account, metering⟩ := ((s.deadTimed_acts o List.mem_cons_self).trans acts).frame
    exact ⟨_, hexec, tripped.before (by rw [berth]) (by rw [berth]) (by rw [berth]) (by rw [berth]) rfl
      rfl fun _ _ _ => rfl, output, elsewhere, account, metering⟩
  · rw [show (s.deadTimed o).tryDeadBus o = s.deadTimed o from
      if_neg fun g => h (conditions.mp g), State.settle_of_no_pass (s := s.deadTimed o) quiet] at hexec
    exact hexec

/-- The dead time at a record of Pn (R73). -/
theorem deadTime_atRecord (o : Outlet) (v : LineVoltages) (s : State) (i : Instr)
    (hs : (s.berth o).sc.state.starting) (hi : s.BringsRecord (.ship o) v i) :
    ∃ t, exec i s = .next t ∧ MeasuredFrame (.ship o) s t
      ∧ ((s.berth o).declaresDeadBus = true → (s.berth o).sy.deadComplete = false →
          (t.berth o).sc.state = (s.berth o).sc.state
          ∧ (t.berth o).sy.deadComplete = false
          ∧ (t.berth o).sy.deadFrom
            = (if min 15000 ((v.v12 + v.v23 + v.v31) / 3) < (s.berth o).nominalVolts / 10 then
                some ((s.berth o).sy.deadFrom.getD s.tb.run) else none))
      ∧ ((s.berth o).declaresDeadBus = false → (s.berth o).sy.deadFrom = none →
          (t.berth o).sy.deadFrom = none) := by
  obtain ⟨p, r, c, brings, hexec, frame⟩ := hi.brings
  obtain ⟨w, hw, rest⟩ := State.takeShip_judged (s := s) (o := o) brings.record v c
  obtain ⟨clip, own⟩ := State.guards_own (s := s) (o := o) p r (.inr (Berth.watchesBus_of_starting hs))
  have berth := own.berth
  rw [Berth.guarded_eq] at berth
  have sc : ((s.guards o p r).berth o).sc = (s.berth o).sc := by rw [berth]; rfl
  obtain ⟨keeps, open', awake, -, -⟩ := hs.keeps
  refine ⟨_, hexec, frame, fun dead fresh => ?_, fun parallel none' => ?_⟩
  · have keepsDead : ((s.berth o).holdsShip p).keepsDeadTime = true :=
      Bool.and_eq_true_iff.mpr ⟨keeps, dead⟩
    have sy : ((s.guards o p r).berth o).sy = { (s.berth o).sy with
        deadFrom := if p.live then none else some ((s.berth o).sy.deadFrom.getD s.tb.run) } := by
      rw [berth]
      dsimp only
      rw [Berth.syShipRecord_eq, keepsDead, if_pos rfl, Bool.true_and]
      show ({ (s.berth o).sy with
        deadFrom := if p.live then none else some ((s.berth o).sy.deadFrom.getD s.tb.run)
        deadComplete := if p.live then false else (s.berth o).sy.deadComplete } : Synchroniser) = _
      rw [fresh, ite_self, ← fresh]
    have dead' : ((s.guards o p r).berth o).declaresDeadBus = true := by
      rw [(Berth.declares_congr (b := s.berth o) (by rw [sc])).1]; exact dead
    have stays : w = s.guards o p r := by
      rw [hw]
      refine State.guards_stay ⟨?_, fun h => ?_⟩
      · simp [Berth.deadBusReady, sy, fresh]
      · rw [Berth.declaresParallel_of_deadBus dead'] at h
        cases h.2.1
    subst hw
    rw [stays] at rest
    have after := Unloaded.rest rest (by rw [sc]; exact open') (by rw [sc]; exact awake)
    obtain ⟨close, hsy⟩ := after.sy
    refine ⟨by rw [after.state, sc], by rw [hsy, sy]; exact fresh, ?_⟩
    rw [hsy, sy]
    show (if p.live = true then none else some _) = _
    rw [brings.live]
    show (if decide ((s.berth o).nominalVolts / 10 ≤ min 15000 ((v.v12 + v.v23 + v.v31) / 3)) = true
      then none else some _) = _
    by_cases low : min 15000 ((v.v12 + v.v23 + v.v31) / 3) < (s.berth o).nominalVolts / 10
    · rw [if_pos low, decide_eq_false (Nat.not_le.mpr low), if_neg (by decide)]
    · rw [if_neg low, decide_eq_true (Nat.not_lt.mp low), if_pos rfl]
  · have notDead : ((s.guards o p r).berth o).declaresDeadBus = false := by
      rw [(Berth.declares_congr (b := s.berth o) (by rw [sc])).1]; exact parallel
    have sy : ((s.guards o p r).berth o).sy = (s.berth o).sy := by
      rw [berth]
      have keepsNone : ((s.berth o).holdsShip p).keepsDeadTime = false := by
        show ((s.berth o).sc.state.keepsDeadTime && (s.berth o).declaresDeadBus) = false
        rw [parallel, Bool.and_false]
      dsimp only
      rw [Berth.syShipRecord_eq, keepsNone]
      rfl
    have judged := State.judgeBuses_of_not_ready (s := s.guards o p r) (o := o)
      (by simp [Berth.deadBusReady, notDead])
    rw [← hw] at judged
    have hw' : (w.berth o).sy.deadFrom = none ∧ (w.berth o).sc.state.starting := by
      rw [judged]
      split
      · rw [State.moveTo_sy, State.moveTo_state]
        refine ⟨?_, .inr rfl⟩
        simp [Synchroniser.takeState, Berth.shipDead, notDead]
      · rw [sy, sc]; exact ⟨none', hs⟩
    obtain ⟨-, open', awake, -, -⟩ := hw'.2.keeps
    obtain ⟨close, hsy⟩ := (Unloaded.rest rest open' awake).sy
    rw [hsy]
    exact hw'.1

/-- Settles O26: the completion of the dead time, and a record of Pn while it may run. -/
theorem deadTimeCompleteClosesOntoADeadBus : Obligations.DeadTimeCompleteClosesOntoADeadBus :=
  ⟨deadTimeComplete_taken, deadTime_atRecord⟩

end Sys2Proof.Proofs
end

