-- ==== Sys2Proof/Proofs/Starting.lean ====
section
/-! PROOFS. The ends of ENERGISING and SYNCHRONISING (R90, R91, R98). -/

namespace Sys2Proof.Machine

open Sys2Proof

/-! ### ENERGISING at a record of a bus (R90) -/

/-- The state in which a record of Sn has been held and noted. -/
def State.notes (s : State) (o : Outlet) (p : PointState) (r : Phasor) : State :=
  (s.setPoint (.shore o) p).noteClip o r.clipped

theorem State.notes_own (s : State) (o : Outlet) (p : PointState) (r : Phasor) :
    ∃ c, OwnChange o (fun b => (b.holdsShore p).noticed c) s (s.notes o p r) := by
  obtain ⟨c, own⟩ := (s.setPoint (.shore o) p).noteClip_own o r.clipped
  exact ⟨c, (s.setPoint_shore o p).trans own⟩

/-- A record of Sn, taken whole: the judgement of the buses, and the power record of its cycle. -/
theorem State.takeShore_judged {s : State} {o : Outlet} {p : PointState} {r : Phasor}
    (hr : p.record = some r) (v : LineVoltages) (c : Option CyclePower) :
    ∃ w, w = (s.notes o p r).judgeBuses o
      ∧ ((s.setPoint (.shore o) p).takeRecord (.shore o) v c = w
        ∨ ∃ q, (s.setPoint (.shore o) p).takeRecord (.shore o) v c = w.takePower o q
          ∨ (s.setPoint (.shore o) p).takeRecord (.shore o) v c = (w.takePair o).takePower o q) := by
  have held : ((s.setPoint (.shore o) p).berth o).mu.shore.record = some r := by
    rw [(s.setPoint_shore o p).berth]; exact hr
  refine ⟨_, rfl, ?_⟩
  rcases State.takeShoreRecord_cases held v c with h | ⟨q, h⟩
  · exact .inl h
  · exact .inr ⟨q, .inl h⟩

/-- What the blocks have noted of a record before the buses are judged. -/
structure Noted (o : Outlet) (s g : State) : Prop where
  sc : (g.berth o).sc = (s.berth o).sc
  rg : (g.berth o).rg = (s.berth o).rg
  capacity : g.capacity o = s.capacity o
  tb : g.tb = s.tb

theorem State.guards_noted {s : State} {o : Outlet} (p : PointState) (r : Phasor)
    (h : (s.berth o).sc.state.starting) : Noted o s (s.guards o p r) := by
  obtain ⟨c, own⟩ := State.guards_own (s := s) (o := o) p r (.inr (Berth.watchesBus_of_starting h))
  have berth := own.berth
  rw [Berth.guarded_eq] at berth
  exact ⟨by rw [berth]; rfl, by rw [berth]; rfl, own.capacity o, own.tb⟩

theorem State.notes_noted (s : State) (o : Outlet) (p : PointState) (r : Phasor) :
    Noted o s (s.notes o p r) := by
  obtain ⟨c, own⟩ := s.notes_own o p r
  exact ⟨by rw [own.berth]; rfl, by rw [own.berth]; rfl, own.capacity o, own.tb⟩

/-- A record of Sn or Pn in ENERGISING is noted, the buses are judged, and the records of its cycle follow. -/
theorem State.energisingRecord {s : State} {o : Outlet} {pt : MeasPoint} {v : LineVoltages} {i : Instr}
    (hpt : pt = .shore o ∨ pt = .ship o) (hs : (s.berth o).sc.state = .energising)
    (hi : s.BringsRecord pt v i) :
    ∃ g w u, exec i s = .next u.settle ∧ MeasuredFrame pt s u.settle ∧ Noted o s g
      ∧ w = g.judgeBuses o
      ∧ (u = w ∨ ∃ q, u = w.takePower o q ∨ u = (w.takePair o).takePower o q)
      ∧ (u.settle.berth o).mu.shore = (g.berth o).mu.shore
      ∧ (u.settle.berth o).mu.ship = (g.berth o).mu.ship := by
  obtain ⟨p, r, c, brings, hexec, frame⟩ := hi.brings
  have points := s.takeRecord_points pt p v c
  rcases hpt with rfl | rfl
  · obtain ⟨w, hw, rest⟩ := State.takeShore_judged (s := s) (o := o) brings.record v c
    obtain ⟨clip, own⟩ := s.notes_own o p r
    exact ⟨_, w, _, hexec, frame, s.notes_noted o p r, hw, rest,
      (points (.shore o)).trans (by rw [own.berth, State.point, (s.setPoint_shore o p).berth]; rfl),
      (points (.ship o)).trans (by rw [own.berth, State.point, (s.setPoint_shore o p).berth]; rfl)⟩
  · obtain ⟨w, hw, rest⟩ := State.takeShip_judged (s := s) (o := o) brings.record v c
    obtain ⟨clip, own⟩ := State.guards_own (s := s) (o := o) p r
      (.inr (Berth.watchesBus_of_starting (.inl hs)))
    have berth := own.berth
    rw [Berth.guarded_eq] at berth
    exact ⟨_, w, _, hexec, frame, State.guards_noted p r (.inl hs), hw, rest,
      (points (.shore o)).trans (by rw [berth, State.point, (s.setPoint_ship o p).berth]),
      (points (.ship o)).trans (by rw [berth, State.point, (s.setPoint_ship o p).berth])⟩

/-- ENERGISING is left for SYNCHRONISING, or kept (R90, R91). -/
theorem State.energising_judged {s g w u : State} {o : Outlet} (noted : Noted o s g)
    (hw : w = g.judgeBuses o)
    (rest : u = w ∨ ∃ q, u = w.takePower o q ∨ u = (w.takePair o).takePower o q)
    (hs : (s.berth o).sc.state = .energising) (parallel : (s.berth o).declaresParallel = true)
    (sync : (s.berth o).sc.syncFrom = none) (expired : (s.berth o).sc.syncExpired = false) :
    (u.settle.berth o).sc.session = (s.berth o).sc.session
      ∧ (u.settle.berth o).sc.declaration = (s.berth o).sc.declaration
      ∧ (u.settle.berth o).sc.target = (s.berth o).sc.target
      ∧ (if (s.berth o).sc.target ≤ s.capacity o ∧ (g.berth o).mu.shore.live = true
            ∧ (g.berth o).mu.ship.live = true then
          (u.settle.berth o).sc.state = .synchronising ∧ (u.settle.berth o).rg.mode = .track
            ∧ (u.settle.berth o).sc.entered = s.now
            ∧ (u.settle.berth o).sc.syncFrom = some s.tb.run
            ∧ (u.settle.berth o).sc.energiseFrom = none
        else
          (u.settle.berth o).sc.state = .energising
            ∧ (u.settle.berth o).rg.mode = (s.berth o).rg.mode
            ∧ (u.settle.berth o).sc.energiseFrom = (s.berth o).sc.energiseFrom) := by
  obtain ⟨declaresDead, declaresParallel⟩ := Berth.declares_congr (b := s.berth o) (c := g.berth o)
    (by rw [noted.sc])
  have notDead : (g.berth o).declaresDeadBus = false := by
    rw [declaresDead, ← Bool.not_eq_true]
    intro h
    rw [Berth.declaresParallel_of_deadBus h] at parallel
    cases parallel
  have judged := State.judgeBuses_of_not_ready (s := g) (o := o)
    (by simp [Berth.deadBusReady, notDead])
  rw [← hw, noted.sc, declaresParallel, noted.capacity] at judged
  by_cases cond : (s.berth o).sc.target ≤ s.capacity o ∧ (g.berth o).mu.shore.live = true
      ∧ (g.berth o).mu.ship.live = true
  · rw [if_pos cond]
    rw [if_pos ⟨hs, parallel, cond⟩] at judged
    have same := g.moveTo_berth_self o .synchronising 0
    have sc : (w.berth o).sc = (s.berth o).sc.takeState .synchronising g.now
        (decide (g.capacity o < (s.berth o).sc.target)) := by
      rw [judged, same.sc, Berth.takeState_sc, noted.sc]
    have state : (w.berth o).sc.state = .synchronising := by rw [sc]; rfl
    have after := Unloaded.rest rest (by rw [state]; rfl) (by rw [state]; decide)
    obtain ⟨_, _, _, hsc⟩ := after.sc
    rw [hsc, after.mode, sc]
    refine ⟨rfl, rfl, rfl, rfl, ?_, by rw [State.now, noted.tb]; rfl, ?_, rfl⟩
    · rw [judged, same.rg, Berth.takeState_rg, Berth.enterMode_mode]; rfl
    · show (if (s.berth o).sc.syncExpired = true then none
        else some ((s.berth o).sc.syncFrom.getD g.tb.run)) = _
      rw [expired, sync, noted.tb]
      rfl
  · rw [if_neg cond]
    rw [if_neg fun h => cond h.2.2] at judged
    rw [← judged] at noted
    have after := Unloaded.rest rest (by rw [noted.sc, hs]; rfl) (by rw [noted.sc, hs]; decide)
    obtain ⟨_, _, _, hsc⟩ := after.sc
    rw [hsc, after.mode, noted.sc, noted.rg]
    exact ⟨rfl, rfl, rfl, hs, rfl, rfl⟩

/-! ### The times of R90 and R91 -/

theorem exec_startingExpires {s : State} {o : Outlet} {i : Instr} {k : FaultKind}
    (h : (i = .energiseTimeExpiry o ∧ k = .energiseTimeout ∧ (s.berth o).sc.state = .energising
        ∧ (s.berth o).sc.energiseFrom.isSome = true)
      ∨ (i = .syncTimeExpiry o ∧ k = .syncTimeout ∧ (s.berth o).sc.state = .synchronising
        ∧ (s.berth o).sc.syncFrom.isSome = true)) :
    exec i s = .next ((s.raise k (.outlet o)).windDown o).settle := by
  rcases h with ⟨rfl, rfl, hs, runs⟩ | ⟨rfl, rfl, hs, runs⟩
  · exact congrArg Host.Outcome.next (if_pos ⟨hs, runs⟩)
  · exact congrArg Host.Outcome.next ((if_pos runs).trans (if_pos hs))

theorem State.keptOpen.raise {s : State} {o : Outlet} (h : s.keptOpen o) (k : FaultKind)
    (src : Source) (d : Option Nat) : (s.raise k src d).keptOpen o :=
  h.of_same (by rw [State.berth_raise]) fun _ ho hi => ⟨ho, hi⟩

end Sys2Proof.Machine

namespace Sys2Proof.Proofs

open Machine

/-- Settles O28: a record in ENERGISING, and the times that end ENERGISING and SYNCHRONISING. -/
theorem energisingAndSynchronisingEnd : Obligations.EnergisingAndSynchronisingEnd := by
  refine ⟨fun o pt v c s i hpt hs parallel sync expired hi => ?_, fun o s i k hi => ?_,
    fun o s hs runs => ?_⟩
  · have brings : s.BringsRecord pt v i := by
      rcases hi with h | ⟨rfl, h⟩ | ⟨rfl, last, h⟩
      · exact .inl h
      · exact .inr (.inl ⟨rfl, Option.isSome_iff_ne_none.mp h⟩)
      · exact .inr (.inr ⟨c, last, rfl, h⟩)
    obtain ⟨g, w, u, hexec, frame, noted, hw, rest, shore, ship⟩ :=
      State.energisingRecord hpt hs brings
    refine ⟨_, hexec, frame, ?_⟩
    rw [shore, ship]
    exact State.energising_judged noted hw rest hs parallel sync expired
  · have hexec := exec_startingExpires hi
    have berth : (s.raise k (.outlet o)).berth o = s.berth o := State.berth_raise _ _ _ _ _
    have raised := State.raise_raised s k (.outlet o) none
    have before : Acts ⟨[o], [], false, false, [k]⟩ s (s.raise k (.outlet o)) :=
      .raise _ _ _ _ _ List.mem_cons_self
    refine ⟨fun kept => ⟨_, hexec, ?_⟩, fun x open' none' hx hm => ⟨_, hexec, ?_⟩⟩
    · have kept' := kept.raise k (.outlet o) none
      exact ⟨(State.windDown_settle_windsDown _ o kept').before (by rw [berth]) (by rw [berth]) rfl
        fun _ _ _ => rfl, raised.after (State.windDown_settle_noFault kept'),
        (before.trans (State.windDown_settle_acts kept' List.mem_cons_self)).frame⟩
    · obtain ⟨closes, acts⟩ := State.windDown_settle_closes (s := s.raise k (.outlet o)) (o := o) (x := x)
        (by rw [berth]; exact hx) (by rw [berth]; exact hm) (by rw [berth]; exact open') none'
      have all := (Acts.raise ⟨[o], [], false, true, [k]⟩ s k (.outlet o) none List.mem_cons_self).trans
        (acts.mono ⟨fun _ h => h, fun _ h => h, id, id, fun _ h => nomatch h⟩)
      exact ⟨closes.before (by rw [berth]) (by rw [berth]) rfl, raised.after (acts.noFault rfl),
        all.elsewhere, all.keepsAccount rfl⟩
  · exact congrArg Host.Outcome.next ((if_pos runs).trans (if_neg (by rw [hs]; decide)))

end Sys2Proof.Proofs
end

