-- ==== Sys2Proof/Proofs/LoadWatches.lean ====
section
/-! PROOFS. The power record of a cycle as the blocks find it, and the times and watches that only report
(R71, R87, R95 to R97, R107, R142). -/

namespace Sys2Proof.Machine

open Sys2Proof

/-! ### A deferred stop that begins at a power record (R37) -/

/-- What MP's share of a power record comes to where a deferred stop begins at it (R37, R40). -/
structure Sheds (o : Outlet) (m : ModuleNo) (s d : State) : Prop where
  supply : (s.berth o).sc.state = .shoreSupply
  sc : (d.berth o).sc = (s.berth o).sc
  mu : ∀ p, (d.berth p).mu = (s.berth p).mu
  overload : (d.berth o).pr.overload = (s.berth o).pr.overload
  tb : d.tb = s.tb
  account : d.account = s.account
  module : d.module m = (s.module m).beginStop s.tb.run
  outlet : (s.module m).outlet = some o
  voluntary : (d.berth o).mp.voluntary = some { module := m, begun := true }

theorem State.stopDue_some {s : State} {o : Outlet} {apparent : Nat} {m : ModuleNo}
    (h : s.stopDue o apparent = some m) : (s.berth o).mp.voluntary = some { module := m, begun := false }
      ∧ (s.berth o).sc.state = .shoreSupply ∧ (s.module m).state = .running
      ∧ (s.module m).outlet = some o ∧ s.allowsStop o m apparent = true := by
  unfold stopDue at h
  split at h
  · next x hx =>
    split at h
    · next cond =>
      obtain ⟨deferred, stands, allowed⟩ := cond
      cases h
      unfold voluntaryStands at stands
      rw [deferred, if_neg (by decide)] at stands
      obtain ⟨supply, running, outlet⟩ : (s.berth o).sc.state = .shoreSupply
          ∧ (s.module x.module).state = .running ∧ (s.module x.module).outlet = some o := by
        simpa [Module.inStateAt] using stands
      obtain ⟨module, begun⟩ := x
      dsimp only at deferred
      subst deferred
      exact ⟨hx, supply, running, outlet, allowed⟩
    · cases h
  · cases h

/-- In SHORE_SUPPLY a change of capacity reaches SY, PR and the pool alone (R23). -/
theorem State.capacityChanged_supply {s : State} {o : Outlet}
    (h : (s.berth o).sc.state = .shoreSupply) :
    s.capacityChanged o = (s.capacityHanded o).servePool o := by
  have state : (((s.capacityHanded o).servePool o).berth o).sc.state = .shoreSupply := by
    rw [((State.servePool_poolOnly (s.capacityHanded o) o).berth o).sc, (s.capacityHanded_berth o).2.1, h]
  rw [State.capacityChanged_eq]
  exact State.judgeBuses_stays (Berth.staysPut_of_not _ (by rw [state]; rfl))

theorem Berth.syCapacity_kept (b : Berth) (c : Nat) : (b.syCapacity c).pr = b.pr
    ∧ (b.syCapacity c).mp = b.mp := by
  rw [Berth.syCapacity_rest]
  exact ⟨rfl, rfl⟩

/-- The shares worked out after a deferred stop has begun, and the watches tidied (R37, R40). -/
def State.shed (s : State) (o : Outlet) (r : PowerRecord) (m : ModuleNo) : State :=
  ((s.beginVoluntary o m).shareLoad o r).tidyWatches o

theorem State.mpPower_due {s : State} {o : Outlet} {r : PowerRecord} {m : ModuleNo}
    (h : (s.watched o r.s).stopDue o r.s = some m) : Sheds o m s (s.mpPower o r) := by
  have made : s.mpPower o r = ((s.watched o r.s).shed o r m).capacityChanged o := by
    unfold State.mpPower
    dsimp only
    rw [State.judgeWatches_watched, h]
    rfl
  obtain ⟨-, supply, running, outlet, -⟩ := State.stopDue_some h
  have watched : PoolOnly s (s.watched o r.s) := .onMp _ _ _
  have only : PoolOnly (s.watched o r.s) ((s.watched o r.s).shed o r m) :=
    ((State.beginVoluntary_poolOnly _ o m).trans (State.shareLoad_poolOnly _ o r)).trans
      (State.tidyWatches_poolOnly _ o)
  have stopped : ((s.watched o r.s).shed o r m).module m = (s.module m).beginStop s.tb.run := by
    show ((State.beginVoluntary (s.watched o r.s) o m).shareLoad o r).module m = _
    have begun : (State.beginVoluntary (s.watched o r.s) o m).module m
        = (s.module m).beginStop s.tb.run :=
      State.module_changeModule_self (s.watched o r.s) m fun x => x.beginStop s.tb.run
    rw [State.module_shareLoad, begun]
    exact if_neg (by simp [Module.inStateAt, Module.beginStop])
  have voluntary : (((s.watched o r.s).shed o r m).berth o).mp.voluntary
      = some { module := m, begun := true } := by
    have stands : (State.shareLoad (State.beginVoluntary (s.watched o r.s) o m) o r).voluntaryStands o
        { module := m, begun := true } = true := by
      show Module.inStateAt (((s.watched o r.s).shed o r m).module m) .stopping o = true
      rw [stopped]
      simp only [Module.inStateAt, Module.beginStop]
      rw [show (s.module m).outlet = some o from outlet]
      simp
    refine (State.tidyWatches_duties o o _).voluntary _ ?_ stands
    obtain ⟨modules, shared⟩ := (State.beginVoluntary (s.watched o r.s) o m).shareLoad_rest o r
    rw [shared]
    show ((State.beginVoluntary (s.watched o r.s) o m).berth o).mp.voluntary = _
    unfold State.beginVoluntary State.onMp
    rw [State.berth_onBerth_self]
  rw [made]
  have only := watched.trans only
  generalize (s.watched o r.s).shed o r m = d at *
  have supply' : (d.berth o).sc.state = .shoreSupply := by
    rw [(only.berth o).sc, ← (watched.berth o).sc]; exact supply
  rw [State.capacityChanged_supply supply']
  have serves := State.servePool_poolOnly (d.capacityHanded o) o
  obtain ⟨pr, mp⟩ := (d.berth o).syCapacity_kept (d.capacity o)
  have handed : (d.capacityHanded o).berth o = _ := State.berth_onBerth_self _ _ _
  refine ⟨by rw [← (watched.berth o).sc]; exact supply, ?_, fun p => ?_, ?_, ?_, ?_, ?_, outlet, ?_⟩
  · rw [(serves.berth o).sc, handed]
    show (d.berth o).sc.judgeShort _ _ = _
    rw [← (only.berth o).sc]
    unfold OutletRecord.judgeShort
    rw [if_neg (by rw [supply']; decide)]
  · rw [(serves.berth p).mu, ← (only.berth p).mu]
    by_cases hp : p = o
    · subst hp; exact (d.capacityHanded_berth p).1
    · rw [State.capacityHanded, State.berth_onBerth_ne _ _ hp]
  · rw [(serves.berth o).pr, handed]
    show ((d.berth o).syCapacity (d.capacity o)).pr.overload = _
    rw [pr, (only.berth o).pr]
  · rw [serves.tb]; exact only.tb
  · rw [serves.account]; exact only.account
  · rw [(State.servePool_loaded (d.capacityHanded o) o).module]
    · exact stopped
    · show (d.module m).state ≠ _
      rw [stopped]; simp [Module.beginStop]
    · show (d.module m).state ≠ _
      rw [stopped]; simp [Module.beginStop]
  · refine ((State.servePool_serves [o] (d.capacityHanded o) o).duties o List.mem_cons_self).voluntary
      _ ?_ ?_
    · rw [handed]
      show ((d.berth o).syCapacity (d.capacity o)).mp.voluntary = _
      rw [mp, voluntary]
    · show Module.inStateAt (d.module m) .stopping o = true
      rw [stopped]
      simp only [Module.inStateAt, Module.beginStop]
      rw [show (s.module m).outlet = some o from outlet]
      simp

/-- What every power record leaves of SC and the import account (R16, R87, R96). -/
structure PowerShown (o : Outlet) (r : PowerRecord) (s t : State) : Prop where
  power : (t.berth o).mu.power = some r
  load : ∃ capacity, ((s.berth o).sc.state ≠ .shoreSupply → capacity = s.capacity o)
    ∧ (t.berth o).sc = ((s.berth o).judgeLoad capacity r s.tb.run).sc
  account : ∃ sum, sum = (Outlet.all.map fun q => if q = o then r.p
      else (s.berth q).mu.power.elim 0 fun x => x.p).sum
    ∧ t.account = s.account.judgeImport sum s.tb.run

theorem PowerTaken.shown {o : Outlet} {r : PowerRecord} {s t : State} (h : PowerTaken o r s t) :
    PowerShown o r s t := by
  obtain ⟨_, berth⟩ := h.berth
  exact ⟨by rw [berth]; rfl, ⟨_, fun _ => rfl, by rw [berth]; rfl⟩, h.account⟩

/-- A power record at which a deferred stop begins (R37). -/
theorem State.takePower_sheds {s : State} {o : Outlet} {r : PowerRecord} {m : ModuleNo}
    (h : ((s.looped o r).watched o r.s).stopDue o r.s = some m)
    (count : (s.berth o).pr.overload < 9) :
    PowerShown o r s (s.takePower o r) ∧ (s.berth o).sc.state = .shoreSupply
      ∧ (s.module m).outlet = some o
      ∧ (s.takePower o r).module m = (s.module m).beginStop s.tb.run
      ∧ ((s.takePower o r).berth o).mp.voluntary = some { module := m, begun := true } := by
  obtain ⟨clip, looped⟩ := s.looped_own o r
  have sheds := State.mpPower_due h
  rw [State.takePower_eq]
  generalize s.looped o r = l at *
  generalize l.mpPower o r = d at *
  have lsc : (l.berth o).sc = (s.berth o).sc := by rw [looped.berth]; rfl
  have lmu (q : Outlet) : (l.berth q).mu.power = if q = o then some r else (s.berth q).mu.power := by
    by_cases hq : q = o
    · subst hq; rw [if_pos rfl, looped.berth]; rfl
    · rw [if_neg hq, looped.others q hq]
  rw [State.prPower_quiet r (by
    refine .inl ?_
    rw [sheds.overload, looped.berth]
    exact count)]
  have own := OwnChange.onBerth d o fun b => b.judgedPower (d.capacity o) r d.tb.run
  generalize (d.onBerth o fun b => b.judgedPower (d.capacity o) r d.tb.run) = j at *
  have berth := own.berth
  rw [Berth.judgedPower_eq] at berth
  have jmu (q : Outlet) : (j.berth q).mu = (l.berth q).mu := by
    rw [← sheds.mu q]
    by_cases hq : q = o
    · subst hq; rw [berth]
    · rw [own.others q hq]
  have tb : j.tb = s.tb := own.tb.trans (sheds.tb.trans looped.tb)
  have final : (j.scPower o r).berth o = (j.berth o).judgeLoad (j.capacity o) r j.tb.run :=
    State.berth_onBerth_self _ _ _
  refine ⟨⟨?_, ⟨j.capacity o, fun ne => absurd (by rw [← lsc]; exact sheds.supply) ne, ?_⟩,
    ⟨j.importSum, ?_, ?_⟩⟩, by rw [← lsc]; exact sheds.supply, ?_, ?_, ?_⟩
  · rw [final]
    show (j.berth o).mu.power = _
    rw [jmu, lmu, if_pos rfl]
  · rw [final, tb]
    have jsc : (j.berth o).sc = (s.berth o).sc := by rw [berth]; exact sheds.sc.trans lsc
    unfold Berth.judgeLoad Berth.claim
    dsimp only
    rw [jsc]
  · rw [State.importSum_eq]
    refine congrArg List.sum (List.map_congr_left fun q _ => ?_)
    rw [jmu, lmu]
    by_cases hq : q = o
    · rw [if_pos hq, if_pos hq]; rfl
    · rw [if_neg hq, if_neg hq]
  · show Account.judgeImport j.account _ j.tb.run = _
    rw [tb, own.account, sheds.account, looped.account]
  · rw [← looped.module]; exact sheds.outlet
  · show j.module m = _
    rw [own.module, sheds.module, looped.module, looped.tb]
  · rw [final]
    show (j.berth o).mp.voluntary = _
    rw [berth]
    exact sheds.voluntary

theorem State.takePower_shown {s : State} {o : Outlet} (r : PowerRecord)
    (count : (s.berth o).pr.overload < 9 ∨ (s.berth o).sc.state.breakerClosed = false) :
    PowerShown o r s (s.takePower o r) := by
  cases h : ((s.looped o r).watched o r.s).stopDue o r.s with
  | none => exact (State.takePower_of_none s o r h count).shown
  | some m =>
    rcases count with few | open'
    · exact (State.takePower_sheds h few).1
    · exfalso
      obtain ⟨clip, looped⟩ := s.looped_own o r
      have supply := (State.mpPower_due h).supply
      rw [looped.berth] at supply
      have supply : (s.berth o).sc.state = .shoreSupply := supply
      rw [supply] at open'
      cases open'

/-! ### The state at a power record -/

/-- What a record has left of an outlet at which the buses are not judged. -/
structure Quiet (o : Outlet) (s w : State) : Prop where
  sc : (w.berth o).sc = (s.berth o).sc
  mp : (w.berth o).mp = (s.berth o).mp
  pr : ∃ frequency voltage, (w.berth o).pr = { (s.berth o).pr with
    frequency := frequency, voltageFrom := voltage }
  pool : w.pool = s.pool
  passDue : w.passDue = s.passDue

/-- The state in which the blocks take a power record: that of the record, its phasor record judged and its pair
record taken. -/
structure Ready (o : Outlet) (s w : State) : Prop where
  tb : w.tb = s.tb
  limit : w.account.limit = s.account.limit
  importFrom : w.account.importFrom = s.account.importFrom
  importReported : w.account.importReported = s.account.importReported
  power : ∀ q, (w.berth q).mu.power = (s.berth q).mu.power
  quiet : (s.berth o).sc.state.keepsDeadTime = false → Quiet o s w
  bus : (s.berth o).sc.state.keepsDeadTime = true → BusJudged o s w

theorem OwnChange.quiet {o : Outlet} {f : Berth → Berth} {s w : State} (h : OwnChange o f s w)
    (sc : (f (s.berth o)).sc = (s.berth o).sc) (mp : (f (s.berth o)).mp = (s.berth o).mp)
    (pr : ∃ frequency voltage, (f (s.berth o)).pr = { (s.berth o).pr with
      frequency := frequency, voltageFrom := voltage }) : Quiet o s w :=
  ⟨by rw [h.berth, sc], by rw [h.berth, mp], by rw [h.berth]; exact pr, h.pool, h.passDue⟩

/-- The judgement of the buses leaves the inputs and the station. -/
theorem Ready.judgeBuses {o : Outlet} {f : Berth → Berth} {s g : State} (own : OwnChange o f s g)
    (sc : (f (s.berth o)).sc = (s.berth o).sc) (mp : (f (s.berth o)).mp = (s.berth o).mp)
    (pr : ∃ frequency voltage, (f (s.berth o)).pr = { (s.berth o).pr with
      frequency := frequency, voltageFrom := voltage })
    (power : (f (s.berth o)).mu.power = (s.berth o).mu.power) : Ready o s (g.judgeBuses o) := by
  have acts := g.judgeBuses_record o
  have same := acts.station
  have gsc : (g.berth o).sc = (s.berth o).sc := by rw [own.berth, sc]
  refine ⟨same.tb.trans own.tb, same.limit.trans (by rw [own.account]),
    same.importFrom.trans (by rw [own.account]), same.importReported.trans (by rw [own.account]),
    fun q => (acts.inputs q).power.trans ?_, fun h => ?_, fun h => ?_⟩
  · by_cases hq : q = o
    · subst hq; rw [own.berth, power]
    · rw [own.others q hq]
  · rw [State.judgeBuses_stays (Berth.staysPut_of_not _ (by rw [gsc]; exact h))]
    exact own.quiet sc mp pr
  · obtain ⟨state, reported⟩ := State.judgeBuses_judged (s := g) (o := o) (by rw [gsc]; exact h)
    exact ⟨state, reported.trans (by rw [gsc])⟩

theorem Berth.takesPair_kept (b : Berth) (capacity : Nat) : (b.takesPair capacity).sc = b.sc
    ∧ (b.takesPair capacity).mp = b.mp ∧ (b.takesPair capacity).pr = b.pr
    ∧ (b.takesPair capacity).mu.power = b.mu.power := by
  refine ⟨by rw [Berth.takesPair_rest], by rw [Berth.takesPair_rest], by rw [Berth.takesPair_rest], ?_⟩
  unfold takesPair
  cases b.mu.pairRecord with
  | none => rfl
  | some r => rw [Option.elim_some, pairedBy, Berth.syPair_rest, Berth.rgPair_rest]

theorem Ready.takePair {o : Outlet} {s w : State} (h : Ready o s w) : Ready o s (w.takePair o) := by
  have own := w.takePair_own o
  obtain ⟨sc, mp, pr, power⟩ := (w.berth o).takesPair_kept (w.capacity o)
  refine ⟨own.tb.trans h.tb, by rw [own.account]; exact h.limit,
    by rw [own.account]; exact h.importFrom, by rw [own.account]; exact h.importReported,
    fun q => ?_, fun e => ?_, fun e => ?_⟩
  · by_cases hq : q = o
    · subst hq; rw [own.berth, power]; exact h.power q
    · rw [own.others q hq]; exact h.power q
  · have q := h.quiet e
    exact ⟨by rw [own.berth, sc]; exact q.sc, by rw [own.berth, mp]; exact q.mp,
      by rw [own.berth, pr]; exact q.pr, own.pool.trans q.pool, own.passDue.trans q.passDue⟩
  · obtain ⟨state, reported⟩ := h.bus e
    exact ⟨by rw [own.berth, sc]; exact state, by rw [own.berth, sc]; exact reported⟩

/-- The end of a cycle of Pn: its phasor record noted and judged, its pair and power records taken. -/
theorem State.EndsCycle.shipTaken {s : State} {o : Outlet} {v : LineVoltages}
    (h : s.EndsCycle (.ship o) v) (c : CyclePower) (freq : (s.berth o).pr.frequency < 9)
    {last : TimeStamp} (hlast : (s.berth o).mu.ship.cycle = some last) :
    ∃ f p g clip, f = phasor s.now (some (cycleFields (elapsed s.tb.run last.run))) v
      ∧ p = (s.point (.ship o)).cycled (s.nominalAt (.ship o)) s.now last v
      ∧ exec (.zeroCrossing (.ship o) v c) s
        = .next (((g.judgeBuses o).takePair o).takePower o
            (powerRecord c v (elapsed s.tb.run last.run) s.now)).settle
      ∧ MeasuredFrame (.ship o) s (((g.judgeBuses o).takePair o).takePower o
          (powerRecord c v (elapsed s.tb.run last.run) s.now)).settle
      ∧ OwnChange o (fun b => (b.holdsShip p).guarded clip f s.tb.run) s g
      ∧ Ready o s ((g.judgeBuses o).takePair o) := by
  obtain ⟨last', hlast', low, high⟩ := h.period
  obtain rfl : last' = last := Option.some.inj (hlast'.symm.trans hlast)
  obtain ⟨p, hp⟩ : ∃ p, p = (s.point (.ship o)).cycled (s.nominalAt (.ship o)) s.now last' v := ⟨_, rfl⟩
  obtain ⟨f, hf⟩ : ∃ f, f = phasor s.now (some (cycleFields (elapsed s.tb.run last'.run))) v :=
    ⟨_, rfl⟩
  have hr : p.record = some f := by rw [hp, hf]; rfl
  have hexec : exec (.zeroCrossing (.ship o) v c) s
      = .next ((s.setPoint (.ship o) p).takeRecord (.ship o) v (some c)).settle := by
    rw [hp]
    exact execZeroCrossing_recorded (PointState.cross_cycled hlast low high h.volts)
  have frame := (s.takeRecord_frame (.ship o) p v (some c)).1
  obtain ⟨clip, own⟩ := State.guards_own (s := s) (o := o) p f (.inl freq)
  have taken : (s.setPoint (.ship o) p).takeRecord (.ship o) v (some c) = _ :=
    State.takeShipRecord_of_cycle (by rw [(s.setPoint_ship o p).berth]; exact hr) (by rw [hf]; rfl) v c
  rw [taken] at hexec frame
  refine ⟨f, p, _, clip, hf, hp, hexec, frame, own, .takePair (.judgeBuses own ?_ ?_ ?_ ?_)⟩
  · rw [Berth.guarded_eq]; rfl
  · rw [Berth.guarded_eq]; rfl
  · rw [Berth.guarded_eq, Berth.prShipRecord_eq]; exact ⟨_, _, rfl⟩
  · rw [Berth.guarded_eq]; rfl

/-- The end of a cycle that makes a power record (R16): the record's phasor record is judged first. -/
theorem State.MakesPower.ready {s : State} {o : Outlet} {pt : MeasPoint} {v : LineVoltages}
    (h : s.MakesPower o pt v) (c : CyclePower) (freq : pt = .ship o → (s.berth o).pr.frequency < 9) :
    ∃ w r, exec (.zeroCrossing pt v c) s = .next (w.takePower o r).settle
      ∧ MeasuredFrame pt s (w.takePower o r).settle ∧ r.stamp = s.now ∧ Ready o s w := by
  rcases h.point with rfl | ⟨rfl, dead⟩
  · obtain ⟨last, hlast, -⟩ := h.cycle.period
    obtain ⟨_, _, _, _, -, -, hexec, frame, -, ready⟩ := h.cycle.shipTaken c (freq rfl) hlast
    exact ⟨_, _, hexec, frame, rfl, ready⟩
  · obtain ⟨last, hlast, low, high⟩ := h.cycle.period
    obtain ⟨p, hp⟩ : ∃ p, p = (s.point (.shore o)).cycled (s.nominalAt (.shore o)) s.now last v :=
      ⟨_, rfl⟩
    obtain ⟨f, hf⟩ : ∃ f, f = phasor s.now (some (cycleFields (elapsed s.tb.run last.run))) v :=
      ⟨_, rfl⟩
    have hr : p.record = some f := by rw [hp, hf]; rfl
    have hexec : exec (.zeroCrossing (.shore o) v c) s
        = .next ((s.setPoint (.shore o) p).takeRecord (.shore o) v (some c)).settle := by
      rw [hp]
      exact execZeroCrossing_recorded (PointState.cross_cycled hlast low high h.cycle.volts)
    have frame := (s.takeRecord_frame (.shore o) p v (some c)).1
    obtain ⟨clip, own⟩ := s.notes_own o p f
    have taken : (s.setPoint (.shore o) p).takeRecord (.shore o) v (some c) = _ :=
      State.takeShoreRecord_of_cycle (by rw [(s.setPoint_shore o p).berth]; exact hr)
        (by rw [hf]; rfl) (by rw [(s.setPoint_shore o p).berth]; exact dead) v c
    rw [taken] at hexec frame
    exact ⟨_, _, hexec, frame, rfl, .judgeBuses own rfl rfl ⟨_, _, rfl⟩ rfl⟩

/-- The power record taken and the passes of the step's end made, while no count and no stop is at its end. -/
structure PowerDone (o : Outlet) (r : PowerRecord) (s t : State) : Prop where
  done : ∃ w u, Ready o s w ∧ PowerTaken o r w u ∧ SameButPool (u.berth o) (t.berth o)
    ∧ ((s.berth o).sc.state.keepsDeadTime = false → s.passDue = false → t = u)
    ∧ ((s.berth o).sc.state.keepsDeadTime = true → KeepsDuties o u t)
    ∧ t.account.importFrom = u.account.importFrom
    ∧ t.account.importReported = u.account.importReported

theorem Ready.noStopDue {o : Outlet} {s w : State} (h : Ready o s w) (stop : (s.berth o).noStopDue) :
    (w.berth o).noStopDue := by
  cases keeps : (s.berth o).sc.state.keepsDeadTime with
  | false =>
    have q := h.quiet keeps
    unfold Berth.noStopDue
    rw [q.mp, q.sc]
    exact stop
  | true =>
    refine fun _ _ => .inr ?_
    rcases (h.bus keeps).state with e | e | e | e <;> rw [e] <;> decide

theorem Ready.count {o : Outlet} {s w : State} (h : Ready o s w) (count : (s.berth o).pr.overload < 9) :
    (w.berth o).pr.overload < 9 ∨ (w.berth o).sc.state.breakerClosed = false := by
  cases keeps : (s.berth o).sc.state.keepsDeadTime with
  | false =>
    obtain ⟨_, _, pr⟩ := (h.quiet keeps).pr
    exact .inl (by rw [pr]; exact count)
  | true =>
    refine .inr ?_
    rcases (h.bus keeps).state with e | e | e | e <;> rw [e] <;> rfl

theorem PowerTaken.state {o : Outlet} {r : PowerRecord} {s t : State} (h : PowerTaken o r s t) :
    (t.berth o).sc.state = (s.berth o).sc.state := by
  obtain ⟨_, berth⟩ := h.berth
  rw [berth]; rfl

/-- The end of a cycle that makes a power record, while no count and no deferred stop is at its end. -/
theorem State.MakesPower.done {s : State} {o : Outlet} {pt : MeasPoint} {v : LineVoltages}
    (h : s.MakesPower o pt v) (c : CyclePower) (freq : pt = .ship o → (s.berth o).pr.frequency < 9)
    (count : (s.berth o).pr.overload < 9) (stop : (s.berth o).noStopDue)
    (quiet : s.waits o = false ∨ s.passDue = false) :
    ∃ t r, exec (.zeroCrossing pt v c) s = .next t ∧ MeasuredFrame pt s t ∧ r.stamp = s.now
      ∧ PowerDone o r s t := by
  obtain ⟨w, r, hexec, frame, stamp, ready⟩ := h.ready c freq
  have taken := w.takePower_taken o r (ready.noStopDue stop) (ready.count count)
  have station := (State.settle_acts ⟨[], [], false, false, []⟩ (w.takePower o r)).station
  refine ⟨_, r, hexec, frame, stamp, ⟨w, _, ready, taken, ?_, fun keeps pass => ?_, fun keeps => ?_,
    station.importFrom, station.importReported⟩⟩
  · cases keeps : (s.berth o).sc.state.keepsDeadTime with
    | false =>
      have q := ready.quiet keeps
      rcases quiet with awake | pass
      · refine State.settle_berth ?_
        rw [taken.state, q.sc]
        exact beq_eq_false_iff_ne.mp awake
      · rw [State.settle_of_no_pass (by rw [taken.passDue, q.passDue, pass])]
        exact .refl _
    | true =>
      refine State.settle_berth ?_
      rw [taken.state]
      rcases (ready.bus keeps).state with e | e | e | e <;> rw [e] <;> decide
  · exact State.settle_of_no_pass (by rw [taken.passDue, (ready.quiet keeps).passDue, pass])
  · refine State.settle_duties (beq_eq_false_iff_ne.mpr ?_)
    rw [taken.state]
    rcases (ready.bus keeps).state with e | e | e | e <;> rw [e] <;> decide

/-! ### The load watches (R87, R96) -/

/-- A power record and the passes of the step's end, as SC and the import account come out of them. -/
structure LoadDone (o : Outlet) (r : PowerRecord) (s t : State) : Prop where
  done : ∃ w u, Ready o s w ∧ PowerShown o r w u ∧ SameButPool (u.berth o) (t.berth o)
    ∧ t.account.importFrom = u.account.importFrom
    ∧ t.account.importReported = u.account.importReported

/-- The state that a power record leaves an outlet in is that in which it found it. -/
theorem PowerShown.state {o : Outlet} {r : PowerRecord} {s t : State} (h : PowerShown o r s t) :
    (t.berth o).sc.state = (s.berth o).sc.state := by
  obtain ⟨_, -, load⟩ := h.load
  rw [load]
  rfl

/-- The end of a cycle that makes a power record, while no count is at its end. -/
theorem State.MakesPower.shown {s : State} {o : Outlet} {pt : MeasPoint} {v : LineVoltages}
    (h : s.MakesPower o pt v) (c : CyclePower) (freq : pt = .ship o → (s.berth o).pr.frequency < 9)
    (count : (s.berth o).pr.overload < 9) (quiet : s.waits o = false ∨ s.passDue = false) :
    ∃ t r, exec (.zeroCrossing pt v c) s = .next t ∧ MeasuredFrame pt s t ∧ r.stamp = s.now
      ∧ LoadDone o r s t := by
  obtain ⟨w, r, hexec, frame, stamp, ready⟩ := h.ready c freq
  have shown := State.takePower_shown r (ready.count count)
  have station := (State.settle_acts ⟨[], [], false, false, []⟩ (w.takePower o r)).station
  refine ⟨_, r, hexec, frame, stamp, ⟨w, _, ready, shown, ?_, station.importFrom,
    station.importReported⟩⟩
  by_cases awake : (w.berth o).sc.state = .awaitAuth
  · have idle : (w.berth o).noStopDue := fun _ _ => .inr (by rw [awake]; decide)
    have taken := w.takePower_taken o r idle (.inr (by rw [awake]; rfl))
    have keeps : (s.berth o).sc.state.keepsDeadTime = false := by
      cases keeps : (s.berth o).sc.state.keepsDeadTime with
      | false => rfl
      | true =>
        rcases (ready.bus keeps).state with e | e | e | e <;> rw [awake] at e <;> cases e
    have q := ready.quiet keeps
    have waits : s.waits o = true := by
      unfold State.waits
      rw [← q.sc, awake]
      rfl
    rw [State.settle_of_no_pass (by
      rw [taken.passDue, q.passDue]
      exact quiet.resolve_left (by rw [waits]; decide))]
    exact .refl _
  · exact State.settle_berth (by rw [shown.state]; exact awake)

theorem LoadDone.power {o : Outlet} {r : PowerRecord} {s t : State} (h : LoadDone o r s t) :
    (t.berth o).mu.power = some r := by
  obtain ⟨w, u, -, shown, same, -⟩ := h.done
  rw [same.mu, shown.power]

/-- SC's load watches after a power record (R87, R96). -/
theorem LoadDone.load {o : Outlet} {r : PowerRecord} {s t : State} (h : LoadDone o r s t) :
    ∃ w capacity, Ready o s w ∧ ((w.berth o).sc.state ≠ .shoreSupply → capacity = w.capacity o)
      ∧ (t.berth o).sc = ((w.berth o).judgeLoad capacity r s.tb.run).sc := by
  obtain ⟨w, u, ready, shown, same, -⟩ := h.done
  obtain ⟨capacity, hc, load⟩ := shown.load
  exact ⟨w, capacity, ready, hc, by rw [same.sc, load, ready.tb]⟩

theorem BusJudged.open {o : Outlet} {s u : State} (h : BusJudged o s u) :
    (u.berth o).sc.state.breakerClosed = false ∧ (u.berth o).sc.state ≠ .parallelOut
      ∧ (u.berth o).sc.state ≠ .shoreSupply := by
  rcases h.state with e | e | e | e <;> rw [e] <;> decide

/-- The import watch at a power record (R87). -/
theorem LoadDone.importWatch {o : Outlet} {r : PowerRecord} {s t : State} (h : LoadDone o r s t)
    {sum : Int} (hsum : sum = (Outlet.all.map fun q => if q = o then r.p
      else (s.berth q).mu.power.elim 0 fun x => x.p).sum) :
    ((s.account.limit : Int) * 1000 < sum →
        t.account.importFrom = (if s.account.importReported then none
          else some (s.account.importFrom.getD s.tb.run))
        ∧ t.account.importReported = s.account.importReported)
      ∧ (sum ≤ (s.account.limit : Int) * 1000 →
        t.account.importFrom = none ∧ t.account.importReported = false) := by
  obtain ⟨w, u, ready, shown, -, runs, reported⟩ := h.done
  obtain ⟨sum', hsum', account⟩ := shown.account
  have same : sum' = sum := by
    rw [hsum', hsum]
    exact congrArg List.sum (List.map_congr_left fun q _ => by rw [ready.power])
  rw [runs, reported, account, same]
  unfold Account.judgeImport
  rw [ready.limit]
  refine ⟨fun above => ?_, fun within => ?_⟩
  · rw [if_pos above]
    exact ⟨by rw [← ready.importReported, ← ready.importFrom, ← ready.tb], ready.importReported⟩
  · rw [if_neg (by omega)]
    exact ⟨rfl, rfl⟩

/-- The cap watch of a breaker-closed outlet at its power record (R87). -/
theorem LoadDone.capWatch {o : Outlet} {r : PowerRecord} {s t : State} (h : LoadDone o r s t)
    (closed : (s.berth o).sc.state.breakerClosed = true) :
    (((s.berth o).claim : Int) * 1000 < r.p →
        (t.berth o).sc.capFrom = (if (s.berth o).sc.capReported then none
          else some ((s.berth o).sc.capFrom.getD s.tb.run))
        ∧ (t.berth o).sc.capReported = (s.berth o).sc.capReported)
      ∧ (r.p ≤ ((s.berth o).claim : Int) * 1000 →
        (t.berth o).sc.capFrom = none ∧ (t.berth o).sc.capReported = false) := by
  obtain ⟨w, cap, ready, hcap, load⟩ := h.load
  have q := ready.quiet (by revert closed; cases (s.berth o).sc.state <;> decide)
  have claim : (w.berth o).claim = (s.berth o).claim := by unfold Berth.claim; rw [q.sc]
  rw [load]
  unfold Berth.judgeLoad
  dsimp only
  rw [claim, q.sc, closed]
  refine ⟨fun above => ?_, fun within => ?_⟩
  · rw [decide_eq_true above]
    cases (s.berth o).sc.capReported <;> exact ⟨rfl, rfl⟩
  · rw [decide_eq_false (Int.not_lt.mpr within)]
    exact ⟨rfl, rfl⟩

/-- Outside the breaker-closed states the cap watch stands at zero (R87; log entry 66). -/
theorem LoadDone.capRests {o : Outlet} {r : PowerRecord} {s t : State} (h : LoadDone o r s t)
    (open' : (s.berth o).sc.state.breakerClosed = false) :
    (t.berth o).sc.capFrom = none ∧ (t.berth o).sc.capReported = (s.berth o).sc.capReported := by
  obtain ⟨w, cap, ready, hcap, load⟩ := h.load
  have kept : (w.berth o).sc.state.breakerClosed = false
      ∧ (w.berth o).sc.capReported = (s.berth o).sc.capReported := by
    cases keeps : (s.berth o).sc.state.keepsDeadTime with
    | false => rw [(ready.quiet keeps).sc]; exact ⟨open', rfl⟩
    | true => exact ⟨(ready.bus keeps).open.1, (ready.bus keeps).capReported⟩
  rw [load]
  unfold Berth.judgeLoad
  dsimp only
  rw [kept.1]
  exact ⟨rfl, kept.2⟩

/-- The unloaded time at a power record (R96). -/
theorem LoadDone.unloaded {o : Outlet} {r : PowerRecord} {s t : State} (h : LoadDone o r s t) :
    (t.berth o).sc.unloadedFrom
      = if (s.berth o).sc.state = .parallelOut ∧ r.p.natAbs ≤ max 50000 (s.capacity o * 20) then
          some ((s.berth o).sc.unloadedFrom.getD s.tb.run) else none := by
  obtain ⟨w, cap, ready, hcap, load⟩ := h.load
  rw [load]
  show (if (w.berth o).sc.state = .parallelOut then
    watch (w.berth o).sc.unloadedFrom (decide (r.p.natAbs ≤ max 50000 (cap * 20))) s.tb.run
    else none) = _
  cases keeps : (s.berth o).sc.state.keepsDeadTime with
  | false =>
    have q := ready.quiet keeps
    by_cases out : (s.berth o).sc.state = .parallelOut
    · have capacity : cap = s.capacity o := by
        rw [hcap (by rw [q.sc, out]; decide)]
        unfold State.capacity
        rw [q.pool]
      rw [q.sc, capacity, if_pos out]
      by_cases low : r.p.natAbs ≤ max 50000 (s.capacity o * 20)
      · rw [if_pos ⟨out, low⟩, decide_eq_true low]; rfl
      · rw [if_neg fun e => low e.2, decide_eq_false low]; rfl
    · rw [q.sc, if_neg out, if_neg fun e => out e.1]
  | true =>
    rw [if_neg (ready.bus keeps).open.2.1, if_neg fun e => ?_]
    rw [e.1] at keeps
    cases keeps

/-! ### The measurement gap (R142) -/

/-- A gap is counted from the later of two run counts, as the present one sees them. -/
theorem laterRun_cases (now a b : RunCount) : (laterRun now a b = a ∨ laterRun now a b = b)
    ∧ elapsed now (laterRun now a b) ≤ elapsed now a
    ∧ elapsed now (laterRun now a b) ≤ elapsed now b := by
  unfold laterRun
  split
  · exact ⟨.inl rfl, by omega, by omega⟩
  · exact ⟨.inr rfl, by omega, by omega⟩

theorem Meter.gapBase_cases (m : Meter) (now : RunCount) (closedAt : Option RunCount) :
    (m.gapBase now closedAt = m.lastRecord.getD m.opened ∨ closedAt = some (m.gapBase now closedAt))
      ∧ elapsed now (m.gapBase now closedAt) ≤ elapsed now (m.lastRecord.getD m.opened)
      ∧ ∀ c, closedAt = some c → elapsed now (m.gapBase now closedAt) ≤ elapsed now c := by
  cases closedAt with
  | none => exact ⟨.inl rfl, Nat.le_refl _, nofun⟩
  | some c =>
    obtain ⟨which, first, second⟩ := laterRun_cases now (m.lastRecord.getD m.opened) c
    refine ⟨which.imp id fun e => congrArg some e.symm, first, ?_⟩
    intro d hd
    cases hd
    exact second

theorem execGapOpens_eq {s : State} {o : Outlet} {m : Meter}
    (closed : (s.berth o).lines.breakerClosed = true) (hm : (s.berth o).mt = some m)
    (hg : m.gapFrom = none) :
    exec (.gapOpens o) s = .next (s.onMt o fun x =>
      { x with gapFrom := some (m.gapBase s.tb.run (s.berth o).lines.closedAt) }) := by
  refine congrArg Host.Outcome.next ((if_pos closed).trans (State.onBerth_congr ?_))
  rw [hm]
  simp [hg]

end Sys2Proof.Machine

namespace Sys2Proof.Proofs

open Machine

/-- The times of R71, R97 and R107 that raise BREAKER_FAIL. -/
theorem breakerFailTimes (o : Outlet) (s : State) :
    ((s.berth o).sy.driveFrom.isSome = true →
       exec (.openDriveFailTime o) s = .next
         (if (s.berth o).lines.breakerClosed then
           (s.onSy o fun y => { y with driveFrom := none }).raise .breakerFail (.outlet o)
          else s.onSy o fun y => { y with driveFrom := none }))
     ∧ ((s.berth o).sc.state = .opening → (s.berth o).sc.openFrom.isSome = true →
       exec (.openTimeExpiry o) s = .next
         (if (s.berth o).lines.breakerClosed then
           (s.onSc o fun r => { r with openFrom := none }).raise .breakerFail (.outlet o)
          else s.onSc o fun r => { r with openFrom := none }))
     ∧ ((s.berth o).pr.postTripFrom.isSome = true →
       exec (.postTripTimeExpiry o) s = .next
         (if (s.berth o).lines.breakerClosed then
           (s.onPr o fun p => { p with postTripFrom := none, openDrive := true, breakerFail := true
             }).raise .breakerFail (.outlet o)
          else s.onPr o fun p => { p with postTripFrom := none, openDrive := false })) :=
  ⟨fun runs => congrArg Host.Outcome.next (if_pos runs),
    fun hs runs => congrArg Host.Outcome.next (if_pos ⟨hs, runs⟩),
    fun runs => congrArg Host.Outcome.next (if_pos runs)⟩

/-- Settles O25: the times by their commands, the watches by the power record that judges them. -/
theorem timesThatReport : Obligations.TimesThatReport := by
  refine ⟨breakerFailTimes, ⟨fun s runs => congrArg Host.Outcome.next (if_pos runs),
    fun o s r runs hr => ?_, fun o s hs runs => congrArg Host.Outcome.next (if_pos ⟨hs, runs⟩),
    fun o s m closed hm hg => ?_⟩, fun o pt v c s quiet makes freq count => ?_⟩
  · refine congrArg Host.Outcome.next ((if_pos runs).trans ?_)
    rw [hr]
    rfl
  · obtain ⟨which, first, second⟩ := m.gapBase_cases s.tb.run (s.berth o).lines.closedAt
    exact ⟨_, execGapOpens_eq closed hm hg, which, first, second⟩
  · obtain ⟨t, r, hexec, frame, stamp, done⟩ := makes.shown c freq count (.inr quiet)
    refine ⟨t, r, hexec, frame, done.power, stamp, fun sum hsum => done.importWatch (hsum.trans ?_),
      done.capWatch, done.capRests, done.unloaded⟩
    refine congrArg List.sum (List.map_congr_left fun q _ => ?_)
    split
    · rfl
    · cases (s.berth q).mu.power <;> rfl

end Sys2Proof.Proofs
end

