-- ==== Sys2Proof/Proofs/GrowAndShrink.lean ====
section
/-! PROOFS. Growing and shrinking (R35 to R37): the module chosen for a deficit, the module SHRINK selects,
the completions of both watches, and the power records that judge them. -/

namespace Sys2Proof.Machine

open Sys2Proof

/-! ### Choosing a module (R35, R37) -/

theorem ModuleNo.all_ordered : ModuleNo.all.Pairwise fun a b => a.number < b.number := by decide

theorem ModuleNo.number_injective {a b : ModuleNo} (h : a.number = b.number) : a = b := by
  have inj : ∀ a ∈ ModuleNo.all, ∀ b ∈ ModuleNo.all, a.number = b.number → a = b := by decide
  exact inj a a.mem_all b b.mem_all h

theorem Pool.which_ordered (p : Pool) (f : Module → Bool) :
    (p.which f).Pairwise fun a b => a.number < b.number :=
  List.Pairwise.filter _ ModuleNo.all_ordered

/-- The module picked: of those whose rating comes first by a key, the one of lowest number. -/
theorem State.pickModule_first {s : State} {better : Nat → Nat → Bool} {key : Nat → Int}
    (hkey : ∀ a b, better a b = decide (key a < key b)) {l : List ModuleNo} {m : ModuleNo}
    (ordered : l.Pairwise fun a b => a.number < b.number) (hm : s.pickModule better l = some m) :
    m ∈ l ∧ ∀ n ∈ l, key (s.module m).effective ≤ key (s.module n).effective
      ∧ (key (s.module n).effective = key (s.module m).effective → m.number ≤ n.number) := by
  induction l generalizing m with
  | nil => cases hm
  | cons a rest ih =>
    obtain ⟨above, ordered⟩ := List.pairwise_cons.mp ordered
    unfold pickModule at hm
    cases hp : s.pickModule better rest with
    | none =>
      rw [hp] at hm
      have empty : rest = [] := by
        by_contra h
        have := State.pickModule_isSome (s := s) (better := better) h
        rw [hp] at this
        cases this
      cases hm
      rw [empty]
      simp
    | some b =>
      obtain ⟨hb, first⟩ := ih ordered hp
      rw [hp] at hm
      dsimp only at hm
      rw [hkey] at hm
      by_cases h : key (s.module b).effective < key (s.module a).effective
      · rw [decide_eq_true h] at hm
        cases hm
        refine ⟨List.mem_cons_of_mem _ hb, fun n hn => ?_⟩
        rcases List.mem_cons.mp hn with rfl | hn
        · exact ⟨by omega, by omega⟩
        · exact first n hn
      · rw [decide_eq_false h] at hm
        cases hm
        refine ⟨List.mem_cons_self, fun n hn => ?_⟩
        rcases List.mem_cons.mp hn with rfl | hn
        · exact ⟨le_refl _, fun _ => le_refl _⟩
        · exact ⟨by have := (first n hn).1; omega, fun _ => (above n hn).le⟩

/-- The module chosen for a deficit (R35). -/
theorem State.chooseModule_spec {s : State} {deficit : Nat} {m : ModuleNo}
    (hm : s.chooseModule deficit = some m) : (s.module m).state = .idle
      ∧ ∀ n, (s.module n).state = .idle →
        (deficit ≤ (s.module n).effective →
          deficit ≤ (s.module m).effective ∧ (s.module m).effective ≤ (s.module n).effective
            ∧ ((s.module n).effective = (s.module m).effective → m.number ≤ n.number))
        ∧ ((s.module m).effective < deficit →
          (s.module n).effective ≤ (s.module m).effective
            ∧ ((s.module n).effective = (s.module m).effective → m.number ≤ n.number)) := by
  refine ⟨s.chooseModule_idle _ _ hm, fun n hn => ?_⟩
  have idle := State.mem_idleModules.mpr hn
  have ordered : s.idleModules.Pairwise fun a b => a.number < b.number := Pool.which_ordered _ _
  unfold chooseModule at hm
  dsimp only at hm
  split at hm
  · next empty =>
    obtain ⟨-, first⟩ := State.pickModule_first (key := fun a => -(a : Int))
      (fun a b => decide_eq_decide.mpr (by omega)) ordered hm
    obtain ⟨largest, lowest⟩ := first n idle
    have small : ¬ deficit ≤ (s.module n).effective := by
      have := List.filter_eq_nil_iff.mp (List.isEmpty_iff.mp empty) n idle
      simpa using this
    exact ⟨fun h => absurd h small, fun _ => ⟨by omega, fun e => lowest (by rw [e])⟩⟩
  · obtain ⟨hmem, first⟩ := State.pickModule_first (key := fun a => (a : Int))
      (fun a b => decide_eq_decide.mpr (by omega)) (ordered.filter _) hm
    have enough : deficit ≤ (s.module m).effective := by simpa using (List.mem_filter.mp hmem).2
    refine ⟨fun h => ?_, fun h => absurd enough (by omega)⟩
    obtain ⟨smallest, lowest⟩ := first n (List.mem_filter.mpr ⟨idle, by simpa using h⟩)
    exact ⟨enough, by omega, fun e => lowest (by rw [e])⟩

/-- The largest of a list of ratings. -/
theorem foldl_max_eq {l : List Nat} {a : Nat} (ha : a ∈ l) (h : ∀ b ∈ l, b ≤ a) :
    l.foldl max 0 = a := by
  rw [List.foldl_eq_foldr]
  exact le_antisymm (List.max_le_of_forall_le l a h) (List.le_max_of_le ha le_rfl)

theorem State.mem_running {s : State} {o : Outlet} {m : ModuleNo} :
    m ∈ (s.pool.which fun x => x.inStateAt .running o)
      ↔ (s.module m).state = .running ∧ (s.module m).outlet = some o := by
  rw [Pool.mem_which]
  simp [Module.inStateAt, State.module]

theorem State.largestRunning_eq {s : State} {o : Outlet} {l : ModuleNo}
    (running : (s.module l).state = .running) (outlet : (s.module l).outlet = some o)
    (largest : ∀ m, (s.module m).outlet = some o → (s.module m).state = .running →
      (s.module m).effective ≤ (s.module l).effective) :
    s.largestRunning o = (s.module l).effective := by
  refine foldl_max_eq (List.mem_map.mpr ⟨l, State.mem_running.mpr ⟨running, outlet⟩, rfl⟩) fun b hb => ?_
  obtain ⟨m, hm, rfl⟩ := List.mem_map.mp hb
  obtain ⟨running', outlet'⟩ := State.mem_running.mp hm
  exact largest m outlet' running'

/-- The module SHRINK selects (R37). -/
theorem State.shrinkChoice_eq {s : State} {o : Outlet} {m : ModuleNo}
    (running : (s.module m).state = .running) (outlet : (s.module m).outlet = some o)
    (last : ∀ n, (s.module n).state = .running → (s.module n).outlet = some o →
      (s.module n).effective < (s.module m).effective
        ∨ ((s.module n).effective = (s.module m).effective ∧ n.number ≤ m.number)) :
    s.shrinkChoice o = some m := by
  have largest := State.largestRunning_eq running outlet fun n ho hs => by
    rcases last n hs ho with h | h <;> omega
  obtain ⟨l, hl⟩ : ∃ l, l = (s.pool.which fun x => x.inStateAt .running o).filter fun n =>
    decide ((s.module n).effective = s.largestRunning o) := ⟨_, rfl⟩
  have mem : m ∈ l := by
    rw [hl]
    exact List.mem_filter.mpr ⟨State.mem_running.mpr ⟨running, outlet⟩, by simp [largest]⟩
  have ordered : l.Pairwise fun a b => a.number ≤ b.number := by
    rw [hl]
    exact ((Pool.which_ordered _ _).filter _).imp Nat.le_of_lt
  have ne : l ≠ [] := List.ne_nil_of_mem mem
  have choice : s.shrinkChoice o = l.getLast? := by rw [hl]; rfl
  have above : m.number ≤ (l.getLast ne).number := by
    have : Std.Refl fun a b : ModuleNo => a.number ≤ b.number := ⟨fun _ => le_refl _⟩
    exact ordered.rel_getLast mem
  have below : (l.getLast ne).number ≤ m.number := by
    have final := List.getLast_mem ne
    generalize l.getLast ne = n at *
    rw [hl] at final
    obtain ⟨hn, size⟩ := List.mem_filter.mp final
    obtain ⟨running', outlet'⟩ := State.mem_running.mp hn
    have size : (s.module n).effective = (s.module m).effective := by simpa [largest] using size
    rcases last n running' outlet' with h | h <;> omega
  rw [choice, List.getLast?_eq_getLast_of_ne_nil ne, ModuleNo.number_injective (le_antisymm below above)]

/-! ### The watches complete (R36, R37) -/

theorem execShrinkWatchComplete_selects {s : State} {o : Outlet} {m : ModuleNo}
    (runs : (s.berth o).mp.shrinkFrom.isSome = true) (choice : s.shrinkChoice o = some m) :
    exec (.shrinkWatchComplete o) s = .next (s.selectShrink o m) := by
  refine congrArg Host.Outcome.next ((if_pos runs).trans ?_)
  rw [choice]

theorem State.growAllowed_iff {s : State} {o : Outlet} : s.growAllowed o = true
    ↔ (s.berth o).sc.state.breakerClosed = true ∧ s.assigned o < 8 ∧ s.countAt .starting o = 0
      ∧ (s.berth o).mp.entry = none := by
  unfold growAllowed
  simp [and_assoc]

theorem OutletState.closed_requests {st : OutletState} (h : st.breakerClosed = true) :
    st.requests = true ∧ st ≠ .energising ∧ st ≠ .synchronising ∧ st ≠ .awaitAuth := by
  revert h
  cases st <;> decide

/-- The outlet's request by GROW (R36). -/
def State.growRaised (s : State) (o : Outlet) : State := s.onMp o fun p =>
  { p with growFrom := none, entry := some { cls := .grow, arrival := s.now } }

theorem execGrowWatchComplete_eq {s : State} {o : Outlet}
    (runs : (s.berth o).mp.growFrom.isSome = true) (allowed : s.growAllowed o = true) :
    exec (.growWatchComplete o) s = .next ((s.growRaised o).servePool o).settle := by
  obtain ⟨-, -, -, entry⟩ := State.growAllowed_iff.mp allowed
  have raised : (s.onMp o fun p => { p with growFrom := none }.request .grow s.now)
      = s.growRaised o := by
    refine State.onBerth_congr (f := fun b => { b with
      mp := { b.mp with growFrom := none }.request .grow s.now }) (g := fun b => { b with
      mp := { b.mp with growFrom := none, entry := some { cls := .grow, arrival := s.now } } }) ?_
    unfold OutletPool.request
    dsimp only
    rw [entry]
  refine congrArg Host.Outcome.next ((if_pos ⟨runs, allowed⟩).trans ?_)
  rw [raised]

theorem OutletPool.needClass_closed {p : OutletPool} {st : OutletState} (h : st.breakerClosed = true)
    (arisen : p.replaceArisen = false) : p.needClass st = none := by
  obtain ⟨-, e, y, -⟩ := OutletState.closed_requests h
  unfold needClass
  rw [arisen, if_neg (by decide), if_neg (by simp [e, y])]

/-- A GROW entry stands whatever the need, while the outlet is breaker-closed (R33). -/
theorem State.judgeNeed_grow {s : State} {o : Outlet} {e : PendingEntry}
    (closed : (s.berth o).sc.state.breakerClosed = true) (room : s.assigned o < 8)
    (arisen : (s.berth o).mp.replaceArisen = false) (entry : (s.berth o).mp.entry = some e)
    (cls : e.cls = .grow) : ((s.judgeNeed o).berth o).mp.entry = some e := by
  obtain ⟨requests, -⟩ := OutletState.closed_requests closed
  by_cases short : s.prospective o < (s.berth o).sc.target
  · unfold State.judgeNeed
    dsimp only
    rw [(State.tidyWatches_needs _ o).1, requests, if_neg (by decide), if_pos short,
      if_neg (by omega), OutletPool.needClass_closed closed arisen]
    exact entry
  · rw [(State.judgeNeed_met requests (by omega)).2, if_neg (by omega), entry]
    exact Option.filter_some_pos (by simp [PendingEntry.outlastsNeed, cls])

/-- What GROW's request leaves before the arbitration (R33, R36). -/
structure GrowRequested (o : Outlet) (s t : State) : Prop where
  only : PoolOnly s t
  entry : (t.berth o).mp.entry = some { cls := .grow, arrival := s.now }
  growFrom : (t.berth o).mp.growFrom = none
  others : ∀ q, q ≠ o → t.berth q = s.berth q
  pool : t.pool = s.pool
  passDue : t.passDue = s.passDue

theorem State.growRaised_requested {s : State} {o : Outlet} (allowed : s.growAllowed o = true)
    (arisen : (s.berth o).mp.replaceArisen = false) :
    GrowRequested o s ((s.growRaised o).judgeNeed o) := by
  obtain ⟨closed, room, -, -⟩ := State.growAllowed_iff.mp allowed
  have raised : PoolOnly s (s.growRaised o) := .onMp _ _ _
  have mp : ((s.growRaised o).berth o).mp = { (s.berth o).mp with
      growFrom := none, entry := some { cls := .grow, arrival := s.now } } := by
    rw [State.growRaised, State.berth_onMp_self]
  refine ⟨raised.trans (State.judgeNeed_poolOnly _ o), ?_, ?_, fun q hq => ?_,
    State.judgeNeed_pool _ o, State.judgeNeed_passDue _ o⟩
  · exact State.judgeNeed_grow (by rw [(raised.berth o).sc]; exact closed) room
      (by rw [mp]; exact arisen) (by rw [mp]) rfl
  · exact (State.judgeNeed_duties o o _).growFrom (by rw [mp])
  · rw [State.judgeNeed_berth_ne hq]
    exact State.berth_onMp_ne _ _ hq

/-- GROW's request while the pre-charge unit serves waits (R36). -/
theorem execGrowWatchComplete_waits {s : State} {o : Outlet} {u : Serving}
    (runs : (s.berth o).mp.growFrom.isSome = true) (allowed : s.growAllowed o = true)
    (arisen : (s.berth o).mp.replaceArisen = false) (unit : s.pool.unit = some u)
    (pass : s.passDue = false) :
    ∃ t, exec (.growWatchComplete o) s = .next t ∧ t = { s with berths := t.berths }
      ∧ GrowRequested o s t := by
  have requested := State.growRaised_requested allowed arisen
  refine ⟨_, ?_, ?_, requested⟩
  · rw [execGrowWatchComplete_eq runs allowed, State.servePool,
      State.arbitrate_of_busy (requested.pool ▸ unit),
      State.settle_of_no_pass (requested.passDue.trans pass)]
  · have rest := requested.only.rest
    rw [requested.pool, requested.passDue] at rest
    exact rest

/-- GROW's request with the pre-charge unit free and no other entry starts the module chosen (R34, R36). -/
theorem GrowRequested.starts {o : Outlet} {s t : State} (h : GrowRequested o s t)
    (unit : s.pool.unit = none) (alone : ∀ q, (s.berth q).mp.entry = none) {m : ModuleNo}
    (chosen : t.chooseModule 1 = some m) : t.arbitrate
      = ((t.onMp o fun p => { p with entry := none }).startModule m o
          { cls := .grow, arrival := s.now }).judgeNeed o := by
  refine State.arbitrate_starts (h.pool ▸ unit) (State.winner_eq (by decide) o.mem_all h.entry
    fun q f hq hf => ?_) chosen
  rw [h.others q hq, alone] at hf
  cases hf

/-- GROW's request with the pre-charge unit free, no other entry and an IDLE module: the start (R24, R35,
R36). -/
theorem execGrowWatchComplete_starts {s : State} {o : Outlet}
    (runs : (s.berth o).mp.growFrom.isSome = true) (allowed : s.growAllowed o = true)
    (arisen : (s.berth o).mp.replaceArisen = false) (unit : s.pool.unit = none)
    (idle : ∃ m, (s.module m).state = .idle) (alone : ∀ q, (s.berth q).mp.entry = none) :
    ∃ t m, exec (.growWatchComplete o) s = .next t ∧ (s.module m).state = .idle
      ∧ (t.module m).state = .starting ∧ (t.module m).outlet = some o ∧ (t.module m).trim = 0
      ∧ t.pool.unit = some { module := m, outlet := o, since := s.tb.run, cls := .grow
                             arrival := s.now, ended := false }
      ∧ (∀ n, (s.module n).state = .idle → 1 ≤ (s.module n).effective →
          1 ≤ (s.module m).effective ∧ (s.module m).effective ≤ (s.module n).effective)
      ∧ SameButPool (s.berth o) (t.berth o)
      ∧ Elsewhere [o] [] s t ∧ KeepsAccount s t ∧ NoFault s t ∧ t.metering = s.metering := by
  have requested := State.growRaised_requested allowed arisen
  have served := execGrowWatchComplete_eq runs allowed
  have acts : Acts ⟨[o], [], false, false, []⟩ s ((s.growRaised o).servePool o).settle :=
    ((Acts.onMp _ s o _).trans (State.servePool_acts _ _ o)).trans (State.settle_acts _ _)
  have serves : PoolOnly s ((s.growRaised o).servePool o) :=
    (PoolOnly.onMp s o _).trans (State.servePool_poolOnly _ o)
  have same (m : ModuleNo) : ((s.growRaised o).judgeNeed o).module m = s.module m :=
    State.module_judgeNeed _ o m
  obtain ⟨m, chosen⟩ := Option.isSome_iff_exists.mp (State.chooseModule_isSome (deficit := 1)
    |>.mpr (idle.imp fun m hm => (same m).symm ▸ hm))
  obtain ⟨found, first⟩ := State.chooseModule_spec chosen
  have started : (s.growRaised o).servePool o = _ := requested.starts unit alone chosen
  obtain ⟨forms, begun⟩ : ∃ forms, ((s.growRaised o).servePool o).module m
      = (s.module m).begin o forms := by
    rw [started, State.module_judgeNeed, State.module_startModule_self, State.module_onMp, same]
    exact ⟨_, rfl⟩
  have serving : ((s.growRaised o).servePool o).pool.unit
      = some { module := m, outlet := o, since := s.tb.run, cls := .grow
               arrival := s.now, ended := false } := by
    rw [started, State.judgeNeed_pool]
    rw [← requested.only.tb]
    rfl
  generalize (s.growRaised o).servePool o = v at *
  have awake : v.waits o = false := by
    unfold State.waits
    rw [(serves.berth o).sc]
    exact beq_eq_false_iff_ne.mpr
      (OutletState.closed_requests (State.growAllowed_iff.mp allowed).1).2.2.2
  have duties := State.settle_duties awake
  have kept : v.settle.module m = (s.module m).begin o forms := by
    rw [duties.module m (by rw [begun]; rfl) (by rw [begun]; simp [Module.begin]), begun]
  rw [same] at found
  refine ⟨v.settle, m, served, found, ?_, ?_, ?_, duties.unit _ serving rfl, fun n hn large => ?_,
    (serves.berth o).trans (State.settle_berth (by simpa [State.waits] using awake)),
    acts.frame.1, acts.frame.2.1, acts.noFault rfl, acts.frame.2.2⟩
  · rw [kept]; rfl
  · rw [kept]; rfl
  · rw [kept]; rfl
  · have chosen := (first n (by rw [same]; exact hn)).1
    rw [same, same] at chosen
    exact ⟨(chosen large).1, (chosen large).2.1⟩

/-! ### The power records that judge the watches and the deferred stop (R36, R37) -/

theorem State.stopDue_congr {s t : State} {o : Outlet} (sc : (t.berth o).sc.state = (s.berth o).sc.state)
    (voluntary : (t.berth o).mp.voluntary = (s.berth o).mp.voluntary) (pool : t.pool = s.pool)
    (apparent : Nat) : t.stopDue o apparent = s.stopDue o apparent := by
  unfold stopDue voluntaryStands allowsStop State.capacity State.module
  rw [sc, voluntary, pool]

/-- A deferred stop of a RUNNING module in SHORE_SUPPLY, at a record of an apparent power (R37). -/
theorem State.stopDue_deferred {s : State} {o : Outlet} {m : ModuleNo} {apparent : Nat}
    (supply : (s.berth o).sc.state = .shoreSupply) (running : (s.module m).state = .running)
    (outlet : (s.module m).outlet = some o)
    (voluntary : (s.berth o).mp.voluntary = some { module := m, begun := false }) :
    s.stopDue o apparent = if 105 * apparent ≤ (s.capacity o - (s.module m).effective) * 100000 then
      some m else none := by
  unfold stopDue
  rw [voluntary]
  simp [voluntaryStands, allowsStop, supply, running, outlet, Module.inStateAt]

/-- What the end of a cycle comes to where a stop of a module in SHORE_SUPPLY is deferred (R37). -/
theorem State.MakesPower.deferred {s : State} {o : Outlet} {pt : MeasPoint} {v : LineVoltages}
    {m : ModuleNo} (h : s.MakesPower o pt v) (c : CyclePower)
    (freq : pt = .ship o → (s.berth o).pr.frequency < 9) (count : (s.berth o).pr.overload < 9)
    (supply : (s.berth o).sc.state = .shoreSupply) (running : (s.module m).state = .running)
    (outlet : (s.module m).outlet = some o)
    (voluntary : (s.berth o).mp.voluntary = some { module := m, begun := false }) :
    ∃ t r, exec (.zeroCrossing pt v c) s = .next t ∧ MeasuredFrame pt s t
      ∧ (t.berth o).mu.power = some r ∧ r.stamp = s.now
      ∧ (t.berth o).sc.state = .shoreSupply ∧ (t.module m).outlet = some o
      ∧ (105 * r.s ≤ (s.capacity o - (s.module m).effective) * 100000 →
        (t.module m).state = .stopping
          ∧ (t.module m).stop = some { endedStart := false, since := s.tb.run, normalFrom := none }
          ∧ (t.berth o).mp.voluntary = some { module := m, begun := true })
      ∧ ((s.capacity o - (s.module m).effective) * 100000 < 105 * r.s →
        (t.module m).state = .running
          ∧ (t.berth o).mp.voluntary = some { module := m, begun := false }) := by
  obtain ⟨w, r, hexec, frame, stamp, ready⟩ := h.ready c freq
  have quiet := ready.quiet (by rw [supply]; rfl)
  have module : w.module m = s.module m := by unfold State.module; rw [quiet.pool]
  obtain ⟨_, _, pr⟩ := quiet.pr
  have count : (w.berth o).pr.overload < 9 := by rw [pr]; exact count
  obtain ⟨clip, looped⟩ := w.looped_own o r
  have due : ((w.looped o r).watched o r.s).stopDue o r.s
      = if 105 * r.s ≤ (s.capacity o - (s.module m).effective) * 100000 then some m else none := by
    rw [← State.stopDue_deferred supply running outlet voluntary]
    have pool : ((w.looped o r).watched o r.s).pool = s.pool := looped.pool.trans quiet.pool
    refine State.stopDue_congr ?_ ?_ pool _
    · rw [State.watched, State.sc_onMp, looped.berth]
      show (w.berth o).sc.state = _
      rw [quiet.sc]
    · rw [State.watched, State.berth_onMp_self, looped.berth]
      show (w.berth o).mp.voluntary = _
      rw [quiet.mp]
  have shown := State.takePower_shown (s := w) (o := o) r (.inl count)
  have state : ((w.takePower o r).berth o).sc.state = .shoreSupply := by
    rw [shown.state, quiet.sc, supply]
  have duties := State.settle_duties (o := o) (s := w.takePower o r) (by
    unfold State.waits; rw [state]; rfl)
  have power : ((w.takePower o r).settle.berth o).mu.power = some r := by
    rw [(State.settle_berth (by rw [state]; decide)).mu, shown.power]
  by_cases allowed : 105 * r.s ≤ (s.capacity o - (s.module m).effective) * 100000
  · rw [if_pos allowed] at due
    obtain ⟨-, -, -, stopped, begun⟩ := State.takePower_sheds due count
    rw [module, ready.tb] at stopped
    have kept := duties.module m (by rw [stopped]; exact outlet)
      (by rw [stopped]; simp [Module.beginStop])
    rw [stopped] at kept
    have stands : (w.takePower o r).voluntaryStands o { module := m, begun := true } = true := by
      simp [State.voluntaryStands, stopped, Module.beginStop, Module.inStateAt, outlet]
    exact ⟨_, r, hexec, frame, power, stamp, duties.state.trans state, by rw [kept]; exact outlet,
      fun _ => ⟨by rw [kept]; rfl, by rw [kept]; rfl, duties.voluntary _ begun stands⟩,
      fun over' => absurd allowed (by omega)⟩
  · rw [if_neg allowed] at due
    have taken := State.takePower_of_none w o r due (.inl count)
    have stays : ((w.takePower o r).module m).state = .running
        ∧ ((w.takePower o r).module m).outlet = some o := by
      rw [taken.module, module]
      split <;> exact ⟨running, outlet⟩
    have kept := duties.module m stays.2 (by rw [stays.1]; decide)
    obtain ⟨_, berth⟩ := taken.berth
    have deferred : ((w.takePower o r).berth o).mp.voluntary
        = some { module := m, begun := false } := by
      rw [berth]
      show (w.berth o).mp.voluntary = _
      rw [quiet.mp, voluntary]
    have stands : (w.takePower o r).voluntaryStands o { module := m, begun := false } = true := by
      simp [State.voluntaryStands, state, Module.inStateAt, stays.1, stays.2]
    exact ⟨_, r, hexec, frame, power, stamp, duties.state.trans state, by rw [kept]; exact stays.2,
      fun h => absurd h allowed,
      fun _ => ⟨by rw [kept]; exact stays.1, duties.voluntary _ deferred stands⟩⟩

theorem PowerDone.power {o : Outlet} {r : PowerRecord} {s t : State} (h : PowerDone o r s t) :
    (t.berth o).mu.power = some r := by
  obtain ⟨w, u, -, taken, same, -⟩ := h.done
  obtain ⟨_, berth⟩ := taken.berth
  rw [same.mu, berth]
  rfl

theorem OutletState.keepsDeadTime_open {st : OutletState} (h : st.keepsDeadTime = true) :
    st.breakerClosed = false ∧ st ≠ .shoreSupply := by
  revert h
  cases st <;> decide

/-- The watches at zero outside the states that they run in (R36, R37). -/
theorem State.watches_open {s : State} {o : Outlet} (apparent : Nat)
    (closed : (s.berth o).sc.state.breakerClosed = false)
    (supply : (s.berth o).sc.state ≠ .shoreSupply) :
    s.growAfter o apparent = none ∧ s.shrinkAfter o apparent = none := by
  unfold growAfter shrinkAfter growAllowed shrinkAllowed
  simp [closed, supply]

/-- The GROW and SHRINK watches after the power record of a cycle (R36, R37). -/
theorem PowerDone.watches {o : Outlet} {r : PowerRecord} {s t : State} (h : PowerDone o r s t)
    (pass : s.passDue = false) : (t.berth o).mp.growFrom = s.growAfter o r.s
      ∧ (t.berth o).mp.shrinkFrom = s.shrinkAfter o r.s := by
  obtain ⟨w, u, ready, taken, -, same, duties, -⟩ := h.done
  obtain ⟨_, berth⟩ := taken.berth
  cases keeps : (s.berth o).sc.state.keepsDeadTime with
  | false =>
    have quiet := ready.quiet keeps
    obtain ⟨grow, shrink⟩ := State.watches_congr (s := s) (t := w) (o := o) quiet.sc quiet.mp
      quiet.pool ready.tb r.s
    rw [same keeps pass, berth, ← grow, ← shrink]
    exact ⟨rfl, rfl⟩
  | true =>
    obtain ⟨closed, -, supply⟩ := (ready.bus keeps).open
    obtain ⟨grow, shrink⟩ := State.watches_open r.s closed supply
    obtain ⟨grow', shrink'⟩ := State.watches_open r.s (OutletState.keepsDeadTime_open keeps).1
      (OutletState.keepsDeadTime_open keeps).2
    rw [grow', shrink']
    exact ⟨(duties keeps).growFrom (by rw [berth]; exact grow),
      (duties keeps).shrinkFrom (by rw [berth]; exact shrink)⟩

theorem State.growAfter_eq (s : State) (o : Outlet) (apparent : Nat) : s.growAfter o apparent
    = if (s.berth o).sc.state.breakerClosed = true ∧ s.assigned o < 8
        ∧ s.countAt .starting o = 0 ∧ (s.berth o).mp.entry = none
        ∧ s.capacity o * 9000 < apparent * 10 then
      some ((s.berth o).mp.growFrom.getD s.tb.run) else none := by
  unfold growAfter growAllowed growsAt
  simp [and_assoc]

theorem State.shrinkAfter_idle {s : State} {o : Outlet}
    (none_runs : ∀ m, (s.module m).outlet = some o → (s.module m).state ≠ .running)
    (apparent : Nat) : s.shrinkAfter o apparent = none := by
  unfold shrinkAfter shrinkAllowed
  dsimp only
  rw [State.countAt_eq_zero.mpr none_runs]
  simp

theorem State.shrinkAfter_eq {s : State} {o : Outlet} {l : ModuleNo}
    (outlet : (s.module l).outlet = some o) (running : (s.module l).state = .running)
    (largest : ∀ m, (s.module m).outlet = some o → (s.module m).state = .running →
      (s.module m).effective ≤ (s.module l).effective) (apparent : Nat) : s.shrinkAfter o apparent
    = if (s.berth o).sc.state = .shoreSupply ∧ s.countAt .starting o = 0
        ∧ s.countAt .stopping o = 0 ∧ s.countAt .held o = 0
        ∧ (s.berth o).mp.entry = none ∧ (s.berth o).mp.voluntary = none
        ∧ (s.berth o).sc.target ≤ s.capacity o - (s.module l).effective
        ∧ 125 * apparent ≤ (s.capacity o - (s.module l).effective) * 100000 then
      some ((s.berth o).mp.shrinkFrom.getD s.tb.run) else none := by
  have some_run : 0 < s.countAt .running o :=
    Nat.pos_of_ne_zero fun h => State.countAt_eq_zero.mp h l outlet running
  unfold shrinkAfter shrinkAllowed shrinksAt
  dsimp only
  rw [State.largestRunning_eq running outlet largest]
  simp [some_run, and_assoc]

end Sys2Proof.Machine

namespace Sys2Proof.Proofs

open Machine

/-- Settles O22: the completions by the pool's arbitration, the records by what they leave of the watches. -/
theorem growAndShrinkWatches : Obligations.GrowAndShrinkWatches := by
  refine ⟨fun o s runs allowed arisen => ⟨fun u unit pass => ?_, fun unit idle alone =>
      execGrowWatchComplete_starts runs allowed arisen unit idle alone⟩,
    fun s deficit => ⟨State.chooseModule_isSome.symm, fun m => State.chooseModule_spec⟩,
    fun o s m runs _ running outlet last =>
      execShrinkWatchComplete_selects runs (State.shrinkChoice_eq running outlet last),
    fun o s m v c last supply running outlet voluntary cycle low high volts freq count => ?_,
    fun o pt v c s pass makes freq count stop => ?_⟩
  · obtain ⟨t, hexec, rest, requested⟩ := execGrowWatchComplete_waits runs allowed arisen unit pass
    exact ⟨t, hexec, rest, requested.entry, requested.growFrom, requested.only.berth o,
      requested.others⟩
  · exact State.MakesPower.deferred ⟨.inl rfl, ⟨⟨last, cycle, low, high⟩, volts⟩⟩ c (fun _ => freq)
      count supply running outlet voluntary
  · obtain ⟨t, r, hexec, frame, stamp, done⟩ := makes.done c freq count
      (fun x hx => .inl (stop x hx)) (.inr pass)
    obtain ⟨grow, shrink⟩ := done.watches pass
    refine ⟨t, r, hexec, frame, done.power, stamp, grow.trans (s.growAfter_eq o r.s),
      fun none_runs => shrink.trans (State.shrinkAfter_idle none_runs _),
      fun l left outlet running largest hleft => ?_⟩
    rw [hleft, shrink, State.shrinkAfter_eq outlet running largest]

end Sys2Proof.Proofs
end

