-- ==== Sys2Proof/Proofs/ControlAtARecord.lean ====
section
/-! PROOFS. What RG and the modules do with the records of a cycle of Pn (R40, R51, R53, R54). -/

namespace Sys2Proof.Machine

open Sys2Proof

/-! ### The targets of a berth -/

/-- RG with both targets worked out from a frequency and a voltage, Δ set, and a record taken. -/
def Berth.controlled (b : Berth) (delta : Int) (now : RunCount) (freq volts : Int) : RefGen :=
  (({ b with rg := { b.rg with delta := delta, recordTime := some now, holding := false } } : Berth).withTargets
    freq volts).rg

theorem Berth.controlled_eq (b : Berth) (delta : Int) (now : RunCount) (freq volts : Int)
    {low high lowV highV : Int} (hlow : low = (b.nominalFreq * 95 / 100 : Nat))
    (hhigh : high = (b.nominalFreq * 105 / 100 : Nat)) (hlowV : lowV = (b.nominalVolts * 90 / 100 : Nat))
    (hhighV : highV = (b.nominalVolts * 110 / 100 : Nat)) :
    b.controlled delta now freq volts = { b.rg with
      delta := delta, recordTime := some now, holding := false
      freqTarget := (max low (min high freq)).toNat
      voltTarget := (max lowV (min highV volts)).toNat
      clamped := decide (freq < low ∨ high < freq ∨ volts < lowV ∨ highV < volts) } := by
  have freqs : intoBand (freqBand b.nominalFreq) freq = (max low (min high freq)).toNat := by
    rw [intoBand, clampInt_eq _ _ _ (by simp only [freqBand]; omega), hlow, hhigh]
    rfl
  have volts' : intoBand (voltBand b.nominalVolts) volts = (max lowV (min highV volts)).toNat := by
    rw [intoBand, clampInt_eq _ _ _ (by simp only [voltBand]; omega), hlowV, hhighV]
    rfl
  have clamped : (outsideBand (freqBand b.nominalFreq) freq || outsideBand (voltBand b.nominalVolts) volts)
      = decide (freq < low ∨ high < freq ∨ volts < lowV ∨ highV < volts) := by
    rw [hlow, hhigh, hlowV, hhighV]
    rw [Bool.eq_iff_iff]
    simp [outsideBand, freqBand, voltBand, or_assoc]
  rw [← freqs, ← volts', ← clamped]
  rfl

/-- What RG has taken of a pair record before its targets (R51, R53). -/
def Berth.heard (b : Berth) (r : PairRecord) : Berth :=
  { b with rg := { b.rg with recordTime := some r.stamp.run, holding := false } }

theorem Berth.rgPair_track {b : Berth} (h : b.rg.mode = .track) (r : PairRecord) :
    b.rgPair r = (b.heard r).trackTargets r := by
  unfold rgPair
  dsimp only
  split
  · rfl
  all_goals next e => rw [h] at e; cases e

theorem Berth.rgPair_power {b : Berth} (h : b.rg.mode = .power) (r : PairRecord) :
    b.rgPair r = (b.heard r).powerTargets r := by
  unfold rgPair
  dsimp only
  split
  · next e => rw [h] at e; cases e
  · rfl
  all_goals next e => rw [h] at e; cases e

/-- RG after the pair record and then the power record of a cycle (R51, R53, R54). -/
theorem Berth.takesPair_loop {b : Berth} {pr : PairRecord} (pair : b.mu.pairRecord = some pr)
    (capacity : Nat) (r : PowerRecord) :
    (b.rg.mode = .track → ((b.takesPair capacity).powerLoop capacity r).rg
        = b.controlled b.rg.delta pr.stamp.run (pr.fP + b.sy.settings.slipTarget : Nat) pr.vP)
      ∧ (b.rg.mode = .power → ∀ delta : Int, delta = (if capacity = 0 then b.rg.delta
          else clampInt (-500) 500 (b.rg.delta + loopChange b.rg.pSet r.p capacity b.rg.gain)) →
        ((b.takesPair capacity).powerLoop capacity r).rg
          = b.controlled delta pr.stamp.run (pr.fP + delta) pr.vP) := by
  have paired : b.takesPair capacity = b.pairedBy capacity pr := by rw [takesPair, pair]; rfl
  have sy : (b.pairedBy capacity pr).rg
      = (({ b with mu := { b.mu with pair := some pr } } : Berth).rgPair pr).rg := Berth.syPair_rg _ _ _
  have kept : (b.pairedBy capacity pr).mu.pair = some pr ∧ (b.pairedBy capacity pr).sc = b.sc := by
    unfold pairedBy
    rw [Berth.syPair_rest, Berth.rgPair_rest]
    exact ⟨rfl, rfl⟩
  rw [paired]
  generalize b.pairedBy capacity pr = c at *
  obtain ⟨kept, sc⟩ := kept
  refine ⟨fun mode => ?_, fun mode delta hdelta => ?_⟩
  · rw [Berth.rgPair_track (b := { b with mu := { b.mu with pair := some pr } }) mode] at sy
    have track : c.rg.mode = .track := by rw [sy]; exact mode
    have rest : c.powerLoop capacity r = c := if_neg fun h => by rw [track] at h; cases h.1
    rw [rest, sy]
    rfl
  · rw [Berth.rgPair_power (b := { b with mu := { b.mu with pair := some pr } }) mode] at sy
    have rg : c.rg = b.controlled b.rg.delta pr.stamp.run (pr.fP + b.rg.delta) pr.vP := sy
    by_cases none' : capacity = 0
    · rw [if_pos none'] at hdelta
      have rest : c.powerLoop capacity r = c := if_neg fun h => h.2 none'
      rw [rest, rg, hdelta]
    · rw [if_neg none'] at hdelta
      have power : c.rg.mode = .power := by rw [rg]; exact mode
      have same : clampInt (-500) 500 (c.rg.delta + loopChange c.rg.pSet r.p capacity c.rg.gain)
          = delta := by rw [rg, hdelta]; rfl
      have old : c.rg.delta = b.rg.delta := by rw [rg]; rfl
      unfold powerLoop
      rw [if_pos ⟨power, none'⟩]
      dsimp only
      rw [same, old, kept]
      split
      · next e => rw [rg, e]
      · show (({ c with rg := { c.rg with delta := delta } } : Berth).withTargets
          (pr.fP + delta) pr.vP).rg = _
        unfold withTargets nominalFreq nominalVolts
        rw [sc, rg]
        rfl

/-! ### The end of a cycle of Pn -/

/-- A live record of Pn readies no dead-bus close (R73, R74). -/
theorem Berth.guarded_notReady {b : Berth} (live : b.mu.ship.live = true) (clip : Bool) (r : Phasor)
    (now : RunCount) (capacity : Nat) : (b.guarded clip r now).deadBusReady capacity = false := by
  rw [Berth.guarded_eq, Berth.syShipRecord_eq]
  cases keeps : b.keepsDeadTime with
  | false =>
    unfold keepsDeadTime declaresDeadBus at keeps
    unfold deadBusReady declaresDeadBus
    dsimp only
    rw [keeps]
    rfl
  | true =>
    unfold deadBusReady
    simp [live]

/-- Where a live record of Pn is judged, at most ENERGISING is left, for SYNCHRONISING (R90). -/
theorem State.judgeBuses_live {s : State} {o : Outlet}
    (h : (s.berth o).deadBusReady (s.capacity o) = false) : KeepsLoaded s (s.judgeBuses o)
      ∧ ((s.berth o).sc.state ≠ .energising → s.judgeBuses o = s) := by
  rw [State.judgeBuses_of_not_ready h]
  refine ⟨?_, fun ne => if_neg fun h => ne h.1⟩
  split
  · next h => exact State.moveTo_loaded s o 0 (by rw [h.1]; decide) (by decide) (by decide)
  · exact .refl _

theorem OwnChange.loaded {o : Outlet} {f : Berth → Berth} {s t : State} (h : OwnChange o f s t) :
    KeepsLoaded s t := .of_pool h.pool

/-- What the records of a cycle of Pn make of a RUNNING module (R40) and, before the breaker closes and in
POWER, of RG (R51, R53, R54). -/
structure Controls (o : Outlet) (f : Phasor) (r : PowerRecord) (s t : State) : Prop where
  module : ∀ m, (s.module m).state = .running → (s.module m).outlet = some o →
    t.module m = (s.module m).share r.p (s.capacity o)
  looped : (s.berth o).sc.state ≠ .energising → s.waits o = false →
    (t.berth o).sc.state = (s.berth o).sc.state
    ∧ ∃ b : Berth, b.sc = (s.berth o).sc ∧ b.rg = (s.berth o).rg
      ∧ b.sy.settings = (s.berth o).sy.settings ∧ b.mu.ship.record = some f
      ∧ b.mu.shore = (s.berth o).mu.shore
      ∧ (t.berth o).rg = ((b.takesPair (s.capacity o)).powerLoop (s.capacity o) r).rg

theorem State.EndsCycle.controls {s : State} {o : Outlet} {v : LineVoltages}
    (h : s.EndsCycle (.ship o) v) (c : CyclePower) (freq : (s.berth o).pr.frequency < 9)
    (count : (s.berth o).pr.overload < 9) (stop : (s.berth o).noStopDue) {last : TimeStamp}
    (hlast : (s.berth o).mu.ship.cycle = some last) :
    ∃ t, exec (.zeroCrossing (.ship o) v c) s = .next t ∧ MeasuredFrame (.ship o) s t
      ∧ Controls o (phasor s.now (some (cycleFields (elapsed s.tb.run last.run))) v)
          (powerRecord c v (elapsed s.tb.run last.run) s.now) s t := by
  obtain ⟨f, p, g, clip, hf, hp, hexec, frame, own, ready⟩ := h.shipTaken c freq hlast
  rw [← hf]
  generalize powerRecord c v (elapsed s.tb.run last.run) s.now = r at *
  have live : p.live = true := by
    rw [hp, (Brings.cycled s (.ship o) v last).live]
    exact decide_eq_true h.volts
  have record : p.record = some f := by rw [hp, hf]; rfl
  have gberth := own.berth
  obtain ⟨loaded, stays⟩ := State.judgeBuses_live (s := g) (o := o) (by
    rw [gberth]
    exact Berth.guarded_notReady live _ _ _ _)
  rw [Berth.guarded_eq] at gberth
  have taken := ((g.judgeBuses o).takePair o).takePower_taken o r (ready.noStopDue stop)
    (ready.count count)
  have pair := (g.judgeBuses o).takePair_own o
  have before : KeepsLoaded s ((g.judgeBuses o).takePair o) :=
    (own.loaded.trans loaded).trans pair.loaded
  refine ⟨_, hexec, frame, fun m running outlet => ?_, fun settled awake => ?_⟩
  · have kept := before.module (m := m) (by rw [running]; decide) (by rw [running]; decide)
    have shared : (((g.judgeBuses o).takePair o).takePower o r).module m
        = (s.module m).share r.p (s.capacity o) := by
      rw [taken.module, kept, before.capacity, if_pos (by simp [Module.inStateAt, running, outlet])]
    rw [(State.settle_loaded _).module (by rw [shared]; exact running ▸ nofun)
      (by rw [shared]; exact running ▸ nofun), shared]
  · have gsc : (g.berth o).sc = (s.berth o).sc := by rw [gberth]; rfl
    rw [stays (by rw [gsc]; exact settled)] at *
    have capacity : (g.takePair o).capacity o = s.capacity o := before.capacity o
    obtain ⟨_, berth⟩ := taken.berth
    have sc : ((g.takePair o).berth o).sc = (s.berth o).sc := by
      rw [pair.berth, Berth.takesPair_rest]; exact gsc
    have same := State.settle_berth (s := (g.takePair o).takePower o r) (o := o) (by
      rw [taken.state, sc]
      exact beq_eq_false_iff_ne.mp awake)
    refine ⟨by rw [same.sc, taken.state, sc], g.berth o, gsc, by rw [gberth]; rfl,
      by rw [gberth, Berth.syShipRecord_eq]; rfl, by rw [gberth]; exact record,
      by rw [gberth]; rfl, ?_⟩
    rw [same.rg, berth, capacity, pair.berth, own.capacity]
    rfl

end Sys2Proof.Machine

namespace Sys2Proof.Proofs

open Machine

/-- Settles O24: what RG and the modules take of a cycle's records. -/
theorem controlAtARecord : Obligations.ControlAtARecord := by
  intro o v c s last p awake hlast low high volts freq count novol hp
  have cycle : s.EndsCycle (.ship o) v := ⟨⟨last, hlast, low, high⟩, volts⟩
  obtain ⟨t, hexec, frame, controls⟩ := cycle.controls c freq count
    (fun x hx => by rw [novol] at hx; cases hx) hlast
  have power : (powerRecord c v (elapsed s.tb.run last.run) s.now).p = p := by
    rw [hp]
    exact saturate_eq _ _
  refine ⟨t, hexec, frame, ?_, fun m share running outlet hshare => ?_⟩
  · intro rs cs lastS fP vP delta lowF highF lowV highV hrs hcs hlastS hfP hvP hlow hhigh hlowV hhighV
      modes f hf
    have settled : (s.berth o).sc.state ≠ .energising := by
      rcases modes with ⟨-, -, h | h⟩ | ⟨-, h | h, -⟩ <;> rw [h] <;> decide
    obtain ⟨state, b, sc, rg, settings, ship, shore, hrg⟩ := controls.looped settled awake
    have pair := Measures.pairRecord_of ship rfl (by rw [shore]; exact hrs) hcs
      (by rw [shore]; exact hlastS)
    obtain ⟨track, loop⟩ := Berth.takesPair_loop pair (s.capacity o)
      (powerRecord c v (elapsed s.tb.run last.run) s.now)
    refine ⟨state, hrg.trans ?_⟩
    have out (d : Int) (run : RunCount) := b.controlled_eq d run f vP
      (hlow.trans (by unfold Berth.nominalFreq; rw [sc]))
      (hhigh.trans (by unfold Berth.nominalFreq; rw [sc]))
      (hlowV.trans (by unfold Berth.nominalVolts; rw [sc]))
      (hhighV.trans (by unfold Berth.nominalVolts; rw [sc]))
    rw [rg] at out track loop
    rcases modes with ⟨mode, hdelta, -⟩ | ⟨mode, -, hdelta⟩
    · rw [if_pos mode] at hf
      rw [track mode, hdelta, ← out, hf, hfP, hvP, settings]
      rfl
    · rw [if_neg (by rw [mode]; decide)] at hf
      rw [loop mode delta ?_, ← out, hf, hfP, hvP]
      · rfl
      · rw [hdelta, power, clampInt_eq _ _ _ (by decide)]
        rfl
  · rw [controls.module m running outlet, power, hshare]
    rfl

end Sys2Proof.Proofs
end

