-- ==== Sys2Proof/Proofs/GridLoss.lean ====
section
/-! PROOFS. The grid watch, its completion at every outlet, and the entries while a grid loss stands (R105,
R107, R108, R115). -/

namespace Sys2Proof.Machine

open Sys2Proof

/-! ### A record of G -/

theorem execVoltageOnlyCadence_grid {s : State} (pass : s.passDue = false)
    (cycle : s.grid.point.cycle = none) (v : LineVoltages) :
    exec (.voltageOnlyCadence .grid v) s = .next (s.setPoint .grid
      (s.grid.point.voltageOnly (s.nominalAt .grid) s.now v)).takeGridRecord :=
  congrArg Host.Outcome.next ((if_pos (by rw [State.point, cycle]; rfl)).trans
    (State.settle_of_no_pass pass))

/-! ### The grid loss at every outlet (R115) -/

/-- The grid loss completes at each outlet of a list in turn. -/
def State.gridLostAt (s : State) (l : List Outlet) : State :=
  l.foldl (fun t o => t.complete o .gridLoss) s

theorem State.gridLostAt_acts (l : List Outlet) {x : Scope} (hl : ∀ o ∈ l, o ∈ x.outlets)
    (hk : Cause.gridLoss.fault ∈ x.kinds) (s : State) : Acts x s (s.gridLostAt l) := by
  induction l generalizing s with
  | nil => exact .refl _ _
  | cons o l ih =>
    exact (State.complete_acts s o .gridLoss (hl o List.mem_cons_self) hk).trans
      (ih (fun p hp => hl p (List.mem_cons_of_mem _ hp)) _)

/-- Among all outlets, the completion at one comes between those at others. -/
theorem State.gridLost_split (s : State) (o : Outlet) : ∃ before after : List Outlet,
    o ∉ before ∧ o ∉ after
      ∧ s.gridLostAt Outlet.all = ((s.gridLostAt before).complete o .gridLoss).gridLostAt after := by
  obtain ⟨before, after, split⟩ := List.append_of_mem o.mem_all
  have nodup : Outlet.all.Nodup := by decide
  rw [split] at nodup
  obtain ⟨-, tail, disjoint⟩ := List.nodup_append.mp nodup
  refine ⟨before, after, fun h => disjoint o h o List.mem_cons_self rfl,
    (List.nodup_cons.mp tail).1, ?_⟩
  rw [split]
  unfold State.gridLostAt
  rw [List.foldl_append, List.foldl_cons]

/-- The state with the grid loss standing. -/
def State.gridLost (s : State) : State := { s with gridWatch := { s.gridWatch with standing := true } }

theorem execGridWatchComplete_eq {s : State} (runs : s.gridWatch.since.isSome = true)
    (fresh : s.gridWatch.standing = false) :
    exec .gridWatchComplete s = .next (s.gridLost.gridLostAt Outlet.all).settle :=
  congrArg Host.Outcome.next (if_pos (by rw [runs, fresh]; rfl))

/-- What the completion of the grid watch comes to at one outlet that does not wait. -/
theorem State.gridLost_at {s : State} {o : Outlet} (awake : s.waits o = false) : ∃ u t,
    (∃ before : List Outlet, o ∉ before ∧ Acts ⟨before, [], false, false, [Cause.gridLoss.fault]⟩ s u)
      ∧ t = (s.gridLostAt Outlet.all).settle ∧ SameButPool (s.berth o) (u.berth o)
      ∧ ∃ after : List Outlet, o ∉ after
        ∧ Acts ⟨after, [], false, false, [Cause.gridLoss.fault]⟩ (u.complete o .gridLoss) t := by
  obtain ⟨before, after, hb, ha, split⟩ := s.gridLost_split o
  have acts := State.gridLostAt_acts before (x := ⟨before, [], false, false, [Cause.gridLoss.fault]⟩)
    (fun _ h => h) List.mem_cons_self s
  refine ⟨_, _, ⟨before, hb, acts⟩, rfl, acts.berth o hb awake, after, ha, ?_⟩
  rw [split]
  exact (State.gridLostAt_acts after (fun _ h => h) List.mem_cons_self _).trans (State.settle_acts _ _)

/-- A trip of an outlet holds between updates of others. -/
theorem Tripped.between {o : Outlet} {c : Cause} {s u t : State} {x : Scope} (h : Tripped o c u t)
    (a : Acts x s u) (ho : o ∉ x.outlets) (hm : x.modules = []) (awake : s.waits o = false) :
    Tripped o c s t := by
  have same := a.berth o ho awake
  refine h.before (by rw [same.sc]) (by rw [same.sc]) (by rw [same.sc]) same.mt (by rw [a.station.tb])
    a.station.tripHold fun m hmo hi => a.module m ⟨by rw [hm]; exact List.not_mem_nil, hi, fun p hp => ?_⟩
  rw [hmo] at hp
  cases hp
  exact ⟨ho, awake⟩

/-- GRID_LOSS trips in the breaker-closed states (Table 6-2). -/
theorem Cause.gridLoss_tripsIn (st : OutletState) : Cause.gridLoss.tripsIn st = st.breakerClosed := by
  cases st <;> rfl

theorem Berth.trippedClosed_iff {b : Berth} : b.trippedClosed = true
    ↔ b.sc.state = .tripped ∧ b.lines.breakerClosed = true := by
  simp [Berth.trippedClosed]

/-! ### Entries while the grid loss stands (R105, R115) -/

/-- While the grid loss stands it trips an outlet, in which no level condition holds, at its entry to a
breaker-closed state. -/
theorem Berth.causeEntering_grid {b : Berth} {new : OutletState} (level : b.levelCause = none)
    (closed : new.breakerClosed = true) : b.causeEntering new true = some .gridLoss := by
  unfold causeEntering
  rw [if_pos (.inr closed), level]
  simp [closed]

/-- A confirmed close enters a breaker-closed state alone, where a cause trips the outlet at every such entry
(R105). -/
theorem State.closeConfirmed_enters {s : State} {o : Outlet} {c : Cause} (kind : CloseKind)
    (hs : (s.berth o).sc.state = .closing)
    (h : ∀ new : OutletState, new.breakerClosed = true →
      (s.berth o).causeEntering new s.gridWatch.standing = some c) :
    ∃ new p, new.breakerClosed = true ∧ s.closeConfirmed o kind = s.enter o new p := by
  have tripped (new : OutletState) (p : Nat) (hn : new.breakerClosed = true) :
      ((s.enter o new p).berth o).sc.state = .tripped := by
    rw [State.enter_of_some (by rw [hs]; decide) (by rintro rfl; cases hn) (h new hn),
      (State.trip_tripped _ o c).state]
  have judged (new : OutletState) (p : Nat) (hn : new.breakerClosed = true) :
      s.enterJudged o new p = s.enter o new p := by
    refine State.judgeGenerators_of_not (fun e => ?_) fun e => ?_ <;>
      · rw [tripped new p hn] at e; cases e
  unfold State.closeConfirmed
  dsimp only
  cases (s.berth o).sc.endRequested with
  | false =>
    cases kind with
    | synchronised => exact ⟨_, _, rfl, judged .parallelIn _ rfl⟩
    | deadBus => exact ⟨_, _, rfl, judged .shoreSupply 0 rfl⟩
  | true =>
    cases kind with
    | synchronised => exact ⟨.parallelOut, _, rfl, rfl⟩
    | deadBus =>
      refine ⟨.shoreSupply, 0, rfl, if_neg ?_⟩
      rw [tripped _ _ rfl]
      decide

/-- What a confirmed close comes to where a cause trips the outlet at every entry (R67, R105). -/
theorem State.closeConfirmed_tripped {s : State} {o : Outlet} {c : Cause} (kind : CloseKind)
    (hs : (s.berth o).sc.state = .closing) (close : (s.berth o).sy.close = .watching)
    (h : ∀ new : OutletState, new.breakerClosed = true →
      (s.berth o).causeEntering new s.gridWatch.standing = some c) :
    Tripped o c s (s.closeConfirmed o kind).settle
      ∧ ((s.closeConfirmed o kind).settle.berth o).sy.record = (s.berth o).sy.record
      ∧ ((s.closeConfirmed o kind).settle.berth o).sy.closeOutput = (s.berth o).sy.closeOutput
      ∧ Raised c.fault s (s.closeConfirmed o kind).settle
      ∧ Acts ⟨[o], [], false, false, [c.fault]⟩ s (s.closeConfirmed o kind).settle := by
  obtain ⟨new, p, hn, enters⟩ := State.closeConfirmed_enters kind hs h
  have away : (s.berth o).sc.state ≠ .dormant ∧ (s.berth o).sc.state ≠ .tripped := by rw [hs]; decide
  have trips : s.enter o new p = (s.moveTo o new p).trip o c :=
    State.enter_of_some away.1 (by rintro rfl; cases hn) (h new hn)
  have tripped : Tripped o c s (s.closeConfirmed o kind) := by
    rw [enters]
    exact State.enter_tripped p away.1 away.2 (OutletState.closed_requests hn).1 (h new hn)
  have same := (State.settle_berth (s := s.closeConfirmed o kind) (o := o)
    (by rw [tripped.state]; decide)).sy
  have moved : ((s.moveTo o new p).berth o).sy.close = .watching
      ∧ ((s.moveTo o new p).berth o).sy.record = (s.berth o).sy.record
      ∧ ((s.moveTo o new p).berth o).sy.closeOutput = (s.berth o).sy.closeOutput := by
    rw [State.moveTo_sy]
    unfold Synchroniser.takeState
    rw [Synchroniser.closeTakesState_watching new close]
    exact ⟨close, rfl, rfl⟩
  have sy : ((s.closeConfirmed o kind).settle.berth o).sy
      = ((s.moveTo o new p).berth o).sy.takeState .tripped ((s.moveTo o new p).berth o).shipDead
          (s.moveTo o new p).tb.run := by
    rw [same, enters, trips, State.trip_sy]
  unfold Synchroniser.takeState at sy
  rw [Synchroniser.closeTakesState_watching .tripped moved.1] at sy
  refine ⟨tripped.after (State.settle_acts ⟨[], [], false, false, []⟩ _) List.not_mem_nil rfl,
    by rw [sy]; exact moved.2.1, by rw [sy]; exact moved.2.2, ?_, ?_⟩
  · rw [enters, trips]
    exact (Raised.before (s.moveTo_noFault o new p) (State.trip_raised _ o c)).after
      (State.settle_noFault _)
  · rw [enters, trips]
    exact (State.moveTo_acts s o new p List.mem_cons_self (.inl (by rintro rfl; cases hn))).trans
      (State.trip_settle_acts _ o c)

/-- A confirmed close leaves its record CONFIRMED and the close output released (R67). -/
theorem Synchroniser.confirm_record {y : Synchroniser} {c : CloseRecord} (h : y.record = some c)
    (now : RunCount) : (y.confirm now).record = some (c.confirm now)
      ∧ (y.confirm now).closeOutput = false ∧ (y.confirm now).close = .watching := by
  unfold confirm
  rw [h]
  exact ⟨rfl, rfl, rfl⟩

end Sys2Proof.Machine

namespace Sys2Proof.Proofs

open Machine

/-- R115: the completion of the grid watch at every outlet. -/
theorem gridWatchCompletes (s : State) (runs : s.gridWatch.since.isSome = true)
    (fresh : s.gridWatch.standing = false) :
    ∃ t, exec .gridWatchComplete s = .next t
      ∧ t.gridWatch = { s.gridWatch with standing := true }
      ∧ SameStation { s with gridWatch := { s.gridWatch with standing := true } } t
      ∧ KeepsAccount s t ∧ t.metering = s.metering
      ∧ (∀ o, (s.berth o).sc.state.breakerClosed = true → Tripped o .gridLoss s t)
      ∧ (∀ o, (s.berth o).trippedClosed = true →
          (t.berth o).sc.state = .tripped
          ∧ (t.berth o).pr.laterCauses
              = (if (s.berth o).pr.laterCauses.contains .gridLoss then (s.berth o).pr.laterCauses
                else (s.berth o).pr.laterCauses ++ [.gridLoss]))
      ∧ (∀ o, (s.berth o).sc.state.breakerClosed = false → (s.berth o).trippedClosed = false →
          s.waits o = false → SameButPool (s.berth o) (t.berth o)) := by
  have all : Acts ⟨Outlet.all, [], false, false, [Cause.gridLoss.fault]⟩ s.gridLost
      (s.gridLost.gridLostAt Outlet.all).settle :=
    (State.gridLostAt_acts _ (fun _ h => h) List.mem_cons_self _).trans (State.settle_acts _ _)
  refine ⟨_, execGridWatchComplete_eq runs fresh, all.station.gridWatch, all.station,
    (KeepsAccount.of_states rfl fun _ => rfl : KeepsAccount s s.gridLost).trans (all.keepsAccount rfl),
    all.metering rfl, fun o closed => ?_, fun o closed => ?_, fun o open' unwatched awake => ?_⟩
  · have awake : s.gridLost.waits o = false :=
      beq_eq_false_iff_ne.mpr (OutletState.closed_requests closed).2.2.2
    obtain ⟨u, t, ⟨before, hb, acts⟩, rfl, same, after, ha, rest⟩ := State.gridLost_at awake
    rw [State.complete_trips (by rw [Cause.gridLoss_tripsIn, same.sc]; exact closed)] at rest
    have tripped := ((u.trip_tripped o .gridLoss).after rest ha rfl).between acts hb rfl awake
    exact tripped.before rfl rfl rfl rfl rfl rfl fun _ _ _ => rfl
  · obtain ⟨state, breaker⟩ := Berth.trippedClosed_iff.mp closed
    have awake : s.gridLost.waits o = false := beq_eq_false_iff_ne.mpr (by
      show (s.berth o).sc.state ≠ _
      rw [state]; decide)
    obtain ⟨u, t, -, rfl, same, after, ha, rest⟩ := State.gridLost_at awake
    rw [State.complete_later (by rw [same.sc]; exact state) (by rw [same.lines]; exact breaker) rfl] at rest
    have berth := u.laterCause_berth o .gridLoss
    have final := rest.berth o ha (by
      unfold State.waits
      rw [berth, same.sc]
      exact awake)
    refine ⟨by rw [final.sc, berth, same.sc]; exact state, ?_⟩
    rw [final.pr, berth]
    dsimp only
    rw [same.pr]
    rfl
  · obtain ⟨u, t, -, rfl, same, after, ha, rest⟩ := State.gridLost_at (s := s.gridLost) awake
    rw [State.complete_unwatched (by rw [Cause.gridLoss_tripsIn, same.sc]; exact open')
      (.inl (by unfold Berth.trippedClosed at *; rw [same.sc, same.lines]; exact unwatched))] at rest
    exact same.trans (rest.berth o ha (by unfold State.waits; rw [same.sc]; exact awake))

/-- Settles O31: the grid watch, and the entries and closures while a grid loss stands. -/
theorem gridLossTripsTheClosedOutlets : Obligations.GridLossTripsTheClosedOutlets := by
  refine ⟨fun v s pass cycle => ?_, fun s => gridWatchCompletes s, fun o s standing level =>
    ⟨fun i hs _ hi => ?_, fun hs close open' record => ?_⟩,
    fun o s d standing pass hs open' close hd => ?_⟩
  · refine ⟨_, execVoltageOnlyCadence_grid pass cycle v, rfl, decide_eq_true_iff⟩
  · obtain ⟨tripped, flags, acts⟩ := State.abortRampIn_tripped hs (c := .gridLoss) (by
      rw [standing]; exact Berth.causeEntering_grid level rfl)
    exact ⟨_, execAbort hs hi, tripped, flags, acts.frame⟩
  · obtain ⟨c, hc⟩ := Option.isSome_iff_exists.mp record
    have contact := s.contact_berth o
    have taken : (s.contact o).takeClosed o
        = ((s.contact o).confirmed o).closeConfirmed o (s.berth o).sy.kindInFlight := by
      unfold State.takeClosed
      rw [if_pos (by rw [contact]; exact close), State.confirmClose_eq, contact]
    have berth := (s.contact o).confirmed_berth o
    rw [contact] at berth
    have grid : ((s.contact o).confirmed o).gridWatch = s.gridWatch := State.confirmed_gridWatch _ _
    have tb : ((s.contact o).confirmed o).tb = s.tb := State.confirmed_tb _ _
    have before : Acts ⟨[o], [], false, false, [Cause.gridLoss.fault]⟩ (s.contact o)
        ((s.contact o).confirmed o) := State.confirmed_acts _ o List.mem_cons_self
    have quiet : NoFault (s.contact o) ((s.contact o).confirmed o) :=
      (State.confirmed_acts (x := ⟨[o], [], false, false, []⟩) _ o List.mem_cons_self).noFault rfl
    have modules : ((s.contact o).confirmed o).pool = s.pool := by
      unfold State.confirmed
      split <;> rfl
    obtain ⟨confirmed, released, watching⟩ := Synchroniser.confirm_record hc (s.contact o).tb.run
    obtain ⟨tripped, hrecord, output, raised, acts⟩ := State.closeConfirmed_tripped
      (s := (s.contact o).confirmed o) (o := o) (c := .gridLoss) (s.berth o).sy.kindInFlight
      (by rw [berth]; exact hs) (by rw [berth]; exact watching) (fun new closed => by
        rw [grid, standing]
        refine Berth.causeEntering_grid ?_ closed
        rw [Berth.levelCause_congr (b := s.berth o) (by rw [berth]) (by rw [berth]), level])
    obtain ⟨elsewhere, account, metering⟩ := (before.trans acts).frame
    refine ⟨_, execBreakerFeedbackClosed_eq open', ?_⟩
    rw [taken]
    refine ⟨tripped.before ?_ ?_ ?_ ?_ (by rw [tb]; rfl) (by rw [modules]; rfl)
      (fun m _ _ => by unfold State.module; rw [modules]; rfl),
      ⟨c.confirm (s.contact o).tb.run, ?_, rfl⟩, ?_,
      .before (t := (s.contact o).confirmed o) ⟨quiet.flags, quiet.sinceClear, quiet.capture⟩ raised,
      elsewhere, (s.contact_keepsAccount o).trans account, metering⟩
    · rw [berth, State.onMt, State.berth_onBerth_self, contact]
    · rw [berth, State.onMt, State.berth_onBerth_self, contact]
    · rw [berth, State.onMt, State.berth_onBerth_self, contact]
    · rw [berth, State.onMt, State.berth_onBerth_self, contact]
      rfl
    · rw [hrecord, berth]; exact confirmed
    · rw [output, berth]; exact released
  · have contact := s.contact_berth o
    have driven : d = (s.contact o).onPr o fun p => p.closedInTripped s.tb.run := hd
    have berth : d.berth o = { (s.contact o).berth o with
        pr := ((s.contact o).berth o).pr.closedInTripped s.tb.run } := by
      rw [driven]
      exact State.berth_onBerth_self _ _ _
    rw [contact] at berth
    have taken : (s.contact o).takeClosed o = d.laterCause o .gridLoss := by
      rw [← State.complete_later (by rw [berth]; exact hs) (by rw [berth]) rfl, driven]
      unfold State.takeClosed
      rw [if_neg (by rw [contact]; exact close), if_neg (by rw [contact, hs]; decide),
        if_pos (by rw [contact]; exact hs)]
      exact if_pos standing
    rw [execBreakerFeedbackClosed_eq open', taken, State.settle_of_no_pass (by
      rw [State.laterCause_passDue, driven]; exact pass)]
    have causes : (d.berth o).pr.laterCauses = (s.berth o).pr.laterCauses := by rw [berth]; rfl
    rw [← causes]
    rfl

end Sys2Proof.Proofs
end

