-- ==== Sys2Proof/Proofs/LinkFrames.lean ====
section
/-! PROOFS. The leader's frames and the link cycle (R120, R123, R128, R129, R131, R132, R136). -/

namespace Sys2Proof.Machine

open Sys2Proof

/-! ### Changes of SL alone -/

/-- Two changes of one SL are one change. -/
theorem State.onSl_onSl (s : State) (o : Outlet) (f g : ShipLink → ShipLink) :
    (s.onSl o f).onSl o g = s.onSl o fun l => g (f l) := State.onBerth_onBerth _ _ _ _

theorem State.onSl_congr {s : State} {o : Outlet} {f g : ShipLink → ShipLink}
    (h : f (s.berth o).sl = g (s.berth o).sl) : s.onSl o f = s.onSl o g :=
  State.onBerth_congr (by rw [h])

/-- What follows the level of the attention pair is one change with it (R131). -/
theorem State.noteHeld_onBerth (s : State) (o : Outlet) (held : Bool) (f : Berth → Berth) :
    (s.noteHeld o held).onBerth o f
      = s.onBerth o fun b => f { b with sl := { b.sl with attention := held } } :=
  State.onBerth_onBerth _ _ _ _

/-! ### Frames sent (R123) -/

theorem execLeaderFrameSent_sending {s : State} {o : Outlet} {f : LeaderFrame}
    (h : (s.berth o).sl.activity = .sending f) (held : Bool) :
    ((∃ mark, f = .rollCall mark) ∨ f = .attentionQuery ∨ (∃ a shore, f = .poll a shore)
        ∨ (∃ a, f = .enlisted a .accepted) →
      exec (.leaderFrameSent o held) s
        = .next (s.onSl o fun l => { l with activity := .window f s.tb.run }))
    ∧ ((∃ a, f = .slotGrant a) →
      exec (.leaderFrameSent o held) s
        = .next (s.onSl o fun l => { l with activity := .slot s.tb.run }))
    ∧ ((∃ a, f = .enlisted a .refused ∨ f = .enlisted a .duplicate) →
      exec (.leaderFrameSent o held) s = .next ((s.noteHeld o held).resume o)) := by
  refine ⟨?_, ?_, ?_⟩
  · rintro (⟨mark, rfl⟩ | rfl | ⟨a, shore, rfl⟩ | ⟨a, rfl⟩) <;>
      · show execLeaderFrameSent o held s = _
        unfold execLeaderFrameSent
        rw [h]
  · rintro ⟨a, rfl⟩
    show execLeaderFrameSent o held s = _
    unfold execLeaderFrameSent
    rw [h]
  · rintro ⟨a, rfl | rfl⟩ <;>
      · show execLeaderFrameSent o held s = _
        unfold execLeaderFrameSent
        rw [h]

/-- A discovery that goes on sends the next ROLL_CALL (R128). -/
theorem State.noteHeld_resume_rollCall {s : State} {o : Outlet} {sent : Nat} (held : Bool)
    (step : (s.berth o).sl.step = .rollCall sent false) (few : sent < 24) :
    (s.noteHeld o held).resume o = s.onSl o fun l => { l with
      attention := held, activity := .sending (.rollCall false)
      step := .rollCall (sent + 1) false } := by
  unfold State.resume
  refine (State.noteHeld_onBerth _ _ _ _).trans (State.onBerth_congr ?_)
  unfold Berth.resume
  dsimp only
  rw [step]
  exact if_neg (by simpa using few)

/-! ### The polls step (R129) -/

/-- An entry that the polls step polls, in R129's words. -/
theorem Station.pollDue_iff {e : Station} {now : RunCount} : e.pollDue now = true
    ↔ e.state = .present
      ∨ (e.state = .lost ∧ ∀ r, e.lastPoll = some r → 1000000 ≤ elapsed now r) := by
  unfold pollDue
  cases e.state <;> cases e.lastPoll <;> simp

/-- The polls step polls the first entry due above an address (R129). -/
theorem Berth.nextPoll_due {b : Berth} {upTo : Nat} {now : RunCount} {e : Station}
    (h : (b.sl.stations.find? fun e => decide (upTo < e.address) && e.pollDue now) = some e) :
    b.nextPoll upTo now
      = { b with sl := { (b.sendPoll e.address now).sl with step := .polls e.address } } := by
  unfold nextPoll
  rw [h]

theorem Berth.nextPoll_none {b : Berth} {upTo : Nat} {now : RunCount}
    (h : (b.sl.stations.find? fun e => decide (upTo < e.address) && e.pollDue now) = none) :
    b.nextPoll upTo now = { b with sl := b.sl.attentionStep 0 now } := by
  unfold nextPoll
  rw [h]

/-- The entry that counts toward a kind is one of the table. -/
theorem ShipLink.entryOf_spec {l : ShipLink} {k : StationKind} {e : Station}
    (h : l.entryOf k = some e) : e ∈ l.stations ∧ e.kind = some k ∧ e.state ≠ .duplicate := by
  have meets := List.find?_some h
  have mem := List.mem_of_find?_eq_some h
  obtain ⟨kind, counts⟩ := Bool.and_eq_true_iff.mp meets
  exact ⟨mem, by simpa using kind, by simpa [Station.counts] using counts⟩

/-- With no PRESENT PMS there is no slot (R129, R132). -/
theorem ShipLink.slotStep_none {l : ShipLink} (now : RunCount)
    (h : ∀ e, l.entryOf .pms = some e → e.state ≠ .present) : l.slotStep now = l.endCycle := by
  unfold slotStep
  split
  · next e he => exact if_neg (h e he)
  · rfl

theorem ShipLink.slotStep_present {l : ShipLink} (now : RunCount) {e : Station}
    (h : l.entryOf .pms = some e) (present : e.state = .present) :
    l.slotStep now = { l.send (.slotGrant e.address) now with step := .shipSlot } := by
  unfold slotStep
  rw [h]
  exact if_pos present

theorem execLinkCycle_eq {s : State} {o : Outlet} (held : Bool)
    (state : (s.berth o).sl.state = .cycling) (step : (s.berth o).sl.step = .rest)
    (activity : (s.berth o).sl.activity = .quiet) :
    exec (.linkCycle o held) s
      = .next (s.onBerth o fun b =>
          ({ b with sl := { b.sl with attention := held } } : Berth).beginCycle s.tb.run) :=
  congrArg Host.Outcome.next ((if_pos ⟨state, step, activity⟩).trans (State.noteHeld_onBerth _ _ _ _))

end Sys2Proof.Machine

namespace Sys2Proof.Proofs

open Machine

/-- A link cycle begins (R129). -/
theorem linkCycleBegins (o : Outlet) (held : Bool) (s : State)
    (state : (s.berth o).sl.state = .cycling) (step : (s.berth o).sl.step = .rest)
    (activity : (s.berth o).sl.activity = .quiet) (due : Station → Prop)
    (hdue : ∀ e, due e ↔ 0 < e.address ∧ (e.state = .present
      ∨ (e.state = .lost ∧ ∀ r, e.lastPoll = some r → 1000000 ≤ elapsed s.tb.run r))) :
    (∀ before e after, (s.berth o).sl.stations = before ++ e :: after → due e →
       (∀ x ∈ before, ¬ due x) →
       exec (.linkCycle o held) s = .next (s.onBerth o fun b => { b with sl := { b.sl with
         attention := held, cycleFrom := s.tb.run, step := .polls e.address
         activity := .sending (.poll e.address
           (if b.sl.isScp e.address then some
             { state := b.sc.state, reason := b.sc.reason, breakerClosed := b.lines.breakerClosed
               pSet := b.rg.pSet, prepareReturn := b.sc.prepareReturn, deny := b.sc.deny }
            else none))
         stations := b.sl.stations.map fun x =>
           if x.address = e.address then { x with lastPoll := some s.tb.run } else x } }))
     ∧ ((∀ x ∈ (s.berth o).sl.stations, ¬ due x) →
       (held = true →
         exec (.linkCycle o held) s = .next (s.onSl o fun l => { l with
           attention := true, cycleFrom := s.tb.run, step := .attention 1
           activity := .sending .attentionQuery }))
       ∧ (held = false → (∀ x ∈ (s.berth o).sl.stations, 0 < x.address) →
         exec (.linkCycle o held) s = .next (s.onSl o fun l => { l with
           attention := false, cycleFrom := s.tb.run, step := .rest, activity := .quiet }))) := by
  have due_iff (e : Station) :
      (decide (0 < e.address) && e.pollDue s.tb.run) = true ↔ due e := by
    rw [hdue, Bool.and_eq_true_iff, decide_eq_true_iff, Station.pollDue_iff]
  rw [execLinkCycle_eq held state step activity]
  refine ⟨fun before e after split he first => ?_, fun none_due => ?_⟩
  · refine congrArg Host.Outcome.next (State.onBerth_congr ?_)
    have found : ((s.berth o).sl.stations.find? fun e =>
        decide (0 < e.address) && e.pollDue s.tb.run) = some e :=
      List.find?_eq_some_iff_append.mpr ⟨(due_iff e).mpr he, before, after, split, fun x hx => by
        rw [Bool.not_eq_true', ← Bool.not_eq_true]
        exact fun h => first x hx ((due_iff x).mp h)⟩
    refine (Berth.nextPoll_due (b := { s.berth o with sl := { (s.berth o).sl with
      attention := held, state := .cycling, cycleFrom := s.tb.run, activity := .quiet
      step := .polls 0 } }) found).trans ?_
    rw [← state]
    rfl
  · have found : ((s.berth o).sl.stations.find? fun e =>
        decide (0 < e.address) && e.pollDue s.tb.run) = none :=
      List.find?_eq_none.mpr fun x hx => fun h => none_due x hx ((due_iff x).mp h)
    have begins := Berth.nextPoll_none (b := { s.berth o with sl := { (s.berth o).sl with
      attention := held, state := .cycling, cycleFrom := s.tb.run, activity := .quiet
      step := .polls 0 } }) found
    refine ⟨fun hh => ?_, fun hh above => ?_⟩
    · subst hh
      refine congrArg Host.Outcome.next (State.onBerth_congr (begins.trans ?_))
      rw [← state]
      rfl
    · subst hh
      refine congrArg Host.Outcome.next (State.onBerth_congr (begins.trans ?_))
      have rests := ShipLink.slotStep_none (l := { (s.berth o).sl with
        attention := false, state := .cycling, cycleFrom := s.tb.run, activity := .quiet
        step := .polls 0 }) s.tb.run fun e he present => by
          obtain ⟨mem, -, -⟩ := ShipLink.entryOf_spec he
          exact none_due e mem ((hdue e).mpr ⟨above e mem, .inl present⟩)
      show ({ s.berth o with sl := ShipLink.slotStep _ _ } : Berth) = _
      rw [rests, ← state]
      rfl

/-- Settles O32: the frames sent, the beginning of a cycle, and the slot. -/
theorem leaderFramesAndCycles : Obligations.LeaderFramesAndCycles := by
  refine ⟨fun o s => ⟨fun waking => congrArg Host.Outcome.next (if_pos waking), fun held f sending => ?_⟩,
    fun o held s state step activity due hdue => linkCycleBegins o held s state step activity due hdue,
    fun o held frame s since slot => ⟨fun pms => ?_, ?_⟩,
    fun o held s since queries e window step pms present pass => ?_⟩
  · obtain ⟨opens, grants, refuses⟩ := execLeaderFrameSent_sending sending held
    refine ⟨opens, fun a h => grants ⟨a, h⟩, fun a sent h step few => ?_⟩
    rw [refuses ⟨a, h⟩, State.noteHeld_resume_rollCall held step few]
  · show execSlotEnd o held frame s = _
    unfold execSlotEnd
    dsimp only
    rw [slot]
    exact congrArg Host.Outcome.next (if_pos pms)
  · show execShipSlotExpiry o s = _
    unfold execShipSlotExpiry
    rw [slot]
    rfl
  · have closes : exec (.replyWindowClose o held) s = .next ((s.noteHeld o held).noAnswer o).settle := by
      show execReplyWindowClose o held s = _
      unfold execReplyWindowClose
      rw [window]
      rfl
    rw [closes, State.settle_of_no_pass (show ((s.noteHeld o held).noAnswer o).passDue = false from pass)]
    refine congrArg Host.Outcome.next
      ((State.noteHeld_onBerth s o held _).trans (State.onBerth_congr ?_))
    dsimp only
    rw [step]
    have slots := ShipLink.slotStep_present (l := { (s.berth o).sl with
      attention := held, collisions := 0 }) s.tb.run pms present
    exact congrArg (fun l => ({ s.berth o with sl := l } : Berth)) slots

end Sys2Proof.Proofs
end

