-- ==== Sys2Proof/Proofs/LinkReplies.lean ====
section
/-! PROOFS. Misses and good replies of polled stations (R109, R123, R130). -/

namespace Sys2Proof.Machine

open Sys2Proof

/-! ### What leaves SL as it was -/

/-- Every outlet's SL is as it was. -/
def KeepsLink (s t : State) : Prop := ∀ o, (t.berth o).sl = (s.berth o).sl

theorem KeepsLink.refl (s : State) : KeepsLink s s := fun _ => rfl

theorem KeepsLink.trans {s t u : State} (h : KeepsLink s t) (g : KeepsLink t u) : KeepsLink s u :=
  fun o => (g o).trans (h o)

theorem KeepsLink.of_berths {s t : State} (h : t.berths = s.berths) : KeepsLink s t := fun o => by
  unfold State.berth; rw [h]

theorem KeepsLink.onBerth {s : State} {o : Outlet} {f : Berth → Berth}
    (h : (f (s.berth o)).sl = (s.berth o).sl) : KeepsLink s (s.onBerth o f) := fun p => by
  by_cases hp : p = o
  · subst hp; rw [State.berth_onBerth_self, h]
  · rw [State.berth_onBerth_ne _ _ hp]

theorem KeepsLink.raise (s : State) (k : FaultKind) (src : Source) (d : Option Nat) :
    KeepsLink s (s.raise k src d) := fun o => by rw [State.berth_raise]

theorem KeepsLink.report (s : State) (k : EventKind) (src : Source) (d : Option Nat) :
    KeepsLink s (s.report k src d) := fun o => by rw [State.berth_report]

theorem State.moveTo_link {s : State} {o : Outlet} {new : OutletState} (pSet : Nat)
    (hd : (s.berth o).sc.state ≠ .dormant) (hn : new ≠ .dormant) :
    KeepsLink s (s.moveTo o new pSet) := fun p => by
  by_cases hp : p = o
  · subst hp; exact State.moveTo_sl pSet hd hn
  · exact (s.moveTo_berth_ne new pSet hp).sl

theorem State.trip_link {s : State} {o : Outlet} (c : Cause) (hd : (s.berth o).sc.state ≠ .dormant) :
    KeepsLink s (s.trip o c) := by
  refine (State.moveTo_link (new := .tripped) 0 hd (by decide)).trans ?_
  refine .trans (t := (s.moveTo o .tripped).onSc o fun r => { r with firstCause := some c })
    (.onBerth rfl) ?_
  refine .trans (t := State.onPr _ o fun p => p.trip s.tb.run) (.onBerth rfl) ?_
  exact (KeepsLink.raise _ _ _ _).trans (.onBerth rfl)

/-- A cause trips in no state before CLOSING (Table 6-2). -/
theorem Cause.tripsIn_powered {c : Cause} {st : OutletState} (h : c.tripsIn st = true) :
    st = .closing ∨ st.breakerClosed = true := by
  revert h
  cases c <;> cases st <;> decide

theorem State.complete_link (s : State) (o : Outlet) (c : Cause) : KeepsLink s (s.complete o c) := by
  unfold State.complete
  dsimp only
  split
  · next h =>
    refine State.trip_link c fun e => ?_
    rcases Cause.tripsIn_powered h with g | g <;> rw [e] at g <;> cases g
  · split
    · unfold State.laterCause
      split
      · exact .refl _
      · exact (KeepsLink.raise _ _ _ _).trans (.onBerth rfl)
    · exact .refl _

theorem State.enter_link {s : State} {o : Outlet} {new : OutletState} (pSet : Nat)
    (hd : (s.berth o).sc.state ≠ .dormant) (hn : new ≠ .dormant) :
    KeepsLink s (s.enter o new pSet) := by
  unfold State.enter
  dsimp only
  split
  · exact (State.moveTo_link pSet hd hn).trans (State.trip_link _ (by rw [State.moveTo_state]; exact hn))
  · exact State.moveTo_link pSet hd hn

theorem State.judgeGenerators_link (s : State) (o : Outlet) : KeepsLink s (s.judgeGenerators o) := by
  unfold State.judgeGenerators
  dsimp only
  split
  · next h => exact State.enter_link 0 (by rw [h.1]; decide) (by decide)
  · split
    · next h =>
      split
      · exact State.enter_link _ (by rw [h.1]; decide) (by decide)
      · exact (KeepsLink.report _ _ _ _).trans
          (State.enter_link _ (by rw [State.berth_report, h.1]; decide) (by decide))
    · exact .refl _

theorem State.evaluate_link (s : State) (o : Outlet) : KeepsLink s (s.evaluate o) := by
  unfold State.evaluate
  dsimp only
  split
  · next d hst _ =>
    have hd : (s.berth o).sc.state ≠ .dormant := by rw [of_decide_eq_true hst]; decide
    split
    · exact (State.moveTo_link 0 hd (by decide)).trans (.onBerth rfl)
    · split
      · exact .onBerth rfl
      · split
        · exact .onBerth rfl
        · split
          · exact .onBerth rfl
          · next place _ _ _ =>
            have filled : KeepsLink s (s.fillSession o d place) := fun p => by
              by_cases hp : p = o
              · subst hp; rw [State.fillSession_berth_self]
              · rw [State.fillSession_berth_ne _ _ _ hp]
            rw [State.openSession_eq]
            exact (filled.trans (State.moveTo_link 0 (by
              rw [State.fillSession_berth_self]; exact hd) (by decide))).trans (.report _ _ _ _)
  · exact .refl _

/-- The passes of a step's end leave the ship links as they were. -/
theorem State.settle_link (s : State) : KeepsLink s s.settle :=
  State.settle_preorder .refl .trans (fun _ => .of_berths rfl) State.evaluate_link s


/-! ### Entries of the station table (R125) -/

/-- The entry of an address after a change of the entry of another or of the same. -/
theorem ShipLink.entry_onEntry (l : ShipLink) (a : Nat) {f : Station → Station}
    (hf : ∀ x, (f x).address = x.address) (b : Nat) :
    (l.onEntry a f).entry b = (l.entry b).map fun e => if b = a then f e else e := by
  unfold onEntry entry
  dsimp only
  rw [List.find?_map]
  have same : ((fun e : Station => e.address == b) ∘ fun e => if e.address = a then f e else e)
      = fun e : Station => e.address == b := funext fun x => by
    show ((if x.address = a then f x else x).address == b) = _
    split
    · rw [hf]
    · rfl
  rw [same]
  cases h : l.stations.find? fun e => e.address == b with
  | none => rfl
  | some e =>
    have address : e.address = b := by simpa using List.find?_some h
    rw [Option.map_some, Option.map_some, address]

theorem Station.miss_address (e : Station) (checked : Bool) : (e.miss checked).address = e.address := by
  unfold miss
  dsimp only
  split
  · split <;> rfl
  · rfl

theorem Station.good_address (e : Station) (st : ShipStatus) (scp : Bool) :
    (e.good st scp).address = e.address := rfl

/-- Every entry stands, but for its last poll time. -/
def ShipLink.KeepsEntries (l m : ShipLink) : Prop :=
  ∀ a e, l.entry a = some e → ∃ p, m.entry a = some { e with lastPoll := p }

theorem ShipLink.KeepsEntries.of_stations {l m : ShipLink} (h : m.stations = l.stations) :
    l.KeepsEntries m := fun a e he => ⟨e.lastPoll, by unfold entry at he ⊢; rw [h, he]⟩

theorem ShipLink.KeepsEntries.trans {l m n : ShipLink} (h : l.KeepsEntries m)
    (g : m.KeepsEntries n) : l.KeepsEntries n := fun a e he => by
  obtain ⟨p, hp⟩ := h a e he
  obtain ⟨q, hq⟩ := g a _ hp
  exact ⟨q, hq⟩

theorem ShipLink.send_entries (l : ShipLink) (f : LeaderFrame) (now : RunCount) :
    l.KeepsEntries (l.send f now) := by
  unfold send
  dsimp only
  split
  · next b _ =>
    intro a e he
    rw [ShipLink.entry_onEntry (f := fun x => { x with lastPoll := some now }) _ _ fun _ => rfl]
    refine ⟨if a = b then some now else e.lastPoll, ?_⟩
    rw [show ({ l with activity := .sending f } : ShipLink).entry a = some e from he, Option.map_some]
    split <;> rfl
  · exact .of_stations rfl

theorem ShipLink.slotStep_entries (l : ShipLink) (now : RunCount) :
    l.KeepsEntries (l.slotStep now) := by
  unfold slotStep
  split
  · split
    · exact (l.send_entries _ now).trans (.of_stations rfl)
    · exact .of_stations rfl
  · exact .of_stations rfl

theorem ShipLink.attentionStep_entries (l : ShipLink) (queries : Nat) (now : RunCount) :
    l.KeepsEntries (l.attentionStep queries now) := by
  unfold attentionStep
  split
  · exact (l.send_entries _ now).trans (.of_stations rfl)
  · exact l.slotStep_entries now

theorem Berth.nextPoll_entries (b : Berth) (upTo : Nat) (now : RunCount) :
    b.sl.KeepsEntries (b.nextPoll upTo now).sl := by
  unfold nextPoll
  split
  · exact (b.sl.send_entries _ now).trans (.of_stations rfl)
  · exact b.sl.attentionStep_entries 0 now

theorem Berth.beginCycle_entries (b : Berth) (now : RunCount) :
    b.sl.KeepsEntries (b.beginCycle now).sl :=
  (ShipLink.KeepsEntries.of_stations (m := { b.sl with
    state := .cycling, cycleFrom := now, activity := .quiet, step := .polls 0 }) rfl).trans
    (Berth.nextPoll_entries { b with sl := { b.sl with
      state := .cycling, cycleFrom := now, activity := .quiet, step := .polls 0 } } 0 now)

/-- The leader's going on sets last poll times alone in the table (R128, R129, R131). -/
theorem Berth.resume_entries (b : Berth) (now : RunCount) : b.sl.KeepsEntries (b.resume now).sl := by
  unfold resume
  split
  · split
    · exact b.beginCycle_entries now
    · exact (b.sl.send_entries _ now).trans (.of_stations rfl)
  · exact b.nextPoll_entries _ now
  · exact b.sl.attentionStep_entries _ now
  · exact .of_stations rfl
  · exact .of_stations rfl

/-- The hand-overs of a loss leave the station table (R126, R130, R135). -/
theorem State.handLoss_stations (s : State) (o : Outlet) (k : Option StationKind) :
    ((s.handLoss o k).berth o).sl.stations = (s.berth o).sl.stations := by
  unfold State.handLoss
  split
  · rw [s.complete_link o .scpLost o]
  · rw [(s.onSl o ShipLink.losePms).judgeGenerators_link o o, State.berth_onSl_self]
    rfl
  · rfl
  · rfl

/-! ### What a change of SL keeps -/

/-- A trip stands over what the leader does next. -/
theorem Tripped.onLink {o : Outlet} {c : Cause} {s t : State} (h : Tripped o c s t) {f : Berth → Berth}
    (hf : ∀ b, f b = { b with sl := (f b).sl }) : Tripped o c s (t.onBerth o f) := by
  have berth : (t.onBerth o f).berth o = { t.berth o with sl := (f (t.berth o)).sl } := by
    rw [State.berth_onBerth_self]; exact hf _
  obtain ⟨state, cause, session, declaration, target, mode, close, drive, postTrip, counts, watches,
    later, meter, running, starting, flag⟩ := h
  constructor
  case running => exact running
  case starting => exact starting
  case flag => exact flag
  all_goals rw [berth]; assumption

theorem NoFault.onBerth (s : State) (o : Outlet) (f : Berth → Berth) : NoFault s (s.onBerth o f) :=
  ⟨rfl, rfl, rfl⟩

/-! ### A reply that does not come, or comes bad (R123, R130) -/

/-- The commands that end the reply window of a polled station without a good frame. -/
theorem exec_missed {s : State} {o : Outlet} {a : Nat} {held checked : Bool} {i : Instr}
    (h : s.expects o a) (hi : (i = .replyWindowClose o held ∧ checked = false)
      ∨ ((∃ src, i = .badFrame o held src) ∧ checked = true)
      ∨ ((∃ src, i = .incompleteFrame o held src) ∧ checked = true)) :
    exec i s = .next (((s.noteHeld o held).miss o a checked).resume o).settle := by
  obtain ⟨since, ⟨shore, window⟩ | window⟩ := h <;>
    rcases hi with ⟨rfl, rfl⟩ | ⟨⟨src, rfl⟩, rfl⟩ | ⟨⟨src, rfl⟩, rfl⟩
  case inl.inl | inr.inl =>
    show execReplyWindowClose o held s = _
    unfold execReplyWindowClose
    rw [window]
    rfl
  all_goals
    show Host.Outcome.next (s.hear o held _) = _
    unfold State.hear
    rw [window]
    rfl

/-- A miss of an entry comes to the entry and, where it is lost, to the hand-overs of the loss. -/
theorem State.miss_eq {s : State} {o : Outlet} {a : Nat} {e : Station} (checked : Bool)
    (h : (s.berth o).sl.entry a = some e) : s.miss o a checked
      = if e.state = .present ∧ (e.miss checked).state = .lost then
          (s.onSl o fun l => l.onEntry a fun x => x.miss checked).handLoss o e.kind
        else s.onSl o fun l => l.onEntry a fun x => x.miss checked := by
  unfold State.miss
  rw [h]

/-- A miss takes an entry to LOST where it is the third of a PRESENT one (R130). -/
theorem Station.miss_present {e : Station} (checked : Bool) (h : e.state = .present) :
    (e.misses < 2 → e.miss checked = { e with
        checkErrors := if checked then min 255 (e.checkErrors + 1) else e.checkErrors
        misses := e.misses + 1 })
      ∧ (2 ≤ e.misses → e.miss checked = { e with
        checkErrors := if checked then min 255 (e.checkErrors + 1) else e.checkErrors
        misses := 3, state := .lost }) := by
  unfold miss
  dsimp only
  rw [if_pos h]
  exact ⟨fun few => if_neg (by omega), fun third => if_pos third⟩

theorem Station.miss_absent {e : Station} (checked : Bool) (h : e.state ≠ .present) :
    e.miss checked = { e with
      checkErrors := if checked then min 255 (e.checkErrors + 1) else e.checkErrors } := by
  unfold miss
  exact if_neg h

/-- The station table after a miss. -/
theorem State.miss_entry {s : State} {o : Outlet} {a : Nat} {e : Station} (checked : Bool)
    (h : (s.berth o).sl.entry a = some e) :
    ((s.miss o a checked).berth o).sl.entry a = some (e.miss checked) := by
  have missed : ((s.onSl o fun l => l.onEntry a fun x => x.miss checked).berth o).sl.entry a
      = some (e.miss checked) := by
    rw [State.berth_onSl_self]
    show ((s.berth o).sl.onEntry a _).entry a = _
    rw [ShipLink.entry_onEntry _ _ fun x => x.miss_address checked, h, Option.map_some, if_pos rfl]
  rw [State.miss_eq checked h]
  split
  · unfold ShipLink.entry at missed ⊢
    rw [State.handLoss_stations]
    exact missed
  · exact missed

/-- The leader's going on, and the passes of the step's end, in the table. -/
theorem State.resume_settle_entry {s : State} {o : Outlet} {a : Nat} {e : Station}
    (h : (s.berth o).sl.entry a = some e) :
    ∃ p, ((s.resume o).settle.berth o).sl.entry a = some { e with lastPoll := p } := by
  rw [State.settle_link _ o, State.resume, State.berth_onBerth_self]
  exact Berth.resume_entries _ _ a e h

/-- The loss of the SCP entry trips an outlet in CLOSING or a breaker-closed state (Table 6-2). -/
theorem Cause.link_tripsIn {c : Cause} {st : OutletState} (hc : c = .scpLost ∨ c = .shipStop)
    (h : st = .closing ∨ st.breakerClosed = true) : c.tripsIn st = true := by
  revert h
  rcases hc with rfl | rfl <;> cases st <;> decide

/-- A third miss of the SCP entry trips an outlet in CLOSING or a breaker-closed state (R109, R130). -/
theorem State.miss_trips {s : State} {o : Outlet} {a : Nat} {e : Station} (checked : Bool)
    (h : (s.berth o).sl.entry a = some e) (present : e.state = .present) (third : 2 ≤ e.misses)
    (kind : e.kind = some .scp)
    (state : (s.berth o).sc.state = .closing ∨ (s.berth o).sc.state.breakerClosed = true) :
    s.miss o a checked
      = (s.onSl o fun l => l.onEntry a fun x => x.miss checked).trip o .scpLost := by
  rw [State.miss_eq checked h, if_pos ⟨present, by rw [(e.miss_present checked present).2 third]⟩, kind]
  exact State.complete_trips (Cause.link_tripsIn (.inl rfl) (by rw [State.sc_onSl]; exact state))

/-- A trip of an outlet over changes of its SL alone, and the passes of the step's end. -/
theorem State.link_trips {s : State} {o : Outlet} (c : Cause) (f : ShipLink → ShipLink) :
    Tripped o c s (((s.onSl o f).trip o c).resume o).settle
      ∧ Raised c.fault s (((s.onSl o f).trip o c).resume o).settle := by
  have tripped : Tripped o c s ((s.onSl o f).trip o c) := by
    refine (State.trip_tripped _ o c).before ?_ ?_ ?_ ?_ rfl rfl fun _ _ _ => rfl <;>
      rw [State.berth_onSl_self]
  refine ⟨(tripped.onLink fun b => b.resume_rest _).after
    (State.settle_acts ⟨[], [], false, false, []⟩ _) List.not_mem_nil rfl, ?_⟩
  exact ((Raised.before (.onBerth _ _ _) (State.trip_raised _ o c)).after (.onBerth _ _ _)).after
    (State.settle_noFault _)

/-- What a miss leaves of an entry (R130). -/
theorem Station.miss_kept (e : Station) (checked : Bool) :
    (e.miss checked).checkErrors = (if checked then min 255 (e.checkErrors + 1) else e.checkErrors)
      ∧ (e.miss checked).kind = e.kind ∧ (e.miss checked).identity = e.identity
      ∧ (e.miss checked).status = e.status := by
  unfold miss
  dsimp only
  split
  · split <;> exact ⟨rfl, rfl, rfl, rfl⟩
  · exact ⟨rfl, rfl, rfl, rfl⟩

theorem State.noteHeld_entry {s : State} {o : Outlet} {held : Bool} {a : Nat} :
    ((s.noteHeld o held).berth o).sl.entry a = (s.berth o).sl.entry a := by
  rw [State.noteHeld, State.berth_onSl_self]
  rfl

/-! ### A good reply (R109, R130) -/

/-- A STATUS addressed to the leader from the station it waits for. -/
theorem exec_status_expected {s : State} {o : Outlet} {frame : ShipFrame} {st : ShipStatus}
    (h : s.expects o frame.src) (dst : frame.dst = 31) (payload : readStatus frame.payload = some st)
    (held : Bool) : exec (.status o held frame) s
      = .next (((s.noteHeld o held).goodReply o frame.src st).resume o).settle := by
  have heard : exec (.status o held frame) s = .next (s.hear o held (.status frame.src st)) := by
    show execStatus o held frame s = _
    unfold execStatus
    rw [payload]
    dsimp only
    rw [if_pos dst]
  rw [heard]
  unfold State.hear
  obtain ⟨since, ⟨shore, window⟩ | window⟩ := h <;>
    · rw [window]
      dsimp only
      unfold State.reply
      dsimp only
      rw [if_pos rfl]

/-- The table holds the reply, protection not yet having taken it. -/
def State.replied (s : State) (o : Outlet) (a : Nat) (st : ShipStatus) : State :=
  s.onSl o fun l => l.onEntry a fun e => e.good st ((s.berth o).sl.isScp a)

/-- A good reply of a station that is not the SCP. -/
theorem State.goodReply_other {s : State} {o : Outlet} {a : Nat} {st : ShipStatus}
    (h : (s.berth o).sl.isScp a = false) : s.goodReply o a st
      = if st.stop then (s.replied o a st).complete o .shipStop else s.replied o a st := by
  unfold State.goodReply
  dsimp only
  rw [if_neg (by rw [h]; decide)]
  rfl

theorem State.noteHeld_isScp {s : State} {o : Outlet} {held : Bool} {a : Nat} :
    ((s.noteHeld o held).berth o).sl.isScp a = (s.berth o).sl.isScp a := by
  rw [State.noteHeld, State.berth_onSl_self]
  rfl

theorem State.replied_entry {s : State} {o : Outlet} {a : Nat} {st : ShipStatus} {e : Station}
    (h : (s.berth o).sl.entry a = some e) :
    ((s.replied o a st).berth o).sl.entry a = some (e.good st ((s.berth o).sl.isScp a)) := by
  rw [State.replied, State.berth_onSl_self]
  show ((s.berth o).sl.onEntry a _).entry a = _
  rw [ShipLink.entry_onEntry _ _ fun x => x.good_address _ _, h, Option.map_some, if_pos rfl]

/-- Changes of SL, a cause that completes, the leader's going on and the passes of the step's end. -/
theorem State.linked_acts {s t : State} {o : Outlet} {f : ShipLink → ShipLink}
    (h : Acts ⟨[o], [], false, false, entryKinds⟩ (s.onSl o f) t) :
    Acts ⟨[o], [], false, false, entryKinds⟩ s (t.resume o).settle :=
  (((Acts.onSl s o f List.mem_cons_self).trans h).trans
    (State.resume_acts _ o List.mem_cons_self)).trans (State.settle_acts _ _)

end Sys2Proof.Machine

namespace Sys2Proof.Proofs

open Machine

/-- A miss of the station polled (R123, R130). -/
theorem polledStationMisses (o : Outlet) (held checked : Bool) (s : State) (a : Nat) (e : Station)
    (i : Instr) (expects : s.expects o a) (entry : (s.berth o).sl.entry a = some e)
    (hi : (i = .replyWindowClose o held ∧ checked = false)
      ∨ ((∃ src, i = .badFrame o held src) ∧ checked = true)
      ∨ ((∃ src, i = .incompleteFrame o held src) ∧ checked = true)) :
    (∃ t e', exec i s = .next t ∧ (t.berth o).sl.entry a = some e'
       ∧ e'.checkErrors = (if checked then min 255 (e.checkErrors + 1) else e.checkErrors)
       ∧ (e.state = .present → e.misses < 2 →
           e'.state = .present ∧ e'.misses = e.misses + 1)
       ∧ (e.state = .present → 2 ≤ e.misses → e'.state = .lost ∧ e'.misses = 3)
       ∧ (e.state ≠ .present → e'.state = e.state ∧ e'.misses = e.misses)
       ∧ e'.kind = e.kind ∧ e'.identity = e.identity ∧ e'.status = e.status
       ∧ Elsewhere [o] [] s t ∧ KeepsAccount s t ∧ t.metering = s.metering)
     ∧ (e.state = .present → 2 ≤ e.misses → e.kind = some .scp →
       (s.berth o).sc.state = .closing ∨ (s.berth o).sc.state.breakerClosed = true →
       ∃ t, exec i s = .next t ∧ Tripped o .scpLost s t ∧ Raised .scpLost s t) := by
  have hexec := exec_missed expects hi
  have noted : ((s.noteHeld o held).berth o).sl.entry a = some e := State.noteHeld_entry.trans entry
  refine ⟨?_, fun present third kind state => ⟨_, hexec, ?_⟩⟩
  · obtain ⟨p, final⟩ := State.resume_settle_entry (State.miss_entry checked noted)
    obtain ⟨errors, kind, identity, status⟩ := e.miss_kept checked
    have acts := State.linked_acts (s := s) (f := fun l => { l with attention := held })
      (State.miss_acts (s.noteHeld o held) o a checked List.mem_cons_self fun _ h => h)
    refine ⟨_, { e.miss checked with lastPoll := p }, hexec, final, errors, fun present few => ?_,
      fun present third => ?_, fun absent => ?_, kind, identity, status, acts.frame⟩
    · rw [(e.miss_present checked present).1 few]; exact ⟨present, rfl⟩
    · rw [(e.miss_present checked present).2 third]; exact ⟨rfl, rfl⟩
    · rw [e.miss_absent checked absent]; exact ⟨rfl, rfl⟩
  · have trips := State.miss_trips checked noted present third kind (by
      rw [State.noteHeld, State.sc_onSl]; exact state)
    rw [State.noteHeld, State.onSl_onSl] at trips
    rw [State.noteHeld, trips]
    exact State.link_trips .scpLost _

/-- Settles O33: the misses and the good replies of polled stations. -/
theorem repliesOfPolledStations : Obligations.RepliesOfPolledStations := by
  refine ⟨polledStationMisses, fun o held frame s st e expects dst payload entry other => ?_⟩
  have hexec := exec_status_expected expects dst payload held
  have good := State.goodReply_other (st := st) ((State.noteHeld_isScp (held := held)).trans other)
  have noted : ((s.noteHeld o held).berth o).sl.entry frame.src = some e :=
    State.noteHeld_entry.trans entry
  refine ⟨?_, fun stop state => ⟨_, hexec, ?_⟩⟩
  · have replied := State.replied_entry (st := st) noted
    rw [State.noteHeld_isScp, other] at replied
    have held_entry : (((s.noteHeld o held).goodReply o frame.src st).berth o).sl.entry frame.src
        = some (e.good st false) := by
      rw [good]
      split
      · rw [State.complete_link _ o .shipStop o]; exact replied
      · exact replied
    obtain ⟨p, final⟩ := State.resume_settle_entry held_entry
    have acts : Acts ⟨[o], [], false, false, entryKinds⟩ s
        (((s.noteHeld o held).goodReply o frame.src st).resume o).settle := by
      refine State.linked_acts (s := s) (f := fun l => { l with attention := held }) ?_
      show Acts _ (s.noteHeld o held) _
      rw [good]
      split
      · exact (Acts.onSl _ _ _ List.mem_cons_self).trans
          (State.complete_acts _ _ _ List.mem_cons_self
            (show Cause.shipStop.fault ∈ entryKinds by decide))
      · exact Acts.onSl _ _ _ List.mem_cons_self
    obtain ⟨elsewhere, account, metering⟩ := acts.frame
    refine ⟨_, { e.good st false with lastPoll := p }, hexec, final, rfl, rfl, rfl, rfl, rfl, rfl,
      elsewhere, account, metering, fun quiet => ?_⟩
    rw [good, if_neg (by rw [quiet]; decide)]
    refine ⟨((NoFault.onBerth s o _).trans (.onBerth _ o _)).trans
      ((NoFault.onBerth _ o _).trans (State.settle_noFault _)), fun awake => ?_⟩
    have sc : ((((s.noteHeld o held).replied o frame.src st).resume o).berth o).sc
        = (s.berth o).sc := by
      rw [State.resume, State.berth_onBerth_self, Berth.resume_rest]
      show (((s.noteHeld o held).replied o frame.src st).berth o).sc = _
      rw [State.replied, State.sc_onSl, State.noteHeld, State.sc_onSl]
    refine (State.settle_berth ?_).sc.trans sc
    show ((((s.noteHeld o held).replied o frame.src st).resume o).berth o).sc.state ≠ _
    rw [sc]
    exact beq_eq_false_iff_ne.mp awake
  · have trips : ((s.noteHeld o held).replied o frame.src st).complete o .shipStop = _ :=
      State.complete_trips (Cause.link_tripsIn (.inr rfl) (by
        rw [State.replied, State.sc_onSl, State.noteHeld, State.sc_onSl]; exact state))
    rw [good, if_pos stop, trips]
    have folded := s.onSl_onSl o (fun l => { l with attention := held }) fun l =>
      l.onEntry frame.src fun e => e.good st (((s.noteHeld o held).berth o).sl.isScp frame.src)
    have same : (s.noteHeld o held).replied o frame.src st = _ := folded
    rw [same]
    exact State.link_trips .shipStop _

end Sys2Proof.Proofs
end

