-- ==== Sys2Proof/Proofs/Enlisting.lean ====
section
/-! PROOFS. Answers and collisions: stations enlisted, refused and found sharing an address (R124 to R128). -/

namespace Sys2Proof.Machine

open Sys2Proof

/-! ### The station table -/

/-- An entry is put after those of no greater address (R125). -/
theorem insertStation_split (e : Station) (l : List Station) : ∃ before after, l = before ++ after
    ∧ insertStation e l = before ++ e :: after
    ∧ (∀ x ∈ before, x.address ≤ e.address)
    ∧ ∀ x, after.head? = some x → e.address < x.address := by
  induction l with
  | nil => exact ⟨[], [], rfl, rfl, nofun, nofun⟩
  | cons f rest ih =>
    unfold insertStation
    split
    · next h =>
      refine ⟨[], f :: rest, rfl, rfl, nofun, fun x hx => ?_⟩
      cases hx
      exact h
    · next h =>
      obtain ⟨before, after, split, inserted, low, high⟩ := ih
      refine ⟨f :: before, after, by rw [split]; rfl, by rw [inserted]; rfl, fun x hx => ?_, high⟩
      rcases List.mem_cons.mp hx with rfl | hx
      · omega
      · exact low x hx

theorem ShipLink.entry_none {l : ShipLink} {a : Nat} :
    l.entry a = none ↔ ∀ e ∈ l.stations, e.address ≠ a := by
  unfold entry
  rw [List.find?_eq_none]
  simp

/-- An entry put at an address that had none is the entry of the address. -/
theorem ShipLink.entry_insert {l m : ShipLink} {e : Station} (h : l.entry e.address = none)
    (hm : m.stations = insertStation e l.stations) : m.entry e.address = some e := by
  obtain ⟨before, after, split, inserted, -⟩ := insertStation_split e l.stations
  unfold entry
  rw [hm, inserted]
  refine List.find?_eq_some_iff_append.mpr ⟨by simp, before, after, rfl, fun x hx => ?_⟩
  have := ShipLink.entry_none.mp h x (by rw [split]; exact List.mem_append_left _ hx)
  simpa using this

/-- A change of the entries of an address changes no other. -/
theorem map_at_of_absent {f : Station → Station} {a : Nat} {l : List Station}
    (h : ∀ e ∈ l, e.address ≠ a) : (l.map fun x => if x.address = a then f x else x) = l := by
  refine (List.map_congr_left fun x hx => if_neg (h x hx)).trans (List.map_id _)

/-! ### What comes of a loss in SL (R130, R135) -/

/-- The hand-overs of a loss change no more of SL than the readings, which become UNKNOWN with the loss of a
PMS. -/
theorem State.handLoss_link (s : State) (o : Outlet) (k : Option StationKind) :
    ∃ g, ((s.handLoss o k).berth o).sl = { (s.berth o).sl with generators := g }
      ∧ (k = some .pms → ∀ x ∈ g, x.breaker = .unknown) := by
  unfold State.handLoss
  split
  · exact ⟨(s.berth o).sl.generators, s.complete_link o .scpLost o, nofun⟩
  · refine ⟨(s.berth o).sl.losePms.generators,
      ((s.onSl o ShipLink.losePms).judgeGenerators_link o o).trans ?_, fun _ x hx => ?_⟩
    · rw [State.berth_onSl_self]
      rfl
    obtain ⟨g, -, rfl⟩ := List.mem_map.mp hx
    rfl
  · exact ⟨_, rfl, nofun⟩
  · exact ⟨_, rfl, nofun⟩

/-! ### Calls (R124, R126) -/

/-- The state as an answer or a third collision finds it: the level of the pair noted, the count 0. -/
def State.called (s : State) (o : Outlet) (held : Bool) : State :=
  s.onSl o fun l => { l with attention := held, collisions := 0 }

theorem State.called_sl (s : State) (o : Outlet) (held : Bool) :
    ((s.called o held).berth o).sl = { (s.berth o).sl with attention := held, collisions := 0 } := by
  rw [State.called, State.berth_onSl_self]

theorem State.called_entry {s : State} {o : Outlet} {held : Bool} {a : Nat} :
    ((s.called o held).berth o).sl.entry a = (s.berth o).sl.entry a := by
  rw [State.called_sl]
  rfl

theorem State.noteHeld_settleCount (s : State) (o : Outlet) (held : Bool) :
    (s.noteHeld o held).onSl o ShipLink.settleCount = s.called o held := State.onSl_onSl _ _ _ _

/-- A PRESENT addressed to the leader in answer to its call. -/
theorem exec_present_called {s : State} {o : Outlet} {frame : ShipFrame} {k : StationKind}
    {id : BitVec 32} (calls : s.calls o) (dst : frame.dst = 31) (low : 1 ≤ frame.src)
    (high : frame.src ≤ 30) (payload : readPresent frame.payload = some (k, id)) (held : Bool) :
    exec (.present o held frame) s
      = .next ((s.noteHeld o held).answer o frame.src k id).settle := by
  have heard : exec (.present o held frame) s = .next (s.hear o held (.present frame.src k id)) := by
    show execPresent o held frame s = _
    unfold execPresent
    rw [payload]
    dsimp only
    rw [if_pos dst]
  rw [heard]
  unfold State.hear
  obtain ⟨since, ⟨mark, window⟩ | window⟩ := calls <;>
    · rw [window]
      dsimp only
      unfold State.reply
      dsimp only
      rw [if_pos ⟨low, high⟩]

/-- A bad or incomplete frame in answer to the leader's call is a collision. -/
theorem exec_collides {s : State} {o : Outlet} {a : Nat} {i : Instr} {held : Bool}
    (calls : s.calls o) (hi : i = .badFrame o held a ∨ i = .incompleteFrame o held (some a)) :
    exec i s = .next ((s.noteHeld o held).collision o (some a)).settle := by
  have heard : exec i s = .next (s.hear o held (.bad (some a))) := by
    rcases hi with rfl | rfl <;> rfl
  rw [heard]
  unfold State.hear
  obtain ⟨since, ⟨mark, window⟩ | window⟩ := calls <;>
    · rw [window]
      rfl

/-- The third collision of an address finds it shared (R127). -/
theorem State.collision_third {s : State} {o : Outlet} {a : Nat} (held : Bool)
    (address : (s.berth o).sl.collisionAddress = some a) (two : (s.berth o).sl.collisions = 2) :
    (s.noteHeld o held).collision o (some a) = (s.called o held).foundShared o a := by
  have shared : ((s.noteHeld o held).berth o).sl.findsShared (some a) = true := by
    rw [State.noteHeld, State.berth_onSl_self]
    unfold ShipLink.findsShared ShipLink.collide
    dsimp only
    rw [if_pos address, two]
    rfl
  have counted : (((s.noteHeld o held).onSl o fun l => l.collide a).onSl o fun l =>
      { l with collisions := 0 }) = s.called o held := by
    refine (congrArg (fun t : State => t.onSl o _) (State.onSl_onSl _ _ _ _)).trans
      ((State.onSl_onSl _ _ _ _).trans (State.onSl_congr ?_))
    unfold ShipLink.collide
    dsimp only
    rw [if_pos address]
  unfold State.collision State.countCollision
  dsimp only
  rw [if_pos shared, if_pos shared, counted]

/-- An earlier collision of the address is counted, and the leader goes on (R127). -/
theorem State.collision_earlier {s : State} {o : Outlet} {a : Nat} (held : Bool)
    (address : (s.berth o).sl.collisionAddress = some a) (few : (s.berth o).sl.collisions < 2) :
    (s.noteHeld o held).collision o (some a) = (s.onSl o fun l => { l with
      attention := held, collisions := l.collisions + 1 }).resume o := by
  have unshared : ((s.noteHeld o held).berth o).sl.findsShared (some a) = false := by
    rw [State.noteHeld, State.berth_onSl_self]
    unfold ShipLink.findsShared ShipLink.collide
    dsimp only
    rw [if_pos address]
    exact beq_eq_false_iff_ne.mpr (by show (s.berth o).sl.collisions + 1 ≠ 3; omega)
  have counted : ((s.noteHeld o held).onSl o fun l => l.collide a) = s.onSl o fun l => { l with
      attention := held, collisions := l.collisions + 1 } := by
    refine (State.onSl_onSl _ _ _ _).trans (State.onSl_congr ?_)
    unfold ShipLink.collide
    dsimp only
    rw [if_pos address]
  unfold State.collision State.countCollision
  dsimp only
  rw [if_neg (by rw [unshared]; decide), if_neg (by rw [unshared]; decide), counted]

/-! ### What an answer comes to (the table of R126) -/

/-- A PRESENT from an address without an entry. -/
theorem State.answer_new {s : State} {o : Outlet} {a : Nat} (held : Bool) (k : StationKind)
    (id : BitVec 32) (h : (s.berth o).sl.entry a = none) :
    (s.noteHeld o held).answer o a k id
      = if !(s.berth o).sl.full && (s.berth o).sl.admits k then
          (s.called o held).enlistStation o a k id else (s.called o held).refuseStation o a := by
  have entry := (State.called_entry (held := held)).trans h
  unfold State.answer
  rw [State.noteHeld_settleCount]
  dsimp only
  rw [entry]
  dsimp only
  rw [State.called_sl]
  rfl

/-- A PRESENT from an address whose entry is DUPLICATE (R126). -/
theorem State.answer_duplicate {s : State} {o : Outlet} {a : Nat} {e : Station} (held : Bool)
    (k : StationKind) (id : BitVec 32) (h : (s.berth o).sl.entry a = some e)
    (duplicate : e.state = .duplicate) :
    (s.noteHeld o held).answer o a k id = (s.called o held).sendEnlisted o a .duplicate := by
  have entry := (State.called_entry (held := held)).trans h
  unfold State.answer
  rw [State.noteHeld_settleCount]
  dsimp only
  rw [entry]
  exact if_pos duplicate

/-- A PRESENT of the station that holds the address (note d of R126, R131). -/
theorem State.answer_same {s : State} {o : Outlet} {a : Nat} {e : Station} (held : Bool)
    {k : StationKind} {id : BitVec 32} (h : (s.berth o).sl.entry a = some e)
    (unshared : e.state ≠ .duplicate) (kind : e.kind = some k) (identity : e.identity = some id) :
    (s.noteHeld o held).answer o a k id
      = if (s.berth o).sl.step.isAttention then
          (s.called o held).onBerth o fun b => b.sendPoll a s.tb.run
        else (s.called o held).sendEnlisted o a .accepted := by
  have entry := (State.called_entry (held := held)).trans h
  unfold State.answer
  rw [State.noteHeld_settleCount]
  dsimp only
  rw [entry]
  dsimp only
  rw [if_neg unshared, if_pos ⟨kind, identity⟩, State.called_sl]
  rfl

/-- A PRESENT from an address held by another station (R126). -/
theorem State.answer_shared {s : State} {o : Outlet} {a : Nat} {e : Station} (held : Bool)
    {k : StationKind} {id : BitVec 32} (h : (s.berth o).sl.entry a = some e)
    (unshared : e.state ≠ .duplicate) (other : ¬ (e.kind = some k ∧ e.identity = some id)) :
    (s.noteHeld o held).answer o a k id
      = ((s.called o held).makeDuplicate o e).sendEnlisted o a .duplicate := by
  have entry := (State.called_entry (held := held)).trans h
  unfold State.answer
  rw [State.noteHeld_settleCount]
  dsimp only
  rw [entry]
  dsimp only
  rw [if_neg unshared, if_neg other]

/-! ### What an address found shared comes to (R127) -/

theorem State.foundShared_entry {s : State} {o : Outlet} {a : Nat} {e : Station}
    (h : (s.berth o).sl.entry a = some e) : s.foundShared o a
      = if e.state = .duplicate then s.sendEnlisted o a .duplicate
        else (s.makeDuplicate o e).sendEnlisted o a .duplicate := by
  unfold State.foundShared
  dsimp only
  rw [h]

theorem State.foundShared_none {s : State} {o : Outlet} {a : Nat}
    (h : (s.berth o).sl.entry a = none) : s.foundShared o a
      = if (s.berth o).sl.full then s.refuseStation o a
        else ((s.onSl o fun l => { l with stations := insertStation (.shared a) l.stations }).raise
          .stationDuplicate (.outlet o) (some a)).sendEnlisted o a .duplicate := by
  unfold State.foundShared
  dsimp only
  rw [h]

/-- The leader begins to answer DUPLICATE. -/
theorem State.called_sendDuplicate (s : State) (o : Outlet) (held : Bool) (a : Nat) :
    (s.called o held).sendEnlisted o a .duplicate = s.onSl o fun l => { l with
      attention := held, collisions := 0, activity := .sending (.enlisted a .duplicate) } :=
  State.onSl_onSl _ _ _ _

theorem ShipLink.full_iff {l : ShipLink} : l.full = true ↔ 6 ≤ l.stations.length := decide_eq_true_iff

/-- A refusal as SL begins it: with the table full no further ROLL_CALL is to come (R126, R127). -/
theorem State.called_refuse (s : State) (o : Outlet) (held : Bool) (a : Nat) :
    (s.called o held).refuseStation o a = (s.onSl o fun l => ({ (if l.full then l.endsRoll else l) with
      attention := held, collisions := 0
      activity := .sending (.enlisted a .refused) } : ShipLink)).report
        .tooManyStations (.outlet o) (some a) := by
  have refused : (((s.called o held).onSl o fun l => if l.full then l.endsRoll else l).onSl o fun l =>
      l.enlist a .refused s.tb.run) = s.onSl o fun l => { (if l.full then l.endsRoll else l) with
        attention := held, collisions := 0, activity := .sending (.enlisted a .refused) } := by
    refine (congrArg (fun t : State => t.onSl o _) (State.onSl_onSl _ _ _ _)).trans
      ((State.onSl_onSl _ _ _ _).trans (State.onSl_congr ?_))
    generalize (s.berth o).sl = l
    obtain ⟨state, stations, generators, collisions, address, wakeFrom, wakeLength, activity, step,
      cycleFrom, inDiscovery, missFrom, lookFrom, attention⟩ := l
    unfold ShipLink.full ShipLink.endsRoll
    dsimp only
    split
    · cases step <;> rfl
    · rfl
  exact congrArg (fun t : State => t.report .tooManyStations (.outlet o) (some a)) refused

/-- A station turned away while the table has room. -/
theorem State.called_refuse_room {s : State} {o : Outlet} {held : Bool} (a : Nat)
    (room : (s.berth o).sl.stations.length < 6) :
    (s.called o held).refuseStation o a = (s.onSl o fun l => { l with
      attention := held, collisions := 0, activity := .sending (.enlisted a .refused) }).report
        .tooManyStations (.outlet o) (some a) := by
  rw [State.called_refuse]
  refine congrArg (fun t : State => t.report .tooManyStations (.outlet o) (some a))
    (State.onSl_congr ?_)
  rw [if_neg fun h => absurd room (Nat.not_lt.mpr (ShipLink.full_iff.mp h))]

/-- A station turned away that finds the table full (note c of R126, R127). -/
theorem State.called_turnedAway {s : State} {o : Outlet} {held : Bool} (a : Nat)
    (full : 6 ≤ (s.berth o).sl.stations.length) :
    (s.called o held).refuseStation o a = s.turnedAwayStation o held a := by
  rw [State.called_refuse]
  refine congrArg (fun t : State => t.report .tooManyStations (.outlet o) (some a))
    (State.onSl_congr ?_)
  rw [if_pos (ShipLink.full_iff.mpr full)]
  generalize (s.berth o).sl = l
  obtain ⟨state, stations, generators, collisions, address, wakeFrom, wakeLength, activity, step,
    cycleFrom, inDiscovery, missFrom, lookFrom, attention⟩ := l
  cases step <;> rfl

/-! ### A flag that stands -/

/-- A fault raised shows its flag (R160). -/
theorem Raised.flag {k : FaultKind} {s t : State} (h : Raised k s t) :
    t.fe.flags &&& k.bit = k.bit := by
  rw [h.flags]
  ext i
  simp only [BitVec.getElem_and, BitVec.getElem_or]
  cases s.fe.flags[i] <;> simp

/-- A flag that is set stays so (R160). -/
theorem Acts.flag_stands {x : Scope} {s t : State} (h : Acts x s t) {k : FaultKind}
    (set : s.fe.flags &&& k.bit = k.bit) : t.fe.flags &&& k.bit = k.bit :=
  calc t.fe.flags &&& k.bit
      = t.fe.flags &&& (s.fe.flags &&& k.bit) := by rw [set]
    _ = (s.fe.flags &&& t.fe.flags) &&& k.bit := by
        rw [← BitVec.and_assoc, BitVec.and_comm t.fe.flags]
    _ = k.bit := by rw [h.flags, set]

/-! ### An entry found shared (note e of R126, R127) -/

/-- The fault kinds of the ship link. -/
def linkKinds : List FaultKind := .stationDuplicate :: entryKinds

theorem entryKinds_link : ∀ k ∈ entryKinds, k ∈ linkKinds := fun _ h => List.mem_cons_of_mem _ h

/-- The entry marked DUPLICATE, and the fault raised. -/
def State.marked (s : State) (o : Outlet) (e : Station) : State :=
  (s.onSl o fun l => l.onEntry e.address fun x => { x with state := .duplicate }).raise
    .stationDuplicate (.outlet o) (some e.address)

theorem State.makeDuplicate_eq (s : State) (o : Outlet) (e : Station) :
    s.makeDuplicate o e = (s.marked o e).handLoss o e.kind := rfl

theorem State.marked_berth (s : State) (o : Outlet) (e : Station) : (s.marked o e).berth o
    = { s.berth o with sl := (s.berth o).sl.onEntry e.address fun x => { x with state := .duplicate } } := by
  rw [State.marked, State.berth_raise, State.berth_onSl_self]

/-- An entry in PRESENT or LOST found shared, answered so (note e of R126). -/
theorem State.called_shared {s : State} {o : Outlet} {held : Bool} {a : Nat} {e : Station}
    (h : (s.berth o).sl.entry a = some e) :
    ((((s.called o held).makeDuplicate o e).sendEnlisted o a .duplicate).settle.berth o).sl.entry a
        = some { e with state := .duplicate }
      ∧ FoundShared o a e.kind s
        (((s.called o held).makeDuplicate o e).sendEnlisted o a .duplicate).settle := by
  obtain ⟨u, hu⟩ : ∃ u, u = (s.called o held).marked o e := ⟨_, rfl⟩
  have address : e.address = a := by simpa using List.find?_some h
  have called := s.called_sl o held
  have marked : (u.berth o).sl = { (s.berth o).sl with
      attention := held, collisions := 0
      stations := ((s.berth o).sl.onEntry a fun x => { x with state := .duplicate }).stations } := by
    rw [hu, State.marked_berth, called, address]
    rfl
  have sc : (u.berth o).sc = (s.berth o).sc := by
    rw [hu, State.marked_berth, State.called, State.sc_onSl]
  have raised : Raised .stationDuplicate s u := by
    rw [hu]
    exact .before (t := (s.called o held).onSl o fun l =>
      l.onEntry e.address fun x => { x with state := .duplicate }) ⟨rfl, rfl, rfl⟩
      (State.raise_raised _ _ _ _)
  obtain ⟨g, handed, unknown⟩ := u.handLoss_link o e.kind
  have sent : (((((s.called o held).makeDuplicate o e).sendEnlisted o a .duplicate).settle).berth o).sl
      = { (u.berth o).sl with
          generators := g, activity := .sending (.enlisted a .duplicate) } := by
    rw [State.settle_link _ o, State.sendEnlisted, State.berth_onSl_self, State.makeDuplicate_eq, ← hu,
      handed]
    rfl
  have after : Acts ⟨[o], [], false, false, linkKinds⟩ u
      (((s.called o held).makeDuplicate o e).sendEnlisted o a .duplicate).settle := by
    rw [State.makeDuplicate_eq, ← hu]
    exact ((State.handLoss_acts u o e.kind List.mem_cons_self entryKinds_link).trans
      (State.sendEnlisted_acts _ o a _ List.mem_cons_self)).trans (State.settle_acts _ _)
  have before : Acts ⟨[o], [], false, false, linkKinds⟩ s u := by
    rw [hu]
    exact (Acts.onSl s o _ List.mem_cons_self).trans ((Acts.onSl _ o _ List.mem_cons_self).trans
      (.raise _ _ _ _ _ List.mem_cons_self))
  obtain ⟨elsewhere, account, metering⟩ := (before.trans after).frame
  refine ⟨?_, ?_, ?_, after.flag_stands raised.flag, fun kind state => ?_, fun kind x hx => ?_,
    elsewhere, account, metering⟩
  · rw [sent, marked]
    show ((s.berth o).sl.onEntry a _).entry a = _
    rw [ShipLink.entry_onEntry (f := fun x => { x with state := .duplicate }) _ _ fun _ => rfl, h,
      Option.map_some, if_pos rfl]
  · rw [sent, marked]
  · rw [sent]
  · have trips : u.handLoss o e.kind = u.trip o .scpLost := by
      rw [kind]
      exact State.complete_trips (Cause.link_tripsIn (.inl rfl) (by rw [sc]; exact state))
    rw [State.makeDuplicate_eq, ← hu, trips]
    have tripped : Tripped o .scpLost s (u.trip o .scpLost) := by
      refine (State.trip_tripped u o .scpLost).before (by rw [sc]) (by rw [sc]) (by rw [sc]) ?_ ?_ ?_ ?_
      · rw [hu, State.marked_berth, State.called, State.mt_onSl]
      · rw [hu]; rfl
      · rw [hu]; rfl
      · rw [hu]; exact fun _ _ _ => rfl
    exact (tripped.onLink fun _ => rfl).after (State.settle_acts ⟨[], [], false, false, []⟩ _)
      List.not_mem_nil rfl
  · rw [sent] at hx
    exact unknown kind x hx

/-- The frame that answers the station of an entry: in an attention step its POLL, and otherwise ENLISTED with
ACCEPTED (note d of R126, R131). -/
def Berth.answersAgain (b : Berth) (a : Nat) : LeaderFrame :=
  if b.sl.step.isAttention then .poll a (if b.sl.isScp a then some b.shoreState else none)
  else .enlisted a .accepted

theorem State.called_again (s : State) (o : Outlet) (held : Bool) (a : Nat) :
    (if (s.berth o).sl.step.isAttention then
        (s.called o held).onBerth o fun b => b.sendPoll a s.tb.run
      else (s.called o held).sendEnlisted o a .accepted)
    = s.onSl o fun l => { l with
        attention := held, collisions := 0, activity := .sending ((s.berth o).answersAgain a)
        stations := l.stations.map fun x =>
          if x.address = a then { x with lastPoll := some s.tb.run } else x } := by
  unfold Berth.answersAgain State.called State.sendEnlisted State.onSl
  split
  · refine (State.onBerth_onBerth _ _ _ _).trans (State.onBerth_congr ?_)
    rfl
  · refine (State.onBerth_onBerth _ _ _ _).trans (State.onBerth_congr ?_)
    rfl

/-! ### A station enlisted (R125, R126) -/

/-- A new station enlisted and told so. -/
theorem State.called_enlists {s : State} {o : Outlet} {held : Bool} {a : Nat}
    (h : (s.berth o).sl.entry a = none) (k : StationKind) (id : BitVec 32) :
    ∃ before after, (s.berth o).sl.stations = before ++ after
      ∧ (s.called o held).enlistStation o a k id = s.onBerth o (fun b => { b with
          sc := if k = .scp then { b.sc with flagsSeen := none } else b.sc
          sl := { b.sl with
            attention := held, collisions := 0
            activity := .sending (.enlisted a .accepted)
            stations := before ++
              { address := a, kind := some k, identity := some id, state := .present
                misses := 0, checkErrors := 0, status := none, lastPoll := some s.tb.run }
              :: after } })
      ∧ (∀ e ∈ before, e.address ≤ a)
      ∧ ∀ e, after.head? = some e → a < e.address := by
  obtain ⟨before, after, split, inserted, low, high⟩ :=
    insertStation_split (.enlisted a k id) (s.berth o).sl.stations
  refine ⟨before, after, split, ?_, low, high⟩
  have absent := ShipLink.entry_none.mp h
  rw [split] at absent
  have polled : (insertStation (.enlisted a k id) (s.berth o).sl.stations).map (fun x =>
      if x.address = a then { x with lastPoll := some s.tb.run } else x)
        = before ++
          { address := a, kind := some k, identity := some id, state := .present
            misses := 0, checkErrors := 0, status := none, lastPoll := some s.tb.run }
          :: after := by
    rw [inserted, List.map_append, List.map_cons,
      map_at_of_absent fun e he => absent e (List.mem_append_left _ he),
      map_at_of_absent fun e he => absent e (List.mem_append_right _ he),
      if_pos (show (Station.enlisted a k id).address = a from rfl)]
    rfl
  unfold State.enlistStation State.called State.sendEnlisted State.onSl State.onSc
  dsimp only
  by_cases scp : k = .scp
  · rw [if_pos scp]
    simp only [State.onBerth_onBerth]
    refine State.onBerth_congr ?_
    rw [if_pos scp]
    rw [← polled]
    rfl
  · rw [if_neg scp]
    simp only [State.onBerth_onBerth]
    refine State.onBerth_congr ?_
    rw [if_neg scp]
    rw [← polled]
    rfl

/-- An address without an entry found shared: its entry is made DUPLICATE, and answered so (R127). -/
theorem State.called_sharesNew {s : State} {o : Outlet} {held : Bool} {a : Nat}
    (absent : (s.berth o).sl.entry a = none) (room : (s.berth o).sl.stations.length < 6) :
    ((s.called o held).foundShared o a).berth o = { s.berth o with sl := { (s.berth o).sl with
        attention := held, collisions := 0, activity := .sending (.enlisted a .duplicate)
        stations := insertStation (.shared a) (s.berth o).sl.stations } }
      ∧ ((s.called o held).foundShared o a).passDue = s.passDue
      ∧ (s.called o held).foundShared o a = { s with
          fe := ((s.called o held).foundShared o a).fe
          berths := ((s.called o held).foundShared o a).berths }
      ∧ (∀ p, p ≠ o → ((s.called o held).foundShared o a).berth p = s.berth p)
      ∧ Raised .stationDuplicate s ((s.called o held).foundShared o a) := by
  have shared := State.foundShared_none ((State.called_entry (held := held)).trans absent)
  rw [if_neg (by
    rw [State.called_sl, ShipLink.full_iff]
    exact Nat.not_le.mpr room)] at shared
  rw [shared]
  refine ⟨?_, rfl, rfl, fun p hp => ?_, ?_⟩
  · simp only [State.sendEnlisted, State.called, State.berth_onSl_self, State.berth_raise]
    rfl
  · simp only [State.sendEnlisted, State.called, State.berth_onSl_ne _ _ hp, State.berth_raise]
  · exact (Raised.before ((NoFault.onBerth s o _).trans (.onBerth _ o _))
      (State.raise_raised _ _ _ _)).after
      ((State.sendEnlisted_acts (x := ⟨[o], [], false, false, []⟩) _ o a _ List.mem_cons_self).noFault rfl)

/-! ### The discovery's end (R128, R129) -/

/-- SL is in the same state, with the same collision count and the same cycle. -/
structure ShipLink.KeepsRun (l m : ShipLink) : Prop where
  state : m.state = l.state
  collisions : m.collisions = l.collisions
  cycleFrom : m.cycleFrom = l.cycleFrom

theorem ShipLink.send_run (l : ShipLink) (f : LeaderFrame) (now : RunCount) :
    l.KeepsRun (l.send f now) := by
  unfold send
  dsimp only
  split <;> exact ⟨rfl, rfl, rfl⟩

theorem ShipLink.slotStep_run (l : ShipLink) (now : RunCount) : l.KeepsRun (l.slotStep now) := by
  unfold slotStep
  split
  · next e _ =>
    split
    · obtain ⟨state, collisions, cycleFrom⟩ := l.send_run (.slotGrant e.address) now
      exact ⟨state, collisions, cycleFrom⟩
    · exact ⟨rfl, rfl, rfl⟩
  · exact ⟨rfl, rfl, rfl⟩

theorem ShipLink.attentionStep_run (l : ShipLink) (queries : Nat) (now : RunCount) :
    l.KeepsRun (l.attentionStep queries now) := by
  unfold attentionStep
  split
  · obtain ⟨state, collisions, cycleFrom⟩ := l.send_run .attentionQuery now
    exact ⟨state, collisions, cycleFrom⟩
  · exact l.slotStep_run now

theorem Berth.nextPoll_run (b : Berth) (upTo : Nat) (now : RunCount) :
    b.sl.KeepsRun (b.nextPoll upTo now).sl := by
  unfold nextPoll
  split
  · next e _ =>
    obtain ⟨state, collisions, cycleFrom⟩ := b.sl.send_run
      (.poll e.address (if b.sl.isScp e.address then some b.shoreState else none)) now
    exact ⟨state, collisions, cycleFrom⟩
  · exact b.sl.attentionStep_run 0 now

/-- A discovery that goes on sends the next ROLL_CALL (R128). -/
theorem State.onSl_resume_rollCall {s : State} {o : Outlet} {f : ShipLink → ShipLink} {sent : Nat}
    (step : (f (s.berth o).sl).step = .rollCall sent false) (few : sent < 24) :
    (s.onSl o f).resume o = s.onSl o fun l => { f l with
      activity := .sending (.rollCall false), step := .rollCall (sent + 1) false } := by
  unfold State.resume State.onSl
  refine (State.onBerth_onBerth _ _ _ _).trans (State.onBerth_congr ?_)
  unfold Berth.resume
  dsimp only
  rw [step]
  exact if_neg (by simpa using few)

/-- A cycle that begins changes SL alone. -/
theorem State.onBerth_cycle {s : State} {o : Outlet} {f : Berth → Berth} {l : ShipLink}
    (h : f (s.berth o) = ({ s.berth o with sl := l } : Berth).beginCycle s.tb.run) :
    ((s.onBerth o f).berth o).sl.state = .cycling
      ∧ ((s.onBerth o f).berth o).sl.collisions = l.collisions
      ∧ ((s.onBerth o f).berth o).sl.cycleFrom = s.tb.run
      ∧ s.onBerth o f = { s with berths := (s.onBerth o f).berths }
      ∧ (∀ p, p ≠ o → (s.onBerth o f).berth p = s.berth p)
      ∧ (s.onBerth o f).berth o = { s.berth o with sl := ((s.onBerth o f).berth o).sl } := by
  obtain ⟨state, collisions, cycleFrom⟩ := Berth.nextPoll_run { s.berth o with sl := { l with
    state := .cycling, cycleFrom := s.tb.run, activity := .quiet, step := .polls 0 } } 0 s.tb.run
  rw [State.berth_onBerth_self, h]
  exact ⟨state, collisions, cycleFrom, rfl, fun p hp => State.berth_onBerth_ne _ _ hp,
    Berth.beginCycle_rest _ _⟩

end Sys2Proof.Machine

namespace Sys2Proof.Proofs

open Machine

/-- What comes of a ROLL_CALL without a good answer (R127, R128, R129). -/
theorem rollCallUnanswered (o : Outlet) (held mark : Bool) (s : State) (since : RunCount) (sent : Nat)
    (window : (s.berth o).sl.activity = .window (.rollCall mark) since)
    (step : (s.berth o).sl.step = .rollCall sent false) (pass : s.passDue = false) :
    (∃ t, exec (.replyWindowClose o held) s = .next t ∧ (t.berth o).sl.state = .cycling
       ∧ (t.berth o).sl.collisions = 0 ∧ (t.berth o).sl.cycleFrom = s.tb.run
       ∧ t = { s with berths := t.berths } ∧ (∀ p, p ≠ o → t.berth p = s.berth p)
       ∧ t.berth o = { s.berth o with sl := (t.berth o).sl })
     ∧ (∀ a, (s.berth o).sl.collisionAddress = some a → (s.berth o).sl.collisions = 2 →
       (s.berth o).sl.entry a = none → (s.berth o).sl.stations.length < 6 →
       ∃ t e, exec (.badFrame o held a) s = .next t ∧ (t.berth o).sl.entry a = some e
         ∧ e.state = .duplicate ∧ e.kind = none ∧ (t.berth o).sl.collisions = 0
         ∧ (t.berth o).sl.activity = .sending (.enlisted a .duplicate)
         ∧ t = { s with fe := t.fe, berths := t.berths } ∧ (∀ p, p ≠ o → t.berth p = s.berth p)
         ∧ t.berth o = { s.berth o with sl := (t.berth o).sl } ∧ Raised .stationDuplicate s t)
     ∧ (∀ a, (s.berth o).sl.collisionAddress = some a → (s.berth o).sl.collisions < 2 → sent < 24 →
       exec (.incompleteFrame o held (some a)) s = .next (s.onSl o fun l => { l with
         attention := held, collisions := l.collisions + 1
         activity := .sending (.rollCall false), step := .rollCall (sent + 1) false })) := by
  have calls : s.calls o := ⟨since, .inl ⟨mark, window⟩⟩
  refine ⟨?_, fun a address two absent room => ?_, fun a address few more => ?_⟩
  · have closes : exec (.replyWindowClose o held) s
        = .next ((s.noteHeld o held).noAnswer o).settle := by
      show execReplyWindowClose o held s = _
      unfold execReplyWindowClose
      rw [window]
      rfl
    rw [State.settle_of_no_pass (show ((s.noteHeld o held).noAnswer o).passDue = false from pass),
      State.noAnswer, State.noteHeld_onBerth] at closes
    refine ⟨_, closes, ?_⟩
    refine State.onBerth_cycle (l := { (s.berth o).sl with attention := held, collisions := 0 }) ?_
    dsimp only
    rw [step]
    rfl
  · have shared := State.collision_third held address two
    have hexec := exec_collides calls (.inl (rfl : Instr.badFrame o held a = _))
    rw [shared, State.settle_of_no_pass ((State.called_sharesNew absent room).2.1.trans pass)] at hexec
    obtain ⟨berth, -, rest, elsewhere, raised⟩ := State.called_sharesNew (held := held) absent room
    refine ⟨_, .shared a, hexec, ?_, rfl, rfl, by rw [berth], by rw [berth], rest, elsewhere,
      by rw [berth], raised⟩
    rw [berth]
    exact ShipLink.entry_insert (l := (s.berth o).sl) (e := .shared a) absent rfl
  · have counted := State.collision_earlier held address few
    rw [exec_collides calls (.inr rfl), counted, State.onSl_resume_rollCall step more]
    exact congrArg Host.Outcome.next (State.settle_of_no_pass pass)

/-- Settles O34: answers and collisions, and the end of a discovery. -/
theorem enlistingAndCollisions : Obligations.EnlistingAndCollisions := by
  refine ⟨rollCallUnanswered, fun o held frame s k id calls dst low high payload => ?_,
    fun o held s a i calls hi address two => ?_, fun o held s a n sending step => ?_⟩
  · have hexec := exec_present_called calls dst low high payload held
    refine ⟨fun absent room admits pass => ?_, fun absent room admits pass => ?_,
      fun e entry unshared other => ?_, fun e sent entry unshared kind identity pass hsent => ?_,
      fun e entry duplicate pass => ?_, fun absent full pass => ?_⟩
    · obtain ⟨before, after, split, enlists, low, high⟩ :=
        State.called_enlists (held := held) absent k id
      have open' : (s.berth o).sl.full = false := by
        rw [← Bool.not_eq_true, ShipLink.full_iff]; exact Nat.not_le.mpr room
      rw [State.answer_new held k id absent, open', admits, if_pos (by decide), enlists] at hexec
      exact ⟨_, before, after, hexec.trans (congrArg Host.Outcome.next (State.settle_of_no_pass pass)),
        split, rfl, low, high⟩
    · rw [hexec, State.answer_new held k id absent, admits, Bool.and_false, if_neg (by decide),
        State.called_refuse_room _ room]
      exact congrArg Host.Outcome.next (State.settle_of_no_pass pass)
    · rw [State.answer_shared held entry unshared other] at hexec
      obtain ⟨entry', shared⟩ := State.called_shared (held := held) entry
      exact ⟨_, _, hexec, entry', rfl, shared⟩
    · have again : sent = (s.berth o).answersAgain frame.src := by
        rw [hsent]
        unfold Berth.answersAgain
        cases (s.berth o).sl.step <;> rfl
      rw [hexec, State.answer_same held entry unshared kind identity,
        State.settle_of_no_pass (by split <;> exact pass), State.called_again, ← again]
    · rw [hexec, State.answer_duplicate held k id entry duplicate, State.called_sendDuplicate]
      exact congrArg Host.Outcome.next (State.settle_of_no_pass pass)
    · rw [hexec, State.answer_new held k id absent, ShipLink.full_iff.mpr full, Bool.not_true,
        Bool.false_and, if_neg (by decide), State.called_turnedAway _ full]
      exact congrArg Host.Outcome.next (State.settle_of_no_pass pass)
  · have hexec := exec_collides (held := held) calls hi
    rw [State.collision_third held address two] at hexec
    refine ⟨fun e entry unshared => ?_, fun e entry duplicate pass => ?_, fun absent full pass => ?_⟩
    · rw [State.foundShared_entry (State.called_entry.trans entry), if_neg unshared] at hexec
      obtain ⟨entry', shared⟩ := State.called_shared (held := held) entry
      exact ⟨_, _, hexec, entry', rfl, shared⟩
    · rw [hexec, State.foundShared_entry (State.called_entry.trans entry), if_pos duplicate,
        State.called_sendDuplicate]
      exact congrArg Host.Outcome.next (State.settle_of_no_pass pass)
    · have full' : ((s.called o held).berth o).sl.full = true := by
        rw [State.called_sl]; exact ShipLink.full_iff.mpr full
      rw [hexec, State.foundShared_none (State.called_entry.trans absent), if_pos full',
        State.called_turnedAway _ full]
      exact congrArg Host.Outcome.next (State.settle_of_no_pass pass)
  · have sent := (execLeaderFrameSent_sending sending held).2.2 ⟨a, .inl rfl⟩
    rw [State.resume, State.noteHeld_onBerth] at sent
    obtain ⟨state, -, rest⟩ := State.onBerth_cycle (s := s) (o := o)
      (f := fun b => ({ b with sl := { b.sl with attention := held } } : Berth).resume s.tb.run)
      (l := { (s.berth o).sl with attention := held }) (by
        unfold Berth.resume
        dsimp only
        rw [step]
        rfl)
    exact ⟨_, sent, state, rest⟩

end Sys2Proof.Proofs
end

