-- ==== Sys2Proof/Proofs/StuckLink.lean ====
section
/-! PROOFS. A dominant line sticks the link (R133). -/

namespace Sys2Proof.Machine

open Sys2Proof

/-! ### Entry to STUCK -/

theorem execLineDominant_eq {s : State} {o : Outlet}
    (h : (s.berth o).sl.state = .discovering ∨ (s.berth o).sl.state = .cycling) (cut : LineCut) :
    exec (.lineDominant ⟨o, cut⟩) s = .next (((s.cutFrame o cut).onSl o fun l => l.stick s.tb.run).raise
      .linkStuck (.outlet o)).settle := congrArg Host.Outcome.next (if_pos h)

/-- STUCK as an outlet's SL in a state enters it: where it was discovering, from when the misses count
(R133). -/
structure Sticks (o : Outlet) (s : State) (miss : RunCount) (stick : ShipLink → ShipLink) : Prop where
  counts : miss = if (s.berth o).sl.state = .discovering then s.tb.run
    else s.tb.run - BitVec.ofNat 64 (elapsed s.tb.run (s.berth o).sl.cycleFrom % 100000)
  eq : ∀ l, stick l = { l with
    state := .stuck, stuckInDiscovery := (s.berth o).sl.state == .discovering, activity := .quiet
    step := .rest, missFrom := miss, lookFrom := s.tb.run }

theorem Sticks.stick {o : Outlet} {s : State} {miss : RunCount} {stick : ShipLink → ShipLink}
    (h : Sticks o s miss stick) {l : ShipLink} (state : l.state = (s.berth o).sl.state)
    (cycle : l.cycleFrom = (s.berth o).sl.cycleFrom) : l.stick s.tb.run = stick l := by
  rw [h.eq, h.counts, ← state, ← cycle]
  unfold ShipLink.stick
  simp only [beq_iff_eq]

/-- A cut frame that comes to a change of SL alone. -/
theorem Sticks.exec {o : Outlet} {s : State} {miss : RunCount} {stick : ShipLink → ShipLink}
    (h : Sticks o s miss stick)
    (state : (s.berth o).sl.state = .discovering ∨ (s.berth o).sl.state = .cycling)
    {f : ShipLink → ShipLink} {cut : LineCut} (hcut : s.cutFrame o cut = s.onSl o f)
    (hstate : (f (s.berth o).sl).state = (s.berth o).sl.state)
    (hcycle : (f (s.berth o).sl).cycleFrom = (s.berth o).sl.cycleFrom) (pass : s.passDue = false) :
    exec (.lineDominant ⟨o, cut⟩) s
      = .next ((s.onSl o fun l => stick (f l)).raise .linkStuck (.outlet o)) := by
  have stuck : ((s.onSl o f).onSl o fun l => l.stick s.tb.run) = s.onSl o fun l => stick (f l) :=
    (State.onSl_onSl _ _ _ _).trans (State.onSl_congr (h.stick hstate hcycle))
  rw [execLineDominant_eq state, hcut, stuck]
  exact congrArg Host.Outcome.next (State.settle_of_no_pass pass)

/-! ### The frame that is cut short -/

theorem State.cutFrame_calls {s : State} {o : Outlet} (h : s.calls o) (src : Option Nat) :
    s.cutFrame o (.frame src) = s.countCollision o src := by
  unfold State.cutFrame
  obtain ⟨since, ⟨mark, window⟩ | window⟩ := h <;>
    · rw [window]
      rfl

theorem State.cutFrame_expects {s : State} {o : Outlet} {a : Nat} (h : s.expects o a)
    (src : Option Nat) : s.cutFrame o (.frame src) = s.miss o a true := by
  unfold State.cutFrame
  obtain ⟨since, ⟨mark, window⟩ | window⟩ := h <;>
    · rw [window]
      rfl

/-- Nothing is cut, or nothing that the leader listens to. -/
theorem State.cutFrame_nothing {s : State} {o : Outlet} {cut : LineCut}
    (h : cut = .nothing ∨ (s.berth o).sl.activity = .quiet
      ∨ (∃ f, (s.berth o).sl.activity = .sending f) ∨ (cut = .frame none ∧ s.calls o)) :
    s.cutFrame o cut = s.onSl o id := by
  have same : s.onSl o id = s := State.onBerth_unchanged rfl
  rw [same]
  obtain rfl | quiet | ⟨f, sending⟩ | ⟨rfl, calls⟩ := h
  · rfl
  · unfold State.cutFrame
    rw [quiet]
    cases cut <;> rfl
  · unfold State.cutFrame
    rw [sending]
    cases cut <;> rfl
  · rw [State.cutFrame_calls calls]
    rfl

/-- A frame cut short in the slot is a check error of its source (R134). -/
theorem State.cutFrame_slot {s : State} {o : Outlet} {since : RunCount}
    (h : (s.berth o).sl.activity = .slot since) (src : Option Nat) :
    s.cutFrame o (.frame src) = s.onSl o fun l => l.slotError src := by
  unfold State.cutFrame
  rw [h]

theorem ShipLink.slotError_some (l : ShipLink) (a : Nat) : l.slotError (some a) = { l with
    stations := l.stations.map fun e => if e.address = a ∧ e.state ≠ .duplicate then
      { e with checkErrors := min 255 (e.checkErrors + 1) } else e } := by
  unfold slotError onEntry
  dsimp only
  refine congrArg (fun x => ({ l with stations := x } : ShipLink)) (List.map_congr_left fun e _ => ?_)
  unfold Station.counts
  by_cases address : e.address = a <;> cases e.state <;> simp [address]

/-- A collision that is not the third of its address is counted alone (R127). -/
theorem State.countCollision_counts {s : State} {o : Outlet} {a : Nat}
    (h : (s.berth o).sl.findsShared (some a) = false) :
    s.countCollision o (some a) = s.onSl o fun l => l.collide a := by
  unfold State.countCollision
  dsimp only
  exact if_neg (by rw [h]; decide)

/-- The third collision of an address, without an answer of the leader. -/
theorem State.countCollision_third {s : State} {o : Outlet} {a : Nat}
    (address : (s.berth o).sl.collisionAddress = some a) (two : (s.berth o).sl.collisions = 2) :
    s.countCollision o (some a)
      = (s.called o (s.berth o).sl.attention).foundShared o a := by
  have shared : (s.berth o).sl.findsShared (some a) = true := by
    unfold ShipLink.findsShared ShipLink.collide
    dsimp only
    rw [if_pos address, two]
    rfl
  have counted : ((s.onSl o fun l => l.collide a).onSl o fun l => { l with collisions := 0 })
      = s.called o (s.berth o).sl.attention := by
    refine (State.onSl_onSl _ _ _ _).trans (State.onSl_congr ?_)
    unfold ShipLink.collide
    rw [if_pos address]
  unfold State.countCollision
  dsimp only
  rw [if_pos shared, counted]

/-! ### Misses in STUCK -/

/-- What a miss leaves of SL: all but the table, and the readings of a PMS lost. -/
theorem State.miss_link (s : State) (o : Outlet) (a : Nat) (checked : Bool) :
    ∃ e g, ((s.miss o a checked).berth o).sl
      = { (s.berth o).sl with stations := e, generators := g } := by
  unfold State.miss
  split
  · exact ⟨_, _, rfl⟩
  · dsimp only
    split
    · next e _ _ =>
      obtain ⟨g, handed, -⟩ := (s.onSl o fun l => l.onEntry a fun x => x.miss checked).handLoss_link o
        e.kind
      rw [handed, State.berth_onSl_self]
      exact ⟨_, _, rfl⟩
    · rw [State.berth_onSl_self]
      exact ⟨_, _, rfl⟩

theorem Station.miss_lastPoll (e : Station) (checked : Bool) : (e.miss checked).lastPoll = e.lastPoll := by
  unfold miss
  dsimp only
  split
  · split <;> rfl
  · rfl

/-- A miss at one address leaves the entries of every other. -/
theorem State.miss_entry_ne {s : State} {o : Outlet} {a c : Nat} {e : Station} (checked : Bool)
    (h : (s.berth o).sl.entry c = some e) (hc : c ≠ a) :
    ((s.miss o a checked).berth o).sl.entry c = some e := by
  have missed : ((s.onSl o fun l => l.onEntry a fun x => x.miss checked).berth o).sl.entry c
      = some e := by
    rw [State.berth_onSl_self]
    show ((s.berth o).sl.onEntry a _).entry c = _
    rw [ShipLink.entry_onEntry _ _ fun x => x.miss_address checked, h, Option.map_some, if_neg hc]
  cases found : (s.berth o).sl.entry a with
  | none =>
    unfold State.miss
    rw [found]
    exact h
  | some x =>
    rw [State.miss_eq checked found]
    split
    · unfold ShipLink.entry at missed ⊢
      rw [State.handLoss_stations]
      exact missed
    · exact missed

/-- A miss of each of several addresses. -/
theorem State.foldl_miss (o : Outlet) : ∀ (l : List Nat) (s : State), l.Nodup →
    (∃ e g, ((l.foldl (fun t a => t.miss o a false) s).berth o).sl
      = { (s.berth o).sl with stations := e, generators := g })
    ∧ ∀ c e, (s.berth o).sl.entry c = some e →
      ((l.foldl (fun t a => t.miss o a false) s).berth o).sl.entry c
        = some (if c ∈ l then e.miss false else e)
  | [], s, _ => ⟨⟨_, _, rfl⟩, fun c e h => h.trans (by rw [if_neg List.not_mem_nil])⟩
  | a :: l, s, hl => by
    obtain ⟨fresh, nodup⟩ := List.nodup_cons.mp hl
    obtain ⟨⟨e₁, g₁, rest⟩, entries⟩ := State.foldl_miss o l (s.miss o a false) nodup
    obtain ⟨e₀, g₀, first⟩ := s.miss_link o a false
    refine ⟨⟨e₁, g₁, by rw [List.foldl_cons, rest, first]⟩, fun c e h => ?_⟩
    rw [List.foldl_cons]
    by_cases hc : c = a
    · subst hc
      rw [entries c _ (State.miss_entry false h), if_neg fresh, if_pos List.mem_cons_self]
    · rw [entries c e (State.miss_entry_ne false h hc)]
      simp [hc]

/-- With one entry for each address, each entry is that of its address. -/
theorem ShipLink.entry_of_mem {l : ShipLink} (h : (l.stations.map Station.address).Nodup) {e : Station}
    (he : e ∈ l.stations) : l.entry e.address = some e := by
  obtain ⟨x, found⟩ : ∃ x, l.entry e.address = some x := by
    refine Option.ne_none_iff_exists'.mp fun none => ?_
    exact ShipLink.entry_none.mp none e he rfl
  have address : x.address = e.address := by simpa using List.find?_some found
  rw [found, List.inj_on_of_nodup_map h (List.mem_of_find?_eq_some found) he address]

end Sys2Proof.Machine

namespace Sys2Proof.Proofs

open Machine

/-- A frame of a station that calls cut short is a collision (R127). -/
theorem cutCollision {o : Outlet} {s : State} {miss : RunCount} {stick : ShipLink → ShipLink}
    (sticks : Sticks o s miss stick)
    (state : (s.berth o).sl.state = .discovering ∨ (s.berth o).sl.state = .cycling)
    (pass : s.passDue = false) (a : Nat) (calls : s.calls o) :
    ((s.berth o).sl.collisionAddress = some a → (s.berth o).sl.collisions ≠ 2 →
       exec (.lineDominant ⟨o, .frame (some a)⟩) s = .next
         ((s.onSl o fun l => stick { l with collisions := l.collisions + 1 }).raise
           .linkStuck (.outlet o)))
     ∧ ((s.berth o).sl.collisionAddress ≠ some a →
       exec (.lineDominant ⟨o, .frame (some a)⟩) s = .next
         ((s.onSl o fun l => stick { l with
           collisions := 1, collisionAddress := some a }).raise .linkStuck (.outlet o)))
     ∧ ((s.berth o).sl.collisionAddress = some a → (s.berth o).sl.collisions = 2 →
       (s.berth o).sl.entry a = none → (s.berth o).sl.stations.length < 6 →
       ∃ t e, exec (.lineDominant ⟨o, .frame (some a)⟩) s = .next t
         ∧ t = { s with fe := t.fe, berths := t.berths } ∧ (∀ p, p ≠ o → t.berth p = s.berth p)
         ∧ t.berth o = { s.berth o with sl := (t.berth o).sl }
         ∧ (t.berth o).sl = stick { (s.berth o).sl with
             collisions := 0, stations := (t.berth o).sl.stations }
         ∧ (t.berth o).sl.entry a = some e ∧ e.state = .duplicate ∧ e.kind = none
         ∧ t.fe.flags
             = s.fe.flags ||| FaultKind.stationDuplicate.bit ||| FaultKind.linkStuck.bit) := by
  have cut := State.cutFrame_calls calls (some a)
  refine ⟨fun address few => ?_, fun other => ?_, fun address two absent room => ?_⟩
  · have same : (s.berth o).sl.collide a
        = { (s.berth o).sl with collisions := (s.berth o).sl.collisions + 1 } := if_pos address
    have unshared : (s.berth o).sl.findsShared (some a) = false := by
      unfold ShipLink.findsShared
      dsimp only
      rw [same]
      exact beq_eq_false_iff_ne.mpr (by show (s.berth o).sl.collisions + 1 ≠ 3; omega)
    exact sticks.exec state (f := fun l => { l with collisions := l.collisions + 1 })
      ((cut.trans (State.countCollision_counts unshared)).trans (State.onSl_congr same)) rfl rfl pass
  · have same : (s.berth o).sl.collide a
        = { (s.berth o).sl with collisions := 1, collisionAddress := some a } := if_neg other
    have unshared : (s.berth o).sl.findsShared (some a) = false := by
      unfold ShipLink.findsShared
      dsimp only
      rw [same]
      rfl
    exact sticks.exec state (f := fun l => { l with collisions := 1, collisionAddress := some a })
      ((cut.trans (State.countCollision_counts unshared)).trans (State.onSl_congr same)) rfl rfl pass
  · obtain ⟨berth, passes, rest, elsewhere, raised⟩ :=
      State.called_sharesNew (held := (s.berth o).sl.attention) absent room
    have counted := cut.trans (State.countCollision_third address two)
    obtain ⟨u, hu⟩ : ∃ u, u = (s.called o (s.berth o).sl.attention).foundShared o a := ⟨_, rfl⟩
    rw [← hu] at berth passes rest elsewhere raised counted
    have sl : ((u.onSl o fun l => l.stick s.tb.run).berth o).sl = stick { (s.berth o).sl with
        collisions := 0, stations := insertStation (.shared a) (s.berth o).sl.stations } := by
      have found := congrArg Berth.sl berth
      dsimp only at found
      rw [State.berth_onSl_self]
      show (u.berth o).sl.stick s.tb.run = _
      rw [sticks.stick (by rw [found]) (by rw [found]), found, sticks.eq, sticks.eq]
    have stations : ((u.onSl o fun l => l.stick s.tb.run).berth o).sl.stations
        = insertStation (.shared a) (s.berth o).sl.stations := by rw [sl, sticks.eq]
    obtain ⟨t, ht⟩ : ∃ t, t = (u.onSl o fun l => l.stick s.tb.run).raise .linkStuck (.outlet o) :=
      ⟨_, rfl⟩
    have hexec := execLineDominant_eq state (.frame (some a))
    rw [counted, ← ht, State.settle_of_no_pass (s := t) (by rw [ht]; exact passes.trans pass)] at hexec
    have same : t.berth o = (u.onSl o fun l => l.stick s.tb.run).berth o := by rw [ht, State.berth_raise]
    refine ⟨t, .shared a, hexec, ?_, fun p hp => ?_, ?_, ?_, ?_, rfl, rfl, ?_⟩
    · calc t = { u with fe := t.fe, berths := t.berths } := by rw [ht]; rfl
        _ = _ := congrArg (fun v : State => ({ v with fe := t.fe, berths := t.berths } : State)) rest
    · rw [ht, State.berth_raise, State.berth_onSl_ne _ _ hp, elsewhere p hp]
    · rw [same, State.berth_onSl_self, berth]
    · rw [same, stations, sl]
    · rw [same]
      exact ShipLink.entry_insert (l := (s.berth o).sl) (e := .shared a) absent stations
    · rw [ht, (State.raise_raised _ _ _ _).flags]
      exact congrArg (· ||| FaultKind.linkStuck.bit) raised.flags

/-- A reply of a polled station cut short is a miss (R123, R130). -/
theorem cutReply {o : Outlet} {s : State} {miss : RunCount} {stick : ShipLink → ShipLink}
    (sticks : Sticks o s miss stick)
    (state : (s.berth o).sl.state = .discovering ∨ (s.berth o).sl.state = .cycling)
    (a : Nat) (e : Station) (src : Option Nat) (expects : s.expects o a)
    (entry : (s.berth o).sl.entry a = some e) :
    ∃ t e', exec (.lineDominant ⟨o, .frame src⟩) s = .next t
      ∧ (t.berth o).sl.state = .stuck ∧ (t.berth o).sl.activity = .quiet
      ∧ (t.berth o).sl.step = .rest ∧ (t.berth o).sl.missFrom = miss
      ∧ (t.berth o).sl.lookFrom = s.tb.run ∧ (t.berth o).sl.entry a = some e'
      ∧ e'.checkErrors = min 255 (e.checkErrors + 1) ∧ e'.lastPoll = e.lastPoll
      ∧ (e.state = .present → e.misses < 2 →
          e'.state = .present ∧ e'.misses = e.misses + 1 ∧ Raised .linkStuck s t)
      ∧ (e.state = .present → 2 ≤ e.misses → e'.state = .lost ∧ e'.misses = 3)
      ∧ (e.state ≠ .present → e'.state = e.state ∧ e'.misses = e.misses)
      ∧ e'.kind = e.kind ∧ e'.identity = e.identity ∧ e'.status = e.status
      ∧ t.fe.flags &&& FaultKind.linkStuck.bit = FaultKind.linkStuck.bit
      ∧ Elsewhere [o] [] s t ∧ KeepsAccount s t ∧ t.metering = s.metering
      ∧ (e.state = .present → 2 ≤ e.misses → e.kind = some .scp →
          (s.berth o).sc.state = .closing ∨ (s.berth o).sc.state.breakerClosed = true →
          Tripped o .scpLost s t) := by
  have hexec := execLineDominant_eq state (.frame src)
  rw [State.cutFrame_expects expects] at hexec
  obtain ⟨stations, g, missed⟩ := s.miss_link o a true
  obtain ⟨u, hu⟩ : ∃ u, u = (((s.miss o a true).onSl o fun l => l.stick s.tb.run).raise
    .linkStuck (.outlet o)) := ⟨_, rfl⟩
  have sl : (u.settle.berth o).sl = stick { (s.berth o).sl with stations := stations, generators := g } := by
    rw [State.settle_link _ o, hu, State.berth_raise, State.berth_onSl_self, missed]
    exact sticks.stick rfl rfl
  rw [sticks.eq] at sl
  have held : (u.settle.berth o).sl.entry a = some (e.miss true) := by
    have := State.miss_entry true entry
    rw [missed] at this
    rw [sl]
    exact this
  have before : Acts ⟨[o], [], false, false, .linkStuck :: entryKinds⟩ s
      ((s.miss o a true).onSl o fun l => l.stick s.tb.run) :=
    (State.miss_acts s o a true List.mem_cons_self fun _ h => List.mem_cons_of_mem _ h).trans
      (Acts.onSl _ _ _ List.mem_cons_self)
  have raises (x : Scope) (h : .linkStuck ∈ x.kinds) :
      Acts x ((s.miss o a true).onSl o fun l => l.stick s.tb.run) u.settle := by
    rw [hu]
    exact (Acts.raise _ _ _ _ _ h).trans (State.settle_acts _ _)
  obtain ⟨elsewhere, account, metering⟩ := (before.trans (raises _ List.mem_cons_self)).frame
  have flag : u.settle.fe.flags &&& FaultKind.linkStuck.bit = FaultKind.linkStuck.bit := by
    refine (State.settle_acts ⟨[], [], false, false, []⟩ u).flag_stands ?_
    rw [hu]
    exact (State.raise_raised _ _ _ _).flag
  obtain ⟨errors, kind, identity, status⟩ := e.miss_kept true
  refine ⟨_, e.miss true, hexec.trans (by rw [← hu]), by rw [sl], by rw [sl], by rw [sl], by rw [sl],
    by rw [sl], held, errors, e.miss_lastPoll true, fun present few => ?_, fun present third => ?_,
    fun absent => ?_, kind, identity, status, flag, elsewhere, account, metering,
    fun present third kind state => ?_⟩
  · have found := (e.miss_present true present).1 few
    refine ⟨by rw [found]; exact present, by rw [found], ?_⟩
    have alone : s.miss o a true = s.onSl o fun l => l.onEntry a fun x => x.miss true := by
      rw [State.miss_eq true entry, if_neg]
      rintro ⟨-, lost⟩
      rw [found] at lost
      exact absurd (present.symm.trans lost) (by decide)
    rw [hu, alone]
    exact (Raised.before ((NoFault.onBerth s o _).trans (.onBerth _ o _))
      (State.raise_raised _ _ _ _)).after (State.settle_noFault _)
  · rw [(e.miss_present true present).2 third]; exact ⟨rfl, rfl⟩
  · rw [e.miss_absent true absent]; exact ⟨rfl, rfl⟩
  · have tripped : Tripped o .scpLost s (s.miss o a true) := by
      rw [State.miss_trips true entry present third kind state]
      refine (State.trip_tripped _ o .scpLost).before ?_ ?_ ?_ ?_ rfl rfl fun _ _ _ => rfl <;>
        rw [State.berth_onSl_self]
    exact (tripped.onLink fun _ => rfl).after (raises ⟨[], [], false, false, [.linkStuck]⟩
      List.mem_cons_self) List.not_mem_nil rfl

/-- Each 100 ms in STUCK is a miss of each PRESENT entry (R133). -/
theorem stuckMisses {o : Outlet} {s : State} (stuck : (s.berth o).sl.state = .stuck)
    (nodup : ((s.berth o).sl.stations.map Station.address).Nodup) :
    ∃ t, exec (.stuckMissTick o) s = .next t ∧ (t.berth o).sl.state = .stuck
      ∧ (t.berth o).sl.missFrom = s.tb.run
      ∧ Elsewhere [o] [] s t ∧ KeepsAccount s t ∧ t.metering = s.metering
      ∧ ∀ e ∈ (s.berth o).sl.stations, ∃ e' ∈ (t.berth o).sl.stations,
          (e.state = .present → e.misses < 2 → e' = { e with misses := e.misses + 1 })
          ∧ (e.state = .present → 2 ≤ e.misses → e' = { e with misses := 3, state := .lost })
          ∧ (e.state ≠ .present → e' = e) := by
  obtain ⟨l, hl⟩ : ∃ l, l = ((s.berth o).sl.stations.filter fun e => e.state == .present).map
    Station.address := ⟨_, rfl⟩
  obtain ⟨u, hu⟩ : ∃ u, u = s.onSl o fun l => { l with missFrom := s.tb.run } := ⟨_, rfl⟩
  have hexec : exec (.stuckMissTick o) s
      = .next (l.foldl (fun t a => t.miss o a false) u).settle := by
    rw [hl, hu]
    exact congrArg Host.Outcome.next (if_pos stuck)
  have lnodup : l.Nodup := by
    rw [hl]
    exact nodup.sublist (List.filter_sublist.map _)
  have sl : (u.berth o).sl = { (s.berth o).sl with missFrom := s.tb.run } := by
    rw [hu, State.berth_onSl_self]
  obtain ⟨⟨es, g, rest⟩, entries⟩ := State.foldl_miss o l u lnodup
  have acts : Acts ⟨[o], [], false, false, entryKinds⟩ s
      (l.foldl (fun t a => t.miss o a false) u).settle := by
    rw [hu]
    exact ((Acts.onSl s o _ List.mem_cons_self).trans (Acts.foldl _ _ (fun t a _ =>
      State.miss_acts t o a false List.mem_cons_self fun _ h => h) _)).trans (State.settle_acts _ _)
  obtain ⟨elsewhere, account, metering⟩ := acts.frame
  refine ⟨_, hexec, ?_, ?_, elsewhere, account, metering, fun e he => ?_⟩
  · rw [State.settle_link _ o, rest, sl]; exact stuck
  · rw [State.settle_link _ o, rest, sl]
  · have found : (u.berth o).sl.entry e.address = some e := by
      rw [sl]
      exact ShipLink.entry_of_mem nodup he
    have member : e.address ∈ l ↔ e.state = .present := by
      rw [hl, List.mem_map]
      refine ⟨fun ⟨x, hx, same⟩ => ?_, fun present => ⟨e, List.mem_filter.mpr ⟨he, by simp [present]⟩, rfl⟩⟩
      obtain ⟨mem, present⟩ := List.mem_filter.mp hx
      rw [← List.inj_on_of_nodup_map nodup mem he same]
      simpa using present
    have final := entries e.address e found
    refine ⟨if e.address ∈ l then e.miss false else e, ?_, fun present few => ?_,
      fun present third => ?_, fun absent => ?_⟩
    · rw [State.settle_link _ o]
      exact List.mem_of_find?_eq_some final
    · rw [if_pos (member.mpr present), (e.miss_present false present).1 few]
      rfl
    · rw [if_pos (member.mpr present), (e.miss_present false present).2 third]
      rfl
    · rw [if_neg fun h => absent (member.mp h)]

/-- The look of each second in STUCK (R133). -/
theorem execStuckLook_eq {o : Outlet} {s : State} (stuck : (s.berth o).sl.state = .stuck)
    (dominant held : Bool) : exec (.stuckLook o dominant held) s
      = .next (if dominant then s.onSl o fun l => { l with lookFrom := s.tb.run, attention := held }
        else if (s.berth o).sl.stuckInDiscovery then s.onSl o fun l =>
          ({ l with lookFrom := s.tb.run, attention := held } : ShipLink).beginDiscovery s.tb.run
        else s.onBerth o fun b => ({ b with sl := { b.sl with
          lookFrom := s.tb.run, attention := held } } : Berth).beginCycle s.tb.run) := by
  have looked : (s.onSl o fun l => { l with lookFrom := s.tb.run }).noteHeld o held
      = s.onSl o fun l => { l with lookFrom := s.tb.run, attention := held } := State.onSl_onSl _ _ _ _
  refine congrArg Host.Outcome.next ((if_pos stuck).trans ?_)
  dsimp only
  rw [looked]
  split
  · rfl
  · split
    · exact State.onSl_onSl _ _ _ _
    · exact State.onBerth_onBerth _ _ _ _

/-- Settles O38: the entry to STUCK, the misses counted there and its looks. -/
theorem stuckLinkMissesAndLooks : Obligations.StuckLinkMissesAndLooks := by
  refine ⟨fun o s miss stick state counts eq => ?_, fun o s stuck nodup => ?_,
    fun o held s stuck => ?_⟩
  · have sticks : Sticks o s miss stick := ⟨counts, eq⟩
    refine ⟨fun pass => ⟨fun cut h => ?_, fun src since slot => ?_,
      fun a calls => cutCollision sticks state pass a calls⟩, fun a e src expects entry =>
      cutReply sticks state a e src expects entry⟩
    · exact sticks.exec state (State.cutFrame_nothing h) rfl rfl pass
    · cases src with
      | none => exact sticks.exec state (State.cutFrame_slot slot none) rfl rfl pass
      | some a =>
        refine sticks.exec state ((State.cutFrame_slot slot (some a)).trans (State.onSl_congr ?_)) ?_ ?_ pass
        · exact ShipLink.slotError_some _ a
        · rfl
        · rfl
  · exact stuckMisses stuck nodup
  · have looked (dominant : Bool) := execStuckLook_eq stuck dominant held
    refine ⟨looked true, fun discovering => ?_, fun cycling => ?_⟩
    · refine (looked false).trans (congrArg Host.Outcome.next ?_)
      rw [if_neg (by decide), if_pos discovering]
      rfl
    · have cycles := looked false
      rw [if_neg (by decide), if_neg (by rw [cycling]; decide)] at cycles
      obtain ⟨state, -, rest⟩ := State.onBerth_cycle (s := s) (o := o)
        (f := fun b => ({ b with sl := { b.sl with lookFrom := s.tb.run, attention := held } } :
          Berth).beginCycle s.tb.run)
        (l := { (s.berth o).sl with lookFrom := s.tb.run, attention := held }) rfl
      exact ⟨_, cycles, state, rest⟩

end Sys2Proof.Proofs
end

