-- ==== Sys2Proof/Proofs/GeneratorReports.lean ====
section
/-! PROOFS. The generator table: reports of the PMS, and readings that age (R93, R95, R134, R135). -/

namespace Sys2Proof.Machine

open Sys2Proof

/-! ### A table in ascending order of number (R134) -/

/-- The entries stand in ascending order of number. -/
abbrev Ascending (l : List Generator) : Prop := l.Pairwise fun g h => g.number < h.number

theorem mem_insertGenerator {g h : Generator} {l : List Generator} (hl : Ascending l) :
    h ∈ insertGenerator g l ↔ h = g ∨ (h ∈ l ∧ h.number ≠ g.number) := by
  induction l with
  | nil => simp [insertGenerator]
  | cons x rest ih =>
    obtain ⟨above, asc⟩ := List.pairwise_cons.mp hl
    unfold insertGenerator
    split
    · next lt =>
      have other : ∀ y ∈ x :: rest, y.number ≠ g.number := fun y hy => by
        rcases List.mem_cons.mp hy with rfl | hy
        · omega
        · have := above y hy; omega
      rw [List.mem_cons]
      exact or_congr_right ⟨fun hh => ⟨hh, other h hh⟩, And.left⟩
    · split
      · next same =>
        have other : ∀ y ∈ rest, y.number ≠ g.number := fun y hy => by have := above y hy; omega
        rw [List.mem_cons, List.mem_cons]
        refine or_congr_right ⟨fun hh => ⟨.inr hh, other h hh⟩, fun ⟨hh, ne⟩ => hh.resolve_left ?_⟩
        rintro rfl
        exact ne same.symm
      · next differs =>
        rw [List.mem_cons, List.mem_cons, ih asc]
        constructor
        · rintro (rfl | rfl | ⟨hh, ne⟩)
          · exact .inr ⟨.inl rfl, fun e => differs e.symm⟩
          · exact .inl rfl
          · exact .inr ⟨.inr hh, ne⟩
        · rintro (rfl | ⟨rfl | hh, ne⟩)
          · exact .inr (.inl rfl)
          · exact .inl rfl
          · exact .inr (.inr ⟨hh, ne⟩)

theorem insertGenerator_ascending {g : Generator} {l : List Generator} (hl : Ascending l) :
    Ascending (insertGenerator g l) := by
  induction l with
  | nil => exact List.pairwise_singleton _ _
  | cons x rest ih =>
    obtain ⟨above, asc⟩ := List.pairwise_cons.mp hl
    unfold insertGenerator
    split
    · next lt =>
      refine List.pairwise_cons.mpr ⟨fun y hy => ?_, hl⟩
      rcases List.mem_cons.mp hy with rfl | hy
      · exact lt
      · exact lt.trans (above y hy)
    · split
      · next same => exact List.pairwise_cons.mpr ⟨fun y hy => same ▸ above y hy, asc⟩
      · next differs =>
        refine List.pairwise_cons.mpr ⟨fun y hy => ?_, ih asc⟩
        rcases (mem_insertGenerator asc).mp hy with rfl | ⟨hy, -⟩
        · omega
        · exact above y hy

/-- The reading of a number is that of its entry. -/
theorem ShipLink.readingOf_iff {l : ShipLink} (hl : Ascending l.generators) {n : Nat} {r : GenReading} :
    l.readingOf n = some r ↔ (n, r) ∈ l.generators.map fun g => (g.number, g.reading) := by
  have nodup : (l.generators.map Generator.number).Nodup :=
    List.pairwise_map.mpr (hl.imp fun h => Nat.ne_of_lt h)
  unfold readingOf
  rw [Option.map_eq_some_iff, List.mem_map]
  constructor
  · rintro ⟨g, found, rfl⟩
    have number : g.number = n := by simpa using List.find?_some found
    exact ⟨g, List.mem_of_find?_eq_some found, by rw [number]⟩
  · rintro ⟨g, mem, same⟩
    obtain ⟨rfl, rfl⟩ := Prod.mk.inj same
    cases found : l.generators.find? fun h => h.number == g.number with
    | none => exact absurd (List.find?_eq_none.mp found g mem) (by simp)
    | some h =>
      have number : h.number = g.number := by simpa using List.find?_some found
      have := List.inj_on_of_nodup_map nodup (List.mem_of_find?_eq_some found) mem number
      exact ⟨h, rfl, by rw [this]⟩

/-- Tables that read alike show the same numbers and readings. -/
theorem readings_eq {l m : ShipLink} (hl : Ascending l.generators) (hm : Ascending m.generators)
    (h : ∀ n, l.readingOf n = m.readingOf n) :
    l.generators.map (fun g => (g.number, g.reading))
      = m.generators.map fun g => (g.number, g.reading) := by
  have : Std.Irrefl fun a b : Nat × GenReading => a.1 < b.1 := ⟨fun _ => Nat.lt_irrefl _⟩
  have : Std.Antisymm fun a b : Nat × GenReading => a.1 < b.1 :=
    ⟨fun _ _ hab hba => absurd hba (Nat.lt_asymm hab)⟩
  refine List.Pairwise.eq_of_mem_iff (r := fun a b : Nat × GenReading => a.1 < b.1)
    (List.pairwise_map.mpr hl) (List.pairwise_map.mpr hm) fun ⟨n, r⟩ => ?_
  rw [← ShipLink.readingOf_iff hl, ← ShipLink.readingOf_iff hm, h]

/-- What SC reads of the generator table are its readings (R93, R95). -/
theorem Berth.rampedIn_of_readings {b c : Berth} (declaration : c.sc.declaration = b.sc.declaration)
    (h : c.sl.generators.map (fun g => (g.number, g.reading))
      = b.sl.generators.map fun g => (g.number, g.reading)) : c.rampedIn = b.rampedIn := by
  have length : c.sl.generators.length = b.sl.generators.length := by
    simpa using congrArg List.length h
  have opened : (c.sl.generators.all fun g => g.reading == .opened)
      = b.sl.generators.all fun g => g.reading == .opened := by
    simpa [List.all_map, Function.comp_def] using congrArg (fun l => l.all fun x => x.2 == .opened) h
  unfold rampedIn
  rw [declaration, length, opened]

theorem Berth.anyClosed_of_readings {b c : Berth}
    (h : c.sl.generators.map (fun g => (g.number, g.reading))
      = b.sl.generators.map fun g => (g.number, g.reading)) : c.anyClosed = b.anyClosed := by
  simpa [anyClosed, List.any_map, Function.comp_def]
    using congrArg (fun l => l.any fun x => x.2 == .closed) h

/-! ### A report of the PMS (R134) -/

/-- The entry that an item makes. -/
def GenItem.entry (i : GenItem) (now : RunCount) : Generator :=
  { number := i.number, breaker := if i.closed then .closed else .opened, kw := i.kw
    updated := now, stale := false }

theorem ShipLink.takeItem_eq (now : RunCount) (l : ShipLink) (i : GenItem) :
    l.takeItem now i = { l with generators := insertGenerator (i.entry now) l.generators } := rfl

/-- A report taken changes the generator table alone, which holds the last item of each number. -/
theorem ShipLink.takeItems_spec (now : RunCount) (l : ShipLink) (hl : Ascending l.generators)
    (items : List GenItem) :
    (∃ g, items.foldl (takeItem now) l = { l with generators := g })
    ∧ Ascending (items.foldl (takeItem now) l).generators
    ∧ ∀ g, g ∈ (items.foldl (takeItem now) l).generators
      ↔ (items.reverse.find? fun i => i.number == g.number).elim (g ∈ l.generators)
          fun i => g = i.entry now := by
  induction items using List.reverseRecOn with
  | nil => exact ⟨⟨_, rfl⟩, hl, fun g => Iff.rfl⟩
  | append_singleton items i ih =>
    obtain ⟨⟨gs, rest⟩, asc, mem⟩ := ih
    rw [List.foldl_append, List.foldl_cons, List.foldl_nil, ShipLink.takeItem_eq]
    refine ⟨⟨_, by rw [rest]⟩, insertGenerator_ascending asc, fun g => ?_⟩
    dsimp only
    rw [mem_insertGenerator asc, mem g, List.reverse_append, List.reverse_singleton,
      List.singleton_append, List.find?_cons]
    by_cases same : i.number = g.number
    · rw [beq_iff_eq.mpr same]
      exact ⟨fun h => h.resolve_right fun ⟨_, ne⟩ => ne same.symm, .inl⟩
    · rw [beq_eq_false_iff_ne.mpr same]
      refine ⟨?_, fun h => .inr ⟨h, fun e => same e.symm⟩⟩
      rintro (rfl | ⟨h, -⟩)
      · exact absurd rfl same
      · exact h

/-- The numbers of a good report are 1 to 4 (R134). -/
theorem readGenItems_numbers {p : List Byte} {items : List GenItem} (h : readGenItems p = some items) :
    ∀ i ∈ items, i.number ∈ [1, 2, 3, 4] := by
  unfold readGenItems at h
  dsimp only at h
  split at h
  · next good =>
    obtain ⟨-, -, -, good⟩ := good
    cases h
    intro i hi
    obtain ⟨x, hx, rfl⟩ := List.mem_map.mp hi
    have := List.all_eq_true.mp good x hx
    simp only [Bool.and_eq_true, within, decide_eq_true_eq] at this
    obtain ⟨⟨range, -⟩, -⟩ := this
    simp only [List.mem_cons, List.not_mem_nil, or_false]
    omega
  · cases h

/-- The state with a report taken, not yet judged. -/
def State.reported (s : State) (o : Outlet) (items : List GenItem) : State :=
  s.onSl o fun l => items.foldl (ShipLink.takeItem s.tb.run) l

theorem State.reported_link {s : State} {o : Outlet} (hl : Ascending (s.berth o).sl.generators)
    (items : List GenItem) : ∃ g, ((s.reported o items).berth o)
      = { s.berth o with sl := { (s.berth o).sl with generators := g } } := by
  obtain ⟨⟨g, rest⟩, -⟩ := (s.berth o).sl.takeItems_spec s.tb.run hl items
  exact ⟨g, by rw [State.reported, State.berth_onSl_self, rest]⟩

/-- A report that changes no reading leaves nothing to judge (R93, R95). -/
theorem State.takeGenerators_judged {s : State} {o : Outlet} {items : List GenItem}
    (hl : Ascending (s.berth o).sl.generators) (numbers : ∀ i ∈ items, i.number ∈ [1, 2, 3, 4])
    (hin : (s.berth o).sc.state = .parallelIn → (s.berth o).rampedIn = false)
    (hsupply : (s.berth o).sc.state = .shoreSupply → (s.berth o).anyClosed = false) :
    s.takeGenerators o items = (s.reported o items).judgeGenerators o := by
  obtain ⟨-, asc, mem⟩ := (s.berth o).sl.takeItems_spec s.tb.run hl items
  have sl : ((s.reported o items).berth o).sl
      = items.foldl (ShipLink.takeItem s.tb.run) (s.berth o).sl := by
    rw [State.reported, State.berth_onSl_self]
  have sc : ((s.reported o items).berth o).sc = (s.berth o).sc := by
    rw [State.reported, State.sc_onSl]
  unfold State.takeGenerators
  dsimp only
  split
  · next same =>
    have alike (n : Nat) : ((s.reported o items).berth o).sl.readingOf n
        = (s.berth o).sl.readingOf n := by
      by_cases hn : n ∈ [1, 2, 3, 4]
      · exact (beq_iff_eq.mp (List.all_eq_true.mp same n hn)).symm
      · refine Option.ext fun r => ?_
        rw [ShipLink.readingOf_iff (by rw [sl]; exact asc), ShipLink.readingOf_iff hl, List.mem_map,
          List.mem_map]
        refine exists_congr fun g => and_congr_left fun e => ?_
        have number : g.number = n := (Prod.mk.inj e).1
        have absent : (items.reverse.find? fun i => i.number == g.number) = none :=
          List.find?_eq_none.mpr fun i hi => by
            have := numbers i (List.mem_reverse.mp hi)
            rw [beq_iff_eq, number]
            rintro rfl
            exact hn this
        rw [sl, mem g, absent]
        rfl
    have readings := readings_eq (by rw [sl]; exact asc) hl alike
    refine (State.judgeGenerators_of_not (fun h => ?_) fun h => ?_).symm
    · exact (Berth.rampedIn_of_readings (by rw [sc]) readings).trans (hin (sc ▸ h))
    · exact (Berth.anyClosed_of_readings readings).trans (hsupply (sc ▸ h))
  · rfl

theorem State.NoEntryCause.reported {s : State} {o : Outlet} (h : s.NoEntryCause o)
    (hl : Ascending (s.berth o).sl.generators) (items : List GenItem) :
    (s.reported o items).NoEntryCause o := by
  obtain ⟨g, berth⟩ := State.reported_link hl items
  exact ⟨by rw [berth]; exact h.pilot, by rw [berth]; exact h.stop, by rw [berth]; exact h.scp, h.grid⟩

/-- The judgement in PARALLEL_IN where nothing trips the outlet at its entry (R93). -/
theorem State.judgeGenerators_parallelIn {s : State} {o : Outlet}
    (state : (s.berth o).sc.state = .parallelIn) (quiet : s.NoEntryCause o) :
    s.judgeGenerators o = if (s.berth o).rampedIn then s.moveTo o .shoreSupply else s := by
  unfold State.judgeGenerators
  dsimp only
  by_cases ramped : (s.berth o).rampedIn = true
  · rw [if_pos ⟨state, ramped⟩, if_pos ramped]
    exact State.enter_of_none (by rw [state]; decide) (by decide) (quiet.entering _)
  · rw [if_neg fun h => ramped h.2, if_neg (by rw [state]; rintro ⟨h, -⟩; cases h), if_neg ramped]

/-- The judgement in SHORE_SUPPLY where nothing trips the outlet at its entry (R95). -/
theorem State.judgeGenerators_shoreSupply {s : State} {o : Outlet}
    (state : (s.berth o).sc.state = .shoreSupply) (quiet : s.NoEntryCause o) :
    s.judgeGenerators o = if (s.berth o).anyClosed then
        (if (s.berth o).sc.returnAwaited then s
          else s.report .unplannedParallel (.outlet o)).moveTo o .parallelOut (s.berth o).returnPSet
      else s := by
  unfold State.judgeGenerators
  dsimp only
  rw [if_neg (by rw [state]; rintro ⟨h, -⟩; cases h)]
  by_cases closed : (s.berth o).anyClosed = true
  · rw [if_pos ⟨state, closed⟩, if_pos closed]
    split
    · exact State.enter_of_none (by rw [state]; decide) (by decide) (quiet.entering _)
    · refine State.enter_of_none (by rw [State.berth_report, state]; decide) (by decide) ?_
      rw [State.berth_report]
      exact quiet.entering _
  · rw [if_neg fun h => closed h.2, if_neg closed]

theorem execGenStatus_eq {s : State} {o : Outlet} {held : Bool} {frame : ShipFrame} {since : RunCount}
    {items : List GenItem} (slot : (s.berth o).sl.activity = .slot since)
    (pms : (s.berth o).sl.isPms frame.src = true) (payload : readGenItems frame.payload = some items) :
    exec (.genStatus o held frame) s = .next (s.takeGenerators o items).settle := by
  show execGenStatus o held frame s = _
  unfold execGenStatus
  dsimp only
  rw [slot, payload]
  exact congrArg Host.Outcome.next (if_pos pms)

/-! ### Readings that age (R135) -/

/-- A stale entry reads UNKNOWN. -/
def ShipLink.age (n : Nat) (l : ShipLink) : ShipLink :=
  { l with generators := l.generators.map fun g => if g.number = n then { g with stale := true } else g }

theorem ShipLink.age_unknown {l : ShipLink} {n : Nat} {g : Generator} (h : g ∈ (l.age n).generators)
    (number : g.number = n) : g.reading = .unknown := by
  obtain ⟨x, -, rfl⟩ := List.mem_map.mp h
  revert number
  split
  · exact fun _ => rfl
  · next other => exact fun number => absurd number other

/-- A reading that changes by age is that of an entry, which reads UNKNOWN. -/
theorem ShipLink.age_changes {l : ShipLink} {n : Nat} (h : (l.age n).readingOf n ≠ l.readingOf n) :
    ∃ g ∈ (l.age n).generators, g.reading = .unknown := by
  by_contra none
  have absent : ∀ g ∈ l.generators, g.number ≠ n := fun g hg number => none
    ⟨{ g with stale := true }, List.mem_map.mpr ⟨g, hg, if_pos number⟩, rfl⟩
  have same : (l.age n).generators = l.generators :=
    (List.map_congr_left fun g hg => if_neg (absent g hg)).trans (List.map_id _)
  unfold readingOf at h
  exact h (by rw [same])

/-- An entry that reads UNKNOWN keeps a ramp-in from its end (R93, R135). -/
theorem Berth.rampedIn_of_unknown {b : Berth} (h : ∃ g ∈ b.sl.generators, g.reading = .unknown) :
    b.rampedIn = false := by
  obtain ⟨g, hg, reading⟩ := h
  have closed : (b.sl.generators.all fun g => g.reading == .opened) = false :=
    List.all_eq_false.mpr ⟨g, hg, by rw [reading]; decide⟩
  unfold rampedIn
  rw [closed]
  cases b.sc.declaration <;> simp

/-- Age makes no entry read CLOSED. -/
theorem Berth.anyClosed_of_age {b c : Berth} {n : Nat} (sl : c.sl = b.sl.age n)
    (h : b.anyClosed = false) : c.anyClosed = false := by
  unfold anyClosed at h ⊢
  rw [List.any_eq_false] at h ⊢
  rw [sl]
  intro g hg
  obtain ⟨x, hx, rfl⟩ := List.mem_map.mp hg
  split
  · exact Bool.false_ne_true
  · exact h x hx

end Sys2Proof.Machine

namespace Sys2Proof.Proofs

open Machine

/-- A report of the PMS in its slot (R93, R95, R134). -/
theorem generatorReport (o : Outlet) (held : Bool) (frame : ShipFrame) (s : State) (since : RunCount)
    (items : List GenItem) (slot : (s.berth o).sl.activity = .slot since)
    (pms : (s.berth o).sl.isPms frame.src = true) (payload : readGenItems frame.payload = some items)
    (asc : Ascending (s.berth o).sl.generators) :
    ∃ t, exec (.genStatus o held frame) s = .next t
      ∧ Elsewhere [o] [] s t ∧ KeepsAccount s t ∧ t.metering = s.metering
      ∧ Ascending (t.berth o).sl.generators
      ∧ (∀ n i, items.reverse.find? (fun i => i.number == n) = some i →
          ({ number := n, breaker := if i.closed then .closed else .opened, kw := i.kw
             updated := s.tb.run, stale := false } : Generator) ∈ (t.berth o).sl.generators)
      ∧ (∀ g, (∀ i ∈ items, i.number ≠ g.number) →
          (g ∈ (t.berth o).sl.generators ↔ g ∈ (s.berth o).sl.generators))
      ∧ ((s.berth o).sc.state ≠ .parallelIn → (s.berth o).sc.state ≠ .shoreSupply →
          s.waits o = false → (t.berth o).sc = (s.berth o).sc ∧ NoFault s t)
      ∧ ((s.berth o).sc.state = .parallelIn → (s.berth o).rampedIn = false → s.NoEntryCause o →
          (t.berth o).sc.state
            = if (t.berth o).rampedIn then .shoreSupply else .parallelIn)
      ∧ ((s.berth o).sc.state = .shoreSupply → (s.berth o).anyClosed = false →
          (s.berth o).rg.mode = .island → s.NoEntryCause o →
          (t.berth o).sc.state
              = (if (t.berth o).anyClosed then .parallelOut else .shoreSupply)
            ∧ (∀ r, (s.berth o).mu.power = some r → (t.berth o).anyClosed = true →
                (t.berth o).rg.pSet = min (r.p.tdiv 1000).toNat 25000)) := by
  obtain ⟨t, ht⟩ : ∃ t, t = (s.takeGenerators o items).settle := ⟨_, rfl⟩
  have hexec := execGenStatus_eq slot pms payload (held := held)
  have numbers := readGenItems_numbers payload
  obtain ⟨-, asc', mem⟩ := (s.berth o).sl.takeItems_spec s.tb.run asc items
  obtain ⟨g, berth⟩ := State.reported_link asc items
  have reported : ((s.reported o items).berth o).sl
      = items.foldl (ShipLink.takeItem s.tb.run) (s.berth o).sl := by
    rw [State.reported, State.berth_onSl_self]
  have sl : (t.berth o).sl = items.foldl (ShipLink.takeItem s.tb.run) (s.berth o).sl := by
    rw [ht, State.settle_link _ o]
    unfold State.takeGenerators
    dsimp only
    split
    · exact reported
    · exact ((s.reported o items).judgeGenerators_link o o).trans reported
  have acts : Acts ⟨[o], [], false, false, entryKinds⟩ s t := by
    rw [ht]
    exact (State.takeGenerators_acts s o items List.mem_cons_self fun _ h => h).trans
      (State.settle_acts _ _)
  obtain ⟨elsewhere, account, metering⟩ := acts.frame
  refine ⟨t, by rw [ht]; exact hexec, elsewhere, account, metering, by rw [sl]; exact asc',
    fun n i last => ?_, fun g others => ?_, fun hin hsupply awake => ?_, fun state ramping quiet => ?_,
    fun state opened island quiet => ?_⟩
  · have number : i.number = n := by simpa using List.find?_some last
    rw [sl, mem, last]
    subst number
    rfl
  · have absent : (items.reverse.find? fun i => i.number == g.number) = none :=
      List.find?_eq_none.mpr fun i hi => by
        rw [beq_iff_eq]
        exact others i (List.mem_reverse.mp hi)
    rw [sl, mem, absent]
    rfl
  · have judged : s.takeGenerators o items = s.reported o items :=
      (State.takeGenerators_judged asc numbers (fun h => absurd h hin) fun h => absurd h hsupply).trans
        (State.judgeGenerators_of_not (fun h => absurd (by rw [berth] at h; exact h) hin)
          fun h => absurd (by rw [berth] at h; exact h) hsupply)
    rw [ht, judged]
    refine ⟨(State.settle_berth ?_).sc.trans (by rw [berth]),
      (NoFault.onBerth s o _).trans (State.settle_noFault _)⟩
    rw [berth]
    exact beq_eq_false_iff_ne.mp awake
  · have judged := (State.takeGenerators_judged asc numbers (fun _ => ramping) fun h => absurd
        (state.symm.trans h) (by decide)).trans
      (State.judgeGenerators_parallelIn (by rw [berth]; exact state) (quiet.reported asc items))
    rw [judged] at ht
    split at ht
    · next ramped =>
      have enters : ((s.reported o items).moveTo o .shoreSupply).settle.berth o = t.berth o := by rw [ht]
      have sc := (State.settle_berth (s := (s.reported o items).moveTo o .shoreSupply) (o := o) (by
        rw [State.moveTo_state]; decide)).sc
      rw [enters] at sc
      have declaration : (t.berth o).sc.declaration = ((s.reported o items).berth o).sc.declaration := by
        rw [sc]
        exact State.moveTo_declaration 0 (by decide) (by decide)
      rw [Berth.rampedIn_congr declaration (sl.trans reported.symm), if_pos ramped, sc,
        State.moveTo_state]
    · next ramping' =>
      have sc := (State.settle_berth (s := s.reported o items) (o := o) (by
        rw [berth]; exact fun h => absurd (state.symm.trans h) (by decide))).sc
      rw [← ht] at sc
      rw [Berth.rampedIn_congr (by rw [sc]) (sl.trans reported.symm), if_neg ramping', sc, berth]
      exact state
  · have judged := (State.takeGenerators_judged asc numbers (fun h => absurd (state.symm.trans h)
        (by decide)) fun _ => opened).trans
      (State.judgeGenerators_shoreSupply (by rw [berth]; exact state) (quiet.reported asc items))
    rw [Berth.anyClosed_congr (sl.trans reported.symm)]
    rw [judged] at ht
    by_cases closed : ((s.reported o items).berth o).anyClosed = true
    · rw [if_pos closed] at ht ⊢
      obtain ⟨u, hu⟩ : ∃ u, u = if ((s.reported o items).berth o).sc.returnAwaited
        then s.reported o items else (s.reported o items).report .unplannedParallel (.outlet o) := ⟨_, rfl⟩
      have same : u.berth o = (s.reported o items).berth o := by
        rw [hu]
        split
        · rfl
        · rw [State.berth_report]
      rw [← hu] at ht
      refine ⟨?_, fun r power _ => ?_⟩
      · rw [ht, State.moveTo_settle_sc _ _ _ (by decide)]
        rfl
      · rw [ht, State.moveTo_settle_rg _ _ _ (by decide), same, berth,
          Berth.enterMode_pSet_eq (by exact fun h => absurd (island.symm.trans h) (by decide))
            (by decide), if_pos (by decide)]
        unfold Berth.returnPSet
        dsimp only
        rw [power]
        exact min_eq_left (Nat.min_le_right _ _)
    · rw [if_neg closed] at ht ⊢
      refine ⟨?_, fun _ _ h => absurd h closed⟩
      rw [ht, (State.settle_berth (s := s.reported o items) (o := o) (by
        rw [berth]; exact fun h => absurd (state.symm.trans h) (by decide))).sc, berth]
      exact state

/-- Settles O37: the reports of the PMS, and the readings that age. -/
theorem generatorTable : Obligations.GeneratorTable := by
  refine ⟨generatorReport, fun o n s pass opened => ?_⟩
  have same : exec (.generatorStale o n) s = .next (s.onSl o (ShipLink.age n)) := by
    have aged : ((s.onSl o (ShipLink.age n)).berth o).sl = (s.berth o).sl.age n := by
      rw [State.berth_onSl_self]
    refine congrArg Host.Outcome.next (ite_eq_left_iff.mpr fun changed => ?_)
    have judged : (s.onSl o (ShipLink.age n)).judgeGenerators o = s.onSl o (ShipLink.age n) := by
      refine State.judgeGenerators_of_not (fun _ => Berth.rampedIn_of_unknown ?_) fun state => ?_
      · rw [aged]
        exact ShipLink.age_changes (by rw [← aged]; exact changed)
      · rw [State.sc_onSl] at state
        exact Berth.anyClosed_of_age aged (opened state)
    exact (congrArg State.settle judged).trans (State.settle_of_no_pass pass)
  refine ⟨_, same, rfl, fun g hg number => ?_⟩
  rw [State.berth_onSl_self] at hg
  exact ShipLink.age_unknown hg number

end Sys2Proof.Proofs
end

