-- ==== Sys2Proof/Proofs/Evaluations.lean ====
section
/-! PROOFS. Evaluation passes that take one waiting outlet or two (R84, R88, R89). -/

namespace Sys2Proof.Machine

open Sys2Proof

/-! ### The outlets that a pass takes (R88) -/

/-- How long an outlet has waited; 0 without a time. -/
def State.waitAge (s : State) (o : Outlet) : Nat :=
  (s.berth o).sc.waitingSince.elim 0 fun t => elapsed s.tb.run t.run

theorem State.waitingOutlets_eq (s : State) :
    s.waitingOutlets = sortByAge s.waitAge (Outlet.all.filter s.waits) := by
  unfold State.waitingOutlets
  refine congrArg (fun f => sortByAge f _) (funext fun o => ?_)
  unfold State.waitAge
  cases (s.berth o).sc.waitingSince <;> rfl

theorem State.mem_waitingOutlets {s : State} {o : Outlet} :
    o ∈ s.waitingOutlets ↔ s.waits o = true := by
  rw [State.waitingOutlets_eq, (sortByAge_perm _ _).mem_iff, List.mem_filter]
  exact and_iff_right (by cases o <;> decide)

theorem State.waitingOutlets_ordered (s : State) :
    s.waitingOutlets.Pairwise (TakenBefore s.waitAge Outlet.number) := by
  rw [State.waitingOutlets_eq]
  exact sortByAge_ordered (Outlet.filter_ordered _)

/-- A pass takes the outlets that wait, in the one order that there is. -/
theorem State.waitingOutlets_unique {s : State} {l : List Outlet}
    (mem : ∀ o, o ∈ l ↔ s.waits o = true)
    (ordered : l.Pairwise (TakenBefore s.waitAge Outlet.number)) : s.waitingOutlets = l := by
  have : Std.Irrefl (TakenBefore s.waitAge Outlet.number) := ⟨fun o h => by unfold TakenBefore at h; omega⟩
  have : Std.Antisymm (TakenBefore s.waitAge Outlet.number) :=
    ⟨fun a b h g => by unfold TakenBefore at h g; omega⟩
  exact List.Pairwise.eq_of_mem_iff s.waitingOutlets_ordered ordered fun o => by
    rw [State.mem_waitingOutlets, mem]

theorem State.waitingOutlets_one {s : State} {o : Outlet} (waits : s.waits o = true)
    (others : ∀ q, q ≠ o → s.waits q = false) : s.waitingOutlets = [o] :=
  State.waitingOutlets_unique (fun q => by
    rw [List.mem_singleton]
    refine ⟨fun h => h ▸ waits, fun h => ?_⟩
    by_contra hq
    rw [others q hq] at h
    cases h) (List.pairwise_singleton _ _)

theorem State.waitingOutlets_two {s : State} {o q : Outlet} (waits : s.waits o = true)
    (waits' : s.waits q = true) (others : ∀ r, r ≠ o → r ≠ q → s.waits r = false)
    (first : TakenBefore s.waitAge Outlet.number o q) : s.waitingOutlets = [o, q] :=
  State.waitingOutlets_unique (fun r => by
    rw [List.mem_cons, List.mem_singleton]
    refine ⟨fun h => ?_, fun h => ?_⟩
    · rcases h with rfl | rfl
      · exact waits
      · exact waits'
    · by_contra hr
      obtain ⟨ho, hq⟩ := not_or.mp hr
      rw [others r ho hq] at h
      cases h) (List.pairwise_pair.mpr first)

/-! ### One outlet judged (R88) -/

section
variable {s : State} {o : Outlet} {d : Declaration} (state : (s.berth o).sc.state = .awaitAuth)
  (declared : (s.berth o).sc.declaration = some d)
include state declared

theorem State.evaluate_refuses (short : s.feasible (s.berth o).sc.target = false) :
    s.evaluate o = s.refuseWaiting o := by
  unfold State.evaluate
  dsimp only
  rw [decide_eq_true state, declared]
  exact if_pos (by rw [short]; rfl)

/-- The conditions of R88 in order: the waiting reason is that of the first that fails. -/
theorem State.evaluate_keeps (feasible : s.feasible (s.berth o).sc.target = true) {reason : WaitingReason}
    (h : (s.account.matchPlace o d.hull = none ∧ reason = .authorisation)
      ∨ ((s.account.matchPlace o d.hull).isSome = true ∧ s.remaining < d.kw ∧ reason = .budget)
      ∨ ((s.account.matchPlace o d.hull).isSome = true ∧ (d.kw : Int) ≤ s.remaining ∧ s.spare < 1
        ∧ reason = .billingSpace)) : s.evaluate o = s.keepWaiting o reason := by
  unfold State.evaluate
  dsimp only
  rw [decide_eq_true state, declared]
  refine (if_neg (by rw [feasible]; decide)).trans ?_
  rcases h with ⟨unmatched, rfl⟩ | ⟨matched, short, rfl⟩ | ⟨matched, room, full, rfl⟩
  · rw [unmatched]
  · obtain ⟨place, found⟩ := Option.isSome_iff_exists.mp matched
    rw [found]
    exact if_pos short
  · obtain ⟨place, found⟩ := Option.isSome_iff_exists.mp matched
    rw [found]
    exact (if_neg (by omega)).trans (if_pos full)

theorem State.evaluate_session (feasible : s.feasible (s.berth o).sc.target = true) {place : Nat}
    (matched : s.account.matchPlace o d.hull = some place) (room : (d.kw : Int) ≤ s.remaining)
    (spare : 1 ≤ s.spare) : s.evaluate o = s.openSession o d place := by
  unfold State.evaluate
  dsimp only
  rw [decide_eq_true state, declared]
  refine (if_neg (by rw [feasible]; decide)).trans ?_
  rw [matched]
  exact (if_neg (by omega)).trans (if_neg (by omega))

end

/-! ### What a pass leaves due -/

theorem State.passes_of_no_pass {s : State} (h : s.passDue = false) (n : Nat) : s.passes n = s := by
  cases n with
  | zero => unfold State.passes; cases s; cases h; rfl
  | succ n => unfold State.passes; rw [h]; rfl

theorem State.passes_of_noneWaits {s : State} (h : s.noneWaits) (n : Nat) :
    s.passes n = { s with passDue := false } := by
  cases n with
  | zero => rfl
  | succ n =>
    have passed : s.pass = { s with passDue := false } := by
      unfold State.pass; rw [State.waitingOutlets_nil h]; rfl
    unfold State.passes
    split
    · rw [passed]
      exact State.passes_of_no_pass rfl n
    · next quiet => cases s; rw [Bool.not_eq_true] at quiet; cases quiet; rfl

theorem State.settle_pass {s : State} (due : s.passDue = true) : s.settle = s.pass.passes 4 := by
  show s.passes 5 = _
  unfold State.passes
  exact if_pos due

/-! ### An outlet refused (R88) -/

theorem State.refuseWaiting_sc (s : State) (o : Outlet) : ((s.refuseWaiting o).berth o).sc
    = { ((s.moveTo o .cableProven).berth o).sc with denial := some .capacityImpossible, deny := true } := by
  unfold State.refuseWaiting
  rw [State.berth_onSc_self]

theorem State.refuseWaiting_berth_ne (s : State) {o p : Outlet} (h : p ≠ o) :
    SameButPool (s.berth p) ((s.refuseWaiting o).berth p) := by
  unfold State.refuseWaiting
  rw [State.berth_onSc_ne _ _ h]
  exact s.moveTo_berth_ne .cableProven 0 h

@[simp] theorem State.moveTo_account (s : State) (o : Outlet) (new : OutletState) (pSet : Nat) :
    (s.moveTo o new pSet).account = s.account := by
  unfold State.moveTo
  dsimp only
  rw [State.reportState_account, (State.poolTakesState_poolOnly _ _ _ _).rest]
  rfl

/-! ### A session opened (R89, R140) -/

theorem State.openSession_berth_self (s : State) (o : Outlet) (d : Declaration) (place : Nat) :
    ∃ short, SameButPool (((s.fillSession o d place).berth o).takeState .energising 0 s.now short)
      ((s.openSession o d place).berth o) := by
  rw [State.openSession_eq, State.berth_report]
  exact ⟨_, (s.fillSession o d place).moveTo_berth_self o .energising 0⟩

theorem State.openSession_berth_ne (s : State) {o p : Outlet} (d : Declaration) (place : Nat)
    (h : p ≠ o) : SameButPool (s.berth p) ((s.openSession o d place).berth p) := by
  rw [State.openSession_eq, State.berth_report, ← s.fillSession_berth_ne d place h]
  exact (s.fillSession o d place).moveTo_berth_ne .energising 0 h

theorem State.openSession_account (s : State) (o : Outlet) (d : Declaration) (place : Nat) :
    (s.openSession o d place).account = { s.account with
      places := s.account.places.set place none
      sessionCounter := nextSession s.account.sessionCounter } := by
  rw [State.openSession_eq]
  exact State.moveTo_account _ _ _ _

theorem State.openSession_metering (s : State) (o : Outlet) (d : Declaration) (place : Nat) :
    (s.openSession o d place).metering = s.metering := by
  rw [State.openSession_eq]
  exact State.moveTo_metering _ _ _ _

theorem State.openSession_sc (s : State) (o : Outlet) (d : Declaration) (place : Nat) :
    ∃ short, ((s.openSession o d place).berth o).sc
      = ({ (s.berth o).sc with session := some (s.sessionFor d place) } : OutletRecord).takeState
          .energising s.now short := by
  obtain ⟨short, same⟩ := s.openSession_berth_self o d place
  exact ⟨short, by rw [same.sc, Berth.takeState_sc, State.fillSession_berth_self]⟩

theorem State.openSession_mt (s : State) (o : Outlet) (d : Declaration) (place : Nat) :
    ((s.openSession o d place).berth o).mt = some (s.firstMeter d place) := by
  obtain ⟨short, same⟩ := s.openSession_berth_self o d place
  rw [same.mt, Berth.takeState_mt, State.fillSession_berth_self]

/-! ### The ratings that R81 counts -/

/-- What R81 counts of a module. -/
def Module.counted (m : Module) : Option Nat :=
  if m.state = .offline ∨ m.state = .lockedOut then none else m.rating

/-- No module counts for more or less (R81). -/
def KeepsCounted (s t : State) : Prop := ∀ m, (t.module m).counted = (s.module m).counted

theorem KeepsCounted.trans {s t u : State} (h : KeepsCounted s t) (g : KeepsCounted t u) :
    KeepsCounted s u := fun m => (g m).trans (h m)

theorem KeepsCounted.of_pool {s t : State} (h : t.pool = s.pool) : KeepsCounted s t := fun m => by
  unfold State.module; rw [h]

theorem KeepsCounted.ratings {s t : State} (h : KeepsCounted s t) : t.countedRatings = s.countedRatings := by
  have terms (r : State) : r.countedRatings = ModuleNo.all.filterMap fun m => (r.module m).counted := by
    show (ModuleNo.all.map r.pool.modules.get).filterMap Module.counted = _
    rw [List.filterMap_map]
    rfl
  rw [terms, terms]
  exact congrArg (fun f => List.filterMap f ModuleNo.all) (funext h)

theorem KeepsCounted.feasible {s t : State} (h : KeepsCounted s t) (target : Nat) :
    t.feasible target = s.feasible target := by
  unfold State.feasible
  rw [h.ratings]

/-- A start that begins or ends leaves a module counting as it did. -/
theorem Module.counted_of {m n : Module} (h : m.state = .idle ∨ m.state = .starting)
    (g : n.state = .starting ∨ n.state = .stopping) (rating : n.rating = m.rating) :
    n.counted = m.counted := by
  have counts : ¬ (m.state = .offline ∨ m.state = .lockedOut) := by
    rcases h with h | h <;> rw [h] <;> decide
  have counts' : ¬ (n.state = .offline ∨ n.state = .lockedOut) := by
    rcases g with g | g <;> rw [g] <;> decide
  unfold counted
  rw [if_neg counts, if_neg counts', rating]

theorem State.servePool_counted (s : State) (o : Outlet) : KeepsCounted s (s.servePool o) := fun m => by
  rcases s.module_servePool o m with same | ⟨idle, p, forms, begun⟩
  · rw [same]
  · rw [begun]
    exact Module.counted_of (.inl idle) (.inl rfl) rfl

theorem State.endStarts_counted (s : State) (o : Outlet) : KeepsCounted s (s.endStarts o) := fun m => by
  rw [State.module_endStarts]
  split
  · next starting =>
    have state : (s.module m).state = .starting := by simpa using (Bool.and_eq_true_iff.mp starting).2
    exact Module.counted_of (.inr state) (.inr rfl) rfl
  · rfl

/-- A change of state other than out of or into TRIPPED, or into WIND_DOWN, starts modules and ends
starts (R27, R32). -/
theorem State.moveTo_counted {s : State} {o : Outlet} {new : OutletState} (pSet : Nat)
    (old : (s.berth o).sc.state ≠ .tripped) (ht : new ≠ .tripped) (hw : new ≠ .windDown) :
    KeepsCounted s (s.moveTo o new pSet) := by
  unfold State.moveTo
  dsimp only
  refine KeepsCounted.trans (t := s.onBerth o fun b =>
    b.takeState new pSet s.now (decide (s.capacity o < (s.berth o).sc.target))) (.of_pool rfl) ?_
  refine KeepsCounted.trans ?_ (.of_pool (State.reportState_pool _ _ _))
  generalize (s.onBerth o fun b =>
    b.takeState new pSet s.now (decide (s.capacity o < (s.berth o).sc.target))) = u
  unfold State.poolTakesState
  dsimp only
  rw [if_neg old]
  refine KeepsCounted.trans ?_ (State.servePool_counted _ _)
  have ended : KeepsCounted u (if new.requests then u else u.endStarts o) := by
    split
    · exact fun _ => rfl
    · exact State.endStarts_counted u o
  split
  · exact absurd rfl ht
  · exact absurd rfl hw
  · exact (if_neg old : _ = _) ▸ ended
  all_goals exact ended

end Sys2Proof.Machine
end

