-- ==== Sys2Proof/Proofs/Connecting.lean ====
section
/-! PROOFS. Connect requests of the SCP (R80, R81), and the sum of the largest ratings. -/

namespace Sys2Proof.Machine

open Sys2Proof

/-! ### The sum of the largest ratings (R81) -/

theorem insertRating_perm (n : Nat) (l : List Nat) : (insertRating n l).Perm (n :: l) := by
  induction l with
  | nil => exact .refl _
  | cons m l ih =>
    unfold insertRating
    split
    · exact .refl _
    · exact (ih.cons m).trans (.swap n m l)

theorem insertRating_descends {n : Nat} {l : List Nat} (h : l.Pairwise (· ≥ ·)) :
    (insertRating n l).Pairwise (· ≥ ·) := by
  induction l with
  | nil => exact List.pairwise_singleton _ _
  | cons m l ih =>
    obtain ⟨above, rest⟩ := List.pairwise_cons.mp h
    unfold insertRating
    split
    · next le =>
      refine List.pairwise_cons.mpr ⟨fun x hx => ?_, h⟩
      rcases List.mem_cons.mp hx with rfl | hx
      · exact le
      · exact (above x hx).trans le
    · next gt =>
      refine List.pairwise_cons.mpr ⟨fun x hx => ?_, ih rest⟩
      rcases List.mem_cons.mp ((insertRating_perm n l).mem_iff.mp hx) with rfl | hx
      · exact Nat.le_of_not_le gt
      · exact above x hx

/-- A list of ratings, the largest first. -/
theorem sortRatings_spec (l : List Nat) :
    (l.foldr insertRating []).Perm l ∧ (l.foldr insertRating []).Pairwise (· ≥ ·) := by
  induction l with
  | nil => exact ⟨.refl _, .nil⟩
  | cons n l ih =>
    obtain ⟨perm, descends⟩ := ih
    exact ⟨(insertRating_perm n _).trans (perm.cons n), insertRating_descends descends⟩

/-- Of a list with the largest first, no more than k elements sum to more than the first k. -/
theorem sum_le_sum_take {l : List Nat} (descends : l.Pairwise (· ≥ ·)) :
    ∀ {k : Nat} {m : List Nat}, m.Sublist l → m.length ≤ k → m.sum ≤ (l.take k).sum := by
  induction l with
  | nil =>
    intro k m sub _
    rw [List.sublist_nil.mp sub]
    exact Nat.zero_le _
  | cons a l ih =>
    obtain ⟨above, rest⟩ := List.pairwise_cons.mp descends
    intro k m sub few
    cases m with
    | nil => exact Nat.zero_le _
    | cons b m =>
      cases k with
      | zero => exact absurd few (by simp)
      | succ k =>
        have few' : m.length ≤ k := Nat.le_of_succ_le_succ few
        rw [List.take_succ_cons, List.sum_cons, List.sum_cons]
        rcases List.sublist_cons_iff.mp sub with sub | ⟨r, same, sub⟩
        · have first := above b (sub.subset List.mem_cons_self)
          have others := ih rest ((List.sublist_cons_self b m).trans sub) few'
          omega
        · obtain ⟨rfl, rfl⟩ := List.cons.inj same
          exact Nat.add_le_add_left (ih rest sub few') _

theorem sumOfLargest8_eq (l : List Nat) :
    sumOfLargest8 l = ((l.foldr insertRating []).take 8).sum := List.sum_eq_foldl.symm

/-! ### A STATUS of the SCP -/

/-- A good reply leaves an entry DUPLICATE exactly where it was. -/
theorem Station.good_duplicate (e : Station) (st : ShipStatus) (scp : Bool) :
    ((e.good st scp).state == .duplicate) = (e.state == .duplicate) := by
  unfold good
  cases e.state <;> rfl

theorem ShipLink.anyDuplicate_good (l : ShipLink) (a : Nat) (st : ShipStatus) (scp : Bool) :
    (l.onEntry a fun e => e.good st scp).anyDuplicate = l.anyDuplicate := by
  unfold anyDuplicate onEntry
  rw [List.any_map]
  refine congrArg (List.any l.stations) (funext fun e => ?_)
  dsimp only [Function.comp_apply]
  split
  · exact e.good_duplicate st scp
  · rfl

/-- The SCP whose good reply is taken is PRESENT (R130). -/
theorem ShipLink.scpPresent_good {l : ShipLink} {a : Nat} (h : l.isScp a = true) (st : ShipStatus)
    (scp : Bool) : (l.onEntry a fun e => e.good st scp).scpPresent = true := by
  unfold isScp at h
  cases found : l.entryOf .scp with
  | none => rw [found] at h; cases h
  | some e =>
    rw [found] at h
    obtain ⟨mem, kind, unshared⟩ := ShipLink.entryOf_spec found
    unfold scpPresent onEntry
    rw [List.any_map, List.any_eq_true]
    refine ⟨e, mem, ?_⟩
    dsimp only [Function.comp_apply]
    rw [if_pos (beq_iff_eq.mp h)]
    unfold Station.good
    dsimp only
    rw [kind]
    cases state : e.state with
    | duplicate => exact absurd state unshared
    | present | lost => rfl

/-- The change of SL that a good reply of the SCP makes. -/
def ShipLink.hears (l : ShipLink) (held : Bool) (a : Nat) (st : ShipStatus) : ShipLink :=
  ({ l with attention := held } : ShipLink).onEntry a fun e => e.good st true

theorem ShipLink.hears_blocksConnect {l : ShipLink} {a : Nat} (held : Bool) (st : ShipStatus)
    (scp : l.isScp a = true) : (l.hears held a st).blocksConnect = l.anyDuplicate := by
  unfold blocksConnect hears
  rw [ShipLink.anyDuplicate_good,
    ShipLink.scpPresent_good (l := { l with attention := held }) (show ShipLink.isScp _ a = true from scp)]
  exact Bool.or_false _

/-- What a STATUS of the SCP without its stop flag comes to. -/
theorem exec_status_scp {s : State} {o : Outlet} {frame : ShipFrame} {st : ShipStatus}
    (h : s.expects o frame.src) (dst : frame.dst = 31) (payload : readStatus frame.payload = some st)
    (scp : (s.berth o).sl.isScp frame.src = true) (stop : st.stop = false) (held : Bool) :
    exec (.status o held frame) s
      = .next (((s.onSl o fun l => l.hears held frame.src st).takeScpStatus o st).resume o).settle := by
  have noted := (State.noteHeld_isScp (held := held)).trans scp
  have folded : (s.noteHeld o held).replied o frame.src st
      = s.onSl o fun l => l.hears held frame.src st := by
    unfold State.replied
    rw [noted]
    exact State.onSl_onSl _ _ _ _
  have replied : (s.noteHeld o held).goodReply o frame.src st
      = ((s.noteHeld o held).replied o frame.src st).takeScpStatus o st := by
    unfold State.goodReply
    dsimp only
    rw [if_pos noted, if_neg (by rw [stop]; decide)]
    rfl
  rw [exec_status_expected h dst payload held, replied, folded]

theorem State.onSc_onSc (s : State) (o : Outlet) (f g : OutletRecord → OutletRecord) :
    (s.onSc o f).onSc o g = s.onSc o fun r => g (f r) := State.onBerth_onBerth _ _ _ _

/-- CANCEL and RETURN taken where they are newly set (R80, R100). -/
def State.takesFlags (s : State) (o : Outlet) (cancel ret : Bool) : State :=
  if ret then (if cancel then s.shipCancel o else s).shipReturn o
  else if cancel then s.shipCancel o else s

/-- SC's memory of the flags after a STATUS (R80). -/
def State.seesFlags (s : State) (o : Outlet) (st : ShipStatus) (blocked : Bool) : State :=
  s.onSc o fun r => { r with flagsSeen := r.flagsAfter st blocked }

theorem State.takeScpStatus_eq (s : State) (o : Outlet) (st : ShipStatus) {asks blocked : Bool}
    (hasks : (s.berth o).sc.asksConnect st = asks) (hblocked : (s.berth o).sl.blocksConnect = blocked) :
    s.takeScpStatus o st
      = (if asks && !(asks && blocked) then
          (s.seesFlags o st (asks && blocked)).shipConnect o st.declaration
        else s.seesFlags o st (asks && blocked)).takesFlags o
          (newlySet (s.berth o).sc.flagsSeen st.cancel RequestMemory.cancel)
          (newlySet (s.berth o).sc.flagsSeen st.ret RequestMemory.ret) := by
  subst hasks hblocked
  rfl

/-- CANCEL and RETURN do nothing in CABLE_PROVEN (Table 5-5). -/
theorem State.takesFlags_cableProven {s : State} {o : Outlet} (state : (s.berth o).sc.state = .cableProven)
    (cancel ret : Bool) : s.takesFlags o cancel ret = s := by
  have cancels : s.shipCancel o = s := by unfold State.shipCancel; rw [state]
  have returns : s.shipReturn o = s := by unfold State.shipReturn; rw [state]
  unfold State.takesFlags
  rw [cancels, ite_self, returns, ite_self]

/-- A STATUS that carries a connect request alone, the first seen of the SCP (R80). -/
theorem State.takeScpStatus_connect {s : State} {o : Outlet} {d : Option Declaration}
    (seen : (s.berth o).sc.flagsSeen = none) (unblocked : (s.berth o).sl.blocksConnect = false)
    (state : (s.berth o).sc.state = .cableProven) :
    s.takeScpStatus o { stop := false, connect := true, cancel := false, ret := false, declaration := d }
      = (s.onSc o fun r => { r with
          flagsSeen := some { connect := true, cancel := false, ret := false }
          lastDeclared := some d }).takeConnect o d := by
  have asks : (s.berth o).sc.asksConnect
      { stop := false, connect := true, cancel := false, ret := false, declaration := d } = true := by
    unfold OutletRecord.asksConnect newlySet
    rw [seen]
    rfl
  refine (State.takeScpStatus_eq s o _ asks unblocked).trans ?_
  show State.shipConnect _ o d = _
  unfold State.shipConnect
  refine (if_pos (by rw [State.seesFlags, State.berth_onSc_self]; exact state)).trans ?_
  rw [State.seesFlags, State.onSc_onSc]
  rfl

/-- A STATUS with a blocked connect request does not count as the last one seen (R80). -/
theorem State.takeScpStatus_blocked {s : State} {o : Outlet} {st : ShipStatus}
    (asks : (s.berth o).sc.asksConnect st = true) (blocked : (s.berth o).sl.blocksConnect = true)
    (state : (s.berth o).sc.state = .cableProven) :
    s.takeScpStatus o st = s.onSc o fun r => { r with
      flagsSeen := r.flagsSeen.map fun m => { m with connect := false } } := by
  refine (State.takeScpStatus_eq s o st asks blocked).trans (State.takesFlags_cableProven ?_ _ _)
  show ((s.seesFlags o st true).berth o).sc.state = _
  rw [State.seesFlags, State.berth_onSc_self]
  exact state

/-! ### A connect request taken (R81) -/

theorem State.takeConnect_denied {s : State} {o : Outlet} {d : Option Declaration} {reason : DenialReason}
    (h : s.denialOf o d = some reason) :
    s.takeConnect o d = s.onSc o fun r => { r with denial := some reason, deny := true } := by
  unfold State.takeConnect
  rw [h]

theorem State.takeConnect_held {s : State} {o : Outlet} {d : Declaration}
    (h : s.denialOf o (some d) = none) :
    s.takeConnect o (some d) = { (s.onSc o fun r => { r with
      declaration := some d, target := capacityTarget d.kva s.account.headroom
      denial := none, deny := false }).moveTo o .awaitAuth with passDue := true } := by
  unfold State.takeConnect
  rw [h]

theorem State.takeConnect_metering (s : State) (o : Outlet) (d : Option Declaration) :
    (s.takeConnect o d).metering = s.metering := by
  unfold State.takeConnect
  split
  · exact State.moveTo_metering _ _ _ _
  · rfl

/-- The checks of R81 in order. -/
theorem State.denialOf_iff {s : State} {o : Outlet} {d : Declaration} {target fits : Nat}
    (htarget : target = capacityTarget d.kva s.account.headroom)
    (hfits : fits = d.cables * (s.berth o).sc.settings.cableRating) :
    (∀ reason, (d.inRange = false ∧ reason = .declarationRange)
        ∨ (d.inRange = true ∧ d.volts ≠ (s.berth o).nominalVolts ∧ reason = .nominalMismatch)
        ∨ (d.inRange = true ∧ d.volts = (s.berth o).nominalVolts ∧ fits < target ∧ reason = .cableLimit)
        ∨ (d.inRange = true ∧ d.volts = (s.berth o).nominalVolts ∧ target ≤ fits
          ∧ sumOfLargest8 s.countedRatings < target ∧ reason = .capacityImpossible) →
      s.denialOf o (some d) = some reason)
    ∧ (d.inRange = true → d.volts = (s.berth o).nominalVolts → target ≤ fits →
      target ≤ sumOfLargest8 s.countedRatings → s.denialOf o (some d) = none) := by
  subst htarget hfits
  unfold State.denialOf State.feasible Berth.nominalVolts
  dsimp only
  refine ⟨?_, fun range volts cable room => ?_⟩
  · rintro reason (⟨range, rfl⟩ | ⟨range, volts, rfl⟩ | ⟨range, volts, cable, rfl⟩
      | ⟨range, volts, cable, room, rfl⟩)
    · rw [range]; rfl
    · rw [range]; exact if_pos volts
    · rw [range]
      exact (if_neg (not_not.mpr volts)).trans (if_pos cable)
    · rw [range]
      refine (if_neg (not_not.mpr volts)).trans ((if_neg (Nat.not_lt.mpr cable)).trans (if_pos ?_))
      rw [decide_eq_false (Nat.not_le.mpr room)]
      rfl
  · rw [range]
    refine (if_neg (not_not.mpr volts)).trans ((if_neg (Nat.not_lt.mpr cable)).trans (if_neg ?_))
    rw [decide_eq_true room]
    decide

/-- The state with a first connect request of the SCP noted, not yet judged. -/
def State.requested (s : State) (o : Outlet) (f : ShipLink → ShipLink) (d : Declaration) : State :=
  (s.onSl o f).onSc o fun r => { r with
    flagsSeen := some { connect := true, cancel := false, ret := false }
    lastDeclared := some (some d) }

theorem State.requested_berth (s : State) (o : Outlet) (f : ShipLink → ShipLink) (d : Declaration) :
    (s.requested o f d).berth o = { s.berth o with
      sl := f (s.berth o).sl
      sc := { (s.berth o).sc with
        flagsSeen := some { connect := true, cancel := false, ret := false }
        lastDeclared := some (some d) } } := by
  rw [State.requested, State.berth_onSc_self, State.berth_onSl_self]

theorem State.requested_berth_ne (s : State) {o q : Outlet} (f : ShipLink → ShipLink) (d : Declaration)
    (h : q ≠ o) : (s.requested o f d).berth q = s.berth q := by
  rw [State.requested, State.berth_onSc_ne _ _ h, State.berth_onSl_ne _ _ h]

/-- What a connect request and the leader's going on act on. -/
theorem State.connect_acts (s : State) (o : Outlet) (f : ShipLink → ShipLink) (d : Declaration) :
    Acts ⟨[o], [], true, false, []⟩ s
      (((s.requested o f d).takeConnect o (some d)).resume o).settle :=
  ((((Acts.onSl s o f List.mem_cons_self).trans (Acts.onSc _ o _ List.mem_cons_self rfl rfl)).trans
    (State.takeConnect_acts _ o _ List.mem_cons_self rfl)).trans
      (State.resume_acts _ o List.mem_cons_self)).trans (State.settle_acts _ _)

/-- The leader's going on changes SL alone. -/
theorem State.resume_berth (s : State) (o : Outlet) :
    (s.resume o).berth o = { s.berth o with sl := ((s.berth o).resume s.tb.run).sl } := by
  rw [State.resume, State.berth_onBerth_self, Berth.resume_rest]

/-- No entry names a hull: no place matches it (R84). -/
theorem Account.matchPlace_none {a : Account} {o : Outlet} {hull : Nat}
    (h : ∀ p ∈ a.places, ∀ e, p = some e → e.hull ≠ hull) : a.matchPlace o hull = none := by
  have absent (outlet : AuthOutlet) : findPlace a.places hull outlet = none := by
    unfold findPlace
    refine List.findIdx?_eq_none_iff.mpr fun p hp => ?_
    cases p with
    | none => rfl
    | some e =>
      show e.matchesAt hull outlet = false
      unfold AuthEntry.matchesAt
      rw [beq_eq_false_iff_ne.mpr (h _ hp e rfl)]
      rfl
  unfold Account.matchPlace
  rw [absent, absent]
  rfl

/-- A request that waits for its AUTHORISE: the pass of the step's end finds no entry (R88). -/
theorem State.settle_keeps {s : State} {o : Outlet} {d : Declaration} {reason : WaitingReason}
    (due : s.passDue = true) (state : (s.berth o).sc.state = .awaitAuth)
    (declared : (s.berth o).sc.declaration = some d) (others : ∀ q, q ≠ o → s.waits q = false)
    (feasible : s.feasible (s.berth o).sc.target = true)
    (h : (s.account.matchPlace o d.hull = none ∧ reason = .authorisation)
      ∨ ((s.account.matchPlace o d.hull).isSome = true ∧ s.remaining < d.kw ∧ reason = .budget)
      ∨ ((s.account.matchPlace o d.hull).isSome = true ∧ (d.kw : Int) ≤ s.remaining ∧ s.spare < 1
        ∧ reason = .billingSpace)) :
    s.settle = { s with passDue := false }.keepWaiting o reason := by
  have passed : s.pass = { s with passDue := false }.keepWaiting o reason := by
    unfold State.pass
    rw [State.waitingOutlets_one (by unfold State.waits; rw [state]; decide) others]
    exact State.evaluate_keeps (s := { s with passDue := false }) state declared feasible h
  rw [State.settle_pass due, passed]
  exact State.passes_of_no_pass rfl 4

end Sys2Proof.Machine

namespace Sys2Proof.Proofs

open Machine

/-- The sum that check 4 of R81 takes. -/
theorem sumOfLargest8_largest (l : List Nat) :
    (∃ m : List Nat, m.Sublist l ∧ m.length ≤ 8 ∧ m.sum = sumOfLargest8 l)
    ∧ ∀ m : List Nat, m.Sublist l → m.length ≤ 8 → m.sum ≤ sumOfLargest8 l := by
  obtain ⟨perm, descends⟩ := sortRatings_spec l
  rw [sumOfLargest8_eq]
  refine ⟨?_, fun m sub few => ?_⟩
  · obtain ⟨m, same, sub⟩ := ((l.foldr insertRating []).take_sublist 8).subperm.trans perm.subperm
    exact ⟨m, sub, by rw [same.length_eq]; exact List.length_take_le _ _, same.sum_eq⟩
  · obtain ⟨m', same, sub'⟩ := sub.subperm.trans perm.symm.subperm
    rw [← same.sum_eq]
    exact sum_le_sum_take descends sub' (by rw [same.length_eq]; exact few)

/-- A first connect request of the SCP, not blocked (R80, R81, R84, R88). -/
theorem connectRequested (o : Outlet) (held : Bool) (frame : ShipFrame) (s : State) (d : Declaration)
    (expects : s.expects o frame.src) (dst : frame.dst = 31)
    (payload : readStatus frame.payload = some { stop := false, connect := true, cancel := false
                                                 ret := false, declaration := some d })
    (scp : (s.berth o).sl.isScp frame.src = true)
    (single : ∀ e ∈ (s.berth o).sl.stations, e.state ≠ .duplicate)
    (state : (s.berth o).sc.state = .cableProven) (seen : (s.berth o).sc.flagsSeen = none)
    (quiet : s.noneWaits) (target fits : Nat)
    (htarget : target = capacityTarget d.kva s.account.headroom)
    (hfits : fits = d.cables * (s.berth o).sc.settings.cableRating) :
    ∃ t, exec (.status o held frame) s = .next t
      ∧ Elsewhere [o] [] s t ∧ NoFault s t ∧ t.metering = s.metering
      ∧ (∀ reason,
          (d.inRange = false ∧ reason = .declarationRange)
          ∨ (d.inRange = true ∧ d.volts ≠ (s.berth o).nominalVolts
              ∧ reason = .nominalMismatch)
          ∨ (d.inRange = true ∧ d.volts = (s.berth o).nominalVolts ∧ fits < target
                ∧ reason = .cableLimit)
          ∨ (d.inRange = true ∧ d.volts = (s.berth o).nominalVolts ∧ target ≤ fits
                ∧ sumOfLargest8 s.countedRatings < target ∧ reason = .capacityImpossible) →
          (t.berth o).sc.state = .cableProven ∧ (t.berth o).sc.denial = some reason
            ∧ (t.berth o).sc.deny = true
            ∧ (t.berth o).sc.declaration = (s.berth o).sc.declaration
            ∧ (t.berth o).sc.session = (s.berth o).sc.session ∧ t.account = s.account)
      ∧ (d.inRange = true → d.volts = (s.berth o).nominalVolts → target ≤ fits →
          target ≤ sumOfLargest8 s.countedRatings →
          (∀ p ∈ s.account.places, ∀ e, p = some e → e.hull ≠ d.hull) →
          (t.berth o).sc.state = .awaitAuth ∧ (t.berth o).sc.declaration = some d
            ∧ (t.berth o).sc.target = target ∧ (t.berth o).sc.denial = none
            ∧ (t.berth o).sc.deny = false ∧ (t.berth o).sc.waiting = some .authorisation
            ∧ (t.berth o).sc.waitingSince = some s.now
            ∧ (t.berth o).sc.session = (s.berth o).sc.session ∧ t.account = s.account) := by
  obtain ⟨f, hf⟩ : ∃ f : ShipLink → ShipLink, f = fun l => l.hears held frame.src
    { stop := false, connect := true, cancel := false, ret := false, declaration := some d } := ⟨_, rfl⟩
  have unblocked : (((s.onSl o f)).berth o).sl.blocksConnect = false := by
    rw [State.berth_onSl_self, hf]
    refine (ShipLink.hears_blocksConnect held _ scp).trans ?_
    exact List.any_eq_false.mpr fun e he => by rw [beq_iff_eq]; exact single e he
  have hexec := exec_status_scp expects dst payload scp rfl held
  rw [← hf, State.takeScpStatus_connect (by rw [State.sc_onSl]; exact seen) unblocked
    (by rw [State.sc_onSl]; exact state)] at hexec
  change exec _ s = .next (((s.requested o f d).takeConnect o (some d)).resume o).settle at hexec
  have acts := s.connect_acts o f d
  have berth := s.requested_berth o f d
  obtain ⟨u, hu⟩ : ∃ u, u = s.requested o f d := ⟨_, rfl⟩
  rw [← hu] at hexec acts berth
  obtain ⟨denied, held⟩ := State.denialOf_iff (s := u) (o := o) (d := d) (target := target) (fits := fits)
    (by rw [hu]; exact htarget) (by rw [berth]; exact hfits)
  have ratings : u.countedRatings = s.countedRatings := by rw [hu]; rfl
  have volts : (u.berth o).nominalVolts = (s.berth o).nominalVolts := by rw [berth]; rfl
  rw [ratings, volts] at denied held
  have metering : (((u.takeConnect o (some d)).resume o).settle).metering = s.metering := by
    rw [(State.settle_opens _).metering]
    show (u.takeConnect o (some d)).metering = _
    rw [State.takeConnect_metering, hu]
    rfl
  have others (q : Outlet) (hq : q ≠ o) : (u.berth q) = s.berth q := by
    rw [hu, State.requested_berth_ne _ _ _ hq]
  refine ⟨_, hexec, acts.elsewhere, acts.noFault rfl, metering, fun reason fails => ?_,
    fun range volts cable room unnamed => ?_⟩
  · obtain ⟨w, hw⟩ : ∃ w, w = (u.takeConnect o (some d)).resume o := ⟨_, rfl⟩
    have sc : (w.berth o).sc = { (u.berth o).sc with denial := some reason, deny := true } := by
      rw [hw, State.resume_berth, State.takeConnect_denied (denied reason fails), State.berth_onSc_self]
    have noneWaits : w.noneWaits := fun q => by
      unfold State.waits
      by_cases hq : q = o
      · subst hq
        rw [sc, berth]
        dsimp only
        rw [state]
        rfl
      · rw [hw, State.takeConnect_denied (denied reason fails), State.resume, State.berth_onBerth_ne _ _ hq,
          State.berth_onSc_ne _ _ hq, others q hq]
        exact quiet q
    rw [← hw, State.settle_of_noneWaits noneWaits]
    show (w.berth o).sc.state = _ ∧ (w.berth o).sc.denial = _ ∧ (w.berth o).sc.deny = _
      ∧ (w.berth o).sc.declaration = _ ∧ (w.berth o).sc.session = _ ∧ w.account = _
    rw [sc, berth]
    refine ⟨state, rfl, rfl, rfl, rfl, ?_⟩
    rw [hw, State.takeConnect_denied (denied reason fails), hu]
    rfl
  · have taken := State.takeConnect_held (held range volts cable room)
    obtain ⟨v, hv⟩ : ∃ v, v = u.onSc o fun r => { r with
      declaration := some d, target := capacityTarget d.kva u.account.headroom
      denial := none, deny := false } := ⟨_, rfl⟩
    rw [← hv] at taken
    obtain ⟨w, hw⟩ : ∃ w, w = (u.takeConnect o (some d)).resume o := ⟨_, rfl⟩
    have vsc : (v.berth o).sc = { (u.berth o).sc with
        declaration := some d, target := target, denial := none, deny := false } := by
      rw [hv, State.berth_onSc_self, htarget, hu]
      rfl
    have now : v.now = s.now := by rw [hv, hu]; rfl
    have sc : (w.berth o).sc = (v.berth o).sc.takeState .awaitAuth s.now
        (decide (v.capacity o < (v.berth o).sc.target)) := by
      rw [hw, State.resume_berth, taken]
      show ((v.moveTo o .awaitAuth).berth o).sc = _
      rw [(v.moveTo_berth_self o .awaitAuth 0).sc, Berth.takeState_sc, now]
    have account : w.account = s.account := by
      rw [hw, taken]
      show (v.moveTo o .awaitAuth).account = _
      rw [State.moveTo_account, hv, hu]
      rfl
    have counted : KeepsCounted s w := by
      have moved : KeepsCounted v (v.moveTo o .awaitAuth) := State.moveTo_counted 0
        (by rw [vsc, berth]; exact fun h => absurd (state.symm.trans h) (by decide)) (by decide) (by decide)
      have same : KeepsCounted s v := .of_pool (by rw [hv, hu]; rfl)
      exact (same.trans moved).trans (.of_pool (by rw [hw, taken]; rfl))
    have waits (q : Outlet) (hq : q ≠ o) : w.waits q = false := by
      unfold State.waits
      rw [hw, taken, State.resume, State.berth_onBerth_ne _ _ hq]
      show (((v.moveTo o .awaitAuth).berth q).sc.state == .awaitAuth) = false
      rw [(v.moveTo_berth_ne .awaitAuth 0 hq).sc, hv, State.berth_onSc_ne _ _ hq, others q hq]
      exact quiet q
    have kept := State.settle_keeps (s := w) (o := o) (d := d) (by rw [hw, taken]; rfl)
      (by rw [sc]; rfl) (by rw [sc, vsc]; rfl) waits (by
        rw [counted.feasible, sc, vsc]
        exact decide_eq_true room) (.inl ⟨by
          rw [account]; exact Account.matchPlace_none unnamed, rfl⟩)
    rw [← hw, kept, State.keepWaiting, State.berth_onSc_self]
    show (w.berth o).sc.state = _ ∧ (w.berth o).sc.declaration = _ ∧ (w.berth o).sc.target = _
      ∧ (w.berth o).sc.denial = _ ∧ (w.berth o).sc.deny = _ ∧ _ ∧ (w.berth o).sc.waitingSince = _
      ∧ (w.berth o).sc.session = _ ∧ w.account = _
    rw [sc, vsc, berth]
    exact ⟨rfl, rfl, rfl, rfl, rfl, rfl, rfl, rfl, account⟩

/-- Settles O35: a connect request judged, a blocked one, and the sum of the largest ratings. -/
theorem connectRequests : Obligations.ConnectRequests := by
  refine ⟨fun o held frame s d expects dst payload scp single state seen quiet target counted fits
    htarget hcounted hfits => ?_, fun o held frame s st expects dst payload stop connect scp shared state
    pass fresh => ?_, sumOfLargest8_largest⟩
  · subst hcounted
    exact connectRequested o held frame s d expects dst payload scp single state seen quiet target fits
      htarget hfits
  · obtain ⟨f, hf⟩ : ∃ f : ShipLink → ShipLink, f = fun l => l.hears held frame.src st := ⟨_, rfl⟩
    have hexec := exec_status_scp expects dst payload scp stop held
    have asks : (((s.onSl o f)).berth o).sc.asksConnect st = true := by
      rw [State.sc_onSl]
      unfold OutletRecord.asksConnect
      rw [connect, Bool.true_and, Bool.or_eq_true]
      refine fresh.imp (fun clear => ?_) fun differs => bne_iff_ne.mpr differs
      unfold newlySet
      cases memory : (s.berth o).sc.flagsSeen with
      | none => rfl
      | some m =>
        dsimp only
        rw [clear m memory]
        rfl
    have blocked : (((s.onSl o f)).berth o).sl.blocksConnect = true := by
      obtain ⟨e, he, duplicate⟩ := shared
      rw [State.berth_onSl_self, hf]
      refine (ShipLink.hears_blocksConnect held _ scp).trans ?_
      exact List.any_eq_true.mpr ⟨e, he, beq_iff_eq.mpr duplicate⟩
    rw [← hf, State.takeScpStatus_blocked asks blocked (by rw [State.sc_onSl]; exact state)] at hexec
    refine ⟨_, hexec.trans (congrArg Host.Outcome.next (State.settle_of_no_pass pass)), rfl, fun q hq => ?_, ?_⟩
    · rw [State.resume, State.berth_onBerth_ne _ _ hq, State.berth_onSc_ne _ _ hq,
        State.berth_onSl_ne _ _ hq]
    · rw [State.resume_berth, State.berth_onSc_self, State.berth_onSl_self]

end Sys2Proof.Proofs
end

