-- ==== Sys2Proof/Proofs/Authorising.lean ====
section
/-! PROOFS. The passes that an AUTHORISE and a change of the import limit call for (R84, R85, R88, R89). -/

namespace Sys2Proof.Machine

open Sys2Proof

/-! ### The entry that an outlet matches (R84) -/

theorem findPlace_of {places : List (Option AuthEntry)} {n : Nat} {e : AuthEntry} {hull : Nat}
    {outlet : AuthOutlet} (here : places[n]? = some (some e)) (hhull : e.hull = hull)
    (houtlet : e.outlet = outlet) (before : ∀ k, k < n → ∀ f, places[k]? = some (some f) →
      f.hull = hull → f.outlet ≠ outlet) : findPlace places hull outlet = some n := by
  unfold findPlace
  refine findIdx?_of_first here ?_ fun k x hk hx => ?_
  · show e.matchesAt hull outlet = true
    unfold AuthEntry.matchesAt
    rw [hhull, houtlet, beq_self_eq_true, beq_self_eq_true]
    rfl
  · cases x with
    | none => rfl
    | some f =>
      show f.matchesAt hull outlet = false
      have other := before k hk f hx
      unfold AuthEntry.matchesAt
      rw [Bool.and_eq_false_imp]
      exact fun same => beq_eq_false_iff_ne.mpr (other (beq_iff_eq.mp same))

theorem findPlace_none {places : List (Option AuthEntry)} {hull : Nat} {outlet : AuthOutlet}
    (h : ∀ x ∈ places, ∀ f, x = some f → f.hull = hull → f.outlet ≠ outlet) :
    findPlace places hull outlet = none := by
  unfold findPlace
  refine List.findIdx?_eq_none_iff.mpr fun x hx => ?_
  cases x with
  | none => rfl
  | some f =>
    show f.matchesAt hull outlet = false
    unfold AuthEntry.matchesAt
    rw [Bool.and_eq_false_imp]
    exact fun same => beq_eq_false_iff_ne.mpr (h _ hx f rfl (beq_iff_eq.mp same))

theorem findPlace_isSome {places : List (Option AuthEntry)} {hull : Nat} {outlet : AuthOutlet} :
    (findPlace places hull outlet).isSome = true
      ↔ ∃ x ∈ places, ∃ f, x = some f ∧ f.hull = hull ∧ f.outlet = outlet := by
  rw [← not_iff_not, Bool.not_eq_true, Option.isSome_eq_false_iff, Option.isNone_iff_eq_none]
  refine ⟨fun none ⟨x, hx, f, hf, hhull, houtlet⟩ => ?_, fun h => findPlace_none fun x hx f hf hhull houtlet =>
    h ⟨x, hx, f, hf, hhull, houtlet⟩⟩
  subst hf
  unfold findPlace at none
  have := List.findIdx?_eq_none_iff.mp none _ hx
  dsimp only at this
  unfold AuthEntry.matchesAt at this
  rw [hhull, houtlet, beq_self_eq_true, beq_self_eq_true] at this
  cases this

/-- An entry that names the outlet is matched before one that names ANY (R84). -/
theorem Account.matchPlace_of {a : Account} {o : Outlet} {hull n : Nat} {e : AuthEntry}
    (here : a.places[n]? = some (some e)) (hhull : e.hull = hull)
    (names : e.outlet = .outlet o ∨ (e.outlet = .any ∧ ∀ x ∈ a.places, ∀ f, x = some f → f.hull = hull →
      f.outlet ≠ .outlet o))
    (before : ∀ k, k < n → ∀ f, a.places[k]? = some (some f) → f.hull = hull → f.outlet ≠ e.outlet) :
    a.matchPlace o hull = some n := by
  unfold matchPlace
  rcases names with outlet | ⟨any, unnamed⟩
  · rw [findPlace_of here hhull outlet fun k hk f hf same => outlet ▸ before k hk f hf same]
    rfl
  · rw [findPlace_none unnamed, findPlace_of here hhull any fun k hk f hf same => any ▸ before k hk f hf same]
    rfl

theorem Account.matchPlace_isSome {a : Account} {o : Outlet} {hull : Nat} :
    (a.matchPlace o hull).isSome = true ↔ ∃ x ∈ a.places, ∃ f, x = some f ∧ f.hull = hull
      ∧ (f.outlet = .outlet o ∨ f.outlet = .any) := by
  have orElse (x y : Option Nat) : (x.orElse fun _ => y).isSome = (x.isSome || y.isSome) := by
    cases x <;> rfl
  unfold matchPlace
  rw [orElse, Bool.or_eq_true, findPlace_isSome, findPlace_isSome]
  constructor
  · rintro (⟨x, hx, f, hf, hhull, h⟩ | ⟨x, hx, f, hf, hhull, h⟩)
    · exact ⟨x, hx, f, hf, hhull, .inl h⟩
    · exact ⟨x, hx, f, hf, hhull, .inr h⟩
  · rintro ⟨x, hx, f, hf, hhull, h | h⟩
    · exact .inl ⟨x, hx, f, hf, hhull, h⟩
    · exact .inr ⟨x, hx, f, hf, hhull, h⟩

/-! ### The pass of one waiting outlet (R88) -/

theorem State.clear_due {s : State} (h : s.passDue = false) :
    ({ ({ s with passDue := true } : State) with passDue := false } : State) = s := by
  cases s; cases h; rfl

/-- A waiting outlet is refused: the pass ends there. -/
theorem State.settle_refuses {s : State} {o : Outlet} {d : Declaration} (clear : s.passDue = false)
    (state : (s.berth o).sc.state = .awaitAuth) (declared : (s.berth o).sc.declaration = some d)
    (others : ∀ q, q ≠ o → s.waits q = false) (short : s.feasible (s.berth o).sc.target = false) :
    ({ s with passDue := true } : State).settle = { s.refuseWaiting o with passDue := false } := by
  have passed : ({ s with passDue := true } : State).pass = s.refuseWaiting o := by
    unfold State.pass
    rw [State.clear_due clear, State.waitingOutlets_one (s := { s with passDue := true }) (o := o)
      (by show ((s.berth o).sc.state == .awaitAuth) = true; rw [state]; rfl) others]
    exact State.evaluate_refuses state declared short
  rw [State.settle_pass rfl, passed]
  refine State.passes_of_noneWaits (fun q => ?_) 4
  by_cases hq : q = o
  · subst hq
    unfold State.waits
    rw [State.refuseWaiting_sc, (s.moveTo_berth_self q .cableProven 0).sc, Berth.takeState_sc]
    rfl
  · unfold State.waits
    rw [(s.refuseWaiting_berth_ne hq).sc]
    exact others q hq

/-- A waiting outlet's session opens: nothing more waits. -/
theorem State.settle_session {s : State} {o : Outlet} {d : Declaration} {place : Nat}
    (clear : s.passDue = false) (state : (s.berth o).sc.state = .awaitAuth)
    (declared : (s.berth o).sc.declaration = some d) (others : ∀ q, q ≠ o → s.waits q = false)
    (feasible : s.feasible (s.berth o).sc.target = true)
    (matched : s.account.matchPlace o d.hull = some place) (room : (d.kw : Int) ≤ s.remaining)
    (spare : 1 ≤ s.spare) :
    ({ s with passDue := true } : State).settle = { s.openSession o d place with passDue := false } := by
  have passed : ({ s with passDue := true } : State).pass = s.openSession o d place := by
    unfold State.pass
    rw [State.clear_due clear, State.waitingOutlets_one (s := { s with passDue := true }) (o := o)
      (by show ((s.berth o).sc.state == .awaitAuth) = true; rw [state]; rfl) others]
    exact State.evaluate_session state declared feasible matched room spare
  rw [State.settle_pass rfl, passed]
  refine State.passes_of_noneWaits (fun q => ?_) 4
  unfold State.waits
  by_cases hq : q = o
  · subst hq
    obtain ⟨short, sc⟩ := s.openSession_sc q d place
    rw [sc]
    rfl
  · rw [(s.openSession_berth_ne d place hq).sc]
    exact others q hq

/-- With the reason that it waits for already noted, a pass changes nothing of an outlet. -/
theorem State.passes_keeps {s : State} {o : Outlet} {reason : WaitingReason}
    (waits : s.waits o = true) (others : ∀ q, q ≠ o → s.waits q = false)
    (keeps : ({ s with passDue := false } : State).evaluate o
      = ({ s with passDue := false } : State).keepWaiting o reason)
    (noted : (s.berth o).sc.waiting = some reason) (n : Nat) :
    s.passes (n + 1) = { s with passDue := false } := by
  have same : ({ s with passDue := false } : State).keepWaiting o reason = { s with passDue := false } := by
    unfold State.keepWaiting State.onSc
    refine State.onBerth_unchanged ?_
    show ({ s.berth o with sc := { (s.berth o).sc with waiting := some reason } } : Berth) = s.berth o
    rw [← noted]
  have passed : s.pass = { s with passDue := false } := by
    unfold State.pass
    rw [State.waitingOutlets_one waits others]
    exact keeps.trans same
  unfold State.passes
  split
  · rw [passed]
    exact State.passes_of_no_pass rfl n
  · next quiet => cases s; rw [Bool.not_eq_true] at quiet; cases quiet; rfl

/-! ### Claims (R85) -/

/-- The claims rest on the sessions. -/
theorem State.claims_congr {s t : State} (h : ∀ q, (t.berth q).sc.session = (s.berth q).sc.session) :
    t.claims = s.claims := by
  have claim (q : Outlet) : (t.berth q).claim = (s.berth q).claim := by
    unfold Berth.claim; rw [h q]
  rw [State.claims_eq, State.claims_eq, claim, claim, claim, claim]

/-- A session opened claims the power declared (R89). -/
theorem State.openSession_claims {s : State} {o : Outlet} (d : Declaration) (place : Nat)
    (h : (s.berth o).sc.session = none) : (s.openSession o d place).claims = s.claims + d.kw := by
  have replaced := State.claims_replace (s := s) (t := s.openSession o d place) (o := o) fun p hp => by
    unfold Berth.claim; rw [(s.openSession_berth_ne d place hp).sc]
  obtain ⟨short, sc⟩ := s.openSession_sc o d place
  have before : (s.berth o).claim = 0 := by unfold Berth.claim; rw [h]
  have after : ((s.openSession o d place).berth o).claim = d.kw := by
    unfold Berth.claim; rw [sc]; rfl
  omega

/-! ### AUTHORISE (R82) -/

/-- With no entry for a hull, an AUTHORISE takes the lowest empty place (R82). -/
theorem placeFor_empty {places : List (Option AuthEntry)} {e : AuthEntry}
    (unnamed : ∀ x ∈ places, ∀ f, x = some f → f.hull ≠ e.hull) (room : none ∈ places) :
    ∃ n, placeFor places e = some n ∧ places[n]? = some none := by
  have absent : findPlace places e.hull e.outlet = none :=
    findPlace_none fun x hx f hf same => absurd same (unnamed x hx f hf)
  obtain ⟨n, hn⟩ : ∃ n, places.findIdx? Option.isNone = some n := by
    refine Option.isSome_iff_exists.mp ?_
    rw [List.findIdx?_isSome, List.any_eq_true]
    exact ⟨none, room, rfl⟩
  obtain ⟨hlt, empty, -⟩ := List.findIdx?_eq_some_iff_getElem.mp hn
  refine ⟨n, ?_, ?_⟩
  · unfold placeFor emptyPlace
    rw [absent, hn]
    rfl
  · rw [List.getElem?_eq_getElem hlt, Option.isNone_iff_eq_none.mp empty]

/-- The entry that an AUTHORISE writes is the one that an outlet waits for (R84). -/
theorem Account.matchPlace_written {a : Account} {o : Outlet} {n : Nat} {e : AuthEntry}
    (unnamed : ∀ x ∈ a.places, ∀ f, x = some f → f.hull ≠ e.hull) (empty : a.places[n]? = some none)
    (names : e.outlet = .any ∨ e.outlet = .outlet o) :
    ({ a with places := a.places.set n (some e) } : Account).matchPlace o e.hull = some n := by
  obtain ⟨hlt, -⟩ := List.getElem?_eq_some_iff.mp empty
  have other (x : Option AuthEntry) (hx : x ∈ a.places.set n (some e)) (f : AuthEntry) (hf : x = some f)
      (same : f.hull = e.hull) : f = e := by
    rcases List.mem_or_eq_of_mem_set hx with hx | rfl
    · exact absurd same (unnamed x hx f hf)
    · exact (Option.some.inj hf).symm
  refine Account.matchPlace_of (e := e) (List.getElem?_set_self hlt) rfl ?_ fun k hk f hf same => ?_
  · rcases names with any | outlet
    · exact .inr ⟨any, fun x hx f hf same => by rw [other x hx f hf same, any]; nofun⟩
    · exact .inl outlet
  · rw [List.getElem?_set_ne (Nat.ne_of_gt hk)] at hf
    exact absurd same (unnamed _ (List.mem_of_getElem? hf) f rfl)

end Sys2Proof.Machine

namespace Sys2Proof.Proofs

open Machine

/-- Settles O47: the entry written is the one matched, and the session that it opens. -/
theorem authorisationOpensTheSession : Obligations.AuthorisationOpensTheSession := by
  intro tag p outlet o s d hp houtlet range free names state declared hull others unnamed room target budget
    spare
  obtain ⟨e, he⟩ : ∃ e, e = readAuthEntry p outlet := ⟨_, rfl⟩
  have ehull : e.hull = d.hull := by rw [he, hull]; rfl
  obtain ⟨n, place, empty⟩ := placeFor_empty (e := e) (by rw [ehull]; exact unnamed) room
  obtain ⟨hlt, here⟩ := List.getElem?_eq_some_iff.mp empty
  obtain ⟨u, hu⟩ : ∃ u : State, u = { s.setPlace n (some e) with passDue := false } := ⟨_, rfl⟩
  have uset : u.account = { s.account with places := s.account.places.set n (some e) } := by rw [hu]; rfl
  have matched : u.account.matchPlace o d.hull = some n := by
    rw [uset, ← ehull]
    exact Account.matchPlace_written (by rw [ehull]; exact unnamed) empty (by rw [he]; exact names)
  have settles := State.settle_session (s := u) (o := o) (d := d) (place := n) (by rw [hu])
    (by rw [hu]; exact state) (by rw [hu]; exact declared) (by rw [hu]; exact others)
    (by rw [hu]; exact decide_eq_true target) matched (by rw [hu]; exact budget) (by rw [hu]; exact spare)
  obtain ⟨t, ht⟩ : ∃ t, t = { s.setPlace n (some e) with passDue := true }.settle := ⟨_, rfl⟩
  have judged : judgeAuthorise p s = accept t (unsigned 1 (n + 1)) := by
    refine (ofLength_of_eq _ _ hp).trans ?_
    rw [houtlet, range]
    dsimp only
    rw [← he, place, ht]
  have opened : t = { u.openSession o d n with passDue := false } := by
    rw [ht, ← settles, hu]
  have ub : u.berth o = s.berth o := by rw [hu]; rfl
  have hplan : u.account.planAt n = field p 5 1 := by
    unfold Account.planAt
    rw [uset]
    dsimp only
    rw [List.getElem?_set_self hlt, he]
    rfl
  have session : u.sessionFor d n
      = { number := s.account.sessionCounter, hull := d.hull, plan := field p 5 1
          claim := d.kw, opened := s.now } := by
    unfold State.sessionFor
    rw [hplan, uset, hu]
    rfl
  obtain ⟨short, sc⟩ := u.openSession_sc o d n
  obtain ⟨short', same⟩ := u.openSession_berth_self o d n
  have tb : t.berth o = (u.openSession o d n).berth o := by rw [opened]; rfl
  obtain ⟨station, berths, modules, inputs⟩ :=
    (State.settle_acts ⟨[o], [], false, false, []⟩ ({ s.setPlace n (some e) with passDue := true } : State)).elsewhere
  rw [← ht] at station berths modules inputs
  refine ⟨t, _, State.request_next free judged, ?_, ?_, ?_, ?_, ?_, ?_, ?_, ?_, ?_, ?_, ?_⟩
  · rw [tb, sc]; rfl
  · rw [tb, same.rg, Berth.takeState_rg, Berth.enterMode_mode]; rfl
  · rw [tb, sc, session]; rfl
  · rw [tb, sc, ub]; exact declared
  · rw [tb, sc, hu]; rfl
  · rw [tb, same.sy, Berth.takeState_sy]; rfl
  · refine ⟨_, by rw [tb, State.openSession_mt], ?_, ?_, ?_, rfl, rfl, rfl, rfl, ?_, rfl⟩
    · show (u.sessionFor d n).number = _
      rw [session]
    · show (u.sessionFor d n).plan = _
      rw [session]
    · rw [hu]; rfl
    · rw [hu]; rfl
  · rw [opened]
    show (u.openSession o d n).account = _
    rw [State.openSession_account, uset]
    dsimp only
    rw [List.set_set, ← here, List.set_getElem_self]
    rfl
  · rw [opened]
    show (u.openSession o d n).metering = _
    rw [State.openSession_metering, hu]
    rfl
  · exact ⟨⟨station.tb, station.grid, station.gridWatch, station.svl, station.pending, station.tripHold,
      station.commandFrom, station.limit, station.headroom, station.importFrom, station.importReported,
      station.length, station.rounding, station.bands, station.enables, station.outletEvents,
      station.reportOff⟩, berths, modules, inputs⟩
  · obtain ⟨flags, sinceClear, capture⟩ := State.settle_noFault { s.setPlace n (some e) with passDue := true }
    rw [← ht] at flags sinceClear capture
    exact ⟨flags, sinceClear, capture⟩

end Sys2Proof.Proofs
end

