-- ==== Sys2Proof/Proofs/ImportLimit.lean ====
section
/-! PROOFS. The evaluation pass that a change of the import limit calls for (R85, R88, R89). -/

namespace Sys2Proof.Machine

open Sys2Proof

/-- A change of the import limit: the limit written and an excess of the claims raised, before the pass that
it calls for (R85). -/
structure SetsLimit (s u v : State) (limit : Nat) : Prop where
  changes : limit ≠ s.account.limit
  clear : s.passDue = false
  set : u = { s with account := { s.account with limit := limit } }
  judged : v = if limit < s.claims then u.raise .overBudget .station else u

section
variable {s u v : State} {limit : Nat}

theorem SetsLimit.setLimit (h : SetsLimit s u v limit) :
    s.setLimit limit = { v with passDue := true }.settle := by
  obtain ⟨changes, clear, set, judged⟩ := h
  have due : (s.passDue || decide (limit ≠ s.account.limit)) = true := by
    rw [decide_eq_true changes, Bool.or_true]
  unfold State.setLimit
  dsimp only
  rw [due, judged, set]
  split <;> rfl

theorem SetsLimit.account (h : SetsLimit s u v limit) : v.account = { s.account with limit := limit } := by
  rw [h.judged, h.set]
  split <;> rfl

theorem SetsLimit.berths (h : SetsLimit s u v limit) : v.berths = s.berths := by
  rw [h.judged, h.set]
  split <;> rfl

theorem SetsLimit.berth (h : SetsLimit s u v limit) (q : Outlet) : v.berth q = s.berth q := by
  unfold State.berth; rw [h.berths]

theorem SetsLimit.metering (h : SetsLimit s u v limit) : v.metering = s.metering := by
  rw [h.judged, h.set]
  split <;> rfl

theorem SetsLimit.pool (h : SetsLimit s u v limit) : v.pool = s.pool := by
  rw [h.judged, h.set]
  split <;> rfl

theorem SetsLimit.now (h : SetsLimit s u v limit) : v.tb = s.tb := by
  rw [h.judged, h.set]
  split <;> rfl

theorem SetsLimit.passDue (h : SetsLimit s u v limit) : v.passDue = false := by
  rw [h.judged, h.set]
  split <;> exact h.clear

theorem SetsLimit.claims (h : SetsLimit s u v limit) : v.claims = s.claims := by
  unfold State.claims; rw [h.berths]

theorem SetsLimit.remaining (h : SetsLimit s u v limit) : v.remaining = (limit : Int) - s.claims := by
  unfold State.remaining; rw [h.claims, h.account]

theorem SetsLimit.spare (h : SetsLimit s u v limit) : v.spare = s.spare := by
  unfold State.spare State.openSessions State.freeEntries; rw [h.metering, h.berths]

theorem SetsLimit.feasible (h : SetsLimit s u v limit) (target : Nat) :
    v.feasible target = s.feasible target := (KeepsCounted.of_pool h.pool).feasible target

theorem SetsLimit.waits (h : SetsLimit s u v limit) (q : Outlet) : v.waits q = s.waits q := by
  unfold State.waits; rw [h.berth]

theorem SetsLimit.within (h : SetsLimit s u v limit) (room : s.claims ≤ limit) : v = u := by
  rw [h.judged, if_neg (Nat.not_lt.mpr room)]

/-- The pass handles the outlets that wait, and those of a list. -/
theorem SetsLimit.elsewhere (h : SetsLimit s u v limit) (os : List Outlet) :
    Elsewhere os [] u ({ v with passDue := true } : State).settle := by
  have raised : Acts ⟨os, [], false, false, [.overBudget]⟩ u v := by
    rw [h.judged]
    split
    · exact .raise _ _ _ _ _ List.mem_cons_self
    · exact .refl _ _
  exact ((raised.trans (.setPass _ v true)).trans (State.settle_acts _ _)).elsewhere

/-- SET_IMPORT_LIMIT answered with the limit, the claims and the remaining budget (R85, R176). -/
theorem SetsLimit.exec (h : SetsLimit s u v limit) {tag : Byte} {p : List Byte} (hp : p.length = 2)
    (hlimit : limit = field p 0 2) (bound : limit ≤ 60000) (free : s.svl.inProgress = none) {t : State}
    (ht : t = { v with passDue := true }.settle) {claims : Int}
    (hclaims : (t.claims : Int) = claims) :
    Sys2Proof.Machine.exec (.setImportLimit tag p) s = .next (t.answered 0x03 tag
      (0 :: unsigned 2 limit ++ signed 4 claims ++ signed 4 ((limit : Int) - claims))) := by
  have account : t.account.limit = limit := by
    have kept := (State.settle_acts ⟨[], [], false, false, []⟩ ({ v with passDue := true } : State)).station.limit
    rw [← ht] at kept
    rw [kept]
    show v.account.limit = limit
    rw [h.account]
  have results : budgetResults t = unsigned 2 limit ++ signed 4 claims ++ signed 4 ((limit : Int) - claims) := by
    unfold budgetResults State.remaining
    rw [hclaims, account]
  have judged : judgeSetImportLimit p s = accept t (budgetResults t) := by
    refine (ofLength_of_eq _ _ hp).trans ?_
    rw [← hlimit, h.setLimit, ← ht]
    exact if_neg (Nat.not_lt.mpr bound)
  refine (State.request_next free judged).trans ?_
  rw [results]
  rfl

end

/-- A session opened is that of the entry matched. -/
theorem State.sessionFor_of {s : State} {d : Declaration} {n : Nat} {e : AuthEntry}
    (here : s.account.places[n]? = some (some e)) : s.sessionFor d n
      = { number := s.account.sessionCounter, hull := d.hull, plan := e.plan, claim := d.kw
          opened := s.now } := by
  unfold State.sessionFor Account.planAt
  rw [here]

/-- Of two waiting outlets the first opens its session, and the budget no longer fits the other (R88). -/
theorem State.settle_two {s : State} {o q : Outlet} {d d' : Declaration} {place : Nat}
    (clear : s.passDue = false) (hq : q ≠ o) (state : (s.berth o).sc.state = .awaitAuth)
    (declared : (s.berth o).sc.declaration = some d) (fresh : (s.berth o).sc.session = none)
    (state' : (s.berth q).sc.state = .awaitAuth) (declared' : (s.berth q).sc.declaration = some d')
    (others : ∀ r, r ≠ o → r ≠ q → s.waits r = false)
    (first : TakenBefore s.waitAge Outlet.number o q)
    (feasible : s.feasible (s.berth o).sc.target = true)
    (feasible' : s.feasible (s.berth q).sc.target = true)
    (matched : s.account.matchPlace o d.hull = some place)
    (matched' : (s.openSession o d place).account.matchPlace q d'.hull |>.isSome)
    (room : (d.kw : Int) ≤ s.remaining) (short : s.remaining - d.kw < d'.kw) (spare : 1 ≤ s.spare) :
    ({ s with passDue := true } : State).settle
      = { (s.openSession o d place).keepWaiting q .budget with passDue := false } := by
  obtain ⟨w, hw⟩ : ∃ w, w = s.openSession o d place := ⟨_, rfl⟩
  rw [← hw] at matched' ⊢
  have wq : (w.berth q).sc = (s.berth q).sc := by rw [hw]; exact (s.openSession_berth_ne d place hq).sc
  have counted : KeepsCounted s w := by
    rw [hw, State.openSession_eq]
    refine KeepsCounted.trans (t := s.fillSession o d place) (.of_pool rfl) ?_
    refine (State.moveTo_counted 0 ?_ (by decide) (by decide)).trans (.of_pool rfl)
    rw [State.fillSession_berth_self]
    exact fun h => absurd (state.symm.trans h) (by decide)
  have remaining : w.remaining = s.remaining - d.kw := by
    unfold State.remaining
    rw [hw, State.openSession_claims d place fresh, State.openSession_account]
    push_cast
    omega
  have keeps : w.evaluate q = w.keepWaiting q .budget :=
    State.evaluate_keeps (by rw [wq]; exact state') (by rw [wq]; exact declared')
      (by rw [wq, counted.feasible]; exact feasible')
      (.inr (.inl ⟨matched', by rw [remaining]; exact short, rfl⟩))
  obtain ⟨x, hx⟩ : ∃ x, x = w.keepWaiting q .budget := ⟨_, rfl⟩
  have xq : (x.berth q).sc = { (s.berth q).sc with waiting := some .budget } := by
    rw [hx, State.keepWaiting, State.berth_onSc_self, wq]
  have sessions (r : Outlet) : (x.berth r).sc.session = (w.berth r).sc.session := by
    by_cases hr : r = q
    · subst hr; rw [xq, wq]
    · rw [hx, State.keepWaiting, State.berth_onSc_ne _ _ hr]
  have remaining' : x.remaining = s.remaining - d.kw := by
    rw [← remaining]
    unfold State.remaining
    rw [State.claims_congr sessions, hx]
    rfl
  have again : ({ x with passDue := false } : State).evaluate q
      = ({ x with passDue := false } : State).keepWaiting q .budget :=
    State.evaluate_keeps (d := d') (by show (x.berth q).sc.state = _; rw [xq]; exact state')
      (by show (x.berth q).sc.declaration = _; rw [xq]; exact declared')
      (by
        show ({ x with passDue := false } : State).feasible (x.berth q).sc.target = true
        rw [(counted.trans (.of_pool (by rw [hx]; rfl))).feasible, xq]
        exact feasible')
      (.inr (.inl ⟨by
        show (x.account.matchPlace q d'.hull).isSome = true
        rw [hx]; exact matched', by
        show x.remaining < _
        rw [remaining']; exact short, rfl⟩))
  have passed : ({ s with passDue := true } : State).pass = x := by
    unfold State.pass
    rw [State.clear_due clear, State.waitingOutlets_two (s := { s with passDue := true }) (o := o) (q := q)
      (by show ((s.berth o).sc.state == .awaitAuth) = true; rw [state]; rfl)
      (by show ((s.berth q).sc.state == .awaitAuth) = true; rw [state']; rfl) others first]
    show (s.evaluate o).evaluate q = x
    rw [State.evaluate_session state declared feasible matched room spare, ← hw, keeps, hx]
  have waits : x.waits q = true := by
    unfold State.waits
    rw [xq]
    dsimp only
    rw [state']
    rfl
  have others' (r : Outlet) (hr : r ≠ q) : x.waits r = false := by
    unfold State.waits
    rw [hx, State.keepWaiting, State.berth_onSc_ne _ _ hr, hw]
    by_cases ho : r = o
    · subst ho
      obtain ⟨short, sc⟩ := s.openSession_sc r d place
      rw [sc]
      rfl
    · rw [(s.openSession_berth_ne d place ho).sc]
      exact others r ho hr
  rw [State.settle_pass rfl, passed, State.passes_keeps waits others' again (by rw [xq]) 3, hx]

end Sys2Proof.Machine

namespace Sys2Proof.Proofs

open Machine

section
variable {tag : Byte} {p : List Byte} {s u v : State} {o : Outlet} {d : Declaration} {limit : Nat}

/-- One waiting outlet whose request is not granted (R88). -/
theorem waitingRefused (sets : SetsLimit s u v limit) (hp : p.length = 2) (hlimit : limit = field p 0 2)
    (bound : limit ≤ 60000) (free : s.svl.inProgress = none)
    (state : (s.berth o).sc.state = .awaitAuth) (declared : (s.berth o).sc.declaration = some d)
    (reply : List Byte)
    (hreply : reply = 0 :: unsigned 2 limit ++ signed 4 s.claims ++ signed 4 ((limit : Int) - s.claims))
    (others : ∀ q, q ≠ o → s.waits q = false) :
    (sumOfLargest8 s.countedRatings < (s.berth o).sc.target →
      ∃ t, exec (.setImportLimit tag p) s = .next (t.answered 0x03 tag reply)
        ∧ (t.berth o).sc.state = .cableProven ∧ (t.berth o).sc.declaration = none
        ∧ (t.berth o).sc.denial = some .capacityImpossible ∧ (t.berth o).sc.deny = true
        ∧ (t.berth o).sc.target = 0 ∧ (t.berth o).sc.session = (s.berth o).sc.session
        ∧ Elsewhere [o] [] u t ∧ NoFault v t ∧ t.account = u.account ∧ t.metering = s.metering)
    ∧ ((s.berth o).sc.target ≤ sumOfLargest8 s.countedRatings →
      ∀ (matched : Prop) (reason : WaitingReason),
        (matched ↔ ∃ x ∈ s.account.places, ∃ e, x = some e ∧ e.hull = d.hull
          ∧ (e.outlet = .outlet o ∨ e.outlet = .any)) →
        (¬ matched ∧ reason = .authorisation)
          ∨ (matched ∧ (limit : Int) - s.claims < d.kw ∧ reason = .budget)
          ∨ (matched ∧ (d.kw : Int) ≤ limit - s.claims ∧ s.spare < 1
            ∧ reason = .billingSpace) →
        exec (.setImportLimit tag p) s = .next
          ((v.onSc o fun r => { r with waiting := some reason }).answered 0x03 tag reply)) := by
  subst hreply
  have others' (q : Outlet) (hq : q ≠ o) : v.waits q = false := (sets.waits q).trans (others q hq)
  have state' : (v.berth o).sc.state = .awaitAuth := by rw [sets.berth]; exact state
  have declared' : (v.berth o).sc.declaration = some d := by rw [sets.berth]; exact declared
  refine ⟨fun short => ?_, fun enough matched reason hmatched fails => ?_⟩
  · obtain ⟨t, ht⟩ : ∃ t, t = { v with passDue := true }.settle := ⟨_, rfl⟩
    have refused : t = { v.refuseWaiting o with passDue := false } := by
      rw [ht]
      exact State.settle_refuses sets.passDue state' declared' others' (by
        rw [sets.feasible, sets.berth]; exact decide_eq_false (Nat.not_le.mpr short))
    have sc : (t.berth o).sc = { ((v.moveTo o .cableProven).berth o).sc with
        denial := some .capacityImpossible, deny := true } := by
      rw [refused]
      exact v.refuseWaiting_sc o
    have sessions (q : Outlet) : (t.berth q).sc.session = (s.berth q).sc.session := by
      rw [← sets.berth q]
      by_cases hq : q = o
      · subst hq
        rw [sc, (v.moveTo_berth_self q .cableProven 0).sc, Berth.takeState_sc]
        rfl
      · rw [refused]
        exact congrArg OutletRecord.session (v.refuseWaiting_berth_ne hq).sc
    refine ⟨t, sets.exec hp hlimit bound free ht (by rw [State.claims_congr sessions]), ?_, ?_, ?_, ?_, ?_,
      sessions o, ?_, ?_, ?_, ?_⟩
    · rw [sc, (v.moveTo_berth_self o .cableProven 0).sc, Berth.takeState_sc]; rfl
    · rw [sc, (v.moveTo_berth_self o .cableProven 0).sc, Berth.takeState_sc]; rfl
    · rw [sc]
    · rw [sc]
    · rw [sc, (v.moveTo_berth_self o .cableProven 0).sc, Berth.takeState_sc]; rfl
    · rw [ht]; exact sets.elsewhere [o]
    · obtain ⟨flags, sinceClear, capture⟩ := State.settle_noFault ({ v with passDue := true } : State)
      rw [← ht] at flags sinceClear capture
      exact ⟨flags, sinceClear, capture⟩
    · rw [refused, sets.set, ← sets.account]
      exact State.moveTo_account v o .cableProven 0
    · rw [refused, ← sets.metering]
      exact State.moveTo_metering v o .cableProven 0
  · have isSome : (v.account.matchPlace o d.hull).isSome = true ↔ matched := by
      rw [Account.matchPlace_isSome, sets.account, hmatched]
    have conditions : (v.account.matchPlace o d.hull = none ∧ reason = .authorisation)
        ∨ ((v.account.matchPlace o d.hull).isSome = true ∧ v.remaining < d.kw ∧ reason = .budget)
        ∨ ((v.account.matchPlace o d.hull).isSome = true ∧ (d.kw : Int) ≤ v.remaining ∧ v.spare < 1
          ∧ reason = .billingSpace) := by
      rw [isSome, sets.remaining, sets.spare, ← Option.not_isSome_iff_eq_none, isSome]
      exact fails
    have kept := State.settle_keeps (s := { v with passDue := true }) rfl state' declared' others'
      (by
        show v.feasible (v.berth o).sc.target = true
        rw [sets.feasible, sets.berth]; exact decide_eq_true enough) conditions
    rw [State.clear_due sets.passDue] at kept
    refine (sets.exec hp hlimit bound free rfl (claims := s.claims) ?_).trans (by rw [kept]; rfl)
    rw [kept]
    refine congrArg Nat.cast (State.claims_congr fun q => ?_)
    rw [← sets.berth q]
    exact (State.onSc_session (f := fun r => { r with waiting := some reason }) rfl q).1

end

/-- Settles O48: the pass that a change of the import limit calls for. -/
theorem evaluationPassesDecide : Obligations.EvaluationPassesDecide := by
  intro tag p s u v o d limit hp hlimit bound changes free clear hu hv state declared
  have sets : SetsLimit s u v limit := ⟨changes, clear, hu, hv⟩
  refine ⟨fun reply hreply others => waitingRefused sets hp hlimit bound free state declared reply hreply others,
    fun fresh enough room spare n e reply here hull names before hreply => ?_⟩
  have same : v = u := sets.within (by omega)
  have quiet : NoFault s u := by rw [hu]; exact ⟨rfl, rfl, rfl⟩
  have matched : v.account.matchPlace o d.hull = some n := by
    rw [sets.account]
    exact Account.matchPlace_of here hull names before
  have session : v.sessionFor d n = { number := s.account.sessionCounter, hull := d.hull, plan := e.plan
                                      claim := d.kw, opened := s.now } := by
    rw [State.sessionFor_of (by rw [sets.account]; exact here), sets.account, same, hu]
    rfl
  have fresh' : (v.berth o).sc.session = none := by rw [sets.berth]; exact fresh
  have state' : (v.berth o).sc.state = .awaitAuth := by rw [sets.berth]; exact state
  have declared' : (v.berth o).sc.declaration = some d := by rw [sets.berth]; exact declared
  have feasible : v.feasible (v.berth o).sc.target = true := by
    rw [sets.feasible, sets.berth]; exact decide_eq_true enough
  have room' : (d.kw : Int) ≤ v.remaining := by rw [sets.remaining]; exact room
  have spare' : 1 ≤ v.spare := by rw [sets.spare]; exact spare
  obtain ⟨short, sc⟩ := v.openSession_sc o d n
  obtain ⟨t, ht⟩ : ∃ t, t = ({ v with passDue := true } : State).settle := ⟨_, rfl⟩
  have noFault : NoFault s t := by
    rw [ht, same]
    exact quiet.trans ((NoFault.mk rfl rfl rfl : NoFault u { u with passDue := true }).trans
      (State.settle_noFault _))
  have answered (claims : (t.claims : Int) = s.claims + d.kw) :
      exec (.setImportLimit tag p) s = .next (t.answered 0x03 tag reply) := by
    rw [sets.exec hp hlimit bound free ht claims, hreply, Int.sub_sub]
  refine ⟨fun others => ?_, fun q d' since since' hq stateq declaredq others hsince hsince' earlier enough'
    named budget => ?_⟩
  · have opened := State.settle_session sets.passDue state' declared'
      (fun q hq => (sets.waits q).trans (others q hq)) feasible matched room' spare'
    rw [← ht] at opened
    have berth : t.berth o = (v.openSession o d n).berth o := by rw [opened]; rfl
    refine ⟨t, answered ?_, ?_, ?_, ?_, ?_, ht ▸ sets.elsewhere [o], noFault, ?_⟩
    · rw [opened]
      show (((v.openSession o d n).claims : Nat) : Int) = _
      rw [State.openSession_claims d n fresh', sets.claims]
      rfl
    · rw [berth, sc]; rfl
    · rw [berth, sc, session]; rfl
    · rw [berth, State.openSession_mt]; rfl
    · rw [opened]
      show (v.openSession o d n).account = _
      rw [State.openSession_account, sets.account, hu]
      rfl
    · rw [opened, ← sets.metering]
      exact v.openSession_metering o d n
  · have first : TakenBefore v.waitAge Outlet.number o q := by
      unfold TakenBefore State.waitAge
      rw [sets.berth, sets.berth, hsince, hsince', sets.now]
      exact earlier
    have matched' : ((v.openSession o d n).account.matchPlace q d'.hull).isSome = true := by
      obtain ⟨x, hx, f, rfl, fhull, foutlet⟩ := named
      rw [Account.matchPlace_isSome, State.openSession_account, sets.account]
      obtain ⟨k, hk⟩ := List.mem_iff_getElem?.mp hx
      refine ⟨some f, List.mem_iff_getElem?.mpr ⟨k, ?_⟩, f, rfl, fhull, .inl foutlet⟩
      dsimp only
      rw [List.getElem?_set_ne, hk]
      rintro rfl
      obtain rfl := Option.some.inj (Option.some.inj (here.symm.trans hk))
      rcases names with outlet | ⟨any, -⟩
      · rw [outlet] at foutlet
        exact hq (AuthOutlet.outlet.inj foutlet).symm
      · rw [any] at foutlet
        cases foutlet
    have opened := State.settle_two sets.passDue hq state' declared' fresh'
      (by rw [sets.berth]; exact stateq) (by rw [sets.berth]; exact declaredq)
      (fun r ho hr => (sets.waits r).trans (others r ho hr)) first feasible
      (by rw [sets.feasible, sets.berth]; exact decide_eq_true enough') matched matched' room'
      (by rw [sets.remaining]; exact budget) spare'
    rw [← ht] at opened
    have berth : t.berth o = (v.openSession o d n).berth o := by
      rw [opened]
      exact State.berth_onSc_ne (v.openSession o d n) (fun r => { r with waiting := some .budget })
        (Ne.symm hq)
    have other := v.openSession_berth_ne d n hq
    rw [sets.berth q] at other
    refine ⟨t, answered ?_, ?_, ?_, ?_, ?_, ht ▸ sets.elsewhere [o, q], noFault, ?_⟩
    · have kept : t.claims = (v.openSession o d n).claims := by
        rw [opened]
        exact State.claims_congr fun r =>
          (State.onSc_session (f := fun r => { r with waiting := some .budget }) rfl r).1
      rw [kept, State.openSession_claims d n fresh', sets.claims]
      rfl
    · rw [berth, sc]; rfl
    · rw [berth, sc, session]; rfl
    · rw [opened]
      show (((v.openSession o d n).keepWaiting q .budget).berth q).sc = _
      rw [State.keepWaiting, State.berth_onSc_self, other.sc]
    · rw [opened]
      show (((v.openSession o d n).keepWaiting q .budget).berth q).mt = _
      rw [State.keepWaiting, State.berth_onSc_self, other.mt]
    · rw [opened, ← sets.metering]
      exact v.openSession_metering o d n

end Sys2Proof.Proofs
end

