-- ==== Sys2Proof/Proofs/ShipFlags.lean ====
section
/-! PROOFS. The stop, cancel and return flags of the SCP (R80, R100, R109). -/

namespace Sys2Proof.Machine

open Sys2Proof

/-! ### Flags newly set (R80) -/

theorem newlySet_iff {seen : Option RequestMemory} {flag : Bool} {was : RequestMemory → Bool} :
    newlySet seen flag was = true ↔ flag = true ∧ ∀ m, seen = some m → was m = false := by
  unfold newlySet
  cases seen <;> simp

/-- A connect request held set, with the declaration last taken, is not taken again. -/
theorem OutletRecord.asksConnect_again {r : OutletRecord} {st : ShipStatus}
    (h : st.connect = true → ∃ m, r.flagsSeen = some m ∧ m.connect = true
      ∧ r.lastDeclared = some st.declaration) : r.asksConnect st = false := by
  unfold asksConnect
  cases connect : st.connect with
  | false => cases r.flagsSeen <;> rfl
  | true =>
    obtain ⟨m, seen, held, declared⟩ := h connect
    rw [seen, declared]
    unfold newlySet
    dsimp only
    rw [held, bne_self_eq_false]
    rfl

/-! ### What a set flag does by state (Table 5-5) -/

theorem State.shipReturn_idle {s : State} {o : Outlet} (hin : (s.berth o).sc.state ≠ .parallelIn)
    (hsupply : (s.berth o).sc.state ≠ .shoreSupply) : s.shipReturn o = s := by
  unfold State.shipReturn
  split
  · next h => exact absurd h hin
  · next h => exact absurd h hsupply
  all_goals rfl

/-- The states in which CANCEL does nothing. -/
def OutletState.ignoresCancel (st : OutletState) : Prop :=
  st = .dormant ∨ st = .cableProven ∨ st = .parallelOut ∨ st = .opening ∨ st = .windDown ∨ st = .tripped

theorem State.shipCancel_idle {s : State} {o : Outlet} (h : (s.berth o).sc.state.ignoresCancel) :
    s.shipCancel o = s := by
  unfold State.shipCancel
  rcases h with h | h | h | h | h | h <;> rw [h]

theorem OutletState.ignoresCancel.ignoresReturn {st : OutletState} (h : st.ignoresCancel) :
    st ≠ .parallelIn ∧ st ≠ .shoreSupply := by
  rcases h with h | h | h | h | h | h <;> rw [h] <;> decide

/-- The state after a flag was taken in which RETURN does nothing further. -/
theorem State.takesFlags_idle {s : State} {o : Outlet} (h : (s.berth o).sc.state.ignoresCancel)
    (cancel ret : Bool) : s.takesFlags o cancel ret = s := by
  obtain ⟨hin, hsupply⟩ := h.ignoresReturn
  unfold State.takesFlags
  rw [State.shipCancel_idle h, ite_self, State.shipReturn_idle hin hsupply, ite_self]

/-- Either flag in PARALLEL_IN leads to PARALLEL_OUT (R100). -/
theorem State.takesFlags_parallelIn {s : State} {o : Outlet} {cancel ret : Bool}
    (state : (s.berth o).sc.state = .parallelIn) (quiet : s.NoEntryCause o) (h : cancel = true ∨ ret = true) :
    s.takesFlags o cancel ret = s.moveTo o .parallelOut := by
  have enters : s.enter o .parallelOut = s.moveTo o .parallelOut :=
    State.enter_of_none (by rw [state]; decide) (by decide) (quiet.entering _)
  have cancels : s.shipCancel o = s.moveTo o .parallelOut := by
    unfold State.shipCancel; rw [state]; exact enters
  have returns : s.shipReturn o = s.moveTo o .parallelOut := by
    unfold State.shipReturn; rw [state]; exact enters
  have ended : (s.moveTo o .parallelOut).shipReturn o = s.moveTo o .parallelOut :=
    State.shipReturn_idle (by rw [State.moveTo_state]; decide) (by rw [State.moveTo_state]; decide)
  unfold State.takesFlags
  cases cancel <;> cases ret
  · simp at h
  · exact returns
  · exact cancels
  · exact (congrArg (fun t : State => t.shipReturn o) cancels).trans ended

/-- A return awaited in SHORE_SUPPLY, no generator CLOSED (R95, R100). -/
theorem State.takesFlags_shoreSupply {s : State} {o : Outlet} {cancel ret : Bool}
    (state : (s.berth o).sc.state = .shoreSupply) (opened : (s.berth o).anyClosed = false)
    (h : cancel = true ∨ ret = true) :
    s.takesFlags o cancel ret
      = if (s.berth o).sc.returnAwaited then s else s.onSc o fun r => r.awaitReturn s.tb.run := by
  have asked := State.requestReturn_of_not state opened
  have cancels : s.shipCancel o = s.requestReturn o := by unfold State.shipCancel; rw [state]
  have returns : s.shipReturn o = s.requestReturn o := by unfold State.shipReturn; rw [state]
  have again : (s.requestReturn o).shipReturn o = s.requestReturn o := by
    have sc : ((s.requestReturn o).berth o).sc.state = .shoreSupply
        ∧ ((s.requestReturn o).berth o).sc.returnAwaited = true := by
      rw [asked]
      split
      · next awaited => exact ⟨state, awaited⟩
      · rw [State.berth_onSc_self]; exact ⟨state, rfl⟩
    unfold State.shipReturn
    rw [sc.1]
    exact if_pos sc.2
  rw [← asked]
  unfold State.takesFlags
  cases cancel <;> cases ret
  · simp at h
  · exact returns
  · exact cancels
  · exact (congrArg (fun t : State => t.shipReturn o) cancels).trans again

/-- In TRIPPED a STATUS changes SC's memory of the flags alone. -/
theorem State.takeScpStatus_tripped {s : State} {o : Outlet} {st : ShipStatus}
    (state : (s.berth o).sc.state = .tripped) :
    ∃ blocked, s.takeScpStatus o st = s.seesFlags o st blocked := by
  obtain ⟨asks, hasks⟩ : ∃ a, (s.berth o).sc.asksConnect st = a := ⟨_, rfl⟩
  obtain ⟨blocked, hblocked⟩ : ∃ b, (s.berth o).sl.blocksConnect = b := ⟨_, rfl⟩
  have remembers : ((s.seesFlags o st (asks && blocked)).berth o).sc.state = .tripped := by
    rw [State.seesFlags, State.berth_onSc_self]; exact state
  have connects : (s.seesFlags o st (asks && blocked)).shipConnect o st.declaration
      = s.seesFlags o st (asks && blocked) := if_neg (by rw [remembers]; decide)
  refine ⟨asks && blocked, ?_⟩
  rw [State.takeScpStatus_eq s o st hasks hblocked, connects, ite_self]
  exact State.takesFlags_idle (.inr (.inr (.inr (.inr (.inr remembers))))) _ _

/-! ### A STATUS heard -/

/-- The state with a good STATUS of the SCP in the table and its flags remembered. -/
def State.heard (s : State) (o : Outlet) (held : Bool) (a : Nat) (st : ShipStatus) : State :=
  (s.onSl o fun l => l.hears held a st).seesFlags o st false

theorem State.heard_berth (s : State) (o : Outlet) (held : Bool) (a : Nat) (st : ShipStatus) :
    (s.heard o held a st).berth o = { s.berth o with
      sl := (s.berth o).sl.hears held a st
      sc := { (s.berth o).sc with
        flagsSeen := some { connect := st.connect, cancel := st.cancel, ret := st.ret } } } := by
  rw [State.heard, State.seesFlags, State.berth_onSc_self, State.berth_onSl_self]
  rfl

theorem State.heard_berth_ne (s : State) {o q : Outlet} (held : Bool) (a : Nat) (st : ShipStatus)
    (h : q ≠ o) : (s.heard o held a st).berth q = s.berth q := by
  rw [State.heard, State.seesFlags, State.berth_onSc_ne _ _ h, State.berth_onSl_ne _ _ h]

theorem State.heard_acts {x : Scope} (s : State) (o : Outlet) (held : Bool) (a : Nat) (st : ShipStatus)
    (h : o ∈ x.outlets) : Acts x s (s.heard o held a st) := by
  unfold State.heard State.seesFlags
  exact (Acts.onSl s o _ h).trans (Acts.onSc _ o _ h rfl rfl)

/-- A STATUS of the SCP without its stop flag and without a connect request to take. -/
theorem exec_status_flags {s : State} {o : Outlet} {frame : ShipFrame} {st : ShipStatus}
    (h : s.expects o frame.src) (dst : frame.dst = 31) (payload : readStatus frame.payload = some st)
    (scp : (s.berth o).sl.isScp frame.src = true) (stop : st.stop = false)
    (again : (s.berth o).sc.asksConnect st = false) (held : Bool) :
    exec (.status o held frame) s
      = .next ((((s.heard o held frame.src st).takesFlags o
          (newlySet (s.berth o).sc.flagsSeen st.cancel RequestMemory.cancel)
          (newlySet (s.berth o).sc.flagsSeen st.ret RequestMemory.ret)).resume o)).settle := by
  rw [exec_status_scp h dst payload scp stop held]
  have taken := State.takeScpStatus_eq (s.onSl o fun l => l.hears held frame.src st) o st
    (asks := false) (by rw [State.sc_onSl]; exact again) rfl
  rw [taken, State.sc_onSl]
  rfl

/-- A good STATUS of the SCP without its stop flag brings no cause to an entry. -/
theorem State.NoEntryCause.heard {s : State} {o : Outlet} (h : s.NoEntryCause o) {held : Bool} {a : Nat}
    {st : ShipStatus} (scp : (s.berth o).sl.isScp a = true) (stop : st.stop = false) :
    (s.heard o held a st).NoEntryCause o := by
  have berth := s.heard_berth o held a st
  refine ⟨by rw [berth]; exact h.pilot, ?_, ?_, h.grid⟩
  · rw [berth]
    have before := h.stop
    unfold ShipLink.stopShown at before ⊢
    rw [List.any_eq_false] at before ⊢
    intro x hx
    obtain ⟨e, he, rfl⟩ := List.mem_map.mp hx
    by_cases address : e.address = a
    · rw [if_pos address]
      show ¬ st.stop = true
      rw [stop]
      decide
    · rw [if_neg address]
      exact before e he
  · rw [berth]
    exact ShipLink.scpPresent_good (l := { (s.berth o).sl with attention := held })
      (show ShipLink.isScp _ a = true from scp) st true

/-! ### What stands over SL and the memory of the flags -/

/-- A change of an outlet's SL and of its memory of the SCP's flags alone. -/
def TouchesLink (f : Berth → Berth) : Prop :=
  ∀ b, f b = { b with sl := (f b).sl, sc := { b.sc with flagsSeen := (f b).sc.flagsSeen } }

theorem Tripped.touched {o : Outlet} {c : Cause} {s t : State} (h : Tripped o c s t) {f : Berth → Berth}
    (hf : TouchesLink f) : Tripped o c s (t.onBerth o f) := by
  have berth : (t.onBerth o f).berth o = { t.berth o with
      sl := (f (t.berth o)).sl
      sc := { (t.berth o).sc with flagsSeen := (f (t.berth o)).sc.flagsSeen } } := by
    rw [State.berth_onBerth_self]; exact hf _
  obtain ⟨state, cause, session, declaration, target, mode, close, drive, postTrip, counts, watches,
    later, meter, running, starting, flag⟩ := h
  constructor
  case running => exact running
  case starting => exact starting
  case flag => exact flag
  all_goals rw [berth]; assumption

theorem WindsDown.touched {o : Outlet} {s t : State} (h : WindsDown o s t) {f : Berth → Berth}
    (hf : TouchesLink f) : WindsDown o s (t.onBerth o f) := by
  have berth : (t.onBerth o f).berth o = { t.berth o with
      sl := (f (t.berth o)).sl
      sc := { (t.berth o).sc with flagsSeen := (f (t.berth o)).sc.flagsSeen } } := by
    rw [State.berth_onBerth_self]; exact hf _
  obtain ⟨state, session, meter, mode, running, starting⟩ := h
  constructor
  case running => exact running
  case starting => exact starting
  all_goals rw [berth]; assumption

/-- A session's close stands over a change of SL before the passes of the step's end. -/
theorem SessionCloses.touched {o : Outlet} {x : Session} {s t : State} (h : SessionCloses o x s t.settle)
    (awake : (t.berth o).sc.state ≠ .awaitAuth) {f : Berth → Berth} (hf : TouchesLink f) :
    SessionCloses o x s (t.onBerth o f).settle := by
  have berth : (t.onBerth o f).berth o = { t.berth o with
      sl := (f (t.berth o)).sl
      sc := { (t.berth o).sc with flagsSeen := (f (t.berth o)).sc.flagsSeen } } := by
    rw [State.berth_onBerth_self]; exact hf _
  have settled := State.settle_berth awake
  have touched := State.settle_berth (s := t.onBerth o f) (o := o) (by rw [berth]; exact awake)
  have metering : (t.onBerth o f).settle.metering = t.settle.metering :=
    (State.settle_opens _).metering.trans (State.settle_opens t).metering.symm
  obtain ⟨session, meter, state, declaration, target, record, sequence⟩ := h
  rw [settled.sc] at session state declaration target
  rw [settled.mt] at meter
  constructor
  case record => rw [metering]; exact record
  case sequence => rw [metering]; exact sequence
  case meter => rw [touched.mt, berth]; exact meter
  all_goals rw [touched.sc, berth]; assumption

/-- An outlet that winds down does not wait. -/
theorem State.windDown_awake (s : State) (o : Outlet) :
    ((s.windDown o).berth o).sc.state ≠ .awaitAuth := by
  have stays : ((s.moveTo o .windDown).berth o).sc.state ≠ .awaitAuth := by
    rw [State.moveTo_state]; decide
  unfold State.windDown
  cases may : (s.moveTo o .windDown).mayClose o with
  | false => rw [State.tryClose_of_not may]; exact stays
  | true =>
    cases session : ((s.moveTo o .windDown).berth o).sc.session with
    | none =>
      unfold State.tryClose
      rw [session]
      exact stays
    | some x =>
      rw [State.tryClose_eq session may]
      show ((State.moveTo _ o _).berth o).sc.state ≠ _
      rw [State.moveTo_state]
      exact (Berth.restState_ne _).1

theorem Berth.resume_touches (now : RunCount) : TouchesLink fun b => b.resume now := fun b => by
  have sc : (b.resume now).sc = b.sc := by rw [Berth.resume_rest]
  show b.resume now = { b with
    sl := (b.resume now).sl, sc := { b.sc with flagsSeen := (b.resume now).sc.flagsSeen } }
  rw [sc]
  exact b.resume_rest now

/-- The leader's going on, and the passes of the step's end, leave an outlet that does not wait as it was but
for its SL and its part of the pool. -/
theorem State.resume_settle_berth {s : State} {o : Outlet} (awake : (s.berth o).sc.state ≠ .awaitAuth) :
    SameButPool { s.berth o with sl := ((s.berth o).resume s.tb.run).sl } ((s.resume o).settle.berth o) := by
  have same := State.settle_berth (s := s.resume o) (o := o) (by rw [State.resume_berth]; exact awake)
  rwa [State.resume_berth] at same

end Sys2Proof.Machine

namespace Sys2Proof.Proofs

open Machine

section
variable {o : Outlet} {held : Bool} {frame : ShipFrame} {s : State} {st : ShipStatus}

/-- The stop flag of the SCP trips an outlet in CLOSING or a breaker-closed state, whatever else its STATUS
carries (R109). -/
theorem scpStops (expects : s.expects o frame.src) (dst : frame.dst = 31)
    (payload : readStatus frame.payload = some st) (scp : (s.berth o).sl.isScp frame.src = true)
    (stop : st.stop = true)
    (state : (s.berth o).sc.state = .closing ∨ (s.berth o).sc.state.breakerClosed = true) :
    ∃ t, exec (.status o held frame) s = .next t ∧ Tripped o .shipStop s t ∧ Raised .shipStop s t
      ∧ Elsewhere [o] [] s t ∧ KeepsAccount s t ∧ t.metering = s.metering := by
  obtain ⟨w, hw⟩ : ∃ w, w = s.onSl o fun l => l.hears held frame.src st := ⟨_, rfl⟩
  have noted := (State.noteHeld_isScp (held := held)).trans scp
  have folded : (s.noteHeld o held).replied o frame.src st = w := by
    rw [hw]
    unfold State.replied
    rw [noted]
    exact State.onSl_onSl _ _ _ _
  have trips : w.complete o .shipStop = w.trip o .shipStop :=
    State.complete_trips (Cause.link_tripsIn (.inr rfl) (by rw [hw, State.sc_onSl]; exact state))
  have tripped : ((w.trip o .shipStop).berth o).sc.state = .tripped := (w.trip_tripped o .shipStop).state
  obtain ⟨blocked, remembered⟩ := State.takeScpStatus_tripped (st := st) tripped
  have replied : (s.noteHeld o held).goodReply o frame.src st
      = (w.trip o .shipStop).seesFlags o st blocked := by
    unfold State.goodReply
    dsimp only
    rw [if_pos noted, if_pos stop]
    rw [← remembered, ← trips, ← folded]
    rfl
  have hexec := exec_status_expected expects dst payload held
  rw [replied] at hexec
  have kinds : Acts ⟨[o], [], false, false, [.shipStop]⟩ s
      ((((w.trip o .shipStop).seesFlags o st blocked).resume o)).settle := by
    rw [hw]
    exact ((((Acts.onSl s o _ List.mem_cons_self).trans (State.trip_acts _ o _ List.mem_cons_self
      List.mem_cons_self)).trans (Acts.onSc _ o _ List.mem_cons_self rfl rfl)).trans
        (State.resume_acts _ o List.mem_cons_self)).trans (State.settle_acts _ _)
  refine ⟨_, hexec, ?_, ?_, kinds.frame⟩
  · have first : Tripped o .shipStop s (w.trip o .shipStop) := by
      rw [hw]
      refine (State.trip_tripped _ o .shipStop).before ?_ ?_ ?_ ?_ rfl rfl fun _ _ _ => rfl <;>
        rw [State.berth_onSl_self]
    have noted : Tripped o .shipStop s ((w.trip o .shipStop).seesFlags o st blocked) :=
      first.touched (f := fun b => { b with sc := { b.sc with flagsSeen := b.sc.flagsAfter st blocked } }) fun _ => rfl
    exact (noted.touched (Berth.resume_touches _)).after
      (State.settle_acts ⟨[], [], false, false, []⟩ _) List.not_mem_nil rfl
  · have first : Raised Cause.shipStop.fault s (w.trip o .shipStop) := by
      rw [hw]
      exact Raised.before (.onBerth s o _) (State.trip_raised _ o .shipStop)
    exact ((first.after (.onBerth _ o _)).after (.onBerth _ o _)).after (State.settle_noFault _)

end

/-- Settles O36: the stop flag, and the flags newly set, by state. -/
theorem scpStatusCancelsReturnsAndStops : Obligations.ScpStatusCancelsReturnsAndStops := by
  intro o held frame s st expects dst payload scp
  refine ⟨scpStops expects dst payload scp, fun cancels returns seen hcancels hreturns again hseen stop => ?_⟩
  obtain ⟨c, hc⟩ : ∃ c, c = newlySet (s.berth o).sc.flagsSeen st.cancel RequestMemory.cancel := ⟨_, rfl⟩
  obtain ⟨r, hr⟩ : ∃ r, r = newlySet (s.berth o).sc.flagsSeen st.ret RequestMemory.ret := ⟨_, rfl⟩
  obtain ⟨u, hu⟩ : ∃ u, u = s.heard o held frame.src st := ⟨_, rfl⟩
  have hexec := exec_status_flags expects dst payload scp stop (OutletRecord.asksConnect_again again) held
  rw [← hc, ← hr, ← hu] at hexec
  have cancelled : c = true ↔ cancels := by rw [hc, newlySet_iff, hcancels]
  have returned : r = true ↔ returns := by rw [hr, newlySet_iff, hreturns]
  have berth := s.heard_berth o held frame.src st
  rw [← hu, ← hseen] at berth
  have heard (x : Scope) (h : o ∈ x.outlets) : Acts x s u := hu ▸ s.heard_acts o held frame.src st h
  have alone (hcan : cancels) (hret : ¬ returns) : u.takesFlags o c r = u.shipCancel o := by
    have none : r = false := by rw [← Bool.not_eq_true, returned]; exact hret
    rw [cancelled.mpr hcan, none]
    rfl
  have now : u.now = s.now := by rw [hu]; rfl
  refine ⟨fun hcan hret state => ?_, fun hcan hret state => ⟨fun kept => ?_, fun x opened unassigned hx hm => ?_⟩,
    fun either state quiet => ?_, fun pass kept hkept => ?_⟩
  · have leaves : u.shipCancel o = u.moveTo o .cableProven := by
      unfold State.shipCancel; rw [berth]; dsimp only; rw [state]
    rw [alone hcan hret, leaves] at hexec
    have acts : Acts ⟨[o], [], false, false, []⟩ s ((u.moveTo o .cableProven).resume o).settle :=
      (((heard _ List.mem_cons_self).trans (State.moveTo_acts u o .cableProven 0 List.mem_cons_self
        (.inl (by decide)))).trans (State.resume_acts _ o List.mem_cons_self)).trans (State.settle_acts _ _)
    have sc := (State.resume_settle_berth (s := u.moveTo o .cableProven) (o := o) (by
      rw [State.moveTo_state]; decide)).sc
    dsimp only at sc
    rw [(u.moveTo_berth_self o .cableProven 0).sc, Berth.takeState_sc, berth] at sc
    refine ⟨_, hexec, ?_, ?_, ?_, ?_, ?_, acts.elsewhere, acts.noFault rfl, acts.metering rfl⟩ <;>
      · rw [sc]; rfl
  · have leaves : u.shipCancel o = u.windDown o := by
      unfold State.shipCancel; rw [berth]; dsimp only; rcases state with h | h <;> rw [h]
    have kept' : u.keptOpen o := kept.imp (fun h => by rw [berth]; exact h) fun ⟨m, h⟩ => ⟨m, by
      rw [hu]; exact h⟩
    rw [alone hcan hret, leaves] at hexec
    have winds : WindsDown o s ((u.windDown o).resume o).settle :=
      (((u.windDown_windsDown o kept').touched (Berth.resume_touches _)).after
        (State.settle_acts ⟨[], [], false, false, []⟩ _) List.not_mem_nil rfl).before
        (by rw [berth]) (by rw [berth]) (by rw [hu]; rfl) fun _ _ _ => by rw [hu]; rfl
    have moved := u.windDown_eq_moveTo o kept'
    have acts : Acts ⟨[o], [], false, false, []⟩ s ((u.windDown o).resume o).settle := by
      rw [moved]
      exact (((heard _ List.mem_cons_self).trans (State.moveTo_acts u o .windDown 0 List.mem_cons_self
        (.inl (by decide)))).trans (State.resume_acts _ o List.mem_cons_self)).trans (State.settle_acts _ _)
    obtain ⟨elsewhere, account, metering⟩ := acts.frame
    have sc := (State.resume_settle_berth (s := u.moveTo o .windDown) (o := o) (by
      rw [State.moveTo_state]; decide)).sc
    dsimp only at sc
    rw [(u.moveTo_berth_self o .windDown 0).sc, Berth.takeState_sc, berth, ← moved] at sc
    exact ⟨_, hexec, winds, by rw [sc]; rfl, elsewhere, account, acts.noFault rfl, metering⟩
  · have leaves : u.shipCancel o = u.windDown o := by
      unfold State.shipCancel; rw [berth]; dsimp only; rcases state with h | h <;> rw [h]
    rw [alone hcan hret, leaves] at hexec
    have lines : (u.berth o).lines = (s.berth o).lines := by rw [berth]
    have meter : (u.berth o).mt = (s.berth o).mt := by rw [berth]
    have assigned : u.assigned o = 0 := by rw [hu]; exact unassigned
    have session : (u.berth o).sc.session = some x := by rw [berth]; exact hx
    obtain ⟨closes, -⟩ := State.windDown_settle_closes session (by rw [meter]; exact hm)
      (by rw [lines]; exact opened) assigned
    have acts : Acts ⟨[o], [], false, true, []⟩ s ((u.windDown o).resume o).settle :=
      (((heard _ List.mem_cons_self).trans (State.windDown_acts u o List.mem_cons_self rfl)).trans
        (State.resume_acts _ o List.mem_cons_self)).trans (State.settle_acts _ _)
    refine ⟨_, hexec, (closes.touched ?_ (Berth.resume_touches _)).before (by rw [lines]) meter
      (by rw [hu]; rfl), acts.elsewhere, acts.keepsAccount rfl, acts.noFault rfl⟩
    exact u.windDown_awake o
  · have quiet' : u.NoEntryCause o := hu ▸ quiet.heard scp stop
    have leaves := State.takesFlags_parallelIn (cancel := c) (ret := r) (by rw [berth]; exact state) quiet'
      (either.imp cancelled.mpr returned.mpr)
    rw [leaves] at hexec
    have acts : Acts ⟨[o], [], false, false, []⟩ s ((u.moveTo o .parallelOut).resume o).settle :=
      (((heard _ List.mem_cons_self).trans (State.moveTo_acts u o .parallelOut 0 List.mem_cons_self
        (.inl (by decide)))).trans (State.resume_acts _ o List.mem_cons_self)).trans (State.settle_acts _ _)
    obtain ⟨elsewhere, account, metering⟩ := acts.frame
    have after := State.resume_settle_berth (s := u.moveTo o .parallelOut) (o := o) (by
      rw [State.moveTo_state]; decide)
    have sc := after.sc
    have rg := after.rg
    have mt := after.mt
    dsimp only at sc rg mt
    have moved := u.moveTo_berth_self o .parallelOut 0
    rw [moved.sc, Berth.takeState_sc, now, berth] at sc
    rw [moved.rg, Berth.takeState_rg] at rg
    rw [moved.mt, Berth.takeState_mt, berth] at mt
    refine ⟨_, hexec, by rw [sc]; rfl, by rw [sc]; rfl, fun power => ?_, by rw [sc]; rfl, mt,
      by rw [sc]; rfl, elsewhere, account, acts.noFault rfl, metering⟩
    rw [rg, Berth.enterMode_same (mode := OutletState.parallelOut.mode) _ _ (by rw [berth]; exact power), berth]
  · obtain ⟨f, taken, leaves⟩ : ∃ f, u.takesFlags o c r = u.onSc o f
        ∧ f (u.berth o).sc = { kept with flagsSeen := some seen } := by
      have same : u = u.onSc o id := (State.onBerth_unchanged rfl).symm
      have sc : (u.berth o).sc = { (s.berth o).sc with flagsSeen := some seen } := by rw [berth]
      have state : (u.berth o).sc.state = (s.berth o).sc.state := by rw [sc]
      rcases hkept with ⟨rfl, idle⟩ | ⟨rfl, hcan, closing⟩ | ⟨rfl, either, supply, opened⟩
      · refine ⟨id, ?_, sc⟩
        rw [← same]
        have uncancelled (h : ¬ cancels) : c = false := by rw [← Bool.not_eq_true, cancelled]; exact h
        have unreturned (h : ¬ returns) : r = false := by rw [← Bool.not_eq_true, returned]; exact h
        have ignored (h : (s.berth o).sc.state.ignoresCancel) : u.takesFlags o c r = u :=
          State.takesFlags_idle (by rw [state]; exact h) c r
        have alone (h : ¬ cancels) (hin : (s.berth o).sc.state ≠ .parallelIn)
            (hsupply : (s.berth o).sc.state ≠ .shoreSupply) : u.takesFlags o c r = u := by
          unfold State.takesFlags
          rw [uncancelled h, if_neg Bool.false_ne_true,
            State.shipReturn_idle (by rw [state]; exact hin) (by rw [state]; exact hsupply), ite_self]
        rcases idle with ⟨noCancel, noReturn⟩ | h | h | h | h | h | h | ⟨noCancel, h⟩
        · rw [uncancelled noCancel, unreturned noReturn]; rfl
        · exact ignored (.inl h)
        · exact ignored (.inr (.inl h))
        · exact ignored (.inr (.inr (.inl h)))
        · exact ignored (.inr (.inr (.inr (.inl h))))
        · exact ignored (.inr (.inr (.inr (.inr (.inl h)))))
        · exact ignored (.inr (.inr (.inr (.inr (.inr h)))))
        · refine alone noCancel ?_ ?_ <;> rcases h with h | h | h | h <;> rw [h] <;> decide
      · have cancels' : u.shipCancel o = u.onSc o fun x => { x with endRequested := true } := by
          unfold State.shipCancel; rw [state, closing]
        refine ⟨fun x => { x with endRequested := true }, ?_, by rw [sc]⟩
        unfold State.takesFlags
        rw [cancelled.mpr hcan, if_pos rfl, cancels']
        have idle : (u.onSc o fun x => { x with endRequested := true }).shipReturn o
            = u.onSc o fun x => { x with endRequested := true } := by
          refine State.shipReturn_idle ?_ ?_ <;>
            · rw [State.berth_onSc_self]
              show (u.berth o).sc.state ≠ _
              rw [state, closing]
              decide
        rw [idle, ite_self]
      · have taken := State.takesFlags_shoreSupply (cancel := c) (ret := r) (by rw [state]; exact supply)
          ((Berth.anyClosed_of_readings (b := s.berth o) (c := u.berth o) (by rw [berth]; rfl)).trans opened)
          (either.imp cancelled.mpr returned.mpr)
        rw [taken, sc]
        dsimp only
        split
        · exact ⟨id, same, rfl⟩
        · exact ⟨fun x => x.awaitReturn u.tb.run, rfl, by rw [hu]; rfl⟩
    rw [taken] at hexec
    refine ⟨_, hexec.trans (congrArg Host.Outcome.next (State.settle_of_no_pass (by rw [hu]; exact pass))),
      by rw [hu]; rfl, fun q hq => ?_, ?_⟩
    · rw [State.resume, State.berth_onBerth_ne _ _ hq, State.berth_onSc_ne _ _ hq, hu,
        State.heard_berth_ne _ _ _ _ hq]
    · rw [State.resume_berth, State.berth_onSc_self, leaves, berth]

end Sys2Proof.Proofs
end

