-- ==== Sys2Proof/Proofs/EndingSessions.lean ====
section
/-! PROOFS. END_SESSION by outlet state, and RESET_OUTLET of a tripped outlet (R39, R90, R99, R100). -/

namespace Sys2Proof.Machine

open Sys2Proof

/-! ### END_SESSION -/

theorem judgeEndSession_of {s : State} {o : Outlet} {b : Byte} (hb : b = BitVec.ofNat 8 o.number) :
    (s.endSession o = none → judgeEndSession [b] s = refuse s .refusedState)
      ∧ ∀ u, s.endSession o = some u →
        judgeEndSession [b] s = accept u.settle (unsigned 1 (u.settle.berth o).sc.state.code) := by
  have judged (judge : Outlet → Verdict) : ofLength 1 [b] s (ofOutlet [b] s judge) = judge o :=
    ofLength_ofOutlet rfl (hb ▸ outletField_number o [])
  refine ⟨fun h => (judged _).trans ?_, fun u h => (judged _).trans ?_⟩ <;>
    · dsimp only
      rw [h]

/-- END_SESSION taken: answered with the outlet's state after it. -/
theorem exec_endSession {s u : State} {o : Outlet} {b : Byte} {code : Byte} (tag : Byte)
    (hb : b = BitVec.ofNat 8 o.number) (free : s.svl.inProgress = none) (h : s.endSession o = some u)
    (hcode : unsigned 1 (u.settle.berth o).sc.state.code = [code]) :
    exec (.endSession tag [b]) s = .next (u.settle.answered 0x25 tag [0, code]) := by
  refine (State.request_next free ((judgeEndSession_of hb).2 u h)).trans ?_
  rw [hcode]
  rfl

/-- END_SESSION refused: the outlet has no session to end. -/
theorem exec_endSession_refused {s : State} {o : Outlet} {b : Byte} (tag : Byte)
    (hb : b = BitVec.ofNat 8 o.number) (free : s.svl.inProgress = none) (h : s.endSession o = none) :
    exec (.endSession tag [b]) s = .next (s.answered 0x25 tag [3]) :=
  State.request_next free ((judgeEndSession_of hb).1 h)

theorem OutletRecord.takeState_state (r : OutletRecord) (new : OutletState) (now : TimeStamp) (short : Bool) :
    (r.takeState new now short).state = new := rfl

/-- The states whose sessions END_SESSION winds down. -/
theorem State.endSession_windDown {s : State} {o : Outlet}
    (h : (s.berth o).sc.state = .energising ∨ (s.berth o).sc.state = .synchronising
      ∨ ((s.berth o).sc.state = .tripped ∧ (s.berth o).sc.session.isSome = true)) :
    s.endSession o = some (s.windDown o) := by
  unfold State.endSession
  dsimp only
  rcases h with h | h | ⟨h, session⟩ <;> rw [h]
  exact if_pos session

end Sys2Proof.Machine

namespace Sys2Proof.Proofs

open Machine

section
variable {tag b : Byte} {o : Outlet} {s : State}

/-- END_SESSION winds an outlet down (R98, R100, R107). -/
theorem endWindsDown (hb : b = BitVec.ofNat 8 o.number) (free : s.svl.inProgress = none)
    (state : (s.berth o).sc.state = .energising ∨ (s.berth o).sc.state = .synchronising
      ∨ ((s.berth o).sc.state = .tripped ∧ (s.berth o).sc.session.isSome = true)) (kept : s.keptOpen o) :
    ∃ t, exec (.endSession tag [b]) s = .next (t.answered 0x25 tag [0, 10]) ∧ WindsDown o s t
      ∧ ((s.berth o).sc.state = .tripped → DriveRunsOn (s.berth o) (t.berth o))
      ∧ Elsewhere [o] [] s t ∧ KeepsAccount s t ∧ NoFault s t ∧ t.metering = s.metering := by
  have winds := s.windDown_settle_windsDown o kept
  have acts := State.windDown_settle_acts (x := ⟨[o], [], false, false, []⟩) kept List.mem_cons_self
  obtain ⟨elsewhere, account, metering⟩ := acts.frame
  exact ⟨_, exec_endSession tag hb free (State.endSession_windDown state) (by rw [winds.state]; rfl), winds,
    State.windDown_driveRunsOn kept, elsewhere, account, acts.noFault rfl, metering⟩

/-- END_SESSION closes a session that nothing keeps open (R98, R152). -/
theorem endCloses (hb : b = BitVec.ofNat 8 o.number) (free : s.svl.inProgress = none) {x : Session}
    (state : (s.berth o).sc.state = .energising ∨ (s.berth o).sc.state = .synchronising
      ∨ (s.berth o).sc.state = .tripped)
    (opened : (s.berth o).lines.breakerClosed = false) (unassigned : s.assigned o = 0)
    (session : (s.berth o).sc.session = some x) (meter : (s.berth o).mt.isSome = true) :
    ∃ t, exec (.endSession tag [b]) s = .next (t.answered 0x25 tag
        [0, if (s.berth o).lines.pilotClosed then 1 else 0])
      ∧ SessionCloses o x s t ∧ Elsewhere [o] [] s t ∧ KeepsAccount s t ∧ NoFault s t := by
  obtain ⟨closes, acts⟩ := State.windDown_settle_closes session meter opened unassigned
  have ends := State.endSession_windDown (s := s) (o := o)
    (state.imp_right (Or.imp_right fun h => ⟨h, by rw [session]; rfl⟩))
  refine ⟨_, exec_endSession tag hb free ends ?_, closes, acts.elsewhere, acts.keepsAccount rfl,
    acts.noFault rfl⟩
  rw [closes.state]
  split <;> rfl

end

end Sys2Proof.Proofs

namespace Sys2Proof.Machine

open Sys2Proof

/-! ### The capacity that the HELD modules bring back (R39) -/

theorem Pool.sum_add (p : Pool) (f g : Module → Nat) :
    (p.sum fun m => f m + g m) = p.sum f + p.sum g := by
  unfold Pool.sum
  simp only [Dozen.toList, List.map, List.foldl]
  omega

theorem Pool.sum_of_terms {p q : Pool} {f g : Module → Nat}
    (h : ∀ m, f (p.modules.get m) = g (q.modules.get m)) : p.sum f = q.sum g := by
  have terms (r : Pool) (k : Module → Nat) :
      r.modules.toList.map k = ModuleNo.all.map fun m => k (r.modules.get m) := rfl
  unfold Pool.sum
  rw [terms, terms, List.map_congr_left fun m _ => h m]

/-- A HELD module that runs again (R39). -/
def Module.rejoin (x : Module) : Module := { x with state := .running }

theorem State.module_rejoinModules (s : State) (o : Outlet) (m : ModuleNo) :
    (s.rejoinModules o).module m
      = if (s.berth o).mp.hold.isSome = true ∧ (s.module m).inStateAt .held o = true
        then (s.module m).rejoin else s.module m := by
  have held : ((s.module m).assignedTo o && [ModuleState.held].contains (s.module m).state)
      = (s.module m).inStateAt .held o := by
    unfold Module.assignedTo Module.inStateAt
    rw [Bool.and_comm, List.contains_cons, List.contains_nil, Bool.or_false]
  unfold State.rejoinModules
  split
  · next hold => rw [State.module_changeModulesAt, held]; simp [hold, Module.rejoin]
  · next hold => simp [hold]

theorem Module.inStateAt_iff {x : Module} {st : ModuleState} {o : Outlet} :
    x.inStateAt st o = true ↔ x.state = st ∧ x.outlet = some o := by
  simp [Module.inStateAt]

theorem State.capacity_rejoinModules (s : State) (o : Outlet) : (s.rejoinModules o).capacity o
    = s.capacity o + (if (s.berth o).mp.hold.isSome then
        s.pool.sum fun m => if m.inStateAt .held o then m.effective else 0 else 0) := by
  by_cases hold : (s.berth o).mp.hold.isSome = true
  · have running {x : Module} {st : ModuleState} (hx : x.state = st) (hst : st ≠ .running) :
        x.inStateAt .running o = false := by
      rw [← Bool.not_eq_true, Module.inStateAt_iff, hx]
      exact fun h => hst h.1
    rw [if_pos hold]
    unfold State.capacity
    rw [← Pool.sum_add]
    refine Pool.sum_of_terms fun m => ?_
    show (if ((s.rejoinModules o).module m).inStateAt .running o
        then ((s.rejoinModules o).module m).effective else 0)
      = (if (s.module m).inStateAt .running o then (s.module m).effective else 0)
        + if (s.module m).inStateAt .held o then (s.module m).effective else 0
    by_cases held : (s.module m).inStateAt .held o = true
    · obtain ⟨state, outlet⟩ := Module.inStateAt_iff.mp held
      have rejoined : (s.rejoinModules o).module m = (s.module m).rejoin := by
        rw [State.module_rejoinModules, if_pos ⟨hold, held⟩]
      have runs : (s.module m).rejoin.inStateAt .running o = true := Module.inStateAt_iff.mpr ⟨rfl, outlet⟩
      rw [rejoined, runs, running state (by decide), held]
      exact (Nat.zero_add _).symm
    · have stays : (s.rejoinModules o).module m = s.module m := by
        rw [State.module_rejoinModules, if_neg fun h => held h.2]
      rw [stays, if_neg held, Nat.add_zero]
  · rw [if_neg hold, Nat.add_zero]
    exact State.capacity_eq_of_modules _ _ _ fun m => by
      rw [State.module_rejoinModules, if_neg fun h => hold h.1]

/-! ### RESET_OUTLET (R99) -/

theorem State.servePool_hold (s : State) (o p : Outlet) :
    ((s.servePool p).berth o).mp.hold = (s.berth o).mp.hold :=
  ((State.servePool_serves [o] s p).duties o List.mem_cons_self).hold

theorem State.settle_hold {s : State} {o : Outlet} (h : (s.berth o).sc.state ≠ .awaitAuth) :
    (s.settle.berth o).mp.hold = (s.berth o).mp.hold :=
  (State.settle_duties (o := o) (by unfold State.waits; exact decide_eq_false h)).hold

/-- MP takes the reset of a tripped outlet (R39). -/
theorem State.poolTakesState_reset (s : State) (o : Outlet) : s.poolTakesState o .tripped .energising
    = ((s.rejoinModules o).onMp o fun p => { p with hold := none }).servePool o := rfl

/-- What the entry to ENERGISING from TRIPPED brings the pool (R38, R39). -/
structure Rejoins (o : Outlet) (s t : State) : Prop where
  hold : (t.berth o).mp.hold = none
  capacity : t.capacity o = s.capacity o + (if (s.berth o).mp.hold.isSome then
    s.pool.sum fun m => if m.inStateAt .held o then m.effective else 0 else 0)
  held : ∀ m, (s.module m).outlet = some o → (s.module m).state = .held →
    t.module m = if (s.berth o).mp.hold.isSome then (s.module m).rejoin else s.module m

theorem Rejoins.after {o : Outlet} {s t u : State} (h : Rejoins o s t) (loaded : KeepsLoaded t u)
    (hold : (u.berth o).mp.hold = (t.berth o).mp.hold) : Rejoins o s u := by
  refine ⟨hold.trans h.hold, (loaded.capacity o).trans h.capacity, fun m outlet state => ?_⟩
  have before := h.held m outlet state
  rw [← before]
  refine loaded.module ?_ ?_ <;>
    · rw [before]
      split
      · exact fun h => nomatch h
      · rw [state]; decide

theorem State.moveTo_rejoins {s : State} {o : Outlet} (h : (s.berth o).sc.state = .tripped) :
    Rejoins o s (s.moveTo o .energising) := by
  obtain ⟨w, hw⟩ : ∃ w, w = s.onBerth o fun b => b.takeState .energising 0 s.now
      (decide (s.capacity o < (s.berth o).sc.target)) := ⟨_, rfl⟩
  obtain ⟨v, hv⟩ : ∃ v, v = (w.rejoinModules o).onMp o fun p => { p with hold := none } := ⟨_, rfl⟩
  have moved : s.moveTo o .energising = (v.servePool o).reportState o .energising := by
    unfold State.moveTo
    dsimp only
    rw [h, State.poolTakesState_reset, ← hw, ← hv]
  have mp : (w.berth o).mp = (s.berth o).mp := by
    rw [hw, State.berth_onBerth_self]
    unfold Berth.takeState
    dsimp only
    rw [Berth.linkTakesState_mp]
    rw [Berth.enterMode_rest]
  have modules (m : ModuleNo) : w.module m = s.module m := by rw [hw]; rfl
  have first : Rejoins o s v := by
    refine ⟨by rw [hv, State.berth_onMp_self], ?_, fun m outlet state => ?_⟩
    · have made := w.capacity_rejoinModules o
      rw [mp, State.capacity_eq_of_modules w s o modules] at made
      rw [hv]
      refine Eq.trans ?_ (made.trans ?_)
      · rfl
      · rw [hw]; rfl
    · rw [hv]
      show (w.rejoinModules o).module m = _
      rw [State.module_rejoinModules, mp, modules]
      have held := Module.inStateAt_iff.mpr ⟨state, outlet⟩
      simp [held]
  rw [moved]
  exact first.after ((State.servePool_loaded v o).trans (.of_pool (State.reportState_pool _ _ _)))
    (by rw [State.berth_reportState]; exact State.servePool_hold v o o)

/-- The outlet once it has entered ENERGISING by a reset and the pool has been served (R39, R90, R99, R107). -/
structure Readied (o : Outlet) (s v : State) : Prop extends Rejoins o s v where
  sc : (v.berth o).sc
    = (s.berth o).sc.takeState .energising s.now (decide (s.capacity o < (s.berth o).sc.target))
  mode : (v.berth o).rg.mode = .free
  meter : (v.berth o).mt = (s.berth o).mt
  measured : (v.berth o).mu = (s.berth o).mu
  attempts : (v.berth o).sy.attempts = 0
  drive : (v.berth o).pr.openDrive = false
  postTrip : (v.berth o).pr.postTripFrom = none
  clock : v.tb = s.tb

theorem Protection.takeState_reset (p : Protection) (closed : Bool) :
    (p.takeState .tripped .energising closed).openDrive = false
      ∧ (p.takeState .tripped .energising closed).postTripFrom = none := ⟨rfl, rfl⟩

theorem OutletRecord.judgeShort_energising {r : OutletRecord} (h : r.state = .energising) (capacity : Nat)
    (now : RunCount) : r.judgeShort capacity now = r := by
  unfold OutletRecord.judgeShort
  rw [if_neg (by rw [h]; decide)]

/-- A change of capacity hands PR its watches and SY its schedule, and leaves the rest of an outlet in
ENERGISING. -/
theorem State.capacityHanded_energising {s : State} {o : Outlet} (h : (s.berth o).sc.state = .energising) :
    ∃ close capacityFrom reverseFrom, (s.capacityHanded o).berth o = { s.berth o with
      sy := { (s.berth o).sy with close := close }
      pr := { (s.berth o).pr with capacityFrom := capacityFrom, reverseFrom := reverseFrom } } := by
  unfold State.capacityHanded
  rw [State.berth_onBerth_self, OutletRecord.judgeShort_energising h, Berth.syCapacity_rest]
  exact ⟨_, _, _, rfl⟩

theorem State.capacityHanded_acts {x : Scope} (s : State) (o : Outlet) (h : o ∈ x.outlets) :
    Acts x s (s.capacityHanded o) := by
  unfold State.capacityHanded
  refine Acts.onBerth_keep _ _ _ h rfl ?_
  rw [Berth.syCapacity_rest]
  constructor <;> rfl

theorem State.reset_readied {s : State} {o : Outlet} (h : (s.berth o).sc.state = .tripped) :
    ∃ v, (s.moveTo o .energising).capacityChanged o = v.judgeEnergising o ∧ Readied o s v
      ∧ Acts ⟨[o], [], false, false, []⟩ s v := by
  obtain ⟨t, ht⟩ : ∃ t, t = s.moveTo o .energising := ⟨_, rfl⟩
  have moved := s.moveTo_berth_self o .energising 0
  rw [← ht] at moved
  have state : (t.berth o).sc.state = .energising := by rw [ht, State.moveTo_state]
  obtain ⟨close, capacityFrom, reverseFrom, handed⟩ := State.capacityHanded_energising state
  have served := (State.servePool_poolOnly (t.capacityHanded o) o).berth o
  rw [handed] at served
  have sy := served.sy
  have pr := served.pr
  have undead : (((t.capacityHanded o).servePool o).berth o).deadBusReady
      (((t.capacityHanded o).servePool o).capacity o) = false := by
    rw [← Bool.not_eq_true, Berth.deadBusReady_iff, sy]
    dsimp only
    rw [moved.sy, Berth.takeState_sy]
    exact fun h => nomatch h.2.2.1
  rw [moved.sy, Berth.takeState_sy] at sy
  rw [moved.pr, Berth.takeState_pr, h] at pr
  obtain ⟨drive, postTrip⟩ := (s.berth o).pr.takeState_reset (s.berth o).lines.breakerClosed
  refine ⟨(t.capacityHanded o).servePool o, ?_, ?_, ?_⟩
  · rw [← ht, State.capacityChanged_eq]
    unfold State.tryDeadBus
    rw [undead, if_neg Bool.false_ne_true]
  · have rejoins : Rejoins o s ((t.capacityHanded o).servePool o) := by
      refine (ht ▸ State.moveTo_rejoins h : Rejoins o s t).after
        ((KeepsLoaded.of_pool rfl).trans (State.servePool_loaded _ o)) ?_
      rw [State.servePool_hold, handed]
    refine ⟨rejoins, ?_, ?_, ?_, ?_, ?_, ?_, ?_, ?_⟩
    · rw [served.sc]; dsimp only; rw [moved.sc, Berth.takeState_sc]
    · rw [served.rg]; dsimp only; rw [moved.rg, Berth.takeState_rg, Berth.enterMode_mode]; rfl
    · rw [served.mt]; dsimp only; rw [moved.mt, Berth.takeState_mt]
    · rw [served.mu]; dsimp only; rw [moved.mu, Berth.takeState_mu]
    · rw [sy]; rfl
    · rw [pr]; exact drive
    · rw [pr]; exact postTrip
    · rw [(State.servePool_poolOnly (t.capacityHanded o) o).tb, ht]
      exact State.moveTo_tb _ _ _ _
  · rw [ht]
    exact ((State.moveTo_acts s o .energising 0 List.mem_cons_self (.inl (by decide))).trans
      (State.capacityHanded_acts _ _ List.mem_cons_self)).trans (State.servePool_acts _ _ _)

/-- Out of a state other than TRIPPED PR keeps its drive and post-trip time. -/
theorem Protection.takeState_drives (p : Protection) {old : OutletState} (new : OutletState) (closed : Bool)
    (h : old ≠ .tripped) : (p.takeState old new closed).openDrive = p.openDrive
      ∧ (p.takeState old new closed).postTripFrom = p.postTripFrom := by
  unfold Protection.takeState Protection.watchesTakeState Protection.clearWatches
  rw [if_neg h]
  split <;> exact ⟨rfl, rfl⟩

theorem Synchroniser.takeState_attempts (y : Synchroniser) {new : OutletState} (dead : Bool) (now : RunCount)
    (h : new ≠ .energising) : (y.takeState new dead now).attempts = y.attempts := by
  have kept : (y.closeTakesState new).attempts = y.attempts := by
    unfold Synchroniser.closeTakesState
    cases y.close with
    | watching => rfl
    | scheduled _ => rfl
    | inFlight => dsimp only; split <;> rfl
  exact (if_neg h).trans kept

theorem State.moveTo_synchronising_hold {s : State} {o : Outlet} (h : (s.berth o).sc.state ≠ .tripped) :
    ((s.moveTo o .synchronising).berth o).mp.hold = (s.berth o).mp.hold := by
  unfold State.moveTo
  dsimp only
  rw [State.berth_reportState, State.poolTakesState_quiet _ o h (by decide) (by decide)]
  rw [State.servePool_hold, show OutletState.synchronising.requests = true from rfl, if_pos rfl,
    State.berth_onBerth_self]
  unfold Berth.takeState
  dsimp only
  rw [Berth.linkTakesState_mp, Berth.enterMode_rest]

theorem State.mayReset_iff (s : State) (o : Outlet) : s.mayReset o = true
    ↔ (s.berth o).sc.state = .tripped ∧ (s.berth o).sc.session.isSome = true
      ∧ (s.berth o).lines.pilotClosed = true ∧ (s.berth o).sl.scpPresent = true
      ∧ (s.berth o).sl.stopShown = false ∧ s.grid.point.live = true
      ∧ (s.berth o).lines.breakerClosed = false := by
  unfold State.mayReset State.persists
  simp only [Bool.and_eq_true, beq_iff_eq, Bool.or_eq_false_iff, Bool.not_eq_eq_eq_not, Bool.not_true,
    Bool.not_false]
  tauto

end Sys2Proof.Machine

namespace Sys2Proof.Proofs

open Machine

section
variable {o : Outlet} {s : State}

/-- RESET_OUTLET carries a tripped outlet to ENERGISING, and on to SYNCHRONISING where its HELD modules bring
the capacity back and both buses are live (R39, R90, R99). -/
theorem resetRejoins (state : (s.berth o).sc.state = .tripped) {capacity : Nat} {goesOn : Prop}
    (hcapacity : capacity = s.capacity o + (if (s.berth o).mp.hold.isSome then
      s.pool.sum fun m => if m.inStateAt .held o then m.effective else 0 else 0))
    (hgoesOn : goesOn ↔ (s.berth o).declaresParallel = true ∧ (s.berth o).sc.target ≤ capacity
      ∧ (s.berth o).mu.shore.live = true ∧ (s.berth o).mu.ship.live = true) :
    (goesOn → ((s.resetOutlet o).berth o).sc.state = .synchronising
        ∧ ((s.resetOutlet o).berth o).rg.mode = .track
        ∧ ((s.resetOutlet o).berth o).sc.syncFrom = some s.tb.run
        ∧ ((s.resetOutlet o).berth o).sc.energiseFrom = none)
      ∧ (¬ goesOn → ((s.resetOutlet o).berth o).sc.state = .energising
        ∧ ((s.resetOutlet o).berth o).rg.mode = .free
        ∧ ((s.resetOutlet o).berth o).sc.syncFrom = none
        ∧ ((s.resetOutlet o).berth o).sc.energiseFrom = some s.tb.run)
      ∧ ((s.resetOutlet o).berth o).sc.firstCause = none
      ∧ ((s.resetOutlet o).berth o).sc.session = (s.berth o).sc.session
      ∧ ((s.resetOutlet o).berth o).mt = (s.berth o).mt
      ∧ ((s.resetOutlet o).berth o).sy.attempts = 0
      ∧ ((s.resetOutlet o).berth o).pr.openDrive = false
      ∧ ((s.resetOutlet o).berth o).pr.postTripFrom = none
      ∧ Rejoins o s (s.resetOutlet o)
      ∧ Acts ⟨[o], [], false, false, []⟩ s (s.resetOutlet o) := by
  obtain ⟨v, judged, ready, acts⟩ := State.reset_readied state
  have reset : s.resetOutlet o = (v.judgeEnergising o).settle := congrArg State.settle judged
  have energising : (v.berth o).sc.state = .energising := by rw [ready.sc]; rfl
  have met : ((v.berth o).sc.state = .energising ∧ (v.berth o).declaresParallel = true
      ∧ (v.berth o).sc.target ≤ v.capacity o ∧ (v.berth o).mu.shore.live = true
      ∧ (v.berth o).mu.ship.live = true) ↔ goesOn := by
    have declares := (Berth.declares_congr (b := s.berth o) (c := v.berth o) (by rw [ready.sc]; rfl)).2
    have target : (v.berth o).sc.target = (s.berth o).sc.target := by rw [ready.sc]; rfl
    rw [hgoesOn, declares, target, ready.capacity, ready.measured, ← hcapacity]
    exact and_iff_right energising
  rw [reset, State.judgeEnergising_eq]
  by_cases on : goesOn
  · rw [if_pos (met.mpr on)]
    have after := v.moveTo_settle_berth o 0 (new := .synchronising) (by decide)
    have sc := after.sc
    have rg := after.rg
    rw [Berth.takeState_sc, ready.sc] at sc
    rw [Berth.takeState_rg] at rg
    obtain ⟨drive, postTrip⟩ := (v.berth o).pr.takeState_drives (old := (v.berth o).sc.state) .synchronising
      (v.berth o).lines.breakerClosed (by rw [energising]; decide)
    refine ⟨fun _ => ⟨by rw [sc]; rfl, by rw [rg, Berth.enterMode_mode]; rfl, ?_, by rw [sc]; rfl⟩,
      fun off => absurd on off, by rw [sc]; rfl, by rw [sc]; rfl, ?_, ?_, ?_, ?_, ?_, ?_⟩
    · rw [sc]
      show some v.now.run = some s.tb.run
      unfold State.now
      rw [ready.clock]
    · rw [after.mt, Berth.takeState_mt, ready.meter]
    · rw [after.sy, Berth.takeState_sy, Synchroniser.takeState_attempts _ _ _ (by decide), ready.attempts]
    · rw [after.pr, Berth.takeState_pr, drive, ready.drive]
    · rw [after.pr, Berth.takeState_pr, postTrip, ready.postTrip]
    · refine ready.toRejoins.after ((State.moveTo_loaded v o 0 (by rw [energising]; decide) (by decide)
        (by decide)).trans (State.settle_loaded _)) ?_
      rw [State.settle_hold (by rw [State.moveTo_state]; decide),
        State.moveTo_synchronising_hold (by rw [energising]; decide)]
    · exact acts.trans (State.moveTo_settle_acts v o 0 List.mem_cons_self (by decide))
  · rw [if_neg fun h => on (met.mp h)]
    have awake : (v.berth o).sc.state ≠ .awaitAuth := by rw [energising]; decide
    have after := State.settle_berth awake
    have sc := after.sc.trans ready.sc
    exact ⟨fun h => absurd h on,
      fun _ => ⟨by rw [sc]; rfl, by rw [after.rg, ready.mode], by rw [sc]; rfl, by rw [sc]; rfl⟩,
      by rw [sc]; rfl, by rw [sc]; rfl, by rw [after.mt, ready.meter], by rw [after.sy, ready.attempts],
      by rw [after.pr, ready.drive], by rw [after.pr, ready.postTrip],
      ready.toRejoins.after (State.settle_loaded v) (State.settle_hold awake),
      acts.trans (State.settle_acts _ _)⟩

end

/-- Settles O49: END_SESSION by state; RESET_OUTLET where it may, and refused. -/
theorem endAndResetRequests : Obligations.EndAndResetRequests := by
  refine ⟨fun tag b o s hb free => ⟨fun state => ?_, fun state => ?_, endWindsDown hb free,
      fun x state => endCloses hb free state, fun pass state => ?_, fun state quiet => ?_,
      fun pass state opened => ?_, fun pass code states => ?_⟩,
    fun tag b o s hb free may hmay => ?_⟩
  · refine exec_endSession_refused tag hb free ?_
    unfold State.endSession
    dsimp only
    rcases state with h | h | ⟨h, session⟩ <;> rw [h]
    rw [session]
    rfl
  · have ends : s.endSession o = some (s.moveTo o .cableProven) := by
      unfold State.endSession; dsimp only; rw [state]
    have acts : Acts ⟨[o], [], false, false, []⟩ s (s.moveTo o .cableProven).settle :=
      s.moveTo_settle_acts o 0 List.mem_cons_self (by decide)
    have sc := s.moveTo_settle_sc o (new := .cableProven) 0 (by decide)
    refine ⟨_, exec_endSession tag hb free ends (by rw [sc, OutletRecord.takeState_state]; rfl), ?_, ?_, ?_, ?_,
      acts.elsewhere, acts.noFault rfl, acts.metering rfl⟩ <;>
      · rw [sc]; rfl
  · obtain ⟨u, hu⟩ : ∃ u, u = s.onSc o fun r => { r with endRequested := true } := ⟨_, rfl⟩
    have ends : s.endSession o = some u := by
      unfold State.endSession; dsimp only; rw [state, hu]
    have settled : u.settle = u := State.settle_of_no_pass (by rw [hu]; exact pass)
    have kept : (u.berth o).sc.state = .closing := by rw [hu, State.berth_onSc_self]; exact state
    have taken := exec_endSession tag hb free ends (code := 5) (by rw [settled, kept]; rfl)
    rwa [settled, hu] at taken
  · have enters : s.enter o .parallelOut = s.moveTo o .parallelOut :=
      State.enter_of_none (by rw [state]; decide) (by decide) (quiet.entering _)
    have ends : s.endSession o = some (s.moveTo o .parallelOut) := by
      unfold State.endSession; dsimp only; rw [state]; exact congrArg some enters
    have acts : Acts ⟨[o], [], false, false, []⟩ s (s.moveTo o .parallelOut).settle :=
      s.moveTo_settle_acts o 0 List.mem_cons_self (by decide)
    obtain ⟨elsewhere, account, metering⟩ := acts.frame
    have sc := s.moveTo_settle_sc o (new := .parallelOut) 0 (by decide)
    exact ⟨_, exec_endSession tag hb free ends (by rw [sc, OutletRecord.takeState_state]; rfl), by rw [sc]; rfl,
      by rw [sc]; rfl,
      s.moveTo_settle_mt o 0 (by decide), elsewhere, account, acts.noFault rfl, metering⟩
  · obtain ⟨u, hu⟩ : ∃ u, u = if (s.berth o).sc.returnAwaited then s
        else s.onSc o fun r => r.awaitReturn s.tb.run := ⟨_, rfl⟩
    have ends : s.endSession o = some u := by
      unfold State.endSession; dsimp only; rw [state, hu]
      exact congrArg some (State.requestReturn_of_not state opened)
    have kept : u.settle = u ∧ (u.berth o).sc.state = .shoreSupply := by
      rw [hu]
      split
      · exact ⟨State.settle_of_no_pass pass, state⟩
      · exact ⟨State.settle_of_no_pass pass, by rw [State.berth_onSc_self]; exact state⟩
    have taken := exec_endSession tag hb free ends (code := 7) (by rw [kept.1, kept.2]; rfl)
    rw [kept.1, hu] at taken
    exact taken
  · have settled := State.settle_of_no_pass pass
    have ends : s.endSession o = some s := by
      unfold State.endSession
      dsimp only
      rcases states with ⟨h, -⟩ | ⟨h, -⟩ | ⟨h, -⟩ <;> rw [h]
    have taken := exec_endSession tag hb free ends (code := code) (by
      rw [settled]
      rcases states with ⟨h, rfl⟩ | ⟨h, rfl⟩ | ⟨h, rfl⟩ <;> rw [h] <;> rfl)
    rwa [settled] at taken
  · have judged : judgeResetOutlet [b] s = if s.mayReset o
        then accept (s.resetOutlet o) (unsigned 1 OutletState.energising.code) else refuse s .refusedState :=
      ofLength_ofOutlet rfl (hb ▸ outletField_number o [])
    refine ⟨fun yes capacity goesOn hcapacity hgoesOn => ?_, fun no => ?_⟩
    · have allowed := (s.mayReset_iff o).mpr (hmay.mp yes)
      rw [allowed, if_pos rfl] at judged
      obtain ⟨state, -⟩ := hmay.mp yes
      obtain ⟨on, off, cause, session, meter, attempts, drive, postTrip, rejoins, acts⟩ :=
        resetRejoins state hcapacity hgoesOn
      obtain ⟨elsewhere, account, metering⟩ := acts.frame
      exact ⟨_, State.request_next free judged, on, off, cause, session, meter, attempts, drive, postTrip,
        rejoins.hold, rejoins.held, elsewhere, account, acts.noFault rfl, metering⟩
    · have refused : s.mayReset o = false := by
        rw [← Bool.not_eq_true, s.mayReset_iff o, ← hmay]; exact no
      rw [refused, if_neg Bool.false_ne_true] at judged
      exact State.request_next free judged

end Sys2Proof.Proofs
end

