-- ==== Sys2Proof/Proofs/LastRecords.lean ====
section
/-! PROOFS. The record that brings a count to its end (R108, R110, R111), and what the rest of its step leaves. -/

namespace Sys2Proof.Machine

open Sys2Proof

/-! ### A flag over what may raise MEASUREMENT_CLIP alone -/

/-- A fault kind's flag is as it was, and a fault-since-clear stands. -/
structure KeepsFlag (k : FaultKind) (s t : State) : Prop where
  flag : t.fe.flags &&& k.bit = s.fe.flags &&& k.bit
  since : s.fe.sinceClear = true → t.fe.sinceClear = true

theorem KeepsFlag.refl (k : FaultKind) (s : State) : KeepsFlag k s s := ⟨rfl, id⟩

theorem KeepsFlag.trans {k : FaultKind} {s t u : State} (h : KeepsFlag k s t) (g : KeepsFlag k t u) :
    KeepsFlag k s u := ⟨g.flag.trans h.flag, fun e => g.since (h.since e)⟩

theorem KeepsFlag.of_fe {k : FaultKind} {s t : State} (h : t.fe = s.fe) : KeepsFlag k s t :=
  ⟨by rw [h], fun e => by rw [h]; exact e⟩

theorem NoFault.keepsFlag {s t : State} (h : NoFault s t) (k : FaultKind) : KeepsFlag k s t :=
  ⟨by rw [h.flags], fun e => h.sinceClear.trans e⟩

/-- Fault kinds other than MEASUREMENT_CLIP, by their bits. -/
def FaultKind.notClip (k : FaultKind) : Prop := FaultKind.measurementClip.bit &&& k.bit = 0

theorem FaultKind.busFrequency_notClip : FaultKind.busFrequency.notClip := by unfold notClip; decide

theorem FaultKind.overload_notClip : FaultKind.overload.notClip := by unfold notClip; decide

theorem State.noteClip_keepsFlag {k : FaultKind} (h : k.notClip) (s : State) (o : Outlet) (clipped : Bool) :
    KeepsFlag k s (s.noteClip o clipped) := by
  unfold State.noteClip
  dsimp only
  split
  · refine KeepsFlag.trans (t := s.raise .measurementClip (.outlet o)) ⟨?_, fun _ => ?_⟩ (.of_fe rfl)
    · rw [(s.raise_raised .measurementClip (.outlet o) none).flags, BitVec.and_or_distrib_right,
        show FaultKind.measurementClip.bit &&& k.bit = 0 from h]
      exact BitVec.or_zero
    · exact (s.raise_raised .measurementClip (.outlet o) none).sinceClear
  · exact .refl k s

/-! ### The rest of a step that has judged a record of Pn -/

/-- What the pair and power records of a cycle leave of an outlet, where neither the overload count nor a deferred
stop is at its end. -/
structure Followed (o : Outlet) (s t : State) : Prop where
  sc : ∃ cap reported unloaded, (t.berth o).sc = { (s.berth o).sc with
    capFrom := cap, capReported := reported, unloadedFrom := unloaded }
  pr : ∃ overload capacity reverse, (t.berth o).pr = { (s.berth o).pr with
    overload := overload, capacityFrom := capacity, reverseFrom := reverse }
  mode : (t.berth o).rg.mode = (s.berth o).rg.mode
  hold : (t.berth o).mp.hold = (s.berth o).mp.hold
  flag : ∀ k : FaultKind, k.notClip → KeepsFlag k s t

theorem Followed.refl (o : Outlet) (s : State) : Followed o s s :=
  ⟨⟨_, _, _, rfl⟩, ⟨_, _, _, rfl⟩, rfl, rfl, fun k _ => .refl k s⟩

theorem Followed.trans {o : Outlet} {s t u : State} (h : Followed o s t) (g : Followed o t u) :
    Followed o s u := by
  obtain ⟨⟨_, _, _, hsc⟩, ⟨_, _, _, hpr⟩, hmode, hhold, hflag⟩ := h
  obtain ⟨⟨a, b, c, gsc⟩, ⟨d, e, f, gpr⟩, gmode, ghold, gflag⟩ := g
  exact ⟨⟨a, b, c, by rw [gsc, hsc]⟩, ⟨d, e, f, by rw [gpr, hpr]⟩, gmode.trans hmode, ghold.trans hhold,
    fun k hk => (hflag k hk).trans (gflag k hk)⟩

theorem Followed.state {o : Outlet} {s t : State} (h : Followed o s t) :
    (t.berth o).sc.state = (s.berth o).sc.state := by
  obtain ⟨_, _, _, e⟩ := h.sc
  rw [e]

theorem State.takePair_followed (s : State) (o : Outlet) : Followed o s (s.takePair o) := by
  have own := (s.takePair_own o).berth
  have mode := (s.berth o).takesPair_mode (s.capacity o)
  obtain ⟨sc, mp, pr, -⟩ := (s.berth o).takesPair_kept (s.capacity o)
  refine ⟨⟨_, _, _, by rw [own, sc]⟩, ⟨_, _, _, by rw [own, pr]⟩, by rw [own, mode], by rw [own, mp],
    fun k _ => .of_fe ?_⟩
  unfold State.takePair
  split <;> rfl

theorem State.takePower_keepsFlag {s : State} {o : Outlet} (r : PowerRecord) (stop : (s.berth o).noStopDue)
    (count : (s.berth o).pr.overload < 9 ∨ (s.berth o).sc.state.breakerClosed = false) {k : FaultKind}
    (hk : k.notClip) : KeepsFlag k s (s.takePower o r) := by
  obtain ⟨clip, own⟩ := s.looped_own o r
  have looped : KeepsFlag k s (s.looped o r) := by
    have noted := State.noteClip_keepsFlag hk (s.onMu o fun m => { m with power := some r }) o r.clipped
    exact ⟨noted.flag, noted.since⟩
  refine looped.trans (.of_fe ?_)
  rw [State.takePower_eq]
  generalize s.looped o r = l at *
  have due : (l.watched o r.s).stopDue o r.s = none := State.watched_noStopDue (by rw [own.berth]; exact stop) _
  rw [State.mpPower_quiet due]
  obtain ⟨modules, shared⟩ := (l.watched o r.s).shareLoad_rest o r
  have berth : ((l.watched o r.s).shareLoad o r).berth o = (l.watched o r.s).berth o := by rw [shared]; rfl
  have watched : ((l.watched o r.s).berth o).pr = (l.berth o).pr
      ∧ ((l.watched o r.s).berth o).sc = (l.berth o).sc := by
    unfold State.watched State.onMp
    rw [State.berth_onBerth_self]
    exact ⟨rfl, rfl⟩
  rw [State.prPower_quiet r (by rw [berth, watched.1, watched.2, own.berth]; exact count), shared]
  rfl

theorem State.takePower_followed {s : State} {o : Outlet} (r : PowerRecord) (stop : (s.berth o).noStopDue)
    (count : (s.berth o).pr.overload < 9 ∨ (s.berth o).sc.state.breakerClosed = false) :
    Followed o s (s.takePower o r) := by
  obtain ⟨clip, berth⟩ := (s.takePower_taken o r stop count).berth
  exact ⟨⟨_, _, _, by rw [berth]; rfl⟩, ⟨_, _, _, by rw [berth]; rfl⟩,
    by rw [berth]; exact Berth.powerLoop_mode _ _ _, by rw [berth]; rfl,
    fun _ hk => State.takePower_keepsFlag r stop count hk⟩

theorem State.settle_followed {s : State} {o : Outlet} (h : (s.berth o).sc.state ≠ .awaitAuth) :
    Followed o s s.settle := by
  have same := State.settle_berth h
  exact ⟨⟨_, _, _, by rw [same.sc]⟩, ⟨_, _, _, by rw [same.pr]⟩, by rw [same.rg], State.settle_hold h,
    fun k _ => (State.settle_noFault s).keepsFlag k⟩

/-- The rest of a step that has judged a record, to its end. -/
theorem Followed.rest {o : Outlet} {w t : State}
    (h : t = w ∨ ∃ q, t = w.takePower o q ∨ t = (w.takePair o).takePower o q)
    (stop : (w.berth o).noStopDue)
    (count : (w.berth o).pr.overload < 9 ∨ (w.berth o).sc.state.breakerClosed = false)
    (awake : (w.berth o).sc.state ≠ .awaitAuth) : Followed o w t.settle := by
  have made : Followed o w t := by
    rcases h with rfl | ⟨q, rfl | rfl⟩
    · exact .refl o _
    · exact State.takePower_followed q stop count
    · have own := (w.takePair_own o).berth
      obtain ⟨sc, mp, pr, -⟩ := (w.berth o).takesPair_kept (w.capacity o)
      refine (w.takePair_followed o).trans (State.takePower_followed q ?_ ?_)
      · unfold Berth.noStopDue
        rw [own, mp, sc]
        exact stop
      · rw [own, pr, sc]
        exact count
  exact made.trans (State.settle_followed (by rw [made.state]; exact awake))

/-! ### The tenth record outside the band (R111) -/

/-- The state in which a record of Pn has been held and noted, and PR has counted it. -/
def State.counted (s : State) (o : Outlet) (p : PointState) (r : Phasor) : State :=
  ((s.setPoint (.ship o) p).noteClip o r.clipped).onBerth o fun b => b.prShipRecord r

theorem State.counted_own (s : State) (o : Outlet) (p : PointState) (r : Phasor) :
    ∃ c, OwnChange o (fun b => ((b.holdsShip p).noticed c).prShipRecord r) s (s.counted o p r) := by
  obtain ⟨c, noted⟩ := (s.setPoint (.ship o) p).noteClip_own o r.clipped
  exact ⟨c, ((s.setPoint_ship o p).trans noted).trans (.onBerth _ o fun b => b.prShipRecord r)⟩

theorem State.counted_keepsFlag {k : FaultKind} (h : k.notClip) (s : State) (o : Outlet) (p : PointState)
    (r : Phasor) : KeepsFlag k s (s.counted o p r) := by
  have noted := State.noteClip_keepsFlag h (s.setPoint (.ship o) p) o r.clipped
  have held : (s.setPoint (.ship o) p).fe = s.fe := rfl
  exact ⟨noted.flag.trans (by rw [held]), fun e => noted.since (by rw [held]; exact e)⟩

/-- What PR counts of a record outside the band, where nine stood before (R111). -/
theorem State.counted_tenth {s : State} {o : Outlet} (p : PointState) {r : Phasor}
    (nine : (s.berth o).pr.frequency = 9) (watched : (s.berth o).watchesBus = true)
    (outside : outsideFrequency (s.berth o).nominalFreq r = true) :
    ((s.counted o p r).berth o).pr.frequency = 10 := by
  obtain ⟨c, own⟩ := s.counted_own o p r
  rw [own.berth, Berth.prShipRecord_eq]
  show (if (s.berth o).watchesBus = true then
    countRecord (s.berth o).pr.frequency (outsideFrequency (s.berth o).nominalFreq r) else _) = 10
  rw [if_pos watched, nine, outside]
  rfl

/-- SY keeps no dead time outside ENERGISING and SYNCHRONISING (R73). -/
theorem Berth.syShipRecord_idle {b : Berth} (now : RunCount) (h : b.sc.state.keepsDeadTime = false) :
    b.syShipRecord now = b := by
  unfold syShipRecord
  rw [h]
  rfl

/-- A record of Pn at which BUS_FREQUENCY completes, in an outlet that it leaves TRIPPED (R108, R111). -/
theorem State.guards_tenth {s : State} {o : Outlet} {p : PointState} {r : Phasor}
    (nine : (s.berth o).pr.frequency = 9) (watched : (s.berth o).watchesBus = true)
    (outside : outsideFrequency (s.berth o).nominalFreq r = true)
    (tripped : (((s.counted o p r).complete o .busFrequency).berth o).sc.state = .tripped) :
    s.guards o p r = (s.counted o p r).complete o .busFrequency
      ∧ (s.guards o p r).judgeBuses o = s.guards o p r := by
  have full : ((s.setPoint (.ship o) p).noteClip o r.clipped).prShip o r
      = (s.counted o p r).complete o .busFrequency :=
    if_pos (State.counted_tenth p nine watched outside)
  have guards : s.guards o p r = (s.counted o p r).complete o .busFrequency := by
    show State.onBerth _ o _ = _
    rw [full]
    exact State.onBerth_unchanged (Berth.syShipRecord_idle s.tb.run
      (show OutletState.keepsDeadTime (((s.counted o p r).complete o .busFrequency).berth o).sc.state = false by
        rw [tripped]; rfl))
  refine ⟨guards, State.judgeBuses_stays (Berth.staysPut_of_not _ ?_)⟩
  rw [guards, tripped]
  rfl

/-- BUS_FREQUENCY trips a breaker-closed outlet at the tenth record outside the band. -/
theorem State.guards_trips {s : State} {o : Outlet} {p : PointState} {r : Phasor}
    (nine : (s.berth o).pr.frequency = 9) (closed : (s.berth o).sc.state.breakerClosed = true)
    (outside : outsideFrequency (s.berth o).nominalFreq r = true) :
    Tripped o .busFrequency s (s.guards o p r) ∧ (s.guards o p r).judgeBuses o = s.guards o p r := by
  obtain ⟨c, own⟩ := s.counted_own o p r
  have berth := own.berth
  rw [Berth.prShipRecord_eq] at berth
  have trips : (s.counted o p r).complete o .busFrequency = (s.counted o p r).trip o .busFrequency :=
    State.complete_trips (by rw [berth, Cause.busFrequency_tripsIn]; exact closed)
  have tripped := (s.counted o p r).trip_tripped o .busFrequency
  obtain ⟨guards, stays⟩ := State.guards_tenth (p := p) nine
    (by unfold Berth.watchesBus; rw [closed]; rfl) outside (by rw [trips]; exact tripped.state)
  refine ⟨?_, stays⟩
  rw [guards, trips]
  refine tripped.before ?_ ?_ ?_ ?_ (by rw [own.tb]) (by rw [own.pool]) fun m _ _ => own.module m <;>
    · rw [berth]; rfl

/-! ### Later causes (R108) -/

theorem State.laterCause_taken {s : State} {o : Outlet} (c : Cause)
    (state : (s.berth o).sc.state = .tripped) : TakesLaterCause o c s (s.laterCause o c) := by
  have berth := s.laterCause_berth o c
  refine ⟨by rw [berth]; exact state, by rw [berth], by rw [berth], by rw [berth], by rw [berth], by rw [berth],
    fun new => ?_, fun again => by rw [State.laterCause_again again]⟩
  have raised := State.laterCause_raised new
  exact ⟨raised.flag, raised.sinceClear⟩

/-- What came before a later cause without touching what it keeps. -/
theorem TakesLaterCause.before {o : Outlet} {c : Cause} {s u t : State} (h : TakesLaterCause o c u t)
    (cause : (u.berth o).sc.firstCause = (s.berth o).sc.firstCause)
    (hold : (u.berth o).mp.hold = (s.berth o).mp.hold)
    (drive : (u.berth o).pr.openDrive = (s.berth o).pr.openDrive)
    (postTrip : (u.berth o).pr.postTripFrom = (s.berth o).pr.postTripFrom)
    (later : (u.berth o).pr.laterCauses = (s.berth o).pr.laterCauses) (flag : KeepsFlag c.fault s u) :
    TakesLaterCause o c s t := by
  obtain ⟨state, hcause, hhold, hdrive, hpost, causes, raised, once⟩ := h
  rw [later] at causes raised once
  exact ⟨state, hcause.trans cause, hhold.trans hold, hdrive.trans drive, hpost.trans postTrip, causes, raised,
    fun again => (once again).trans flag.flag⟩

/-- What follows a later cause without touching what it keeps. -/
theorem TakesLaterCause.after {o : Outlet} {c : Cause} {s t u : State} (h : TakesLaterCause o c s t)
    (state : (u.berth o).sc.state = (t.berth o).sc.state)
    (cause : (u.berth o).sc.firstCause = (t.berth o).sc.firstCause)
    (hold : (u.berth o).mp.hold = (t.berth o).mp.hold)
    (drive : (u.berth o).pr.openDrive = (t.berth o).pr.openDrive)
    (postTrip : (u.berth o).pr.postTripFrom = (t.berth o).pr.postTripFrom)
    (later : (u.berth o).pr.laterCauses = (t.berth o).pr.laterCauses) (flag : KeepsFlag c.fault t u) :
    TakesLaterCause o c s u := by
  obtain ⟨hstate, hcause, hhold, hdrive, hpost, causes, raised, once⟩ := h
  exact ⟨state.trans hstate, cause.trans hcause, hold.trans hhold, drive.trans hdrive, postTrip.trans hpost,
    later.trans causes, fun new => ⟨flag.flag.trans (raised new).1, flag.since (raised new).2⟩,
    fun again => flag.flag.trans (once again)⟩

theorem TakesLaterCause.followed {o : Outlet} {c : Cause} {s t u : State} (h : TakesLaterCause o c s t)
    (f : Followed o t u) (hc : c.fault.notClip) : TakesLaterCause o c s u := by
  obtain ⟨_, _, _, sc⟩ := f.sc
  obtain ⟨_, _, _, pr⟩ := f.pr
  exact h.after (by rw [sc]) (by rw [sc]) f.hold (by rw [pr]) (by rw [pr]) (by rw [pr]) (f.flag _ hc)

/-- BUS_FREQUENCY is a later cause at the tenth record outside the band. -/
theorem State.guards_later {s : State} {o : Outlet} {p : PointState} {r : Phasor}
    (nine : (s.berth o).pr.frequency = 9) (state : (s.berth o).sc.state = .tripped)
    (closed : (s.berth o).lines.breakerClosed = true)
    (outside : outsideFrequency (s.berth o).nominalFreq r = true) :
    TakesLaterCause o .busFrequency s (s.guards o p r)
      ∧ (s.guards o p r).judgeBuses o = s.guards o p r := by
  obtain ⟨c, own⟩ := s.counted_own o p r
  have berth := own.berth
  rw [Berth.prShipRecord_eq] at berth
  have later : (s.counted o p r).complete o .busFrequency = (s.counted o p r).laterCause o .busFrequency :=
    State.complete_later (by rw [berth]; exact state) (by rw [berth]; exact closed) rfl
  have taken := (s.counted o p r).laterCause_taken (o := o) .busFrequency (by rw [berth]; exact state)
  obtain ⟨guards, stays⟩ := State.guards_tenth (p := p) nine
    (by unfold Berth.watchesBus Berth.trippedClosed; rw [state, closed]; rfl) outside
    (by rw [later]; exact taken.state)
  refine ⟨?_, stays⟩
  rw [guards, later]
  refine taken.before ?_ ?_ ?_ ?_ ?_ (State.counted_keepsFlag FaultKind.busFrequency_notClip s o p r) <;>
    · rw [berth]; rfl

/-! ### The tenth power record over the threshold (R110) -/

/-- OVERLOAD trips a breaker-closed outlet at the tenth power record over the threshold. -/
theorem State.takePower_tenth {s : State} {o : Outlet} {r : PowerRecord} (stop : (s.berth o).noStopDue)
    (closed : (s.berth o).sc.state.breakerClosed = true) (nine : (s.berth o).pr.overload = 9)
    (exceeds : overloaded (s.berth o).pr.tripPct (s.capacity o) r.s = true) :
    ∃ j : State, s.takePower o r = (j.trip o .overload).scPower o r := by
  obtain ⟨clip, looped⟩ := s.looped_own o r
  rw [State.takePower_eq]
  generalize s.looped o r = l at *
  have due : (l.watched o r.s).stopDue o r.s = none :=
    State.watched_noStopDue (by rw [looped.berth]; exact stop) _
  rw [State.mpPower_quiet due]
  obtain ⟨modules, shared⟩ := (l.watched o r.s).shareLoad_rest o r
  obtain ⟨v, hv⟩ : ∃ v, v = (l.watched o r.s).shareLoad o r := ⟨_, rfl⟩
  have kept : (v.berth o).pr = (s.berth o).pr ∧ (v.berth o).sc = (s.berth o).sc := by
    rw [hv, shared]
    show ((l.watched o r.s).berth o).pr = _ ∧ ((l.watched o r.s).berth o).sc = _
    unfold State.watched State.onMp
    rw [State.berth_onBerth_self, looped.berth]
    exact ⟨rfl, rfl⟩
  have capacity : v.capacity o = s.capacity o := by
    rw [hv, State.capacity_shareLoad]
    exact looped.capacity o
  obtain ⟨j, hj⟩ : ∃ j, j = v.onBerth o fun b => b.judgedPower (v.capacity o) r v.tb.run := ⟨_, rfl⟩
  have berth : j.berth o = (v.berth o).judgedPower (v.capacity o) r v.tb.run := by
    rw [hj, State.berth_onBerth_self]
  rw [Berth.judgedPower_eq] at berth
  have full : (j.berth o).pr.overload = 10 := by
    rw [berth]
    dsimp only
    rw [kept.1, kept.2, closed, if_pos rfl, capacity, nine, exceeds]
    rfl
  have trips : j.complete o .overload = j.trip o .overload :=
    State.complete_trips (by rw [berth, Cause.overload_tripsIn]; dsimp only; rw [kept.2]; exact closed)
  refine ⟨j, ?_⟩
  have prPower : v.prPower o r
      = if (j.berth o).pr.overload = 10 then j.complete o .overload else j := by rw [hj]; rfl
  rw [← hv, prPower, if_pos full, trips]

/-- What SC's taking of a power record, and the passes of the step's end, leave of a tripped outlet. -/
theorem State.scPower_followed (s : State) (o : Outlet) (r : PowerRecord) : Followed o s (s.scPower o r) := by
  have berth : (s.scPower o r).berth o = (s.berth o).judgeLoad (s.capacity o) r s.tb.run :=
    State.berth_onBerth_self _ _ _
  exact ⟨⟨_, _, _, by rw [berth]; rfl⟩, ⟨_, _, _, by rw [berth]; rfl⟩, by rw [berth]; rfl, by rw [berth]; rfl,
    fun k _ => .of_fe rfl⟩

/-- What a trip is over what follows it. -/
theorem Followed.trip {o : Outlet} {s t u : State} {c : Cause} (f : Followed o t u) (h : Tripped o c s t)
    (hc : c.fault.notClip) :
    (u.berth o).sc.state = .tripped ∧ (u.berth o).sc.firstCause = some c
      ∧ (u.berth o).sc.session = (s.berth o).sc.session
      ∧ (u.berth o).pr.openDrive = true ∧ (u.berth o).pr.postTripFrom = some s.tb.run
      ∧ (u.berth o).rg.mode = .off ∧ u.fe.flags &&& c.fault.bit = c.fault.bit := by
  obtain ⟨_, _, _, sc⟩ := f.sc
  obtain ⟨_, _, _, pr⟩ := f.pr
  exact ⟨by rw [sc]; exact h.state, by rw [sc]; exact h.cause, by rw [sc]; exact h.session,
    by rw [pr]; exact h.drive, by rw [pr]; exact h.postTrip, f.mode.trans h.mode,
    (f.flag _ hc).flag.trans h.flag⟩

end Sys2Proof.Machine
end

