-- ==== Sys2Proof/Proofs/ProtectionTrips.lean ====
section
/-! PROOFS. The watches and counts of protection (R110 to R114), and the later causes of TRIPPED (R108). -/

namespace Sys2Proof.Machine

open Sys2Proof

/-! ### The watches complete (R112, R113, R114) -/

/-- A watch of PR that has completed, and the cause that it makes complete. -/
structure PrWatch (o : Outlet) (i : Instr) (c : Cause) (f : Protection → Protection) (s : State) : Prop where
  exec : exec i s = .next ((s.onPr o f).complete o c).settle
  trips : c.tripsIn (s.berth o).sc.state = true
  kept : ∀ p, (f p).tripPct = p.tripPct

theorem PrWatch.tripped {o : Outlet} {i : Instr} {c : Cause} {f : Protection → Protection} {s : State}
    (h : PrWatch o i c f s) : ∃ t, Machine.exec i s = .next t ∧ Tripped o c s t ∧ Raised c.fault s t
      ∧ Elsewhere [o] [] s t ∧ KeepsAccount s t ∧ t.metering = s.metering := by
  have trips : (s.onPr o f).complete o c = (s.onPr o f).trip o c :=
    State.complete_trips (by rw [State.sc_onPr]; exact h.trips)
  have hexec := h.exec
  rw [trips] at hexec
  have acts : Acts ⟨[o], [], false, false, [c.fault]⟩ s ((s.onPr o f).trip o c).settle :=
    ((Acts.onPr s o f List.mem_cons_self (h.kept _)).trans
      (State.trip_acts _ o c List.mem_cons_self List.mem_cons_self)).trans (State.settle_acts _ _)
  refine ⟨_, hexec, ?_, ?_, acts.frame⟩
  · refine (((State.trip_tripped _ o c).after (State.settle_acts ⟨[], [], false, false, []⟩ _)
      List.not_mem_nil rfl).before ?_ ?_ ?_ ?_ rfl rfl fun _ _ _ => rfl) <;>
      · unfold State.onPr; rw [State.berth_onBerth_self]
  · exact (Raised.before (.onBerth s o _) (State.trip_raised _ o c)).after (State.settle_noFault _)

theorem Cause.busVoltage_tripsIn {st : OutletState} (h : st.breakerClosed = true) :
    Cause.busVoltage.tripsIn st = true ∧ Cause.capacityLoss.tripsIn st = true := by
  revert h
  cases st <;> decide

/-- PR's changes before and after a fault is raised come to one change. -/
theorem State.onPr_raise_onPr (s : State) (o : Outlet) (f g : Protection → Protection) (k : FaultKind)
    (src : Source) : ((s.onPr o f).raise k src).onPr o g = (s.onPr o fun p => g (f p)).raise k src := by
  show ((s.onPr o f).onPr o g).raise k src = _
  unfold State.onPr
  rw [State.onBerth_onBerth]

/-- BUS_VOLTAGE in TRIPPED with the feedback closed (R108). -/
theorem exec_voltageWatch_later {o : Outlet} {s : State} (runs : (s.berth o).pr.voltageFrom.isSome = true)
    (state : (s.berth o).sc.state = .tripped) (closed : (s.berth o).lines.breakerClosed = true)
    (new : (s.berth o).pr.laterCauses.contains .busVoltage = false) (pass : s.passDue = false) :
    exec (.voltageWatchComplete o) s = .next ((s.onPr o fun p => { p with
      voltageFrom := none, laterCauses := p.laterCauses ++ [.busVoltage] }).raise .busVoltage (.outlet o)) := by
  obtain ⟨u, hu⟩ : ∃ u, u = s.onPr o fun p => { p with voltageFrom := none } := ⟨_, rfl⟩
  have berth : u.berth o = { s.berth o with pr := { (s.berth o).pr with voltageFrom := none } } := by
    rw [hu]; unfold State.onPr; rw [State.berth_onBerth_self]
  have hexec : exec (.voltageWatchComplete o) s = .next (u.complete o .busVoltage).settle := by
    rw [hu]; exact congrArg Host.Outcome.next (if_pos runs)
  have later : u.complete o .busVoltage = (u.raise .busVoltage (.outlet o)).onPr o fun p =>
      { p with laterCauses := p.laterCauses ++ [.busVoltage] } := by
    rw [State.complete_later (by rw [berth]; exact state) (by rw [berth]; exact closed) rfl,
      State.laterCause_new (by rw [berth]; exact new)]
    rfl
  have made : u.complete o .busVoltage = (s.onPr o fun p => { p with
      voltageFrom := none, laterCauses := p.laterCauses ++ [.busVoltage] }).raise .busVoltage (.outlet o) := by
    rw [later, hu]
    exact State.onPr_raise_onPr s o _ _ .busVoltage (.outlet o)
  rw [made] at hexec
  exact hexec.trans (congrArg Host.Outcome.next (State.settle_of_no_pass pass))

/-! ### A record of Pn while the frequency count is not at its end (R111, R112) -/

theorem OutletState.closed_idle {st : OutletState} (h : st.breakerClosed = true) :
    st.keepsDeadTime = false ∧ st ≠ .awaitAuth := by
  revert h
  cases st <;> decide

theorem Berth.watchesBus_of_closed {b : Berth} (h : b.sc.state.breakerClosed = true) : b.watchesBus = true := by
  unfold watchesBus; rw [h]; rfl

/-- What a record of Pn leaves of a breaker-closed outlet while the frequency count is not at its end. -/
structure Counts (o : Outlet) (r : Phasor) (s w : State) : Prop where
  sc : (w.berth o).sc = (s.berth o).sc
  mp : (w.berth o).mp = (s.berth o).mp
  pr : (w.berth o).pr = { (s.berth o).pr with
    frequency := countRecord (s.berth o).pr.frequency (outsideFrequency (s.berth o).nominalFreq r)
    voltageFrom := watch (s.berth o).pr.voltageFrom (outsideVoltage (s.berth o).nominalVolts r) r.stamp.run }
  stays : w.judgeBuses o = w

theorem State.guards_counts {s : State} {o : Outlet} (p : PointState) (r : Phasor)
    (closed : (s.berth o).sc.state.breakerClosed = true) (few : (s.berth o).pr.frequency < 9) :
    Counts o r s (s.guards o p r) := by
  obtain ⟨c, own⟩ := State.guards_own (s := s) (o := o) p r (.inl few)
  have berth := own.berth
  rw [Berth.guarded_eq] at berth
  have watched := Berth.watchesBus_of_closed closed
  refine ⟨by rw [berth]; rfl, by rw [berth]; rfl, ?_, State.judgeBuses_stays (Berth.staysPut_of_not _ ?_)⟩
  · rw [berth, Berth.prShipRecord_eq]
    show ({ (s.berth o).pr with
      frequency := if (s.berth o).watchesBus = true then
        countRecord (s.berth o).pr.frequency (outsideFrequency (s.berth o).nominalFreq r) else _
      voltageFrom := if (s.berth o).watchesBus = true then watch (s.berth o).pr.voltageFrom
        (outsideVoltage (s.berth o).nominalVolts r) r.stamp.run else _ } : Protection) = _
    rw [if_pos watched, if_pos watched]
  · rw [berth]
    exact (OutletState.closed_idle closed).1

/-- A record of Pn that a command has brought, taken to the end of its step. -/
theorem Counts.step {o : Outlet} {r : Phasor} {s w t : State} (h : Counts o r s w)
    (rest : t = w ∨ ∃ q, t = w.takePower o q ∨ t = (w.takePair o).takePower o q)
    (closed : (s.berth o).sc.state.breakerClosed = true) (few : (s.berth o).pr.overload < 9)
    (stop : (s.berth o).mp.voluntary = none) :
    (t.settle.berth o).sc.state = (s.berth o).sc.state
      ∧ (t.settle.berth o).pr.frequency
        = countRecord (s.berth o).pr.frequency (outsideFrequency (s.berth o).nominalFreq r)
      ∧ (t.settle.berth o).pr.voltageFrom
        = watch (s.berth o).pr.voltageFrom (outsideVoltage (s.berth o).nominalVolts r) r.stamp.run := by
  have after := Followed.rest rest
    (fun x hx => by rw [h.mp, stop] at hx; cases hx)
    (.inl (by rw [h.pr]; exact few)) (by rw [h.sc]; exact (OutletState.closed_idle closed).2)
  obtain ⟨_, _, _, pr⟩ := after.pr
  exact ⟨by rw [after.state, h.sc], by rw [pr, h.pr], by rw [pr, h.pr]⟩

/-- The band of BUS_VOLTAGE, by what a record brings (R17, R112). -/
theorem Brings.outsideVoltage {s : State} {pt : MeasPoint} {v : LineVoltages} {p : PointState} {r : Phasor}
    (h : Brings s pt v p r) {judged : Nat}
    (hj : judged = if v.clipped then 15000 else min 15000 ((v.v12 + v.v23 + v.v31) / 3)) (nominal : Nat)
    (running : Option RunCount) : watch running (outsideVoltage nominal r) r.stamp.run
      = if nominal * 90 ≤ judged * 100 ∧ judged * 100 ≤ nominal * 110 then none
        else some (running.getD s.tb.run) := by
  have volts : r.judgedVolts = judged := by
    rw [hj]
    unfold Phasor.judgedVolts
    rw [h.clipped, h.voltage]
    unfold recordVolts meanVolts
    cases v.clipped with
    | true => rfl
    | false =>
      rw [Bool.false_or]
      by_cases high : 15000 < (v.v12 + v.v23 + v.v31) / 3
      · rw [if_pos (by simpa using high), if_neg Bool.false_ne_true, Nat.min_eq_left high.le]
      · rw [if_neg (by simpa using high), if_neg Bool.false_ne_true]
  have run : r.stamp.run = s.tb.run := by rw [h.stamp]; rfl
  unfold watch Machine.outsideVoltage
  rw [volts, run]
  by_cases inside : nominal * 90 ≤ judged * 100 ∧ judged * 100 ≤ nominal * 110
  · rw [if_pos inside, decide_eq_true inside.1, decide_eq_true inside.2]
    rfl
  · rw [if_neg inside, if_pos]
    rw [Bool.not_eq_true', ← Bool.not_eq_true, Bool.and_eq_true, decide_eq_true_eq, decide_eq_true_eq]
    exact inside

/-! ### Records outside the band (R111) -/

/-- A command that brings a record of Pn outside the frequency band now. -/
def State.BringsOutside (s : State) (o : Outlet) (v : LineVoltages) (i : Instr) : Prop :=
  (i = .voltageOnlyCadence (.ship o) v ∧ (s.berth o).mu.ship.cycle = none)
    ∨ (i = .cycleLapse (.ship o) v ∧ (s.berth o).mu.ship.cycle ≠ none)
    ∨ (∃ c last freq, i = .zeroCrossing (.ship o) v c ∧ (s.berth o).mu.ship.cycle = some last
      ∧ 14286 ≤ elapsed s.tb.run last.run ∧ elapsed s.tb.run last.run ≤ 25000
      ∧ freq = 1000000000 / elapsed s.tb.run last.run
      ∧ (freq * 100 < (s.berth o).nominalFreq * 95 ∨ (s.berth o).nominalFreq * 105 < freq * 100))

theorem outsideFrequency_cycled {nominal period : Nat} (now : TimeStamp) (v : LineVoltages)
    (h : 1000000000 / period * 100 < nominal * 95 ∨ nominal * 105 < 1000000000 / period * 100) :
    outsideFrequency nominal (phasor now (some (cycleFields period)) v) = true := by
  show (!(decide (nominal * 95 ≤ 1000000000 / period * 100)
    && decide (1000000000 / period * 100 ≤ nominal * 105))) = true
  rw [Bool.not_eq_true', ← Bool.not_eq_true, Bool.and_eq_true, decide_eq_true_eq, decide_eq_true_eq]
  omega

/-- A record outside the band is taken, and the passes of the step's end are made. -/
theorem State.BringsOutside.brings {s : State} {o : Outlet} {v : LineVoltages} {i : Instr}
    (h : s.BringsOutside o v i) : ∃ p r c, p.record = some r
      ∧ outsideFrequency (s.berth o).nominalFreq r = true
      ∧ exec i s = .next ((s.setPoint (.ship o) p).takeRecord (.ship o) v c).settle
      ∧ MeasuredFrame (.ship o) s ((s.setPoint (.ship o) p).takeRecord (.ship o) v c).settle := by
  obtain ⟨p, hp⟩ : ∃ p, p = (s.point (.ship o)).voltageOnly (s.nominalAt (.ship o)) s.now v := ⟨_, rfl⟩
  rcases h with ⟨rfl, none'⟩ | ⟨rfl, some'⟩ | ⟨c, last, freq, rfl, hlast, low, high, rfl, outside⟩
  · exact ⟨p, phasor s.now none v, none, by rw [hp]; rfl, rfl, by
      rw [hp]; exact congrArg Host.Outcome.next (if_pos (by
        show (s.berth o).mu.ship.cycle.isNone = true
        rw [none']; rfl)), (s.takeRecord_frame _ _ _ _).1⟩
  · exact ⟨p, phasor s.now none v, none, by rw [hp]; rfl, rfl, by
      rw [hp]; exact congrArg Host.Outcome.next (if_pos (Option.isSome_iff_ne_none.mpr some')),
      (s.takeRecord_frame _ _ _ _).1⟩
  · by_cases live : liveThreshold (s.nominalAt (.ship o)) ≤ recordVolts v
    · exact ⟨_, _, some c, rfl, outsideFrequency_cycled s.now v outside,
        execZeroCrossing_recorded (PointState.cross_cycled hlast low high live),
        (s.takeRecord_frame _ _ _ _).1⟩
    · exact ⟨p, phasor s.now none v, some c, by rw [hp]; rfl, rfl, by
        rw [hp]
        exact execZeroCrossing_recorded (PointState.cross_dead hlast low high (Nat.lt_of_not_le live)),
        (s.takeRecord_frame _ _ _ _).1⟩

/-- The cadence's record of Pn is judged, and no cycle's records follow it. -/
theorem exec_shipCadence {s : State} {o : Outlet} (v : LineVoltages)
    (h : (s.berth o).mu.ship.cycle = none) : ∃ p, exec (.voltageOnlyCadence (.ship o) v) s
      = .next ((s.guards o p (phasor s.now none v)).judgeBuses o).settle := by
  refine ⟨(s.point (.ship o)).voltageOnly (s.nominalAt (.ship o)) s.now v, ?_⟩
  have brought : exec (.voltageOnlyCadence (.ship o) v) s = .next ((s.setPoint (.ship o)
      ((s.point (.ship o)).voltageOnly (s.nominalAt (.ship o)) s.now v)).takeRecord (.ship o) v none).settle :=
    congrArg Host.Outcome.next (if_pos (by
      show (s.berth o).mu.ship.cycle.isNone = true
      rw [h]; rfl))
  refine brought.trans (congrArg (fun t : State => Host.Outcome.next t.settle) ?_)
  exact State.takeShipRecord_of_none (by rw [(s.setPoint_ship o _).berth]; rfl) (.inr rfl) v

end Sys2Proof.Machine
end

