-- ==== Sys2Proof/Proofs/CountsAndWatches.lean ====
section
/-! PROOFS. What PR makes of a power record (R110, R113, R114), and the later causes that the ship link brings
(R108, R109). -/

namespace Sys2Proof.Machine

open Sys2Proof

/-! ### Power records of a breaker-closed outlet -/

/-- A count that is not at its end, after a record. -/
theorem countRecord_eq {n : Nat} (h : n < 9) (holds : Bool) :
    countRecord n holds = if holds = true then n + 1 else 0 := by
  unfold countRecord
  split
  · omega
  · rfl

/-- PR's counts and watches after the power record of a cycle. -/
theorem PowerDone.protection {o : Outlet} {r : PowerRecord} {s t : State} (h : PowerDone o r s t)
    (closed : (s.berth o).sc.state.breakerClosed = true) :
    (t.berth o).sc.state = (s.berth o).sc.state
      ∧ (t.berth o).pr.overload
        = countRecord (s.berth o).pr.overload (overloaded (s.berth o).pr.tripPct (s.capacity o) r.s)
      ∧ (t.berth o).pr.capacityFrom
        = watch (s.berth o).pr.capacityFrom (capacityLost (s.capacity o) (some r)) s.tb.run
      ∧ ((s.berth o).sc.state = .shoreSupply → (t.berth o).pr.reverseFrom
        = watch (s.berth o).pr.reverseFrom (reversed (s.capacity o) (some r)) s.tb.run) := by
  obtain ⟨w, u, ready, taken, same, -⟩ := h.done
  obtain ⟨clip, berth⟩ := taken.berth
  have quiet := ready.quiet (OutletState.closed_idle closed).1
  obtain ⟨_, _, pr⟩ := quiet.pr
  have capacity : w.capacity o = s.capacity o := by unfold State.capacity; rw [quiet.pool]
  rw [capacity, ready.tb] at berth
  refine ⟨by rw [same.sc, berth, ← quiet.sc]; rfl, ?_, ?_, fun supply => ?_⟩
  · rw [same.pr, berth]
    show (if (w.berth o).sc.state.breakerClosed = true then _ else _) = _
    rw [quiet.sc, if_pos closed, pr]
  · rw [same.pr, berth]
    show (if (w.berth o).sc.state.breakerClosed = true then _ else _) = _
    rw [quiet.sc, if_pos closed, pr]
  · rw [same.pr, berth]
    show (if (w.berth o).sc.state = .shoreSupply then _ else _) = _
    rw [quiet.sc, if_pos supply, pr]

/-- The tenth power record over the threshold trips the outlet by OVERLOAD (R110). -/
theorem State.EndsCycle.overloads {s : State} {o : Outlet} {v : LineVoltages} (h : s.EndsCycle (.ship o) v)
    (c : CyclePower) (closed : (s.berth o).sc.state.breakerClosed = true)
    (few : (s.berth o).pr.frequency < 9) (nine : (s.berth o).pr.overload = 9)
    (stop : (s.berth o).mp.voluntary = none)
    (exceeds : (s.berth o).pr.tripPct * (s.capacity o * 1000) < min 30000000 c.s * 100) :
    ∃ t, exec (.zeroCrossing (.ship o) v c) s = .next t
      ∧ (t.berth o).sc.state = .tripped ∧ (t.berth o).sc.firstCause = some .overload
      ∧ (t.berth o).pr.openDrive = true
      ∧ t.fe.flags &&& FaultKind.overload.bit = FaultKind.overload.bit := by
  obtain ⟨last, hlast, -⟩ := h.period
  obtain ⟨f, p, g, clip, -, -, hexec, -, own, ready⟩ := h.shipTaken c few hlast
  have quiet := ready.quiet (OutletState.closed_idle closed).1
  obtain ⟨_, _, pr⟩ := quiet.pr
  generalize (g.judgeBuses o).takePair o = w at *
  obtain ⟨r, hr⟩ : ∃ r, r = powerRecord c v (elapsed s.tb.run last.run) s.now := ⟨_, rfl⟩
  rw [← hr] at hexec
  have capacity : w.capacity o = s.capacity o := by unfold State.capacity; rw [quiet.pool]
  have atLeast : min 30000000 c.s ≤ r.s := by
    rw [hr]
    show min 30000000 c.s ≤ min 30000000 (max c.s _)
    omega
  obtain ⟨j, made⟩ := State.takePower_tenth (s := w) (o := o) (r := r)
    (fun x hx => by rw [quiet.mp, stop] at hx; cases hx) (by rw [quiet.sc]; exact closed)
    (by rw [pr]; exact nine)
    (by rw [pr, capacity]; unfold overloaded; exact decide_eq_true (by dsimp only; omega))
  rw [made] at hexec
  have tripped := j.trip_tripped o .overload
  have followed := ((j.trip o .overload).scPower_followed o r).trans (State.settle_followed (by
    rw [((j.trip o .overload).scPower_followed o r).state, tripped.state]; decide))
  obtain ⟨state, cause, -, drive, -, -, flag⟩ := followed.trip tripped FaultKind.overload_notClip
  exact ⟨_, hexec, state, cause, drive, flag⟩

/-! ### Later causes that the ship link brings (R108, R109) -/

theorem TakesLaterCause.touched {o : Outlet} {c : Cause} {s t : State} (h : TakesLaterCause o c s t)
    {f : Berth → Berth} (hf : TouchesLink f) : TakesLaterCause o c s (t.onBerth o f) := by
  have berth : (t.onBerth o f).berth o = { t.berth o with
      sl := (f (t.berth o)).sl
      sc := { (t.berth o).sc with flagsSeen := (f (t.berth o)).sc.flagsSeen } } := by
    rw [State.berth_onBerth_self]; exact hf _
  refine h.after ?_ ?_ ?_ ?_ ?_ ?_ (.of_fe rfl) <;> rw [berth]

/-- The leader's going on and the passes of the step's end keep a later cause. -/
theorem TakesLaterCause.goesOn {o : Outlet} {c : Cause} {s t : State} (h : TakesLaterCause o c s t) :
    TakesLaterCause o c s (t.resume o).settle := by
  have resumed := h.touched (Berth.resume_touches t.tb.run)
  have awake : ((t.resume o).berth o).sc.state ≠ .awaitAuth := by
    rw [show ((t.resume o).berth o).sc.state = .tripped from resumed.state]; decide
  have same := State.settle_berth awake
  exact TakesLaterCause.after resumed (by rw [same.sc]; rfl) (by rw [same.sc]; rfl) (State.settle_hold awake)
    (by rw [same.pr]; rfl) (by rw [same.pr]; rfl) (by rw [same.pr]; rfl)
    ((State.settle_noFault (t.resume o)).keepsFlag _)

/-- A cause that completes in TRIPPED with the feedback closed, over changes of SL. -/
theorem State.link_later {s : State} {o : Outlet} {c : Cause} (f : ShipLink → ShipLink)
    (state : (s.berth o).sc.state = .tripped) (closed : (s.berth o).lines.breakerClosed = true)
    (watched : c.watchedTripped = true) (hk : c.fault ∈ entryKinds) :
    TakesLaterCause o c s ((s.onSl o f).complete o c)
      ∧ Acts ⟨[o], [], false, false, entryKinds⟩ s ((s.onSl o f).complete o c) := by
  refine ⟨?_, (Acts.onSl s o f List.mem_cons_self).trans (State.complete_acts _ o c List.mem_cons_self hk)⟩
  have berth := State.berth_onSl_self s o f
  rw [State.complete_later (by rw [berth]; exact state) (by rw [berth]; exact closed) watched]
  refine (State.laterCause_taken c (by rw [berth]; exact state)).before ?_ ?_ ?_ ?_ ?_ (.of_fe rfl) <;>
    rw [berth]

/-- A good reply with its stop flag set, of an outlet that its stop leaves TRIPPED. -/
theorem State.goodReply_stop {s : State} {o : Outlet} {a : Nat} {st : ShipStatus} (stop : st.stop = true)
    (tripped : (((s.replied o a st).complete o .shipStop).berth o).sc.state = .tripped) :
    ∃ f, TouchesLink f ∧ s.goodReply o a st = ((s.replied o a st).complete o .shipStop).onBerth o f := by
  cases scp : (s.berth o).sl.isScp a with
  | false =>
    refine ⟨id, fun _ => rfl, ?_⟩
    rw [State.goodReply_other scp, if_pos stop]
    exact (State.onBerth_unchanged rfl).symm
  | true =>
    obtain ⟨blocked, remembered⟩ := State.takeScpStatus_tripped (st := st) tripped
    refine ⟨fun b => { b with sc := { b.sc with flagsSeen := b.sc.flagsAfter st blocked } }, fun _ => rfl, ?_⟩
    refine Eq.trans ?_ remembered
    unfold State.goodReply
    dsimp only
    rw [if_pos scp, if_pos stop]
    rfl

/-- SHIP_STOP is a later cause at a STATUS with its stop flag set (R108, R109). -/
theorem exec_status_later {s : State} {o : Outlet} {frame : ShipFrame} {st : ShipStatus}
    (state : (s.berth o).sc.state = .tripped) (closed : (s.berth o).lines.breakerClosed = true)
    (expects : s.expects o frame.src) (dst : frame.dst = 31) (payload : readStatus frame.payload = some st)
    (stop : st.stop = true) (held : Bool) :
    ∃ t, exec (.status o held frame) s = .next t ∧ TakesLaterCause o .shipStop s t
      ∧ Elsewhere [o] [] s t ∧ KeepsAccount s t ∧ t.metering = s.metering := by
  have replied : (s.noteHeld o held).replied o frame.src st = s.onSl o fun l =>
      { l with attention := held }.onEntry frame.src fun e =>
        e.good st (((s.noteHeld o held).berth o).sl.isScp frame.src) := State.onSl_onSl s o _ _
  obtain ⟨later, acts⟩ := State.link_later (s := s) (c := .shipStop) (fun l =>
      { l with attention := held }.onEntry frame.src fun e =>
        e.good st (((s.noteHeld o held).berth o).sl.isScp frame.src)) state closed rfl (by decide)
  rw [← replied] at later acts
  obtain ⟨f, hf, reply⟩ := State.goodReply_stop stop later.state
  have hexec := exec_status_expected expects dst payload held
  rw [reply] at hexec
  have touched : Acts ⟨[o], [], false, false, entryKinds⟩
      (((s.noteHeld o held).replied o frame.src st).complete o .shipStop)
      ((((s.noteHeld o held).replied o frame.src st).complete o .shipStop).onBerth o f) :=
    Acts.onBerth_keep _ _ _ List.mem_cons_self (by rw [hf]) (by rw [hf]; constructor <;> rfl)
  exact ⟨_, hexec, (later.touched hf).goesOn, (((acts.trans touched).trans
    (State.resume_acts _ o List.mem_cons_self)).trans (State.settle_acts _ _)).frame⟩

/-- SCP_LOST is a later cause at the third miss of the SCP (R108, R109, R130). -/
theorem exec_missed_later {s : State} {o : Outlet} {e : Station} {held : Bool} {i : Instr}
    (state : (s.berth o).sc.state = .tripped) (closed : (s.berth o).lines.breakerClosed = true)
    (expects : s.expects o e.address) (entry : (s.berth o).sl.entry e.address = some e)
    (kind : e.kind = some .scp) (present : e.state = .present) (third : 2 ≤ e.misses)
    (hi : i = .replyWindowClose o held ∨ (∃ src, i = .badFrame o held src)
      ∨ (∃ src, i = .incompleteFrame o held src)) :
    ∃ t, exec i s = .next t ∧ TakesLaterCause o .scpLost s t
      ∧ Elsewhere [o] [] s t ∧ KeepsAccount s t ∧ t.metering = s.metering := by
  obtain ⟨checked, hexec⟩ : ∃ checked, exec i s
      = .next (((s.noteHeld o held).miss o e.address checked).resume o).settle := by
    rcases hi with h | h | h
    · exact ⟨false, exec_missed expects (.inl ⟨h, rfl⟩)⟩
    · exact ⟨true, exec_missed expects (.inr (.inl ⟨h, rfl⟩))⟩
    · exact ⟨true, exec_missed expects (.inr (.inr ⟨h, rfl⟩))⟩
  have missed : (s.noteHeld o held).miss o e.address checked = (s.onSl o fun l =>
      { l with attention := held }.onEntry e.address fun x => x.miss checked).complete o .scpLost := by
    rw [State.miss_eq checked (State.noteHeld_entry.trans entry),
      if_pos ⟨present, by rw [(e.miss_present checked present).2 third]⟩, kind]
    exact congrArg (fun t : State => t.complete o .scpLost) (State.onSl_onSl s o _ _)
  obtain ⟨later, acts⟩ := State.link_later (s := s) (c := .scpLost) (fun l =>
      { l with attention := held }.onEntry e.address fun x => x.miss checked) state closed rfl (by decide)
  rw [← missed] at later acts
  exact ⟨_, hexec, later.goesOn, ((acts.trans (State.resume_acts _ o List.mem_cons_self)).trans
    (State.settle_acts _ _)).frame⟩

end Sys2Proof.Machine

namespace Sys2Proof.Proofs

open Machine

section
variable {o : Outlet} {v : LineVoltages} {s : State}

/-- A record outside the band, where nine stood before, trips a breaker-closed outlet (R111). -/
theorem tenthTrips {i : Instr} (closed : (s.berth o).sc.state.breakerClosed = true)
    (nine : (s.berth o).pr.frequency = 9) (brings : s.BringsOutside o v i) :
    ∃ t, exec i s = .next t ∧ MeasuredFrame (.ship o) s t
      ∧ (t.berth o).sc.state = .tripped ∧ (t.berth o).sc.firstCause = some .busFrequency
      ∧ (t.berth o).sc.session = (s.berth o).sc.session
      ∧ (t.berth o).pr.openDrive = true ∧ (t.berth o).pr.postTripFrom = some s.tb.run
      ∧ (t.berth o).rg.mode = .off
      ∧ t.fe.flags &&& FaultKind.busFrequency.bit = FaultKind.busFrequency.bit := by
  obtain ⟨p, r, c, record, outside, hexec, frame⟩ := brings.brings
  obtain ⟨w, hw, rest⟩ := State.takeShip_judged (s := s) (o := o) record v c
  obtain ⟨tripped, stays⟩ := State.guards_trips (p := p) nine closed outside
  rw [hw, stays] at rest
  have followed := Followed.rest rest (fun _ _ => .inr (by rw [tripped.state]; decide))
    (.inr (by rw [tripped.state]; rfl)) (by rw [tripped.state]; decide)
  exact ⟨_, hexec, frame, followed.trip tripped FaultKind.busFrequency_notClip⟩

/-- A record outside the band, where nine stood before, is a later cause in TRIPPED (R108, R111). -/
theorem tenthIsLater {i : Instr} (state : (s.berth o).sc.state = .tripped)
    (closed : (s.berth o).lines.breakerClosed = true) (nine : (s.berth o).pr.frequency = 9)
    (brings : s.BringsOutside o v i) :
    ∃ t, exec i s = .next t ∧ MeasuredFrame (.ship o) s t ∧ TakesLaterCause o .busFrequency s t := by
  obtain ⟨p, r, c, record, outside, hexec, frame⟩ := brings.brings
  obtain ⟨w, hw, rest⟩ := State.takeShip_judged (s := s) (o := o) record v c
  obtain ⟨later, stays⟩ := State.guards_later (p := p) nine state closed outside
  rw [hw, stays] at rest
  have followed := Followed.rest rest (fun _ _ => .inr (by rw [later.state]; decide))
    (.inr (by rw [later.state]; rfl)) (by rw [later.state]; decide)
  exact ⟨_, hexec, frame, later.followed followed FaultKind.busFrequency_notClip⟩

/-- An earlier record outside the band is counted (R111). -/
theorem earlierCounted {i : Instr} (closed : (s.berth o).sc.state.breakerClosed = true)
    (few : (s.berth o).pr.frequency < 9) (light : (s.berth o).pr.overload < 9)
    (stop : (s.berth o).mp.voluntary = none) (brings : s.BringsOutside o v i) :
    ∃ t, exec i s = .next t ∧ MeasuredFrame (.ship o) s t
      ∧ (t.berth o).sc.state = (s.berth o).sc.state
      ∧ (t.berth o).pr.frequency = (s.berth o).pr.frequency + 1 := by
  obtain ⟨p, r, c, record, outside, hexec, frame⟩ := brings.brings
  obtain ⟨w, hw, rest⟩ := State.takeShip_judged (s := s) (o := o) record v c
  have counts := State.guards_counts p r closed few
  rw [hw, counts.stays] at rest
  obtain ⟨state, frequency, -⟩ := counts.step rest closed light stop
  exact ⟨_, hexec, frame, state, by rw [frequency, outside, countRecord_eq few]; rfl⟩

end

/-- Settles O30: the watches, the counts, the records of both kinds, and the later causes. -/
theorem protectionTrips : Obligations.ProtectionTrips := by
  refine ⟨fun o s => ⟨fun i c hi => ?_, exec_voltageWatch_later⟩, fun o v s closed =>
    ⟨fun cycle nine => ?_, fun cycle few => ?_, fun c last freq cycle low high _ hfreq outside =>
      ⟨fun nine => ?_, fun few light stop => ?_⟩,
      fun c last cycle low high volts few nine stop exceeds =>
        State.EndsCycle.overloads ⟨⟨last, cycle, low, high⟩, volts⟩ c closed few nine stop exceeds,
      fun i judged hi few light stop hj => ?_⟩,
    fun o pt v c s cap closed makes few light stop hcap => ?_, fun o s state closed =>
    ⟨fun v i nine brings => tenthIsLater state closed nine brings,
      fun held frame st expects dst payload stop =>
        exec_status_later state closed expects dst payload stop held,
      fun held e i expects entry kind present third hi =>
        exec_missed_later state closed expects entry kind present third hi⟩⟩
  · rcases hi with ⟨rfl, rfl, runs, state⟩ | ⟨rfl, rfl, runs, state⟩ | ⟨rfl, rfl, runs, state⟩
    · exact PrWatch.tripped (f := fun p => { p with voltageFrom := none })
        ⟨congrArg Host.Outcome.next (if_pos runs), (Cause.busVoltage_tripsIn state).1, fun _ => rfl⟩
    · exact PrWatch.tripped (f := fun p => { p with capacityFrom := none })
        ⟨congrArg Host.Outcome.next (if_pos runs), (Cause.busVoltage_tripsIn state).2, fun _ => rfl⟩
    · exact PrWatch.tripped (f := fun p => { p with reverseFrom := none })
        ⟨congrArg Host.Outcome.next (if_pos runs), by rw [state]; rfl, fun _ => rfl⟩
  · obtain ⟨p, hexec⟩ := exec_shipCadence v cycle
    obtain ⟨tripped, stays⟩ := State.guards_trips (p := p) (r := phasor s.now none v) nine closed rfl
    rw [stays] at hexec
    exact ⟨_, hexec, tripped.after (State.settle_acts ⟨[], [], false, false, []⟩ _) List.not_mem_nil rfl⟩
  · obtain ⟨p, hexec⟩ := exec_shipCadence v cycle
    have counts := State.guards_counts p (phasor s.now none v) closed few
    rw [counts.stays] at hexec
    have same := State.settle_berth (s := s.guards o p (phasor s.now none v)) (o := o) (by
      rw [counts.sc]; exact (OutletState.closed_idle closed).2)
    refine ⟨_, hexec, ?_, by rw [same.sc, counts.sc]⟩
    rw [same.pr, counts.pr]
    exact (countRecord_eq few _).trans (if_pos rfl)
  · exact tenthTrips (v := v) closed nine (.inr (.inr ⟨c, last, freq, rfl, cycle, low, high, hfreq, outside⟩))
  · exact earlierCounted (v := v) closed few light stop
      (.inr (.inr ⟨c, last, freq, rfl, cycle, low, high, hfreq, outside⟩))
  · obtain ⟨p, r, c, brings, hexec, frame⟩ := State.BringsRecord.brings (s := s) (pt := .ship o) (v := v) hi
    obtain ⟨w, hw, rest⟩ := State.takeShip_judged (s := s) (o := o) brings.record v c
    have counts := State.guards_counts p r closed few
    rw [hw, counts.stays] at rest
    obtain ⟨state, -, voltage⟩ := counts.step rest closed light stop
    exact ⟨_, hexec, frame, state, voltage.trans (brings.outsideVoltage hj _ _)⟩
  · obtain ⟨t, r, hexec, frame, stamp, done⟩ := makes.done c few light (fun x hx => .inl (stop x hx))
      (.inl (beq_eq_false_iff_ne.mpr (OutletState.closed_idle closed).2))
    obtain ⟨state, overload, capacity, reverse⟩ := done.protection closed
    rw [← hcap] at overload capacity reverse
    refine ⟨t, r, hexec, frame, done.power, stamp, state, ?_, ?_, fun supply => ?_⟩
    · rw [overload, countRecord_eq light]
      unfold overloaded
      simp only [decide_eq_true_eq]
    · rw [capacity]
      unfold watch capacityLost
      simp only [decide_eq_true_eq]
    · rw [reverse supply]
      unfold watch reversed
      simp only [decide_eq_true_eq]

end Sys2Proof.Proofs
end
